-- ==== Sys2Proof/Word.lean ====
section
/-! DEFINITION. The word types of the AK960 and their plainest arithmetic (spec 00_scope R1, R5). -/

namespace Sys2Proof

/-- A byte of memory or of a register image (R1). -/
abbrev Byte := BitVec 8

/-- A 32-bit instruction word (R108). -/
abbrev InstrWord := BitVec 32

/-- A 64-bit scalar register, address or control register value (R18, R161). -/
abbrev Word := BitVec 64

/-- The number of a scalar register, x or f. -/
abbrev XReg := BitVec 5

/-- The number of a vector register, v0 to v31 (R118). -/
abbrev VRegNo := BitVec 5

/-- The number of a mask register, m0 to m7 (R118). -/
abbrev MaskNo := BitVec 3

/-- The number of a load queue, q0 to q3 (R119). -/
abbrev QueueNo := BitVec 2

/-- The number of an accumulator tile, t0 to t3 (R132). -/
abbrev TileNo := BitVec 2

/-- A 5-bit immediate of the VR format (R119). -/
abbrev Imm5 := BitVec 5

end Sys2Proof
end

