-- ==== Sys2Proof/Syntax.lean ====
section
/-! DEFINITION. The instructions and events of the AK960: one constructor of `Instr` per row of the opcode table. -/

namespace Sys2Proof

/-- The condition of `cmp`, `cmpz` and `acmp` (R127, R132). -/
inductive Cond where
  | eq | ne | lt | le
deriving DecidableEq, Repr

/-- The condition of `fcmp` (R129). -/
inductive FCond where
  | eq | lt | le | unord
deriving DecidableEq, Repr

/-- The factor of `sext`, `zext` and `narrow` (R128); the code 0b00 is reserved. -/
inductive Factor where
  | two | four | eight
deriving DecidableEq, Repr

/-- The operation of `bitc` (R127). -/
inductive BitCount where
  | popc | clz | ctz
deriving DecidableEq, Repr

/-- A floating-point element format (R53). -/
inductive FFmt where
  | fp4 | e2m3 | e3m2 | e4m3 | e5m2 | fp16 | bf16 | fp32 | fp64
deriving DecidableEq, Repr

/-- The conversion code of `fcvt` (R130). -/
inductive CvtCode where
  | toFloat (f : FFmt) | toInt | toUint | fromInt | fromUint
deriving DecidableEq, Repr

/-- The float code of `aconv` and `afrom`: the codes 5 to 8 (R132). -/
inductive AnchorFloat where
  | fp16 | bf16 | fp32 | fp64
deriving DecidableEq, Repr

/-- The operation of `vamo` and `vupd.o` (R133). -/
inductive AtomicOp where
  | add | fadd | min | max | minz | maxz | or | swap
deriving DecidableEq, Repr

/-- The scope of a fence (R135). -/
inductive Scope where
  | hart | gang | core | die | dev | dom | sys
deriving DecidableEq, Repr

/-- The form of a Zicsr instruction (RV64 base, R111). -/
inductive CsrOp where
  | rw | rs | rc | rwi | rsi | rci
deriving DecidableEq, Repr

/-- The condition of a base branch. -/
inductive BranchOp where
  | eq | ne | lt | ge | ltu | geu
deriving DecidableEq, Repr

/-- A base integer load. -/
inductive LoadOp where
  | lb | lh | lw | ld | lbu | lhu | lwu
deriving DecidableEq, Repr

/-- A base integer store. -/
inductive StoreOp where
  | sb | sh | sw | sd
deriving DecidableEq, Repr

/-- A base operation with a 12-bit immediate. -/
inductive ImmOp where
  | addi | slti | sltiu | xori | ori | andi
deriving DecidableEq, Repr

/-- A shift or rotate by an immediate: 64-bit forms, and `slli.uw` of Zba. -/
inductive ShiftOp where
  | slli | srli | srai | rori | slliUw
deriving DecidableEq, Repr

/-- A 32-bit shift or rotate by an immediate. -/
inductive ShiftWOp where
  | slliw | srliw | sraiw | roriw
deriving DecidableEq, Repr

/-- A 64-bit register operation of I, M, Zba, Zbb and Zicond. -/
inductive RegOp where
  | add | sub | sll | slt | sltu | xor | srl | sra | or | and
  | mul | mulh | mulhsu | mulhu | div | divu | rem | remu
  | sh1add | sh2add | sh3add
  | andn | orn | xnor | max | maxu | min | minu | rol | ror
  | czeroEqz | czeroNez
deriving DecidableEq, Repr

/-- A 32-bit register operation of I, M, Zba and Zbb. -/
inductive RegWOp where
  | addw | subw | sllw | srlw | sraw
  | mulw | divw | divuw | remw | remuw
  | addUw | sh1addUw | sh2addUw | sh3addUw | rolw | rorw
deriving DecidableEq, Repr

/-- A one-operand operation of Zbb. -/
inductive UnaryOp where
  | clz | ctz | cpop | sextB | sextH | orcB | rev8 | clzw | ctzw | cpopw | zextH
deriving DecidableEq, Repr

/-- An atomic memory operation of the base. -/
inductive AmoOp where
  | swap | add | xor | and | or | min | max | minu | maxu
deriving DecidableEq, Repr

/-- The rounding-mode field of an F or D instruction; the codes 5 and 6 are reserved. -/
inductive Rm where
  | rne | rtz | rdn | rup | rmm | dyn
deriving DecidableEq, Repr

/-- A two-operand F or D operation that rounds. -/
inductive FArithOp where
  | fadd | fsub | fmul | fdiv
deriving DecidableEq, Repr

/-- A fused F or D operation. -/
inductive FmaOp where
  | fmadd | fmsub | fnmsub | fnmadd
deriving DecidableEq, Repr

/-- A two-operand F or D operation that does not round. -/
inductive FPairOp where
  | fsgnj | fsgnjn | fsgnjx | fmin | fmax
deriving DecidableEq, Repr

/-- A comparison of F or D. -/
inductive FCmpOp where
  | feq | flt | fle
deriving DecidableEq, Repr

/-- The integer side of an F or D conversion. -/
inductive IntKind where
  | w | wu | l | lu
deriving DecidableEq, Repr

/-- An instruction of the RV64 base that has no row of its own (R111): I, M, A, F, D, Zba, Zbb, Zicond, and the
Zicsr forms that only read. `dbl` selects D over F, or the 64-bit form of an AMO. -/
inductive RvInstr where
  | lui (rd : XReg) (imm : BitVec 20)
  | auipc (rd : XReg) (imm : BitVec 20)
  | jal (rd : XReg) (imm : BitVec 20)
  | jalr (rd rs1 : XReg) (imm : BitVec 12)
  | branch (op : BranchOp) (rs1 rs2 : XReg) (imm : BitVec 12)
  | load (op : LoadOp) (rd rs1 : XReg) (imm : BitVec 12)
  | store (op : StoreOp) (rs1 rs2 : XReg) (imm : BitVec 12)
  | opImm (op : ImmOp) (rd rs1 : XReg) (imm : BitVec 12)
  | addiw (rd rs1 : XReg) (imm : BitVec 12)
  | shiftImm (op : ShiftOp) (rd rs1 : XReg) (sh : BitVec 6)
  | shiftImmW (op : ShiftWOp) (rd rs1 : XReg) (sh : BitVec 5)
  | op (op : RegOp) (rd rs1 rs2 : XReg)
  | opW (op : RegWOp) (rd rs1 rs2 : XReg)
  | unary (op : UnaryOp) (rd rs1 : XReg)
  | amo (op : AmoOp) (dbl aq rl : Bool) (rd rs1 rs2 : XReg)
  | fload (dbl : Bool) (rd rs1 : XReg) (imm : BitVec 12)
  | fstore (dbl : Bool) (rs1 rs2 : XReg) (imm : BitVec 12)
  | farith (op : FArithOp) (dbl : Bool) (rm : Rm) (rd rs1 rs2 : XReg)
  | fsqrt (dbl : Bool) (rm : Rm) (rd rs1 : XReg)
  | fma (op : FmaOp) (dbl : Bool) (rm : Rm) (rd rs1 rs2 rs3 : XReg)
  | fpair (op : FPairOp) (dbl : Bool) (rd rs1 rs2 : XReg)
  | fcmp (op : FCmpOp) (dbl : Bool) (rd rs1 rs2 : XReg)
  | fclass (dbl : Bool) (rd rs1 : XReg)
  | fcvtToInt (k : IntKind) (dbl : Bool) (rm : Rm) (rd rs1 : XReg)
  | fcvtFromInt (k : IntKind) (dbl : Bool) (rm : Rm) (rd rs1 : XReg)
  | fcvtSD (rm : Rm) (rd rs1 : XReg)
  | fcvtDS (rm : Rm) (rd rs1 : XReg)
  | fmvToX (dbl : Bool) (rd rs1 : XReg)
  | fmvFromX (dbl : Bool) (rd rs1 : XReg)
  | csrRead (clear imm : Bool) (rd : XReg) (csr : BitVec 12)
  | mret
  | sret
deriving DecidableEq, Repr

/-- The load-reserved and store-conditional forms of the base (R113). -/
inductive LrScInstr where
  | lr (dbl aq rl : Bool) (rd rs1 : XReg)
  | sc (dbl aq rl : Bool) (rd rs1 rs2 : XReg)
deriving DecidableEq, Repr

/-- The doorbell of a launch queue, as a system core reaches it (R457). -/
structure Doorbell where
  core : Nat
  queue : Nat
deriving DecidableEq, Repr

/-- Who makes a firmware call of R467: a system core, or a compute hart. -/
inductive Caller where
  | systemCore (core : Nat)
  | computeHart (hid : Nat)
deriving DecidableEq, Repr

/-- What a request from outside the compute harts asks of one run of bytes (R454, R460, R461). -/
inductive MemAction where
  | load (bytes : Nat)
  | store (data : List Byte)
  | atomic (op : AmoOp) (dbl : Bool) (value : Word)
deriving DecidableEq, Repr

/-- A request of a system core, a PCI Express peer or a remote device (R454). -/
structure MemRequest where
  addr : Word
  action : MemAction
deriving DecidableEq, Repr

/-- A micro-op of a window's plan (R435): the word of its instruction, the lane quads of its gang, its number among the micro-ops of its
instruction, and the elements below `vl` with their width in bits. -/
structure MicroOp where
  word : InstrWord
  quads : BitVec 4
  index : Nat
  vl : Nat
  width : Nat
deriving DecidableEq, Repr

/-- What one core will issue in a 16-cycle window (R435, R438): its micro-ops, and how many of the cycles the matrix unit is idle in. -/
structure CorePlan where
  ops : List MicroOp
  idleMatrix : Nat
deriving DecidableEq, Repr

/-- The plans of the four cores of a string for one window (R436). -/
structure WindowPlans where
  c0 : CorePlan
  c1 : CorePlan
  c2 : CorePlan
  c3 : CorePlan
deriving DecidableEq, Repr

/-- What the power manager finds at the end of a period (R440): the mean module power over the last 10 ms in mW, whether a die
temperature is above its limit, whether it may restore power, which core has the largest plan, and which region it would take the
row-activation window of. -/
structure PowerReading where
  milliwatts : Nat
  hot : Bool
  restore : Bool
  largestPlanCore : Nat
  region : Nat
deriving DecidableEq, Repr

/-- Which store queue a performed store leaves: a hart's own, or the stores a switched-out gang left behind (R318). -/
inductive StoreSource where
  | hart (hid : Nat)
  | passed (gang : Nat)
deriving DecidableEq, Repr

/-- Where an uncorrectable error is found (R398). -/
inductive ErrorSource where
  | hbm | sidecar | l2 | scratchpad | l1d | cxl | nearMemory
deriving DecidableEq, Repr

/-- One image of the boot chain (R463). -/
structure BootImage where
  body : List Byte
  signature : List Byte
  verifyingKey : List Byte
  version : Nat
deriving DecidableEq, Repr

/-- The boot chain that module flash holds (R463), in the order in which each stage checks the next. -/
structure BootImages where
  stage1 : BootImage
  firmware : BootImage
  supervisor : BootImage
  device : Nat
  expanderUnits : List Nat
deriving DecidableEq, Repr

/-- The instructions and events of the AK960, one per row of the opcode table.
Field names of ALV words: `m` mask [27:25], `b` [24:20], `a` [19:15], `d` [11:7], `q` load queue, `t` tile, `e` mask
destination, `c` condition or conversion code, `f` factor, `o` sub-operation, `s` store source or scope. -/
inductive Instr where
  /-- Executes an RV64 base instruction of the implemented extensions (R111). -/
  | scalarBaseInstruction (i : RvInstr)
  /-- Orders scalar-stream accesses only (R116). -/
  | fence (fm : BitVec 4) (pred : BitVec 4) (succ : BitVec 4) (rs1 : XReg) (rd : XReg)
  /-- Makes later fetches see earlier scalar stores and discards prefetched lines (R116). -/
  | fenceI (imm : BitVec 12) (rs1 : XReg) (rd : XReg)
  /-- Invalidates matching translations on every compute core and waits for walks and pins (R391). -/
  | sfenceVma (rs1 : XReg) (rs2 : XReg)
  /-- Waits in S or M mode for an interrupt; illegal in U mode (R114). -/
  | wfi
  /-- Traps to the next privilege mode; in U mode to the compute supervisor (R117). -/
  | ecall
  /-- Raises the breakpoint trap; in U mode to S mode (R117). -/
  | ebreak
  /-- Takes or tests a reservation on a 64-byte line (R113). -/
  | lrSc (i : LrScInstr)
  /-- M-mode call granting system cores a window onto a realm's granules (R455). -/
  | grantWindow (hid : Nat)
  /-- M-mode call revoking a granted window once its accesses finish (R455). -/
  | revokeWindow (hid : Nat)
  /-- M-mode call assigning realm-0 granules to a tenant realm and zeroing them (R467). -/
  | assignGranules (caller : Caller) (a0 : Word) (a1 : Word) (a2 : Word)
  /-- M-mode call returning a tenant realm's granules to realm 0 and zeroing them (R467). -/
  | releaseGranules (caller : Caller) (a0 : Word) (a1 : Word)
  /-- M-mode call setting the owning realm of a disabled empty launch queue (R467). -/
  | setQueueOwner (caller : Caller) (a0 : Word) (a1 : Word)
  /-- A word failing decode raises the illegal-instruction exception once older vector work completes (R123). -/
  | illegalInstruction (word : InstrWord)
  /-- The vector unit admits one admissible VIQ head per cycle, applying admission checks and renaming (R32). -/
  | viqAdmission (core : Nat)
  /-- A VIQ head unadmitted for 64 cycles becomes aged and takes precedence (R32). -/
  | viqHeadAged (hid : Nat)
  /-- A micro-op issues from the window once its operands are ready and chaining permits (R35). -/
  | microOpIssue (hid : Nat)
  /-- An instruction whose micro-ops are done becomes architectural, ORs its flags and releases old slots (R35). -/
  | vectorInstructionComplete (hid : Nat)
  /-- A probe waiting for pin entries takes all its pins once enough are free (R317). -/
  | pinEntriesFree (core : Nat)
  /-- A store form's bytes are performed and its VSQ entry frees (R318). -/
  | storePerformed (source : StoreSource)
  /-- Landing copy groups advance a bank's arrival pointer and release waiting vld.w groups (R298). -/
  | arrivalPointerAdvance (core : Nat) (bank : Nat) (bytes : Nat)
  /-- A further ald.c attempt begins after its back-off gap (R105). -/
  | aldCAttempt (hid : Nat)
  /-- Release of line locks lets waiting accesses to the lines proceed (R334). -/
  | lineLockRelease (hid : Nat)
  /-- A base die applies a near-memory command to one line (R339). -/
  | nmLineApply (cmd : Nat) (line : Nat)
  /-- After every line, the base dies write the completion record, freeing the NQ entry (R340). -/
  | nmCompletionRecord (cmd : Nat)
  /-- A queued CXL request issues when the expander has an outstanding slot (R302). -/
  | cxlRequestIssue (expander : Nat)
  /-- A waiting HBM request activates its row when the activation window allows (R443). -/
  | rowActivation (region : Nat) (channel : Nat)
  /-- On a function entry the prefetcher fetches lines of listed callees (R151). -/
  | callGraphPrefetch (hid : Nat)
  /-- The prefetcher fetches the next 64-byte line ahead of execution (R50). -/
  | sequentialPrefetch (hid : Nat)
  /-- A vector trap discards younger work, writes the suspended-queue area and enters S or M mode (R401). -/
  | vectorTrap (hid : Nat)
  /-- An anchor trap is delivered to the user handler through aqsave and avec (R251). -/
  | userAnchorDelivery (hid : Nat)
  /-- A pending interrupt is taken at a scalar boundary with an empty VIQ (R403). -/
  | interrupt (hid : Nat)
  /-- An uncorrectable error in unpoisonable hart state terminates the hart (R409). -/
  | hartFatalError (hid : Nat)
  /-- The compute supervisor terminates a hart, halting it (R48). -/
  | supervisorTerminate (hid : Nat)
  /-- A launch record reaching its queue head is checked and rejected on the first failing check (R24). -/
  | launchCheck (queue : Nat)
  /-- Each whole millisecond at the head raises a record's effective priority, capped at 7 (R25). -/
  | queueHeadAging (queue : Nat)
  /-- A dispatcher places the next gang on a core with all its resources free, starting its harts (R27). -/
  | gangPlacement (die : Nat)
  /-- When every live hart has stopped at an RP setl, lanes and desk shrink and the setls complete (R41). -/
  | reclaimTakesEffect (gang : Nat)
  /-- A reclaim not in effect after 50 us is abandoned and the victim fully switched out (R43). -/
  | reclaimAbandon (gang : Nat)
  /-- The context engine saves a victim gang's context, scratchpad and barriers (R46). -/
  | fullContextSwitch (gang : Nat)
  /-- A gang's time slice ends, switching it out or renewing the slice (R45). -/
  | timeSliceExpiry (gang : Nat)
  /-- A switched-out gang is placed again and its image restored once its stores and nm commands finish (R468). -/
  | gangRestore (die : Nat)
  /-- A gang whose harts have all halted retires and its resources are cleared (R48). -/
  | gangRetire (gang : Nat)
  /-- On the last gang's retirement the completion record is written and the successor read and enqueued (R49). -/
  | launchComplete (launch : Nat)
  /-- A held successor takes the first slot that frees in its queue (R350). -/
  | heldSuccessorEntersQueue (queue : Nat)
  /-- A submitted launch record enters its reserved slot and the LQ entry frees (R351). -/
  | lqRecordEntersQueue (hid : Nat)
  /-- A barrier phase completes when enough harts have arrived or halted, releasing waiters (R357). -/
  | barrierPhaseComplete (gang : Nat) (barrier : Nat)
  /-- A value arriving in a pigeonhole completes a waiting qpop or room completes a waiting qpush (R355). -/
  | pigeonholeValueArrives (hid : Nat)
  /-- A waiting wait.mem re-reads its doubleword after a store to its line or at its deadline (R359). -/
  | waitMemReread (hid : Nat)
  /-- The timebase reaches a wait.time deadline and the instruction completes (R360). -/
  | waitTimeDeadline (hid : Nat)
  /-- A write sets the core's power lane ceiling for later setl grants (R175). -/
  | pwrgrantWrite (op : CsrOp) (rd : XReg) (src : BitVec 5)
  /-- A write sets which unit pairs may chain for micro-ops not yet issued (R182). -/
  | chainpermWrite (op : CsrOp) (rd : XReg) (src : BitVec 5)
  /-- A write sets the string policy and limit for all four string-mates (R183). -/
  | busyctlWrite (op : CsrOp) (rd : XReg) (src : BitVec 5)
  /-- A write of GENCAP takes effect at the hart's next desk expansion (R179). -/
  | vdeskWrite (op : CsrOp) (rd : XReg) (src : BitVec 5)
  /-- A write sets translation mode, ASID and root table (R385). -/
  | satpWrite (op : CsrOp) (rd : XReg) (src : BitVec 5)
  /-- An M-mode write replaces a shared counter's value (R434). -/
  | mhpmcounterWrite (op : CsrOp) (rd : XReg) (n : BitVec 4) (src : BitVec 5)
  /-- A write selects a counter's event and filters from the next cycle (R432). -/
  | mhpmeventWrite (op : CsrOp) (rd : XReg) (n : BitVec 4) (src : BitVec 5)
  /-- A write to any other CSR, ordered against the vector stream where R163 says so (R163). -/
  | csrWrite (op : CsrOp) (rd : XReg) (csr : BitVec 12) (src : BitVec 5)
  /-- A write sets a launch queue's ENABLE bit (R456). -/
  | lqctlWrite (queue : Nat) (value : Word)
  /-- An amoswap on LQDOORn submits a launch record and returns its status (R457). -/
  | lqDoorbell (door : Doorbell) (record : Word)
  /-- An Ethernet launch frame is checked, decrypted and entered into its launch queue (R459). -/
  | launchFrameReceive (frame : List Byte)
  /-- An inbound PCI Express request is realm-checked and served through the home L2 (R460). -/
  | pcieInboundRequest (req : MemRequest)
  /-- A request from a remote device over Shofin is served through a permitted aperture (R287). -/
  | shofinRemoteRequest (device : Nat) (realm : Nat) (req : MemRequest)
  /-- A route still down after 10 ms poisons remote loads and drops stores and atomics (R462). -/
  | routeDownTimeout (device : Nat)
  /-- Every 1 ms each link exchanges timestamps and the timebase is slewed (R462). -/
  | timestampExchange (correction : Int)
  /-- Each 250 MHz reference edge advances the timebase by 4 ns (R428). -/
  | timebaseTick
  /-- Each 16-cycle window the arbiter sets series current, busywork and step for a string (R437). -/
  | stringWindow (string : Nat) (plans : WindowPlans)
  /-- After 16 consecutive windows that fit one step higher, the string moves up one step (R438). -/
  | stringStepUp (string : Nat)
  /-- Every 100 us the power manager cuts or restores one power action (R440). -/
  | powerManagerPeriod (reading : PowerReading)
  /-- A lane idle for 64 cycles is power-gated with its bytes retained (R441). -/
  | lanePowerGate (core : Nat) (lane : Nat)
  /-- A gated lane's first micro-op issues after the 32-cycle wake (R441). -/
  | laneWake (core : Nat) (lane : Nat)
  /-- An uncorrectable memory error poisons its unit (R304). -/
  | uncorrectableError (source : ErrorSource) (addr : Word)
  /-- A corrected HBM error is counted per layer in the report card (R304). -/
  | correctableError (stack : Nat) (layer : Nat)
  /-- An L1D parity error refetches a clean line or poisons a dirty one (R295). -/
  | l1dParityError (addr : Word) (dirty : Bool)
  /-- Firmware begins mapping out a failing layer by raising a hot-remove event (R305). -/
  | layerMapOut (region : Nat) (stack : Nat) (layer : Nat)
  /-- Once the OS reports the range vacated, firmware moves lines and lowers CAP (R305). -/
  | mapOutVacated (region : Nat)
  /-- One line of the failing layer moves to a freed slot as a single event (R306). -/
  | mapOutLineMove (region : Nat)
  /-- Cold reset runs the signed boot chain from the boot ROM (R463). -/
  | coldReset (boot : BootImages)
  /-- Warm reset stops harts, clears keys and queues, scrubs memories and restarts the system cores (R465). -/
  | warmReset
  /-- When PHYs and links finish retraining, held memory accesses are accepted (R308). -/
  | memready
  /-- Firmware signs and returns an attestation report for a nonce (R464). -/
  | attestationRequest (realm : Nat) (nonce : List Byte)
  /-- Every 10 minutes firmware writes the report card to flash (R445). -/
  | reportCardWrite
  /-- After a fatal error firmware writes the report card and fills the dump region (R466). -/
  | fatalDump (reason : Nat)
  /-- A Shofin route loses its link and begins to retrain, and domain accesses on it start to wait (R462). -/
  | shofinRouteLost (device : Nat)
  /-- A Shofin route or port finishes retraining, the waiting domain accesses proceed and its retrain count advances (R462). -/
  | shofinRouteRetrained (device : Nat) (port : Nat)
  /-- An HBM PHY or a die-to-die link finishes training and its MEMSTAT.PHY or D2D bit rises (R308). -/
  | phyTrainingComplete (d2d : Bool) (die : Nat)
  /-- A system-core load or store to device memory is checked against realm ownership and windows and served through the home L2, or refused with an access fault (R454). -/
  | systemCoreMemoryAccess (core : Nat) (req : MemRequest)
  /-- `add.vv` (R208). -/
  | addVv (m : MaskNo) (b : BitVec 5) (a : BitVec 5) (d : BitVec 5)
  /-- `add.vx` (R208). -/
  | addVx (m : MaskNo) (b : BitVec 5) (a : BitVec 5) (d : BitVec 5)
  /-- `add.vi` (R208). -/
  | addVi (m : MaskNo) (b : BitVec 5) (a : BitVec 5) (d : BitVec 5)
  /-- `add.vq` (R208). -/
  | addVq (m : MaskNo) (b : BitVec 5) (q : QueueNo) (d : BitVec 5)
  /-- `add.vn` (R208). -/
  | addVn (m : MaskNo) (b : BitVec 5) (a : BitVec 5) (d : BitVec 5)
  /-- `sub.vv` (R208). -/
  | subVv (m : MaskNo) (b : BitVec 5) (a : BitVec 5) (d : BitVec 5)
  /-- `sub.vx` (R208). -/
  | subVx (m : MaskNo) (b : BitVec 5) (a : BitVec 5) (d : BitVec 5)
  /-- `sub.vi` (R208). -/
  | subVi (m : MaskNo) (b : BitVec 5) (a : BitVec 5) (d : BitVec 5)
  /-- `sub.vq` (R208). -/
  | subVq (m : MaskNo) (b : BitVec 5) (q : QueueNo) (d : BitVec 5)
  /-- `sub.vn` (R208). -/
  | subVn (m : MaskNo) (b : BitVec 5) (a : BitVec 5) (d : BitVec 5)
  /-- `rsub.vv` (R208). -/
  | rsubVv (m : MaskNo) (b : BitVec 5) (a : BitVec 5) (d : BitVec 5)
  /-- `rsub.vx` (R208). -/
  | rsubVx (m : MaskNo) (b : BitVec 5) (a : BitVec 5) (d : BitVec 5)
  /-- `rsub.vi` (R208). -/
  | rsubVi (m : MaskNo) (b : BitVec 5) (a : BitVec 5) (d : BitVec 5)
  /-- `rsub.vq` (R208). -/
  | rsubVq (m : MaskNo) (b : BitVec 5) (q : QueueNo) (d : BitVec 5)
  /-- `rsub.vn` (R208). -/
  | rsubVn (m : MaskNo) (b : BitVec 5) (a : BitVec 5) (d : BitVec 5)
  /-- `mul.vv` (R208). -/
  | mulVv (m : MaskNo) (b : BitVec 5) (a : BitVec 5) (d : BitVec 5)
  /-- `mul.vx` (R208). -/
  | mulVx (m : MaskNo) (b : BitVec 5) (a : BitVec 5) (d : BitVec 5)
  /-- `mul.vi` (R208). -/
  | mulVi (m : MaskNo) (b : BitVec 5) (a : BitVec 5) (d : BitVec 5)
  /-- `mul.vq` (R208). -/
  | mulVq (m : MaskNo) (b : BitVec 5) (q : QueueNo) (d : BitVec 5)
  /-- `mul.vn` (R208). -/
  | mulVn (m : MaskNo) (b : BitVec 5) (a : BitVec 5) (d : BitVec 5)
  /-- `mulh.vv` (R208). -/
  | mulhVv (m : MaskNo) (b : BitVec 5) (a : BitVec 5) (d : BitVec 5)
  /-- `mulh.vx` (R208). -/
  | mulhVx (m : MaskNo) (b : BitVec 5) (a : BitVec 5) (d : BitVec 5)
  /-- `mulh.vi` (R208). -/
  | mulhVi (m : MaskNo) (b : BitVec 5) (a : BitVec 5) (d : BitVec 5)
  /-- `mulh.vq` (R208). -/
  | mulhVq (m : MaskNo) (b : BitVec 5) (q : QueueNo) (d : BitVec 5)
  /-- `mulh.vn` (R208). -/
  | mulhVn (m : MaskNo) (b : BitVec 5) (a : BitVec 5) (d : BitVec 5)
  /-- `min.vv` (R208). -/
  | minVv (m : MaskNo) (b : BitVec 5) (a : BitVec 5) (d : BitVec 5)
  /-- `min.vx` (R208). -/
  | minVx (m : MaskNo) (b : BitVec 5) (a : BitVec 5) (d : BitVec 5)
  /-- `min.vi` (R208). -/
  | minVi (m : MaskNo) (b : BitVec 5) (a : BitVec 5) (d : BitVec 5)
  /-- `min.vq` (R208). -/
  | minVq (m : MaskNo) (b : BitVec 5) (q : QueueNo) (d : BitVec 5)
  /-- `min.vn` (R208). -/
  | minVn (m : MaskNo) (b : BitVec 5) (a : BitVec 5) (d : BitVec 5)
  /-- `max.vv` (R208). -/
  | maxVv (m : MaskNo) (b : BitVec 5) (a : BitVec 5) (d : BitVec 5)
  /-- `max.vx` (R208). -/
  | maxVx (m : MaskNo) (b : BitVec 5) (a : BitVec 5) (d : BitVec 5)
  /-- `max.vi` (R208). -/
  | maxVi (m : MaskNo) (b : BitVec 5) (a : BitVec 5) (d : BitVec 5)
  /-- `max.vq` (R208). -/
  | maxVq (m : MaskNo) (b : BitVec 5) (q : QueueNo) (d : BitVec 5)
  /-- `max.vn` (R208). -/
  | maxVn (m : MaskNo) (b : BitVec 5) (a : BitVec 5) (d : BitVec 5)
  /-- `and.vv` (R208). -/
  | andVv (m : MaskNo) (b : BitVec 5) (a : BitVec 5) (d : BitVec 5)
  /-- `and.vx` (R208). -/
  | andVx (m : MaskNo) (b : BitVec 5) (a : BitVec 5) (d : BitVec 5)
  /-- `and.vi` (R208). -/
  | andVi (m : MaskNo) (b : BitVec 5) (a : BitVec 5) (d : BitVec 5)
  /-- `and.vq` (R208). -/
  | andVq (m : MaskNo) (b : BitVec 5) (q : QueueNo) (d : BitVec 5)
  /-- `and.vn` (R208). -/
  | andVn (m : MaskNo) (b : BitVec 5) (a : BitVec 5) (d : BitVec 5)
  /-- `or.vv` (R208). -/
  | orVv (m : MaskNo) (b : BitVec 5) (a : BitVec 5) (d : BitVec 5)
  /-- `or.vx` (R208). -/
  | orVx (m : MaskNo) (b : BitVec 5) (a : BitVec 5) (d : BitVec 5)
  /-- `or.vi` (R208). -/
  | orVi (m : MaskNo) (b : BitVec 5) (a : BitVec 5) (d : BitVec 5)
  /-- `or.vq` (R208). -/
  | orVq (m : MaskNo) (b : BitVec 5) (q : QueueNo) (d : BitVec 5)
  /-- `or.vn` (R208). -/
  | orVn (m : MaskNo) (b : BitVec 5) (a : BitVec 5) (d : BitVec 5)
  /-- `xor.vv` (R208). -/
  | xorVv (m : MaskNo) (b : BitVec 5) (a : BitVec 5) (d : BitVec 5)
  /-- `xor.vx` (R208). -/
  | xorVx (m : MaskNo) (b : BitVec 5) (a : BitVec 5) (d : BitVec 5)
  /-- `xor.vi` (R208). -/
  | xorVi (m : MaskNo) (b : BitVec 5) (a : BitVec 5) (d : BitVec 5)
  /-- `xor.vq` (R208). -/
  | xorVq (m : MaskNo) (b : BitVec 5) (q : QueueNo) (d : BitVec 5)
  /-- `xor.vn` (R208). -/
  | xorVn (m : MaskNo) (b : BitVec 5) (a : BitVec 5) (d : BitVec 5)
  /-- `sll.vv` (R208). -/
  | sllVv (m : MaskNo) (b : BitVec 5) (a : BitVec 5) (d : BitVec 5)
  /-- `sll.vx` (R208). -/
  | sllVx (m : MaskNo) (b : BitVec 5) (a : BitVec 5) (d : BitVec 5)
  /-- `sll.vi` (R208). -/
  | sllVi (m : MaskNo) (b : BitVec 5) (a : BitVec 5) (d : BitVec 5)
  /-- `sll.vq` (R208). -/
  | sllVq (m : MaskNo) (b : BitVec 5) (q : QueueNo) (d : BitVec 5)
  /-- `sll.vn` (R208). -/
  | sllVn (m : MaskNo) (b : BitVec 5) (a : BitVec 5) (d : BitVec 5)
  /-- `srl.vv` (R208). -/
  | srlVv (m : MaskNo) (b : BitVec 5) (a : BitVec 5) (d : BitVec 5)
  /-- `srl.vx` (R208). -/
  | srlVx (m : MaskNo) (b : BitVec 5) (a : BitVec 5) (d : BitVec 5)
  /-- `srl.vi` (R208). -/
  | srlVi (m : MaskNo) (b : BitVec 5) (a : BitVec 5) (d : BitVec 5)
  /-- `srl.vq` (R208). -/
  | srlVq (m : MaskNo) (b : BitVec 5) (q : QueueNo) (d : BitVec 5)
  /-- `srl.vn` (R208). -/
  | srlVn (m : MaskNo) (b : BitVec 5) (a : BitVec 5) (d : BitVec 5)
  /-- `sra.vv` (R208). -/
  | sraVv (m : MaskNo) (b : BitVec 5) (a : BitVec 5) (d : BitVec 5)
  /-- `sra.vx` (R208). -/
  | sraVx (m : MaskNo) (b : BitVec 5) (a : BitVec 5) (d : BitVec 5)
  /-- `sra.vi` (R208). -/
  | sraVi (m : MaskNo) (b : BitVec 5) (a : BitVec 5) (d : BitVec 5)
  /-- `sra.vq` (R208). -/
  | sraVq (m : MaskNo) (b : BitVec 5) (q : QueueNo) (d : BitVec 5)
  /-- `sra.vn` (R208). -/
  | sraVn (m : MaskNo) (b : BitVec 5) (a : BitVec 5) (d : BitVec 5)
  /-- `mac.vv` (R208). -/
  | macVv (m : MaskNo) (b : BitVec 5) (a : BitVec 5) (d : BitVec 5)
  /-- `mac.vx` (R208). -/
  | macVx (m : MaskNo) (b : BitVec 5) (a : BitVec 5) (d : BitVec 5)
  /-- `mac.vi` (R208). -/
  | macVi (m : MaskNo) (b : BitVec 5) (a : BitVec 5) (d : BitVec 5)
  /-- `mac.vq` (R208). -/
  | macVq (m : MaskNo) (b : BitVec 5) (q : QueueNo) (d : BitVec 5)
  /-- `mac.vn` (R208). -/
  | macVn (m : MaskNo) (b : BitVec 5) (a : BitVec 5) (d : BitVec 5)
  /-- `cmp.cc.vv` (R209). -/
  | cmpVv (m : MaskNo) (b : BitVec 5) (a : BitVec 5) (c : Cond) (e : MaskNo)
  /-- `cmp.cc.vx` (R209). -/
  | cmpVx (m : MaskNo) (b : BitVec 5) (a : BitVec 5) (c : Cond) (e : MaskNo)
  /-- `cmp.cc.vi` (R209). -/
  | cmpVi (m : MaskNo) (b : BitVec 5) (a : BitVec 5) (c : Cond) (e : MaskNo)
  /-- `cmp.cc.vq` (R209). -/
  | cmpVq (m : MaskNo) (b : BitVec 5) (q : QueueNo) (c : Cond) (e : MaskNo)
  /-- `cmp.cc.vn` (R209). -/
  | cmpVn (m : MaskNo) (b : BitVec 5) (a : BitVec 5) (c : Cond) (e : MaskNo)
  /-- `cmpz.cc.vv` (R209). -/
  | cmpzVv (m : MaskNo) (b : BitVec 5) (a : BitVec 5) (c : Cond) (e : MaskNo)
  /-- `cmpz.cc.vx` (R209). -/
  | cmpzVx (m : MaskNo) (b : BitVec 5) (a : BitVec 5) (c : Cond) (e : MaskNo)
  /-- `cmpz.cc.vi` (R209). -/
  | cmpzVi (m : MaskNo) (b : BitVec 5) (a : BitVec 5) (c : Cond) (e : MaskNo)
  /-- `cmpz.cc.vq` (R209). -/
  | cmpzVq (m : MaskNo) (b : BitVec 5) (q : QueueNo) (c : Cond) (e : MaskNo)
  /-- `cmpz.cc.vn` (R209). -/
  | cmpzVn (m : MaskNo) (b : BitVec 5) (a : BitVec 5) (c : Cond) (e : MaskNo)
  /-- `minz.xv` (R210). -/
  | minzXv (m : MaskNo) (b : BitVec 5) (a : BitVec 5) (d : BitVec 5)
  /-- `minz.xx` (R210). -/
  | minzXx (m : MaskNo) (b : BitVec 5) (a : BitVec 5) (d : BitVec 5)
  /-- `maxz.xv` (R210). -/
  | maxzXv (m : MaskNo) (b : BitVec 5) (a : BitVec 5) (d : BitVec 5)
  /-- `maxz.xx` (R210). -/
  | maxzXx (m : MaskNo) (b : BitVec 5) (a : BitVec 5) (d : BitVec 5)
  /-- `mulhz.xv` (R210). -/
  | mulhzXv (m : MaskNo) (b : BitVec 5) (a : BitVec 5) (d : BitVec 5)
  /-- `mulhz.xx` (R210). -/
  | mulhzXx (m : MaskNo) (b : BitVec 5) (a : BitVec 5) (d : BitVec 5)
  /-- `div.xv` (R210). -/
  | divXv (m : MaskNo) (b : BitVec 5) (a : BitVec 5) (d : BitVec 5)
  /-- `div.xx` (R210). -/
  | divXx (m : MaskNo) (b : BitVec 5) (a : BitVec 5) (d : BitVec 5)
  /-- `divz.xv` (R210). -/
  | divzXv (m : MaskNo) (b : BitVec 5) (a : BitVec 5) (d : BitVec 5)
  /-- `divz.xx` (R210). -/
  | divzXx (m : MaskNo) (b : BitVec 5) (a : BitVec 5) (d : BitVec 5)
  /-- `rem.xv` (R210). -/
  | remXv (m : MaskNo) (b : BitVec 5) (a : BitVec 5) (d : BitVec 5)
  /-- `rem.xx` (R210). -/
  | remXx (m : MaskNo) (b : BitVec 5) (a : BitVec 5) (d : BitVec 5)
  /-- `remz.xv` (R210). -/
  | remzXv (m : MaskNo) (b : BitVec 5) (a : BitVec 5) (d : BitVec 5)
  /-- `remz.xx` (R210). -/
  | remzXx (m : MaskNo) (b : BitVec 5) (a : BitVec 5) (d : BitVec 5)
  /-- `sadd.xv` (R210). -/
  | saddXv (m : MaskNo) (b : BitVec 5) (a : BitVec 5) (d : BitVec 5)
  /-- `sadd.xx` (R210). -/
  | saddXx (m : MaskNo) (b : BitVec 5) (a : BitVec 5) (d : BitVec 5)
  /-- `ssub.xv` (R210). -/
  | ssubXv (m : MaskNo) (b : BitVec 5) (a : BitVec 5) (d : BitVec 5)
  /-- `ssub.xx` (R210). -/
  | ssubXx (m : MaskNo) (b : BitVec 5) (a : BitVec 5) (d : BitVec 5)
  /-- `wadd.xv` (R211). -/
  | waddXv (m : MaskNo) (b : BitVec 5) (a : BitVec 5) (d : BitVec 5)
  /-- `wadd.xx` (R211). -/
  | waddXx (m : MaskNo) (b : BitVec 5) (a : BitVec 5) (d : BitVec 5)
  /-- `wmul.xv` (R211). -/
  | wmulXv (m : MaskNo) (b : BitVec 5) (a : BitVec 5) (d : BitVec 5)
  /-- `wmul.xx` (R211). -/
  | wmulXx (m : MaskNo) (b : BitVec 5) (a : BitVec 5) (d : BitVec 5)
  /-- `sext` (R212). -/
  | sext (m : MaskNo) (b : BitVec 5) (f : Factor) (d : BitVec 5)
  /-- `zext` (R212). -/
  | zext (m : MaskNo) (b : BitVec 5) (f : Factor) (d : BitVec 5)
  /-- `narrow` (R212). -/
  | narrow (m : MaskNo) (b : BitVec 5) (f : Factor) (d : BitVec 5)
  /-- `narrowz` (R212). -/
  | narrowz (m : MaskNo) (b : BitVec 5) (f : Factor) (d : BitVec 5)
  /-- `absd.xv` (R210). -/
  | absdXv (m : MaskNo) (b : BitVec 5) (a : BitVec 5) (d : BitVec 5)
  /-- `absd.xx` (R210). -/
  | absdXx (m : MaskNo) (b : BitVec 5) (a : BitVec 5) (d : BitVec 5)
  /-- `bitc.op` (R213). -/
  | bitc (m : MaskNo) (b : BitVec 5) (o : BitCount) (d : BitVec 5)
  /-- `fadd.vv` (R214). -/
  | faddVv (m : MaskNo) (b : BitVec 5) (a : BitVec 5) (d : BitVec 5)
  /-- `fadd.vx` (R214). -/
  | faddVx (m : MaskNo) (b : BitVec 5) (a : BitVec 5) (d : BitVec 5)
  /-- `fadd.vq` (R214). -/
  | faddVq (m : MaskNo) (b : BitVec 5) (q : QueueNo) (d : BitVec 5)
  /-- `fadd.vn` (R214). -/
  | faddVn (m : MaskNo) (b : BitVec 5) (a : BitVec 5) (d : BitVec 5)
  /-- `fsub.vv` (R214). -/
  | fsubVv (m : MaskNo) (b : BitVec 5) (a : BitVec 5) (d : BitVec 5)
  /-- `fsub.vx` (R214). -/
  | fsubVx (m : MaskNo) (b : BitVec 5) (a : BitVec 5) (d : BitVec 5)
  /-- `fsub.vq` (R214). -/
  | fsubVq (m : MaskNo) (b : BitVec 5) (q : QueueNo) (d : BitVec 5)
  /-- `fsub.vn` (R214). -/
  | fsubVn (m : MaskNo) (b : BitVec 5) (a : BitVec 5) (d : BitVec 5)
  /-- `fmul.vv` (R214). -/
  | fmulVv (m : MaskNo) (b : BitVec 5) (a : BitVec 5) (d : BitVec 5)
  /-- `fmul.vx` (R214). -/
  | fmulVx (m : MaskNo) (b : BitVec 5) (a : BitVec 5) (d : BitVec 5)
  /-- `fmul.vq` (R214). -/
  | fmulVq (m : MaskNo) (b : BitVec 5) (q : QueueNo) (d : BitVec 5)
  /-- `fmul.vn` (R214). -/
  | fmulVn (m : MaskNo) (b : BitVec 5) (a : BitVec 5) (d : BitVec 5)
  /-- `fdiv.vv` (R214). -/
  | fdivVv (m : MaskNo) (b : BitVec 5) (a : BitVec 5) (d : BitVec 5)
  /-- `fdiv.vx` (R214). -/
  | fdivVx (m : MaskNo) (b : BitVec 5) (a : BitVec 5) (d : BitVec 5)
  /-- `fdiv.vq` (R214). -/
  | fdivVq (m : MaskNo) (b : BitVec 5) (q : QueueNo) (d : BitVec 5)
  /-- `fdiv.vn` (R214). -/
  | fdivVn (m : MaskNo) (b : BitVec 5) (a : BitVec 5) (d : BitVec 5)
  /-- `fmin.vv` (R214). -/
  | fminVv (m : MaskNo) (b : BitVec 5) (a : BitVec 5) (d : BitVec 5)
  /-- `fmin.vx` (R214). -/
  | fminVx (m : MaskNo) (b : BitVec 5) (a : BitVec 5) (d : BitVec 5)
  /-- `fmin.vq` (R214). -/
  | fminVq (m : MaskNo) (b : BitVec 5) (q : QueueNo) (d : BitVec 5)
  /-- `fmin.vn` (R214). -/
  | fminVn (m : MaskNo) (b : BitVec 5) (a : BitVec 5) (d : BitVec 5)
  /-- `fmax.vv` (R214). -/
  | fmaxVv (m : MaskNo) (b : BitVec 5) (a : BitVec 5) (d : BitVec 5)
  /-- `fmax.vx` (R214). -/
  | fmaxVx (m : MaskNo) (b : BitVec 5) (a : BitVec 5) (d : BitVec 5)
  /-- `fmax.vq` (R214). -/
  | fmaxVq (m : MaskNo) (b : BitVec 5) (q : QueueNo) (d : BitVec 5)
  /-- `fmax.vn` (R214). -/
  | fmaxVn (m : MaskNo) (b : BitVec 5) (a : BitVec 5) (d : BitVec 5)
  /-- `fmadd.vv` (R214). -/
  | fmaddVv (m : MaskNo) (b : BitVec 5) (a : BitVec 5) (d : BitVec 5)
  /-- `fmadd.vx` (R214). -/
  | fmaddVx (m : MaskNo) (b : BitVec 5) (a : BitVec 5) (d : BitVec 5)
  /-- `fmadd.vq` (R214). -/
  | fmaddVq (m : MaskNo) (b : BitVec 5) (q : QueueNo) (d : BitVec 5)
  /-- `fmadd.vn` (R214). -/
  | fmaddVn (m : MaskNo) (b : BitVec 5) (a : BitVec 5) (d : BitVec 5)
  /-- `fnmsub.vv` (R214). -/
  | fnmsubVv (m : MaskNo) (b : BitVec 5) (a : BitVec 5) (d : BitVec 5)
  /-- `fnmsub.vx` (R214). -/
  | fnmsubVx (m : MaskNo) (b : BitVec 5) (a : BitVec 5) (d : BitVec 5)
  /-- `fnmsub.vq` (R214). -/
  | fnmsubVq (m : MaskNo) (b : BitVec 5) (q : QueueNo) (d : BitVec 5)
  /-- `fnmsub.vn` (R214). -/
  | fnmsubVn (m : MaskNo) (b : BitVec 5) (a : BitVec 5) (d : BitVec 5)
  /-- `fcmp.cc.vv` (R215). -/
  | fcmpVv (m : MaskNo) (b : BitVec 5) (a : BitVec 5) (c : FCond) (e : MaskNo)
  /-- `fcmp.cc.vx` (R215). -/
  | fcmpVx (m : MaskNo) (b : BitVec 5) (a : BitVec 5) (c : FCond) (e : MaskNo)
  /-- `fcmp.cc.vq` (R215). -/
  | fcmpVq (m : MaskNo) (b : BitVec 5) (q : QueueNo) (c : FCond) (e : MaskNo)
  /-- `fcmp.cc.vn` (R215). -/
  | fcmpVn (m : MaskNo) (b : BitVec 5) (a : BitVec 5) (c : FCond) (e : MaskNo)
  /-- `fsqrt` (R216). -/
  | fsqrt (m : MaskNo) (b : BitVec 5) (d : BitVec 5)
  /-- `frec` (R216). -/
  | frec (m : MaskNo) (b : BitVec 5) (d : BitVec 5)
  /-- `frsq` (R216). -/
  | frsq (m : MaskNo) (b : BitVec 5) (d : BitVec 5)
  /-- `fexp2` (R216). -/
  | fexp2 (m : MaskNo) (b : BitVec 5) (d : BitVec 5)
  /-- `fcvt` (R217). -/
  | fcvt (m : MaskNo) (b : BitVec 5) (c : CvtCode) (d : BitVec 5)
  /-- `fclass` (R218). -/
  | fclass (m : MaskNo) (b : BitVec 5) (d : BitVec 5)
  /-- `fround` (R218). -/
  | fround (m : MaskNo) (b : BitVec 5) (d : BitVec 5)
  /-- `fsgnj.xv` (R219). -/
  | fsgnjXv (m : MaskNo) (b : BitVec 5) (a : BitVec 5) (d : BitVec 5)
  /-- `fsgnj.xx` (R219). -/
  | fsgnjXx (m : MaskNo) (b : BitVec 5) (a : BitVec 5) (d : BitVec 5)
  /-- `fsgnjn.xv` (R219). -/
  | fsgnjnXv (m : MaskNo) (b : BitVec 5) (a : BitVec 5) (d : BitVec 5)
  /-- `fsgnjn.xx` (R219). -/
  | fsgnjnXx (m : MaskNo) (b : BitVec 5) (a : BitVec 5) (d : BitVec 5)
  /-- `fsgnjx.xv` (R219). -/
  | fsgnjxXv (m : MaskNo) (b : BitVec 5) (a : BitVec 5) (d : BitVec 5)
  /-- `fsgnjx.xx` (R219). -/
  | fsgnjxXx (m : MaskNo) (b : BitVec 5) (a : BitVec 5) (d : BitVec 5)
  /-- `fwadd.xv` (R220). -/
  | fwaddXv (m : MaskNo) (b : BitVec 5) (a : BitVec 5) (d : BitVec 5)
  /-- `fwadd.xx` (R220). -/
  | fwaddXx (m : MaskNo) (b : BitVec 5) (a : BitVec 5) (d : BitVec 5)
  /-- `fwmul.xv` (R220). -/
  | fwmulXv (m : MaskNo) (b : BitVec 5) (a : BitVec 5) (d : BitVec 5)
  /-- `fwmul.xx` (R220). -/
  | fwmulXx (m : MaskNo) (b : BitVec 5) (a : BitVec 5) (d : BitVec 5)
  /-- `fwmac.xv` (R220). -/
  | fwmacXv (m : MaskNo) (b : BitVec 5) (a : BitVec 5) (d : BitVec 5)
  /-- `fwmac.xx` (R220). -/
  | fwmacXx (m : MaskNo) (b : BitVec 5) (a : BitVec 5) (d : BitVec 5)
  /-- `vquant` (R279). -/
  | vquant (m : MaskNo) (b : BitVec 5) (a : BitVec 5) (d : BitVec 5)
  /-- `vdequant` (R281). -/
  | vdequant (m : MaskNo) (b : BitVec 5) (a : BitVec 5) (d : BitVec 5)
  /-- `vqef` (R282). -/
  | vqef (m : MaskNo) (b : BitVec 5) (a : BitVec 5) (d : BitVec 5)
  /-- `vbscale` (R280). -/
  | vbscale (m : MaskNo) (b : BitVec 5) (a : BitVec 5) (d : BitVec 5)
  /-- `vouts` (R283). -/
  | vouts (m : MaskNo) (b : BitVec 5) (a : BitVec 5) (d : BitVec 5)
  /-- `mand` (R221). -/
  | mand (b : MaskNo) (a : MaskNo) (d : MaskNo)
  /-- `mor` (R221). -/
  | mor (b : MaskNo) (a : MaskNo) (d : MaskNo)
  /-- `mxor` (R221). -/
  | mxor (b : MaskNo) (a : MaskNo) (d : MaskNo)
  /-- `mandn` (R221). -/
  | mandn (b : MaskNo) (a : MaskNo) (d : MaskNo)
  /-- `mpop` (R222). -/
  | mpop (m : MaskNo) (b : MaskNo) (d : BitVec 5)
  /-- `mfirst` (R222). -/
  | mfirst (m : MaskNo) (b : MaskNo) (d : BitVec 5)
  /-- `iota` (R222). -/
  | iota (m : MaskNo) (b : MaskNo) (d : BitVec 5)
  /-- `vid` (R222). -/
  | vid (m : MaskNo) (d : BitVec 5)
  /-- `slideup.vx` (R223). -/
  | slideupVx (m : MaskNo) (b : BitVec 5) (a : BitVec 5) (d : BitVec 5)
  /-- `slideup.vi` (R223). -/
  | slideupVi (m : MaskNo) (b : BitVec 5) (a : BitVec 5) (d : BitVec 5)
  /-- `slideup.vn` (R223). -/
  | slideupVn (m : MaskNo) (b : BitVec 5) (a : BitVec 5) (d : BitVec 5)
  /-- `slidedn.vx` (R223). -/
  | slidednVx (m : MaskNo) (b : BitVec 5) (a : BitVec 5) (d : BitVec 5)
  /-- `slidedn.vi` (R223). -/
  | slidednVi (m : MaskNo) (b : BitVec 5) (a : BitVec 5) (d : BitVec 5)
  /-- `slidedn.vn` (R223). -/
  | slidednVn (m : MaskNo) (b : BitVec 5) (a : BitVec 5) (d : BitVec 5)
  /-- `vgather.vv` (R224). -/
  | vgatherVv (m : MaskNo) (b : BitVec 5) (a : BitVec 5) (d : BitVec 5)
  /-- `vgather.vx` (R224). -/
  | vgatherVx (m : MaskNo) (b : BitVec 5) (a : BitVec 5) (d : BitVec 5)
  /-- `vcompress` (R225). -/
  | vcompress (m : MaskNo) (b : BitVec 5) (d : BitVec 5)
  /-- `vexpand` (R225). -/
  | vexpand (m : MaskNo) (b : BitVec 5) (d : BitVec 5)
  /-- `vlut` (R224). -/
  | vlut (m : MaskNo) (b : BitVec 5) (a : BitVec 5) (d : BitVec 5)
  /-- `vunpack` (R226). -/
  | vunpack (m : MaskNo) (b : BitVec 5) (a : BitVec 5) (d : BitVec 5)
  /-- `vpack` (R226). -/
  | vpack (m : MaskNo) (b : BitVec 5) (a : BitVec 5) (d : BitVec 5)
  /-- `redsum` (R227). -/
  | redsum (m : MaskNo) (b : BitVec 5) (a : BitVec 5) (d : BitVec 5)
  /-- `redmin` (R227). -/
  | redmin (m : MaskNo) (b : BitVec 5) (a : BitVec 5) (d : BitVec 5)
  /-- `redmax` (R227). -/
  | redmax (m : MaskNo) (b : BitVec 5) (a : BitVec 5) (d : BitVec 5)
  /-- `redminz` (R227). -/
  | redminz (m : MaskNo) (b : BitVec 5) (a : BitVec 5) (d : BitVec 5)
  /-- `redmaxz` (R227). -/
  | redmaxz (m : MaskNo) (b : BitVec 5) (a : BitVec 5) (d : BitVec 5)
  /-- `redand` (R227). -/
  | redand (m : MaskNo) (b : BitVec 5) (a : BitVec 5) (d : BitVec 5)
  /-- `redor` (R227). -/
  | redor (m : MaskNo) (b : BitVec 5) (a : BitVec 5) (d : BitVec 5)
  /-- `redxor` (R227). -/
  | redxor (m : MaskNo) (b : BitVec 5) (a : BitVec 5) (d : BitVec 5)
  /-- `fredo` (R228). -/
  | fredo (m : MaskNo) (b : BitVec 5) (a : BitVec 5) (d : BitVec 5)
  /-- `fredt` (R228). -/
  | fredt (m : MaskNo) (b : BitVec 5) (a : BitVec 5) (d : BitVec 5)
  /-- `fredmax` (R228). -/
  | fredmax (m : MaskNo) (b : BitVec 5) (a : BitVec 5) (d : BitVec 5)
  /-- `fredmin` (R228). -/
  | fredmin (m : MaskNo) (b : BitVec 5) (a : BitVec 5) (d : BitVec 5)
  /-- `mvxs` (R229). -/
  | mvxs (b : BitVec 5) (a : BitVec 5) (d : BitVec 5)
  /-- `mvsx` (R229). -/
  | mvsx (a : BitVec 5) (d : BitVec 5)
  /-- `vbcast` (R229). -/
  | vbcast (a : BitVec 5) (d : BitVec 5)
  /-- `vrev` (R229). -/
  | vrev (m : MaskNo) (b : BitVec 5) (d : BitVec 5)
  /-- `aadd.vv` (R239). -/
  | aaddVv (b : BitVec 5) (a : BitVec 5) (d : BitVec 5)
  /-- `aadd.vx` (R239). -/
  | aaddVx (b : BitVec 5) (a : BitVec 5) (d : BitVec 5)
  /-- `aadd.vi` (R239). -/
  | aaddVi (b : BitVec 5) (a : BitVec 5) (d : BitVec 5)
  /-- `asub.vv` (R239). -/
  | asubVv (b : BitVec 5) (a : BitVec 5) (d : BitVec 5)
  /-- `asub.vx` (R239). -/
  | asubVx (b : BitVec 5) (a : BitVec 5) (d : BitVec 5)
  /-- `asub.vi` (R239). -/
  | asubVi (b : BitVec 5) (a : BitVec 5) (d : BitVec 5)
  /-- `adiff.vx` (R240). -/
  | adiffVx (b : BitVec 5) (a : BitVec 5) (d : BitVec 5)
  /-- `adiff.vi` (R240). -/
  | adiffVi (b : BitVec 5) (a : BitVec 5) (d : BitVec 5)
  /-- `amul.vx` (R241). -/
  | amulVx (b : BitVec 5) (a : BitVec 5) (d : BitVec 5)
  /-- `amul.vi` (R241). -/
  | amulVi (b : BitVec 5) (a : BitVec 5) (d : BitVec 5)
  /-- `ascale.vx` (R242). -/
  | ascaleVx (b : BitVec 5) (a : BitVec 5) (d : BitVec 5)
  /-- `ascale.vi` (R242). -/
  | ascaleVi (b : BitVec 5) (a : BitVec 5) (d : BitVec 5)
  /-- `aconv` (R244). -/
  | aconv (b : BitVec 5) (c : AnchorFloat) (d : BitVec 5)
  /-- `afrom` (R245). -/
  | afrom (b : BitVec 5) (c : AnchorFloat) (d : BitVec 5)
  /-- `areanchor.vx` (R243). -/
  | areanchorVx (b : BitVec 5) (a : BitVec 5) (d : BitVec 5)
  /-- `areanchor.vi` (R243). -/
  | areanchorVi (b : BitVec 5) (o : BitVec 2) (d : BitVec 5)
  /-- `ared` (R246). -/
  | ared (b : BitVec 5) (d : BitVec 5)
  /-- `aget` (R247). -/
  | aget (b : BitVec 5) (d : BitVec 5)
  /-- `aput` (R247). -/
  | aput (b : BitVec 5) (d : BitVec 5)
  /-- `aqset` (R247). -/
  | aqset (b : BitVec 5) (d : BitVec 5)
  /-- `mzero` (R267). -/
  | mzero (t : TileNo)
  /-- `mpa` (R268). -/
  | mpa (b : BitVec 5) (a : BitVec 5) (t : TileNo)
  /-- `mmv.tv` (R270). -/
  | mmvTv (b : BitVec 5) (a : BitVec 5) (t : TileNo)
  /-- `mmv.vt` (R270). -/
  | mmvVt (b : BitVec 5) (a : BitVec 5) (t : TileNo)
  /-- `mscale` (R271). -/
  | mscale (b : BitVec 5) (a : BitVec 5)
  /-- `mpa.i` (R268). -/
  | mpaI (b : BitVec 5) (a : BitVec 5) (t : TileNo)
  /-- `mpa.h` (R268). -/
  | mpaH (b : BitVec 5) (a : BitVec 5) (t : TileNo)
  /-- `mlra` (R272). -/
  | mlra (b : BitVec 5) (a : BitVec 5) (t : TileNo)
  /-- `mcvt` (R273). -/
  | mcvt (t : TileNo) (a : BitVec 5) (d : BitVec 5)
  /-- `acmp.cc` (R248). -/
  | acmp (b : BitVec 5) (a : BitVec 5) (c : Cond) (e : MaskNo)
  /-- `vld` (R322). -/
  | vld (m : MaskNo) (a : BitVec 5) (d : BitVec 5)
  /-- `vld.s` (R322). -/
  | vldS (m : MaskNo) (b : BitVec 5) (a : BitVec 5) (d : BitVec 5)
  /-- `vld.x` (R322). -/
  | vldX (m : MaskNo) (b : BitVec 5) (a : BitVec 5) (d : BitVec 5)
  /-- `vld.b` (R323). -/
  | vldB (m : MaskNo) (b : BitVec 5) (a : BitVec 5) (d : BitVec 5)
  /-- `vld.w` (R325). -/
  | vldW (m : MaskNo) (a : BitVec 5) (d : BitVec 5)
  /-- `vst` (R322). -/
  | vst (m : MaskNo) (a : BitVec 5) (s : VRegNo)
  /-- `vst.s` (R322). -/
  | vstS (m : MaskNo) (b : BitVec 5) (a : BitVec 5) (s : VRegNo)
  /-- `vst.x` (R322). -/
  | vstX (m : MaskNo) (b : BitVec 5) (a : BitVec 5) (s : VRegNo)
  /-- `vst.b` (R323). -/
  | vstB (m : MaskNo) (b : BitVec 5) (a : BitVec 5) (s : VRegNo)
  /-- `vld.q` (R326). -/
  | vldQ (m : MaskNo) (a : BitVec 5) (q : QueueNo)
  /-- `vld.q.s` (R326). -/
  | vldQS (m : MaskNo) (b : BitVec 5) (a : BitVec 5) (q : QueueNo)
  /-- `vld.q.x` (R326). -/
  | vldQX (m : MaskNo) (b : BitVec 5) (a : BitVec 5) (q : QueueNo)
  /-- `vldo.s` (R324). -/
  | vldoS (m : MaskNo) (b : BitVec 5) (a : BitVec 5) (d : BitVec 5)
  /-- `vldo.x` (R324). -/
  | vldoX (m : MaskNo) (b : BitVec 5) (a : BitVec 5) (d : BitVec 5)
  /-- `vsto.s` (R324). -/
  | vstoS (m : MaskNo) (b : BitVec 5) (a : BitVec 5) (s : VRegNo)
  /-- `vsto.x` (R324). -/
  | vstoX (m : MaskNo) (b : BitVec 5) (a : BitVec 5) (s : VRegNo)
  /-- `vamo.op` (R334). -/
  | vamo (m : MaskNo) (b : BitVec 5) (a : BitVec 5) (o : AtomicOp) (d : BitVec 5)
  /-- `vupd.o.op` (R335). -/
  | vupdO (m : MaskNo) (b : BitVec 5) (a : BitVec 5) (o : AtomicOp) (s : VRegNo)
  /-- `vpf` (R327). -/
  | vpf (m : MaskNo) (a : BitVec 5)
  /-- `vpf.s` (R327). -/
  | vpfS (m : MaskNo) (b : BitVec 5) (a : BitVec 5)
  /-- `vpf.x` (R327). -/
  | vpfX (m : MaskNo) (b : BitVec 5) (a : BitVec 5)
  /-- `ald` (R328). -/
  | ald (b : BitVec 5) (a : BitVec 5) (d : BitVec 5)
  /-- `ald.c` (R329). -/
  | aldC (b : BitVec 5) (a : BitVec 5) (d : BitVec 5)
  /-- `ast` (R330). -/
  | ast (b : BitVec 5) (a : BitVec 5) (s : VRegNo)
  /-- `mld` (R331). -/
  | mld (b : BitVec 5) (a : BitVec 5) (t : TileNo)
  /-- `mst` (R331). -/
  | mst (b : BitVec 5) (a : BitVec 5) (t : TileNo)
  /-- `vcpy` (R332). -/
  | vcpy (b : BitVec 5) (a : BitVec 5) (p : BitVec 1) (z : BitVec 1)
  /-- `vfill` (R333). -/
  | vfill (b : BitVec 5) (a : BitVec 5)
  /-- `nm` (R340). -/
  | nm (b : BitVec 5) (a : BitVec 5) (k : BitVec 5)
  /-- `setl` (R168). -/
  | setl (v : BitVec 10) (a : BitVec 5) (d : BitVec 5)
  /-- `setl.r` (R168). -/
  | setlR (b : BitVec 5) (a : BitVec 5) (d : BitVec 5)
  /-- `fence.sv` (R373). -/
  | fenceSv (s : Scope)
  /-- `fence.vs` (R373). -/
  | fenceVs (s : Scope)
  /-- `fence.vv` (R373). -/
  | fenceVv (s : Scope)
  /-- `fence.nm` (R373). -/
  | fenceNm (s : Scope)
  /-- `fence.alias` (R377). -/
  | fenceAlias (s : Scope)
  /-- `fence.rel` (R373). -/
  | fenceRel (s : Scope)
  /-- `fence.acq` (R373). -/
  | fenceAcq (s : Scope)
  /-- `fence.ar` (R373). -/
  | fenceAr (s : Scope)
  /-- `drain` (R364). -/
  | drain (q : BitVec 6)
  /-- `bar.arrive` (R358). -/
  | barArrive (a : BitVec 5)
  /-- `bar.wait` (R358). -/
  | barWait (a : BitVec 5)
  /-- `bar.sync` (R358). -/
  | barSync (a : BitVec 5)
  /-- `bar.init` (R358). -/
  | barInit (b : BitVec 5) (a : BitVec 5)
  /-- `wait.mem` (R359). -/
  | waitMem (b : BitVec 5) (a : BitVec 5) (d : BitVec 5)
  /-- `wait.time` (R360). -/
  | waitTime (a : BitVec 5)
  /-- `yield` (R361). -/
  | yield
  /-- `halt` (R362). -/
  | halt
  /-- `qpush` (R354). -/
  | qpush (b : BitVec 5) (a : BitVec 5)
  /-- `qpop` (R355). -/
  | qpop (a : BitVec 5) (d : BitVec 5)
  /-- `qpop.t` (R355). -/
  | qpopT (a : BitVec 5) (d : BitVec 5)
  /-- `qany` (R356). -/
  | qany (m : MaskNo)
  /-- `qall` (R356). -/
  | qall (m : MaskNo)
  /-- `launch` (R351). -/
  | launch (b : BitVec 5) (a : BitVec 5) (d : BitVec 5)
  /-- `qlen` (R353). -/
  | qlen (a : BitVec 5) (d : BitVec 5)
  /-- `vsave` (R412). -/
  | vsave (a : BitVec 5)
  /-- `vrest` (R413). -/
  | vrest (a : BitVec 5)
  /-- `vret` (R408). -/
  | vret
  /-- `aret` (R254). -/
  | aret
  /-- `reclaim` (R414). -/
  | reclaim (b : BitVec 5) (a : BitVec 5)
  /-- `vprobe` (R415). -/
  | vprobe (b : BitVec 5) (a : BitVec 5) (d : BitVec 5)
  /-- `kend` (R362). -/
  | kend
deriving DecidableEq, Repr

end Sys2Proof
end

