-- ==== Sys2Proof/WellFormed.lean ====
section
/-! DEFINITION. Which terms of `Instr` are instructions: the limits that the types of the fields do not say. -/

namespace Sys2Proof

/-- The CSR addresses whose writes have an opcode-table row of their own (R161, R385, R431). -/
def csrHasOwnRow (csr : BitVec 12) : Bool :=
  csr.toNat == 0x7C0 || csr.toNat == 0x7C1 || csr.toNat == 0x7C2 || csr.toNat == 0x5C4 || csr.toNat == 0x180 ||
  (0xB03 ≤ csr.toNat && csr.toNat ≤ 0xB12) || (0x323 ≤ csr.toNat && csr.toNat ≤ 0x332)

/-- An imm5 that is not negative (R131, R132). -/
def immNonNegative (a : Imm5) : Bool := a.toNat < 16

/-- A CSR write: a set or clear form whose source field is 0 only reads (RV64 base). -/
def csrWrites (op : CsrOp) (src : BitVec 5) : Bool :=
  match op with
  | .rw | .rwi => true
  | .rs | .rc | .rsi | .rci => src != 0#5

/-- A caller that exists: one of the 16 system cores (R452) or of the 1024 compute harts (R22). -/
def Caller.wf : Caller → Bool
  | .systemCore core => core < 16
  | .computeHart hid => hid < 1024

/-- A micro-op of a gang that holds a quad, on elements of a width of R165, at most 16384 of them (R30, R34, R435). -/
def MicroOp.wf (m : MicroOp) : Bool := m.quads != 0#4 && [4, 6, 8, 16, 32, 64].contains m.width && m.vl ≤ 16384

/-- A plan of a window of 16 cycles (R435). -/
def CorePlan.wf (c : CorePlan) : Bool := c.idleMatrix ≤ 16 && c.ops.all MicroOp.wf

/-- Four such plans. -/
def WindowPlans.wf (p : WindowPlans) : Bool := p.c0.wf && p.c1.wf && p.c2.wf && p.c3.wf

/-- Well-formed instructions and events. -/
def Instr.wf : Instr → Bool
  | .addVv _ _ _ _ => true
  | .addVx _ _ _ _ => true
  | .addVi _ _ _ _ => true
  | .addVq _ _ _ _ => true
  | .addVn _ _ _ _ => true
  | .subVv _ _ _ _ => true
  | .subVx _ _ _ _ => true
  | .subVi _ _ _ _ => true
  | .subVq _ _ _ _ => true
  | .subVn _ _ _ _ => true
  | .rsubVv _ _ _ _ => true
  | .rsubVx _ _ _ _ => true
  | .rsubVi _ _ _ _ => true
  | .rsubVq _ _ _ _ => true
  | .rsubVn _ _ _ _ => true
  | .mulVv _ _ _ _ => true
  | .mulVx _ _ _ _ => true
  | .mulVi _ _ _ _ => true
  | .mulVq _ _ _ _ => true
  | .mulVn _ _ _ _ => true
  | .mulhVv _ _ _ _ => true
  | .mulhVx _ _ _ _ => true
  | .mulhVi _ _ _ _ => true
  | .mulhVq _ _ _ _ => true
  | .mulhVn _ _ _ _ => true
  | .minVv _ _ _ _ => true
  | .minVx _ _ _ _ => true
  | .minVi _ _ _ _ => true
  | .minVq _ _ _ _ => true
  | .minVn _ _ _ _ => true
  | .maxVv _ _ _ _ => true
  | .maxVx _ _ _ _ => true
  | .maxVi _ _ _ _ => true
  | .maxVq _ _ _ _ => true
  | .maxVn _ _ _ _ => true
  | .andVv _ _ _ _ => true
  | .andVx _ _ _ _ => true
  | .andVi _ _ _ _ => true
  | .andVq _ _ _ _ => true
  | .andVn _ _ _ _ => true
  | .orVv _ _ _ _ => true
  | .orVx _ _ _ _ => true
  | .orVi _ _ _ _ => true
  | .orVq _ _ _ _ => true
  | .orVn _ _ _ _ => true
  | .xorVv _ _ _ _ => true
  | .xorVx _ _ _ _ => true
  | .xorVi _ _ _ _ => true
  | .xorVq _ _ _ _ => true
  | .xorVn _ _ _ _ => true
  | .sllVv _ _ _ _ => true
  | .sllVx _ _ _ _ => true
  | .sllVi _ _ _ _ => true
  | .sllVq _ _ _ _ => true
  | .sllVn _ _ _ _ => true
  | .srlVv _ _ _ _ => true
  | .srlVx _ _ _ _ => true
  | .srlVi _ _ _ _ => true
  | .srlVq _ _ _ _ => true
  | .srlVn _ _ _ _ => true
  | .sraVv _ _ _ _ => true
  | .sraVx _ _ _ _ => true
  | .sraVi _ _ _ _ => true
  | .sraVq _ _ _ _ => true
  | .sraVn _ _ _ _ => true
  | .macVv _ _ _ _ => true
  | .macVx _ _ _ _ => true
  | .macVi _ _ _ _ => true
  | .macVq _ _ _ _ => true
  | .macVn _ _ _ _ => true
  | .cmpVv _ _ _ _ _ => true
  | .cmpVx _ _ _ _ _ => true
  | .cmpVi _ _ _ _ _ => true
  | .cmpVq _ _ _ _ _ => true
  | .cmpVn _ _ _ _ _ => true
  | .cmpzVv _ _ _ _ _ => true
  | .cmpzVx _ _ _ _ _ => true
  | .cmpzVi _ _ _ _ _ => true
  | .cmpzVq _ _ _ _ _ => true
  | .cmpzVn _ _ _ _ _ => true
  | .minzXv _ _ _ _ => true
  | .minzXx _ _ _ _ => true
  | .maxzXv _ _ _ _ => true
  | .maxzXx _ _ _ _ => true
  | .mulhzXv _ _ _ _ => true
  | .mulhzXx _ _ _ _ => true
  | .divXv _ _ _ _ => true
  | .divXx _ _ _ _ => true
  | .divzXv _ _ _ _ => true
  | .divzXx _ _ _ _ => true
  | .remXv _ _ _ _ => true
  | .remXx _ _ _ _ => true
  | .remzXv _ _ _ _ => true
  | .remzXx _ _ _ _ => true
  | .saddXv _ _ _ _ => true
  | .saddXx _ _ _ _ => true
  | .ssubXv _ _ _ _ => true
  | .ssubXx _ _ _ _ => true
  | .waddXv _ _ _ _ => true
  | .waddXx _ _ _ _ => true
  | .wmulXv _ _ _ _ => true
  | .wmulXx _ _ _ _ => true
  | .sext _ _ _ _ => true
  | .zext _ _ _ _ => true
  | .narrow _ _ _ _ => true
  | .narrowz _ _ _ _ => true
  | .absdXv _ _ _ _ => true
  | .absdXx _ _ _ _ => true
  | .bitc _ _ _ _ => true
  | .faddVv _ _ _ _ => true
  | .faddVx _ _ _ _ => true
  | .faddVq _ _ _ _ => true
  | .faddVn _ _ _ _ => true
  | .fsubVv _ _ _ _ => true
  | .fsubVx _ _ _ _ => true
  | .fsubVq _ _ _ _ => true
  | .fsubVn _ _ _ _ => true
  | .fmulVv _ _ _ _ => true
  | .fmulVx _ _ _ _ => true
  | .fmulVq _ _ _ _ => true
  | .fmulVn _ _ _ _ => true
  | .fdivVv _ _ _ _ => true
  | .fdivVx _ _ _ _ => true
  | .fdivVq _ _ _ _ => true
  | .fdivVn _ _ _ _ => true
  | .fminVv _ _ _ _ => true
  | .fminVx _ _ _ _ => true
  | .fminVq _ _ _ _ => true
  | .fminVn _ _ _ _ => true
  | .fmaxVv _ _ _ _ => true
  | .fmaxVx _ _ _ _ => true
  | .fmaxVq _ _ _ _ => true
  | .fmaxVn _ _ _ _ => true
  | .fmaddVv _ _ _ _ => true
  | .fmaddVx _ _ _ _ => true
  | .fmaddVq _ _ _ _ => true
  | .fmaddVn _ _ _ _ => true
  | .fnmsubVv _ _ _ _ => true
  | .fnmsubVx _ _ _ _ => true
  | .fnmsubVq _ _ _ _ => true
  | .fnmsubVn _ _ _ _ => true
  | .fcmpVv _ _ _ _ _ => true
  | .fcmpVx _ _ _ _ _ => true
  | .fcmpVq _ _ _ _ _ => true
  | .fcmpVn _ _ _ _ _ => true
  | .fsqrt _ _ _ => true
  | .frec _ _ _ => true
  | .frsq _ _ _ => true
  | .fexp2 _ _ _ => true
  | .fcvt _ _ _ _ => true
  | .fclass _ _ _ => true
  | .fround _ _ _ => true
  | .fsgnjXv _ _ _ _ => true
  | .fsgnjXx _ _ _ _ => true
  | .fsgnjnXv _ _ _ _ => true
  | .fsgnjnXx _ _ _ _ => true
  | .fsgnjxXv _ _ _ _ => true
  | .fsgnjxXx _ _ _ _ => true
  | .fwaddXv _ _ _ _ => true
  | .fwaddXx _ _ _ _ => true
  | .fwmulXv _ _ _ _ => true
  | .fwmulXx _ _ _ _ => true
  | .fwmacXv _ _ _ _ => true
  | .fwmacXx _ _ _ _ => true
  | .vquant _ _ _ _ => true
  | .vdequant _ _ _ _ => true
  | .vqef _ _ _ _ => true
  | .vbscale _ _ _ _ => true
  | .vouts _ _ _ _ => true
  | .mand _ _ _ => true
  | .mor _ _ _ => true
  | .mxor _ _ _ => true
  | .mandn _ _ _ => true
  | .mpop _ _ _ => true
  | .mfirst _ _ _ => true
  | .iota _ _ _ => true
  | .vid _ _ => true
  | .slideupVx _ _ _ _ => true
  | .slideupVi _ _ a _ => immNonNegative a
  | .slideupVn _ _ _ _ => true
  | .slidednVx _ _ _ _ => true
  | .slidednVi _ _ a _ => immNonNegative a
  | .slidednVn _ _ _ _ => true
  | .vgatherVv _ _ _ _ => true
  | .vgatherVx _ _ _ _ => true
  | .vcompress _ _ _ => true
  | .vexpand _ _ _ => true
  | .vlut _ _ _ _ => true
  | .vunpack _ _ _ _ => true
  | .vpack _ _ _ _ => true
  | .redsum _ _ _ _ => true
  | .redmin _ _ _ _ => true
  | .redmax _ _ _ _ => true
  | .redminz _ _ _ _ => true
  | .redmaxz _ _ _ _ => true
  | .redand _ _ _ _ => true
  | .redor _ _ _ _ => true
  | .redxor _ _ _ _ => true
  | .fredo _ _ _ _ => true
  | .fredt _ _ _ _ => true
  | .fredmax _ _ _ _ => true
  | .fredmin _ _ _ _ => true
  | .mvxs _ _ _ => true
  | .mvsx _ _ => true
  | .vbcast _ _ => true
  | .vrev _ _ _ => true
  | .aaddVv _ _ _ => true
  | .aaddVx _ _ _ => true
  | .aaddVi _ _ _ => true
  | .asubVv _ _ _ => true
  | .asubVx _ _ _ => true
  | .asubVi _ _ _ => true
  | .adiffVx _ _ _ => true
  | .adiffVi _ a _ => immNonNegative a
  | .amulVx _ _ _ => true
  | .amulVi _ _ _ => true
  | .ascaleVx _ _ _ => true
  | .ascaleVi _ _ _ => true
  | .aconv _ _ _ => true
  | .afrom _ _ _ => true
  | .areanchorVx _ _ _ => true
  | .areanchorVi _ _ _ => true
  | .ared _ _ => true
  | .aget _ _ => true
  | .aput _ _ => true
  | .aqset _ _ => true
  | .mzero _ => true
  | .mpa _ _ _ => true
  | .mmvTv _ _ _ => true
  | .mmvVt _ _ _ => true
  | .mscale _ _ => true
  | .mpaI _ _ _ => true
  | .mpaH _ _ _ => true
  | .mlra _ _ _ => true
  | .mcvt _ _ _ => true
  | .acmp _ _ _ _ => true
  | .vld _ _ _ => true
  | .vldS _ _ _ _ => true
  | .vldX _ _ _ _ => true
  | .vldB _ _ _ _ => true
  | .vldW _ _ _ => true
  | .vst _ _ _ => true
  | .vstS _ _ _ _ => true
  | .vstX _ _ _ _ => true
  | .vstB _ _ _ _ => true
  | .vldQ _ _ _ => true
  | .vldQS _ _ _ _ => true
  | .vldQX _ _ _ _ => true
  | .vldoS _ _ _ _ => true
  | .vldoX _ _ _ _ => true
  | .vstoS _ _ _ _ => true
  | .vstoX _ _ _ _ => true
  | .vamo _ _ _ _ _ => true
  | .vupdO _ _ _ _ _ => true
  | .vpf _ _ => true
  | .vpfS _ _ _ => true
  | .vpfX _ _ _ => true
  | .ald _ _ _ => true
  | .aldC _ _ _ => true
  | .ast _ _ _ => true
  | .mld _ _ _ => true
  | .mst _ _ _ => true
  | .vcpy _ _ _ _ => true
  | .vfill _ _ => true
  | .nm _ _ _ => true
  | .setl _ _ _ => true
  | .setlR _ _ _ => true
  | .fenceSv _ => true
  | .fenceVs _ => true
  | .fenceVv _ => true
  | .fenceNm _ => true
  | .fenceAlias _ => true
  | .fenceRel _ => true
  | .fenceAcq _ => true
  | .fenceAr _ => true
  | .drain q => q != 0#6
  | .barArrive _ => true
  | .barWait _ => true
  | .barSync _ => true
  | .barInit _ _ => true
  | .waitMem _ _ _ => true
  | .waitTime _ => true
  | .yield => true
  | .halt => true
  | .qpush _ _ => true
  | .qpop _ _ => true
  | .qpopT _ _ => true
  | .qany _ => true
  | .qall _ => true
  | .launch _ _ _ => true
  | .qlen _ _ => true
  | .vsave _ => true
  | .vrest _ => true
  | .vret => true
  | .aret => true
  | .reclaim _ _ => true
  | .vprobe _ _ _ => true
  | .kend => true
  | .scalarBaseInstruction _ => true
  | .fence _ _ _ _ _ => true
  | .fenceI _ _ _ => true
  | .sfenceVma _ _ => true
  | .wfi => true
  | .ecall => true
  | .ebreak => true
  | .lrSc _ => true
  | .grantWindow hid => hid < 1024
  | .revokeWindow hid => hid < 1024
  | .assignGranules caller _ _ _ => caller.wf
  | .releaseGranules caller _ _ => caller.wf
  | .setQueueOwner caller _ _ => caller.wf
  | .illegalInstruction _ => true
  | .viqAdmission core => core < 128
  | .viqHeadAged hid => hid < 1024
  | .microOpIssue hid => hid < 1024
  | .vectorInstructionComplete hid => hid < 1024
  | .pinEntriesFree core => core < 128
  | .storePerformed _ => true
  | .arrivalPointerAdvance core bank _ => core < 128 && bank < 64
  | .aldCAttempt hid => hid < 1024
  | .lineLockRelease hid => hid < 1024
  | .nmLineApply _ _ => true
  | .nmCompletionRecord _ => true
  | .cxlRequestIssue expander => expander < 4
  | .rowActivation region channel => region < 4 && channel < 512
  | .callGraphPrefetch hid => hid < 1024
  | .sequentialPrefetch hid => hid < 1024
  | .vectorTrap hid => hid < 1024
  | .userAnchorDelivery hid => hid < 1024
  | .interrupt hid => hid < 1024
  | .hartFatalError hid => hid < 1024
  | .supervisorTerminate hid => hid < 1024
  | .launchCheck queue => queue < 64
  | .queueHeadAging queue => queue < 64
  | .gangPlacement die => die < 4
  | .reclaimTakesEffect _ => true
  | .reclaimAbandon _ => true
  | .fullContextSwitch _ => true
  | .timeSliceExpiry _ => true
  | .gangRestore die => die < 4
  | .gangRetire _ => true
  | .launchComplete _ => true
  | .heldSuccessorEntersQueue queue => queue < 64
  | .lqRecordEntersQueue hid => hid < 1024
  | .barrierPhaseComplete _ barrier => barrier ≤ 512
  | .pigeonholeValueArrives hid => hid < 1024
  | .waitMemReread hid => hid < 1024
  | .waitTimeDeadline hid => hid < 1024
  | .pwrgrantWrite op _ src => csrWrites op src
  | .chainpermWrite op _ src => csrWrites op src
  | .busyctlWrite op _ src => csrWrites op src
  | .vdeskWrite op _ src => csrWrites op src
  | .satpWrite op _ src => csrWrites op src
  | .mhpmcounterWrite op _ _ src => csrWrites op src
  | .mhpmeventWrite op _ _ src => csrWrites op src
  | .csrWrite op _ csr src => !csrHasOwnRow csr && csrWrites op src
  | .lqctlWrite queue _ => queue < 64
  | .lqDoorbell door _ => door.core < 16 && door.queue < 64
  | .launchFrameReceive frame => frame.length == 160
  | .pcieInboundRequest _ => true
  | .shofinRemoteRequest device realm _ => device < 2048 && realm < 256
  | .routeDownTimeout device => device < 2048
  | .timestampExchange _ => true
  | .timebaseTick => true
  | .stringWindow string plans => string < 32 && plans.wf
  | .stringStepUp string => string < 32
  | .powerManagerPeriod _ => true
  | .lanePowerGate core lane => core < 128 && lane < 16
  | .laneWake core lane => core < 128 && lane < 16
  | .uncorrectableError _ _ => true
  | .correctableError stack layer => stack < 8 && layer < 16
  | .l1dParityError _ _ => true
  | .layerMapOut region stack layer => region < 4 && stack < 2 && layer < 16
  | .mapOutVacated region => region < 4
  | .mapOutLineMove region => region < 4
  | .coldReset _ => true
  | .warmReset => true
  | .memready => true
  | .attestationRequest realm nonce => realm < 256 && nonce.length == 32
  | .reportCardWrite => true
  | .fatalDump reason => 1 ≤ reason && reason ≤ 4
  | .shofinRouteLost device => device < 2048
  | .shofinRouteRetrained device port => device < 2048 && port < 32
  | .phyTrainingComplete _ die => die < 4
  | .systemCoreMemoryAccess core _ => core < 16

end Sys2Proof
end

