-- ==== Sys2Proof/Decode.lean ====
section
/-! DEFINITION. Decoding of instruction words (R108, R109, R111, R118 to R135) and the encoder beside it. -/

namespace Sys2Proof

/-- Why a word is no instruction: each raises the illegal-instruction exception (R123). -/
inductive DecodeError where
  /-- Bits [1:0] are not 0b11 or bits [4:2] are 0b111 (R108). -/
  | notThirtyTwoBit
  /-- The major's cell in R109 holds no major. -/
  | majorUnassigned
  /-- The kind or mode is reserved (R119 to R121). -/
  | kindReserved
  /-- The operation is unassigned on its page, or does not accept the kind (R127 to R134). -/
  | opUnassigned
  /-- An unused field, or a sub-field marked 0, is not 0 (R122), or an immediate must not be negative (R131). -/
  | reservedField
  /-- A code field holds a reserved code (R128, R130, R135). -/
  | reservedCode
  /-- A function field that the base extensions leave unassigned (R111). -/
  | baseUnassigned
  /-- Fewer than four bytes are left. -/
  | tooShort
deriving DecidableEq, Repr

/-- The layout that every major shares: [31:28], [27:25], [24:20], [19:15], [14:12], [11:7], [6:0] (R118). -/
def packWord (f4 : BitVec 4) (mk : BitVec 3) (b a : BitVec 5) (k : BitVec 3) (d : BitVec 5) (major : BitVec 7) :
    InstrWord :=
  f4 ++ mk ++ b ++ a ++ k ++ d ++ major

/-! Code fields. -/

/-- The condition code of vd [4:3] (R127). -/
def Cond.ofBits (x : BitVec 2) : Cond :=
  match x.toNat with | 0 => .eq | 1 => .ne | 2 => .lt | _ => .le
/-- The code of a condition. -/
def Cond.bits : Cond → BitVec 2
  | .eq => 0#2 | .ne => 1#2 | .lt => 2#2 | .le => 3#2
/-- The condition code of `fcmp` (R129). -/
def FCond.ofBits (x : BitVec 2) : FCond :=
  match x.toNat with | 0 => .eq | 1 => .lt | 2 => .le | _ => .unord
/-- The code of an `fcmp` condition. -/
def FCond.bits : FCond → BitVec 2
  | .eq => 0#2 | .lt => 1#2 | .le => 2#2 | .unord => 3#2
/-- The factor code, bits [1:0] of the vs1 field (R128). -/
def Factor.ofBits (x : BitVec 2) : Option Factor :=
  match x.toNat with | 1 => some .two | 2 => some .four | 3 => some .eight | _ => none
/-- The code of a factor. -/
def Factor.bits : Factor → BitVec 2
  | .two => 1#2 | .four => 2#2 | .eight => 3#2
/-- The vs1 field of `bitc` (R127). -/
def BitCount.ofBits (x : BitVec 5) : Option BitCount :=
  match x.toNat with | 0 => some .popc | 1 => some .clz | 2 => some .ctz | _ => none
/-- The code of a `bitc` operation. -/
def BitCount.bits : BitCount → BitVec 5
  | .popc => 0#5 | .clz => 1#5 | .ctz => 2#5
/-- The conversion code of `fcvt` (R130). -/
def CvtCode.ofBits (x : BitVec 5) : Option CvtCode :=
  match x.toNat with
  | 0 => some (.toFloat .fp4) | 1 => some (.toFloat .e2m3) | 2 => some (.toFloat .e3m2) | 3 => some (.toFloat .e4m3)
  | 4 => some (.toFloat .e5m2) | 5 => some (.toFloat .fp16) | 6 => some (.toFloat .bf16) | 7 => some (.toFloat .fp32)
  | 8 => some (.toFloat .fp64) | 9 => some .toInt | 10 => some .toUint | 11 => some .fromInt | 12 => some .fromUint
  | _ => none
/-- The code of a conversion. -/
def CvtCode.bits : CvtCode → BitVec 5
  | .toFloat .fp4 => 0#5 | .toFloat .e2m3 => 1#5 | .toFloat .e3m2 => 2#5 | .toFloat .e4m3 => 3#5
  | .toFloat .e5m2 => 4#5 | .toFloat .fp16 => 5#5 | .toFloat .bf16 => 6#5 | .toFloat .fp32 => 7#5
  | .toFloat .fp64 => 8#5 | .toInt => 9#5 | .toUint => 10#5 | .fromInt => 11#5 | .fromUint => 12#5
/-- The float code of `aconv` and `afrom` (R132). -/
def AnchorFloat.ofBits (x : BitVec 5) : Option AnchorFloat :=
  match x.toNat with | 5 => some .fp16 | 6 => some .bf16 | 7 => some .fp32 | 8 => some .fp64 | _ => none
/-- The code of an anchor float. -/
def AnchorFloat.bits : AnchorFloat → BitVec 5
  | .fp16 => 5#5 | .bf16 => 6#5 | .fp32 => 7#5 | .fp64 => 8#5
/-- The atomic operation in the mode field (R133). -/
def AtomicOp.ofBits (x : BitVec 3) : AtomicOp :=
  match x.toNat with
  | 0 => .add | 1 => .fadd | 2 => .min | 3 => .max | 4 => .minz | 5 => .maxz | 6 => .or | _ => .swap
/-- The code of an atomic operation. -/
def AtomicOp.bits : AtomicOp → BitVec 3
  | .add => 0#3 | .fadd => 1#3 | .min => 2#3 | .max => 3#3 | .minz => 4#3 | .maxz => 5#3 | .or => 6#3 | .swap => 7#3
/-- The scope code of [27:25] (R135). -/
def Scope.ofBits (x : BitVec 3) : Option Scope :=
  match x.toNat with
  | 0 => some .hart | 1 => some .gang | 2 => some .core | 3 => some .die | 4 => some .dev | 5 => some .dom
  | 6 => some .sys | _ => none
/-- The code of a scope. -/
def Scope.bits : Scope → BitVec 3
  | .hart => 0#3 | .gang => 1#3 | .core => 2#3 | .die => 3#3 | .dev => 4#3 | .dom => 5#3 | .sys => 6#3

/-! The pages of the six ALV majors. Lean's compiler has no tag for a constructor beyond the 244th, so the functions that
build an `Instr` are marked noncomputable; the kernel evaluates them like any other. -/

noncomputable section

/-- Major VI, k = 0: the operations by f4 (R127 to R134). -/
def decodeVi0 (f4 : BitVec 4) (mk : BitVec 3) (b : BitVec 5) (a : BitVec 5) (d : BitVec 5) : Except DecodeError Instr :=
  match f4.toNat with
  | 0 => .ok (.addVv mk b a d)
  | 1 => .ok (.subVv mk b a d)
  | 2 => .ok (.rsubVv mk b a d)
  | 3 => .ok (.mulVv mk b a d)
  | 4 => .ok (.mulhVv mk b a d)
  | 5 => .ok (.minVv mk b a d)
  | 6 => .ok (.maxVv mk b a d)
  | 7 => .ok (.andVv mk b a d)
  | 8 => .ok (.orVv mk b a d)
  | 9 => .ok (.xorVv mk b a d)
  | 10 => .ok (.sllVv mk b a d)
  | 11 => .ok (.srlVv mk b a d)
  | 12 => .ok (.sraVv mk b a d)
  | 13 => .ok (.macVv mk b a d)
  | 14 => .ok (.cmpVv mk b a (Cond.ofBits (d.extractLsb' 3 2)) (d.extractLsb' 0 3))
  | _ => .ok (.cmpzVv mk b a (Cond.ofBits (d.extractLsb' 3 2)) (d.extractLsb' 0 3))

/-- Major VI, k = 1: the operations by f4 (R127 to R134). -/
def decodeVi1 (f4 : BitVec 4) (mk : BitVec 3) (b : BitVec 5) (a : BitVec 5) (d : BitVec 5) : Except DecodeError Instr :=
  match f4.toNat with
  | 0 => .ok (.addVx mk b a d)
  | 1 => .ok (.subVx mk b a d)
  | 2 => .ok (.rsubVx mk b a d)
  | 3 => .ok (.mulVx mk b a d)
  | 4 => .ok (.mulhVx mk b a d)
  | 5 => .ok (.minVx mk b a d)
  | 6 => .ok (.maxVx mk b a d)
  | 7 => .ok (.andVx mk b a d)
  | 8 => .ok (.orVx mk b a d)
  | 9 => .ok (.xorVx mk b a d)
  | 10 => .ok (.sllVx mk b a d)
  | 11 => .ok (.srlVx mk b a d)
  | 12 => .ok (.sraVx mk b a d)
  | 13 => .ok (.macVx mk b a d)
  | 14 => .ok (.cmpVx mk b a (Cond.ofBits (d.extractLsb' 3 2)) (d.extractLsb' 0 3))
  | _ => .ok (.cmpzVx mk b a (Cond.ofBits (d.extractLsb' 3 2)) (d.extractLsb' 0 3))

/-- Major VI, k = 2: the operations by f4 (R127 to R134). -/
def decodeVi2 (f4 : BitVec 4) (mk : BitVec 3) (b : BitVec 5) (a : BitVec 5) (d : BitVec 5) : Except DecodeError Instr :=
  match f4.toNat with
  | 0 => .ok (.addVi mk b a d)
  | 1 => .ok (.subVi mk b a d)
  | 2 => .ok (.rsubVi mk b a d)
  | 3 => .ok (.mulVi mk b a d)
  | 4 => .ok (.mulhVi mk b a d)
  | 5 => .ok (.minVi mk b a d)
  | 6 => .ok (.maxVi mk b a d)
  | 7 => .ok (.andVi mk b a d)
  | 8 => .ok (.orVi mk b a d)
  | 9 => .ok (.xorVi mk b a d)
  | 10 => .ok (.sllVi mk b a d)
  | 11 => .ok (.srlVi mk b a d)
  | 12 => .ok (.sraVi mk b a d)
  | 13 => .ok (.macVi mk b a d)
  | 14 => .ok (.cmpVi mk b a (Cond.ofBits (d.extractLsb' 3 2)) (d.extractLsb' 0 3))
  | _ => .ok (.cmpzVi mk b a (Cond.ofBits (d.extractLsb' 3 2)) (d.extractLsb' 0 3))

/-- Major VI, k = 3: the operations by f4 (R127 to R134). -/
def decodeVi3 (f4 : BitVec 4) (mk : BitVec 3) (b : BitVec 5) (a : BitVec 5) (d : BitVec 5) : Except DecodeError Instr :=
  match f4.toNat with
  | 0 => if (a.extractLsb' 2 3) = 0#3 then .ok (.addVq mk b (a.extractLsb' 0 2) d) else .error .reservedField
  | 1 => if (a.extractLsb' 2 3) = 0#3 then .ok (.subVq mk b (a.extractLsb' 0 2) d) else .error .reservedField
  | 2 => if (a.extractLsb' 2 3) = 0#3 then .ok (.rsubVq mk b (a.extractLsb' 0 2) d) else .error .reservedField
  | 3 => if (a.extractLsb' 2 3) = 0#3 then .ok (.mulVq mk b (a.extractLsb' 0 2) d) else .error .reservedField
  | 4 => if (a.extractLsb' 2 3) = 0#3 then .ok (.mulhVq mk b (a.extractLsb' 0 2) d) else .error .reservedField
  | 5 => if (a.extractLsb' 2 3) = 0#3 then .ok (.minVq mk b (a.extractLsb' 0 2) d) else .error .reservedField
  | 6 => if (a.extractLsb' 2 3) = 0#3 then .ok (.maxVq mk b (a.extractLsb' 0 2) d) else .error .reservedField
  | 7 => if (a.extractLsb' 2 3) = 0#3 then .ok (.andVq mk b (a.extractLsb' 0 2) d) else .error .reservedField
  | 8 => if (a.extractLsb' 2 3) = 0#3 then .ok (.orVq mk b (a.extractLsb' 0 2) d) else .error .reservedField
  | 9 => if (a.extractLsb' 2 3) = 0#3 then .ok (.xorVq mk b (a.extractLsb' 0 2) d) else .error .reservedField
  | 10 => if (a.extractLsb' 2 3) = 0#3 then .ok (.sllVq mk b (a.extractLsb' 0 2) d) else .error .reservedField
  | 11 => if (a.extractLsb' 2 3) = 0#3 then .ok (.srlVq mk b (a.extractLsb' 0 2) d) else .error .reservedField
  | 12 => if (a.extractLsb' 2 3) = 0#3 then .ok (.sraVq mk b (a.extractLsb' 0 2) d) else .error .reservedField
  | 13 => if (a.extractLsb' 2 3) = 0#3 then .ok (.macVq mk b (a.extractLsb' 0 2) d) else .error .reservedField
  | 14 => if (a.extractLsb' 2 3) = 0#3 then .ok (.cmpVq mk b (a.extractLsb' 0 2) (Cond.ofBits (d.extractLsb' 3 2)) (d.extractLsb' 0 3)) else .error .reservedField
  | _ => if (a.extractLsb' 2 3) = 0#3 then .ok (.cmpzVq mk b (a.extractLsb' 0 2) (Cond.ofBits (d.extractLsb' 3 2)) (d.extractLsb' 0 3)) else .error .reservedField

/-- Major VI, k = 4: the operations by f4 (R127 to R134). -/
def decodeVi4 (f4 : BitVec 4) (mk : BitVec 3) (b : BitVec 5) (a : BitVec 5) (d : BitVec 5) : Except DecodeError Instr :=
  match f4.toNat with
  | 0 => .ok (.addVn mk b a d)
  | 1 => .ok (.subVn mk b a d)
  | 2 => .ok (.rsubVn mk b a d)
  | 3 => .ok (.mulVn mk b a d)
  | 4 => .ok (.mulhVn mk b a d)
  | 5 => .ok (.minVn mk b a d)
  | 6 => .ok (.maxVn mk b a d)
  | 7 => .ok (.andVn mk b a d)
  | 8 => .ok (.orVn mk b a d)
  | 9 => .ok (.xorVn mk b a d)
  | 10 => .ok (.sllVn mk b a d)
  | 11 => .ok (.srlVn mk b a d)
  | 12 => .ok (.sraVn mk b a d)
  | 13 => .ok (.macVn mk b a d)
  | 14 => .ok (.cmpVn mk b a (Cond.ofBits (d.extractLsb' 3 2)) (d.extractLsb' 0 3))
  | _ => .ok (.cmpzVn mk b a (Cond.ofBits (d.extractLsb' 3 2)) (d.extractLsb' 0 3))

/-- Major VI, k = 6: the operations by f4 (R127 to R134). -/
def decodeVi6 (f4 : BitVec 4) (mk : BitVec 3) (b : BitVec 5) (a : BitVec 5) (d : BitVec 5) : Except DecodeError Instr :=
  match f4.toNat with
  | 0 => .ok (.minzXv mk b a d)
  | 1 => .ok (.maxzXv mk b a d)
  | 2 => .ok (.mulhzXv mk b a d)
  | 3 => .ok (.divXv mk b a d)
  | 4 => .ok (.divzXv mk b a d)
  | 5 => .ok (.remXv mk b a d)
  | 6 => .ok (.remzXv mk b a d)
  | 7 => .ok (.saddXv mk b a d)
  | 8 => .ok (.ssubXv mk b a d)
  | 9 => .ok (.waddXv mk b a d)
  | 10 => .ok (.wmulXv mk b a d)
  | 11 => if (a.extractLsb' 2 3) = 0#3 then (match Factor.ofBits (a.extractLsb' 0 2) with | some x2 => .ok (.sext mk b x2 d) | none => .error .reservedCode) else .error .reservedField
  | 12 => if (a.extractLsb' 2 3) = 0#3 then (match Factor.ofBits (a.extractLsb' 0 2) with | some x2 => .ok (.zext mk b x2 d) | none => .error .reservedCode) else .error .reservedField
  | 13 => if (a.extractLsb' 2 3) = 0#3 then (match Factor.ofBits (a.extractLsb' 0 2) with | some x2 => .ok (.narrow mk b x2 d) | none => .error .reservedCode) else if (a.extractLsb' 2 3) = 1#3 then (match Factor.ofBits (a.extractLsb' 0 2) with | some x2 => .ok (.narrowz mk b x2 d) | none => .error .reservedCode) else .error .reservedField
  | 14 => .ok (.absdXv mk b a d)
  | _ => (match BitCount.ofBits a with | some x2 => .ok (.bitc mk b x2 d) | none => .error .reservedCode)

/-- Major VI, k = 7: the operations by f4 (R127 to R134). -/
def decodeVi7 (f4 : BitVec 4) (mk : BitVec 3) (b : BitVec 5) (a : BitVec 5) (d : BitVec 5) : Except DecodeError Instr :=
  match f4.toNat with
  | 0 => .ok (.minzXx mk b a d)
  | 1 => .ok (.maxzXx mk b a d)
  | 2 => .ok (.mulhzXx mk b a d)
  | 3 => .ok (.divXx mk b a d)
  | 4 => .ok (.divzXx mk b a d)
  | 5 => .ok (.remXx mk b a d)
  | 6 => .ok (.remzXx mk b a d)
  | 7 => .ok (.saddXx mk b a d)
  | 8 => .ok (.ssubXx mk b a d)
  | 9 => .ok (.waddXx mk b a d)
  | 10 => .ok (.wmulXx mk b a d)
  | 14 => .ok (.absdXx mk b a d)
  | _ => .error .opUnassigned

/-- Major VF, k = 0: the operations by f4 (R127 to R134). -/
def decodeVf0 (f4 : BitVec 4) (mk : BitVec 3) (b : BitVec 5) (a : BitVec 5) (d : BitVec 5) : Except DecodeError Instr :=
  match f4.toNat with
  | 0 => .ok (.faddVv mk b a d)
  | 1 => .ok (.fsubVv mk b a d)
  | 2 => .ok (.fmulVv mk b a d)
  | 3 => .ok (.fdivVv mk b a d)
  | 4 => .ok (.fminVv mk b a d)
  | 5 => .ok (.fmaxVv mk b a d)
  | 6 => .ok (.fmaddVv mk b a d)
  | 7 => .ok (.fnmsubVv mk b a d)
  | 8 => .ok (.fcmpVv mk b a (FCond.ofBits (d.extractLsb' 3 2)) (d.extractLsb' 0 3))
  | 9 => if a = 0#5 then .ok (.fsqrt mk b d) else .error .reservedField
  | 10 => if a = 0#5 then .ok (.frec mk b d) else .error .reservedField
  | 11 => if a = 0#5 then .ok (.frsq mk b d) else .error .reservedField
  | 12 => if a = 0#5 then .ok (.fexp2 mk b d) else .error .reservedField
  | 13 => (match CvtCode.ofBits a with | some x2 => .ok (.fcvt mk b x2 d) | none => .error .reservedCode)
  | 14 => if a = 0#5 then .ok (.fclass mk b d) else .error .reservedField
  | _ => if a = 0#5 then .ok (.fround mk b d) else .error .reservedField

/-- Major VF, k = 1: the operations by f4 (R127 to R134). -/
def decodeVf1 (f4 : BitVec 4) (mk : BitVec 3) (b : BitVec 5) (a : BitVec 5) (d : BitVec 5) : Except DecodeError Instr :=
  match f4.toNat with
  | 0 => .ok (.faddVx mk b a d)
  | 1 => .ok (.fsubVx mk b a d)
  | 2 => .ok (.fmulVx mk b a d)
  | 3 => .ok (.fdivVx mk b a d)
  | 4 => .ok (.fminVx mk b a d)
  | 5 => .ok (.fmaxVx mk b a d)
  | 6 => .ok (.fmaddVx mk b a d)
  | 7 => .ok (.fnmsubVx mk b a d)
  | 8 => .ok (.fcmpVx mk b a (FCond.ofBits (d.extractLsb' 3 2)) (d.extractLsb' 0 3))
  | _ => .error .opUnassigned

/-- Major VF, k = 3: the operations by f4 (R127 to R134). -/
def decodeVf3 (f4 : BitVec 4) (mk : BitVec 3) (b : BitVec 5) (a : BitVec 5) (d : BitVec 5) : Except DecodeError Instr :=
  match f4.toNat with
  | 0 => if (a.extractLsb' 2 3) = 0#3 then .ok (.faddVq mk b (a.extractLsb' 0 2) d) else .error .reservedField
  | 1 => if (a.extractLsb' 2 3) = 0#3 then .ok (.fsubVq mk b (a.extractLsb' 0 2) d) else .error .reservedField
  | 2 => if (a.extractLsb' 2 3) = 0#3 then .ok (.fmulVq mk b (a.extractLsb' 0 2) d) else .error .reservedField
  | 3 => if (a.extractLsb' 2 3) = 0#3 then .ok (.fdivVq mk b (a.extractLsb' 0 2) d) else .error .reservedField
  | 4 => if (a.extractLsb' 2 3) = 0#3 then .ok (.fminVq mk b (a.extractLsb' 0 2) d) else .error .reservedField
  | 5 => if (a.extractLsb' 2 3) = 0#3 then .ok (.fmaxVq mk b (a.extractLsb' 0 2) d) else .error .reservedField
  | 6 => if (a.extractLsb' 2 3) = 0#3 then .ok (.fmaddVq mk b (a.extractLsb' 0 2) d) else .error .reservedField
  | 7 => if (a.extractLsb' 2 3) = 0#3 then .ok (.fnmsubVq mk b (a.extractLsb' 0 2) d) else .error .reservedField
  | 8 => if (a.extractLsb' 2 3) = 0#3 then .ok (.fcmpVq mk b (a.extractLsb' 0 2) (FCond.ofBits (d.extractLsb' 3 2)) (d.extractLsb' 0 3)) else .error .reservedField
  | _ => .error .opUnassigned

/-- Major VF, k = 4: the operations by f4 (R127 to R134). -/
def decodeVf4 (f4 : BitVec 4) (mk : BitVec 3) (b : BitVec 5) (a : BitVec 5) (d : BitVec 5) : Except DecodeError Instr :=
  match f4.toNat with
  | 0 => .ok (.faddVn mk b a d)
  | 1 => .ok (.fsubVn mk b a d)
  | 2 => .ok (.fmulVn mk b a d)
  | 3 => .ok (.fdivVn mk b a d)
  | 4 => .ok (.fminVn mk b a d)
  | 5 => .ok (.fmaxVn mk b a d)
  | 6 => .ok (.fmaddVn mk b a d)
  | 7 => .ok (.fnmsubVn mk b a d)
  | 8 => .ok (.fcmpVn mk b a (FCond.ofBits (d.extractLsb' 3 2)) (d.extractLsb' 0 3))
  | _ => .error .opUnassigned

/-- Major VF, k = 6: the operations by f4 (R127 to R134). -/
def decodeVf6 (f4 : BitVec 4) (mk : BitVec 3) (b : BitVec 5) (a : BitVec 5) (d : BitVec 5) : Except DecodeError Instr :=
  match f4.toNat with
  | 0 => .ok (.fsgnjXv mk b a d)
  | 1 => .ok (.fsgnjnXv mk b a d)
  | 2 => .ok (.fsgnjxXv mk b a d)
  | 3 => .ok (.fwaddXv mk b a d)
  | 4 => .ok (.fwmulXv mk b a d)
  | 5 => .ok (.fwmacXv mk b a d)
  | 6 => .ok (.vquant mk b a d)
  | 7 => .ok (.vdequant mk b a d)
  | 8 => .ok (.vqef mk b a d)
  | 9 => .ok (.vbscale mk b a d)
  | _ => .error .opUnassigned

/-- Major VF, k = 7: the operations by f4 (R127 to R134). -/
def decodeVf7 (f4 : BitVec 4) (mk : BitVec 3) (b : BitVec 5) (a : BitVec 5) (d : BitVec 5) : Except DecodeError Instr :=
  match f4.toNat with
  | 0 => .ok (.fsgnjXx mk b a d)
  | 1 => .ok (.fsgnjnXx mk b a d)
  | 2 => .ok (.fsgnjxXx mk b a d)
  | 3 => .ok (.fwaddXx mk b a d)
  | 4 => .ok (.fwmulXx mk b a d)
  | 5 => .ok (.fwmacXx mk b a d)
  | 10 => .ok (.vouts mk b a d)
  | _ => .error .opUnassigned

/-- Major VM, k = 0: the operations by f4 (R127 to R134). -/
def decodeVm0 (f4 : BitVec 4) (mk : BitVec 3) (b : BitVec 5) (a : BitVec 5) (k : BitVec 3) (d : BitVec 5) : Except DecodeError Instr :=
  match f4.toNat with
  | 0 => if b = 0#5 then .ok (.vld mk a d) else .error .reservedField
  | 1 => if b = 0#5 then .ok (.vst mk a d) else .error .reservedField
  | 2 => if b = 0#5 ∧ (d.extractLsb' 2 3) = 0#3 then .ok (.vldQ mk a (d.extractLsb' 0 2)) else .error .reservedField
  | 5 => .ok (.vamo mk b a (AtomicOp.ofBits k) d)
  | 6 => .ok (.vupdO mk b a (AtomicOp.ofBits k) d)
  | 7 => if b = 0#5 ∧ d = 0#5 then .ok (.vpf mk a) else .error .reservedField
  | 8 => if mk = 0#3 then .ok (.ald b a d) else .error .reservedField
  | 9 => if mk = 0#3 then .ok (.aldC b a d) else .error .reservedField
  | 10 => if mk = 0#3 then .ok (.ast b a d) else .error .reservedField
  | 11 => if mk = 0#3 ∧ (d.extractLsb' 2 3) = 0#3 then .ok (.mld b a (d.extractLsb' 0 2)) else .error .reservedField
  | 12 => if mk = 0#3 ∧ (d.extractLsb' 2 3) = 0#3 then .ok (.mst b a (d.extractLsb' 0 2)) else .error .reservedField
  | 13 => if mk = 0#3 ∧ (d.extractLsb' 2 3) = 0#3 then .ok (.vcpy b a (d.extractLsb' 1 1) (d.extractLsb' 0 1)) else .error .reservedField
  | 14 => if mk = 0#3 ∧ d = 0#5 then .ok (.vfill b a) else .error .reservedField
  | 15 => if mk = 0#3 then .ok (.nm b a d) else .error .reservedField
  | _ => .error .opUnassigned

/-- Major VM, k = 1: the operations by f4 (R127 to R134). -/
def decodeVm1 (f4 : BitVec 4) (mk : BitVec 3) (b : BitVec 5) (a : BitVec 5) (k : BitVec 3) (d : BitVec 5) : Except DecodeError Instr :=
  match f4.toNat with
  | 0 => .ok (.vldS mk b a d)
  | 1 => .ok (.vstS mk b a d)
  | 2 => if (d.extractLsb' 2 3) = 0#3 then .ok (.vldQS mk b a (d.extractLsb' 0 2)) else .error .reservedField
  | 3 => .ok (.vldoS mk b a d)
  | 4 => .ok (.vstoS mk b a d)
  | 5 => .ok (.vamo mk b a (AtomicOp.ofBits k) d)
  | 6 => .ok (.vupdO mk b a (AtomicOp.ofBits k) d)
  | 7 => if d = 0#5 then .ok (.vpfS mk b a) else .error .reservedField
  | _ => .error .opUnassigned

/-- Major VM, k = 2: the operations by f4 (R127 to R134). -/
def decodeVm2 (f4 : BitVec 4) (mk : BitVec 3) (b : BitVec 5) (a : BitVec 5) (k : BitVec 3) (d : BitVec 5) : Except DecodeError Instr :=
  match f4.toNat with
  | 0 => .ok (.vldX mk b a d)
  | 1 => .ok (.vstX mk b a d)
  | 2 => if (d.extractLsb' 2 3) = 0#3 then .ok (.vldQX mk b a (d.extractLsb' 0 2)) else .error .reservedField
  | 3 => .ok (.vldoX mk b a d)
  | 4 => .ok (.vstoX mk b a d)
  | 5 => .ok (.vamo mk b a (AtomicOp.ofBits k) d)
  | 6 => .ok (.vupdO mk b a (AtomicOp.ofBits k) d)
  | 7 => if d = 0#5 then .ok (.vpfX mk b a) else .error .reservedField
  | _ => .error .opUnassigned

/-- Major VM, k = 3: the operations by f4 (R127 to R134). -/
def decodeVm3 (f4 : BitVec 4) (mk : BitVec 3) (b : BitVec 5) (a : BitVec 5) (k : BitVec 3) (d : BitVec 5) : Except DecodeError Instr :=
  match f4.toNat with
  | 0 => .ok (.vldB mk b a d)
  | 1 => .ok (.vstB mk b a d)
  | 5 => .ok (.vamo mk b a (AtomicOp.ofBits k) d)
  | 6 => .ok (.vupdO mk b a (AtomicOp.ofBits k) d)
  | _ => .error .opUnassigned

/-- Major VM, k = 4: the operations by f4 (R127 to R134). -/
def decodeVm4 (f4 : BitVec 4) (mk : BitVec 3) (b : BitVec 5) (a : BitVec 5) (k : BitVec 3) (d : BitVec 5) : Except DecodeError Instr :=
  match f4.toNat with
  | 5 => .ok (.vamo mk b a (AtomicOp.ofBits k) d)
  | 6 => .ok (.vupdO mk b a (AtomicOp.ofBits k) d)
  | _ => .error .opUnassigned

/-- Major VM, k = 5: the operations by f4 (R127 to R134). -/
def decodeVm5 (f4 : BitVec 4) (mk : BitVec 3) (b : BitVec 5) (a : BitVec 5) (k : BitVec 3) (d : BitVec 5) : Except DecodeError Instr :=
  match f4.toNat with
  | 0 => if b = 0#5 then .ok (.vldW mk a d) else .error .reservedField
  | 5 => .ok (.vamo mk b a (AtomicOp.ofBits k) d)
  | 6 => .ok (.vupdO mk b a (AtomicOp.ofBits k) d)
  | _ => .error .opUnassigned

/-- Major VM, k = 6: the operations by f4 (R127 to R134). -/
def decodeVm6 (f4 : BitVec 4) (mk : BitVec 3) (b : BitVec 5) (a : BitVec 5) (k : BitVec 3) (d : BitVec 5) : Except DecodeError Instr :=
  match f4.toNat with
  | 5 => .ok (.vamo mk b a (AtomicOp.ofBits k) d)
  | 6 => .ok (.vupdO mk b a (AtomicOp.ofBits k) d)
  | _ => .error .opUnassigned

/-- Major VM, k = 7: the operations by f4 (R127 to R134). -/
def decodeVm7 (f4 : BitVec 4) (mk : BitVec 3) (b : BitVec 5) (a : BitVec 5) (k : BitVec 3) (d : BitVec 5) : Except DecodeError Instr :=
  match f4.toNat with
  | 5 => .ok (.vamo mk b a (AtomicOp.ofBits k) d)
  | 6 => .ok (.vupdO mk b a (AtomicOp.ofBits k) d)
  | _ => .error .opUnassigned

/-- Major VP, k = 0: the operations by f4 (R127 to R134). -/
def decodeVp0 (f4 : BitVec 4) (mk : BitVec 3) (b : BitVec 5) (a : BitVec 5) (d : BitVec 5) : Except DecodeError Instr :=
  match f4.toNat with
  | 0 => if mk = 0#3 ∧ (b.extractLsb' 3 2) = 0#2 ∧ (a.extractLsb' 3 2) = 0#2 ∧ (d.extractLsb' 3 2) = 0#2 then .ok (.mand (b.extractLsb' 0 3) (a.extractLsb' 0 3) (d.extractLsb' 0 3)) else .error .reservedField
  | 1 => if mk = 0#3 ∧ (b.extractLsb' 3 2) = 0#2 ∧ (a.extractLsb' 3 2) = 0#2 ∧ (d.extractLsb' 3 2) = 0#2 then .ok (.mor (b.extractLsb' 0 3) (a.extractLsb' 0 3) (d.extractLsb' 0 3)) else .error .reservedField
  | 2 => if mk = 0#3 ∧ (b.extractLsb' 3 2) = 0#2 ∧ (a.extractLsb' 3 2) = 0#2 ∧ (d.extractLsb' 3 2) = 0#2 then .ok (.mxor (b.extractLsb' 0 3) (a.extractLsb' 0 3) (d.extractLsb' 0 3)) else .error .reservedField
  | 3 => if mk = 0#3 ∧ (b.extractLsb' 3 2) = 0#2 ∧ (a.extractLsb' 3 2) = 0#2 ∧ (d.extractLsb' 3 2) = 0#2 then .ok (.mandn (b.extractLsb' 0 3) (a.extractLsb' 0 3) (d.extractLsb' 0 3)) else .error .reservedField
  | 4 => if (b.extractLsb' 3 2) = 0#2 ∧ a = 0#5 then .ok (.mpop mk (b.extractLsb' 0 3) d) else .error .reservedField
  | 5 => if (b.extractLsb' 3 2) = 0#2 ∧ a = 0#5 then .ok (.mfirst mk (b.extractLsb' 0 3) d) else .error .reservedField
  | 6 => if (b.extractLsb' 3 2) = 0#2 ∧ a = 0#5 then .ok (.iota mk (b.extractLsb' 0 3) d) else .error .reservedField
  | 7 => if b = 0#5 ∧ a = 0#5 then .ok (.vid mk d) else .error .reservedField
  | 10 => .ok (.vgatherVv mk b a d)
  | 11 => if a = 0#5 then .ok (.vcompress mk b d) else .error .reservedField
  | 12 => if a = 0#5 then .ok (.vexpand mk b d) else .error .reservedField
  | 13 => .ok (.vlut mk b a d)
  | _ => .error .opUnassigned

/-- Major VP, k = 1: the operations by f4 (R127 to R134). -/
def decodeVp1 (f4 : BitVec 4) (mk : BitVec 3) (b : BitVec 5) (a : BitVec 5) (d : BitVec 5) : Except DecodeError Instr :=
  match f4.toNat with
  | 8 => .ok (.slideupVx mk b a d)
  | 9 => .ok (.slidednVx mk b a d)
  | 10 => .ok (.vgatherVx mk b a d)
  | 14 => .ok (.vunpack mk b a d)
  | 15 => .ok (.vpack mk b a d)
  | _ => .error .opUnassigned

/-- Major VP, k = 2: the operations by f4 (R127 to R134). -/
def decodeVp2 (f4 : BitVec 4) (mk : BitVec 3) (b : BitVec 5) (a : BitVec 5) (d : BitVec 5) : Except DecodeError Instr :=
  match f4.toNat with
  | 8 => if immNonNegative a then .ok (.slideupVi mk b a d) else .error .reservedField
  | 9 => if immNonNegative a then .ok (.slidednVi mk b a d) else .error .reservedField
  | _ => .error .opUnassigned

/-- Major VP, k = 4: the operations by f4 (R127 to R134). -/
def decodeVp4 (f4 : BitVec 4) (mk : BitVec 3) (b : BitVec 5) (a : BitVec 5) (d : BitVec 5) : Except DecodeError Instr :=
  match f4.toNat with
  | 8 => .ok (.slideupVn mk b a d)
  | 9 => .ok (.slidednVn mk b a d)
  | _ => .error .opUnassigned

/-- Major VP, k = 6: the operations by f4 (R127 to R134). -/
def decodeVp6 (f4 : BitVec 4) (mk : BitVec 3) (b : BitVec 5) (a : BitVec 5) (d : BitVec 5) : Except DecodeError Instr :=
  match f4.toNat with
  | 0 => .ok (.redsum mk b a d)
  | 1 => .ok (.redmin mk b a d)
  | 2 => .ok (.redmax mk b a d)
  | 3 => .ok (.redminz mk b a d)
  | 4 => .ok (.redmaxz mk b a d)
  | 5 => .ok (.redand mk b a d)
  | 6 => .ok (.redor mk b a d)
  | 7 => .ok (.redxor mk b a d)
  | 8 => .ok (.fredo mk b a d)
  | 9 => .ok (.fredt mk b a d)
  | 10 => .ok (.fredmax mk b a d)
  | 11 => .ok (.fredmin mk b a d)
  | 15 => if a = 0#5 then .ok (.vrev mk b d) else .error .reservedField
  | _ => .error .opUnassigned

/-- Major VP, k = 7: the operations by f4 (R127 to R134). -/
def decodeVp7 (f4 : BitVec 4) (mk : BitVec 3) (b : BitVec 5) (a : BitVec 5) (d : BitVec 5) : Except DecodeError Instr :=
  match f4.toNat with
  | 12 => if mk = 0#3 then .ok (.mvxs b a d) else .error .reservedField
  | 13 => if mk = 0#3 ∧ b = 0#5 then .ok (.mvsx a d) else .error .reservedField
  | 14 => if mk = 0#3 ∧ b = 0#5 then .ok (.vbcast a d) else .error .reservedField
  | _ => .error .opUnassigned

/-- Major VC, k = 0: the operations by f4 (R127 to R134). -/
def decodeVc0 (f4 : BitVec 4) (mk : BitVec 3) (b : BitVec 5) (a : BitVec 5) (d : BitVec 5) : Except DecodeError Instr :=
  if (f4.extractLsb' 2 2) = 0#2 then .ok (.setl (f4.extractLsb' 0 2 ++ mk ++ b) a d) else .error .reservedField

/-- Major VC, k = 1: the operations by f4 (R127 to R134). -/
def decodeVc1 (f4 : BitVec 4) (mk : BitVec 3) (b : BitVec 5) (a : BitVec 5) (d : BitVec 5) : Except DecodeError Instr :=
  match f4.toNat with
  | 0 => if mk = 0#3 then .ok (.setlR b a d) else .error .reservedField
  | _ => .error .opUnassigned

/-- Major VC, k = 2: the operations by f4 (R127 to R134). -/
def decodeVc2 (f4 : BitVec 4) (mk : BitVec 3) (b : BitVec 5) (a : BitVec 5) (d : BitVec 5) : Except DecodeError Instr :=
  match f4.toNat with
  | 0 => if b = 0#5 ∧ a = 0#5 ∧ d = 0#5 then (match Scope.ofBits mk with | some x0 => .ok (.fenceSv x0) | none => .error .reservedCode) else .error .reservedField
  | 1 => if b = 0#5 ∧ a = 0#5 ∧ d = 0#5 then (match Scope.ofBits mk with | some x0 => .ok (.fenceVs x0) | none => .error .reservedCode) else .error .reservedField
  | 2 => if b = 0#5 ∧ a = 0#5 ∧ d = 0#5 then (match Scope.ofBits mk with | some x0 => .ok (.fenceVv x0) | none => .error .reservedCode) else .error .reservedField
  | 3 => if b = 0#5 ∧ a = 0#5 ∧ d = 0#5 then (match Scope.ofBits mk with | some x0 => .ok (.fenceNm x0) | none => .error .reservedCode) else .error .reservedField
  | 4 => if b = 0#5 ∧ a = 0#5 ∧ d = 0#5 then (match Scope.ofBits mk with | some x0 => .ok (.fenceAlias x0) | none => .error .reservedCode) else .error .reservedField
  | 5 => if b = 0#5 ∧ a = 0#5 ∧ d = 0#5 then (match Scope.ofBits mk with | some x0 => .ok (.fenceRel x0) | none => .error .reservedCode) else .error .reservedField
  | 6 => if b = 0#5 ∧ a = 0#5 ∧ d = 0#5 then (match Scope.ofBits mk with | some x0 => .ok (.fenceAcq x0) | none => .error .reservedCode) else .error .reservedField
  | 7 => if b = 0#5 ∧ a = 0#5 ∧ d = 0#5 then (match Scope.ofBits mk with | some x0 => .ok (.fenceAr x0) | none => .error .reservedCode) else .error .reservedField
  | 8 => if (mk.extractLsb' 1 2) = 0#2 ∧ a = 0#5 ∧ d = 0#5 ∧ (mk.extractLsb' 0 1 ++ b) ≠ 0#6 then .ok (.drain (mk.extractLsb' 0 1 ++ b)) else .error .reservedField
  | _ => .error .opUnassigned

/-- Major VC, k = 3: the operations by f4 (R127 to R134). -/
def decodeVc3 (f4 : BitVec 4) (mk : BitVec 3) (b : BitVec 5) (a : BitVec 5) (d : BitVec 5) : Except DecodeError Instr :=
  match f4.toNat with
  | 0 => if mk = 0#3 ∧ b = 0#5 ∧ d = 0#5 then .ok (.barArrive a) else .error .reservedField
  | 1 => if mk = 0#3 ∧ b = 0#5 ∧ d = 0#5 then .ok (.barWait a) else .error .reservedField
  | 2 => if mk = 0#3 ∧ b = 0#5 ∧ d = 0#5 then .ok (.barSync a) else .error .reservedField
  | 3 => if mk = 0#3 ∧ d = 0#5 then .ok (.barInit b a) else .error .reservedField
  | 4 => if mk = 0#3 then .ok (.waitMem b a d) else .error .reservedField
  | 5 => if mk = 0#3 ∧ b = 0#5 ∧ d = 0#5 then .ok (.waitTime a) else .error .reservedField
  | 6 => if mk = 0#3 ∧ b = 0#5 ∧ a = 0#5 ∧ d = 0#5 then .ok .yield else .error .reservedField
  | 7 => if mk = 0#3 ∧ b = 0#5 ∧ a = 0#5 ∧ d = 0#5 then .ok .halt else .error .reservedField
  | _ => .error .opUnassigned

/-- Major VC, k = 4: the operations by f4 (R127 to R134). -/
def decodeVc4 (f4 : BitVec 4) (mk : BitVec 3) (b : BitVec 5) (a : BitVec 5) (d : BitVec 5) : Except DecodeError Instr :=
  match f4.toNat with
  | 0 => if mk = 0#3 ∧ d = 0#5 then .ok (.qpush b a) else .error .reservedField
  | 1 => if mk = 0#3 ∧ b = 0#5 then .ok (.qpop a d) else if mk = 1#3 ∧ b = 0#5 then .ok (.qpopT a d) else .error .reservedField
  | 2 => if b = 0#5 ∧ a = 0#5 ∧ d = 0#5 then .ok (.qany mk) else .error .reservedField
  | 3 => if b = 0#5 ∧ a = 0#5 ∧ d = 0#5 then .ok (.qall mk) else .error .reservedField
  | 4 => if mk = 0#3 then .ok (.launch b a d) else .error .reservedField
  | 5 => if mk = 0#3 ∧ b = 0#5 then .ok (.qlen a d) else .error .reservedField
  | _ => .error .opUnassigned

/-- Major VC, k = 5: the operations by f4 (R127 to R134). -/
def decodeVc5 (f4 : BitVec 4) (mk : BitVec 3) (b : BitVec 5) (a : BitVec 5) (d : BitVec 5) : Except DecodeError Instr :=
  match f4.toNat with
  | 0 => if mk = 0#3 ∧ b = 0#5 ∧ d = 0#5 then .ok (.vsave a) else .error .reservedField
  | 1 => if mk = 0#3 ∧ b = 0#5 ∧ d = 0#5 then .ok (.vrest a) else .error .reservedField
  | 2 => if mk = 0#3 ∧ b = 0#5 ∧ a = 0#5 ∧ d = 0#5 then .ok .vret else .error .reservedField
  | 3 => if mk = 0#3 ∧ b = 0#5 ∧ a = 0#5 ∧ d = 0#5 then .ok .aret else .error .reservedField
  | 4 => if mk = 0#3 ∧ d = 0#5 then .ok (.reclaim b a) else .error .reservedField
  | 5 => if mk = 0#3 then .ok (.vprobe b a d) else .error .reservedField
  | 6 => if mk = 0#3 ∧ b = 0#5 ∧ a = 0#5 ∧ d = 0#5 then .ok .kend else .error .reservedField
  | _ => .error .opUnassigned

/-- Major VA, k = 0: the operations by f4 (R127 to R134). -/
def decodeVa0 (f4 : BitVec 4) (mk : BitVec 3) (b : BitVec 5) (a : BitVec 5) (d : BitVec 5) : Except DecodeError Instr :=
  match f4.toNat with
  | 0 => if mk = 0#3 then .ok (.aaddVv b a d) else .error .reservedField
  | 1 => if mk = 0#3 then .ok (.asubVv b a d) else .error .reservedField
  | 5 => if mk = 0#3 then (match AnchorFloat.ofBits a with | some x1 => .ok (.aconv b x1 d) | none => .error .reservedCode) else .error .reservedField
  | 6 => if mk = 0#3 then (match AnchorFloat.ofBits a with | some x1 => .ok (.afrom b x1 d) | none => .error .reservedCode) else .error .reservedField
  | 8 => if mk = 0#3 ∧ a = 0#5 then .ok (.ared b d) else .error .reservedField
  | 9 => if mk = 0#3 ∧ a = 0#5 then .ok (.aget b d) else .error .reservedField
  | 10 => if mk = 0#3 ∧ a = 0#5 then .ok (.aput b d) else .error .reservedField
  | 11 => if mk = 0#3 ∧ a = 0#5 then .ok (.aqset b d) else .error .reservedField
  | 12 => if mk = 0#3 ∧ b = 0#5 ∧ a = 0#5 ∧ (d.extractLsb' 2 3) = 0#3 then .ok (.mzero (d.extractLsb' 0 2)) else .error .reservedField
  | 13 => if mk = 0#3 ∧ (d.extractLsb' 2 3) = 0#3 then .ok (.mpa b a (d.extractLsb' 0 2)) else .error .reservedField
  | 15 => if mk = 0#3 ∧ d = 0#5 then .ok (.mscale b a) else .error .reservedField
  | _ => .error .opUnassigned

/-- Major VA, k = 1: the operations by f4 (R127 to R134). -/
def decodeVa1 (f4 : BitVec 4) (mk : BitVec 3) (b : BitVec 5) (a : BitVec 5) (d : BitVec 5) : Except DecodeError Instr :=
  match f4.toNat with
  | 0 => if mk = 0#3 then .ok (.aaddVx b a d) else .error .reservedField
  | 1 => if mk = 0#3 then .ok (.asubVx b a d) else .error .reservedField
  | 2 => if mk = 0#3 then .ok (.adiffVx b a d) else .error .reservedField
  | 3 => if mk = 0#3 then .ok (.amulVx b a d) else .error .reservedField
  | 4 => if mk = 0#3 then .ok (.ascaleVx b a d) else .error .reservedField
  | 7 => if mk = 0#3 then .ok (.areanchorVx b a d) else .error .reservedField
  | 14 => if mk = 0#3 ∧ (d.extractLsb' 2 3) = 0#3 then .ok (.mmvTv b a (d.extractLsb' 0 2)) else if mk = 0#3 ∧ (d.extractLsb' 2 3) = 4#3 then .ok (.mmvVt b a (d.extractLsb' 0 2)) else .error .reservedField
  | _ => .error .opUnassigned

/-- Major VA, k = 2: the operations by f4 (R127 to R134). -/
def decodeVa2 (f4 : BitVec 4) (mk : BitVec 3) (b : BitVec 5) (a : BitVec 5) (d : BitVec 5) : Except DecodeError Instr :=
  match f4.toNat with
  | 0 => if mk = 0#3 then .ok (.aaddVi b a d) else .error .reservedField
  | 1 => if mk = 0#3 then .ok (.asubVi b a d) else .error .reservedField
  | 2 => if mk = 0#3 ∧ immNonNegative a then .ok (.adiffVi b a d) else .error .reservedField
  | 3 => if mk = 0#3 then .ok (.amulVi b a d) else .error .reservedField
  | 4 => if mk = 0#3 then .ok (.ascaleVi b a d) else .error .reservedField
  | 7 => if mk = 0#3 ∧ (a.extractLsb' 2 3) = 0#3 then .ok (.areanchorVi b (a.extractLsb' 0 2) d) else .error .reservedField
  | _ => .error .opUnassigned

/-- Major VA, k = 6: the operations by f4 (R127 to R134). -/
def decodeVa6 (f4 : BitVec 4) (mk : BitVec 3) (b : BitVec 5) (a : BitVec 5) (d : BitVec 5) : Except DecodeError Instr :=
  match f4.toNat with
  | 0 => if mk = 0#3 ∧ (d.extractLsb' 2 3) = 0#3 then .ok (.mpaI b a (d.extractLsb' 0 2)) else .error .reservedField
  | 1 => if mk = 0#3 ∧ (d.extractLsb' 2 3) = 0#3 then .ok (.mpaH b a (d.extractLsb' 0 2)) else .error .reservedField
  | 2 => if mk = 0#3 ∧ (d.extractLsb' 2 3) = 0#3 then .ok (.mlra b a (d.extractLsb' 0 2)) else .error .reservedField
  | 4 => if mk = 0#3 then .ok (.acmp b a (Cond.ofBits (d.extractLsb' 3 2)) (d.extractLsb' 0 3)) else .error .reservedField
  | _ => .error .opUnassigned

/-- Major VA, k = 7: the operations by f4 (R127 to R134). -/
def decodeVa7 (f4 : BitVec 4) (mk : BitVec 3) (b : BitVec 5) (a : BitVec 5) (d : BitVec 5) : Except DecodeError Instr :=
  match f4.toNat with
  | 3 => if mk = 0#3 ∧ (b.extractLsb' 2 3) = 0#3 then .ok (.mcvt (b.extractLsb' 0 2) a d) else .error .reservedField
  | _ => .error .opUnassigned

/-- Major VI by kind or mode (R119 to R121). -/
def decodeVi (f4 : BitVec 4) (mk : BitVec 3) (b a : BitVec 5) (k : BitVec 3) (d : BitVec 5) : Except DecodeError Instr :=
  match k.toNat with
  | 0 => decodeVi0 f4 mk b a d
  | 1 => decodeVi1 f4 mk b a d
  | 2 => decodeVi2 f4 mk b a d
  | 3 => decodeVi3 f4 mk b a d
  | 4 => decodeVi4 f4 mk b a d
  | 6 => decodeVi6 f4 mk b a d
  | 7 => decodeVi7 f4 mk b a d
  | _ => .error .kindReserved

/-- Major VF by kind or mode (R119 to R121). -/
def decodeVf (f4 : BitVec 4) (mk : BitVec 3) (b a : BitVec 5) (k : BitVec 3) (d : BitVec 5) : Except DecodeError Instr :=
  match k.toNat with
  | 0 => decodeVf0 f4 mk b a d
  | 1 => decodeVf1 f4 mk b a d
  | 3 => decodeVf3 f4 mk b a d
  | 4 => decodeVf4 f4 mk b a d
  | 6 => decodeVf6 f4 mk b a d
  | 7 => decodeVf7 f4 mk b a d
  | _ => .error .kindReserved

/-- Major VP by kind or mode (R119 to R121). -/
def decodeVp (f4 : BitVec 4) (mk : BitVec 3) (b a : BitVec 5) (k : BitVec 3) (d : BitVec 5) : Except DecodeError Instr :=
  match k.toNat with
  | 0 => decodeVp0 f4 mk b a d
  | 1 => decodeVp1 f4 mk b a d
  | 2 => decodeVp2 f4 mk b a d
  | 4 => decodeVp4 f4 mk b a d
  | 6 => decodeVp6 f4 mk b a d
  | 7 => decodeVp7 f4 mk b a d
  | _ => .error .kindReserved

/-- Major VA by kind or mode (R119 to R121). -/
def decodeVa (f4 : BitVec 4) (mk : BitVec 3) (b a : BitVec 5) (k : BitVec 3) (d : BitVec 5) : Except DecodeError Instr :=
  match k.toNat with
  | 0 => decodeVa0 f4 mk b a d
  | 1 => decodeVa1 f4 mk b a d
  | 2 => decodeVa2 f4 mk b a d
  | 6 => decodeVa6 f4 mk b a d
  | 7 => decodeVa7 f4 mk b a d
  | _ => .error .kindReserved

/-- Major VM by kind or mode (R119 to R121). -/
def decodeVm (f4 : BitVec 4) (mk : BitVec 3) (b a : BitVec 5) (k : BitVec 3) (d : BitVec 5) : Except DecodeError Instr :=
  match k.toNat with
  | 0 => decodeVm0 f4 mk b a k d
  | 1 => decodeVm1 f4 mk b a k d
  | 2 => decodeVm2 f4 mk b a k d
  | 3 => decodeVm3 f4 mk b a k d
  | 4 => decodeVm4 f4 mk b a k d
  | 5 => decodeVm5 f4 mk b a k d
  | 6 => decodeVm6 f4 mk b a k d
  | _ => decodeVm7 f4 mk b a k d

/-- Major VC by kind or mode (R119 to R121). -/
def decodeVc (f4 : BitVec 4) (mk : BitVec 3) (b a : BitVec 5) (k : BitVec 3) (d : BitVec 5) : Except DecodeError Instr :=
  match k.toNat with
  | 0 => decodeVc0 f4 mk b a d
  | 1 => decodeVc1 f4 mk b a d
  | 2 => decodeVc2 f4 mk b a d
  | 3 => decodeVc3 f4 mk b a d
  | 4 => decodeVc4 f4 mk b a d
  | 5 => decodeVc5 f4 mk b a d
  | _ => .error .kindReserved


/-! The RV64 base (R111). -/

/-- A Zicsr write by the register it names: the registers with a row of their own, and every other (R161). -/
def csrWriteInstr (op : CsrOp) (rd : XReg) (csr : BitVec 12) (src : BitVec 5) : Instr :=
  match csr.toNat with
  | 0x7C0 => .pwrgrantWrite op rd src
  | 0x7C1 => .chainpermWrite op rd src
  | 0x7C2 => .busyctlWrite op rd src
  | 0x5C4 => .vdeskWrite op rd src
  | 0x180 => .satpWrite op rd src
  | c =>
    if 0xB03 ≤ c ∧ c ≤ 0xB12 then .mhpmcounterWrite op rd ((csr - 0xB03#12).setWidth 4) src
    else if 0x323 ≤ c ∧ c ≤ 0x332 then .mhpmeventWrite op rd ((csr - 0x323#12).setWidth 4) src
    else .csrWrite op rd csr src

/-- The Zicsr forms of major SYSTEM by funct3. -/
def CsrOp.ofBits (k : BitVec 3) : Option CsrOp :=
  match k.toNat with
  | 1 => some .rw | 2 => some .rs | 3 => some .rc | 5 => some .rwi | 6 => some .rsi | 7 => some .rci | _ => none
/-- The funct3 of a Zicsr form. -/
def CsrOp.bits : CsrOp → BitVec 3
  | .rw => 1#3 | .rs => 2#3 | .rc => 3#3 | .rwi => 5#3 | .rsi => 6#3 | .rci => 7#3

/-- A Zicsr word: a set or clear form whose source field is 0 only reads. -/
def decodeCsr (op : CsrOp) (rd : XReg) (csr : BitVec 12) (src : BitVec 5) : Instr :=
  if csrWrites op src then csrWriteInstr op rd csr src
  else
    match op with
    | .rs => .scalarBaseInstruction (.csrRead false false rd csr)
    | .rc => .scalarBaseInstruction (.csrRead true false rd csr)
    | .rsi => .scalarBaseInstruction (.csrRead false true rd csr)
    | _ => .scalarBaseInstruction (.csrRead true true rd csr)

/-- The rounding-mode field; 5 and 6 are reserved. -/
def Rm.ofBits (k : BitVec 3) : Option Rm :=
  match k.toNat with
  | 0 => some .rne | 1 => some .rtz | 2 => some .rdn | 3 => some .rup | 4 => some .rmm | 7 => some .dyn | _ => none
/-- The code of a rounding mode. -/
def Rm.bits : Rm → BitVec 3
  | .rne => 0#3 | .rtz => 1#3 | .rdn => 2#3 | .rup => 3#3 | .rmm => 4#3 | .dyn => 7#3

/-- OP and its function fields. -/
def RegOp.ofBits (f7 : BitVec 7) (k : BitVec 3) : Option RegOp :=
  match f7.toNat, k.toNat with
  | 0x00, 0 => some .add | 0x20, 0 => some .sub | 0x00, 1 => some .sll | 0x00, 2 => some .slt
  | 0x00, 3 => some .sltu | 0x00, 4 => some .xor | 0x00, 5 => some .srl | 0x20, 5 => some .sra
  | 0x00, 6 => some .or | 0x00, 7 => some .and
  | 0x01, 0 => some .mul | 0x01, 1 => some .mulh | 0x01, 2 => some .mulhsu | 0x01, 3 => some .mulhu
  | 0x01, 4 => some .div | 0x01, 5 => some .divu | 0x01, 6 => some .rem | 0x01, 7 => some .remu
  | 0x10, 2 => some .sh1add | 0x10, 4 => some .sh2add | 0x10, 6 => some .sh3add
  | 0x20, 7 => some .andn | 0x20, 6 => some .orn | 0x20, 4 => some .xnor
  | 0x05, 4 => some .min | 0x05, 5 => some .minu | 0x05, 6 => some .max | 0x05, 7 => some .maxu
  | 0x30, 1 => some .rol | 0x30, 5 => some .ror
  | 0x07, 5 => some .czeroEqz | 0x07, 7 => some .czeroNez
  | _, _ => none
/-- The function fields of an OP operation. -/
def RegOp.bits : RegOp → BitVec 7 × BitVec 3
  | .add => (0x00#7, 0#3) | .sub => (0x20#7, 0#3) | .sll => (0x00#7, 1#3) | .slt => (0x00#7, 2#3)
  | .sltu => (0x00#7, 3#3) | .xor => (0x00#7, 4#3) | .srl => (0x00#7, 5#3) | .sra => (0x20#7, 5#3)
  | .or => (0x00#7, 6#3) | .and => (0x00#7, 7#3)
  | .mul => (0x01#7, 0#3) | .mulh => (0x01#7, 1#3) | .mulhsu => (0x01#7, 2#3) | .mulhu => (0x01#7, 3#3)
  | .div => (0x01#7, 4#3) | .divu => (0x01#7, 5#3) | .rem => (0x01#7, 6#3) | .remu => (0x01#7, 7#3)
  | .sh1add => (0x10#7, 2#3) | .sh2add => (0x10#7, 4#3) | .sh3add => (0x10#7, 6#3)
  | .andn => (0x20#7, 7#3) | .orn => (0x20#7, 6#3) | .xnor => (0x20#7, 4#3)
  | .min => (0x05#7, 4#3) | .minu => (0x05#7, 5#3) | .max => (0x05#7, 6#3) | .maxu => (0x05#7, 7#3)
  | .rol => (0x30#7, 1#3) | .ror => (0x30#7, 5#3)
  | .czeroEqz => (0x07#7, 5#3) | .czeroNez => (0x07#7, 7#3)

/-- OP-32 and its function fields. -/
def RegWOp.ofBits (f7 : BitVec 7) (k : BitVec 3) : Option RegWOp :=
  match f7.toNat, k.toNat with
  | 0x00, 0 => some .addw | 0x20, 0 => some .subw | 0x00, 1 => some .sllw | 0x00, 5 => some .srlw
  | 0x20, 5 => some .sraw | 0x01, 0 => some .mulw | 0x01, 4 => some .divw | 0x01, 5 => some .divuw
  | 0x01, 6 => some .remw | 0x01, 7 => some .remuw | 0x04, 0 => some .addUw | 0x10, 2 => some .sh1addUw
  | 0x10, 4 => some .sh2addUw | 0x10, 6 => some .sh3addUw | 0x30, 1 => some .rolw | 0x30, 5 => some .rorw
  | _, _ => none
/-- The function fields of an OP-32 operation. -/
def RegWOp.bits : RegWOp → BitVec 7 × BitVec 3
  | .addw => (0x00#7, 0#3) | .subw => (0x20#7, 0#3) | .sllw => (0x00#7, 1#3) | .srlw => (0x00#7, 5#3)
  | .sraw => (0x20#7, 5#3) | .mulw => (0x01#7, 0#3) | .divw => (0x01#7, 4#3) | .divuw => (0x01#7, 5#3)
  | .remw => (0x01#7, 6#3) | .remuw => (0x01#7, 7#3) | .addUw => (0x04#7, 0#3) | .sh1addUw => (0x10#7, 2#3)
  | .sh2addUw => (0x10#7, 4#3) | .sh3addUw => (0x10#7, 6#3) | .rolw => (0x30#7, 1#3) | .rorw => (0x30#7, 5#3)

/-- The funct5 of an AMO. -/
def AmoOp.ofBits (x : BitVec 5) : Option AmoOp :=
  match x.toNat with
  | 0x01 => some .swap | 0x00 => some .add | 0x04 => some .xor | 0x0C => some .and | 0x08 => some .or
  | 0x10 => some .min | 0x14 => some .max | 0x18 => some .minu | 0x1C => some .maxu | _ => none
/-- The funct5 of an AMO operation. -/
def AmoOp.bits : AmoOp → BitVec 5
  | .swap => 0x01#5 | .add => 0x00#5 | .xor => 0x04#5 | .and => 0x0C#5 | .or => 0x08#5
  | .min => 0x10#5 | .max => 0x14#5 | .minu => 0x18#5 | .maxu => 0x1C#5

/-- The integer side of an F or D conversion, rs2 field 0 to 3. -/
def IntKind.ofBits (x : BitVec 5) : Option IntKind :=
  match x.toNat with | 0 => some .w | 1 => some .wu | 2 => some .l | 3 => some .lu | _ => none
/-- The rs2 field of an integer kind. -/
def IntKind.bits : IntKind → BitVec 5
  | .w => 0#5 | .wu => 1#5 | .l => 2#5 | .lu => 3#5

/-- The result of decoding a base word, none for an unassigned one. -/
def baseOk (i : RvInstr) : Except DecodeError Instr := .ok (.scalarBaseInstruction i)

/-- One Boolean as a bit. -/
def bit1 (x : Bool) : BitVec 1 := if x then 1#1 else 0#1

/-- Major OP-IMM. -/
def decodeOpImm (f4 : BitVec 4) (mk : BitVec 3) (b a : BitVec 5) (k : BitVec 3) (d : BitVec 5) :
    Except DecodeError Instr :=
  let imm : BitVec 12 := f4 ++ mk ++ b
  let f6 : BitVec 6 := f4 ++ mk.extractLsb' 1 2
  let sh : BitVec 6 := mk.extractLsb' 0 1 ++ b
  match k.toNat with
  | 0 => baseOk (.opImm .addi d a imm)
  | 1 =>
    if f6 = 0#6 then baseOk (.shiftImm .slli d a sh)
    else
      match imm.toNat with
      | 0x600 => baseOk (.unary .clz d a) | 0x601 => baseOk (.unary .ctz d a) | 0x602 => baseOk (.unary .cpop d a)
      | 0x604 => baseOk (.unary .sextB d a) | 0x605 => baseOk (.unary .sextH d a)
      | _ => .error .baseUnassigned
  | 2 => baseOk (.opImm .slti d a imm)
  | 3 => baseOk (.opImm .sltiu d a imm)
  | 4 => baseOk (.opImm .xori d a imm)
  | 5 =>
    match f6.toNat with
    | 0x00 => baseOk (.shiftImm .srli d a sh)
    | 0x10 => baseOk (.shiftImm .srai d a sh)
    | 0x18 => baseOk (.shiftImm .rori d a sh)
    | _ =>
      match imm.toNat with
      | 0x287 => baseOk (.unary .orcB d a) | 0x6B8 => baseOk (.unary .rev8 d a)
      | _ => .error .baseUnassigned
  | 6 => baseOk (.opImm .ori d a imm)
  | _ => baseOk (.opImm .andi d a imm)

/-- Major OP-IMM-32. -/
def decodeOpImm32 (f4 : BitVec 4) (mk : BitVec 3) (b a : BitVec 5) (k : BitVec 3) (d : BitVec 5) :
    Except DecodeError Instr :=
  let imm : BitVec 12 := f4 ++ mk ++ b
  let f7 : BitVec 7 := f4 ++ mk
  match k.toNat with
  | 0 => baseOk (.addiw d a imm)
  | 1 =>
    if f7 = 0#7 then baseOk (.shiftImmW .slliw d a b)
    else if f4 ++ mk.extractLsb' 1 2 = 2#6 then baseOk (.shiftImm .slliUw d a (mk.extractLsb' 0 1 ++ b))
    else
      match imm.toNat with
      | 0x600 => baseOk (.unary .clzw d a) | 0x601 => baseOk (.unary .ctzw d a) | 0x602 => baseOk (.unary .cpopw d a)
      | _ => .error .baseUnassigned
  | 5 =>
    match f7.toNat with
    | 0x00 => baseOk (.shiftImmW .srliw d a b)
    | 0x20 => baseOk (.shiftImmW .sraiw d a b)
    | 0x30 => baseOk (.shiftImmW .roriw d a b)
    | _ => .error .baseUnassigned
  | _ => .error .baseUnassigned

/-- Major AMO. -/
def decodeAmo (f4 : BitVec 4) (mk : BitVec 3) (b a : BitVec 5) (k : BitVec 3) (d : BitVec 5) :
    Except DecodeError Instr :=
  let f5 : BitVec 5 := f4 ++ mk.extractLsb' 2 1
  let aq := mk.extractLsb' 1 1 = 1#1
  let rl := mk.extractLsb' 0 1 = 1#1
  let go (dbl : Bool) : Except DecodeError Instr :=
    match f5.toNat with
    | 0x02 => if b = 0#5 then .ok (.lrSc (.lr dbl aq rl d a)) else .error .baseUnassigned
    | 0x03 => .ok (.lrSc (.sc dbl aq rl d a b))
    | _ =>
      match AmoOp.ofBits f5 with
      | some op => baseOk (.amo op dbl aq rl d a b)
      | none => .error .baseUnassigned
  match k.toNat with
  | 2 => go false
  | 3 => go true
  | _ => .error .baseUnassigned

/-- A base word whose rounding mode is not reserved. -/
def withRm (k : BitVec 3) (f : Rm → RvInstr) : Except DecodeError Instr :=
  match Rm.ofBits k with
  | some rm => baseOk (f rm)
  | none => .error .baseUnassigned

/-- Major OP-FP: funct5 and the format in [26:25], 0 for F and 1 for D. -/
def decodeOpFp (f4 : BitVec 4) (mk : BitVec 3) (b a : BitVec 5) (k : BitVec 3) (d : BitVec 5) :
    Except DecodeError Instr :=
  let f5 : BitVec 5 := f4 ++ mk.extractLsb' 2 1
  let go (dbl : Bool) : Except DecodeError Instr :=
    match f5.toNat with
    | 0x00 => withRm k (fun rm => .farith .fadd dbl rm d a b)
    | 0x01 => withRm k (fun rm => .farith .fsub dbl rm d a b)
    | 0x02 => withRm k (fun rm => .farith .fmul dbl rm d a b)
    | 0x03 => withRm k (fun rm => .farith .fdiv dbl rm d a b)
    | 0x0B => if b = 0#5 then withRm k (fun rm => .fsqrt dbl rm d a) else .error .baseUnassigned
    | 0x04 =>
      match k.toNat with
      | 0 => baseOk (.fpair .fsgnj dbl d a b) | 1 => baseOk (.fpair .fsgnjn dbl d a b)
      | 2 => baseOk (.fpair .fsgnjx dbl d a b) | _ => .error .baseUnassigned
    | 0x05 =>
      match k.toNat with
      | 0 => baseOk (.fpair .fmin dbl d a b) | 1 => baseOk (.fpair .fmax dbl d a b) | _ => .error .baseUnassigned
    | 0x08 =>
      if dbl = false ∧ b = 1#5 then withRm k (fun rm => .fcvtSD rm d a)
      else if dbl = true ∧ b = 0#5 then withRm k (fun rm => .fcvtDS rm d a)
      else .error .baseUnassigned
    | 0x14 =>
      match k.toNat with
      | 2 => baseOk (.fcmp .feq dbl d a b) | 1 => baseOk (.fcmp .flt dbl d a b)
      | 0 => baseOk (.fcmp .fle dbl d a b) | _ => .error .baseUnassigned
    | 0x18 =>
      match IntKind.ofBits b with
      | some n => withRm k (fun rm => .fcvtToInt n dbl rm d a)
      | none => .error .baseUnassigned
    | 0x1A =>
      match IntKind.ofBits b with
      | some n => withRm k (fun rm => .fcvtFromInt n dbl rm d a)
      | none => .error .baseUnassigned
    | 0x1C =>
      if b = 0#5 then
        match k.toNat with
        | 0 => baseOk (.fmvToX dbl d a) | 1 => baseOk (.fclass dbl d a) | _ => .error .baseUnassigned
      else .error .baseUnassigned
    | 0x1E => if b = 0#5 ∧ k = 0#3 then baseOk (.fmvFromX dbl d a) else .error .baseUnassigned
    | _ => .error .baseUnassigned
  match (mk.extractLsb' 0 2).toNat with
  | 0 => go false
  | 1 => go true
  | _ => .error .baseUnassigned

/-- The majors MADD, MSUB, NMSUB and NMADD. -/
def decodeFma (op : FmaOp) (f4 : BitVec 4) (mk : BitVec 3) (b a : BitVec 5) (k : BitVec 3) (d : BitVec 5) :
    Except DecodeError Instr :=
  let rs3 : BitVec 5 := f4 ++ mk.extractLsb' 2 1
  match (mk.extractLsb' 0 2).toNat with
  | 0 => withRm k (fun rm => .fma op false rm d a b rs3)
  | 1 => withRm k (fun rm => .fma op true rm d a b rs3)
  | _ => .error .baseUnassigned

/-- Major SYSTEM. -/
def decodeSystem (f4 : BitVec 4) (mk : BitVec 3) (b a : BitVec 5) (k : BitVec 3) (d : BitVec 5) :
    Except DecodeError Instr :=
  let imm : BitVec 12 := f4 ++ mk ++ b
  match CsrOp.ofBits k with
  | some op => .ok (decodeCsr op d imm a)
  | none =>
    if k = 0#3 ∧ d = 0#5 then
      if f4 ++ mk = 9#7 then .ok (.sfenceVma a b)
      else if a = 0#5 then
        match imm.toNat with
        | 0x000 => .ok .ecall | 0x001 => .ok .ebreak | 0x105 => .ok .wfi
        | 0x102 => baseOk .sret | 0x302 => baseOk .mret
        | _ => .error .baseUnassigned
      else .error .baseUnassigned
    else .error .baseUnassigned

/-- A word of the RV64 base by its major (R109, R111). -/
def decodeBase (f4 : BitVec 4) (mk : BitVec 3) (b a : BitVec 5) (k : BitVec 3) (d : BitVec 5) (major : BitVec 7) :
    Except DecodeError Instr :=
  let imm : BitVec 12 := f4 ++ mk ++ b
  let simm : BitVec 12 := f4 ++ mk ++ d
  let imm20 : BitVec 20 := f4 ++ mk ++ b ++ a ++ k
  match major.toNat with
  | 0x37 => baseOk (.lui d imm20)
  | 0x17 => baseOk (.auipc d imm20)
  | 0x6F =>
    baseOk (.jal d (f4.extractLsb' 3 1 ++ a ++ k ++ b.extractLsb' 0 1 ++ f4.extractLsb' 0 3 ++ mk ++ b.extractLsb' 1 4))
  | 0x67 => if k = 0#3 then baseOk (.jalr d a imm) else .error .baseUnassigned
  | 0x63 =>
    let off : BitVec 12 := f4.extractLsb' 3 1 ++ d.extractLsb' 0 1 ++ f4.extractLsb' 0 3 ++ mk ++ d.extractLsb' 1 4
    match k.toNat with
    | 0 => baseOk (.branch .eq a b off) | 1 => baseOk (.branch .ne a b off)
    | 4 => baseOk (.branch .lt a b off) | 5 => baseOk (.branch .ge a b off)
    | 6 => baseOk (.branch .ltu a b off) | 7 => baseOk (.branch .geu a b off)
    | _ => .error .baseUnassigned
  | 0x03 =>
    match k.toNat with
    | 0 => baseOk (.load .lb d a imm) | 1 => baseOk (.load .lh d a imm) | 2 => baseOk (.load .lw d a imm)
    | 3 => baseOk (.load .ld d a imm) | 4 => baseOk (.load .lbu d a imm) | 5 => baseOk (.load .lhu d a imm)
    | 6 => baseOk (.load .lwu d a imm) | _ => .error .baseUnassigned
  | 0x23 =>
    match k.toNat with
    | 0 => baseOk (.store .sb a b simm) | 1 => baseOk (.store .sh a b simm) | 2 => baseOk (.store .sw a b simm)
    | 3 => baseOk (.store .sd a b simm) | _ => .error .baseUnassigned
  | 0x13 => decodeOpImm f4 mk b a k d
  | 0x1B => decodeOpImm32 f4 mk b a k d
  | 0x33 =>
    match RegOp.ofBits (f4 ++ mk) k with
    | some op => baseOk (.op op d a b)
    | none => .error .baseUnassigned
  | 0x3B =>
    match RegWOp.ofBits (f4 ++ mk) k with
    | some op => baseOk (.opW op d a b)
    | none =>
      if f4 ++ mk = 4#7 ∧ k = 4#3 ∧ b = 0#5 then baseOk (.unary .zextH d a) else .error .baseUnassigned
  | 0x0F =>
    match k.toNat with
    | 0 => .ok (.fence f4 (mk ++ b.extractLsb' 4 1) (b.extractLsb' 0 4) a d)
    | 1 => .ok (.fenceI imm a d)
    | _ => .error .baseUnassigned
  | 0x2F => decodeAmo f4 mk b a k d
  | 0x07 =>
    match k.toNat with
    | 2 => baseOk (.fload false d a imm) | 3 => baseOk (.fload true d a imm) | _ => .error .baseUnassigned
  | 0x27 =>
    match k.toNat with
    | 2 => baseOk (.fstore false a b simm) | 3 => baseOk (.fstore true a b simm) | _ => .error .baseUnassigned
  | 0x43 => decodeFma .fmadd f4 mk b a k d
  | 0x47 => decodeFma .fmsub f4 mk b a k d
  | 0x4B => decodeFma .fnmsub f4 mk b a k d
  | 0x4F => decodeFma .fnmadd f4 mk b a k d
  | 0x53 => decodeOpFp f4 mk b a k d
  | 0x73 => decodeSystem f4 mk b a k d
  | _ => .error .majorUnassigned

/-- A word by its fields: the checks of R123 on the word alone. -/
def decodeFields (f4 : BitVec 4) (mk : BitVec 3) (b a : BitVec 5) (k : BitVec 3) (d : BitVec 5) (major : BitVec 7) :
    Except DecodeError Instr :=
  if major.extractLsb' 0 2 ≠ 3#2 ∨ major.extractLsb' 2 3 = 7#3 then .error .notThirtyTwoBit
  else
    match major.toNat with
    | 0x0B => decodeVi f4 mk b a k d
    | 0x2B => decodeVf f4 mk b a k d
    | 0x57 => decodeVm f4 mk b a k d
    | 0x5B => decodeVp f4 mk b a k d
    | 0x77 => decodeVc f4 mk b a k d
    | 0x7B => decodeVa f4 mk b a k d
    | _ => decodeBase f4 mk b a k d major

/-- The instruction a word is, by the checks of R123 that look at the word alone. -/
def decodeWord (w : InstrWord) : Except DecodeError Instr :=
  decodeFields (w.extractLsb' 28 4) (w.extractLsb' 25 3) (w.extractLsb' 20 5) (w.extractLsb' 15 5) (w.extractLsb' 12 3)
    (w.extractLsb' 7 5) (w.extractLsb' 0 7)

/-- Decoding of a list of bytes: four bytes, little-endian (R1, R108), and the rest. -/
def decode : List Byte → Except DecodeError (Instr × List Byte)
  | b0 :: b1 :: b2 :: b3 :: rest =>
    match decodeWord (b3 ++ b2 ++ b1 ++ b0) with
    | .ok i => .ok (i, rest)
    | .error e => .error e
  | _ => .error .tooShort

/-- The instruction the decoder reads from an instruction of the table's bits: ALV and base words are 32 bits. -/
def decodeTableWord (nbits w : Nat) : Option Instr :=
  if nbits ≤ 32 then
    match decode [BitVec.ofNat 8 w, BitVec.ofNat 8 (w / 256), BitVec.ofNat 8 (w / 65536), BitVec.ofNat 8 (w / 16777216)] with
    | .ok (i, _) => some i
    | .error _ => none
  else none

end

/-! The encoder. -/

/-- A Zicsr word. -/
def encodeCsr (op : CsrOp) (rd : XReg) (csr : BitVec 12) (src : BitVec 5) : InstrWord :=
  packWord (csr.extractLsb' 8 4) (csr.extractLsb' 5 3) (csr.extractLsb' 0 5) src op.bits rd 0x73#7

/-- A word with a 12-bit immediate in [31:20]. -/
def encodeI (imm : BitVec 12) (rs1 : XReg) (k : BitVec 3) (rd : XReg) (major : BitVec 7) : InstrWord :=
  packWord (imm.extractLsb' 8 4) (imm.extractLsb' 5 3) (imm.extractLsb' 0 5) rs1 k rd major

/-- A word with a 12-bit immediate in [31:25] and [11:7]. -/
def encodeS (imm : BitVec 12) (rs2 rs1 : XReg) (k : BitVec 3) (major : BitVec 7) : InstrWord :=
  packWord (imm.extractLsb' 8 4) (imm.extractLsb' 5 3) rs2 rs1 k (imm.extractLsb' 0 5) major

/-- A word with a funct7. -/
def encodeR (f7 : BitVec 7) (rs2 rs1 : XReg) (k : BitVec 3) (rd : XReg) (major : BitVec 7) : InstrWord :=
  packWord (f7.extractLsb' 3 4) (f7.extractLsb' 0 3) rs2 rs1 k rd major

/-- A word with a funct5 in [31:27] and two more bits in [26:25]. -/
def encodeR5 (f5 : BitVec 5) (x : BitVec 2) (rs2 rs1 : XReg) (k : BitVec 3) (rd : XReg) (major : BitVec 7) : InstrWord :=
  packWord (f5.extractLsb' 1 4) (f5.extractLsb' 0 1 ++ x) rs2 rs1 k rd major

/-- The format field of F and D. -/
def fmtBits (dbl : Bool) : BitVec 2 := if dbl then 1#2 else 0#2

/-- The funct3 of a branch. -/
def BranchOp.bits : BranchOp → BitVec 3
  | .eq => 0#3 | .ne => 1#3 | .lt => 4#3 | .ge => 5#3 | .ltu => 6#3 | .geu => 7#3
/-- The funct3 of a load. -/
def LoadOp.bits : LoadOp → BitVec 3
  | .lb => 0#3 | .lh => 1#3 | .lw => 2#3 | .ld => 3#3 | .lbu => 4#3 | .lhu => 5#3 | .lwu => 6#3
/-- The funct3 of a store. -/
def StoreOp.bits : StoreOp → BitVec 3
  | .sb => 0#3 | .sh => 1#3 | .sw => 2#3 | .sd => 3#3
/-- The funct3 of an OP-IMM operation. -/
def ImmOp.bits : ImmOp → BitVec 3
  | .addi => 0#3 | .slti => 2#3 | .sltiu => 3#3 | .xori => 4#3 | .ori => 6#3 | .andi => 7#3

/-- The word of a base instruction. -/
def encodeRv : RvInstr → InstrWord
  | .lui rd i => packWord (i.extractLsb' 16 4) (i.extractLsb' 13 3) (i.extractLsb' 8 5) (i.extractLsb' 3 5)
      (i.extractLsb' 0 3) rd 0x37#7
  | .auipc rd i => packWord (i.extractLsb' 16 4) (i.extractLsb' 13 3) (i.extractLsb' 8 5) (i.extractLsb' 3 5)
      (i.extractLsb' 0 3) rd 0x17#7
  | .jal rd i => packWord (i.extractLsb' 19 1 ++ i.extractLsb' 7 3) (i.extractLsb' 4 3)
      (i.extractLsb' 0 4 ++ i.extractLsb' 10 1) (i.extractLsb' 14 5) (i.extractLsb' 11 3) rd 0x6F#7
  | .jalr rd rs1 i => encodeI i rs1 0#3 rd 0x67#7
  | .branch op rs1 rs2 i => packWord (i.extractLsb' 11 1 ++ i.extractLsb' 7 3) (i.extractLsb' 4 3) rs2 rs1 op.bits
      (i.extractLsb' 0 4 ++ i.extractLsb' 10 1) 0x63#7
  | .load op rd rs1 i => encodeI i rs1 op.bits rd 0x03#7
  | .store op rs1 rs2 i => encodeS i rs2 rs1 op.bits 0x23#7
  | .opImm op rd rs1 i => encodeI i rs1 op.bits rd 0x13#7
  | .addiw rd rs1 i => encodeI i rs1 0#3 rd 0x1B#7
  | .shiftImm .slli rd rs1 s => encodeI (0x00#6 ++ s) rs1 1#3 rd 0x13#7
  | .shiftImm .srli rd rs1 s => encodeI (0x00#6 ++ s) rs1 5#3 rd 0x13#7
  | .shiftImm .srai rd rs1 s => encodeI (0x10#6 ++ s) rs1 5#3 rd 0x13#7
  | .shiftImm .rori rd rs1 s => encodeI (0x18#6 ++ s) rs1 5#3 rd 0x13#7
  | .shiftImm .slliUw rd rs1 s => encodeI (0x02#6 ++ s) rs1 1#3 rd 0x1B#7
  | .shiftImmW .slliw rd rs1 s => encodeR 0x00#7 s rs1 1#3 rd 0x1B#7
  | .shiftImmW .srliw rd rs1 s => encodeR 0x00#7 s rs1 5#3 rd 0x1B#7
  | .shiftImmW .sraiw rd rs1 s => encodeR 0x20#7 s rs1 5#3 rd 0x1B#7
  | .shiftImmW .roriw rd rs1 s => encodeR 0x30#7 s rs1 5#3 rd 0x1B#7
  | .op op rd rs1 rs2 => encodeR op.bits.1 rs2 rs1 op.bits.2 rd 0x33#7
  | .opW op rd rs1 rs2 => encodeR op.bits.1 rs2 rs1 op.bits.2 rd 0x3B#7
  | .unary .clz rd rs1 => encodeI 0x600#12 rs1 1#3 rd 0x13#7
  | .unary .ctz rd rs1 => encodeI 0x601#12 rs1 1#3 rd 0x13#7
  | .unary .cpop rd rs1 => encodeI 0x602#12 rs1 1#3 rd 0x13#7
  | .unary .sextB rd rs1 => encodeI 0x604#12 rs1 1#3 rd 0x13#7
  | .unary .sextH rd rs1 => encodeI 0x605#12 rs1 1#3 rd 0x13#7
  | .unary .orcB rd rs1 => encodeI 0x287#12 rs1 5#3 rd 0x13#7
  | .unary .rev8 rd rs1 => encodeI 0x6B8#12 rs1 5#3 rd 0x13#7
  | .unary .clzw rd rs1 => encodeI 0x600#12 rs1 1#3 rd 0x1B#7
  | .unary .ctzw rd rs1 => encodeI 0x601#12 rs1 1#3 rd 0x1B#7
  | .unary .cpopw rd rs1 => encodeI 0x602#12 rs1 1#3 rd 0x1B#7
  | .unary .zextH rd rs1 => encodeR 4#7 0#5 rs1 4#3 rd 0x3B#7
  | .amo op dbl aq rl rd rs1 rs2 => encodeR5 op.bits (bit1 aq ++ bit1 rl) rs2 rs1 (if dbl then 3#3 else 2#3) rd 0x2F#7
  | .fload dbl rd rs1 i => encodeI i rs1 (if dbl then 3#3 else 2#3) rd 0x07#7
  | .fstore dbl rs1 rs2 i => encodeS i rs2 rs1 (if dbl then 3#3 else 2#3) 0x27#7
  | .farith .fadd dbl rm rd rs1 rs2 => encodeR5 0x00#5 (fmtBits dbl) rs2 rs1 rm.bits rd 0x53#7
  | .farith .fsub dbl rm rd rs1 rs2 => encodeR5 0x01#5 (fmtBits dbl) rs2 rs1 rm.bits rd 0x53#7
  | .farith .fmul dbl rm rd rs1 rs2 => encodeR5 0x02#5 (fmtBits dbl) rs2 rs1 rm.bits rd 0x53#7
  | .farith .fdiv dbl rm rd rs1 rs2 => encodeR5 0x03#5 (fmtBits dbl) rs2 rs1 rm.bits rd 0x53#7
  | .fsqrt dbl rm rd rs1 => encodeR5 0x0B#5 (fmtBits dbl) 0#5 rs1 rm.bits rd 0x53#7
  | .fma .fmadd dbl rm rd rs1 rs2 rs3 => encodeR5 rs3 (fmtBits dbl) rs2 rs1 rm.bits rd 0x43#7
  | .fma .fmsub dbl rm rd rs1 rs2 rs3 => encodeR5 rs3 (fmtBits dbl) rs2 rs1 rm.bits rd 0x47#7
  | .fma .fnmsub dbl rm rd rs1 rs2 rs3 => encodeR5 rs3 (fmtBits dbl) rs2 rs1 rm.bits rd 0x4B#7
  | .fma .fnmadd dbl rm rd rs1 rs2 rs3 => encodeR5 rs3 (fmtBits dbl) rs2 rs1 rm.bits rd 0x4F#7
  | .fpair .fsgnj dbl rd rs1 rs2 => encodeR5 0x04#5 (fmtBits dbl) rs2 rs1 0#3 rd 0x53#7
  | .fpair .fsgnjn dbl rd rs1 rs2 => encodeR5 0x04#5 (fmtBits dbl) rs2 rs1 1#3 rd 0x53#7
  | .fpair .fsgnjx dbl rd rs1 rs2 => encodeR5 0x04#5 (fmtBits dbl) rs2 rs1 2#3 rd 0x53#7
  | .fpair .fmin dbl rd rs1 rs2 => encodeR5 0x05#5 (fmtBits dbl) rs2 rs1 0#3 rd 0x53#7
  | .fpair .fmax dbl rd rs1 rs2 => encodeR5 0x05#5 (fmtBits dbl) rs2 rs1 1#3 rd 0x53#7
  | .fcmp .feq dbl rd rs1 rs2 => encodeR5 0x14#5 (fmtBits dbl) rs2 rs1 2#3 rd 0x53#7
  | .fcmp .flt dbl rd rs1 rs2 => encodeR5 0x14#5 (fmtBits dbl) rs2 rs1 1#3 rd 0x53#7
  | .fcmp .fle dbl rd rs1 rs2 => encodeR5 0x14#5 (fmtBits dbl) rs2 rs1 0#3 rd 0x53#7
  | .fclass dbl rd rs1 => encodeR5 0x1C#5 (fmtBits dbl) 0#5 rs1 1#3 rd 0x53#7
  | .fcvtToInt n dbl rm rd rs1 => encodeR5 0x18#5 (fmtBits dbl) n.bits rs1 rm.bits rd 0x53#7
  | .fcvtFromInt n dbl rm rd rs1 => encodeR5 0x1A#5 (fmtBits dbl) n.bits rs1 rm.bits rd 0x53#7
  | .fcvtSD rm rd rs1 => encodeR5 0x08#5 0#2 1#5 rs1 rm.bits rd 0x53#7
  | .fcvtDS rm rd rs1 => encodeR5 0x08#5 1#2 0#5 rs1 rm.bits rd 0x53#7
  | .fmvToX dbl rd rs1 => encodeR5 0x1C#5 (fmtBits dbl) 0#5 rs1 0#3 rd 0x53#7
  | .fmvFromX dbl rd rs1 => encodeR5 0x1E#5 (fmtBits dbl) 0#5 rs1 0#3 rd 0x53#7
  | .csrRead clear imm rd csr =>
      encodeCsr (match clear, imm with | false, false => .rs | true, false => .rc | false, true => .rsi | true, true => .rci)
        rd csr 0#5
  | .mret => packWord 3#4 0#3 2#5 0#5 0#3 0#5 0x73#7
  | .sret => packWord 1#4 0#3 2#5 0#5 0#3 0#5 0x73#7

/-- The word of a load-reserved or store-conditional form. -/
def encodeLrSc : LrScInstr → InstrWord
  | .lr dbl aq rl rd rs1 => encodeR5 0x02#5 (bit1 aq ++ bit1 rl) 0#5 rs1 (if dbl then 3#3 else 2#3) rd 0x2F#7
  | .sc dbl aq rl rd rs1 rs2 => encodeR5 0x03#5 (bit1 aq ++ bit1 rl) rs2 rs1 (if dbl then 3#3 else 2#3) rd 0x2F#7

/-- The word of an instruction; the events of the device have none, and an illegal word is itself. -/
def encode : Instr → Option InstrWord
  | .addVv m b a d => some (packWord 0#4 m b a 0#3 d 0x0B#7)
  | .addVx m b a d => some (packWord 0#4 m b a 1#3 d 0x0B#7)
  | .addVi m b a d => some (packWord 0#4 m b a 2#3 d 0x0B#7)
  | .addVq m b q d => some (packWord 0#4 m b (0#3 ++ q) 3#3 d 0x0B#7)
  | .addVn m b a d => some (packWord 0#4 m b a 4#3 d 0x0B#7)
  | .subVv m b a d => some (packWord 1#4 m b a 0#3 d 0x0B#7)
  | .subVx m b a d => some (packWord 1#4 m b a 1#3 d 0x0B#7)
  | .subVi m b a d => some (packWord 1#4 m b a 2#3 d 0x0B#7)
  | .subVq m b q d => some (packWord 1#4 m b (0#3 ++ q) 3#3 d 0x0B#7)
  | .subVn m b a d => some (packWord 1#4 m b a 4#3 d 0x0B#7)
  | .rsubVv m b a d => some (packWord 2#4 m b a 0#3 d 0x0B#7)
  | .rsubVx m b a d => some (packWord 2#4 m b a 1#3 d 0x0B#7)
  | .rsubVi m b a d => some (packWord 2#4 m b a 2#3 d 0x0B#7)
  | .rsubVq m b q d => some (packWord 2#4 m b (0#3 ++ q) 3#3 d 0x0B#7)
  | .rsubVn m b a d => some (packWord 2#4 m b a 4#3 d 0x0B#7)
  | .mulVv m b a d => some (packWord 3#4 m b a 0#3 d 0x0B#7)
  | .mulVx m b a d => some (packWord 3#4 m b a 1#3 d 0x0B#7)
  | .mulVi m b a d => some (packWord 3#4 m b a 2#3 d 0x0B#7)
  | .mulVq m b q d => some (packWord 3#4 m b (0#3 ++ q) 3#3 d 0x0B#7)
  | .mulVn m b a d => some (packWord 3#4 m b a 4#3 d 0x0B#7)
  | .mulhVv m b a d => some (packWord 4#4 m b a 0#3 d 0x0B#7)
  | .mulhVx m b a d => some (packWord 4#4 m b a 1#3 d 0x0B#7)
  | .mulhVi m b a d => some (packWord 4#4 m b a 2#3 d 0x0B#7)
  | .mulhVq m b q d => some (packWord 4#4 m b (0#3 ++ q) 3#3 d 0x0B#7)
  | .mulhVn m b a d => some (packWord 4#4 m b a 4#3 d 0x0B#7)
  | .minVv m b a d => some (packWord 5#4 m b a 0#3 d 0x0B#7)
  | .minVx m b a d => some (packWord 5#4 m b a 1#3 d 0x0B#7)
  | .minVi m b a d => some (packWord 5#4 m b a 2#3 d 0x0B#7)
  | .minVq m b q d => some (packWord 5#4 m b (0#3 ++ q) 3#3 d 0x0B#7)
  | .minVn m b a d => some (packWord 5#4 m b a 4#3 d 0x0B#7)
  | .maxVv m b a d => some (packWord 6#4 m b a 0#3 d 0x0B#7)
  | .maxVx m b a d => some (packWord 6#4 m b a 1#3 d 0x0B#7)
  | .maxVi m b a d => some (packWord 6#4 m b a 2#3 d 0x0B#7)
  | .maxVq m b q d => some (packWord 6#4 m b (0#3 ++ q) 3#3 d 0x0B#7)
  | .maxVn m b a d => some (packWord 6#4 m b a 4#3 d 0x0B#7)
  | .andVv m b a d => some (packWord 7#4 m b a 0#3 d 0x0B#7)
  | .andVx m b a d => some (packWord 7#4 m b a 1#3 d 0x0B#7)
  | .andVi m b a d => some (packWord 7#4 m b a 2#3 d 0x0B#7)
  | .andVq m b q d => some (packWord 7#4 m b (0#3 ++ q) 3#3 d 0x0B#7)
  | .andVn m b a d => some (packWord 7#4 m b a 4#3 d 0x0B#7)
  | .orVv m b a d => some (packWord 8#4 m b a 0#3 d 0x0B#7)
  | .orVx m b a d => some (packWord 8#4 m b a 1#3 d 0x0B#7)
  | .orVi m b a d => some (packWord 8#4 m b a 2#3 d 0x0B#7)
  | .orVq m b q d => some (packWord 8#4 m b (0#3 ++ q) 3#3 d 0x0B#7)
  | .orVn m b a d => some (packWord 8#4 m b a 4#3 d 0x0B#7)
  | .xorVv m b a d => some (packWord 9#4 m b a 0#3 d 0x0B#7)
  | .xorVx m b a d => some (packWord 9#4 m b a 1#3 d 0x0B#7)
  | .xorVi m b a d => some (packWord 9#4 m b a 2#3 d 0x0B#7)
  | .xorVq m b q d => some (packWord 9#4 m b (0#3 ++ q) 3#3 d 0x0B#7)
  | .xorVn m b a d => some (packWord 9#4 m b a 4#3 d 0x0B#7)
  | .sllVv m b a d => some (packWord 10#4 m b a 0#3 d 0x0B#7)
  | .sllVx m b a d => some (packWord 10#4 m b a 1#3 d 0x0B#7)
  | .sllVi m b a d => some (packWord 10#4 m b a 2#3 d 0x0B#7)
  | .sllVq m b q d => some (packWord 10#4 m b (0#3 ++ q) 3#3 d 0x0B#7)
  | .sllVn m b a d => some (packWord 10#4 m b a 4#3 d 0x0B#7)
  | .srlVv m b a d => some (packWord 11#4 m b a 0#3 d 0x0B#7)
  | .srlVx m b a d => some (packWord 11#4 m b a 1#3 d 0x0B#7)
  | .srlVi m b a d => some (packWord 11#4 m b a 2#3 d 0x0B#7)
  | .srlVq m b q d => some (packWord 11#4 m b (0#3 ++ q) 3#3 d 0x0B#7)
  | .srlVn m b a d => some (packWord 11#4 m b a 4#3 d 0x0B#7)
  | .sraVv m b a d => some (packWord 12#4 m b a 0#3 d 0x0B#7)
  | .sraVx m b a d => some (packWord 12#4 m b a 1#3 d 0x0B#7)
  | .sraVi m b a d => some (packWord 12#4 m b a 2#3 d 0x0B#7)
  | .sraVq m b q d => some (packWord 12#4 m b (0#3 ++ q) 3#3 d 0x0B#7)
  | .sraVn m b a d => some (packWord 12#4 m b a 4#3 d 0x0B#7)
  | .macVv m b a d => some (packWord 13#4 m b a 0#3 d 0x0B#7)
  | .macVx m b a d => some (packWord 13#4 m b a 1#3 d 0x0B#7)
  | .macVi m b a d => some (packWord 13#4 m b a 2#3 d 0x0B#7)
  | .macVq m b q d => some (packWord 13#4 m b (0#3 ++ q) 3#3 d 0x0B#7)
  | .macVn m b a d => some (packWord 13#4 m b a 4#3 d 0x0B#7)
  | .cmpVv m b a c e => some (packWord 14#4 m b a 0#3 (c.bits ++ e) 0x0B#7)
  | .cmpVx m b a c e => some (packWord 14#4 m b a 1#3 (c.bits ++ e) 0x0B#7)
  | .cmpVi m b a c e => some (packWord 14#4 m b a 2#3 (c.bits ++ e) 0x0B#7)
  | .cmpVq m b q c e => some (packWord 14#4 m b (0#3 ++ q) 3#3 (c.bits ++ e) 0x0B#7)
  | .cmpVn m b a c e => some (packWord 14#4 m b a 4#3 (c.bits ++ e) 0x0B#7)
  | .cmpzVv m b a c e => some (packWord 15#4 m b a 0#3 (c.bits ++ e) 0x0B#7)
  | .cmpzVx m b a c e => some (packWord 15#4 m b a 1#3 (c.bits ++ e) 0x0B#7)
  | .cmpzVi m b a c e => some (packWord 15#4 m b a 2#3 (c.bits ++ e) 0x0B#7)
  | .cmpzVq m b q c e => some (packWord 15#4 m b (0#3 ++ q) 3#3 (c.bits ++ e) 0x0B#7)
  | .cmpzVn m b a c e => some (packWord 15#4 m b a 4#3 (c.bits ++ e) 0x0B#7)
  | .minzXv m b a d => some (packWord 0#4 m b a 6#3 d 0x0B#7)
  | .minzXx m b a d => some (packWord 0#4 m b a 7#3 d 0x0B#7)
  | .maxzXv m b a d => some (packWord 1#4 m b a 6#3 d 0x0B#7)
  | .maxzXx m b a d => some (packWord 1#4 m b a 7#3 d 0x0B#7)
  | .mulhzXv m b a d => some (packWord 2#4 m b a 6#3 d 0x0B#7)
  | .mulhzXx m b a d => some (packWord 2#4 m b a 7#3 d 0x0B#7)
  | .divXv m b a d => some (packWord 3#4 m b a 6#3 d 0x0B#7)
  | .divXx m b a d => some (packWord 3#4 m b a 7#3 d 0x0B#7)
  | .divzXv m b a d => some (packWord 4#4 m b a 6#3 d 0x0B#7)
  | .divzXx m b a d => some (packWord 4#4 m b a 7#3 d 0x0B#7)
  | .remXv m b a d => some (packWord 5#4 m b a 6#3 d 0x0B#7)
  | .remXx m b a d => some (packWord 5#4 m b a 7#3 d 0x0B#7)
  | .remzXv m b a d => some (packWord 6#4 m b a 6#3 d 0x0B#7)
  | .remzXx m b a d => some (packWord 6#4 m b a 7#3 d 0x0B#7)
  | .saddXv m b a d => some (packWord 7#4 m b a 6#3 d 0x0B#7)
  | .saddXx m b a d => some (packWord 7#4 m b a 7#3 d 0x0B#7)
  | .ssubXv m b a d => some (packWord 8#4 m b a 6#3 d 0x0B#7)
  | .ssubXx m b a d => some (packWord 8#4 m b a 7#3 d 0x0B#7)
  | .waddXv m b a d => some (packWord 9#4 m b a 6#3 d 0x0B#7)
  | .waddXx m b a d => some (packWord 9#4 m b a 7#3 d 0x0B#7)
  | .wmulXv m b a d => some (packWord 10#4 m b a 6#3 d 0x0B#7)
  | .wmulXx m b a d => some (packWord 10#4 m b a 7#3 d 0x0B#7)
  | .sext m b f d => some (packWord 11#4 m b (0#3 ++ f.bits) 6#3 d 0x0B#7)
  | .zext m b f d => some (packWord 12#4 m b (0#3 ++ f.bits) 6#3 d 0x0B#7)
  | .narrow m b f d => some (packWord 13#4 m b (0#3 ++ f.bits) 6#3 d 0x0B#7)
  | .narrowz m b f d => some (packWord 13#4 m b (1#3 ++ f.bits) 6#3 d 0x0B#7)
  | .absdXv m b a d => some (packWord 14#4 m b a 6#3 d 0x0B#7)
  | .absdXx m b a d => some (packWord 14#4 m b a 7#3 d 0x0B#7)
  | .bitc m b o d => some (packWord 15#4 m b o.bits 6#3 d 0x0B#7)
  | .faddVv m b a d => some (packWord 0#4 m b a 0#3 d 0x2B#7)
  | .faddVx m b a d => some (packWord 0#4 m b a 1#3 d 0x2B#7)
  | .faddVq m b q d => some (packWord 0#4 m b (0#3 ++ q) 3#3 d 0x2B#7)
  | .faddVn m b a d => some (packWord 0#4 m b a 4#3 d 0x2B#7)
  | .fsubVv m b a d => some (packWord 1#4 m b a 0#3 d 0x2B#7)
  | .fsubVx m b a d => some (packWord 1#4 m b a 1#3 d 0x2B#7)
  | .fsubVq m b q d => some (packWord 1#4 m b (0#3 ++ q) 3#3 d 0x2B#7)
  | .fsubVn m b a d => some (packWord 1#4 m b a 4#3 d 0x2B#7)
  | .fmulVv m b a d => some (packWord 2#4 m b a 0#3 d 0x2B#7)
  | .fmulVx m b a d => some (packWord 2#4 m b a 1#3 d 0x2B#7)
  | .fmulVq m b q d => some (packWord 2#4 m b (0#3 ++ q) 3#3 d 0x2B#7)
  | .fmulVn m b a d => some (packWord 2#4 m b a 4#3 d 0x2B#7)
  | .fdivVv m b a d => some (packWord 3#4 m b a 0#3 d 0x2B#7)
  | .fdivVx m b a d => some (packWord 3#4 m b a 1#3 d 0x2B#7)
  | .fdivVq m b q d => some (packWord 3#4 m b (0#3 ++ q) 3#3 d 0x2B#7)
  | .fdivVn m b a d => some (packWord 3#4 m b a 4#3 d 0x2B#7)
  | .fminVv m b a d => some (packWord 4#4 m b a 0#3 d 0x2B#7)
  | .fminVx m b a d => some (packWord 4#4 m b a 1#3 d 0x2B#7)
  | .fminVq m b q d => some (packWord 4#4 m b (0#3 ++ q) 3#3 d 0x2B#7)
  | .fminVn m b a d => some (packWord 4#4 m b a 4#3 d 0x2B#7)
  | .fmaxVv m b a d => some (packWord 5#4 m b a 0#3 d 0x2B#7)
  | .fmaxVx m b a d => some (packWord 5#4 m b a 1#3 d 0x2B#7)
  | .fmaxVq m b q d => some (packWord 5#4 m b (0#3 ++ q) 3#3 d 0x2B#7)
  | .fmaxVn m b a d => some (packWord 5#4 m b a 4#3 d 0x2B#7)
  | .fmaddVv m b a d => some (packWord 6#4 m b a 0#3 d 0x2B#7)
  | .fmaddVx m b a d => some (packWord 6#4 m b a 1#3 d 0x2B#7)
  | .fmaddVq m b q d => some (packWord 6#4 m b (0#3 ++ q) 3#3 d 0x2B#7)
  | .fmaddVn m b a d => some (packWord 6#4 m b a 4#3 d 0x2B#7)
  | .fnmsubVv m b a d => some (packWord 7#4 m b a 0#3 d 0x2B#7)
  | .fnmsubVx m b a d => some (packWord 7#4 m b a 1#3 d 0x2B#7)
  | .fnmsubVq m b q d => some (packWord 7#4 m b (0#3 ++ q) 3#3 d 0x2B#7)
  | .fnmsubVn m b a d => some (packWord 7#4 m b a 4#3 d 0x2B#7)
  | .fcmpVv m b a c e => some (packWord 8#4 m b a 0#3 (c.bits ++ e) 0x2B#7)
  | .fcmpVx m b a c e => some (packWord 8#4 m b a 1#3 (c.bits ++ e) 0x2B#7)
  | .fcmpVq m b q c e => some (packWord 8#4 m b (0#3 ++ q) 3#3 (c.bits ++ e) 0x2B#7)
  | .fcmpVn m b a c e => some (packWord 8#4 m b a 4#3 (c.bits ++ e) 0x2B#7)
  | .fsqrt m b d => some (packWord 9#4 m b 0#5 0#3 d 0x2B#7)
  | .frec m b d => some (packWord 10#4 m b 0#5 0#3 d 0x2B#7)
  | .frsq m b d => some (packWord 11#4 m b 0#5 0#3 d 0x2B#7)
  | .fexp2 m b d => some (packWord 12#4 m b 0#5 0#3 d 0x2B#7)
  | .fcvt m b c d => some (packWord 13#4 m b c.bits 0#3 d 0x2B#7)
  | .fclass m b d => some (packWord 14#4 m b 0#5 0#3 d 0x2B#7)
  | .fround m b d => some (packWord 15#4 m b 0#5 0#3 d 0x2B#7)
  | .fsgnjXv m b a d => some (packWord 0#4 m b a 6#3 d 0x2B#7)
  | .fsgnjXx m b a d => some (packWord 0#4 m b a 7#3 d 0x2B#7)
  | .fsgnjnXv m b a d => some (packWord 1#4 m b a 6#3 d 0x2B#7)
  | .fsgnjnXx m b a d => some (packWord 1#4 m b a 7#3 d 0x2B#7)
  | .fsgnjxXv m b a d => some (packWord 2#4 m b a 6#3 d 0x2B#7)
  | .fsgnjxXx m b a d => some (packWord 2#4 m b a 7#3 d 0x2B#7)
  | .fwaddXv m b a d => some (packWord 3#4 m b a 6#3 d 0x2B#7)
  | .fwaddXx m b a d => some (packWord 3#4 m b a 7#3 d 0x2B#7)
  | .fwmulXv m b a d => some (packWord 4#4 m b a 6#3 d 0x2B#7)
  | .fwmulXx m b a d => some (packWord 4#4 m b a 7#3 d 0x2B#7)
  | .fwmacXv m b a d => some (packWord 5#4 m b a 6#3 d 0x2B#7)
  | .fwmacXx m b a d => some (packWord 5#4 m b a 7#3 d 0x2B#7)
  | .vquant m b a d => some (packWord 6#4 m b a 6#3 d 0x2B#7)
  | .vdequant m b a d => some (packWord 7#4 m b a 6#3 d 0x2B#7)
  | .vqef m b a d => some (packWord 8#4 m b a 6#3 d 0x2B#7)
  | .vbscale m b a d => some (packWord 9#4 m b a 6#3 d 0x2B#7)
  | .vouts m b a d => some (packWord 10#4 m b a 7#3 d 0x2B#7)
  | .mand b a d => some (packWord 0#4 0#3 (0#2 ++ b) (0#2 ++ a) 0#3 (0#2 ++ d) 0x5B#7)
  | .mor b a d => some (packWord 1#4 0#3 (0#2 ++ b) (0#2 ++ a) 0#3 (0#2 ++ d) 0x5B#7)
  | .mxor b a d => some (packWord 2#4 0#3 (0#2 ++ b) (0#2 ++ a) 0#3 (0#2 ++ d) 0x5B#7)
  | .mandn b a d => some (packWord 3#4 0#3 (0#2 ++ b) (0#2 ++ a) 0#3 (0#2 ++ d) 0x5B#7)
  | .mpop m b d => some (packWord 4#4 m (0#2 ++ b) 0#5 0#3 d 0x5B#7)
  | .mfirst m b d => some (packWord 5#4 m (0#2 ++ b) 0#5 0#3 d 0x5B#7)
  | .iota m b d => some (packWord 6#4 m (0#2 ++ b) 0#5 0#3 d 0x5B#7)
  | .vid m d => some (packWord 7#4 m 0#5 0#5 0#3 d 0x5B#7)
  | .slideupVx m b a d => some (packWord 8#4 m b a 1#3 d 0x5B#7)
  | .slideupVi m b a d => some (packWord 8#4 m b a 2#3 d 0x5B#7)
  | .slideupVn m b a d => some (packWord 8#4 m b a 4#3 d 0x5B#7)
  | .slidednVx m b a d => some (packWord 9#4 m b a 1#3 d 0x5B#7)
  | .slidednVi m b a d => some (packWord 9#4 m b a 2#3 d 0x5B#7)
  | .slidednVn m b a d => some (packWord 9#4 m b a 4#3 d 0x5B#7)
  | .vgatherVv m b a d => some (packWord 10#4 m b a 0#3 d 0x5B#7)
  | .vgatherVx m b a d => some (packWord 10#4 m b a 1#3 d 0x5B#7)
  | .vcompress m b d => some (packWord 11#4 m b 0#5 0#3 d 0x5B#7)
  | .vexpand m b d => some (packWord 12#4 m b 0#5 0#3 d 0x5B#7)
  | .vlut m b a d => some (packWord 13#4 m b a 0#3 d 0x5B#7)
  | .vunpack m b a d => some (packWord 14#4 m b a 1#3 d 0x5B#7)
  | .vpack m b a d => some (packWord 15#4 m b a 1#3 d 0x5B#7)
  | .redsum m b a d => some (packWord 0#4 m b a 6#3 d 0x5B#7)
  | .redmin m b a d => some (packWord 1#4 m b a 6#3 d 0x5B#7)
  | .redmax m b a d => some (packWord 2#4 m b a 6#3 d 0x5B#7)
  | .redminz m b a d => some (packWord 3#4 m b a 6#3 d 0x5B#7)
  | .redmaxz m b a d => some (packWord 4#4 m b a 6#3 d 0x5B#7)
  | .redand m b a d => some (packWord 5#4 m b a 6#3 d 0x5B#7)
  | .redor m b a d => some (packWord 6#4 m b a 6#3 d 0x5B#7)
  | .redxor m b a d => some (packWord 7#4 m b a 6#3 d 0x5B#7)
  | .fredo m b a d => some (packWord 8#4 m b a 6#3 d 0x5B#7)
  | .fredt m b a d => some (packWord 9#4 m b a 6#3 d 0x5B#7)
  | .fredmax m b a d => some (packWord 10#4 m b a 6#3 d 0x5B#7)
  | .fredmin m b a d => some (packWord 11#4 m b a 6#3 d 0x5B#7)
  | .mvxs b a d => some (packWord 12#4 0#3 b a 7#3 d 0x5B#7)
  | .mvsx a d => some (packWord 13#4 0#3 0#5 a 7#3 d 0x5B#7)
  | .vbcast a d => some (packWord 14#4 0#3 0#5 a 7#3 d 0x5B#7)
  | .vrev m b d => some (packWord 15#4 m b 0#5 6#3 d 0x5B#7)
  | .aaddVv b a d => some (packWord 0#4 0#3 b a 0#3 d 0x7B#7)
  | .aaddVx b a d => some (packWord 0#4 0#3 b a 1#3 d 0x7B#7)
  | .aaddVi b a d => some (packWord 0#4 0#3 b a 2#3 d 0x7B#7)
  | .asubVv b a d => some (packWord 1#4 0#3 b a 0#3 d 0x7B#7)
  | .asubVx b a d => some (packWord 1#4 0#3 b a 1#3 d 0x7B#7)
  | .asubVi b a d => some (packWord 1#4 0#3 b a 2#3 d 0x7B#7)
  | .adiffVx b a d => some (packWord 2#4 0#3 b a 1#3 d 0x7B#7)
  | .adiffVi b a d => some (packWord 2#4 0#3 b a 2#3 d 0x7B#7)
  | .amulVx b a d => some (packWord 3#4 0#3 b a 1#3 d 0x7B#7)
  | .amulVi b a d => some (packWord 3#4 0#3 b a 2#3 d 0x7B#7)
  | .ascaleVx b a d => some (packWord 4#4 0#3 b a 1#3 d 0x7B#7)
  | .ascaleVi b a d => some (packWord 4#4 0#3 b a 2#3 d 0x7B#7)
  | .aconv b c d => some (packWord 5#4 0#3 b c.bits 0#3 d 0x7B#7)
  | .afrom b c d => some (packWord 6#4 0#3 b c.bits 0#3 d 0x7B#7)
  | .areanchorVx b a d => some (packWord 7#4 0#3 b a 1#3 d 0x7B#7)
  | .areanchorVi b o d => some (packWord 7#4 0#3 b (0#3 ++ o) 2#3 d 0x7B#7)
  | .ared b d => some (packWord 8#4 0#3 b 0#5 0#3 d 0x7B#7)
  | .aget b d => some (packWord 9#4 0#3 b 0#5 0#3 d 0x7B#7)
  | .aput b d => some (packWord 10#4 0#3 b 0#5 0#3 d 0x7B#7)
  | .aqset b d => some (packWord 11#4 0#3 b 0#5 0#3 d 0x7B#7)
  | .mzero t => some (packWord 12#4 0#3 0#5 0#5 0#3 (0#3 ++ t) 0x7B#7)
  | .mpa b a t => some (packWord 13#4 0#3 b a 0#3 (0#3 ++ t) 0x7B#7)
  | .mmvTv b a t => some (packWord 14#4 0#3 b a 1#3 (0#3 ++ t) 0x7B#7)
  | .mmvVt b a t => some (packWord 14#4 0#3 b a 1#3 (4#3 ++ t) 0x7B#7)
  | .mscale b a => some (packWord 15#4 0#3 b a 0#3 0#5 0x7B#7)
  | .mpaI b a t => some (packWord 0#4 0#3 b a 6#3 (0#3 ++ t) 0x7B#7)
  | .mpaH b a t => some (packWord 1#4 0#3 b a 6#3 (0#3 ++ t) 0x7B#7)
  | .mlra b a t => some (packWord 2#4 0#3 b a 6#3 (0#3 ++ t) 0x7B#7)
  | .mcvt t a d => some (packWord 3#4 0#3 (0#3 ++ t) a 7#3 d 0x7B#7)
  | .acmp b a c e => some (packWord 4#4 0#3 b a 6#3 (c.bits ++ e) 0x7B#7)
  | .vld m a d => some (packWord 0#4 m 0#5 a 0#3 d 0x57#7)
  | .vldS m b a d => some (packWord 0#4 m b a 1#3 d 0x57#7)
  | .vldX m b a d => some (packWord 0#4 m b a 2#3 d 0x57#7)
  | .vldB m b a d => some (packWord 0#4 m b a 3#3 d 0x57#7)
  | .vldW m a d => some (packWord 0#4 m 0#5 a 5#3 d 0x57#7)
  | .vst m a s => some (packWord 1#4 m 0#5 a 0#3 s 0x57#7)
  | .vstS m b a s => some (packWord 1#4 m b a 1#3 s 0x57#7)
  | .vstX m b a s => some (packWord 1#4 m b a 2#3 s 0x57#7)
  | .vstB m b a s => some (packWord 1#4 m b a 3#3 s 0x57#7)
  | .vldQ m a q => some (packWord 2#4 m 0#5 a 0#3 (0#3 ++ q) 0x57#7)
  | .vldQS m b a q => some (packWord 2#4 m b a 1#3 (0#3 ++ q) 0x57#7)
  | .vldQX m b a q => some (packWord 2#4 m b a 2#3 (0#3 ++ q) 0x57#7)
  | .vldoS m b a d => some (packWord 3#4 m b a 1#3 d 0x57#7)
  | .vldoX m b a d => some (packWord 3#4 m b a 2#3 d 0x57#7)
  | .vstoS m b a s => some (packWord 4#4 m b a 1#3 s 0x57#7)
  | .vstoX m b a s => some (packWord 4#4 m b a 2#3 s 0x57#7)
  | .vamo m b a o d => some (packWord 5#4 m b a o.bits d 0x57#7)
  | .vupdO m b a o s => some (packWord 6#4 m b a o.bits s 0x57#7)
  | .vpf m a => some (packWord 7#4 m 0#5 a 0#3 0#5 0x57#7)
  | .vpfS m b a => some (packWord 7#4 m b a 1#3 0#5 0x57#7)
  | .vpfX m b a => some (packWord 7#4 m b a 2#3 0#5 0x57#7)
  | .ald b a d => some (packWord 8#4 0#3 b a 0#3 d 0x57#7)
  | .aldC b a d => some (packWord 9#4 0#3 b a 0#3 d 0x57#7)
  | .ast b a s => some (packWord 10#4 0#3 b a 0#3 s 0x57#7)
  | .mld b a t => some (packWord 11#4 0#3 b a 0#3 (0#3 ++ t) 0x57#7)
  | .mst b a t => some (packWord 12#4 0#3 b a 0#3 (0#3 ++ t) 0x57#7)
  | .vcpy b a p z => some (packWord 13#4 0#3 b a 0#3 (0#3 ++ p ++ z) 0x57#7)
  | .vfill b a => some (packWord 14#4 0#3 b a 0#3 0#5 0x57#7)
  | .nm b a k => some (packWord 15#4 0#3 b a 0#3 k 0x57#7)
  | .setl v a d => some (packWord (0#2 ++ v.extractLsb' 8 2) (v.extractLsb' 5 3) (v.extractLsb' 0 5) a 0#3 d 0x77#7)
  | .setlR b a d => some (packWord 0#4 0#3 b a 1#3 d 0x77#7)
  | .fenceSv s => some (packWord 0#4 s.bits 0#5 0#5 2#3 0#5 0x77#7)
  | .fenceVs s => some (packWord 1#4 s.bits 0#5 0#5 2#3 0#5 0x77#7)
  | .fenceVv s => some (packWord 2#4 s.bits 0#5 0#5 2#3 0#5 0x77#7)
  | .fenceNm s => some (packWord 3#4 s.bits 0#5 0#5 2#3 0#5 0x77#7)
  | .fenceAlias s => some (packWord 4#4 s.bits 0#5 0#5 2#3 0#5 0x77#7)
  | .fenceRel s => some (packWord 5#4 s.bits 0#5 0#5 2#3 0#5 0x77#7)
  | .fenceAcq s => some (packWord 6#4 s.bits 0#5 0#5 2#3 0#5 0x77#7)
  | .fenceAr s => some (packWord 7#4 s.bits 0#5 0#5 2#3 0#5 0x77#7)
  | .drain q => some (packWord 8#4 (0#2 ++ q.extractLsb' 5 1) (q.extractLsb' 0 5) 0#5 2#3 0#5 0x77#7)
  | .barArrive a => some (packWord 0#4 0#3 0#5 a 3#3 0#5 0x77#7)
  | .barWait a => some (packWord 1#4 0#3 0#5 a 3#3 0#5 0x77#7)
  | .barSync a => some (packWord 2#4 0#3 0#5 a 3#3 0#5 0x77#7)
  | .barInit b a => some (packWord 3#4 0#3 b a 3#3 0#5 0x77#7)
  | .waitMem b a d => some (packWord 4#4 0#3 b a 3#3 d 0x77#7)
  | .waitTime a => some (packWord 5#4 0#3 0#5 a 3#3 0#5 0x77#7)
  | .yield => some (packWord 6#4 0#3 0#5 0#5 3#3 0#5 0x77#7)
  | .halt => some (packWord 7#4 0#3 0#5 0#5 3#3 0#5 0x77#7)
  | .qpush b a => some (packWord 0#4 0#3 b a 4#3 0#5 0x77#7)
  | .qpop a d => some (packWord 1#4 0#3 0#5 a 4#3 d 0x77#7)
  | .qpopT a d => some (packWord 1#4 1#3 0#5 a 4#3 d 0x77#7)
  | .qany m => some (packWord 2#4 m 0#5 0#5 4#3 0#5 0x77#7)
  | .qall m => some (packWord 3#4 m 0#5 0#5 4#3 0#5 0x77#7)
  | .launch b a d => some (packWord 4#4 0#3 b a 4#3 d 0x77#7)
  | .qlen a d => some (packWord 5#4 0#3 0#5 a 4#3 d 0x77#7)
  | .vsave a => some (packWord 0#4 0#3 0#5 a 5#3 0#5 0x77#7)
  | .vrest a => some (packWord 1#4 0#3 0#5 a 5#3 0#5 0x77#7)
  | .vret => some (packWord 2#4 0#3 0#5 0#5 5#3 0#5 0x77#7)
  | .aret => some (packWord 3#4 0#3 0#5 0#5 5#3 0#5 0x77#7)
  | .reclaim b a => some (packWord 4#4 0#3 b a 5#3 0#5 0x77#7)
  | .vprobe b a d => some (packWord 5#4 0#3 b a 5#3 d 0x77#7)
  | .kend => some (packWord 6#4 0#3 0#5 0#5 5#3 0#5 0x77#7)
  | .scalarBaseInstruction i => some (encodeRv i)
  | .fence fm pred succ rs1 rd => some (packWord fm (pred.extractLsb' 1 3) (pred.extractLsb' 0 1 ++ succ) rs1 0#3 rd 0x0F#7)
  | .fenceI imm rs1 rd => some (packWord (imm.extractLsb' 8 4) (imm.extractLsb' 5 3) (imm.extractLsb' 0 5) rs1 1#3 rd 0x0F#7)
  | .sfenceVma rs1 rs2 => some (packWord 1#4 1#3 rs2 rs1 0#3 0#5 0x73#7)
  | .wfi => some (packWord 1#4 0#3 5#5 0#5 0#3 0#5 0x73#7)
  | .ecall => some (packWord 0#4 0#3 0#5 0#5 0#3 0#5 0x73#7)
  | .ebreak => some (packWord 0#4 0#3 1#5 0#5 0#3 0#5 0x73#7)
  | .lrSc i => some (encodeLrSc i)
  | .grantWindow _ => none
  | .revokeWindow _ => none
  | .assignGranules _ _ _ _ => none
  | .releaseGranules _ _ _ => none
  | .setQueueOwner _ _ _ => none
  | .illegalInstruction word => some word
  | .viqAdmission _ => none
  | .viqHeadAged _ => none
  | .microOpIssue _ => none
  | .vectorInstructionComplete _ => none
  | .pinEntriesFree _ => none
  | .storePerformed _ => none
  | .arrivalPointerAdvance _ _ _ => none
  | .aldCAttempt _ => none
  | .lineLockRelease _ => none
  | .nmLineApply _ _ => none
  | .nmCompletionRecord _ => none
  | .cxlRequestIssue _ => none
  | .rowActivation _ _ => none
  | .callGraphPrefetch _ => none
  | .sequentialPrefetch _ => none
  | .vectorTrap _ => none
  | .userAnchorDelivery _ => none
  | .interrupt _ => none
  | .hartFatalError _ => none
  | .supervisorTerminate _ => none
  | .launchCheck _ => none
  | .queueHeadAging _ => none
  | .gangPlacement _ => none
  | .reclaimTakesEffect _ => none
  | .reclaimAbandon _ => none
  | .fullContextSwitch _ => none
  | .timeSliceExpiry _ => none
  | .gangRestore _ => none
  | .gangRetire _ => none
  | .launchComplete _ => none
  | .heldSuccessorEntersQueue _ => none
  | .lqRecordEntersQueue _ => none
  | .barrierPhaseComplete _ _ => none
  | .pigeonholeValueArrives _ => none
  | .waitMemReread _ => none
  | .waitTimeDeadline _ => none
  | .pwrgrantWrite op rd src => some (encodeCsr op rd 0x7C0#12 src)
  | .chainpermWrite op rd src => some (encodeCsr op rd 0x7C1#12 src)
  | .busyctlWrite op rd src => some (encodeCsr op rd 0x7C2#12 src)
  | .vdeskWrite op rd src => some (encodeCsr op rd 0x5C4#12 src)
  | .satpWrite op rd src => some (encodeCsr op rd 0x180#12 src)
  | .mhpmcounterWrite op rd n src => some (encodeCsr op rd (0xB03#12 + n.setWidth 12) src)
  | .mhpmeventWrite op rd n src => some (encodeCsr op rd (0x323#12 + n.setWidth 12) src)
  | .csrWrite op rd csr src => some (encodeCsr op rd csr src)
  | .lqctlWrite _ _ => none
  | .lqDoorbell _ _ => none
  | .launchFrameReceive _ => none
  | .pcieInboundRequest _ => none
  | .shofinRemoteRequest _ _ _ => none
  | .routeDownTimeout _ => none
  | .timestampExchange _ => none
  | .timebaseTick => none
  | .stringWindow _ _ => none
  | .stringStepUp _ => none
  | .powerManagerPeriod _ => none
  | .lanePowerGate _ _ => none
  | .laneWake _ _ => none
  | .uncorrectableError _ _ => none
  | .correctableError _ _ => none
  | .l1dParityError _ _ => none
  | .layerMapOut _ _ _ => none
  | .mapOutVacated _ => none
  | .mapOutLineMove _ => none
  | .coldReset _ => none
  | .warmReset => none
  | .memready => none
  | .attestationRequest _ _ => none
  | .reportCardWrite => none
  | .fatalDump _ => none
  | .shofinRouteLost _ => none
  | .shofinRouteRetrained _ _ => none
  | .phyTrainingComplete _ _ => none
  | .systemCoreMemoryAccess _ _ => none

/-- The instruction word of an instruction that has one, 0 for an event. -/
def Instr.word (i : Instr) : InstrWord := (encode i).getD 0#32

end Sys2Proof
end

