-- ==== Sys2Proof/Machine/Bits.lean ====
section
/-! DEFINITION. Bit fields, sign and byte order on natural numbers (R1, R2, R5). -/

namespace Sys2Proof.Machine

/-- The field of `w` bits of `x` that begins at bit `lo` (R2). -/
def getBits (x lo w : Nat) : Nat := (x >>> lo) % 2 ^ w

/-- `x` with the field of `w` bits at `lo` replaced by the low `w` bits of `v`. -/
def setBits (x lo w v : Nat) : Nat := x ^^^ ((getBits x lo w ^^^ (v % 2 ^ w)) <<< lo)

/-- `x` with only the bits of `mask` at `lo` replaced, for a field of `w` bits. -/
def setBitsMasked (x lo w mask v : Nat) : Nat :=
  setBits x lo w ((getBits x lo w &&& (mask ^^^ (2 ^ w - 1))) ||| (v &&& mask))

/-- Bit `i` of `x`. -/
def getBit (x i : Nat) : Bool := x.testBit i

/-- `x` with bit `i` set to `b`. -/
def setBit (x i : Nat) (b : Bool) : Nat := setBits x i 1 (if b then 1 else 0)

/-- The two's-complement value of a `w`-bit code (R5). -/
def toSigned (w x : Nat) : Int := if x % 2 ^ w < 2 ^ (w - 1) then (x % 2 ^ w : Nat) else (x % 2 ^ w : Nat) - 2 ^ w

/-- The `w`-bit code of an integer: assignment to a field of width `w` (R5). -/
def ofSigned (w : Nat) (i : Int) : Nat := (i % (2 ^ w : Nat)).toNat

/-- `i` clamped to `[lo, hi]`. -/
def clampInt (lo hi i : Int) : Int := if i < lo then lo else if hi < i then hi else i

/-- `sat_s(w, i)` (R6). -/
def satSigned (w : Nat) (i : Int) : Int := clampInt (-(2 ^ (w - 1) : Nat)) ((2 ^ (w - 1) : Nat) - 1) i

/-- A byte's value. -/
def byteOf (x : Nat) : Byte := BitVec.ofNat 8 x

/-- The `n` bytes of `x`, lowest first (R1). -/
def toBytes : Nat → Nat → List Byte
  | 0, _ => []
  | n + 1, x => byteOf x :: toBytes n (x / 256)

/-- The number whose bytes are listed lowest first (R1). -/
def ofBytes : List Byte → Nat
  | [] => 0
  | b :: bs => b.toNat + 256 * ofBytes bs

/-- The bytes of a 64-bit word, lowest first. -/
def wordBytes (x : Word) : List Byte := toBytes 8 x.toNat

/-- The 64-bit word of some bytes, lowest first. -/
def wordOfBytes (bs : List Byte) : Word := BitVec.ofNat 64 (ofBytes bs)

/-- Bits needed to write `x`: 0 for 0, otherwise floor(log2 x) + 1. -/
def bitLen (x : Nat) : Nat := if x = 0 then 0 else Nat.log2 x + 1

/-- The number of one bits of `x` among its low `n` bits. -/
def popCount : Nat → Nat → Nat
  | 0, _ => 0
  | n + 1, x => x % 2 + popCount n (x / 2)

/-- The number of zero bits at the bottom of `x`, `n` when its low `n` bits are 0. -/
def trailingZeros : Nat → Nat → Nat
  | 0, _ => 0
  | n + 1, x => if x % 2 = 1 then 0 else 1 + trailingZeros n (x / 2)

/-- The least multiple of `k` not below `x`. -/
def ceilDiv (x k : Nat) : Nat := (x + k - 1) / k

/-- The smallest power of two not below `x`, by `n` doublings from 1. -/
def pow2AtLeast : Nat → Nat → Nat
  | 0, _ => 1
  | n + 1, x => if x ≤ 1 then 1 else 2 * pow2AtLeast n ((x + 1) / 2)

/-- Integer square root of `x`, from its bits `k − 1` down: the largest `r` with `r * r ≤ x`. -/
def isqrtAux : Nat → Nat → Nat → Nat
  | 0, _, r => r
  | k + 1, x, r =>
    let r' := r + 2 ^ k
    if r' * r' ≤ x then isqrtAux k x r' else isqrtAux k x r

/-- Integer square root. -/
def isqrt (x : Nat) : Nat := isqrtAux (bitLen x / 2 + 1) x 0

/-- RNE of a fraction `n / d` with `d` positive (R6). -/
def rneDiv (n : Int) (d : Nat) : Int :=
  let q := n / (d : Int)
  let r := n % (d : Int)
  if 2 * r < d then q else if (d : Int) < 2 * r then q + 1 else if q % 2 = 0 then q else q + 1

end Sys2Proof.Machine
end

