-- ==== Sys2Proof/Machine/FloatFmt.lean ====
section
/-! DEFINITION. The floating-point formats, conversion into them and arithmetic on exact values (03_numbers R53 to R62, R80;
IEEE 754-2019 where the spec names it). -/

namespace Sys2Proof.Machine

/-- Sticky flags as the bits of `vflags` [4:0], which are also those of `fcsr` (R84). -/
def flagNX : Nat := 1
/-- Underflow (R84). -/
def flagUF : Nat := 2
/-- Overflow (R84). -/
def flagOF : Nat := 4
/-- Division by zero (R84). -/
def flagDZ : Nat := 8
/-- Invalid operation (R84). -/
def flagNV : Nat := 16
/-- A saturated block or outlier value (R84). -/
def flagBSAT : Nat := 32
/-- A zero block (R84). -/
def flagBZERO : Nat := 64
/-- A clipped outlier (R84). -/
def flagOUTOVF : Nat := 128
/-- A deviation-overflow trap (R84). -/
def flagDEVOVF : Nat := 256

/-- The rounding modes of R80 and of the base. -/
inductive Rnd where
  | rne | rtz | rdn | rup | rmm
deriving DecidableEq, Repr

/-- Which special codes a format has: infinities and NaNs, two NaN codes and no infinity, or neither (R55). -/
inductive Specials where
  | ieee | e4m3 | none
deriving DecidableEq, Repr

/-- A format's fields: exponent bits, mantissa bits, bias (R53). -/
structure FSpec where
  eb : Nat
  mb : Nat
  bias : Nat
  specials : Specials
deriving DecidableEq, Repr

/-- The fields of each format (R53). -/
def fmtSpec : FFmt → FSpec
  | .fp4 => ⟨2, 1, 1, .none⟩
  | .e2m3 => ⟨2, 3, 1, .none⟩
  | .e3m2 => ⟨3, 2, 3, .none⟩
  | .e4m3 => ⟨4, 3, 7, .e4m3⟩
  | .e5m2 => ⟨5, 2, 15, .ieee⟩
  | .fp16 => ⟨5, 10, 15, .ieee⟩
  | .bf16 => ⟨8, 7, 127, .ieee⟩
  | .fp32 => ⟨8, 23, 127, .ieee⟩
  | .fp64 => ⟨11, 52, 1023, .ieee⟩

/-- The number of bits of a format (R53). -/
def fmtBitsOf (f : FFmt) : Nat := 1 + (fmtSpec f).eb + (fmtSpec f).mb

/-- The magnitude code of the largest finite value (R55). -/
def maxFiniteCode (f : FFmt) : Nat :=
  let s := fmtSpec f
  match s.specials with
  | .ieee => (2 ^ s.eb - 1) * 2 ^ s.mb - 1
  | .e4m3 => 0x7E
  | .none => 2 ^ (s.eb + s.mb) - 1

/-- The magnitude code of infinity, in the formats that have one (R55). -/
def infCode (f : FFmt) : Nat := (2 ^ (fmtSpec f).eb - 1) * 2 ^ (fmtSpec f).mb

/-- The canonical NaN of R57; 0 in a format without NaN. -/
def canonicalNan (f : FFmt) : Nat :=
  let s := fmtSpec f
  match s.specials with
  | .ieee => infCode f + 2 ^ (s.mb - 1)
  | .e4m3 => 0x7F
  | .none => 0

/-- The sign bit of a format in place. -/
def signCode (f : FFmt) (neg : Bool) : Nat := if neg then 2 ^ (fmtBitsOf f - 1) else 0

/-- The value of a code: a finite value `(-1)^neg * m * 2^e` exactly, an infinity, or a NaN (R55). -/
inductive FVal where
  | fin (neg : Bool) (m : Nat) (e : Int)
  | inf (neg : Bool)
  | nan (signalling : Bool)
deriving DecidableEq, Repr

/-- The value a code has in a format (R55). -/
def decodeFloat (f : FFmt) (code : Nat) : FVal :=
  let s := fmtSpec f
  let neg := code.testBit (fmtBitsOf f - 1)
  let e := getBits code s.mb s.eb
  let m := getBits code 0 s.mb
  let fin : FVal :=
    if e = 0 then .fin neg m (1 - (s.bias : Int) - s.mb)
    else .fin neg (2 ^ s.mb + m) ((e : Int) - s.bias - s.mb)
  match s.specials with
  | .ieee =>
    if e = 2 ^ s.eb - 1 then
      if m = 0 then .inf neg else .nan (!(m.testBit (s.mb - 1)))
    else fin
  | .e4m3 => if e = 15 ∧ m = 7 then .nan false else fin
  | .none => fin

/-- Whether a value is a NaN. -/
def FVal.isNan : FVal → Bool
  | .nan _ => true
  | _ => false

/-- Whether a value is a signalling NaN. -/
def FVal.isSignalling : FVal → Bool
  | .nan s => s
  | _ => false

/-- Whether a value is a zero. -/
def FVal.isZero : FVal → Bool
  | .fin _ m _ => m == 0
  | _ => false

/-- The sign of a value, false for a NaN. -/
def FVal.neg : FVal → Bool
  | .fin n _ _ => n
  | .inf n => n
  | .nan _ => false

/-- The value negated. -/
def FVal.negate : FVal → FVal
  | .fin n m e => .fin (!n) m e
  | .inf n => .inf (!n)
  | .nan s => .nan s

/-- An integer as a value. -/
def FVal.ofInt (i : Int) : FVal := .fin (i < 0) i.natAbs 0

/-- `m * 2^e` (with `sticky` for something more below it) to an integer count of `2^q` in a rounding mode, and whether the
rounding is inexact (R60, R80). -/
def roundTo (rm : Rnd) (neg : Bool) (m : Nat) (e q : Int) (sticky : Bool) : Nat × Bool :=
  if q ≤ e then (m * 2 ^ (e - q).toNat, sticky)
  else
    let s := (q - e).toNat
    let n := m >>> s
    let rem := m % 2 ^ s
    let half := 2 ^ (s - 1)
    let inexact := rem ≠ 0 || sticky
    let above := half < rem || (rem == half && sticky)
    let tie := rem == half && !sticky
    let up :=
      match rm with
      | .rne => above || (tie && n % 2 == 1)
      | .rmm => above || tie
      | .rtz => false
      | .rdn => neg && inexact
      | .rup => !neg && inexact
    (if up then n + 1 else n, inexact)

/-- What a conversion does where the rounded magnitude exceeds the largest finite value (R61): `ieee` follows the
standard and sets OF and NX, `quant` saturates without OF. -/
inductive Overflow where
  | ieee | quant
deriving DecidableEq, Repr

/-- The magnitude an IEEE overflow delivers in a rounding mode. -/
def overflowCode (f : FFmt) (rm : Rnd) (neg : Bool) : Nat :=
  match (fmtSpec f).specials with
  | .ieee =>
    match rm with
    | .rne | .rmm => infCode f
    | .rtz => maxFiniteCode f
    | .rdn => if neg then infCode f else maxFiniteCode f
    | .rup => if neg then maxFiniteCode f else infCode f
  | _ => maxFiniteCode f

/-- The code and flags of the finite value `(-1)^neg * m * 2^e` (with `sticky`), rounded once into a format (R60, R61).
The last component says whether the magnitude saturated or overflowed. -/
def roundFinite (f : FFmt) (rm : Rnd) (ov : Overflow) (neg : Bool) (m : Nat) (e : Int) (sticky : Bool) :
    Nat × Nat × Bool :=
  let s := fmtSpec f
  if m = 0 ∧ sticky = false then (signCode f neg, 0, false)
  else
    let emin : Int := 1 - (s.bias : Int)
    let lead : Int := (bitLen m : Int) - 1 + e
    let qmin : Int := emin - s.mb
    let q : Int := if lead - s.mb < qmin then qmin else lead - s.mb
    let (n0, inexact) := roundTo rm neg m e q sticky
    let (n, q') := if n0 = 2 ^ (s.mb + 1) then (2 ^ s.mb, q + 1) else (n0, q)
    let mag := if n < 2 ^ s.mb then n else (q' + s.mb + s.bias).toNat * 2 ^ s.mb + (n - 2 ^ s.mb)
    if maxFiniteCode f < mag then
      match ov with
      | .ieee => (signCode f neg + overflowCode f rm neg, flagOF ||| flagNX, true)
      | .quant => (signCode f neg + maxFiniteCode f, flagNX, true)
    else
      let tiny := lead < emin &&
        !(lead == emin - 1 && (roundTo rm neg m e (lead - s.mb) sticky).1 == 2 ^ (s.mb + 1))
      (signCode f neg + mag, (if inexact then flagNX else 0) ||| (if tiny && inexact then flagUF else 0), false)

/-- A value into a format as `fcvt` converts (R60 to R62). -/
def toFormat (f : FFmt) (rm : Rnd) (v : FVal) : Nat × Nat :=
  match v with
  | .fin neg m e => let r := roundFinite f rm .ieee neg m e false; (r.1, r.2.1)
  | .inf neg =>
    match (fmtSpec f).specials with
    | .ieee => (signCode f neg + infCode f, 0)
    | _ => (signCode f neg + maxFiniteCode f, flagNV)
  | .nan sig =>
    match (fmtSpec f).specials with
    | .none => (0, flagNV)
    | _ => (canonicalNan f, if sig then flagNV else 0)

/-! Exact sums and products. -/

/-- The exact sum of two finite values as a signed count of `2^e`. -/
def exactSum (n1 : Bool) (m1 : Nat) (e1 : Int) (n2 : Bool) (m2 : Nat) (e2 : Int) : Int × Int :=
  let e := if e1 ≤ e2 then e1 else e2
  let a : Int := (m1 * 2 ^ (e1 - e).toNat : Nat)
  let b : Int := (m2 * 2 ^ (e2 - e).toNat : Nat)
  ((if n1 then -a else a) + (if n2 then -b else b), e)

/-- The sign of an exact zero sum: that of both operands where they agree, negative only toward minus infinity. -/
def zeroSumSign (rm : Rnd) (n1 n2 : Bool) : Bool :=
  if n1 = n2 then n1 else match rm with | .rdn => true | _ => false

/-- An exact sum rounded into a format. -/
def roundSum (f : FFmt) (rm : Rnd) (n1 n2 : Bool) (s e : Int) : Nat × Nat :=
  if s = 0 then (signCode f (zeroSumSign rm n1 n2), 0)
  else let r := roundFinite f rm .ieee (s < 0) s.natAbs e false; (r.1, r.2.1)

/-- The flags a NaN operand sets: NV for a signalling one (R57). -/
def nanFlags (a b : FVal) : Nat := if a.isSignalling || b.isSignalling then flagNV else 0

/-- round(a + b) (R214). -/
def fAdd (f : FFmt) (rm : Rnd) (a b : FVal) : Nat × Nat :=
  match a, b with
  | .nan _, _ => (canonicalNan f, nanFlags a b)
  | _, .nan _ => (canonicalNan f, nanFlags a b)
  | .inf x, .inf y => if x = y then (signCode f x + infCode f, 0) else (canonicalNan f, flagNV)
  | .inf x, _ => (signCode f x + infCode f, 0)
  | _, .inf y => (signCode f y + infCode f, 0)
  | .fin n1 m1 e1, .fin n2 m2 e2 =>
    let (s, e) := exactSum n1 m1 e1 n2 m2 e2
    roundSum f rm n1 n2 s e

/-- The exact product of two values; 0 times infinity is a signalling NaN, so that it sets NV. -/
def fMulExact (a b : FVal) : FVal :=
  match a, b with
  | .nan s, y => .nan (s || y.isSignalling)
  | x, .nan s => .nan (s || x.isSignalling)
  | .inf x, .inf y => .inf (x != y)
  | .inf x, .fin n m _ => if m = 0 then .nan true else .inf (x != n)
  | .fin n m _, .inf y => if m = 0 then .nan true else .inf (n != y)
  | .fin n1 m1 e1, .fin n2 m2 e2 => .fin (n1 != n2) (m1 * m2) (e1 + e2)

/-- round(a * b) (R214). -/
def fMul (f : FFmt) (rm : Rnd) (a b : FVal) : Nat × Nat := toFormat f rm (fMulExact a b)

/-- round(a * b + c), one rounding; 0 times infinity sets NV even with a quiet NaN addend (R214). -/
def fMulAdd (f : FFmt) (rm : Rnd) (a b c : FVal) : Nat × Nat := fAdd f rm (fMulExact a b) c

/-- The quotient of two counts with a sticky bit: at least `k` more bits than needed. -/
def quotSticky (m1 m2 k : Nat) : Nat × Bool × Nat :=
  let s := bitLen m2 + k
  let n := m1 * 2 ^ s
  (n / m2, n % m2 != 0, s)

/-- round(a / b); DZ for a finite non-zero a over zero (R214). -/
def fDiv (f : FFmt) (rm : Rnd) (a b : FVal) : Nat × Nat :=
  match a, b with
  | .nan _, _ => (canonicalNan f, nanFlags a b)
  | _, .nan _ => (canonicalNan f, nanFlags a b)
  | .inf _, .inf _ => (canonicalNan f, flagNV)
  | .inf x, .fin n _ _ => (signCode f (x != n) + infCode f, 0)
  | .fin n _ _, .inf y => (signCode f (n != y), 0)
  | .fin n1 m1 e1, .fin n2 m2 e2 =>
    if m2 = 0 then
      if m1 = 0 then (canonicalNan f, flagNV) else (signCode f (n1 != n2) + infCode f, flagDZ)
    else if m1 = 0 then (signCode f (n1 != n2), 0)
    else
      let (q, st, s) := quotSticky m1 m2 64
      let r := roundFinite f rm .ieee (n1 != n2) q (e1 - e2 - s) st
      (r.1, r.2.1)

/-- The square root of `m * 2^e` with a sticky bit, `k` extra bits: root, sticky, exponent. -/
def sqrtSticky (m : Nat) (e : Int) (k : Nat) : Nat × Bool × Int :=
  let s := 2 * k + (if e % 2 = 0 then 0 else 1)
  let n := m * 2 ^ s
  let r := isqrt n
  (r, r * r != n, (e - s) / 2)

/-- round(sqrt a) (R216). -/
def fSqrt (f : FFmt) (rm : Rnd) (a : FVal) : Nat × Nat :=
  match a with
  | .nan s => (canonicalNan f, if s then flagNV else 0)
  | .inf n => if n then (canonicalNan f, flagNV) else (infCode f, 0)
  | .fin n m e =>
    if m = 0 then (signCode f n, 0)
    else if n then (canonicalNan f, flagNV)
    else
      let (r, st, q) := sqrtSticky m e 64
      let x := roundFinite f rm .ieee false r q st
      (x.1, x.2.1)

/-! Comparison. -/

/-- The order of two finite values: a < b. -/
def finLt (n1 : Bool) (m1 : Nat) (e1 : Int) (n2 : Bool) (m2 : Nat) (e2 : Int) : Bool :=
  decide ((exactSum n1 m1 e1 (!n2) m2 e2).1 < 0)

/-- a < b, false where either is a NaN. -/
def fLt (a b : FVal) : Bool :=
  match a, b with
  | .nan _, _ => false
  | _, .nan _ => false
  | .inf x, .inf y => x && !y
  | .inf x, _ => x
  | _, .inf y => !y
  | .fin n1 m1 e1, .fin n2 m2 e2 => finLt n1 m1 e1 n2 m2 e2

/-- a = b as values, false where either is a NaN; the two zeros are equal (R55). -/
def fEq (a b : FVal) : Bool := !a.isNan && !b.isNan && !fLt a b && !fLt b a

/-- minimumNumber and maximumNumber (R214): the other operand where one is NaN, −0 below +0, NV for a signalling NaN. -/
def fMinMax (f : FFmt) (max : Bool) (ca cb : Nat) : Nat × Nat :=
  let a := decodeFloat f ca
  let b := decodeFloat f cb
  let fl := nanFlags a b
  match a.isNan, b.isNan with
  | true, true => (canonicalNan f, fl)
  | true, false => (cb, fl)
  | false, true => (ca, fl)
  | false, false =>
    let aFirst := fLt a b || (!fLt b a && a.neg && !b.neg)
    (if aFirst != max then ca else cb, fl)

/-- The class of a code, one-hot, bits 0 to 9 (R218). -/
def fClass (f : FFmt) (code : Nat) : Nat :=
  match decodeFloat f code with
  | .inf true => 1
  | .inf false => 2 ^ 7
  | .nan true => 2 ^ 8
  | .nan false => 2 ^ 9
  | .fin n m _ =>
    if m = 0 then if n then 2 ^ 3 else 2 ^ 4
    else if getBits code (fmtSpec f).mb (fmtSpec f).eb = 0 then if n then 2 ^ 2 else 2 ^ 5
    else if n then 2 ^ 1 else 2 ^ 6

/-! Integers. -/

/-- A value rounded to an integer in a mode, and whether that was inexact. -/
def toIntegral (rm : Rnd) (neg : Bool) (m : Nat) (e : Int) : Int × Bool :=
  let (n, x) := roundTo rm neg m e 0 false
  (if neg then -(n : Int) else n, x)

/-- A value rounded to an integer and saturated to `[lo, hi]`: NaN gives the largest value, NV when NaN or out of range,
otherwise NX when inexact (R217). -/
def fToInt (rm : Rnd) (lo hi : Int) (v : FVal) : Int × Nat :=
  match v with
  | .nan _ => (hi, flagNV)
  | .inf n => (if n then lo else hi, flagNV)
  | .fin n m e =>
    let (i, x) := toIntegral rm n m e
    if i < lo then (lo, flagNV) else if hi < i then (hi, flagNV) else (i, if x then flagNX else 0)

/-- A code rounded to an integral value (R218): zeros and infinities pass unchanged. -/
def fRound (f : FFmt) (rm : Rnd) (code : Nat) : Nat × Nat :=
  match decodeFloat f code with
  | .nan s => (canonicalNan f, if s then flagNV else 0)
  | .inf _ => (code, 0)
  | .fin n m e =>
    if m = 0 then (code, 0)
    else
      let (k, x) := roundTo rm n m e 0 false
      let r := roundFinite f rm .ieee n k 0 false
      (r.1, if x then flagNX else 0)

/-- The sign of a code replaced by `neg` (R219). -/
def withSign (f : FFmt) (code : Nat) (neg : Bool) : Nat := code % 2 ^ (fmtBitsOf f - 1) + signCode f neg

/-! The fixed functions: 12 significant bits to nearest-even with unbounded exponent, then one rounding (R216). -/

/-- A positive value with a sticky bit to 12 significant bits, RNE. -/
def roundTwelve (m : Nat) (e : Int) (sticky : Bool) : Nat × Int :=
  let q : Int := (bitLen m : Int) - 12 + e
  ((roundTo .rne false m e q sticky).1, q)

/-- The second rounding of R216, with OF, UF and NX only where it overflows, or is tiny and inexact. -/
def roundEstimate (f : FFmt) (neg : Bool) (m : Nat) (e : Int) (sticky : Bool) : Nat × Nat :=
  let (n, q) := roundTwelve m e sticky
  let r := roundFinite f .rne .ieee neg n q false
  (r.1, if r.2.2 then r.2.1 else if r.2.1 &&& flagUF ≠ 0 then r.2.1 else 0)

/-- `frec` (R216). -/
def fRec (f : FFmt) (v : FVal) : Nat × Nat :=
  match v with
  | .nan s => (canonicalNan f, if s then flagNV else 0)
  | .inf n => (signCode f n, 0)
  | .fin n m e =>
    if m = 0 then (signCode f n + infCode f, flagDZ)
    else
      let (q, st, s) := quotSticky 1 m 64
      roundEstimate f n q (-e - s) st

/-- `frsq` (R216). -/
def fRsq (f : FFmt) (v : FVal) : Nat × Nat :=
  match v with
  | .nan s => (canonicalNan f, if s then flagNV else 0)
  | .inf n => if n then (canonicalNan f, flagNV) else (0, 0)
  | .fin n m e =>
    if m = 0 then (signCode f n + infCode f, flagDZ)
    else if n then (canonicalNan f, flagNV)
    else
      -- 1 / sqrt (m * 2^e) = sqrt (2^(-e) / m); the quotient keeps an even exponent
      let k := 2 * (bitLen m + 64)
      let odd := if e % 2 = 0 then 0 else 1
      let num := 2 ^ (k + odd)
      let q := num / m
      let r := isqrt q
      roundEstimate f false r ((-e - odd - k) / 2) (r * r != q || num % m != 0)

/-- Fraction bits of the constants of `fexp2` (log 17). -/
def expBits : Nat := 192

/-- 2^(2^-1), 2^(2^-2), … with `expBits` fraction bits, multiplied together where the fraction has the bit. -/
def exp2Frac : Nat → Nat → Nat → Nat → Nat
  | 0, _, _, acc => acc
  | n + 1, frac, c, acc =>
    let c' := isqrt (c * 2 ^ expBits)
    let acc' := if frac.testBit n then acc * c' / 2 ^ expBits else acc
    exp2Frac n frac c' acc'

/-- `fexp2` (R216): 2^b, exact for an integer b, otherwise from a product of constants (log 17). -/
def fExp2 (f : FFmt) (v : FVal) : Nat × Nat :=
  match v with
  | .nan s => (canonicalNan f, if s then flagNV else 0)
  | .inf n => if n then (0, 0) else (infCode f, 0)
  | .fin n m e =>
    if m = 0 then (2 ^ (fmtSpec f).mb * (fmtSpec f).bias, 0)
    else
      let lead : Int := (bitLen m : Int) - 1 + e
      if lead < -14 then roundEstimate f false (if n then 2 ^ 20 - 1 else 2 ^ 20) (-20) true
      else if 13 ≤ lead then
        -- far beyond every format: 2^b overflows or is tiny
        roundEstimate f false 1 (if n then -100000 else 100000) true
      else
        let frac : Nat := 100
        let i : Int := if e + frac < 0 then (m >>> (-(e + frac)).toNat : Nat) else (m * 2 ^ (e + frac).toNat : Nat)
        let lost := e + frac < 0 && m % 2 ^ (-(e + frac)).toNat != 0
        let i' : Int := if n then -i - (if lost then 1 else 0) else i
        let whole : Int := i' / (2 ^ frac : Nat)
        let part : Nat := (i' % (2 ^ frac : Nat)).toNat
        if part = 0 ∧ lost = false then roundEstimate f false 1 whole false
        else roundEstimate f false (exp2Frac frac part (2 ^ (expBits + 1)) (2 ^ expBits)) (whole - expBits) true

end Sys2Proof.Machine
end

