-- ==== Sys2Proof/Config.lean ====
section
/-! DEFINITION. What one AK960 fixes (spec 01_device R11 to R15) and the free values the spec leaves open. -/

namespace Sys2Proof.Config

/-- Cores of the device (R15). -/
def coreCount : Nat := 128
/-- Harts of one core (R14). -/
def hartsPerCore : Nat := 8
/-- Cores of one compute die (R12). -/
def coresPerDie : Nat := 32
/-- Physical vector registers in a core's pool (R14, R195). -/
def poolSlots : Nat := 224
/-- Accumulator tiles of a core (R14). -/
def tilesPerCore : Nat := 4
/-- Scratchpad banks of a core (R14). -/
def banksPerCore : Nat := 64
/-- Bytes of one scratchpad bank (R14). -/
def bankBytes : Nat := 24576
/-- Named barriers of a core (R14). -/
def barriersPerCore : Nat := 512
/-- Probe pin entries of a core (R14, R317). -/
def pinEntries : Nat := 512
/-- Depth of a vector instruction queue (R346). -/
def viqDepth : Nat := 64
/-- Micro-ops of a core's window (R35). -/
def windowDepth : Nat := 128
/-- Entries of a hart's ARIT (R321). -/
def aritEntries : Nat := 32
/-- Depth of a vector store queue (R318). -/
def vsqDepth : Nat := 16
/-- Depth of a near-memory queue (R337). -/
def nqDepth : Nat := 32
/-- Depth of a branch/value queue (R347). -/
def bqDepth : Nat := 16
/-- Depth of a pigeonhole (R346). -/
def pigeonholeDepth : Nat := 8
/-- Depth of a hart's launch submission queue (R346). -/
def lqDepth : Nat := 8
/-- Element groups a load queue holds (R326). -/
def loadQueueGroups : Nat := 8
/-- Records a launch queue holds (R350). -/
def launchQueueDepth : Nat := 64

/-- A value the spec leaves open, by the index the step hands it: nothing constrains it (log 10, 11). -/
opaque freeValue : Nat → Word

/-- The bits of an affine register that belong to no element of it, from its base and stride (log 20). -/
opaque edgeBits : Word → Word → Word

/-- AES-256-GCM of R458: key, nonce, additional data, ciphertext and tag to the plaintext, none where the tag fails (log 16). -/
opaque gcmOpen : List Byte → List Byte → List Byte → List Byte → List Byte → Option (List Byte)

/-- SHA-384 of R463 and R464 (log 16). -/
opaque sha384 : List Byte → BitVec 384

/-- The identity key pair of R464, from the fused secret: its public part (log 16). -/
opaque identityPublicKey : List Byte

/-- A signature of R464 under the identity key, r and s, over the bytes given (log 16). -/
opaque identitySign : List Byte → BitVec 768

/-- The ECDSA check of R463: the verifying key, an image and its signature (log 16). -/
opaque ecdsaVerify : List Byte → List Byte → List Byte → Bool

/-- The fused value that the hash of the verifying key of stage 1 must equal (R463, log 16). -/
opaque fusedKeyHash : BitVec 384

/-- The fused rollback counter of R463 (log 16). -/
opaque fusedRollback : Nat

end Sys2Proof.Config
end

