-- ==== Sys2Proof/Machine/State.lean ====
section
/-! DEFINITION. The state of an AK960: every piece of state the spec names, as plain data, and the state after reset.
Where the spec gives no reset value the assumption log names the value (log 4 to 7). -/

namespace Sys2Proof.Machine

/-- The privilege modes of a compute hart (R111). -/
inductive Mode where
  | user | supervisor | machine
deriving DecidableEq, Repr

/-- The apertures (R288). -/
inductive Aperture where
  | cached | uncached | nearMemory | absoluteScratchpad | gangScratchpad | memoryControl | cxl
deriving DecidableEq, Repr

/-- What a hart slot holds: nothing, a running hart, a halted one (R48), one that was terminated (R48, R402). -/
inductive RunState where
  | free | running | halted | terminated
deriving DecidableEq, Repr

/-- The shape tags (R188). -/
inductive ShapeTag where
  | u | a | g
deriving DecidableEq, Repr

/-- A vector register: its shape-table entry (R188) and, for tag G, its byte image (R184) and one poison bit per byte (R205).
`sew` and `grp` are the `vtype` codes of the write that set the entry. -/
structure VReg where
  tag : ShapeTag
  sew : BitVec 3
  grp : BitVec 2
  base : Word
  stride : Word
  image : BitVec 8192
  poison : BitVec 1024
deriving DecidableEq, Repr

/-- The value of a vector register at hart start: U, base 0, sew e4, grp 1 (R188). -/
def VReg.reset : VReg := ⟨.u, 0#3, 0#2, 0#64, 0#64, 0#8192, 0#1024⟩

/-- An accumulator tile: 128 rows of 128 FP32 elements (R256) and one poison bit per element (R260). -/
structure Tile where
  rows : Vector (BitVec 4096) 128
  poison : Vector (BitVec 128) 128
deriving DecidableEq, Repr

/-- A tile of +0 (R259). -/
def Tile.reset : Tile := ⟨Vector.replicate 128 0#4096, Vector.replicate 128 0#128⟩

/-- One entry of a vector instruction queue (R346), with the scalar operands captured at dispatch (R252) and the mode
it was dispatched in (R401). -/
structure VEntry where
  pc : Word
  word : InstrWord
  op0 : Option Word
  op1 : Option Word
  op2 : Option Word
  mode : Mode
deriving DecidableEq, Repr

/-- Why a hart waits (R37, R354, R197, R170). `pins` holds the place of a probe among those of its core that wait for pin entries
(R317). -/
inductive WaitReason where
  | barrier | waitMem (line : Nat) (limit : Word) | waitTime (deadline : Word)
  | qpop | qpush | reclaimPoint | desk | pins (turn : Nat) | queueRoom | storeRoom | nmRoom | aldc | lineLock | memory | interrupt
  | nmDrain
deriving DecidableEq, Repr

/-- A translation a TLB holds (R390): realm, ASID and G of the entry, the virtual page, and the leaf it came from. -/
structure TlbEntry where
  realm : Nat
  asid : Nat
  vpage : Nat
  leaf : Word
  level : Nat
  leafAddr : Nat
deriving DecidableEq, Repr

/-- What an access that uses a leaf leaves of it: the translation a TLB then holds, and the bits to set in the entry (R388). -/
structure LeafMark where
  entry : TlbEntry
  bits : Word
deriving DecidableEq, Repr

/-- An entry of a hart's ARIT (R394): whether the holder writes the range, the holder's place in the vector program order, the
lowest and highest virtual byte under a realm and ASID, and the physical bytes of the range as runs of an aperture, a key and a length:
a byte has another physical address in each aperture.
`copy` marks the destination of a `vcpy.a`, which a `vld.w` passes (R321, R325). -/
structure AritEntry where
  write : Bool
  order : Nat
  low : Nat
  high : Nat
  realm : Nat
  asid : Nat
  bytes : List (Aperture × Nat × Nat)
  copy : Bool
deriving DecidableEq, Repr

/-- The units whose results chain (R182). -/
inductive VUnit where
  | valu | lsu | mxu
deriving DecidableEq, Repr

/-- What an instruction reads and writes: vector registers 0 to 31, masks 32 to 39 and tiles 40 to 43 (R35); and how many bits of a
register group the elements below `vl` take (R435, R441). -/
structure Uses where
  reads : List Nat
  writes : List Nat
  extent : Nat
deriving DecidableEq, Repr

/-- An instruction in the window (R35): its entry, all its micro-ops and those it has still to issue, its age (the order of admissions,
R31), the physical registers it obtained (R196), the power lane ceiling its admission saw (R170, R175), the wait it ended at its
admission (R358), the translation registers its probe used (R393), and the ARIT entries it holds (R321). Its unit, what it reads and
writes and the ages of its producers say what it may chain on (R182); `withheld` counts its micro-ops that a disabled pair has made
wait (R442), and `descs` holds the descriptors that an `ald` has read ahead of its cells (R105). -/
structure InFlight where
  entry : VEntry
  total : Nat
  microOps : Nat
  age : Nat
  slots : Nat
  ceiling : BitVec 3
  waited : Option WaitReason
  satp : Word
  sum : Bool
  arit : List AritEntry
  unit : VUnit
  uses : Uses
  producers : List Nat
  withheld : Nat
  descs : Option (List (Byte × Bool))
deriving DecidableEq, Repr

/-- One delivery of a load queue (R326): its size in element groups, its byte image and the poison of its bytes. -/
structure Delivery where
  groups : Nat
  image : BitVec 8192
  poison : BitVec 1024
deriving DecidableEq, Repr

/-- One byte that a store will write: the byte's physical key, the bits it writes (R313), whether they are poisoned, and the
aperture it goes through (R377). -/
structure ByteWrite where
  key : Nat
  value : Byte
  mask : Byte
  poison : Bool
  ap : Aperture
deriving DecidableEq, Repr

/-- One entry of a vector store queue (R318): the bytes it writes in order, the compression kind of each page (R301), whether it is an
arrival copy (R298), the ARIT entries an engine form holds (R321), and the A and D bits its access sets when it is performed (R388).
A scalar store queue holds entries of the same form. -/
structure VsqEntry where
  writes : List ByteWrite
  kinds : List (Nat × Nat)
  arrival : Bool
  arit : List AritEntry
  marks : List LeafMark
deriving DecidableEq, Repr

/-- What a scalar access that is still to read does with the number it reads: an integer or a floating-point load, or an atomic of some
bytes with its operand. -/
inductive ScalarRead where
  | load (op : LoadOp) (rd : XReg)
  | fload (dbl : Bool) (rd : XReg)
  | amo (op : AmoOp) (rd : XReg) (operand : Nat)
deriving DecidableEq, Repr

/-- A load or atomic of the scalar stream that is still to be performed (R370): what it does with the number, where it reads, the
kind of its page (R301), the value its bytes had when it was issued, and the mark of its access (R388). -/
structure ScalarLoad where
  read : ScalarRead
  va : Word
  len : Nat
  ap : Aperture
  key : Nat
  kind : Option Nat
  value : Nat
  mark : Option LeafMark
deriving DecidableEq, Repr

/-- A byte as it was before a line event of a near-memory command, with the number of the event (R340). -/
structure OldByte where
  key : Nat
  value : Byte
  event : Nat
deriving DecidableEq, Repr

/-- One near-memory command (R338) with its progress. `held` says that it holds an NQ entry of its hart, `done` and
`skipped` list the lines applied and skipped (R341); `dst` and `src` hold the physical key of each line, `record` that of the
completion record, `recordAddr` the address the program gave, `kinds` the kinds its page is stored with (R301); `half` says that bytes
0x08 to 0x3F of the record are written (R423). -/
structure NmCommand where
  gang : Nat
  rank : Nat
  held : Bool
  op : Nat
  fmt : Nat
  n : Nat
  dst : List Nat
  src : List Nat
  a : BitVec 32
  b : BitVec 32
  record : Nat
  recordAddr : Word
  kinds : List (Nat × Nat)
  tag : BitVec 32
  done : List Nat
  skipped : List Nat
  lastTime : Word
  half : Bool
deriving DecidableEq, Repr

/-- A launch record: its 128 bytes, little-endian (R349). -/
abbrev LaunchRecord := BitVec 1024

/-- One submission of `launch` in a hart's LQ (R351). -/
structure LqEntry where
  queue : Nat
  record : LaunchRecord
deriving DecidableEq, Repr

/-- One read of a block: its descriptor, whether a byte of that is poisoned, its cells, and their poison, one bit per byte (R105). -/
structure BlockRead where
  desc : Nat
  badDesc : Bool
  cells : Nat
  badCells : Nat
deriving DecidableEq, Repr

/-- The blocks an `ald.c` has still to accept (R105): attempts made, the earliest time of the next one, the accepted blocks, the blocks
of an attempt that has read D1 and the cells and has D2 still to read, and the translation registers of its probe (R393). -/
structure AldcState where
  attempts : Nat
  earliest : Nat
  accepted : List (Nat × BlockRead)
  first : Option (List (Nat × BlockRead))
  satp : Word
  sum : Bool
deriving DecidableEq, Repr

/-- The state of one compute hart. `wait` says why the head of the vector queue waits, `stall` why the scalar stream does; `ssq` is
the scalar stream's store queue and `slq` its loads and atomics that are still to be performed (R370); `next` holds the instructions in
the window behind the oldest (R35); `oldLines` holds the bytes, from before a near-memory command, that the hart's vector loads still read (R340),
`taint` the x registers (bit 32: the f registers) and `vectorTaint` whether the vector registers may hold what was read since (R369,
R370). `holdViq`, `holdVsq`, `holdSsq`, `holdSlq`, `holdWindow`, `holdOldest`, `holdLines` and `drainViq` are the model's own (log 2, 3, 8). -/
structure Hart where
  hid : Nat
  run : RunState
  gang : Option Nat
  rank : Nat
  pc : Word
  x : Vector Word 32
  f : Vector Word 32
  frm : BitVec 3
  fflags : BitVec 5
  mode : Mode
  reservation : Option Nat
  instret : Word
  cycle : Word
  mstatus : Word
  medeleg : Word
  mideleg : Word
  mie : Word
  mip : Word
  mtvec : Word
  mscratch : Word
  mepc : Word
  mcause : Word
  mtval : Word
  stvec : Word
  sscratch : Word
  sepc : Word
  scause : Word
  stval : Word
  mcounteren : BitVec 32
  scounteren : BitVec 32
  cyInhibit : Bool
  irInhibit : Bool
  satp : Word
  vflags : BitVec 9
  vfrm : BitVec 3
  vband : Word
  avec : Word
  aepc : Word
  acause : Word
  aqsave : Word
  vobm0 : Word
  vobm1 : Word
  voutcnt : BitVec 32
  vl : BitVec 32
  vrow : BitVec 32
  vtype : Word
  lgrant : BitVec 5
  vepc : Word
  vcause : Word
  vtval : Word
  vqsave : Word
  vmissrec : Word
  vmisscnt : Word
  gencap : BitVec 8
  size : BitVec 8
  v : Vector VReg 32
  m : Vector (BitVec 16384) 8
  w : Vector (Vector (BitVec 128) 128) 4
  ownTiles : Nat
  t : Vector Tile 4
  sA : Vector Byte 128
  sB : Vector Byte 128
  anchorHandler : Bool
  viq : List VEntry
  window : Option InFlight
  next : List InFlight
  loadq : Vector (List Delivery) 4
  bq : List Bool
  pigeonhole : List Word
  lq : List LqEntry
  vsq : List VsqEntry
  ssq : List VsqEntry
  slq : List ScalarLoad
  oldLines : List OldByte
  taint : BitVec 33
  vectorTaint : Bool
  nmError : Option Word
  aldc : Option AldcState
  wait : Option WaitReason
  stall : Option WaitReason
  barPhases : List (Nat × Nat)
  largestTime : Word
  headAged : Option Nat
  holdViq : Bool
  holdVsq : Bool
  holdSsq : Bool
  holdSlq : Bool
  holdWindow : Bool
  holdOldest : Bool
  holdLines : Bool
  drainViq : Bool
deriving DecidableEq, Repr

/-- A hart slot with no hart: its registers at the values that reset or hart start gives (R29, R161), and, for those the
spec gives none, at the values log 5, 6 and 7 name. -/
def Hart.reset (hid : Nat) : Hart where
  hid := hid
  run := .free
  gang := none
  rank := 0
  pc := 0#64
  x := Vector.replicate 32 0#64
  f := Vector.replicate 32 0#64
  frm := 0#3
  fflags := 0#5
  mode := .machine
  reservation := none
  instret := 0#64
  cycle := 0#64
  mstatus := 0xA00002000#64
  medeleg := 0xB1FF#64
  mideleg := 0x222#64
  mie := 0#64
  mip := 0#64
  mtvec := 0#64
  mscratch := 0#64
  mepc := 0#64
  mcause := 0#64
  mtval := 0#64
  stvec := 0#64
  sscratch := 0#64
  sepc := 0#64
  scause := 0#64
  stval := 0#64
  mcounteren := 0x7FFFF#32
  scounteren := 0x7FFFF#32
  cyInhibit := false
  irInhibit := false
  satp := 0#64
  vflags := 0#9
  vfrm := 0#3
  vband := 0x3F803F803F803F80#64
  avec := 0#64
  aepc := 0#64
  acause := 0#64
  aqsave := 0#64
  vobm0 := 0#64
  vobm1 := 0#64
  voutcnt := 0#32
  vl := 0#32
  vrow := 0#32
  vtype := 0x8000000000000000#64
  lgrant := 4#5
  vepc := 0#64
  vcause := 0#64
  vtval := 0#64
  vqsave := 0#64
  vmissrec := 0#64
  vmisscnt := 0#64
  gencap := 0xFF#8
  size := 0#8
  v := Vector.replicate 32 VReg.reset
  m := Vector.replicate 8 0#16384
  w := Vector.replicate 4 (Vector.replicate 128 0#128)
  ownTiles := 0
  t := Vector.replicate 4 Tile.reset
  sA := Vector.replicate 128 0#8
  sB := Vector.replicate 128 0#8
  anchorHandler := false
  viq := []
  window := none
  next := []
  loadq := Vector.replicate 4 []
  bq := []
  pigeonhole := []
  lq := []
  vsq := []
  ssq := []
  slq := []
  oldLines := []
  taint := 0#33
  vectorTaint := false
  nmError := none
  aldc := none
  wait := none
  stall := none
  barPhases := []
  largestTime := 0#64
  headAged := none
  holdViq := false
  holdVsq := false
  holdSsq := false
  holdSlq := false
  holdWindow := false
  holdOldest := false
  holdLines := false
  drainViq := false

/-- One barrier of a gang (R357). -/
structure Barrier where
  count : Nat
  pending : Option Nat
  phase : Nat
  arrived : List Nat
deriving DecidableEq, Repr

/-- A pending reclaim (R41, R43, R414). -/
structure Reclaim where
  deadline : Word
  deskCut : Nat
deriving DecidableEq, Repr

/-- What a full context switch saved of a gang (R46, R173): its harts, its scratchpad bytes and their poison, and its
lane count; `since` orders the ready list and `time` is the moment of the switch. -/
structure SavedGang where
  harts : List Hart
  scratchpad : List Host.Cell
  padPoison : List Nat
  lanes : Nat
  since : Nat
  time : Word
deriving DecidableEq, Repr

/-- A gang, placed or switched out (R21, R23). -/
structure Gang where
  key : Nat
  launch : Nat
  number : Nat
  core : Nat
  harts : List Nat
  quads : BitVec 4
  exclusive : Bool
  vgrantmax : BitVec 4
  reclaim : Option Reclaim
  barriers : List Barrier
  banks : List Nat
  order : Nat
  sliceEnd : Option Word
  sliceExhausted : Bool
  saved : Option SavedGang
deriving DecidableEq, Repr

/-- A launch whose record has passed its check (R24, R26, R49). -/
structure Launch where
  key : Nat
  queue : Nat
  record : LaunchRecord
  placed : Nat
  retired : Nat
  faults : Nat
  terminated : Bool
deriving DecidableEq, Repr

/-- The state one core's harts share. `slack` holds, for each counter, how many chaining withdrawals may have happened that it has
not counted, `uses` what the instruction last admitted on the core reads and writes, and `writers` the unit that wrote each register of
each hart last (R433, R442; log 11). -/
structure CoreState where
  ceilq : BitVec 3
  chainperm : BitVec 6
  hpm : Vector Word 16
  event : Vector (BitVec 27) 16
  inhibit : BitVec 16
  slack : Vector Nat 16
  uses : Uses
  writers : Vector (Vector (Option VUnit) 44) 8
  arrival : List (Nat × Nat)
  lastAdmitted : Nat
  gated : BitVec 16
deriving DecidableEq, Repr

/-- The reset events of the sixteen counters (R432). -/
def resetEvents : Vector (BitVec 27) 16 :=
  #v[0x7000001#27, 0x7000002#27, 0x7000003#27, 0x7000004#27, 0x7000005#27, 0x7000000#27, 0x7000000#27, 0x7000000#27,
     0x7000000#27, 0x7000000#27, 0x7000000#27, 0x7000000#27, 0x7000000#27, 0x7000000#27, 0x7000000#27, 0x7000000#27]

/-- A core after reset (R161, R431, R432, R441). -/
def CoreState.reset : CoreState where
  ceilq := 4#3
  chainperm := 0x3F#6
  hpm := Vector.replicate 16 0#64
  event := resetEvents
  inhibit := 0#16
  slack := Vector.replicate 16 0
  uses := ⟨[], [], 0⟩
  writers := Vector.replicate 8 (Vector.replicate 44 none)
  arrival := []
  lastAdmitted := 7
  gated := 0xFFFF#16

/-- The state of a series string (R181, R183, R437, R438). `shares` holds, per core, the busywork cycles of the last
windows, newest first; `fits` counts windows in a row that would have fitted one step higher. -/
structure SeriesString where
  limit : BitVec 8
  pol : BitVec 2
  strbal : Word
  step : Nat
  minStep : Nat
  fits : Nat
  shares : Vector (List Nat) 4
  throttling : Bool
deriving DecidableEq, Repr

/-- A string after reset (R183). -/
def SeriesString.reset : SeriesString where
  limit := 0x40#8
  pol := 0#2
  strbal := 0#64
  step := 0
  minStep := 0
  fits := 0
  shares := Vector.replicate 4 []
  throttling := false

/-- A poisoned unit of memory: its first byte's key and its size (R304). -/
structure PoisonUnit where
  base : Nat
  size : Nat
deriving DecidableEq, Repr

/-- A line held locked by a vector atomic or an `ast` of a hart (R104, R334). -/
structure LineLock where
  hid : Nat
  line : Nat
deriving DecidableEq, Repr

/-- A pin entry (R317, R392): its core, the translation it pins, and the harts whose instructions pin it; their number is the use
count; `bits` holds the A and D bits that the probes which took it have set in the leaf (R388). -/
structure Pin where
  core : Nat
  users : List Nat
  entry : TlbEntry
  bits : Word
deriving DecidableEq, Repr

/-- One entry of the layer redirect table (R396). -/
structure Redirect where
  done : Bool
  top : Nat
  stack : Nat
  layer : Nat
  cursor : Nat
deriving DecidableEq, Repr

/-- A home region: its map-outs in order (R396) and its activation window in ns (R443). `vacating` says that the hot-remove
event of R305 has been raised and the range is not yet reported vacated; `flash` mirrors the redirect table and `slots` is the slot
map, the slot of each moved line, the latest first (R396). -/
structure Region where
  redirects : List Redirect
  window : Nat
  vacating : Option (Nat × Nat)
  flash : List Redirect
  slots : List Word
deriving DecidableEq, Repr

/-- A region after reset: no redirect in flash (log 5), the window of R443. -/
def Region.reset : Region := ⟨[], 16, none, [], []⟩

/-- A CXL expander (R302, R303): whether present, its capacity, its outstanding requests. -/
structure Expander where
  present : Bool
  units : Nat
  outstanding : Nat
deriving DecidableEq, Repr

/-- An entry of the error record table (R398). -/
structure ErrorEntry where
  time : Word
  address : Nat
  source : Nat
  place : Nat
  count : Nat
  flags : BitVec 4
deriving DecidableEq, Repr

/-- A route to a remote device (R461, R462): up, or not yet trained after a reset (R308), or retraining since a time, or given up. -/
inductive RouteStatus where
  | up | untrained | retraining (since : Word) | down
deriving DecidableEq, Repr

/-- A row of the routing table (R461). -/
structure Route where
  device : Nat
  status : RouteStatus
deriving DecidableEq, Repr

/-- Row activations of one pseudo-channel of a region, numbered by stack, layer and bits [9:6] of an address (R19, R443): requests
waiting and the start times of the recent activations. -/
structure RowQueue where
  region : Nat
  channel : Nat
  waiting : Nat
  recent : List Nat
deriving DecidableEq, Repr

/-- The head of a launch queue (R25): when it became head, the priority its age has added, and its launch once checked. -/
structure HeadState where
  since : Word
  raised : Nat
  launch : Option Nat
deriving DecidableEq, Repr

/-- A launch queue (R350, R456). -/
structure LaunchQueue where
  enable : Bool
  realm : Nat
  records : List LaunchRecord
  dropped : Nat
  succLost : Nat
  held : List LaunchRecord
  head : Option HeadState
deriving DecidableEq, Repr

/-- A launch queue after reset (R456). -/
def LaunchQueue.reset : LaunchQueue := ⟨false, 0, [], 0, 0, [], none⟩

/-- A window a realm has granted the system cores (R455). -/
structure RealmWindow where
  realm : Nat
  base : Nat
  size : Nat
  write : Bool
deriving DecidableEq, Repr

/-- The table entry of a realm that software cannot read (R453), its keys and windows apart. -/
structure RealmEntry where
  realm : Nat
  vmid : Nat
  root : Word
deriving DecidableEq, Repr

/-- The modes of a system core (R452): M, HS, U, and VS and VU of the H extension. -/
inductive SysMode where
  | machine | hypervisor | user | virtualSupervisor | virtualUser
deriving DecidableEq, Repr

/-- A translation a system core's TLB holds (R452): its stages (`satp` alone, or `vsatp` and `hgatp`) and VMID and ASID, the virtual page,
the leaf of the first stage and its level, and the page it gives. -/
structure SysTlbEntry where
  guest : Bool
  vmid : Nat
  asid : Nat
  vpage : Nat
  leaf : Word
  level : Nat
  page : Nat
deriving DecidableEq, Repr

/-- A system core (R20, R452): the registers of its profile (integer, floating-point, vector, `fcsr` and the CSRs, by number), its mode,
its translation registers and its own TLB. -/
structure SysCore where
  x : Vector Word 32
  f : Vector Word 32
  v : Vector (List Byte) 32
  fcsr : BitVec 8
  csrs : List (Nat × Word)
  pc : Word
  mode : SysMode
  satp : Word
  vsatp : Word
  hgatp : Word
  tlb : List SysTlbEntry
deriving DecidableEq, Repr

/-- A system core after reset (R463; log 53). -/
def SysCore.reset : SysCore where
  x := Vector.replicate 32 0#64
  f := Vector.replicate 32 0#64
  v := Vector.replicate 32 []
  fcsr := 0#8
  csrs := []
  pc := 0#64
  mode := .machine
  satp := 0#64
  vsatp := 0#64
  hgatp := 0#64
  tlb := []

/-- An Ethernet key entry (R458). -/
structure EthKey where
  index : Nat
  key : List Byte
  salt : List Byte
  realm : Nat
  mask : Word
  last : Word
deriving DecidableEq, Repr

/-- The counts of the report card (R444). -/
structure ReportCard where
  sequence : Nat
  written : Word
  powerOn : Nat
  temperature : Vector Nat 64
  supply : Vector Nat 512
  corrected : Vector Nat 128
  mapOuts : Vector Nat 4
  retrains : Vector Nat 32
  powerBands : Vector Nat 8
  busywork : Vector Nat 16
  throttles : Vector Nat 32
  fatal : Nat
deriving DecidableEq, Repr

/-- A report card with every count 0 (log 5). -/
def ReportCard.reset : ReportCard where
  sequence := 0
  written := 0#64
  powerOn := 0
  temperature := Vector.replicate 64 0
  supply := Vector.replicate 512 0
  corrected := Vector.replicate 128 0
  mapOuts := Vector.replicate 4 0
  retrains := Vector.replicate 32 0
  powerBands := Vector.replicate 8 0
  busywork := Vector.replicate 16 0
  throttles := Vector.replicate 32 0
  fatal := 0

/-- What firmware adds to the report card (R444): a second powered, a minute of a die at a temperature in m°C, a minute of a string at a
voltage in units of 0.1 mV, a second at a module power in mW, a core-millisecond with some busywork cycles among some cycles. -/
inductive CardSample where
  | powered
  | temperature (die : Nat) (millidegrees : Int)
  | supply (string tenths : Nat)
  | power (milliwatts : Nat)
  | busywork (busy cycles : Nat)
deriving DecidableEq, Repr

/-- What firmware, the fabric manager and the system cores' own programs do to the device's state (R443, R444, R453, R458, R461, R464,
R465): a key entry loaded, a realm's table entry written, a code object registered, a route or the device number set, a sample of
the report card, a row-activation or CXL request that arrives, a CXL request that is served, the system cores restarted, a system
core moved on by its own program. -/
inductive FirmwareAct where
  | loadKey (k : EthKey)
  | setRealm (e : RealmEntry)
  | registerCode (realm : Nat) (object : List Byte)
  | setRoute (device : Nat) (up : Bool)
  | setDevice (device : Nat)
  | sample (c : CardSample)
  | rowRequest (addr : Word)
  | cxlRequest (expander : Nat)
  | cxlServed (expander : Nat)
  | restart
  | systemCore (n : Nat) (c : SysCore)
deriving DecidableEq, Repr

/-- An event firmware raises to the system cores (R305, R462). -/
inductive SystemEvent where
  | hotRemove (region first last : Nat)
  | degraded (region : Nat)
  | routeDown (device : Nat)
deriving DecidableEq, Repr

/-- What the device last returned to a system core, a PCI Express peer or a remote device (R454, R457, R467). -/
inductive ExternalResult where
  | none
  | status (code : Nat)
  | data (bytes : List Byte) (poisoned : Bool)
  | stored
  | accessFault
  | pageFault
  | completerAbort
  | held
deriving DecidableEq, Repr

/-- Whether the boot chain has run (R463). -/
inductive BootState where
  | running | stopped
deriving DecidableEq, Repr

/-- An action of the power manager (R440). -/
inductive PowerAction where
  | lengthenWindow (region : Nat)
  | narrowChain (core : Nat) (bit : Nat)
  | lowerCeiling (core : Nat)
  | raiseStep (string : Nat)
deriving DecidableEq, Repr

/-- A store a switched-out gang left behind (R318). -/
structure PassedStore where
  gang : Nat
  entry : VsqEntry
deriving DecidableEq, Repr

/-- A byte that reads through one aperture class may still see as it was before writes through another (R377): its older values, oldest
first, each with whether another class wrote it; which of them reads see now, the byte itself where none; and whether another class
wrote the byte itself. -/
structure StaleByte where
  ap : Aperture
  key : Nat
  older : List (Byte × Bool)
  shown : Option Nat
  other : Bool
deriving DecidableEq, Repr

/-- One item of the model's own agenda (log 1): an event of the device, a switch to another hart, something firmware does, the oldest
scalar store of a hart performed or its oldest scalar load (R370), the oldest of the old values of a byte that a hart's vector loads
read no longer (R340), or which of the older values of a byte reads through an aperture see from now on (R377). -/
inductive AgendaItem where
  | event (i : Instr)
  | switch (hid : Nat)
  | firmware (a : FirmwareAct)
  | scalarStore (hid : Nat)
  | scalarLoad (hid : Nat)
  | forget (hid key : Nat)
  | stale (ap : Aperture) (key : Nat) (shown : Option Nat)
deriving DecidableEq, Repr

/-- The state of the device. `hart` is the hart that moves next and `others` are the other harts in use, by number;
`slew` is what is left of a correction of the timebase and `slewed` the time of its last step (R429); `restarted` says that the last
step of a reset is done (R465); `stale` holds what reads through an aperture class see of another class's writes (R377). `holdAlias`,
`agenda`, `turn`, `freeCounter` and `nextKey` are the model's own (log 1, 8, 10). -/
structure State where
  hart : Hart
  others : List Hart
  gangs : List Gang
  launches : List Launch
  cores : Vector CoreState 128
  strings : Vector SeriesString 32
  mem : List Host.Cell
  poison : List PoisonUnit
  kinds : List (Nat × Nat)
  stale : List StaleByte
  tlb : List TlbEntry
  pins : List Pin
  locks : List LineLock
  passed : List PassedStore
  nq : List NmCommand
  memReady : Bool
  restarted : Bool
  mapOut : BitVec 4
  d2d : BitVec 4
  phy : BitVec 4
  regions : Vector Region 4
  expanders : Vector Expander 4
  cxlQueue : List Nat
  errHead : BitVec 32
  errors : List ErrorEntry
  time : Word
  slew : Int
  slewed : Option Word
  device : Nat
  routes : List Route
  rows : List RowQueue
  queues : Vector LaunchQueue 64
  roundRobin : Vector Nat 4
  granules : List (Nat × Nat)
  windows : List RealmWindow
  realms : List RealmEntry
  keys : List EthKey
  frameDrops : Vector (BitVec 32) 6
  report : ReportCard
  flashReport : ReportCard
  attestation : List Byte
  measurements : List (Nat × BitVec 384)
  images : List (BitVec 384)
  systemEvents : List SystemEvent
  sysCores : Vector SysCore 16
  boot : BootState
  result : ExternalResult
  powerActions : List PowerAction
  holdAlias : Bool
  agenda : List AgendaItem
  turn : Nat
  freeCounter : Nat
  nextKey : Nat
deriving DecidableEq, Repr

/-- The device right after reset. -/
def State.reset : State where
  hart := Hart.reset 0
  others := []
  gangs := []
  launches := []
  cores := Vector.replicate 128 CoreState.reset
  strings := Vector.replicate 32 SeriesString.reset
  mem := []
  poison := []
  kinds := []
  stale := []
  tlb := []
  pins := []
  locks := []
  passed := []
  nq := []
  memReady := false
  restarted := false
  mapOut := 0#4
  d2d := 0#4
  phy := 0#4
  regions := Vector.replicate 4 Region.reset
  expanders := Vector.replicate 4 ⟨false, 0, 0⟩
  cxlQueue := []
  errHead := 0#32
  errors := []
  time := 0#64
  slew := 0
  slewed := none
  device := 0
  routes := []
  rows := []
  queues := Vector.replicate 64 LaunchQueue.reset
  roundRobin := Vector.replicate 4 63
  granules := []
  windows := []
  realms := []
  keys := []
  frameDrops := Vector.replicate 6 0#32
  report := ReportCard.reset
  flashReport := ReportCard.reset
  attestation := []
  measurements := []
  images := []
  systemEvents := []
  sysCores := Vector.replicate 16 SysCore.reset
  boot := .running
  result := .none
  powerActions := []
  holdAlias := false
  agenda := []
  turn := 0
  freeCounter := 0
  nextKey := 0

/-- Why the machine stops with a fault. No rule of the spec stops the machine: every fault the spec names is an exception
or a trap that a hart takes, so nothing raises one and the type is empty (safe). -/
inductive Fault : Type where
deriving DecidableEq, Repr

/-- Why a step has no meaning. -/
inductive Refusal where
  /-- Raised by an arm of `exec` whose instruction has no meaning yet (safe). -/
  | notModelled (mnemonic : String)
deriving DecidableEq, Repr

end Sys2Proof.Machine
end

