-- ==== Sys2Proof/Machine/Mem.lean ====
section
/-! DEFINITION. Memory: bytes by physical key, poison units, the device-local map of R285 with its checks (R286, R287, R291,
R296, R302, R454), and a store of bytes (R113, R301, R304). -/

namespace Sys2Proof.Machine

/-! Memory in canonical form: addresses strictly rising, no byte equal to what an unlisted address reads as. -/

/-- What an address that no entry lists reads as (log 4). -/
def unlistedByte : Byte := 0#8

/-- The byte at a key. -/
def memRead : List Host.Cell → Nat → Byte
  | [], _ => unlistedByte
  | (k, v) :: rest, a => if a = k then v else memRead rest a

/-- An entry put in its place. -/
def memPut : List Host.Cell → Nat → Byte → List Host.Cell
  | [], a, b => [(a, b)]
  | (k, v) :: rest, a, b =>
    if a = k then (a, b) :: rest else if a < k then (a, b) :: (k, v) :: rest else (k, v) :: memPut rest a b

/-- Memory with the byte at a key replaced, in canonical form: a byte that an unlisted address reads as is not listed. -/
def memWrite (m : List Host.Cell) (a : Nat) (b : Byte) : List Host.Cell :=
  if b = unlistedByte then m.filter (fun c => c.1 != a) else memPut m a b

/-- The canonical form: strictly rising keys above `lo`, no unlisted value listed. -/
def memWfFrom : Nat → List Host.Cell → Bool
  | _, [] => true
  | lo, (k, v) :: rest => decide (lo ≤ k) && v != unlistedByte && memWfFrom (k + 1) rest

/-- The canonical form of memory. -/
def memWf (m : List Host.Cell) : Bool := memWfFrom 0 m

/-- Memory without the bytes of a range: each reads as an unlisted byte. -/
def memErase (m : List Host.Cell) (base size : Nat) : List Host.Cell :=
  m.filter (fun c => !(decide (base ≤ c.1) && decide (c.1 < base + size)))

/-- `n` bytes from a key. -/
def memReadBytes (m : List Host.Cell) (a : Nat) : Nat → List Byte
  | 0 => []
  | n + 1 => memRead m a :: memReadBytes m (a + 1) n

/-- A run of bytes written from a key. -/
def memWriteBytes : List Host.Cell → Nat → List Byte → List Host.Cell
  | m, _, [] => m
  | m, a, b :: bs => memWriteBytes (memWrite m a b) (a + 1) bs

/-! The device-local map (R285). -/

/-- The aperture of a device-local address and the offset in it (R285). -/
def apertureOf (loc : Nat) : Option (Aperture × Nat) :=
  if loc < 0x10000000000 then some (.cached, loc)
  else if loc < 0x20000000000 then some (.uncached, loc - 0x10000000000)
  else if loc < 0x30000000000 then some (.nearMemory, loc - 0x20000000000)
  else if loc < 0x30010000000 then some (.absoluteScratchpad, loc - 0x30000000000)
  else if 0x38000000000 ≤ loc ∧ loc < 0x38000180000 then some (.gangScratchpad, loc - 0x38000000000)
  else if 0x40000000000 ≤ loc ∧ loc < 0x40000001000 then some (.memoryControl, loc - 0x40000000000)
  else if 0x100000000000 ≤ loc ∧ loc < 0x200000000000 then some (.cxl, loc - 0x100000000000)
  else none

/-- The device number of an address (R18). -/
def deviceOf (pa : Nat) : Nat := pa / 2 ^ 53

/-- The device-local part of an address (R18). -/
def localOf (pa : Nat) : Nat := pa % 2 ^ 53

/-- Bytes of a home region in the map. -/
def regionSpan : Nat := 0x4000000000

/-- The capacity of a region in 8 GiB units, CAP (R303). -/
def Region.cap (r : Region) : Nat := 32 - (r.redirects.filter (fun e => e.done)).length

/-- The lowest usable offset of a region (R291). -/
def usableFrom (region : Nat) : Nat := if region = 0 then 6 * 2 ^ 30 else 4 * 2 ^ 30

/-- The realm a granule of 2 MiB belongs to; realm 0 where no assignment is listed (R454). -/
def granuleRealm (s : State) (granule : Nat) : Nat :=
  match s.granules.find? (fun g => g.1 == granule) with
  | some g => g.2
  | none => 0

/-- Who makes an access: its mode, its realm, the scratchpad banks it reaches as absolute bank addresses, and its
translation registers. -/
structure Agent where
  mode : Mode
  realm : Nat
  banks : List Nat
  satp : Word
  sum : Bool
deriving DecidableEq, Repr

/-- The key of a home-region byte that an agent may access: below capacity (R291), above the reserved area below M mode
(R286), and in a granule of the agent's realm below M mode (R454). -/
def homeKey (s : State) (g : Agent) (off : Nat) : Option Nat :=
  let region := off / regionSpan
  let o := off % regionSpan
  if s.regions[region]?.elim true (fun r => decide (r.cap * 2 ^ 33 ≤ o)) then none
  else if g.mode = .machine then some off
  else if o < usableFrom region then none
  else if granuleRealm s (off / 2 ^ 21) = g.realm then some off
  else none

/-- The key of a CXL byte: below the expander's capacity (R302). -/
def cxlKey (s : State) (off : Nat) : Option Nat :=
  match s.expanders[off / 2 ^ 42]? with
  | some e => if e.present = true ∧ off % 2 ^ 42 < e.units * 2 ^ 28 then some (0x100000000000 + off) else none
  | none => none

/-- The key of a gang-scratchpad byte: the bank at that place of the allocation (R296). -/
def gangKey (g : Agent) (off : Nat) : Option Nat :=
  match g.banks[off / Config.bankBytes]? with
  | some b => some (b + off % Config.bankBytes)
  | none => none

/-- The key of a byte of this device, or none where the access faults (R286). -/
def localKey (s : State) (g : Agent) (loc : Nat) : Option (Aperture × Nat) :=
  match apertureOf loc with
  | some (.cached, o) => (homeKey s g o).map (fun k => (.cached, k))
  | some (.uncached, o) => (homeKey s g o).map (fun k => (.uncached, k))
  | some (.nearMemory, o) => (homeKey s g o).map (fun k => (.nearMemory, k))
  | some (.absoluteScratchpad, o) =>
    if g.mode = .machine ∧ o % 0x200000 < Config.banksPerCore * Config.bankBytes then
      some (.absoluteScratchpad, 0x30000000000 + o)
    else none
  | some (.gangScratchpad, o) => (gangKey g o).map (fun k => (.gangScratchpad, k))
  | some (.memoryControl, o) => if g.mode = .machine then some (.memoryControl, 0x40000000000 + o) else none
  | some (.cxl, o) => (cxlKey s o).map (fun k => (.cxl, k))
  | none => none

/-- Whether an agent may reach an offset of a home region past its reserved low area: always in M mode (R286, R291). -/
def aboveReserved (g : Agent) (off : Nat) : Bool :=
  g.mode == .machine || decide (usableFrom (off / regionSpan) ≤ off % regionSpan)

/-- The key of a byte of a remote device: cached, uncached and CXL apertures of a device the routing table lists (R287, R461), outside
the reserved low areas below M mode (R286). The keys of device d lie from (d + 1) * 2^53, apart from every local key. -/
def remoteKey (s : State) (g : Agent) (dev loc : Nat) : Option (Aperture × Nat) :=
  if s.routes.any (fun r => r.device == dev) then
    match apertureOf loc with
    | some (.cached, o) => if aboveReserved g o then some (.cached, (dev + 1) * 2 ^ 53 + o) else none
    | some (.uncached, o) => if aboveReserved g o then some (.uncached, (dev + 1) * 2 ^ 53 + o) else none
    | some (.cxl, o) => some (.cxl, (dev + 1) * 2 ^ 53 + 0x100000000000 + o)
    | _ => none
  else none

/-- The aperture and key of the byte at a physical address, none where the access faults (R286, R287). -/
def physKey (s : State) (g : Agent) (pa : Nat) : Option (Aperture × Nat) :=
  if deviceOf pa = s.device then localKey s g (localOf pa) else remoteKey s g (deviceOf pa) (localOf pa)

/-- The remote device a key belongs to, none for a local key. -/
def keyDevice (key : Nat) : Option Nat := if key < 2 ^ 53 then none else some (key / 2 ^ 53 - 1)

/-- Whether the route to a key's device is given up (R462). -/
def routeDown (s : State) (key : Nat) : Bool :=
  match keyDevice key with
  | some d => s.routes.any (fun r => r.device == d && decide (r.status = .down))
  | none => false

/-- Whether domain accesses wait on a route: it is not trained yet, or it retrains (R308, R462). -/
def RouteStatus.waits : RouteStatus → Bool
  | .untrained => true
  | .retraining _ => true
  | _ => false

/-- Whether the route to a key's device does not carry accesses yet, so that an access waits (R308, R462). -/
def routeWaits (s : State) (key : Nat) : Bool :=
  match keyDevice key with
  | some d => s.routes.any (fun r => r.device == d && r.status.waits)
  | none => false

/-- Whether a key lies in the memory control block. -/
def isControlKey (key : Nat) : Bool := decide (0x40000000000 ≤ key) && decide (key < 0x40000001000)

/-- Whether a key lies in scratchpad. -/
def isScratchKey (key : Nat) : Bool := decide (0x30000000000 ≤ key) && decide (key < 0x30010000000)

/-! The memory control block (R303, R396 to R398, R443). -/

/-- An entry of the redirect table as two doublewords (R396). -/
def redirectWords (e : Redirect) : Nat × Nat :=
  (2 ^ 63 + (if e.done then 2 ^ 62 else 0) + e.top * 2 ^ 8 + e.stack * 2 ^ 4 + e.layer, e.cursor)

/-- The doublewords of an error entry (R398). -/
def errorWord (e : ErrorEntry) (i : Nat) : Nat :=
  match i with
  | 0 => e.time.toNat
  | 1 => e.address
  | 2 => e.source + e.place * 2 ^ 8 + e.count * 2 ^ 16 + e.flags.toNat * 2 ^ 32
  | _ => 0

/-- A doubleword of the memory control block, by its index (R303). -/
def controlWord (s : State) (i : Nat) : Nat :=
  if i = 0 then
    (if s.memReady then 2 ^ 16 else 0) + s.mapOut.toNat * 2 ^ 8 + s.d2d.toNat * 2 ^ 4 + s.phy.toNat
  else if i < 5 then
    match s.regions[i - 1]? with
    | some r => (32 - r.cap) * 2 ^ 8 + r.cap
    | none => 0
  else if i < 9 then
    match s.expanders[i - 5]? with
    | some e => if e.present then 2 ^ 16 + e.units else 0
    | none => 0
  else if 0x20 ≤ i ∧ i < 0x40 then
    match s.regions[(i - 0x20) / 8]? with
    | some r =>
      match r.redirects[(i - 0x20) % 8 / 2]? with
      | some e => if i % 2 = 0 then (redirectWords e).1 else (redirectWords e).2
      | none => 0
    | none => 0
  else if i = 0x40 then s.errHead.toNat
  else if 0x60 ≤ i ∧ i < 0x64 then
    match s.regions[i - 0x60]? with
    | some r => 4 * 2 ^ 8 + r.window
    | none => 0
  else if 0x100 ≤ i then
    match s.errors[(i - 0x100) / 4]? with
    | some e => errorWord e (i % 4)
    | none => 0
  else 0

/-! The sidecar array (R291, R299 to R301). -/

/-- The sidecar kind of a page (R301), 0 where none is listed (log 5). -/
def pageKind (s : State) (page : Nat) : Nat :=
  match s.kinds.find? (fun k => k.1 == page) with
  | some k => k.2
  | none => 0

/-- The halfwords of some bytes. -/
def halfwords : List Byte → List Nat
  | a :: b :: rest => (a.toNat + 256 * b.toNat) :: halfwords rest
  | _ => []

/-- Bits for the span of some exponent fields: 0 for a span of 0 (R300). -/
def spanBits (xs : List Nat) : Nat := bitLen (xs.foldl max 0 - xs.foldl min (xs.headD 0))

/-- The stored size of a 64-byte chunk in a kind; 64 means stored raw (R300). -/
def storedSize (kind : Nat) (bs : List Byte) : Nat :=
  let n := (bs.filter (fun b => b != 0#8)).length
  if kind = 0 then 64
  else if n = 0 then 0
  else if kind = 2 then min 64 (8 + n)
  else if kind = 3 then
    let h := halfwords bs
    min 64 (min (34 + 4 * spanBits (h.map (fun x => getBits x 7 8))) (46 + 4 * spanBits (h.map (fun x => getBits x 10 5))))
  else 64

/-- Whether a key lies in the sidecar array of a home region (R291). -/
def isSidecarKey (key : Nat) : Bool := decide (key < 0x10000000000) && decide (key % regionSpan < 0x100000000)

/-- SIZE of chunk `i` of a page, as the expander keeps it (R301; log 25); 0 beyond the 64 chunks. -/
def chunkSize (s : State) (page i : Nat) : Nat :=
  if i < 64 then storedSize (pageKind s page) (memReadBytes s.mem (page * 4096 + 64 * i) 64) else 0

/-- Byte `k` of the sidecar line of a page: KIND in the lowest bits, SIZE of chunk i at bits [70 + 7i : 64 + 7i] (R301). -/
def sidecarByte (s : State) (page k : Nat) : Byte :=
  if k < 8 then byteOf (pageKind s page / 256 ^ k)
  else
    let lo := 8 * (k - 8)
    let i := lo / 7
    byteOf ((chunkSize s page i + chunkSize s page (i + 1) * 2 ^ 7) / 2 ^ (lo % 7))

/-- The page that the sidecar line at a key describes (R291, R301). -/
def sidecarPage (key : Nat) : Nat := key / regionSpan * (regionSpan / 4096) + key % regionSpan / 64

/-- The byte at a key: a register byte in the memory control block, a byte of a sidecar line in a sidecar array, a byte of memory
elsewhere. -/
def readKey (s : State) (key : Nat) : Byte :=
  if isControlKey key then byteOf (controlWord s ((key - 0x40000000000) / 8) / 256 ^ (key % 8))
  else if isSidecarKey key then sidecarByte s (sidecarPage key) (key % 64)
  else memRead s.mem key

/-- The aperture classes that reach a byte, where there is more than one: the three of a home region, the two windows of a scratchpad
(R288, R289, R377). -/
def aliasClasses (key : Nat) : List Aperture :=
  if isScratchKey key then [.gangScratchpad, .absoluteScratchpad]
  else if key % 2 ^ 53 < 0x10000000000 then [.cached, .uncached, .nearMemory]
  else []

/-- The older value that reads see, none where they see the byte itself. -/
def StaleByte.value (x : StaleByte) : Option Byte := x.shown.bind (fun n => (x.older[n]?).map (fun v => v.1))

/-- The byte a read through an aperture gives: what its class still sees of it (R377), else the byte itself. -/
def readThrough (s : State) (ap : Aperture) (key : Nat) : Byte :=
  ((s.stale.find? (fun x => x.ap == ap && x.key == key)).bind StaleByte.value).getD (readKey s key)

/-- `n` bytes from a key, read through an aperture. -/
def readThroughs (s : State) (ap : Aperture) (key : Nat) : Nat → List Byte
  | 0 => []
  | n + 1 => readThrough s ap key :: readThroughs s ap (key + 1) n

/-- Whether the byte at a key is poisoned (R304); a load from a device whose route is down is (R462). -/
def keyPoisoned (s : State) (key : Nat) : Bool :=
  routeDown s key || s.poison.any (fun u => decide (u.base ≤ key) && decide (key < u.base + u.size))

/-- `n` bytes from a key. -/
def readKeys (s : State) (key : Nat) : Nat → List Byte
  | 0 => []
  | n + 1 => readKey s key :: readKeys s (key + 1) n

/-! Stores. -/

/-- The unit a byte's poison covers: 8 bytes in scratchpad, a 64-byte line elsewhere (R304). -/
def unitOf (key : Nat) : PoisonUnit :=
  if isScratchKey key then ⟨key / 8 * 8, 8⟩ else ⟨key / 64 * 64, 64⟩

/-- Whether a hart's reservation lies on a line. -/
def onLine (h : Hart) (line : Nat) : Bool := h.reservation == some line

/-- A hart without a reservation on any of the lines (R113). -/
def Hart.dropLines (lines : List Nat) (h : Hart) : Hart :=
  match h.reservation with
  | some l => if lines.contains l then { h with reservation := none } else h
  | none => h

/-- Every reservation on the lines lost (R113). -/
def dropReservations (lines : List Nat) (s : State) : State :=
  { s with hart := s.hart.dropLines lines, others := s.others.map (Hart.dropLines lines) }

/-- One byte write applied: only the bits of its mask change (R313); the memory control block ignores writes (R303), and a
store to a device whose route is down is dropped (R462). -/
def applyWrite (s : State) (w : ByteWrite) : State :=
  if isControlKey w.key || routeDown s w.key then s
  else
    let old := memRead s.mem w.key
    { s with mem := memWrite s.mem w.key ((old &&& ~~~w.mask) ||| (w.value &&& w.mask)) }

/-- Whether a write lands: not in the memory control block, which ignores it (R303), nor on a device whose route is down (R462). -/
def lands (s : State) (w : ByteWrite) : Bool := !(isControlKey w.key || routeDown s w.key)

/-- The bits of a byte that the clean writes of a list write. -/
def cleanBits (ws : List ByteWrite) (key : Nat) : Byte :=
  ws.foldl (fun m w => if w.key == key && !w.poison then m ||| w.mask else m) 0#8

/-- Whether every byte of a unit is written whole and clean by a store (R304). -/
def unitCleared (ws : List ByteWrite) (u : PoisonUnit) : Bool :=
  (List.range u.size).all (fun i => cleanBits ws (u.base + i) == 0xFF#8)

/-- A unit with what its poison reaches: the 64 chunks of the page a sidecar line describes (R304). -/
def unitReach (u : PoisonUnit) : List PoisonUnit :=
  if isSidecarKey u.base then u :: (List.range 64).map (fun i => ⟨sidecarPage u.base * 4096 + 64 * i, 64⟩) else [u]

/-- A unit in a list of poisoned ones, once. -/
def insertUnit (us : List PoisonUnit) (u : PoisonUnit) : List PoisonUnit := if us.contains u then us else us ++ [u]

/-- A unit poisoned, with what its poison reaches. -/
def addPoison (us : List PoisonUnit) (u : PoisonUnit) : List PoisonUnit := (unitReach u).foldl insertUnit us

/-- The poisoned units after a store: a unit written whole becomes clean, the unit of a poisoned byte becomes poisoned. -/
def poisonAfter (ws : List ByteWrite) (us : List PoisonUnit) : List PoisonUnit :=
  let kept := if us.isEmpty then us else us.filter (fun u => !unitCleared ws u)
  (ws.filter (fun w => w.poison)).foldl (fun acc w => addPoison acc (unitOf w.key)) kept

/-- Bytes of the unit an error entry names: 8 for L2 and scratchpad, a 64-byte line otherwise (R398). -/
def ErrorEntry.size (e : ErrorEntry) : Nat := if e.source = 3 ∨ e.source = 4 then 8 else 64

/-- Whether some poisoned unit lies in the unit an error entry names. -/
def ErrorEntry.poisonedIn (e : ErrorEntry) (us : List PoisonUnit) : Bool :=
  us.any (fun u => decide (e.address ≤ u.base) && decide (u.base < e.address + e.size))

/-- The error entries after poison has gone: an entry whose whole unit has become clean gets CLEARED (R398). -/
def errorsAfter (before after : List PoisonUnit) (es : List ErrorEntry) : List ErrorEntry :=
  es.map (fun e => if e.poisonedIn before && !e.poisonedIn after then { e with flags := e.flags ||| 2#4 } else e)

/-- A range zeroed: its bytes, the poison of its units, and CLEARED in the error entries it covers (R48, R398, R467). -/
def zeroRange (base size : Nat) (s : State) : State :=
  let p := s.poison.filter (fun u => !(decide (base ≤ u.base) && decide (u.base < base + size)))
  { s with
    mem := memErase s.mem base size, poison := p, stale := s.stale.filter (fun x => !(decide (base ≤ x.key) && decide (x.key < base + size))),
    errors := errorsAfter s.poison p s.errors }

/-- The sidecar kind of a page set (R301). -/
def setPageKind (s : State) (page kind : Nat) : State :=
  { s with kinds := (if kind = 0 then [] else [(page, kind)]) ++ s.kinds.filter (fun k => k.1 != page) }

/-- A class's view of a byte after a write over a value of it. A write of the class is what it sees, and of the older values only those
of other classes stay; a write of another class adds the value to the older ones, which the schedule may let it go on to see (R377;
log 8). -/
def StaleByte.note (x : StaleByte) (own hold : Bool) (old : Byte) : StaleByte :=
  let older := x.older ++ [(old, x.other)]
  if own then { x with older := older.filter (fun v => v.2), shown := none, other := false }
  else { x with older := older, shown := x.shown.or (if hold then some x.older.length else none), other := true }

/-- What the classes of a byte see of it after a write: a class that keeps no older value begins to where the schedule lets it see one. -/
def noteStale (s : State) (l : List StaleByte) (w : ByteWrite) : List StaleByte :=
  let old := memRead s.mem w.key
  let fresh := (aliasClasses w.key).filter (fun a => s.holdAlias && a != w.ap && !(l.any (fun x => x.ap == a && x.key == w.key)))
  (l.map (fun x => if x.key = w.key then x.note (x.ap == w.ap) s.holdAlias old else x)).filter (fun x => !x.older.isEmpty) ++
    fresh.map (fun a => StaleByte.note ⟨a, w.key, [], none, false⟩ false true old)

/-- Which of the older values of a byte reads through an aperture see from now on, none for the byte itself (R377; log 8). -/
def State.showStale (s : State) (ap : Aperture) (key : Nat) (shown : Option Nat) : State :=
  { s with stale := s.stale.map (fun x => if x.ap = ap ∧ x.key = key then { x with shown := shown } else x) }

/-- What the aperture classes see of other classes' writes after a store (R377). -/
def staleAfter (s : State) (ws : List ByteWrite) : List StaleByte :=
  if s.holdAlias || !s.stale.isEmpty then (ws.filter (lands s)).foldl (noteStale s) s.stale else s.stale

/-- A store performed: its bytes in order, the poison of its units, the reservations it takes (R113, R304), and what other aperture
classes still see (R377). -/
def storeBytes (ws : List ByteWrite) (s : State) : State :=
  let s1 := ws.foldl applyWrite s
  let p := poisonAfter (ws.filter (lands s)) s1.poison
  dropReservations (ws.map (fun w => w.key / 64))
    { s1 with
      poison := p, stale := staleAfter s ws, errors := if s1.poison = p then s1.errors else errorsAfter s1.poison p s1.errors }

/-- A whole, clean write of one byte through the cached aperture, or of an agent that uses none. -/
def byteWrite (key : Nat) (b : Byte) : ByteWrite := ⟨key, b, 0xFF#8, false, .cached⟩

/-- Clean writes of consecutive bytes from a key. -/
def runWrites : Nat → List Byte → List ByteWrite
  | _, [] => []
  | k, b :: bs => byteWrite k b :: runWrites (k + 1) bs

/-- A run of bytes stored by an agent that supplies no compression kind of its own (R389). -/
def storeRun (key : Nat) (bs : List Byte) (s : State) : State := storeBytes (runWrites key bs) s

/-- The core, the bank and the offset in it of a scratchpad key (R285, R296). -/
def bankOfKey (key : Nat) : Option (Nat × Nat × Nat) :=
  if isScratchKey key then
    let r := key - 0x30000000000
    some (r / 0x200000, r % 0x200000 / Config.bankBytes, r % 0x200000 % Config.bankBytes)
  else none

/-- The arrival pointer of a bank: its end unless a copy to it is in flight (R298). -/
def arrivalPointer (s : State) (core bank : Nat) : Nat :=
  match (s.cores[core]?).bind (fun c => c.arrival.find? (fun a => a.1 == bank)) with
  | some a => a.2
  | none => Config.bankBytes

/-- An arrival pointer set, or with `none` back at the end of its bank (R298). -/
def setArrival (s : State) (core bank : Nat) (ap : Option Nat) : State :=
  match s.cores[core]? with
  | some c =>
    let rest := c.arrival.filter (fun a => a.1 != bank)
    { s with cores := s.cores.setIfInBounds core { c with arrival := (ap.elim rest (fun n => (bank, n) :: rest)) } }
  | none => s

/-- The banks that some keys touch, each with its lowest offset (R298). -/
def banksTouched : List Nat → List ((Nat × Nat) × Nat)
  | [] => []
  | k :: ks =>
    let r := banksTouched ks
    match bankOfKey k with
    | some (c, b, o) =>
      let low := match r.find? (fun x => x.1 == (c, b)) with | some x => min x.2 o | none => o
      ((c, b), low) :: r.filter (fun x => x.1 != (c, b))
    | none => r

/-- The writes of an entry still to be performed: a write that has landed is left with an empty mask (R298). -/
def VsqEntry.pending (e : VsqEntry) : List ByteWrite := e.writes.filter (fun w => w.mask != 0#8)

/-- Eight bytes at a key as a word. -/
def readWordAt (s : State) (key : Nat) : Word := wordOfBytes (readKeys s key 8)

/-- Whether a TLB entry answers for an address space and page (R390): the G of its leaf makes it global (log 59). -/
def TlbEntry.hits (t : TlbEntry) (realm asid vpage : Nat) : Bool :=
  t.realm == realm && (t.asid == asid || t.leaf.getLsbD 5) && t.vpage == vpage

/-- Whether two leaves are one but for their A and D bits. -/
def sameLeaf (a b : Word) : Bool := (a ||| 0xC0#64) == (b ||| 0xC0#64)

/-- A and D set in a leaf entry, as one atomic update, and the translation kept in the TLB (R388, R390); nothing where the entry has
been rewritten since it was read. -/
def State.applyMark (s : State) (m : LeafMark) : State :=
  let e := m.entry
  let now := readWordAt s e.leafAddr
  let s1 := if m.bits = 0#64 ∨ sameLeaf now e.leaf = false then s else storeRun e.leafAddr (wordBytes (now ||| m.bits)) s
  { s1 with tlb := e :: s1.tlb.filter (fun o => !(o.hits e.realm e.asid e.vpage)) }

/-- A store queue's entry performed: the A and D bits of its access (R388), its bytes, the kind of the pages it writes (R301, R318), and
the arrival pointers of a copy that is done (R298). -/
def performEntry (e : VsqEntry) (s : State) : State :=
  let s0 := e.marks.foldl State.applyMark s
  let s1 := e.kinds.foldl (fun t k => setPageKind t k.1 k.2) (storeBytes e.pending s0)
  if e.arrival then (banksTouched (e.writes.map ByteWrite.key)).foldl (fun t b => setArrival t b.1.1 b.1.2 none) s1 else s1

end Sys2Proof.Machine
end

