-- ==== Sys2Proof/Machine/Ops.lean ====
section
/-! DEFINITION. The operations every meaning shares: registers, harts, gangs and launches, counters, free values, and taking
and leaving a base exception (R400, R401, R404, R434; the RV64 base). -/

namespace Sys2Proof.Machine

/-- What an instruction or event answers. -/
abbrev Res := Host.Outcome State Fault Refusal

/-! Registers of a hart. -/

/-- x[r]; x0 reads 0. -/
def Hart.getX (h : Hart) (r : XReg) : Word := if r = 0#5 then 0#64 else h.x[r.toNat]

/-- x[r] := v; a write to x0 is discarded. -/
def Hart.setX (h : Hart) (r : XReg) (v : Word) : Hart :=
  if r = 0#5 then h else { h with x := h.x.set r.toNat v }

/-- f[r]. -/
def Hart.getF (h : Hart) (r : XReg) : Word := h.f[r.toNat]

/-- f[r] := v. -/
def Hart.setF (h : Hart) (r : XReg) (v : Word) : Hart := { h with f := h.f.set r.toNat v }

/-- The vector register numbered `n`. -/
def Hart.getV (h : Hart) (n : Nat) : VReg := (h.v[n]?).getD VReg.reset

/-- The vector register numbered `n` replaced. -/
def Hart.setV (h : Hart) (n : Nat) (r : VReg) : Hart := { h with v := h.v.setIfInBounds n r }

/-- Mask mk: m0 reads as all ones (R199). -/
def Hart.getM (h : Hart) (k : MaskNo) : Nat := if k = 0#3 then 2 ^ 16384 - 1 else h.m[k.toNat].toNat

/-- Mask mk := v; a write to m0 is discarded (R199). -/
def Hart.setM (h : Hart) (k : MaskNo) (v : Nat) : Hart :=
  if k = 0#3 then h else { h with m := h.m.set k.toNat (BitVec.ofNat 16384 v) }

/-- Tile tn. -/
def Hart.getT (h : Hart) (t : TileNo) : Tile := h.t[t.toNat]

/-- Tile tn replaced. -/
def Hart.setT (h : Hart) (t : TileNo) (v : Tile) : Hart := { h with t := h.t.set t.toNat v }

/-- Flags ORed into `vflags` (R84, R86). -/
def Hart.orFlags (h : Hart) (fl : Nat) : Hart := { h with vflags := h.vflags ||| BitVec.ofNat 9 fl }

/-- The current hart replaced by a function of it. -/
def State.onHart (s : State) (f : Hart → Hart) : State := { s with hart := f s.hart }

/-- The current hart's PC set. -/
def State.setPc (s : State) (pc : Word) : State := { s with hart := { s.hart with pc := pc } }

/-- x[r] := v on the current hart. -/
def State.setX (s : State) (r : XReg) (v : Word) : State := { s with hart := s.hart.setX r v }

/-! Harts of the device. -/

/-- The hart with a device hart number, if one is in use. -/
def State.findHart (s : State) (hid : Nat) : Option Hart :=
  if s.hart.hid = hid then some s.hart else s.others.find? (fun h => h.hid == hid)

/-- The hart with the number of `h` replaced by `h`. -/
def State.putHart (s : State) (h : Hart) : State :=
  if s.hart.hid = h.hid then { s with hart := h }
  else { s with others := s.others.map (fun o => if o.hid = h.hid then h else o) }

/-- Harts by number. -/
def insertHart (h : Hart) : List Hart → List Hart
  | [] => [h]
  | o :: os => if h.hid < o.hid then h :: o :: os else if h.hid = o.hid then h :: os else o :: insertHart h os

/-- The other hart `hid` made the current one, if it is in use. -/
def State.switchTo (s : State) (hid : Nat) : State :=
  if s.hart.hid = hid then s
  else
    match s.others.find? (fun h => h.hid == hid) with
    | some h =>
      let rest := s.others.filter (fun o => o.hid != hid)
      { s with hart := h, others := if s.hart.run = .free then rest else insertHart s.hart rest }
    | none => s

/-- A step of the device done by the hart `hid`, the current hart kept. -/
def State.withHart (s : State) (hid : Nat) (f : State → Res) : Res :=
  if s.hart.hid = hid then f s
  else if s.others.any (fun h => h.hid == hid) then
    match f (s.switchTo hid) with
    | .next t => .next (t.switchTo s.hart.hid)
    | .fault r => .fault r
    | .refused r => .refused r
  else .next s

/-- Every hart in use. -/
def State.harts (s : State) : List Hart := s.hart :: s.others

/-! Gangs and launches. -/

/-- The gang with a key. -/
def State.findGang (s : State) (key : Nat) : Option Gang := s.gangs.find? (fun g => g.key == key)

/-- A gang replaced. -/
def State.putGang (s : State) (g : Gang) : State :=
  { s with gangs := s.gangs.map (fun o => if o.key = g.key then g else o) }

/-- The launch with a key. -/
def State.findLaunch (s : State) (key : Nat) : Option Launch := s.launches.find? (fun l => l.key == key)

/-- A launch replaced. -/
def State.putLaunch (s : State) (l : Launch) : State :=
  { s with launches := s.launches.map (fun o => if o.key = l.key then l else o) }

/-- The gang of a hart. -/
def State.gangOf (s : State) (h : Hart) : Option Gang := h.gang.bind s.findGang

/-- The launch of a hart. -/
def State.launchOf (s : State) (h : Hart) : Option Launch := (s.gangOf h).bind (fun g => s.findLaunch g.launch)

/-- `len` bytes at `off` of a launch record, as a number (R349). -/
def recField (r : LaunchRecord) (off len : Nat) : Nat := getBits r.toNat (8 * off) (8 * len)

/-- The realm of a record (R349, R453). -/
def recRealm (r : LaunchRecord) : Nat := recField r 0x40 4

/-- A record with its realm field replaced (R49, R351, R459). -/
def recSetRealm (r : LaunchRecord) (realm : Nat) : LaunchRecord := BitVec.ofNat 1024 (setBits r.toNat (8 * 0x40) 32 realm)

/-- The realm of the launch a hart runs for; 0 for a hart of no launch (R454). -/
def State.realmOf (s : State) (h : Hart) : Nat := ((s.launchOf h).map (fun l => recRealm l.record)).getD 0

/-- The quads of a hart's gang: the lane mask (R30); all four for a hart of no gang. -/
def State.quadsOf (s : State) (h : Hart) : BitVec 4 := ((s.gangOf h).map (fun g => g.quads)).getD 0xF#4

/-- Lanes of a quad mask (R30). -/
def quadLanes (q : BitVec 4) : Nat := 4 * popCount 4 q.toNat

/-- `lanes()` of a hart (R6). -/
def State.lanes (s : State) (h : Hart) : Nat := quadLanes (s.quadsOf h)

/-- The core a hart number lies on (R12). -/
def coreOfHart (hid : Nat) : Nat := hid / Config.hartsPerCore

/-- The state of a core. -/
def State.core (s : State) (c : Nat) : CoreState := (s.cores[c]?).getD CoreState.reset

/-- A core replaced. -/
def State.setCore (s : State) (c : Nat) (x : CoreState) : State := { s with cores := s.cores.setIfInBounds c x }

/-- The profile mask of a hart's launch; every profile for a hart of no launch (R10, R148). -/
def State.profiles (s : State) (h : Hart) : Nat := ((s.launchOf h).map (fun l => recField l.record 0x44 4)).getD 0x1F

/-- The absolute key of a scratchpad bank of a core (R285, R296). -/
def bankKey (core bank : Nat) : Nat := 0x30000000000 + core * 0x200000 + bank * Config.bankBytes

/-- The agent a hart is in a mode. -/
def State.agent (s : State) (h : Hart) (mode : Mode) : Agent where
  mode := mode
  realm := s.realmOf h
  banks := match s.gangOf h with | some g => g.banks.map (bankKey g.core) | none => []
  satp := h.satp
  sum := h.mstatus.getLsbD 18

/-- The agent that firmware, a dispatcher or the context engine is (R454). -/
def engineAgent : Agent := ⟨.machine, 0, [], 0#64, false⟩

/-- The agent of a realm's access made for it below M mode through physical addresses (R49, R454). -/
def realmAgent (realm : Nat) : Agent := ⟨.supervisor, realm, [], 0#64, false⟩

/-! Free values (log 10). -/

/-- The next free value, and the state that has handed it out. -/
def State.takeFree (s : State) : Word × State :=
  (Config.freeValue s.freeCounter, { s with freeCounter := s.freeCounter + 1 })

/-! Counters (R430 to R434). -/

/-- Whether a counter's filters pass a hart event of a mode on a local hart (R432). -/
def eventPasses (e : BitVec 27) (mode : Mode) (localHart : Nat) : Bool :=
  (match mode with | .user => e.getLsbD 24 | .supervisor => e.getLsbD 25 | .machine => e.getLsbD 26) &&
  ((getBits e.toNat 16 8) == 0 || e.getLsbD (16 + localHart))

/-- The counters of a core after `amount` events of a code, where `passes` says which selectors count it. -/
def bumpCounters (c : CoreState) (code amount : Nat) (passes : BitVec 27 → Bool) : CoreState :=
  { c with hpm := Vector.ofFn (fun (i : Fin 16) =>
      let e := c.event[i]
      if getBits e.toNat 0 16 = code ∧ passes e = true ∧ c.inhibit.getLsbD i.val = false
      then c.hpm[i] + BitVec.ofNat 64 amount else c.hpm[i]) }

/-- A hart event of the current hart, of an instruction dispatched in `mode` (R433). -/
def State.countHart (s : State) (code amount : Nat) (mode : Mode) : State :=
  if amount = 0 then s
  else
    let c := coreOfHart s.hart.hid
    s.setCore c (bumpCounters (s.core c) code amount (fun e => eventPasses e mode (s.hart.hid % 8)))

/-- A core event (R433). -/
def State.countCore (s : State) (core code amount : Nat) : State :=
  if amount = 0 then s else s.setCore core (bumpCounters (s.core core) code amount (fun _ => true))

/-- Hart events whose moments depend on timing that the model does not fix: their counters go on by free numbers (R433; log 11). -/
def timingHartEvents : List Nat := [0x0A, 0x0C, 0x0D, 0x0E, 0x15, 0x17, 0x1E]

/-- Core events of that kind (R433; log 11). -/
def timingCoreEvents : List Nat := [0x06, 0x09, 0x0F, 0x16, 0x18, 0x19]

/-- Whether a selector's hart filter passes a hart of a core that is in use (R432). -/
def State.filterUsed (s : State) (core : Nat) (e : BitVec 27) : Bool :=
  s.harts.any (fun h => h.run != .free && coreOfHart h.hid == core &&
    (getBits e.toNat 16 8 == 0 || e.getLsbD (16 + h.hid % Config.hartsPerCore)))

/-- Whether a selector of a core may count a timing event now: a hart event needs a mode and a hart in use that pass (R432, R433). -/
def State.timed (s : State) (core : Nat) (e : BitVec 27) : Bool :=
  let code := getBits e.toNat 0 16
  timingCoreEvents.contains code || (timingHartEvents.contains code && getBits e.toNat 24 3 != 0 && s.filterUsed core e)

/-- Whether counter `i` of a core may count a timing event now. -/
def State.hpmOpen (s : State) (core i : Nat) : Bool :=
  let c := s.core core
  s.timed core ((c.event[i]?).getD 0#27) && !(c.inhibit.getLsbD i)

/-- A counter of a core set, with no withdrawal left that it may not have counted. -/
def State.setHpm (s : State) (core i : Nat) (v : Word) : State :=
  let c := s.core core
  s.setCore core { c with hpm := c.hpm.setIfInBounds i v, slack := c.slack.setIfInBounds i 0 }

/-- Counter `i` of a core as read: where it may count a timing event it has gone on by a free number of events, by a free number of
the chaining withdrawals that may have happened, and keeps what was read (R434, R442; log 11, 62). -/
def readHpm (s : State) (core i : Nat) : Word × State :=
  let v := ((s.core core).hpm[i]?).getD 0#64
  let slack := ((s.core core).slack[i]?).getD 0
  if s.hpmOpen core i then
    let (f, s1) := s.takeFree
    (v + f, s1.setHpm core i (v + f))
  else if slack ≠ 0 then
    let (f, s1) := s.takeFree
    let n := v + BitVec.ofNat 64 (f.toNat % (slack + 1))
    (n, s1.setHpm core i n)
  else (v, s)

/-- Chaining withdrawals of the current hart that may have happened, added to the slack of the counters that would count them (R433,
R442; log 11). -/
def State.addSlack (s : State) (amount : Nat) (mode : Mode) : State :=
  if amount = 0 then s
  else
    let core := coreOfHart s.hart.hid
    let c := s.core core
    s.setCore core { c with slack := Vector.ofFn (fun (i : Fin 16) =>
      let e := c.event[i]
      if getBits e.toNat 0 16 = 3 ∧ eventPasses e mode (s.hart.hid % 8) = true ∧ c.inhibit.getLsbD i.val = false
      then c.slack[i] + amount else c.slack[i]) }

/-! Chaining (R35, R182, R442). -/

/-- The bit of the chaining mask for a pair of units, none for a pair that never chains (R182). -/
def chainBit : VUnit → VUnit → Option Nat
  | .valu, .valu => some 5
  | .valu, .lsu => some 4
  | .mxu, .valu => some 3
  | .valu, .mxu => some 2
  | .lsu, .mxu => some 1
  | .lsu, .valu => some 0
  | _, _ => none

/-- Whether a core lets a consumer on a unit chain on a producer on another (R35, R182). -/
def CoreState.chains (c : CoreState) (producer consumer : VUnit) : Bool :=
  (chainBit producer consumer).any (fun b => c.chainperm.getLsbD b)

/-- Whether the mask of a core disables a pair that could chain (R442). -/
def CoreState.withdraws (c : CoreState) (producer consumer : VUnit) : Bool :=
  (chainBit producer consumer).any (fun b => !(c.chainperm.getLsbD b))

/-- A counter's timing events up to now counted, before its selector, its inhibit bit or the chaining mask changes. -/
def settleHpm (s : State) (core i : Nat) : State := (readHpm s core i).2

/-- The counters of a core settled. -/
def settleCounters (s : State) (core : Nat) : State := (List.range 16).foldl (fun t i => settleHpm t core i) s

/-- The chaining mask of a core written (R182, R442). -/
def writeChainperm (s : State) (core n : Nat) : State :=
  let s1 := settleCounters s core
  s1.setCore core { s1.core core with chainperm := BitVec.ofNat 6 n }

/-- An instruction of the current hart retired or completed (R430). -/
def State.retire (s : State) : State :=
  if s.hart.irInhibit then s else { s with hart := { s.hart with instret := s.hart.instret + 1#64 } }

/-- The current hart past its instruction: PC + 4 and one instruction retired. -/
def State.advance (s : State) : State := (s.setPc (s.hart.pc + 4#64)).retire

/-! Base exceptions (the RV64 base; R400). -/

/-- The number of a mode in MPP. -/
def Mode.bits : Mode → Nat
  | .user => 0 | .supervisor => 1 | .machine => 3

/-- The mode of an MPP field; the reserved code reads as U. -/
def Mode.ofBits (x : Nat) : Mode := if x = 3 then .machine else if x = 1 then .supervisor else .user

/-- A field of a 64-bit register. -/
def wordField (w : Word) (lo n : Nat) : Nat := getBits w.toNat lo n

/-- A field of a 64-bit register replaced. -/
def setWordField (w : Word) (lo n v : Nat) : Word := BitVec.ofNat 64 (setBits w.toNat lo n v)

/-- Whether a cause is delegated from the current mode to S. -/
def Hart.delegated (h : Hart) (cause : Nat) (interrupt : Bool) : Bool :=
  h.mode != .machine && (if interrupt then h.mideleg else h.medeleg).getLsbD cause

/-- `mstatus` on entry to S: SPP, SPIE and SIE set as the base sets them. -/
def statusIntoS (m : Word) (mode : Mode) : Word :=
  let m1 := setWordField m 8 1 (if mode = .user then 0 else 1)
  let m2 := setWordField m1 5 1 (wordField m 1 1)
  setWordField m2 1 1 0

/-- `mstatus` on entry to M: MPP, MPIE and MIE. -/
def statusIntoM (m : Word) (mode : Mode) : Word :=
  let m1 := setWordField m 11 2 mode.bits
  let m2 := setWordField m1 7 1 (wordField m 3 1)
  setWordField m2 3 1 0

/-- The handler's address: the base of a vector register, plus four times the cause of an interrupt in vectored mode. -/
def handlerPc (tvec : Word) (cause : Nat) (interrupt : Bool) : Word :=
  let base := setWordField tvec 0 2 0
  if interrupt = true ∧ wordField tvec 0 2 = 1 then base + BitVec.ofNat 64 (4 * cause) else base

/-- The cause register's value. -/
def causeWord (cause : Nat) (interrupt : Bool) : Word := BitVec.ofNat 64 (cause + (if interrupt then 2 ^ 63 else 0))

/-- A hart entering S mode: `sepc`, `scause`, `stval`, the status, the mode, the PC; its reservation is lost (R113). -/
def Hart.enterS (h : Hart) (cause : Nat) (interrupt : Bool) (epc tval : Word) : Hart :=
  { h with
    sepc := epc, scause := causeWord cause interrupt, stval := tval, mstatus := statusIntoS h.mstatus h.mode,
    mode := .supervisor, pc := handlerPc h.stvec cause interrupt, reservation := none }

/-- A hart entering M mode. -/
def Hart.enterM (h : Hart) (cause : Nat) (interrupt : Bool) (epc tval : Word) : Hart :=
  { h with
    mepc := epc, mcause := causeWord cause interrupt, mtval := tval, mstatus := statusIntoM h.mstatus h.mode,
    mode := .machine, pc := handlerPc h.mtvec cause interrupt, reservation := none }

/-- One trap of the current hart's launch taken to S mode added to its fault count, saturating (R49). -/
def State.countFault (s : State) : State :=
  match s.launchOf s.hart with
  | some l => s.putLaunch { l with faults := if l.faults < 2 ^ 32 - 1 then l.faults + 1 else l.faults }
  | none => s

/-- Taking a base exception or interrupt: to S where it is delegated, to M otherwise. The one entry every scalar exception
shares (R400): `epc` is the address saved and `tval` the trap value. -/
def State.takeTrap (s : State) (cause : Nat) (interrupt : Bool) (epc tval : Word) : State :=
  if s.hart.delegated cause interrupt then
    (s.onHart (fun h => h.enterS cause interrupt epc tval)).countFault
  else s.onHart (fun h => h.enterM cause interrupt epc tval)

/-- Whether older vector work of the current hart is still to complete (R404). -/
def Hart.hasVectorWork (h : Hart) : Bool := !h.viq.isEmpty || h.window.isSome || !h.next.isEmpty

/-- A scalar exception at the current instruction: taken once every older vector instruction has completed or trapped;
until then the hart only drains its vector stream, and the instruction is fetched and runs again (R404; log 58). -/
def State.raise (s : State) (cause : Nat) (tval : Word) : State :=
  if s.hart.hasVectorWork then s.onHart (fun h => { h with drainViq := true })
  else s.takeTrap cause false s.hart.pc tval

/-- A joint or ordered instruction that must wait for older vector work: it drains and runs again (R163, R348). -/
def State.drainFirst (s : State) : State := s.onHart (fun h => { h with drainViq := true })

/-- The illegal-instruction exception of R123, with the word as trap value. -/
def State.raiseIllegal (s : State) (word : InstrWord) : State := s.raise 2 (BitVec.ofNat 64 word.toNat)

/-- Return from M mode as the base has it. -/
def Hart.mret (h : Hart) : Hart :=
  let target := Mode.ofBits (wordField h.mstatus 11 2)
  let m1 := setWordField h.mstatus 3 1 (wordField h.mstatus 7 1)
  let m2 := setWordField m1 7 1 1
  let m3 := setWordField m2 11 2 0
  let m4 := if target = .machine then m3 else setWordField m3 17 1 0
  { h with mode := target, mstatus := m4, pc := h.mepc }

/-- The mode SPP names. -/
def Hart.spp (h : Hart) : Mode := if wordField h.mstatus 8 1 = 1 then .supervisor else .user

/-- Return from S mode as the base has it: the mode and status of `sret` and `vret` (R408). -/
def Hart.sret (h : Hart) : Hart :=
  let m1 := setWordField h.mstatus 1 1 (wordField h.mstatus 5 1)
  let m2 := setWordField m1 5 1 1
  let m3 := setWordField m2 8 1 0
  { h with mode := h.spp, mstatus := setWordField m3 17 1 0, pc := h.sepc }

/-! Halting (R48, R362, R402). -/

/-- A hart halted: nothing of it runs again; a pending near-memory error is dropped (R362), and so, the model's choice, are the values it
has not popped (log 64). -/
def Hart.halt (h : Hart) : Hart :=
  { h with run := .halted, viq := [], window := none, next := [], wait := none, stall := none, nmError := none, drainViq := false, pigeonhole := [] }

/-- A hart terminated by the compute supervisor or as if by it (R48, R402, R409). -/
def Hart.terminate (h : Hart) : Hart := { h.halt with run := .terminated }

/-- Whether a hart has halted. -/
def Hart.isHalted (h : Hart) : Bool := h.run == .halted || h.run == .terminated

/-- The current hart's launch marked as having a terminated hart (R49 status 4). -/
def State.markTerminated (s : State) : State :=
  match s.launchOf s.hart with
  | some l => s.putLaunch { l with terminated := true }
  | none => s

/-- The current hart terminated, and its launch marked. -/
def State.terminateHart (s : State) : State := s.markTerminated.onHart Hart.terminate

/-! Barriers (R357, R358). -/

/-- The harts of a gang. -/
def State.gangHarts (s : State) (g : Gang) : List Hart := s.harts.filter (fun h => h.gang == some g.key && h.run != .free)

/-- A phase that is complete ended (R357). -/
def Barrier.settle (b : Barrier) (halted : List Nat) : Barrier :=
  let there := b.arrived ++ halted.filter (fun r => !(b.arrived.contains r))
  if b.arrived ≠ [] ∧ b.count ≤ there.length then
    { count := b.pending.getD b.count, pending := none, phase := (b.phase + 1) % 2 ^ 16, arrived := [] }
  else b

/-- Whether a hart has halted and every store it completed is performed: then its accesses precede a phase that counts it (R382). -/
def Hart.isDone (h : Hart) : Bool := h.isHalted && h.vsq.isEmpty && h.ssq.isEmpty && h.slq.isEmpty

/-- Ranks of the halted harts of a gang whose stores are performed. -/
def haltedRanks (s : State) (g : Gang) : List Nat := ((s.gangHarts g).filter Hart.isDone).map Hart.rank

/-- Every barrier of a gang settled, as at the halt of one of its harts (R357, R365). -/
def settleBarriers (s : State) (g : Gang) : State :=
  s.putGang { g with barriers := g.barriers.map (fun b => b.settle (haltedRanks s g)) }

/-- The barriers of the current hart's gang settled. -/
def State.settleOwn (s : State) : State :=
  match s.gangOf s.hart with
  | some g => settleBarriers s g
  | none => s

/-! The window (R31, R32, R35). -/

/-- The instructions of a hart in the window, oldest first. -/
def Hart.windowed (h : Hart) : List InFlight := h.window.toList ++ h.next

/-- The vector instructions of a hart that have not completed, oldest first. -/
def Hart.inFlight (h : Hart) : List VEntry := h.windowed.map InFlight.entry ++ h.viq

/-- Whether a word is `nm` (R337). -/
def nmWord (w : InstrWord) : Bool := w.extractLsb' 0 7 == 0x57#7 && w.extractLsb' 12 3 == 0#3 && w.extractLsb' 28 4 == 15#4

/-- Whether an `nm` of a hart has not completed. -/
def Hart.nmQueued (h : Hart) : Bool := h.inFlight.any (fun e => nmWord e.word)

/-- A sum over a list. -/
def sumOver (l : List α) (f : α → Nat) : Nat := (l.map f).foldl (· + ·) 0

/-- Micro-ops in a core's window (R35). -/
def windowLoad (s : State) (core : Nat) : Nat :=
  sumOver (s.harts.filter (fun h => coreOfHart h.hid == core)) (fun h => sumOver h.windowed InFlight.microOps)

/-- The local hart admitted last in a core. -/
def State.setAdmitted (s : State) (core hid : Nat) : State :=
  s.setCore core { s.core core with lastAdmitted := hid % Config.hartsPerCore }

/-- Places between the hart admitted last on its core and a hart, in round-robin order (R32). -/
def State.roundPlace (s : State) (hid : Nat) : Nat :=
  (hid % Config.hartsPerCore + (Config.hartsPerCore - 1) - (s.core (coreOfHart hid)).lastAdmitted % Config.hartsPerCore) %
    Config.hartsPerCore

/-- Whether the head of one hart goes before that of another of its core: aged heads first, by age, then round-robin (R32). -/
def State.headBefore (s : State) (a b : Hart) : Bool :=
  match a.headAged, b.headAged with
  | some m, some n => decide (m < n) || (m == n && decide (a.hid < b.hid))
  | some _, none => true
  | none, some _ => false
  | none, none => decide (s.roundPlace a.hid < s.roundPlace b.hid)

/-- Whether a hart has a head that the schedule does not hold back. -/
def Hart.headReady (h : Hart) : Bool := h.run == .running && !h.viq.isEmpty && h.window.isNone && !h.holdViq

/-- Whether an instruction in the window has micro-ops to issue on lanes that the current hart's gang shares with another hart: they go
before those of an instruction admitted now (R31). -/
def State.lanesBusy (s : State) : Bool :=
  s.others.any (fun h => coreOfHart h.hid == coreOfHart s.hart.hid && (s.quadsOf h &&& s.quadsOf s.hart) != 0#4 &&
    h.windowed.any (fun w => w.microOps != 0))

/-- Whether the vector unit of the current hart's core may admit and run its head now: the window has room, its lanes are free (R31), and
no head of another hart that could be admitted goes before it (R32). -/
def State.admitsBefore (s : State) (could : Hart → Bool) : Bool :=
  decide (windowLoad s (coreOfHart s.hart.hid) < Config.windowDepth) && !s.lanesBusy &&
  !(s.others.any (fun h => coreOfHart h.hid == coreOfHart s.hart.hid && h.headReady && s.headBefore h s.hart && could h))

/-- Whether the vector unit may admit the current hart's instruction in the step that dispatches it: a head that waits counts as one that
could be admitted, so that the instruction then takes its turn in the VIQ (R32; log 2). -/
def State.admits (s : State) : Bool := s.admitsBefore (fun _ => true)

end Sys2Proof.Machine
end

