-- ==== Sys2Proof/Machine/Flags.lean ====
section
/-! DEFINITION. Rounding modes, sticky flags and the format the current `vtype` selects (R53, R80 to R86, R117). -/

namespace Sys2Proof.Machine

/-- The mode of `vfrm`, none for a reserved value (R80). -/
def vectorRounding (vfrm : BitVec 3) : Option Rnd :=
  match vfrm.toNat with
  | 0 => some .rne | 1 => some .rtz | 2 => some .rdn | 3 => some .rup | 4 => some .rmm | _ => none

/-- The mode an F or D instruction rounds in, none where `frm` holds a reserved value and the instruction uses it. -/
def scalarRounding (rm : Rm) (frm : BitVec 3) : Option Rnd :=
  match rm with
  | .rne => some .rne | .rtz => some .rtz | .rdn => some .rdn | .rup => some .rup | .rmm => some .rmm
  | .dyn => vectorRounding frm

/-- Flags of an F or D instruction ORed into `fcsr` (R117). -/
def Hart.orScalarFlags (h : Hart) (fl : Nat) : Hart := { h with fflags := h.fflags ||| BitVec.ofNat 5 fl }

/-- The floating-point format that a sew code and alt select (R53), none for an illegal pair. -/
def vtypeFormat (sew : Nat) (alt : Bool) : Option FFmt :=
  match sew, alt with
  | 0, false => some .fp4
  | 1, false => some .e2m3
  | 1, true => some .e3m2
  | 2, false => some .e4m3
  | 2, true => some .e5m2
  | 3, false => some .fp16
  | 3, true => some .bf16
  | 4, false => some .fp32
  | 5, false => some .fp64
  | _, _ => none

/-- The bits of a sew code (R165). -/
def sewBits (sew : Nat) : Nat :=
  match sew with
  | 0 => 4 | 1 => 6 | 2 => 8 | 3 => 16 | 4 => 32 | _ => 64

/-- The sew code of a width. -/
def sewOfBits (w : Nat) : Nat :=
  if w = 4 then 0 else if w = 6 then 1 else if w = 8 then 2 else if w = 16 then 3 else if w = 32 then 4 else 5

/-- The group code of a register count. -/
def grpOfCount (g : Nat) : Nat := if g ≤ 1 then 0 else if g = 2 then 1 else if g = 4 then 2 else 3

/-- The block size of a B code, 0 for none (R165). -/
def blockOf (code : Nat) : Nat :=
  match code with
  | 1 => 4 | 2 => 8 | 3 => 16 | 4 => 24 | 5 => 32 | _ => 0

/-- A NaN-boxed FP32 value of an f register; the canonical NaN where the upper half is not all ones (R201, the base). -/
def unbox32 (x : Word) : Nat := if getBits x.toNat 32 32 = 2 ^ 32 - 1 then getBits x.toNat 0 32 else canonicalNan .fp32

/-- An FP32 code NaN-boxed. -/
def box32 (code : Nat) : Word := BitVec.ofNat 64 (0xFFFFFFFF00000000 + code % 2 ^ 32)

end Sys2Proof.Machine
end

