-- ==== Sys2Proof/Machine/Translate.lean ====
section
/-! DEFINITION. Address translation (R385 to R391), the probe of a vector instruction (R314 to R317) and the access of a scalar
instruction (R112, R286, R304, R387). -/

namespace Sys2Proof.Machine

/-- What an access wants of a page. -/
inductive Access where
  | read | write | exec
deriving DecidableEq, Repr

/-- How a walk fails (R387): `reservedKind` with the physical page that the leaf gives, `locked` where an entry lies on a line held
locked, so that the access waits (R104, R334). -/
inductive XErr where
  | missing | denied | tableOutside | reservedKind (page : Nat) | locked
deriving DecidableEq, Repr

/-- Where a leaf entry was read: its table entry's key, its value and its level. -/
structure LeafSource where
  addr : Nat
  value : Word
  level : Nat
deriving DecidableEq, Repr

/-- A translated 4 KiB page: its physical base, its compression kind where a table gives one, and its leaf. -/
structure Leaf where
  page : Nat
  kind : Option Nat
  source : Option LeafSource
deriving DecidableEq, Repr

/-- Whether a 48-bit virtual address is canonical (R385). -/
def canonicalVa (va : Nat) : Bool := getBits va 47 17 == 0 || getBits va 47 17 == 2 ^ 17 - 1

/-- The table index of a level (R385). -/
def vpnOf (va level : Nat) : Nat := getBits va (12 + 9 * level) 9

/-- Whether a valid entry is a pointer (R386). -/
def ptePointer (e : Nat) : Bool := getBits e 1 3 == 0

/-- Whether a valid entry at a level is malformed (R386, R387); a pointer at level 0 is (log 19). -/
def pteMalformed (e level : Nat) : Bool :=
  e.testBit 11 ||
  (if ptePointer e then level == 0 || getBits e 8 3 != 0 || e.testBit 7 || e.testBit 6 || e.testBit 4
   else level == 3 || (e.testBit 2 && !e.testBit 1) || getBits e 12 (9 * level) != 0)

/-- Whether a leaf refuses an access (R387). -/
def pteRefuses (e : Nat) (mode : Mode) (sum : Bool) (acc : Access) : Bool :=
  (match acc with | .read => !e.testBit 1 | .write => !e.testBit 2 | .exec => !e.testBit 3) ||
  (match mode with | .user => !e.testBit 4 | .supervisor => e.testBit 4 && !sum | .machine => false)

/-- The physical page a leaf at a level gives for a virtual address (R385, R386). -/
def leafPage (e level va : Nat) : Nat :=
  let size := 12 + 9 * level
  getBits e size (64 - size) * 2 ^ size + getBits va 12 (9 * level) * 4096

/-- A leaf checked for an access: permission, then the compression kind (R387). -/
def checkLeaf (src : LeafSource) (va : Nat) (mode : Mode) (sum : Bool) (acc : Access) : Except XErr Leaf :=
  let e := src.value.toNat
  if pteRefuses e mode sum acc then .error .denied
  else if 4 ≤ getBits e 8 3 then .error (.reservedKind (leafPage e src.level va))
  else .ok ⟨leafPage e src.level va, some (getBits e 8 3), some src⟩

/-- The key of a table entry: the tables lie in the cached aperture of a local home region (R387). -/
def tableKey (s : State) (table index : Nat) : Option Nat :=
  let a := table * 4096 + 8 * index
  if a < 0x10000000000 then homeKey s engineAgent a else none

/-- Whether one of some bytes is poisoned. -/
def anyPoison (s : State) (key : Nat) : Nat → Bool
  | 0 => false
  | n + 1 => keyPoisoned s key || anyPoison s (key + 1) n

/-- Whether a byte lies on a line held locked (R104, R334). -/
def lineLocked (s : State) (key : Nat) : Bool := s.locks.any (fun l => l.line == key / 64)

/-- Whether a table entry cannot be read now: its line is held locked (R104, R334), or a store of the hart's scalar stream to it is still
to be performed, which the walk must observe (R387). -/
def entryHeld (s : State) (key : Nat) : Bool :=
  lineLocked s key || s.hart.ssq.any (fun x => x.pending.any (fun w => w.key / 8 == key / 8))

/-- The walk from a table: `n` levels are left, the table is at level `n − 1` (R385, R387). -/
def walk (s : State) (va : Nat) : Nat → Nat → Except XErr LeafSource
  | 0, _ => .error .denied
  | level + 1, table =>
    match tableKey s table (vpnOf va level) with
    | none => .error .tableOutside
    | some key =>
      if entryHeld s key then .error .locked
      else if anyPoison s key 8 then .error .tableOutside
      else
        let w := readWordAt s key
        let e := w.toNat
        if !e.testBit 0 then .error .missing
        else if pteMalformed e level then .error .denied
        else if ptePointer e then
          if getBits e 53 11 ≠ 0 then .error .tableOutside else walk s va level (getBits e 12 52)
        else .ok ⟨key, w, level⟩

/-- The ASID of a `satp`. -/
def satpAsid (satp : Word) : Nat := wordField satp 44 16

/-- Whether an agent translates (R385). -/
def Agent.translates (g : Agent) : Bool := g.mode != .machine && wordField g.satp 60 4 == 15

/-- Whether a leaf already has the A, and for a write the D, bit it needs (R388). -/
def leafMarked (w : Word) (acc : Access) : Bool := w.getLsbD 6 && (acc != .write || w.getLsbD 7)

/-- The leaf a TLB holds for a page. Where its A or D bit must be set, the entry in memory is read again: the access waits while it
cannot be, and the walk is repeated where it has changed since (R388, R399; log 12). -/
def tlbLeaf (s : State) (g : Agent) (va : Nat) (acc : Access) : Option (Except XErr LeafSource) :=
  match s.tlb.find? (fun t => t.hits g.realm (satpAsid g.satp) (va / 4096)) with
  | none => none
  | some t =>
    if leafMarked t.leaf acc then some (.ok ⟨t.leafAddr, t.leaf, t.level⟩)
    else if entryHeld s t.leafAddr then some (.error .locked)
    else if readWordAt s t.leafAddr = t.leaf then some (.ok ⟨t.leafAddr, t.leaf, t.level⟩)
    else none

/-- The page of a virtual address for an agent (R385 to R387). -/
def translate (s : State) (g : Agent) (acc : Access) (va : Nat) : Except XErr Leaf :=
  if !g.translates then .ok ⟨va / 4096 * 4096, none, none⟩
  else if !canonicalVa va then .error .denied
  else
    match (tlbLeaf s g va acc).getD (walk s va 4 (wordField g.satp 0 44)) with
    | .ok src => checkLeaf src va g.mode g.sum acc
    | .error e => .error e

/-- The A bit of a leaf, and for a write the D bit (R388). -/
def accessBits (acc : Access) : Word := if acc = .write then 0xC0#64 else 0x40#64

/-- The mark of an access to a page of a virtual address (R388, R390). -/
def leafMark (g : Agent) (acc : Access) (va : Nat) (leaf : Leaf) : Option LeafMark :=
  leaf.source.map (fun src =>
    ⟨⟨g.realm, satpAsid g.satp, va / 4096, src.value ||| accessBits acc, src.level, src.addr⟩, accessBits acc &&& ~~~src.value⟩)

/-- The mark of an access applied. -/
def markLeaf (s : State) (g : Agent) (acc : Access) (va : Nat) (leaf : Leaf) : State :=
  (leafMark g acc va leaf).elim s s.applyMark

/-! The probe of a vector instruction. -/

/-- A run of bytes inside one 64-byte line, translated. -/
structure Piece where
  va : Nat
  len : Nat
  ap : Aperture
  key : Nat
  kind : Option Nat
deriving DecidableEq, Repr

/-- What a probe is asked about one kind of access: who makes it, whether it writes, the byte ranges in order, the misaligned
addresses among them, and which aperture (local or remote) it accepts. -/
structure ProbeReq where
  agent : Agent
  write : Bool
  ranges : List (Nat × Nat)
  misaligned : List Nat
  accept : Aperture → Bool → Bool

/-- A failing probe (R315): the trap, and for causes 3 and 4 the missing pages, each with whether it would be written. -/
structure ProbeFail where
  cause : Nat
  tval : Word
  missing : List (Nat × Bool)
deriving DecidableEq, Repr

/-- A passed probe: the pieces of each range, and the leaf of each page. -/
structure Probed where
  pieces : List (List Piece)
  pages : List (Nat × Leaf)
deriving DecidableEq, Repr

/-- An address modulo 2^64 (R311). -/
def wrap (a : Nat) : Nat := a % 2 ^ 64

/-- A range cut at 64-byte lines, by at most `n` cuts. -/
def cutRange : Nat → Nat → Nat → List (Nat × Nat)
  | 0, _, _ => []
  | n + 1, va, len =>
    if len = 0 then []
    else
      let here := 64 - va % 64
      if len ≤ here then [(wrap va, len)] else (wrap va, here) :: cutRange n (va + here) (len - here)

/-- The pieces of a range before translation. -/
def linesOf (r : Nat × Nat) : List (Nat × Nat) := cutRange (r.2 / 64 + 2) (wrap r.1) r.2

/-- A number put into a rising list once. -/
def insertOnce (x : Nat) : List Nat → List Nat
  | [] => [x]
  | y :: ys => if x < y then x :: y :: ys else if x = y then y :: ys else y :: insertOnce x ys

/-- Numbers put into a rising list once each. -/
def risingOf (xs : List Nat) : List Nat := xs.foldl (fun acc x => insertOnce x acc) []

/-- The 4 KiB pages of some pieces, rising. -/
def pagesOf (ps : List (List (Nat × Nat))) : List Nat :=
  risingOf (ps.flatMap (fun r => r.map (fun p => p.1 / 4096)))

/-- The least number of a list. -/
def leastOf : List Nat → Option Nat
  | [] => none
  | x :: xs =>
    match leastOf xs with
    | none => some x
    | some y => some (if x ≤ y then x else y)

/-- The outcome of each page. -/
abbrev PageMap := List (Nat × Except XErr Leaf)

/-- The outcome of a page in the map. -/
def PageMap.get (m : PageMap) (page : Nat) : Except XErr Leaf :=
  match m.find? (fun e => e.1 == page) with
  | some e => e.2
  | none => .error .denied

/-- The aperture and key of a physical address where the agent may reach it through an accepted aperture (R286, R320). -/
def reach (s : State) (r : ProbeReq) (pa : Nat) : Option (Aperture × Nat) :=
  match physKey s r.agent pa with
  | some (ap, key) => if r.accept ap (deviceOf pa == s.device) then some (ap, key) else none
  | none => none

/-- A piece located, where its page is translated and its bytes may be reached. -/
def locate (s : State) (r : ProbeReq) (m : PageMap) (p : Nat × Nat) : Option Piece :=
  match m.get (p.1 / 4096) with
  | .error _ => none
  | .ok leaf => (reach s r (leaf.page + p.1 % 4096)).map (fun k => ⟨p.1, p.2, k.1, k.2, leaf.kind⟩)

/-- Whether a page is missing. -/
def pageMissing (m : PageMap) (page : Nat) : Bool :=
  match m.get page with
  | .error .missing => true
  | _ => false

/-- Whether a piece fails row 2 of R315; a page of a reserved kind has its address checked like any other. -/
def pieceForbidden (s : State) (r : ProbeReq) (m : PageMap) (p : Nat × Nat) : Bool :=
  match m.get (p.1 / 4096) with
  | .error .missing => false
  | .error (.reservedKind page) => (reach s r (page + p.1 % 4096)).isNone
  | .error _ => true
  | .ok _ => (locate s r m p).isNone

/-- Whether a piece lies on a page of a reserved kind (row 3 of R315). -/
def pieceReserved (m : PageMap) (p : Nat × Nat) : Bool :=
  match m.get (p.1 / 4096) with
  | .error (.reservedKind _) => true
  | _ => false

/-- Whether a page's walk meets a locked line. -/
def pageLocked (m : PageMap) (page : Nat) : Bool :=
  match m.get page with
  | .error .locked => true
  | _ => false

/-- One access of a probe with its pieces before translation and the outcome of its pages. -/
structure ProbeView where
  req : ProbeReq
  pieces : List (List (Nat × Nat))
  pages : PageMap

/-- The view of a request: every page it touches translated (R314). -/
def viewOf (s : State) (r : ProbeReq) : ProbeView :=
  let ps := r.ranges.map linesOf
  let acc := if r.write then Access.write else Access.read
  ⟨r, ps, (pagesOf ps).map (fun p => (p, translate s r.agent acc (p * 4096)))⟩

/-- The missing pages of some views, rising, each with whether the instruction would write it (R316). -/
def missingPages (vs : List ProbeView) : List (Nat × Bool) :=
  let missing (v : ProbeView) : List Nat := (v.pages.filter (fun e => pageMissing v.pages e.1)).map (fun e => e.1)
  (risingOf (vs.flatMap missing)).map (fun p => (p, vs.any (fun v => v.req.write && (missing v).contains p)))

/-- Whether the walk of some page of some views meets a locked line, so that the probe waits (R104, R334). -/
def probeLocked (vs : List ProbeView) : Bool := vs.any (fun v => v.pages.any (fun e => pageLocked v.pages e.1))

/-- The first row of R315 that applies, once every page has its outcome; `writes` says that the instruction writes memory and
`word` is the trap value of rank 6 (R405). -/
def probeFailure (s : State) (writes : Bool) (vs : List ProbeView) (word : InstrWord) : Option ProbeFail :=
  let pages := risingOf (vs.flatMap (fun v => if v.req.agent.translates then v.pages.map (fun e => e.1) else []))
  if Config.pinEntries < pages.length then some ⟨1, BitVec.ofNat 64 word.toNat, []⟩
  else
    let at? (cause : Nat) (xs : List Nat) : Option ProbeFail :=
      (leastOf xs).map (fun a => ⟨cause, BitVec.ofNat 64 a, []⟩)
    let failing (f : ProbeView → Nat × Nat → Bool) : List Nat :=
      vs.flatMap (fun v => ((v.pieces.flatMap id).filter (f v)).map (fun p => p.1))
    let missing := missingPages vs
    (at? 6 (vs.flatMap (fun v => v.req.misaligned.filter (fun a => !pageMissing v.pages (a / 4096))))).or
      ((at? 5 (failing (fun v => pieceForbidden s v.req v.pages))).or
        ((at? 15 (failing (fun v => pieceReserved v.pages))).or
          (missing.head?.map (fun p => ⟨if writes then 4 else 3, BitVec.ofNat 64 (p.1 * 4096), missing⟩))))

/-- A passed view: every piece located, the leaf of every page. -/
def passedView (s : State) (v : ProbeView) : Probed :=
  ⟨v.pieces.map (fun l => l.filterMap (locate s v.req v.pages)),
   v.pages.filterMap (fun e => match e.2 with | .ok leaf => some (e.1, leaf) | .error _ => none)⟩

/-- The probe of all the accesses of an instruction (R314, R315): their pieces, or the failure to report. It changes nothing. -/
def probe (s : State) (writes : Bool) (rs : List ProbeReq) (word : InstrWord) : Except ProbeFail (List Probed) :=
  let vs := rs.map (viewOf s)
  match probeFailure s writes vs word with
  | some f => .error f
  | none => .ok (vs.map (passedView s))

/-- The marks of one passed access (R388). -/
def accessMarks (r : ProbeReq) (p : Probed) : List LeafMark :=
  p.pages.filterMap (fun e => leafMark r.agent (if r.write then .write else .read) (e.1 * 4096) e.2)

/-- The marks of a passed probe. -/
def probeMarks (rs : List ProbeReq) (ps : List Probed) : List LeafMark := (List.zip rs ps).flatMap (fun p => accessMarks p.1 p.2)

/-- The pages that a passed access reaches through the near-memory aperture stored as kind 0 (R301). -/
def storeRaw (s : State) (p : Probed) : State :=
  p.pieces.foldl (fun t l => l.foldl (fun t c =>
    if c.ap = .nearMemory then setPageKind t (c.key / 4096) 0 else t) t) s

/-- Whether two translations are one, but for the A and D bits of their leaf. -/
def TlbEntry.same (a b : TlbEntry) : Bool :=
  a.realm == b.realm && a.asid == b.asid && a.vpage == b.vpage && a.level == b.level && sameLeaf a.leaf b.leaf

/-- The translation of a mark pinned for a hart of a core: the use count of its entry goes up, or it takes a free one (R392). -/
def addPin (core hid : Nat) (m : LeafMark) : List Pin → List Pin
  | [] => [⟨core, [hid], m.entry, m.bits⟩]
  | p :: ps =>
    if p.core = core ∧ p.entry.same m.entry = true then
      { p with users := if p.users.contains hid then p.users else hid :: p.users,
               entry := { m.entry with leaf := m.entry.leaf ||| p.entry.leaf }, bits := m.bits ||| p.bits } :: ps
    else p :: addPin core hid m ps

/-- Pins without those of some harts: their use counts go down, and an entry whose count reaches 0 is freed (R392). -/
def dropPins (hids : List Nat) (ps : List Pin) : List Pin :=
  ps.filterMap (fun p =>
    if p.users.any hids.contains then
      let rest := p.users.filter (fun h => !(hids.contains h))
      if rest.isEmpty then none else some { p with users := rest }
    else some p)

/-- Whether a hart pins a translation. -/
def State.pinsSome (s : State) (hid : Nat) : Bool := s.pins.any (fun p => p.users.contains hid)

/-- Pin entries of a core in use (R317). -/
def State.pinCount (s : State) (core : Nat) : Nat := (s.pins.filter (fun p => p.core == core)).length

/-- A passed probe: the A and D bits of its leaves (R388), the kinds of R301, and its translations pinned (R317). -/
def commitProbe (s : State) (rs : List ProbeReq) (ps : List Probed) : State :=
  let ms := probeMarks rs ps
  let s1 := ps.foldl storeRaw (ms.foldl State.applyMark s)
  { s1 with pins := ms.foldl (fun l m => addPin (coreOfHart s.hart.hid) s.hart.hid m l) s1.pins }

/-- The turns of a core's other harts whose probes wait for pin entries (R317). -/
def State.pinTurns (s : State) : List Nat :=
  s.others.filterMap (fun h =>
    if coreOfHart h.hid = coreOfHart s.hart.hid then (match h.wait with | some (.pins n) => some n | _ => none) else none)

/-- The turn of the current hart's probe among those that wait: behind all that wait already (R317). -/
def State.pinTurn (s : State) : Nat :=
  match s.hart.wait with
  | some (.pins n) => n
  | _ => s.pinTurns.foldl max 0 + 1

/-- Whether a committed probe must wait for pin entries: there are not enough, or an earlier probe waits (R317). The instruction in
the window holds its pins already. -/
def pinsLacking (s t : State) : Bool :=
  s.hart.window.isNone && t.pinsSome s.hart.hid &&
  (decide (Config.pinEntries < t.pinCount (coreOfHart s.hart.hid)) || s.pinTurns.any (fun n => decide (n < s.pinTurn)))

/-- The key of the miss record, none where `vmissrec` is 0 or names no byte of a cached aperture (R287, R316; log 59). -/
def missRecordKey (s : State) : Option Nat :=
  let base := wordField s.hart.vmissrec 6 58 * 64
  if s.hart.vmissrec = 0#64 then none
  else
    match physKey s engineAgent base with
    | some (.cached, key) => some key
    | _ => none

/-- The miss record of R316, written for causes 3 and 4: `vmisscnt`, and the listed pages where `vmissrec` is not 0. -/
def writeMissRecord (s : State) (missing : List (Nat × Bool)) : State :=
  let listed := missing.take 64
  let count := listed.length + (if missing.length ≤ 64 then 0 else 128)
  let s1 := s.onHart (fun h => { h with vmisscnt := BitVec.ofNat 64 count })
  match missRecordKey s with
  | some key => storeRun key (listed.flatMap (fun p => toBytes 8 (p.1 * 4096 + (if p.2 then 1 else 0)))) s1
  | none => s1

/-- Whether an access to a piece must wait: for MEMREADY (R308), a route that retrains (R462), or a locked line
(R334). A locked line is one that an instruction in a window holds: the scalar stream of its own hart waits for it too (R104). An
access to the memory control block waits for MEMREADY as one to memory does (log 59). -/
def busWait (s : State) (c : Piece) : Option WaitReason :=
  if !s.memReady || routeWaits s c.key then some .memory
  else if lineLocked s c.key then some .lineLock
  else none

/-- Whether a command of the current hart has still to apply a line (R289, R340). -/
def nmLinePending (s : State) (line : Nat) : Bool :=
  s.nq.any (fun c =>
    s.hart.gang == some c.gang && s.hart.rank == c.rank &&
    ((c.dst.zipIdx).any (fun d => d.1 / 64 == line && !(c.done.contains d.2) && !(c.skipped.contains d.2)) ||
     (c.src.zipIdx).any (fun d => d.1 / 64 == line && !(c.done.contains d.2) && !(c.skipped.contains d.2))))

/-- Whether an ordinary access to a piece must wait: also, through the near-memory aperture, for the hart's own commands (R289). -/
def pieceWait (s : State) (c : Piece) : Option WaitReason :=
  (busWait s c).or (if c.ap = .nearMemory ∧ nmLinePending s (c.key / 64) = true then some .nmDrain else none)

/-- The first wait among some pieces. -/
def piecesWait (s : State) (p : List (List Piece)) : Option WaitReason := p.findSome? (fun l => l.findSome? (pieceWait s))

/-- The bytes of a range's pieces. -/
def pieceBytes (s : State) (l : List Piece) : List Byte := l.flatMap (fun c => readThroughs s c.ap c.key c.len)

/-- `n` keys from one. -/
def keysFrom (key : Nat) : Nat → List Nat
  | 0 => []
  | n + 1 => key :: keysFrom (key + 1) n

/-- The keys of a range's pieces, byte by byte. -/
def pieceKeys (l : List Piece) : List Nat := l.flatMap (fun c => keysFrom c.key c.len)

/-- Writes of the bytes of a range's pieces, in order, each through the aperture of its piece (R377). -/
def throughPieces (l : List Piece) (ws : List ByteWrite) : List ByteWrite :=
  List.zipWith (fun ap w => { w with ap := ap }) (l.flatMap (fun c => List.replicate c.len c.ap)) ws

/-- The kinds a store of some pieces gives its pages: the kind the probe read, of home-region pages in the cached or
uncached aperture (R299, R301, R389); kind 0 in the near-memory aperture. A store that uses no translation carries no kind, and the
page keeps its own (log 59). -/
def pieceKinds (l : List Piece) : List (Nat × Nat) :=
  l.filterMap (fun c =>
    match c.ap, c.kind with
    | .nearMemory, _ => some (c.key / 4096, 0)
    | .cached, some k => if c.key < 2 ^ 53 then some (c.key / 4096, k) else none
    | .uncached, some k => if c.key < 2 ^ 53 then some (c.key / 4096, k) else none
    | _, _ => none)

/-! Scalar accesses. -/

/-- How a scalar access ends before it performs: an exception, or a wait. -/
inductive ScalarStop where
  | fault (cause : Nat)
  | wait (r : WaitReason)
deriving DecidableEq, Repr

/-- The cause of a page fault of an access (R387). -/
def pageFault : Access → Nat
  | .read => 13 | .write => 15 | .exec => 12

/-- The cause of an access fault of an access (R286, R304). -/
def accessFault : Access → Nat
  | .read => 5 | .write => 7 | .exec => 1

/-- The cause of a misaligned access (R112). -/
def misalignedFault : Access → Nat
  | .read => 4 | .write => 6 | .exec => 0

/-- The mode scalar data accesses use: that of MPP in M mode with MPRV, as the base has it. -/
def Hart.dataMode (h : Hart) : Mode :=
  if h.mode = .machine ∧ wordField h.mstatus 17 1 = 1 then Mode.ofBits (wordField h.mstatus 11 2) else h.mode

/-- Why a scalar access to a piece must wait: as any access, and through the near-memory aperture also for an `nm` that the vector stream
has still to make, since a later access through it follows the hart's earlier commands (R289, R376). -/
def scalarWait (s : State) (c : Piece) : Option WaitReason :=
  (pieceWait s c).or (if c.ap = .nearMemory ∧ s.hart.nmQueued = true then some .nmDrain else none)

/-- A scalar access of `len` bytes, naturally aligned or not at all (R112): its piece, or the stop. -/
def scalarPiece (s : State) (g : Agent) (acc : Access) (va len : Nat) : Except ScalarStop (Leaf × Piece) :=
  if va % len ≠ 0 then .error (.fault (misalignedFault acc))
  else
    match translate s g acc va with
    | .error .missing => .error (.fault (pageFault acc))
    | .error .denied => .error (.fault (pageFault acc))
    | .error .locked => .error (.wait .lineLock)
    | .error _ => .error (.fault (accessFault acc))
    | .ok leaf =>
      let pa := leaf.page + va % 4096
      match physKey s g pa with
      | none => .error (.fault (accessFault acc))
      | some (ap, key) =>
        let c : Piece := ⟨va, len, ap, key, leaf.kind⟩
        match scalarWait s c with
        | some r => .error (.wait r)
        | none => .ok (leaf, c)

/-- The agent of a hart's scalar data accesses. -/
def State.dataAgent (s : State) : Agent := s.agent s.hart s.hart.dataMode

/-- The bookkeeping of a performed scalar access: A and D (R388), kind 0 through the near-memory aperture (R301). -/
def markScalar (s : State) (g : Agent) (acc : Access) (leaf : Leaf) (c : Piece) : State :=
  let s1 := markLeaf s g acc c.va leaf
  if c.ap = .nearMemory then setPageKind s1 (c.key / 4096) 0 else s1

/-- The current hart waits, its instruction not done: it runs again when the wait ends. -/
def State.waitFor (s : State) (r : WaitReason) : State := s.onHart (fun h => { h with stall := some r })

/-- A stop of a scalar access turned into the hart's next state. -/
def State.scalarStop (s : State) (stop : ScalarStop) (va : Nat) : State :=
  match stop with
  | .fault cause => s.raise cause (BitVec.ofNat 64 va)
  | .wait r => s.waitFor r

end Sys2Proof.Machine
end

