-- ==== Sys2Proof/Machine/Operands.lean ====
section
/-! DEFINITION. The vector configuration, register groups and their elements, masks, the operand forms, the shape tags and the
desk (R125, R172, R184 to R205). -/

namespace Sys2Proof.Machine

/-- What a trapping instruction leaves beside the trap: the missing pages of a probe (R316), the A and D bits that a passed probe sets
(R388), or the failed blocks (R249).
`admitted` marks a trap of cause 1 or 11 found after admission, which counts as admitted (R433). -/
inductive TrapSide where
  | plain
  | admitted
  | marked (ms : List LeafMark)
  | missing (pages : List (Nat × Bool))
  | overflow (ob0 ob1 : Word)
  | clearNmError
deriving DecidableEq, Repr

/-- How a vector instruction ends before its effect: a vector trap (R405, R406), or a wait at the head of the VIQ (R37) with
the state the wait leaves. -/
inductive Stop where
  | trap (cause : Nat) (tval : Word) (side : TrapSide)
  | wait (r : WaitReason) (kept : State)
deriving DecidableEq, Repr

/-- What the execution of a vector instruction answers. -/
abbrev VRes := Except Stop State

/-- An instruction word as a trap value. -/
def wordVal (w : InstrWord) : Word := BitVec.ofNat 64 w.toNat

/-- A trap whose value is the instruction word (R406). -/
def trapWord (cause : Nat) (e : VEntry) : Stop := .trap cause (wordVal e.word) .plain

/-- A condition that must hold, or the trap with the instruction word. -/
def need (e : VEntry) (cause : Nat) (c : Bool) : Except Stop Unit := if c then .ok () else .error (trapWord cause e)

/-- What `vtype`, `vl` and the lane mask fix for an instruction (R165, R172, R185). -/
structure VCfg where
  vill : Bool
  sew : Nat
  w : Nat
  alt : Bool
  grp : Nat
  g : Nat
  block : Nat
  vl : Nat
  lanes : Nat
deriving DecidableEq, Repr

/-- Bits of one register: 64 bytes in each lane (R30). -/
def VCfg.regBits (c : VCfg) : Nat := 512 * c.lanes

/-- vlmax of a width and a register count (R185). -/
def VCfg.vlmaxOf (c : VCfg) (w g : Nat) : Nat := c.regBits * g / w

/-- vlmax at the current vtype (R185). -/
def VCfg.vlmax (c : VCfg) : Nat := c.vlmaxOf c.w c.g

/-- The configuration of the current hart. -/
def State.cfg (s : State) : VCfg :=
  let t := s.hart.vtype
  let sew := wordField t 0 3
  let grp := wordField t 4 2
  { vill := t.getLsbD 63, sew := sew, w := sewBits sew, alt := t.getLsbD 3, grp := grp, g := 2 ^ grp,
    block := blockOf (wordField t 6 3), vl := s.hart.vl.toNat, lanes := s.lanes s.hart }

/-- The format of the current vtype. -/
def VCfg.fmt (c : VCfg) : Option FFmt := vtypeFormat c.sew c.alt

/-- R124 step 1 for an instruction that depends on `vtype`. -/
def needVtype (e : VEntry) (c : VCfg) : Except Stop Unit := need e 2 (!c.vill)

/-- Whether a register names a group of `g` (R125). -/
def groupOk (n g : Nat) : Bool := decide (1 ≤ g) && decide (g ≤ 8) && n % g == 0 && decide (n + g ≤ 32)

/-! Register images. -/

/-- Elements 0 to n − 1 of an affine register, packed at width `w` (R189). -/
def affineImage (w base stride : Nat) (n : Nat) : Nat :=
  (List.range n).foldr (fun i acc => (base + i * stride) % 2 ^ w + 2 ^ w * acc) 0

/-- The stride of an affine register: 0 when U (R188). -/
def VReg.step (r : VReg) : Nat := if r.tag = .u then 0 else r.stride.toNat

/-- The image of a U or A register at its recorded sew and a register size, with the bits that belong to no element given
(R189, R193; log 20). -/
def tagImage (r : VReg) (regBits free : Nat) : Nat :=
  let w := sewBits r.sew.toNat
  let n := regBits / w
  affineImage w r.base.toNat r.step n + 2 ^ (w * n) * (free % 2 ^ (regBits - w * n))

/-- Whether a U or A register is read at the sew and group of its entry, without expansion (R193). -/
def VReg.readsPlain (r : VReg) (sew grp : Nat) : Bool := r.sew.toNat == sew && r.grp.toNat == grp

/-- The bits of a group that register `j` of it supplies: its image when G; when U or A and read at its own sew and group, the
elements its base and stride give (R193); the bits of an affine register that belong to none of its elements are free (log 20). A
uniform register gives its value to every element of the group, those that straddle two registers included (R188), and, where a stream
of whole registers is read, to the bits after the last of them (log 58). -/
def partImage (r : VReg) (j regBits sew grp : Nat) : Nat :=
  match r.tag with
  | .g => r.image.toNat % 2 ^ regBits
  | .u =>
    if r.readsPlain sew grp then
      let w := sewBits sew
      let lo := j * regBits % w
      getBits (affineImage w r.base.toNat 0 (ceilDiv (regBits + lo) w)) lo regBits
    else tagImage r regBits 0
  | .a => if regBits % sewBits r.sew.toNat = 0 then tagImage r regBits 0 else tagImage r regBits (Config.edgeBits r.base r.stride).toNat

/-- The image of `g` registers from `n`, read as a group of a sew and group code (R185). -/
def groupImage (h : Hart) (regBits n g sew grp : Nat) : Nat :=
  (List.range g).foldr (fun j acc => partImage (h.getV (n + j)) j regBits sew grp + 2 ^ regBits * acc) 0

/-- The poison of one register: one bit per byte, none for U and A (R205). -/
def partPoison (r : VReg) (regBits : Nat) : Nat :=
  match r.tag with
  | .g => r.poison.toNat % 2 ^ (regBits / 8)
  | _ => 0

/-- The poison of a group, one bit per byte. -/
def groupPoison (h : Hart) (regBits n g : Nat) : Nat :=
  (List.range g).foldr (fun j acc => partPoison (h.getV (n + j)) regBits + 2 ^ (regBits / 8) * acc) 0

/-- Elements as an operand gives them: the value and whether a byte it is read from is poisoned. -/
abbrev Src := Nat → Nat × Bool

/-- The elements of an image at width `w`. -/
def imageSrc (image poison w : Nat) : Src := fun i =>
  (getBits image (w * i) w,
   poison != 0 && getBits poison (w * i / 8) ((w * i + w - 1) / 8 + 1 - w * i / 8) != 0)

/-- The elements of a group read at a sew code and a register count (R185, R193). -/
def groupSrc (s : State) (n g sew : Nat) : Src :=
  let rb := 512 * s.lanes s.hart
  imageSrc (groupImage s.hart rb n g sew (grpOfCount g)) (groupPoison s.hart rb n g) (sewBits sew)

/-- Element 0 and on of one register, read at the current sew and group (R227). -/
def regSrc (s : State) (n : Nat) : Src :=
  let c := s.cfg
  imageSrc (partImage (s.hart.getV n) 0 c.regBits c.sew c.grp) (partPoison (s.hart.getV n) c.regBits) c.w

/-- A constant operand. -/
def constSrc (w v : Nat) : Src := fun _ => (v % 2 ^ w, false)

/-! Expansion and the desk (R193 to R197). -/

/-- A register expanded: G, with the image of its entry (R193). -/
def expandReg (s : State) (n : Nat) : State :=
  let r := s.hart.getV n
  if r.tag = .g then s
  else
    let rb := 512 * s.lanes s.hart
    let whole := rb % sewBits r.sew.toNat == 0
    let (free, s1) := if whole then (0#64, s) else s.takeFree
    s1.onHart (fun h => h.setV n
      { r with tag := .g, image := BitVec.ofNat 8192 (tagImage r rb free.toNat), poison := 0#1024 })

/-- A read of a register group: its first register, its count, the sew it is read at, and which of its registers, from `lo`
and below `used`, hold an element that is read. -/
structure GroupRead where
  first : Nat
  count : Nat
  sew : Nat
  used : Nat
  lo : Nat
deriving DecidableEq, Repr

/-- How many registers of a group hold an element below `n` (R34). -/
def regsBelow (regBits w n : Nat) : Nat := ceilDiv (w * n) regBits

/-- The read of a group whose elements below `n` are read. -/
def readBelow (c : VCfg) (first count sew n : Nat) : GroupRead :=
  ⟨first, count, sew, min count (regsBelow c.regBits (sewBits sew) n), 0⟩

/-- The read of a whole group. -/
def readWhole (first count sew : Nat) : GroupRead := ⟨first, count, sew, count, 0⟩

/-- The read of a group of which only elements `i` to `n − 1` are read. -/
def readFrom (c : VCfg) (first count sew i n : Nat) : GroupRead :=
  ⟨first, count, sew, if i < n then min count (regsBelow c.regBits (sewBits sew) n) else 0, i * sewBits sew / c.regBits⟩

/-- The registers a read expands (R193): U or A, and recorded under another sew or group. -/
def GroupRead.expands (h : Hart) (r : GroupRead) : List Nat :=
  (((List.range r.used).drop r.lo).map (fun j => r.first + j)).filter (fun n =>
    let v := h.getV n
    v.tag != .g && !(v.readsPlain r.sew (grpOfCount r.count)))

/-- Registers tagged G. -/
def Hart.general (h : Hart) : Nat := (h.v.toList.filter (fun r => r.tag == .g)).length

/-- Physical registers a hart holds: its G registers, and the slots its instructions in the window have obtained (R195). -/
def Hart.held (h : Hart) : Nat := h.general + sumOver h.windowed InFlight.slots

/-- Physical registers a hart keeps from the rest of its core: its desk, or what it holds beyond it (R195, R196). -/
def Hart.reserved (h : Hart) : Nat := max h.size.toNat h.held

/-- Physical registers of a core that no desk reserves and no hart holds (R196). -/
def State.unreserved (s : State) (core : Nat) : Nat :=
  Config.poolSlots - ((s.harts.filter (fun h => coreOfHart h.hid == core && h.run != .free)).map Hart.reserved).foldl (· + ·) 0

/-- Slots obtained by borrowing when a hart holds `held` registers and needs `fresh` more (R196). -/
def borrowed (size held fresh : Nat) : Nat := (held + fresh - size) - (held - size)

/-- A hart event of the current hart at the admission of an instruction: counted once, so not when the instruction of the window
completes (R433). -/
def State.countAdmission (s : State) (code amount : Nat) (mode : Mode) : State :=
  if s.hart.window.isSome then s else s.countHart code amount mode

/-- The slots an instruction needs obtained, or the desk-overflow trap or the wait of R197: `fresh` new registers, and the
registers that are G afterwards. Borrowing is counted (R433). The instruction of the window obtained its slots at its admission. -/
def obtain (e : VEntry) (s : State) (fresh : Nat) (after : Nat) : Except Stop State :=
  let h := s.hart
  let borrow := borrowed h.size.toNat h.general fresh
  if h.window.isSome = true ∨ borrow ≤ s.unreserved (coreOfHart h.hid) then .ok (s.countAdmission 4 borrow e.mode)
  else if h.gencap ≠ 0xFF#8 ∧ h.gencap.toNat < after then .error (trapWord 8 e)
  else .error (.wait .desk s)

/-- Micro-ops of an instruction that splits over some registers: eight element groups each (R30, R34; log 21). -/
def microOpsOf (regs : Nat) : Nat := 8 * regs

/-- Micro-ops of an instruction with no vector destination: one for each element group of each register it reads (R34). -/
def readMicroOps (rs : List GroupRead) : Nat := microOpsOf ((rs.map (fun r => r.used - r.lo)).foldl (· + ·) 0)

/-- The lanes of a quad mask (R30). -/
def laneMask (q : BitVec 4) : BitVec 16 :=
  BitVec.ofNat 16 ((List.range 4).foldl (fun m n => if q.getLsbD n then m + 15 * 16 ^ n else m) 0)

/-- The number of the physical lane that is the `n`-th of a quad mask (R30). -/
def nthLane (q : BitVec 4) (n : Nat) : Nat := (((List.range 16).filter (fun l => q.getLsbD (l / 4)))[n]?).getD 0

/-- The lanes of a mask in which micro-op `n` of a register group, element group `n mod 8` of its register `n / 8`, holds an element
below `vl`, where those elements take `extent` bits of the group (R30, R34, R184, R435). -/
def liveLanes (q : BitVec 4) (extent n : Nat) : BitVec 16 :=
  let lanes := quadLanes q
  ((List.range lanes).filter (fun k => decide (512 * (n / 8 * lanes + k) + 64 * (n % 8) < extent))).foldl
    (fun m k => m ||| BitVec.ofNat 16 (2 ^ nthLane q k)) 0#16

/-- Lanes of the current hart's core awake: a micro-op issues on them (R441). -/
def State.wakeLanes (s : State) (lanes : BitVec 16) : State :=
  let c := coreOfHart s.hart.hid
  s.setCore c { s.core c with gated := (s.core c).gated &&& ~~~lanes }

/-- The lanes on which an instruction with some micro-ops issues: those that hold an element below `vl`, and the whole mask for a form
that issues one micro-op (R34, R435, R441; log 21). -/
def State.issueLanes (s : State) (micro extent n : Nat) : BitVec 16 :=
  if micro < 8 then laneMask (s.quadsOf s.hart) else liveLanes (s.quadsOf s.hart) extent n

/-- Micro-ops of the current hart issued: they are counted, and the lanes they issue on are awake (R433, R441). -/
def State.issued (s : State) (micro : Nat) (mode : Mode) (lanes : BitVec 16) : State :=
  if micro = 0 then s else (s.countHart 8 micro mode).wakeLanes lanes

/-- An instruction counted as admitted, with its micro-ops (R433). In the window the events count them (log 2). -/
def State.countAdmitted (s : State) (e : VEntry) (micro : Nat) (extent : Nat := 0) : State :=
  if s.hart.window.isSome then s
  else (s.countHart 7 1 e.mode).issued micro e.mode (s.issueLanes micro extent 0)

/-- The unit of a word: VM instructions on the load-store unit, those on tiles and the scale registers on the matrix unit, the others on
the VALU (R182; log 11). -/
def wordUnit (w : InstrWord) : VUnit :=
  let f4 := (w.extractLsb' 28 4).toNat
  match (w.extractLsb' 0 7).toNat, (w.extractLsb' 12 3).toNat with
  | 0x57, _ => .lsu
  | 0x7B, 0 => if 12 ≤ f4 then .mxu else .valu
  | 0x7B, 1 => if f4 = 14 then .mxu else .valu
  | 0x7B, 6 => if f4 < 3 then .mxu else .valu
  | 0x7B, 7 => if f4 = 3 then .mxu else .valu
  | _, _ => .valu

/-- The masks and tiles a word reads and writes: its mask operand, and the fields of the mask and tile instructions (R126 to R133). -/
def wordUses (w : InstrWord) : List Nat × List Nat :=
  let major := (w.extractLsb' 0 7).toNat
  let f3 := (w.extractLsb' 12 3).toNat
  let f4 := (w.extractLsb' 28 4).toNat
  let md := 32 + (w.extractLsb' 7 3).toNat
  let tile := 40 + (w.extractLsb' 7 2).toNat
  let mask := (w.extractLsb' 25 3).toNat
  let masked := if [0x0B, 0x2B, 0x57, 0x5B].contains major && mask != 0 then [32 + mask] else []
  if major = 0x0B ∧ f3 < 5 ∧ 14 ≤ f4 then (masked, [md])
  else if major = 0x2B ∧ f3 < 5 ∧ f4 = 8 then (masked, [md])
  else if major = 0x5B ∧ f3 = 0 ∧ f4 < 4 then ([32 + (w.extractLsb' 15 3).toNat, 32 + (w.extractLsb' 20 3).toNat], [md])
  else if major = 0x5B ∧ f3 = 0 ∧ f4 < 7 then ((32 + (w.extractLsb' 20 3).toNat) :: masked, [])
  else if major = 0x7B ∧ f3 = 6 ∧ f4 = 4 then ([], [md])
  else if major = 0x7B ∧ f3 = 0 ∧ f4 = 12 then ([], [tile])
  else if major = 0x7B ∧ ((f3 = 0 ∧ f4 = 13) ∨ (f3 = 1 ∧ f4 = 14) ∨ (f3 = 6 ∧ f4 < 3)) then ([tile], [tile])
  else if major = 0x7B ∧ f3 = 7 ∧ f4 = 3 then ([40 + (w.extractLsb' 20 2).toNat], [])
  else if major = 0x57 ∧ f3 = 0 ∧ f4 = 11 then ([], [tile])
  else if major = 0x57 ∧ f3 = 0 ∧ f4 = 12 then ([tile], [])
  else (masked, [])

/-- The registers a read touches. -/
def GroupRead.regs (r : GroupRead) : List Nat := ((List.range r.used).drop r.lo).map (fun j => r.first + j)

/-- The width of the elements a word writes, where it is not the element width of `vtype`: the wide forms of VI and VF, conversions,
FP32 groups and anchors. -/
def resultBits (c : VCfg) (w : InstrWord) : Nat :=
  let f3 := (w.extractLsb' 12 3).toNat
  let f4 := (w.extractLsb' 28 4).toNat
  match (w.extractLsb' 0 7).toNat with
  | 0x0B => if 6 ≤ f3 ∧ f4 = 10 then 2 * c.w else c.w
  | 0x2B =>
    if 6 ≤ f3 ∧ 3 ≤ f4 ∧ f4 ≤ 5 then 2 * c.w
    else if f3 = 6 ∧ f4 = 7 then 32
    else if f3 = 0 ∧ f4 = 13 then ([4, 6, 6, 8, 8, 16, 16, 32, 64].getD (w.extractLsb' 15 5).toNat c.w)
    else c.w
  | 0x7B => if f3 = 1 ∧ f4 = 14 then 32 else if f3 = 0 ∧ f4 = 9 then 64 else c.w
  | _ => c.w

/-- What an instruction reads and writes, as its admission finds it (R35, R435). -/
def usesOf (s : State) (w : InstrWord) (reads : List GroupRead) (dest : List Nat) : Uses :=
  let c := s.cfg
  ⟨reads.flatMap GroupRead.regs ++ (wordUses w).1, dest ++ (wordUses w).2,
   c.vl * (reads.map (fun r => sewBits r.sew)).foldl max (resultBits c w)⟩

/-- The unit that last wrote a register of the current hart. -/
def State.writerOf (s : State) (n : Nat) : Option VUnit :=
  (((s.core (coreOfHart s.hart.hid)).writers[s.hart.hid % 8]?).bind (fun v => v[n]?)).join

/-- Whether an instruction of a unit reads what a unit has written that the chaining mask keeps it from chaining on (R442). -/
def State.withdrawn (s : State) (unit : VUnit) (u : Uses) : Bool :=
  u.reads.any (fun n => (s.writerOf n).any (fun p => (s.core (coreOfHart s.hart.hid)).withdraws p unit))

/-- What the instruction being admitted reads and writes kept for its core. Outside the window its micro-ops may each have waited for a
producer that the mask keeps it from chaining on (R442; log 11). -/
def State.noteUses (s : State) (e : VEntry) (u : Uses) (micro : Nat) : State :=
  if s.hart.window.isSome then s
  else
    let c := coreOfHart s.hart.hid
    (s.setCore c { s.core c with uses := u }).addSlack (if s.withdrawn (wordUnit e.word) u then micro else 0) e.mode

/-- The registers an instruction has written noted as written by its unit. -/
def State.noteWritten (s : State) (w : InstrWord) (u : Uses) : State :=
  let c := coreOfHart s.hart.hid
  let row := ((s.core c).writers[s.hart.hid % 8]?).getD (Vector.replicate 44 none)
  if u.writes.isEmpty then s
  else
    s.setCore c { s.core c with
      writers := (s.core c).writers.setIfInBounds (s.hart.hid % 8) (u.writes.foldl (fun v n => v.setIfInBounds n (some (wordUnit w))) row) }

/-- Admission's last step for an instruction on the lane path: the expansions its reads need, and a fresh register for each
register it writes (R193, R196, R197, R34). `dest` lists the registers it writes; counts of R433. -/
def admission (e : VEntry) (s : State) (reads : List GroupRead) (dest : List Nat) (micro : Nat) : Except Stop State :=
  let h := s.hart
  let exp := risingOf (reads.flatMap (GroupRead.expands h))
  let after := ((List.range 32).filter (fun n =>
    (h.getV n).tag == .g || exp.contains n || dest.contains n)).length
  match obtain e s (exp.length + dest.length) after with
  | .error x => .error x
  | .ok s1 =>
    let s2 := exp.foldl expandReg s1
    let u := usesOf s e.word reads dest
    .ok (((s2.countAdmission 0x11 exp.length e.mode).countAdmitted e micro u.extent).noteUses e u micro)

/-- The registers of a destination group that hold an element below `n` (R34). -/
def destRegs (c : VCfg) (first count w n : Nat) : List Nat :=
  (List.range (min count (regsBelow c.regBits w n))).map (fun j => first + j)

/-! Writing elements. -/

/-- Elements packed at width `w`: the value bits, the bits written, and the bits written poisoned. -/
def packElems (w : Nat) : List (Option (Nat × Bool)) → Nat × Nat × Nat
  | [] => (0, 0, 0)
  | x :: xs =>
    let (v, m, p) := packElems w xs
    match x with
    | none => (2 ^ w * v, 2 ^ w * m, 2 ^ w * p)
    | some (a, bad) =>
      (a % 2 ^ w + 2 ^ w * v, (2 ^ w - 1) + 2 ^ w * m, (if bad then 2 ^ w - 1 else 0) + 2 ^ w * p)

/-- One bit per byte: set where the byte of `bits` is not 0, for `n` bytes. -/
def bytesTouched (bits : Nat) : Nat → Nat
  | 0 => 0
  | n + 1 => (if bits % 256 = 0 then 0 else 1) + 2 * bytesTouched (bits / 256) n

/-- The poison of `n` bytes after a write of the bits `mask`, of which `bad` are poisoned (R205): a byte written whole and
clean is clean, a byte with a poisoned bit is poisoned, and a byte written in part keeps its poison. -/
def mergePoison (old mask bad n : Nat) : Nat :=
  if old = 0 ∧ bad = 0 then 0
  else
    let kept := bytesTouched ((2 ^ (8 * n) - 1) ^^^ (mask % 2 ^ (8 * n))) n
    (old &&& kept) ||| bytesTouched bad n

/-- The image a write merges into (R194): the register's own when G, the elements of its entry when U or A. -/
def mergeBase (s : State) (r : VReg) (j regBits sew grp : Nat) : Nat × State :=
  if r.tag = .g ∨ r.readsPlain sew grp = true ∨ regBits % sewBits r.sew.toNat = 0 then
    (partImage r j regBits sew grp, s)
  else
    let (free, s1) := s.takeFree
    (tagImage r regBits free.toNat, s1)

/-- Register `j` of a destination group written with its part of the packed elements (R34, R192). -/
def writePart (sew grp first : Nat) (v m p : Nat) (s : State) (j : Nat) : State :=
  let rb := 512 * s.lanes s.hart
  let r := s.hart.getV (first + j)
  let (old, s1) := mergeBase s r j rb sew grp
  let vj := getBits v (j * rb) rb
  let mj := getBits m (j * rb) rb
  let pj := getBits p (j * rb) rb
  let image := (old &&& (mj ^^^ (2 ^ rb - 1))) ||| (vj &&& mj)
  let poison := mergePoison (partPoison r rb) mj pj (rb / 8)
  s1.onHart (fun h => h.setV (first + j)
    ⟨.g, BitVec.ofNat 3 sew, BitVec.ofNat 2 grp, 0#64, 0#64, BitVec.ofNat 8192 image, BitVec.ofNat 1024 poison⟩)

/-- The first `regs` registers of a destination group written with packed bits. -/
def writeBits (s : State) (first count sew regs : Nat) (v m p : Nat) : State :=
  (List.range regs).foldl (writePart sew (grpOfCount count) first v m p) s

/-- A destination group written: elements 0 on, `none` where an element keeps its value; the registers that hold one of them
become G (R34, R192). -/
def writeGroup (s : State) (first count sew : Nat) (elems : List (Option (Nat × Bool))) : State :=
  let rb := 512 * s.lanes s.hart
  let w := sewBits sew
  let (v, m, p) := packElems w elems
  writeBits s first count sew (min count (regsBelow rb w elems.length)) v m p

/-- Element 0 of one register written at the current sew (R227, R229). -/
def writeElem0 (s : State) (n : Nat) (x : Nat × Bool) : State :=
  let c := s.cfg
  let (v, m, p) := packElems c.w [some x]
  writePart c.sew c.grp n v m p s 0

/-- A register tagged U or A (R188, R191): an affine entry with stride 0 is uniform. -/
def VReg.affine (c : VCfg) (base stride : Nat) : VReg :=
  let b := base % 2 ^ c.w
  let st := stride % 2 ^ c.w
  ⟨if st = 0 then .u else .a, BitVec.ofNat 3 c.sew, BitVec.ofNat 2 c.grp, BitVec.ofNat 64 b, BitVec.ofNat 64 st,
   0#8192, 0#1024⟩

/-! Masks. -/

/-- Whether mask `k` has bit `i` (R199). -/
def Hart.maskBit (h : Hart) (k : MaskNo) (i : Nat) : Bool := k == 0#3 || (h.m[k.toNat]).getLsbD i

/-- The active elements below `vl` (R202). -/
def State.actives (s : State) (k : MaskNo) : List Nat := (List.range s.hart.vl.toNat).filter (fun i => s.hart.maskBit k i)

/-- Bits of a mask register written at the listed indices; m0 discards (R199, R200). -/
def Hart.writeMask (h : Hart) (k : MaskNo) (bits : List (Nat × Bool)) : Hart :=
  let (v, m) := bits.foldl (fun acc b => (acc.1 ||| (if b.2 then 2 ^ b.1 else 0), acc.2 ||| 2 ^ b.1)) (0, 0)
  let old := if k = 0#3 then 0 else h.m[k.toNat].toNat
  h.setM k ((old &&& (m ^^^ (2 ^ 16384 - 1))) ||| v)

/-! The operand in the vs1 position (R201). -/

/-- The kinds of R119, with what each names. -/
inductive AOp where
  | vec (n : Nat)
  | scalar
  | imm (i : Int)
  | queue (q : QueueNo)
  | named
deriving DecidableEq, Repr

/-- The register a `.vv` or `.vn` operand names, none for the other kinds. -/
def AOp.reg (a : AOp) (e : VEntry) : Option Nat :=
  match a with
  | .vec n => some n
  | .named => some (wordField (e.op0.getD 0#64) 0 5)
  | _ => none

/-- Admission of operand a: its group aligned, or a delivery in its queue (R201). -/
def AOp.ok (a : AOp) (e : VEntry) (s : State) (g : Nat) : Bool :=
  match a with
  | .queue q => !(s.hart.loadq[q.toNat]).isEmpty
  | _ => match a.reg e with | some n => groupOk n g | none => true

/-- The group reads of operand a. -/
def AOp.reads (a : AOp) (e : VEntry) (c : VCfg) : List GroupRead :=
  match a.reg e with
  | some n => [readBelow c n c.g c.sew c.vl]
  | none => []

/-- The elements of operand a for an integer or permute instruction; scalars come from an x register (R201). -/
def AOp.src (a : AOp) (e : VEntry) (s : State) : Src :=
  let c := s.cfg
  match a with
  | .vec n => groupSrc s n c.g c.sew
  | .named => groupSrc s (wordField (e.op0.getD 0#64) 0 5) c.g c.sew
  | .scalar => constSrc c.w (e.op0.getD 0#64).toNat
  | .imm i => constSrc c.w (ofSigned 64 i)
  | .queue q =>
    match s.hart.loadq[q.toNat] with
    | d :: _ => imageSrc d.image.toNat d.poison.toNat c.w
    | [] => constSrc c.w 0

/-- The scalar of a `.vx` or `.xx` VF instruction, from a captured f register (R201). -/
def floatScalar (f : FFmt) (x : Word) : Nat :=
  match f with
  | .fp64 => x.toNat
  | .fp32 => unbox32 x
  | _ => wordField x 0 16

/-- The elements of operand a for a floating-point instruction. -/
def AOp.floatSrc (a : AOp) (e : VEntry) (s : State) (f : FFmt) : Src :=
  match a with
  | .scalar => constSrc s.cfg.w (floatScalar f (e.op0.getD 0#64))
  | _ => a.src e s

/-- A `.vq` instruction's delivery consumed when it completes (R201). -/
def AOp.consume (a : AOp) (s : State) : State :=
  match a with
  | .queue q => s.onHart (fun h => { h with loadq := h.loadq.set q.toNat (h.loadq[q.toNat].drop 1) })
  | _ => s

/-- A trap of a probe (R315, R316). -/
def ProbeFail.stop (f : ProbeFail) : Stop :=
  .trap f.cause f.tval (if f.missing.isEmpty then .admitted else .missing f.missing)

end Sys2Proof.Machine
end

