-- ==== Sys2Proof/Machine/Vector.lean ====
section
/-! DEFINITION. The vector stream: dispatch into the VIQ (R36, R123), the run of its head (R35, R405), delivery of a vector trap
(R250 to R252, R401, R402), and the accesses of memory instructions (R314 to R320). -/

namespace Sys2Proof.Machine

/-! The suspended-queue area (R252). -/

/-- An optional operand as its valid bit. -/
def validBit (o : Option Word) (k : Nat) : Nat := if o.isSome then 2 ^ k else 0

/-- An entry of the area: 64 bytes (R252). -/
def entryBytes (e : VEntry) : List Byte :=
  toBytes 8 e.pc.toNat ++ toBytes 4 e.word.toNat ++ toBytes 4 (validBit e.op0 0 + validBit e.op1 1 + validBit e.op2 2) ++
  wordBytes (e.op0.getD 0#64) ++ wordBytes (e.op1.getD 0#64) ++ wordBytes (e.op2.getD 0#64) ++ List.replicate 24 0#8

/-- The area: its header and its entries (R252). -/
def areaBytes (resume tval : Word) (cause : Nat) (es : List VEntry) : List Byte :=
  wordBytes resume ++ wordBytes tval ++ toBytes 4 es.length ++ toBytes 4 cause ++ List.replicate 40 0#8 ++
  es.flatMap entryBytes

/-- The key of an area at a physical address of `size` bytes that lies wholly in the cached aperture of one home region of this
device below its capacity (R402, R408). -/
def areaKey (s : State) (base size : Nat) : Option Nat :=
  if deviceOf base = s.device then
    let a := localOf base
    if a + size ≤ 0x10000000000 ∧ a / regionSpan = (a + size - 1) / regionSpan ∧
        (s.regions[a / regionSpan]?).any (fun r => decide (a % regionSpan + size ≤ r.cap * 2 ^ 33)) = true then some a
    else none
  else none

/-- Which aperture a probe accepts: every mapped one. -/
def acceptAll : Aperture → Bool → Bool := fun _ _ => true

/-- Byte writes of a run of bytes over some pieces. -/
def pieceWrites (l : List Piece) (bs : List Byte) : List ByteWrite :=
  throughPieces l ((List.zip (pieceKeys l) bs).map (fun p => byteWrite p.1 p.2))

/-- The agent of a vector entry: its mode and the registers of its hart. -/
def State.entryAgent (s : State) (e : VEntry) : Agent := s.agent s.hart e.mode

/-- The pointers of the banks that an arrival copy in a hart's window touches back at their ends: the copy is discarded (R298). -/
def endArrival (h : Hart) (s : State) : State :=
  let copies := h.window.elim [] (fun w => w.arit.filter (fun a => a.copy))
  (banksTouched (copies.flatMap (fun a => a.bytes.map (fun b => b.2.1)))).foldl (fun t b => setArrival t b.1.1 b.1.2 none) s

/-- The hart's vector work discarded: its queue, its window, its pins, its locks and its ARIT entries (R321, R401 step 1). -/
def State.dropWork (s : State) : State :=
  { endArrival s.hart s with
    hart := { s.hart with viq := [], window := none, next := [], wait := none, drainViq := false, aldc := none, headAged := none },
    pins := dropPins [s.hart.hid] s.pins,
    locks := s.locks.filter (fun l => l.hid != s.hart.hid) }

/-- What the trap leaves before its delivery: the miss record (R316), the A and D bits of a probe that has passed (R388), or the
failed blocks and DEVOVF (R249). -/
def applySide (s : State) (side : TrapSide) (mode : Mode) : State :=
  match side with
  | .plain => s
  | .admitted => s
  | .marked ms => ms.foldl State.applyMark s
  | .missing pages => (writeMissRecord s pages).countHart 5 (min 64 pages.length) mode
  | .overflow ob0 ob1 => s.onHart (fun h => { h.orFlags flagDEVOVF with vobm0 := ob0, vobm1 := ob1 })
  | .clearNmError => s.onHart (fun h => { h with nmError := none })

/-- Whether a trap may go to the user handler (R249, R250), before its area is probed. -/
def userHandles (h : Hart) (cause : Nat) : Bool :=
  (cause == 7 || cause == 13) && h.mode == .user && h.avec != 0#64 && h.aqsave != 0#64 && !h.anchorHandler

/-- The request of the area a user delivery writes (R250). -/
def userReq (s : State) (size : Nat) : ProbeReq where
  agent := s.agent s.hart .user
  write := true
  ranges := [(wordField s.hart.aqsave 6 58 * 64, size)]
  misaligned := []
  accept := acceptAll

/-- The probe of the area a user delivery writes (R250). -/
def userArea (s : State) (e : VEntry) (size : Nat) : Option (ProbeReq × Probed) :=
  match probe s true [userReq s size] e.word with
  | .ok [p] => some (userReq s size, p)
  | _ => none

/-- Delivery to S mode, or to M mode for an instruction dispatched there (R401 steps 3 to 5), or the halt of R402. -/
def deliverSupervisor (s : State) (e : VEntry) (cause : Nat) (tval : Word) (younger : List VEntry) : State :=
  let es := e :: younger
  let base := wordField s.hart.vqsave 6 58 * 64
  let bytes := areaBytes s.hart.pc tval cause es
  let s1 := s.onHart (fun h => { h with vepc := e.pc, vcause := BitVec.ofNat 64 cause, vtval := tval })
  match (if s.hart.vqsave = 0#64 then none else areaKey s base bytes.length) with
  | none => s1.countFault.terminateHart.settleOwn
  | some key =>
    let s2 := (storeRun key bytes s1).countHart 0x1B 1 e.mode
    if e.mode = .machine then s2.onHart (fun h => h.enterM 24 false h.pc tval)
    else (s2.onHart (fun h => h.enterS 24 false h.pc tval)).countFault

/-- The current hart's vector loads read the bytes of some keys as they are: a store or a load of its own that goes before them touches
them (R251, R369). -/
def Hart.refresh (keys : List Nat) (h : Hart) : Hart := { h with oldLines := h.oldLines.filter (fun o => !(keys.contains o.key)) }

/-- Delivery of an anchor trap to the user handler (R251): the area is stored as by the hart's own store, its pages with their kinds
(R301), and its later loads see it. -/
def deliverUser (s : State) (e : VEntry) (cause : Nat) (tval : Word) (younger : List VEntry) (r : ProbeReq) (p : Probed) :
    State :=
  let bytes := areaBytes s.hart.pc tval cause (e :: younger)
  let s1 := commitProbe s [r] [p]
  let pieces := p.pieces.flatMap id
  let s2 := (performEntry ⟨pieceWrites pieces bytes, pieceKinds pieces, false, [], []⟩ s1).onHart (Hart.refresh (pieceKeys pieces))
  let s3 := { s2 with pins := s.pins }
  (s3.onHart (fun h =>
    { h with aepc := e.pc, acause := BitVec.ofNat 64 cause, anchorHandler := true,
             reservation := none, pc := setWordField h.avec 0 2 0 })).countHart 0x1A 1 e.mode

/-- Whether a trap is one found after admission, so that its instruction counts as admitted (R433). -/
def countsAdmitted (cause : Nat) (side : TrapSide) : Bool :=
  side != .plain || [3, 4, 5, 6, 7, 9, 10, 13, 14, 15].contains cause

/-- The bytes of an area. -/
def areaSize (younger : List VEntry) : Nat := 64 + 64 * (younger.length + 1)

/-- Why `n` bytes of a record at a key cannot be written now: a locked line, a route that does not carry accesses (R104, R334, R462). -/
def recordWait (s : State) (key n : Nat) : Option WaitReason :=
  if (List.range (n / 64)).any (fun i => lineLocked s (key + 64 * i)) then some .lineLock
  else if routeWaits s key then some .memory else none

/-- Why the delivery of a trap cannot write its records now: a locked line, a route that does not carry accesses (R104, R316, R334,
R462). -/
def deliveryWait (s : State) (e : VEntry) (cause : Nat) (side : TrapSide) (younger : List VEntry) : Option WaitReason :=
  let record : Option WaitReason :=
    match side with
    | .missing _ => (missRecordKey s).bind (fun k => recordWait s k 512)
    | _ => none
  let area : Option WaitReason := (areaKey s (wordField s.hart.vqsave 6 58 * 64) (areaSize younger)).bind (fun k => recordWait s k (areaSize younger))
  let user : Option WaitReason :=
    if userHandles s.hart cause then
      if probeLocked [viewOf s (userReq s (areaSize younger))] then some .lineLock
      else (userArea s e (areaSize younger)).bind (fun x => x.2.pieces.findSome? (fun l => l.findSome? (pieceWait s)))
    else none
  if s.locks.isEmpty && s.routes.isEmpty then none else record.or (area.or user)

/-- The one delivery of every vector trap: younger work discarded, what the trap leaves, then the user handler (R250) or S or M
mode (R401). -/
def deliver (s : State) (e : VEntry) (cause : Nat) (tval : Word) (side : TrapSide) (younger : List VEntry) : State :=
  let s0 := if countsAdmitted cause side then s.countAdmitted e 0 else s
  let s1 := applySide s0.dropWork side e.mode
  if userHandles s1.hart cause then
    match userArea s1 e (areaSize younger) with
    | some (r, p) => deliverUser s1 e cause tval younger r p
    | none => deliverSupervisor s1 e cause tval younger
  else deliverSupervisor s1 e cause tval younger

/-! Running the head of a VIQ (R35). -/

/-- Waits ended by what an instruction gives back: a line lock, an access that waited. -/
def Hart.clearStall (r : WaitReason) (h : Hart) : Hart :=
  { h with stall := if h.stall = some r then none else h.stall, wait := if h.wait = some r then none else h.wait }

/-- Every hart's wait for one reason ended, so that it tries again. -/
def State.wake (s : State) (r : WaitReason) : State :=
  { s with hart := s.hart.clearStall r, others := s.others.map (Hart.clearStall r) }

/-- Pins and locks of the current hart released (R317, R334). -/
def State.release (s : State) : State :=
  let s1 := { s with
    pins := dropPins [s.hart.hid] s.pins,
    locks := s.locks.filter (fun l => l.hid != s.hart.hid) }
  if s.locks.any (fun l => l.hid == s.hart.hid) then s1.wake .lineLock else s1

/-- An instruction completed: the head leaves the VIQ, pins and locks are released, and it counts in `instret` (R35, R430). -/
def State.complete (s : State) (younger : List VEntry) : State :=
  ((s.onHart (fun h =>
    { h with viq := younger, window := none, wait := none, drainViq := false, headAged := none })).release).retire

/-- The trap of an entry delivered, unless one of its records cannot be written yet: then the entry waits and runs again. -/
def trapEntry (s : State) (e : VEntry) (cause : Nat) (tval : Word) (side : TrapSide) (younger : List VEntry) : Except WaitReason State :=
  match deliveryWait s.dropWork e cause side younger with
  | some r => .error r
  | none => .ok (deliver s e cause tval side younger)

/-- An instruction that runs outside the window counted as its core's last admission, and an aged one as an aged admission (R32,
R433). -/
def State.admitted (s : State) (h : Hart) (mode : Mode) : State :=
  (s.countHart 0xB (if h.headAged.isSome then 1 else 0) mode).setAdmitted (coreOfHart h.hid) h.hid

/-- The core of the current hart with nothing noted of the instruction it admits next. -/
def State.clearUses (s : State) : State :=
  let c := coreOfHart s.hart.hid
  s.setCore c { s.core c with uses := ⟨[], [], 0⟩ }

/-- What an instruction that has just run outside the window wrote noted (R442). -/
def State.noteRun (s : State) (w : InstrWord) : State := s.noteWritten w (s.core (coreOfHart s.hart.hid)).uses

/-- The translations a hart pins. -/
def State.pinnedBy (s : State) (hid : Nat) : List TlbEntry := (s.pins.filter (fun p => p.users.contains hid)).map Pin.entry

/-- The state an effect runs in: nothing in the VIQ. -/
def State.alone (s : State) : State := s.onHart (fun h => { h with viq := [] })

/-- A hart under other translation registers: `satp` and SUM. -/
def Hart.under (satp : Word) (sum : Bool) (h : Hart) : Hart :=
  { h with satp := satp, mstatus := setWordField h.mstatus 18 1 (if sum then 1 else 0) }

/-- The accesses of the current hart's instruction use the translations it pins, under some translation registers (R393, R399). -/
def State.underPins (satp : Word) (sum : Bool) (s : State) : State :=
  let mine := s.pinnedBy s.hart.hid
  { s.onHart (Hart.under satp sum) with tlb := mine ++ s.tlb.filter (fun t => !(mine.any (fun m => m.hits t.realm t.asid t.vpage))) }

/-- The translation registers of a hart, and the TLB of an instruction that used its pins, as another state has them. -/
def keepRegisters (s t : State) : State :=
  { t.onHart (Hart.under s.hart.satp (s.hart.mstatus.getLsbD 18)) with tlb := if s.pinsSome s.hart.hid then s.tlb else t.tlb }

/-- The state the head of the VIQ runs in: an instruction that has pins from an earlier attempt or re-read keeps its translations, and
an `ald.c` the translation registers of its first attempt (R105, R317, R359, R393, R399). -/
def State.headState (s : State) : State :=
  if s.pinsSome s.hart.hid then
    s.alone.underPins ((s.hart.aldc.map AldcState.satp).getD s.hart.satp) ((s.hart.aldc.map AldcState.sum).getD (s.hart.mstatus.getLsbD 18))
  else s.alone

/-- What the head of the VIQ leaves where it had pins. -/
def State.headLeaves (s t : State) : State := if s.pinsSome s.hart.hid then keepRegisters s t else t

/-- An entry run to its end: completed, trapped, or left at the head of the VIQ to wait. Entries that the instruction itself
places (R413) follow the younger ones: those of a `vrest` that `vret` re-injected follow the area's, so that the VIQ can then hold up to
127 (log 58). One that completes, or that traps after its admission, is the last its core admitted (R32). -/
def runEntry (eff : VEntry → State → VRes) (e : VEntry) (younger : List VEntry) (s : State) : State :=
  match eff e s.clearUses.headState with
  | .ok t => (((s.headLeaves t).noteRun e.word).complete (younger ++ t.hart.viq)).admitted s.hart e.mode
  | .error (.trap cause tval side) =>
    match trapEntry s e cause tval side younger with
    | .ok t => if countsAdmitted cause side then t.admitted s.hart e.mode else t
    | .error r => s.onHart (fun h => { h with viq := e :: younger, window := none, wait := some r })
  | .error (.wait r t) => (s.headLeaves t).onHart (fun h => { h with viq := e :: younger, window := none, wait := some r })

/-- The scalar operands a word captures at dispatch (R252). -/
structure Captured where
  op0 : Option Word
  op1 : Option Word
  op2 : Option Word
deriving DecidableEq, Repr

/-- No operand captured. -/
def noOps : Captured := ⟨none, none, none⟩

/-- x[rs1] captured. -/
def opX (s : State) (r : BitVec 5) : Captured := ⟨some (s.hart.getX r), none, none⟩

/-- f[rs1] captured. -/
def opF (s : State) (r : BitVec 5) : Captured := ⟨some (s.hart.getF r), none, none⟩

/-- x[rs1] and x[rs2] captured. -/
def opXX (s : State) (r1 r2 : BitVec 5) : Captured := ⟨some (s.hart.getX r1), some (s.hart.getX r2), none⟩

/-- Whether a word is `mpop`, `mfirst`, `mvxs` or `ared`, whose BQ entry is a register entry (R204, R347). -/
def bqRegister (w : InstrWord) : Bool :=
  let f4 := (w.extractLsb' 28 4).toNat
  match (w.extractLsb' 0 7).toNat, (w.extractLsb' 12 3).toNat with
  | 0x5B, 0 => f4 == 4 || f4 == 5
  | 0x5B, 7 => f4 == 12
  | 0x7B, 0 => f4 == 8
  | _, _ => false

/-- Whether a word is `qany` or `qall`, whose BQ entry is a value entry (R347). -/
def bqValue (w : InstrWord) : Bool :=
  let f4 := (w.extractLsb' 28 4).toNat
  (w.extractLsb' 0 7).toNat == 0x77 && (w.extractLsb' 12 3).toNat == 4 && (f4 == 2 || f4 == 3)

/-- The vector instructions of a hart that hold a BQ entry, of those that take one and are not complete: the oldest, as far as the 16
entries go. One in the VIQ counts as holding its entry: R346 and R356 have it taken at admission, R347 tests at dispatch (DESIGN
CHOICE, log 64). -/
def Hart.bqHolders (h : Hart) : List VEntry :=
  (h.inFlight.filter (fun e => bqRegister e.word || bqValue e.word)).take (Config.bqDepth - h.bq.length)

/-- Whether a word that takes a BQ entry stalls at dispatch: 16 entries are held, one of them a register entry (R347). -/
def Hart.bqStalls (h : Hart) (w : InstrWord) : Bool :=
  (bqRegister w || bqValue w) && decide (Config.bqDepth ≤ h.bq.length + h.bqHolders.length) && h.bqHolders.any (fun e => bqRegister e.word)

/-- Dispatch of an ALV word whose own checks have passed: the profile check of R123, then the VIQ (R36, R347). With nothing before
it in the vector stream the instruction runs at once, unless the schedule holds it back or the vector unit does not admit it yet
(R32; log 2). A hart has at most 64 vector instructions that are not complete (R252; log 58). -/
def issue (profile : Nat) (w : InstrWord) (o : Captured) (eff : VEntry → State → VRes) (s : State) : Res :=
  if !(s.profiles s.hart).testBit profile then .next (s.raiseIllegal w)
  else
    let e : VEntry := ⟨s.hart.pc, w, o.op0, o.op1, o.op2, s.hart.mode⟩
    let s1 := s.setPc (s.hart.pc + 4#64)
    if s.hart.hasVectorWork = false ∧ s.hart.holdViq = false ∧ s.admits = true then .next (runEntry eff e [] s1)
    else if s.hart.bqStalls w then .next s.drainFirst
    else if s.hart.inFlight.length < Config.viqDepth then .next (s1.onHart (fun h => { h with viq := h.viq ++ [e] }))
    else .next s.drainFirst

/-- Dispatch of a word that R134 gives to S mode. -/
def issueS (allowMachine : Bool) (w : InstrWord) (o : Captured) (eff : VEntry → State → VRes) (s : State) : Res :=
  if s.hart.mode = .supervisor ∨ (allowMachine = true ∧ s.hart.mode = .machine) then issue 0 w o eff s
  else .next (s.raiseIllegal w)

/-! Accesses of memory instructions (R314 to R320). -/

/-- The physical bytes of a range of virtual bytes, from its lowest to its highest, on the pages its probe pinned: gaps between the bytes
it touches are held too (R321, R394). -/
def rangeBytes (s : State) (g : Agent) (p : Probed) (low high : Nat) : List (Aperture × Nat × Nat) :=
  p.pages.filterMap (fun e =>
    let first := max low (e.1 * 4096)
    let last := min high (e.1 * 4096 + 4095)
    if last < first then none
    else (physKey s g (e.2.page + first % 4096)).map (fun k => (k.1, k.2, last + 1 - first)))

/-- The ARIT entry of a range an engine form holds (R321, R394), at a place in the vector program order. -/
def aritOf (s : State) (order : Nat) (r : ProbeReq) (p : Probed) : AritEntry :=
  let low := (leastOf (r.ranges.map (fun x => x.1))).getD 0
  let high := r.ranges.foldl (fun m x => max m (x.1 + x.2 - 1)) 0
  { write := r.write, order := order, low := low, high := high, realm := r.agent.realm, asid := satpAsid r.agent.satp,
    bytes := rangeBytes s r.agent p low high, copy := false }

/-- The ARIT entries of the current hart's engine forms whose bytes are still to be written (R321). -/
def State.aritHeld (s : State) : List AritEntry := s.hart.vsq.flatMap VsqEntry.arit

/-- The next place in the vector program order among the entries a hart's ARIT holds. -/
def State.aritOrder (s : State) : Nat := s.aritHeld.foldl (fun m a => max m (a.order + 1)) 0

/-- The entries of some ranges of one instruction. -/
def State.aritEntries (s : State) (rs : List ProbeReq) (ps : List Probed) : List AritEntry :=
  List.zipWith (aritOf s s.aritOrder) rs ps

/-- Room for an engine form's entries among the 32 of its hart; the instruction of the window holds its entries already (R321). -/
def aritRoom (s : State) (n : Nat) : Except Stop Unit :=
  if s.hart.window.isSome = true ∨ s.aritHeld.length + n ≤ Config.aritEntries then .ok () else .error (.wait .storeRoom s)

/-- Whether an access to a piece overlaps a held range, one of the two writing (R321, R394). -/
def AritEntry.holds (a : AritEntry) (write : Bool) (c : Piece) : Bool :=
  (a.write || write) && a.bytes.any (fun b => b.1 == c.ap && decide (c.key < b.2.1 + b.2.2) && decide (b.2.1 < c.key + c.len))

/-- Whether a word is `vld.w`, which the destination of a `vcpy.a` never holds (R321, R325). -/
def isArrivalLoad (w : InstrWord) : Bool :=
  w.extractLsb' 0 7 == 0x57#7 && w.extractLsb' 12 3 == 5#3 && w.extractLsb' 28 4 == 0#4

/-- Whether a probed access waits on the ARIT of its hart (R321). -/
def aritBlocks (e : VEntry) (s : State) (rs : List ProbeReq) (ps : List Probed) : Bool :=
  (s.aritHeld.filter (fun a => !(a.copy && isArrivalLoad e.word))).any (fun a =>
    (List.zip rs ps).any (fun x => x.2.pieces.any (fun l => l.any (a.holds x.1.write))))

/-- Why a queued store cannot be performed now: a line held locked, a route that does not carry accesses (R334, R462). -/
def entryWait (s : State) (x : VsqEntry) : Option WaitReason :=
  if x.pending.any (fun w => lineLocked s w.key) then some .lineLock
  else if x.pending.any (fun w => routeWaits s w.key) then some .memory
  else none

/-- Some VSQ entries of the current hart performed in order; its later vector loads see them (R369). -/
def State.performAll (s : State) (xs : List VsqEntry) (rest : List VsqEntry) : State :=
  (xs.foldl (fun a x => performEntry x a) s).onHart (fun h =>
    ({ h with vsq := rest } : Hart).refresh (xs.flatMap (fun x => x.writes.map ByteWrite.key)))

/-- The stores of a hart still in its VSQ performed: its own later vector accesses find them done (R321, R342; log 3). -/
def drainVsq (s : State) : Except Stop State :=
  if s.hart.vsq.isEmpty then .ok s
  else
    match s.hart.vsq.findSome? (entryWait s) with
    | some r => .error (.wait r s)
    | none => .ok (s.performAll s.hart.vsq [])

/-- The probe of an instruction (R314, R315): its trap, a wait of a walk, for pins (R317), of one of its pieces, or its pins and
marks. An access that a range of the ARIT holds waits for its holder: the stores of the hart are performed first (R321; log 3). -/
def probeWith (wait : State → Piece → Option WaitReason) (e : VEntry) (s : State) (writes : Bool) (rs : List ProbeReq) :
    Except Stop (List Probed × State) :=
  if probeLocked (rs.map (viewOf s)) then .error (.wait .lineLock s)
  else
    match probe s writes rs e.word with
    | .error f => .error f.stop
    | .ok ps =>
      let t := commitProbe s rs ps
      if pinsLacking s t then .error (.wait (.pins s.pinTurn) s)
      else
        match ps.findSome? (fun p => p.pieces.findSome? (fun l => l.findSome? (wait s))) with
        | some w => .error (.wait w s)
        | none => if aritBlocks e s rs ps then (drainVsq t).map (fun t1 => (ps, t1)) else .ok (ps, t)

/-- The probe of ordinary accesses (R289). -/
def probeFor : VEntry → State → Bool → List ProbeReq → Except Stop (List Probed × State) := probeWith pieceWait

/-- A condition found after a probe has passed: the trap leaves the A and D bits the probe sets (R388). -/
def needProbed (e : VEntry) (cause : Nat) (ms : List LeafMark) (c : Bool) : Except Stop Unit :=
  if c then .ok () else .error (.trap cause (wordVal e.word) (.marked ms))

/-- A wait that leaves the state as the instruction found it. -/
def keeping (s : State) (x : VRes) : VRes :=
  match x with
  | .error (.wait r _) => .error (.wait r s)
  | y => y

/-- A request of the agent of an entry for every mapped aperture (R320). -/
def plainReq (s : State) (e : VEntry) (write : Bool) (ranges : List (Nat × Nat)) (misaligned : List Nat) : ProbeReq :=
  ⟨s.entryAgent e, write, ranges, misaligned, acceptAll⟩

/-- The scalar stores of the current hart still in its queue performed: a fence or an instruction that orders them before what
follows (R370, R373, R374). -/
def drainSsq (s : State) : Except Stop State :=
  match s.hart.ssq.findSome? (entryWait s) with
  | some r => .error (.wait r s)
  | none => .ok ((s.hart.ssq.foldl (fun a x => performEntry x a) s).onHart (fun h => { h with ssq := [] }))

/-- The stores of both streams performed. -/
def drainStores (s : State) : Except Stop State := do
  let s1 ← drainSsq s
  drainVsq s1

/-- The pointers of the banks that an arrival copy touches, at its lowest offset in each, rounded down to a multiple of 8, as its
admission sets them (R298). -/
def startArrival (keys : List Nat) (s : State) : State :=
  (banksTouched keys).foldl (fun t b => setArrival t b.1.1 b.1.2 (some (b.2 / 8 * 8))) s

/-- A store form's bytes written, or held in the VSQ where the schedule holds stores back or an older store is held there, an arrival
copy with the pointers of the banks it touches at its lowest offset in each (R298, R318, R369; log 3). -/
def State.pushStore (s : State) (x : VsqEntry) : State :=
  let s0 := s.onHart (Hart.refresh (x.writes.map ByteWrite.key))
  if s.hart.holdVsq || !s.hart.vsq.isEmpty then
    let s1 := s0.onHart (fun h => { h with vsq := h.vsq ++ [x] })
    if x.arrival then startArrival (x.writes.map ByteWrite.key) s1 else s1
  else performEntry x s0

/-- Room in the VSQ for a store form (R318). -/
def vsqRoom (s : State) : Except Stop Unit :=
  if s.hart.vsq.length < Config.vsqDepth then .ok () else .error (.wait .storeRoom s)

/-- The bytes of a range read now, each with whether it is poisoned. -/
def readNow (s : State) (l : List Piece) : List (Byte × Bool) :=
  l.flatMap (fun c => (keysFrom c.key c.len).map (fun k => (readThrough s c.ap k, keyPoisoned s k)))

/-- The line event before which a vector load may still place its read of the aligned unit of `u` bytes that holds a byte: the earliest
whose old bytes are kept for all of the unit (R340, R366; log 8). A unit of 0 bytes is read as it is. -/
def Hart.oldEvent (u : Nat) (h : Hart) (key : Nat) : Option Nat :=
  let base := key / u * u
  if u = 0 then none
  else
    ((h.oldLines.filter (fun o => o.key == base)).map OldByte.event).find? (fun n =>
      (List.range u).all (fun i => h.oldLines.any (fun o => o.key == base + i && o.event == n)))

/-- The old byte a vector load reads, none where it reads the byte as it is. -/
def Hart.oldByte (u : Nat) (h : Hart) (key : Nat) : Option Byte :=
  (h.oldEvent u key).bind (fun n => (h.oldLines.find? (fun o => o.key == key && o.event == n)).map OldByte.value)

/-- A byte as the vector stream of the current hart reads it, in single-copy atomic units of `u` bytes: a line event of a near-memory
command is ordered before the read only where something places it there, or through the near-memory aperture (R289, R340, R366, R376;
log 8). -/
def readStream (u : Nat) (s : State) (ap : Aperture) (key : Nat) : Byte :=
  (if ap = .nearMemory ∨ s.hart.oldLines.isEmpty = true then none else s.hart.oldByte u key).getD (readThrough s ap key)

/-- The bytes of a range as the vector stream of the current hart reads them, each with whether it is poisoned. -/
def readPieces (u : Nat) (s : State) (l : List Piece) : List (Byte × Bool) :=
  l.flatMap (fun c => (keysFrom c.key c.len).map (fun k => (readStream u s c.ap k, keyPoisoned s k)))

/-- Whether some pieces hold a byte, other than through the near-memory aperture. -/
def piecesHold (l : List Piece) (key : Nat) : Bool :=
  l.any (fun c => c.ap != .nearMemory && decide (c.key ≤ key) && decide (key < c.key + c.len))

/-- A hart whose vector stream has read some pieces in units of `u` bytes: a later read of one of their bytes does not go back before
this one (R369), and what its registers hold may depend on it. -/
def Hart.observe (u : Nat) (l : List Piece) (h : Hart) : Hart :=
  if h.oldLines.isEmpty then h
  else
    { h with
      oldLines := h.oldLines.filter (fun o => !(piecesHold l o.key) || (h.oldEvent u o.key).any (fun n => decide (n ≤ o.event))),
      vectorTaint := true }

/-- The unit a load reads in where its places or its mask depend on vector registers: what they were formed from may have been read
after a line event, and then so is the load (R369; log 8). -/
def Hart.unitOf (h : Hart) (dependent : Bool) (u : Nat) : Nat := if dependent && h.vectorTaint then 0 else u

/-- A number from bytes read, and whether one of them is poisoned. -/
def valueOf (bs : List (Byte × Bool)) : Nat × Bool := (ofBytes (bs.map (fun b => b.1)), bs.any (fun b => b.2))

end Sys2Proof.Machine
end

