-- ==== Sys2Proof/Machine/VecInt.lean ====
section
/-! DEFINITION. The VI instructions (R127, R128, R208 to R213) and what every lane operation shares: the scalar-affine path
(R190, R191), a write of a register group (R202) and a write of a mask (R209). -/

namespace Sys2Proof.Machine

/-! Lane operations. -/

/-- The flags of the active elements ORed (R86). -/
def laneFlags : List (Option (Nat × Nat × Bool)) → Nat
  | [] => 0
  | none :: l => laneFlags l
  | some x :: l => x.2.1 ||| laneFlags l

/-- A lane operation: admission, then for every active element below `vl` a value, its flags and its poison, written to a
destination group (R202); flags are ORed (R86). -/
def mapLanes (e : VEntry) (s : State) (reads : List GroupRead) (d dg dsew : Nat) (m : MaskNo)
    (f : State → Nat → Nat × Nat × Bool) : VRes := do
  let c := s.cfg
  let dest := destRegs c d dg (sewBits dsew) c.vl
  let s1 ← admission e s reads dest (microOpsOf dest.length)
  let g := f s1
  let outs := (List.range c.vl).map (fun i => if s1.hart.maskBit m i then some (g i) else none)
  let fl := laneFlags outs
  .ok (writeGroup (s1.onHart (fun h => h.orFlags fl)) d dg dsew (outs.map (fun o => o.map (fun x => (x.1, x.2.2)))))

/-- A comparison: for every active element a truth, its flags and its poison; poison traps (R205), the truths go to a mask
(R200). -/
def maskLanes (e : VEntry) (s : State) (reads : List GroupRead) (m md : MaskNo) (f : State → Nat → Bool × Nat × Bool) :
    VRes := do
  let regs := (reads.map (fun r => r.used - r.lo)).foldl (· + ·) 0
  let s1 ← admission e s reads [] (microOpsOf regs)
  let g := f s1
  let outs := (s1.actives m).map (fun i => (i, g i))
  need e 9 (!(outs.any (fun o => o.2.2.2)))
  let fl := outs.foldl (fun acc o => acc ||| o.2.2.1) 0
  .ok (s1.onHart (fun h => (h.orFlags fl).writeMask md (outs.map (fun o => (o.1, o.2.1)))))

/-! The scalar-affine path (R190, R191). -/

/-- The operations R191 lists. -/
inductive ShapeOp where
  | add | sub | rsub | mul | sll | bitAnd | bitOr | bitXor
deriving DecidableEq, Repr

/-- The shape of a result at width `w` from the base and stride of a and of b, none where R191 tags it G. -/
def ShapeOp.result (o : ShapeOp) (w : Nat) (a b : Nat × Nat) : Option (Nat × Nat) :=
  let n := 2 ^ w
  match o with
  | .add => some ((b.1 + a.1) % n, (b.2 + a.2) % n)
  | .sub => some ((b.1 + (n - a.1 % n)) % n, (b.2 + (n - a.2 % n)) % n)
  | .rsub => some ((a.1 + (n - b.1 % n)) % n, (a.2 + (n - b.2 % n)) % n)
  | .mul =>
    if a.2 % n = 0 then some (b.1 * a.1 % n, b.2 * a.1 % n)
    else if b.2 % n = 0 then some (b.1 * a.1 % n, b.1 * a.2 % n) else none
  | .sll => if a.2 % n = 0 then some (b.1 * 2 ^ (a.1 % w) % n, b.2 * 2 ^ (a.1 % w) % n) else none
  | .bitAnd => if a.2 % n = 0 ∧ b.2 % n = 0 then some (b.1 &&& a.1, 0) else none
  | .bitOr => if a.2 % n = 0 ∧ b.2 % n = 0 then some (b.1 ||| a.1, 0) else none
  | .bitXor => if a.2 % n = 0 ∧ b.2 % n = 0 then some (b.1 ^^^ a.1, 0) else none

/-- The base and stride of a register that is U or A at the current sew and group (R190). -/
def VReg.shape (r : VReg) (c : VCfg) : Option (Nat × Nat) :=
  if r.tag ≠ .g ∧ r.readsPlain c.sew c.grp = true then some (r.base.toNat, r.step) else none

/-- The shape of register `j` of operand a: scalars and immediates count as U (R190). -/
def AOp.shape (a : AOp) (e : VEntry) (s : State) (c : VCfg) (j : Nat) : Option (Nat × Nat) :=
  match a with
  | .vec n => (s.hart.getV (n + j)).shape c
  | .named => (s.hart.getV (wordField (e.op0.getD 0#64) 0 5 + j)).shape c
  | .scalar => some ((e.op0.getD 0#64).toNat % 2 ^ c.w, 0)
  | .imm i => some (ofSigned 64 i % 2 ^ c.w, 0)
  | .queue _ => none

/-- The shapes of a whole destination group, none where one register would be G (R190). -/
def shapeGroup (o : ShapeOp) (a : AOp) (e : VEntry) (s : State) (c : VCfg) (b : Nat) : Nat → Option (List (Nat × Nat))
  | 0 => some []
  | j + 1 =>
    match shapeGroup o a e s c b j, a.shape e s c j, (s.hart.getV (b + j)).shape c with
    | some l, some x, some y =>
      match o.result c.w x y with
      | some r => some (l ++ [r])
      | none => none
    | _, _, _ => none

/-- Consecutive registers tagged U or A (R188). -/
def writeShapes (c : VCfg) (d : Nat) (l : List (Nat × Nat)) (h : Hart) : Hart :=
  (l.zipIdx).foldl (fun acc x => acc.setV (d + x.2) (VReg.affine c x.1.1 x.1.2)) h

/-- An instruction run on the scalar-affine path (R33, R433). -/
def runShape (e : VEntry) (s : State) (c : VCfg) (d : Nat) (l : List (Nat × Nat)) : State :=
  ((s.countAdmitted e 0).countHart 0x10 1 e.mode).onHart (writeShapes c d l)

/-- The shapes of the result where R190 puts the instruction on the scalar-affine path. -/
def shapeOf (o : Option ShapeOp) (m : MaskNo) (a : AOp) (e : VEntry) (s : State) (b : Nat) : Option (List (Nat × Nat)) :=
  let c := s.cfg
  match o with
  | some op => if m = 0#3 ∧ c.vl = c.vlmax then shapeGroup op a e s c b c.g else none
  | none => none

/-! Integer elements at width `w`: operand a, then b from vs2, then vd (R203, R208). -/

/-- An integer operation on elements: the width, a, b and the old vd. -/
abbrev IntElem := Nat → Nat → Nat → Nat → Nat

/-- `add` (R208). -/
def addElem : IntElem := fun w a b _ => (b + a) % 2 ^ w
/-- `sub` (R208). -/
def subElem : IntElem := fun w a b _ => (b + (2 ^ w - a)) % 2 ^ w
/-- `rsub` (R208). -/
def rsubElem : IntElem := fun w a b _ => (a + (2 ^ w - b)) % 2 ^ w
/-- `mul` (R208). -/
def mulElem : IntElem := fun w a b _ => b * a % 2 ^ w
/-- `mulh` (R208). -/
def mulhElem : IntElem := fun w a b _ => ofSigned w (toSigned w b * toSigned w a / (2 ^ w : Nat))
/-- `min` (R208). -/
def minElem : IntElem := fun w a b _ => if toSigned w b ≤ toSigned w a then b else a
/-- `max` (R208). -/
def maxElem : IntElem := fun w a b _ => if toSigned w a ≤ toSigned w b then b else a
/-- `and` (R208). -/
def andElem : IntElem := fun _ a b _ => b &&& a
/-- `or` (R208). -/
def orElem : IntElem := fun _ a b _ => b ||| a
/-- `xor` (R208). -/
def xorElem : IntElem := fun _ a b _ => b ^^^ a
/-- `sll` (R208). -/
def sllElem : IntElem := fun w a b _ => b * 2 ^ (a % w) % 2 ^ w
/-- `srl` (R208). -/
def srlElem : IntElem := fun w a b _ => b / 2 ^ (a % w)
/-- `sra` (R208). -/
def sraElem : IntElem := fun w a b _ => ofSigned w (toSigned w b / (2 ^ (a % w) : Nat))
/-- `mac` (R208). -/
def macElem : IntElem := fun w a b v => (v + b * a) % 2 ^ w
/-- `minz` (R210). -/
def minzElem : IntElem := fun _ a b _ => min b a
/-- `maxz` (R210). -/
def maxzElem : IntElem := fun _ a b _ => max b a
/-- `mulhz` (R210). -/
def mulhzElem : IntElem := fun w a b _ => b * a / 2 ^ w
/-- `div` (R210). -/
def divElem : IntElem := fun w a b _ =>
  if a = 0 then 2 ^ w - 1
  else if b = 2 ^ (w - 1) ∧ a = 2 ^ w - 1 then b
  else ofSigned w ((toSigned w b).tdiv (toSigned w a))
/-- `divz` (R210). -/
def divzElem : IntElem := fun w a b _ => if a = 0 then 2 ^ w - 1 else b / a
/-- `rem` (R210). -/
def remElem : IntElem := fun w a b _ =>
  if a = 0 then b
  else if b = 2 ^ (w - 1) ∧ a = 2 ^ w - 1 then 0
  else ofSigned w (toSigned w b - toSigned w a * (toSigned w b).tdiv (toSigned w a))
/-- `remz` (R210). -/
def remzElem : IntElem := fun _ a b _ => if a = 0 then b else b % a
/-- `sadd` (R210). -/
def saddElem : IntElem := fun w a b _ => ofSigned w (satSigned w (toSigned w b + toSigned w a))
/-- `ssub` (R210). -/
def ssubElem : IntElem := fun w a b _ => ofSigned w (satSigned w (toSigned w b - toSigned w a))
/-- `absd` (R210). -/
def absdElem : IntElem := fun w a b _ => (toSigned w b - toSigned w a).natAbs % 2 ^ w
/-- `wadd`: sources at width `w`, result at width 2w (R211). -/
def waddElem : IntElem := fun w a b _ => ofSigned (2 * w) (toSigned w b + toSigned w a)
/-- `wmul` (R211). -/
def wmulElem : IntElem := fun w a b _ => ofSigned (2 * w) (toSigned w b * toSigned w a)

/-- A VI instruction of one result width: `wide` doubles the destination (R211), `useD` makes vd a source, `shape` names the
rule of R191. -/
def intOp (op : IntElem) (shape : Option ShapeOp) (wide useD : Bool) (m : MaskNo) (a : AOp) (b d : BitVec 5) (e : VEntry)
    (s : State) : VRes := do
  let c := s.cfg
  let dg := if wide then 2 * c.g else c.g
  let dsew := if wide then sewOfBits (2 * c.w) else c.sew
  needVtype e c
  need e 1 (c.w != 6 && (!wide || c.w != 64) && groupOk b.toNat c.g && groupOk d.toNat dg && a.ok e s c.g)
  match shapeOf shape m a e s b.toNat with
  | some l => .ok (runShape e s c d.toNat l)
  | none =>
    let reads := a.reads e c ++ [readBelow c b.toNat c.g c.sew c.vl] ++
      (if useD then [readBelow c d.toNat c.g c.sew c.vl] else [])
    let t ← mapLanes e s reads d.toNat dg dsew m (fun s1 =>
      let x := a.src e s1
      let y := groupSrc s1 b.toNat c.g c.sew
      let z := if useD then groupSrc s1 d.toNat c.g c.sew else constSrc c.w 0
      fun i => (op c.w (x i).1 (y i).1 (z i).1, 0, (x i).2 || (y i).2 || (z i).2))
    .ok (a.consume t)

/-! Comparisons (R209). -/

/-- `cmp`: s(b) cc s(a). -/
def condSigned (c : Cond) (w a b : Nat) : Bool :=
  match c with
  | .eq => b == a
  | .ne => b != a
  | .lt => decide (toSigned w b < toSigned w a)
  | .le => decide (toSigned w b ≤ toSigned w a)

/-- `cmpz`: u(b) cc u(a). -/
def condUnsigned (c : Cond) (_w a b : Nat) : Bool :=
  match c with
  | .eq => b == a
  | .ne => b != a
  | .lt => decide (b < a)
  | .le => decide (b ≤ a)

/-- `cmp` and `cmpz` (R209). -/
def cmpOp (holds : Nat → Nat → Nat → Bool) (m : MaskNo) (a : AOp) (b : BitVec 5) (md : MaskNo) (e : VEntry) (s : State) :
    VRes := do
  let c := s.cfg
  needVtype e c
  need e 1 (c.w != 6 && groupOk b.toNat c.g && a.ok e s c.g)
  let t ← maskLanes e s (a.reads e c ++ [readBelow c b.toNat c.g c.sew c.vl]) m md (fun s1 =>
    let x := a.src e s1
    let y := groupSrc s1 b.toNat c.g c.sew
    fun i => (holds c.w (x i).1 (y i).1, 0, (x i).2 || (y i).2))
  .ok (a.consume t)

/-! Width changes (R128, R212). -/

/-- The factor as a number. -/
def factorNum : Factor → Nat
  | .two => 2 | .four => 4 | .eight => 8

/-- An instruction with one vector source of its own width and group: operation, source sew, source registers. -/
def unaryOp (ok : Bool) (op : Nat → Nat) (ssew sg : Nat) (m : MaskNo) (b d : BitVec 5) (e : VEntry) (s : State) : VRes := do
  let c := s.cfg
  needVtype e c
  need e 1 (ok && groupOk b.toNat sg && groupOk d.toNat c.g)
  mapLanes e s [readBelow c b.toNat sg ssew c.vl] d.toNat c.g c.sew m (fun s1 =>
    let y := groupSrc s1 b.toNat sg ssew
    fun i => (op (y i).1, 0, (y i).2))

/-- `sext` and `zext` (R212): the source is read at width w / f. -/
def extendOp (signed : Bool) (m : MaskNo) (b : BitVec 5) (f : Factor) (d : BitVec 5) (e : VEntry) (s : State) : VRes :=
  let c := s.cfg
  let sw := c.w / (factorNum f)
  unaryOp (c.w != 6 && decide (4 ≤ sw)) (fun x => if signed then ofSigned c.w (toSigned sw x) else x) (sewOfBits sw)
    (max 1 (c.g / (factorNum f))) m b d e s

/-- `narrow` and `narrowz` (R212): the source is read at width w × f. -/
def narrowOp (unsigned : Bool) (m : MaskNo) (b : BitVec 5) (f : Factor) (d : BitVec 5) (e : VEntry) (s : State) : VRes :=
  let c := s.cfg
  let sw := c.w * (factorNum f)
  unaryOp (c.w != 6 && decide (sw ≤ 64))
    (fun x => if unsigned then (clampInt 0 ((2 ^ c.w : Nat) - 1) (toSigned sw x)).toNat
      else ofSigned c.w (satSigned c.w (toSigned sw x)))
    (sewOfBits sw) (c.g * (factorNum f)) m b d e s

/-- The counts of `bitc` (R213). -/
def bitCount (o : BitCount) (w x : Nat) : Nat :=
  match o with
  | .popc => popCount w x
  | .clz => w - bitLen x
  | .ctz => trailingZeros w x

/-- `bitc` (R213). -/
def bitcOp (m : MaskNo) (b : BitVec 5) (o : BitCount) (d : BitVec 5) (e : VEntry) (s : State) : VRes :=
  unaryOp (s.cfg.w != 6) (fun x => bitCount o s.cfg.w x % 2 ^ s.cfg.w) s.cfg.sew s.cfg.g m b d e s

/-! The instructions. -/

/-- `add.vv` (R208). -/
def vAddVv (m : MaskNo) (b : BitVec 5) (a : BitVec 5) (d : BitVec 5) : VEntry → State → VRes := intOp addElem (some .add) false false m (.vec a.toNat) b d
/-- Dispatch of `add.vv`. -/
def execAddVv (m : MaskNo) (b : BitVec 5) (a : BitVec 5) (d : BitVec 5) (s : State) : Res := issue 0 (packWord 0#4 m b a 0#3 d 0x0B#7) noOps (vAddVv m b a d) s

/-- `add.vx` (R208). -/
def vAddVx (m : MaskNo) (b : BitVec 5) (_a : BitVec 5) (d : BitVec 5) : VEntry → State → VRes := intOp addElem (some .add) false false m .scalar b d
/-- Dispatch of `add.vx`. -/
def execAddVx (m : MaskNo) (b : BitVec 5) (a : BitVec 5) (d : BitVec 5) (s : State) : Res := issue 0 (packWord 0#4 m b a 1#3 d 0x0B#7) (opX s a) (vAddVx m b a d) s

/-- `add.vi` (R208). -/
def vAddVi (m : MaskNo) (b : BitVec 5) (a : BitVec 5) (d : BitVec 5) : VEntry → State → VRes := intOp addElem (some .add) false false m (.imm a.toInt) b d
/-- Dispatch of `add.vi`. -/
def execAddVi (m : MaskNo) (b : BitVec 5) (a : BitVec 5) (d : BitVec 5) (s : State) : Res := issue 0 (packWord 0#4 m b a 2#3 d 0x0B#7) noOps (vAddVi m b a d) s

/-- `add.vq` (R208). -/
def vAddVq (m : MaskNo) (b : BitVec 5) (q : QueueNo) (d : BitVec 5) : VEntry → State → VRes := intOp addElem (some .add) false false m (.queue q) b d
/-- Dispatch of `add.vq`. -/
def execAddVq (m : MaskNo) (b : BitVec 5) (q : QueueNo) (d : BitVec 5) (s : State) : Res := issue 0 (packWord 0#4 m b (0#3 ++ q) 3#3 d 0x0B#7) noOps (vAddVq m b q d) s

/-- `add.vn` (R208). -/
def vAddVn (m : MaskNo) (b : BitVec 5) (_a : BitVec 5) (d : BitVec 5) : VEntry → State → VRes := intOp addElem (some .add) false false m .named b d
/-- Dispatch of `add.vn`. -/
def execAddVn (m : MaskNo) (b : BitVec 5) (a : BitVec 5) (d : BitVec 5) (s : State) : Res := issue 0 (packWord 0#4 m b a 4#3 d 0x0B#7) (opX s a) (vAddVn m b a d) s

/-- `sub.vv` (R208). -/
def vSubVv (m : MaskNo) (b : BitVec 5) (a : BitVec 5) (d : BitVec 5) : VEntry → State → VRes := intOp subElem (some .sub) false false m (.vec a.toNat) b d
/-- Dispatch of `sub.vv`. -/
def execSubVv (m : MaskNo) (b : BitVec 5) (a : BitVec 5) (d : BitVec 5) (s : State) : Res := issue 0 (packWord 1#4 m b a 0#3 d 0x0B#7) noOps (vSubVv m b a d) s

/-- `sub.vx` (R208). -/
def vSubVx (m : MaskNo) (b : BitVec 5) (_a : BitVec 5) (d : BitVec 5) : VEntry → State → VRes := intOp subElem (some .sub) false false m .scalar b d
/-- Dispatch of `sub.vx`. -/
def execSubVx (m : MaskNo) (b : BitVec 5) (a : BitVec 5) (d : BitVec 5) (s : State) : Res := issue 0 (packWord 1#4 m b a 1#3 d 0x0B#7) (opX s a) (vSubVx m b a d) s

/-- `sub.vi` (R208). -/
def vSubVi (m : MaskNo) (b : BitVec 5) (a : BitVec 5) (d : BitVec 5) : VEntry → State → VRes := intOp subElem (some .sub) false false m (.imm a.toInt) b d
/-- Dispatch of `sub.vi`. -/
def execSubVi (m : MaskNo) (b : BitVec 5) (a : BitVec 5) (d : BitVec 5) (s : State) : Res := issue 0 (packWord 1#4 m b a 2#3 d 0x0B#7) noOps (vSubVi m b a d) s

/-- `sub.vq` (R208). -/
def vSubVq (m : MaskNo) (b : BitVec 5) (q : QueueNo) (d : BitVec 5) : VEntry → State → VRes := intOp subElem (some .sub) false false m (.queue q) b d
/-- Dispatch of `sub.vq`. -/
def execSubVq (m : MaskNo) (b : BitVec 5) (q : QueueNo) (d : BitVec 5) (s : State) : Res := issue 0 (packWord 1#4 m b (0#3 ++ q) 3#3 d 0x0B#7) noOps (vSubVq m b q d) s

/-- `sub.vn` (R208). -/
def vSubVn (m : MaskNo) (b : BitVec 5) (_a : BitVec 5) (d : BitVec 5) : VEntry → State → VRes := intOp subElem (some .sub) false false m .named b d
/-- Dispatch of `sub.vn`. -/
def execSubVn (m : MaskNo) (b : BitVec 5) (a : BitVec 5) (d : BitVec 5) (s : State) : Res := issue 0 (packWord 1#4 m b a 4#3 d 0x0B#7) (opX s a) (vSubVn m b a d) s

/-- `rsub.vv` (R208). -/
def vRsubVv (m : MaskNo) (b : BitVec 5) (a : BitVec 5) (d : BitVec 5) : VEntry → State → VRes := intOp rsubElem (some .rsub) false false m (.vec a.toNat) b d
/-- Dispatch of `rsub.vv`. -/
def execRsubVv (m : MaskNo) (b : BitVec 5) (a : BitVec 5) (d : BitVec 5) (s : State) : Res := issue 0 (packWord 2#4 m b a 0#3 d 0x0B#7) noOps (vRsubVv m b a d) s

/-- `rsub.vx` (R208). -/
def vRsubVx (m : MaskNo) (b : BitVec 5) (_a : BitVec 5) (d : BitVec 5) : VEntry → State → VRes := intOp rsubElem (some .rsub) false false m .scalar b d
/-- Dispatch of `rsub.vx`. -/
def execRsubVx (m : MaskNo) (b : BitVec 5) (a : BitVec 5) (d : BitVec 5) (s : State) : Res := issue 0 (packWord 2#4 m b a 1#3 d 0x0B#7) (opX s a) (vRsubVx m b a d) s

/-- `rsub.vi` (R208). -/
def vRsubVi (m : MaskNo) (b : BitVec 5) (a : BitVec 5) (d : BitVec 5) : VEntry → State → VRes := intOp rsubElem (some .rsub) false false m (.imm a.toInt) b d
/-- Dispatch of `rsub.vi`. -/
def execRsubVi (m : MaskNo) (b : BitVec 5) (a : BitVec 5) (d : BitVec 5) (s : State) : Res := issue 0 (packWord 2#4 m b a 2#3 d 0x0B#7) noOps (vRsubVi m b a d) s

/-- `rsub.vq` (R208). -/
def vRsubVq (m : MaskNo) (b : BitVec 5) (q : QueueNo) (d : BitVec 5) : VEntry → State → VRes := intOp rsubElem (some .rsub) false false m (.queue q) b d
/-- Dispatch of `rsub.vq`. -/
def execRsubVq (m : MaskNo) (b : BitVec 5) (q : QueueNo) (d : BitVec 5) (s : State) : Res := issue 0 (packWord 2#4 m b (0#3 ++ q) 3#3 d 0x0B#7) noOps (vRsubVq m b q d) s

/-- `rsub.vn` (R208). -/
def vRsubVn (m : MaskNo) (b : BitVec 5) (_a : BitVec 5) (d : BitVec 5) : VEntry → State → VRes := intOp rsubElem (some .rsub) false false m .named b d
/-- Dispatch of `rsub.vn`. -/
def execRsubVn (m : MaskNo) (b : BitVec 5) (a : BitVec 5) (d : BitVec 5) (s : State) : Res := issue 0 (packWord 2#4 m b a 4#3 d 0x0B#7) (opX s a) (vRsubVn m b a d) s

/-- `mul.vv` (R208). -/
def vMulVv (m : MaskNo) (b : BitVec 5) (a : BitVec 5) (d : BitVec 5) : VEntry → State → VRes := intOp mulElem (some .mul) false false m (.vec a.toNat) b d
/-- Dispatch of `mul.vv`. -/
def execMulVv (m : MaskNo) (b : BitVec 5) (a : BitVec 5) (d : BitVec 5) (s : State) : Res := issue 0 (packWord 3#4 m b a 0#3 d 0x0B#7) noOps (vMulVv m b a d) s

/-- `mul.vx` (R208). -/
def vMulVx (m : MaskNo) (b : BitVec 5) (_a : BitVec 5) (d : BitVec 5) : VEntry → State → VRes := intOp mulElem (some .mul) false false m .scalar b d
/-- Dispatch of `mul.vx`. -/
def execMulVx (m : MaskNo) (b : BitVec 5) (a : BitVec 5) (d : BitVec 5) (s : State) : Res := issue 0 (packWord 3#4 m b a 1#3 d 0x0B#7) (opX s a) (vMulVx m b a d) s

/-- `mul.vi` (R208). -/
def vMulVi (m : MaskNo) (b : BitVec 5) (a : BitVec 5) (d : BitVec 5) : VEntry → State → VRes := intOp mulElem (some .mul) false false m (.imm a.toInt) b d
/-- Dispatch of `mul.vi`. -/
def execMulVi (m : MaskNo) (b : BitVec 5) (a : BitVec 5) (d : BitVec 5) (s : State) : Res := issue 0 (packWord 3#4 m b a 2#3 d 0x0B#7) noOps (vMulVi m b a d) s

/-- `mul.vq` (R208). -/
def vMulVq (m : MaskNo) (b : BitVec 5) (q : QueueNo) (d : BitVec 5) : VEntry → State → VRes := intOp mulElem (some .mul) false false m (.queue q) b d
/-- Dispatch of `mul.vq`. -/
def execMulVq (m : MaskNo) (b : BitVec 5) (q : QueueNo) (d : BitVec 5) (s : State) : Res := issue 0 (packWord 3#4 m b (0#3 ++ q) 3#3 d 0x0B#7) noOps (vMulVq m b q d) s

/-- `mul.vn` (R208). -/
def vMulVn (m : MaskNo) (b : BitVec 5) (_a : BitVec 5) (d : BitVec 5) : VEntry → State → VRes := intOp mulElem (some .mul) false false m .named b d
/-- Dispatch of `mul.vn`. -/
def execMulVn (m : MaskNo) (b : BitVec 5) (a : BitVec 5) (d : BitVec 5) (s : State) : Res := issue 0 (packWord 3#4 m b a 4#3 d 0x0B#7) (opX s a) (vMulVn m b a d) s

/-- `mulh.vv` (R208). -/
def vMulhVv (m : MaskNo) (b : BitVec 5) (a : BitVec 5) (d : BitVec 5) : VEntry → State → VRes := intOp mulhElem none false false m (.vec a.toNat) b d
/-- Dispatch of `mulh.vv`. -/
def execMulhVv (m : MaskNo) (b : BitVec 5) (a : BitVec 5) (d : BitVec 5) (s : State) : Res := issue 0 (packWord 4#4 m b a 0#3 d 0x0B#7) noOps (vMulhVv m b a d) s

/-- `mulh.vx` (R208). -/
def vMulhVx (m : MaskNo) (b : BitVec 5) (_a : BitVec 5) (d : BitVec 5) : VEntry → State → VRes := intOp mulhElem none false false m .scalar b d
/-- Dispatch of `mulh.vx`. -/
def execMulhVx (m : MaskNo) (b : BitVec 5) (a : BitVec 5) (d : BitVec 5) (s : State) : Res := issue 0 (packWord 4#4 m b a 1#3 d 0x0B#7) (opX s a) (vMulhVx m b a d) s

/-- `mulh.vi` (R208). -/
def vMulhVi (m : MaskNo) (b : BitVec 5) (a : BitVec 5) (d : BitVec 5) : VEntry → State → VRes := intOp mulhElem none false false m (.imm a.toInt) b d
/-- Dispatch of `mulh.vi`. -/
def execMulhVi (m : MaskNo) (b : BitVec 5) (a : BitVec 5) (d : BitVec 5) (s : State) : Res := issue 0 (packWord 4#4 m b a 2#3 d 0x0B#7) noOps (vMulhVi m b a d) s

/-- `mulh.vq` (R208). -/
def vMulhVq (m : MaskNo) (b : BitVec 5) (q : QueueNo) (d : BitVec 5) : VEntry → State → VRes := intOp mulhElem none false false m (.queue q) b d
/-- Dispatch of `mulh.vq`. -/
def execMulhVq (m : MaskNo) (b : BitVec 5) (q : QueueNo) (d : BitVec 5) (s : State) : Res := issue 0 (packWord 4#4 m b (0#3 ++ q) 3#3 d 0x0B#7) noOps (vMulhVq m b q d) s

/-- `mulh.vn` (R208). -/
def vMulhVn (m : MaskNo) (b : BitVec 5) (_a : BitVec 5) (d : BitVec 5) : VEntry → State → VRes := intOp mulhElem none false false m .named b d
/-- Dispatch of `mulh.vn`. -/
def execMulhVn (m : MaskNo) (b : BitVec 5) (a : BitVec 5) (d : BitVec 5) (s : State) : Res := issue 0 (packWord 4#4 m b a 4#3 d 0x0B#7) (opX s a) (vMulhVn m b a d) s

/-- `min.vv` (R208). -/
def vMinVv (m : MaskNo) (b : BitVec 5) (a : BitVec 5) (d : BitVec 5) : VEntry → State → VRes := intOp minElem none false false m (.vec a.toNat) b d
/-- Dispatch of `min.vv`. -/
def execMinVv (m : MaskNo) (b : BitVec 5) (a : BitVec 5) (d : BitVec 5) (s : State) : Res := issue 0 (packWord 5#4 m b a 0#3 d 0x0B#7) noOps (vMinVv m b a d) s

/-- `min.vx` (R208). -/
def vMinVx (m : MaskNo) (b : BitVec 5) (_a : BitVec 5) (d : BitVec 5) : VEntry → State → VRes := intOp minElem none false false m .scalar b d
/-- Dispatch of `min.vx`. -/
def execMinVx (m : MaskNo) (b : BitVec 5) (a : BitVec 5) (d : BitVec 5) (s : State) : Res := issue 0 (packWord 5#4 m b a 1#3 d 0x0B#7) (opX s a) (vMinVx m b a d) s

/-- `min.vi` (R208). -/
def vMinVi (m : MaskNo) (b : BitVec 5) (a : BitVec 5) (d : BitVec 5) : VEntry → State → VRes := intOp minElem none false false m (.imm a.toInt) b d
/-- Dispatch of `min.vi`. -/
def execMinVi (m : MaskNo) (b : BitVec 5) (a : BitVec 5) (d : BitVec 5) (s : State) : Res := issue 0 (packWord 5#4 m b a 2#3 d 0x0B#7) noOps (vMinVi m b a d) s

/-- `min.vq` (R208). -/
def vMinVq (m : MaskNo) (b : BitVec 5) (q : QueueNo) (d : BitVec 5) : VEntry → State → VRes := intOp minElem none false false m (.queue q) b d
/-- Dispatch of `min.vq`. -/
def execMinVq (m : MaskNo) (b : BitVec 5) (q : QueueNo) (d : BitVec 5) (s : State) : Res := issue 0 (packWord 5#4 m b (0#3 ++ q) 3#3 d 0x0B#7) noOps (vMinVq m b q d) s

/-- `min.vn` (R208). -/
def vMinVn (m : MaskNo) (b : BitVec 5) (_a : BitVec 5) (d : BitVec 5) : VEntry → State → VRes := intOp minElem none false false m .named b d
/-- Dispatch of `min.vn`. -/
def execMinVn (m : MaskNo) (b : BitVec 5) (a : BitVec 5) (d : BitVec 5) (s : State) : Res := issue 0 (packWord 5#4 m b a 4#3 d 0x0B#7) (opX s a) (vMinVn m b a d) s

/-- `max.vv` (R208). -/
def vMaxVv (m : MaskNo) (b : BitVec 5) (a : BitVec 5) (d : BitVec 5) : VEntry → State → VRes := intOp maxElem none false false m (.vec a.toNat) b d
/-- Dispatch of `max.vv`. -/
def execMaxVv (m : MaskNo) (b : BitVec 5) (a : BitVec 5) (d : BitVec 5) (s : State) : Res := issue 0 (packWord 6#4 m b a 0#3 d 0x0B#7) noOps (vMaxVv m b a d) s

/-- `max.vx` (R208). -/
def vMaxVx (m : MaskNo) (b : BitVec 5) (_a : BitVec 5) (d : BitVec 5) : VEntry → State → VRes := intOp maxElem none false false m .scalar b d
/-- Dispatch of `max.vx`. -/
def execMaxVx (m : MaskNo) (b : BitVec 5) (a : BitVec 5) (d : BitVec 5) (s : State) : Res := issue 0 (packWord 6#4 m b a 1#3 d 0x0B#7) (opX s a) (vMaxVx m b a d) s

/-- `max.vi` (R208). -/
def vMaxVi (m : MaskNo) (b : BitVec 5) (a : BitVec 5) (d : BitVec 5) : VEntry → State → VRes := intOp maxElem none false false m (.imm a.toInt) b d
/-- Dispatch of `max.vi`. -/
def execMaxVi (m : MaskNo) (b : BitVec 5) (a : BitVec 5) (d : BitVec 5) (s : State) : Res := issue 0 (packWord 6#4 m b a 2#3 d 0x0B#7) noOps (vMaxVi m b a d) s

/-- `max.vq` (R208). -/
def vMaxVq (m : MaskNo) (b : BitVec 5) (q : QueueNo) (d : BitVec 5) : VEntry → State → VRes := intOp maxElem none false false m (.queue q) b d
/-- Dispatch of `max.vq`. -/
def execMaxVq (m : MaskNo) (b : BitVec 5) (q : QueueNo) (d : BitVec 5) (s : State) : Res := issue 0 (packWord 6#4 m b (0#3 ++ q) 3#3 d 0x0B#7) noOps (vMaxVq m b q d) s

/-- `max.vn` (R208). -/
def vMaxVn (m : MaskNo) (b : BitVec 5) (_a : BitVec 5) (d : BitVec 5) : VEntry → State → VRes := intOp maxElem none false false m .named b d
/-- Dispatch of `max.vn`. -/
def execMaxVn (m : MaskNo) (b : BitVec 5) (a : BitVec 5) (d : BitVec 5) (s : State) : Res := issue 0 (packWord 6#4 m b a 4#3 d 0x0B#7) (opX s a) (vMaxVn m b a d) s

/-- `and.vv` (R208). -/
def vAndVv (m : MaskNo) (b : BitVec 5) (a : BitVec 5) (d : BitVec 5) : VEntry → State → VRes := intOp andElem (some .bitAnd) false false m (.vec a.toNat) b d
/-- Dispatch of `and.vv`. -/
def execAndVv (m : MaskNo) (b : BitVec 5) (a : BitVec 5) (d : BitVec 5) (s : State) : Res := issue 0 (packWord 7#4 m b a 0#3 d 0x0B#7) noOps (vAndVv m b a d) s

/-- `and.vx` (R208). -/
def vAndVx (m : MaskNo) (b : BitVec 5) (_a : BitVec 5) (d : BitVec 5) : VEntry → State → VRes := intOp andElem (some .bitAnd) false false m .scalar b d
/-- Dispatch of `and.vx`. -/
def execAndVx (m : MaskNo) (b : BitVec 5) (a : BitVec 5) (d : BitVec 5) (s : State) : Res := issue 0 (packWord 7#4 m b a 1#3 d 0x0B#7) (opX s a) (vAndVx m b a d) s

/-- `and.vi` (R208). -/
def vAndVi (m : MaskNo) (b : BitVec 5) (a : BitVec 5) (d : BitVec 5) : VEntry → State → VRes := intOp andElem (some .bitAnd) false false m (.imm a.toInt) b d
/-- Dispatch of `and.vi`. -/
def execAndVi (m : MaskNo) (b : BitVec 5) (a : BitVec 5) (d : BitVec 5) (s : State) : Res := issue 0 (packWord 7#4 m b a 2#3 d 0x0B#7) noOps (vAndVi m b a d) s

/-- `and.vq` (R208). -/
def vAndVq (m : MaskNo) (b : BitVec 5) (q : QueueNo) (d : BitVec 5) : VEntry → State → VRes := intOp andElem (some .bitAnd) false false m (.queue q) b d
/-- Dispatch of `and.vq`. -/
def execAndVq (m : MaskNo) (b : BitVec 5) (q : QueueNo) (d : BitVec 5) (s : State) : Res := issue 0 (packWord 7#4 m b (0#3 ++ q) 3#3 d 0x0B#7) noOps (vAndVq m b q d) s

/-- `and.vn` (R208). -/
def vAndVn (m : MaskNo) (b : BitVec 5) (_a : BitVec 5) (d : BitVec 5) : VEntry → State → VRes := intOp andElem (some .bitAnd) false false m .named b d
/-- Dispatch of `and.vn`. -/
def execAndVn (m : MaskNo) (b : BitVec 5) (a : BitVec 5) (d : BitVec 5) (s : State) : Res := issue 0 (packWord 7#4 m b a 4#3 d 0x0B#7) (opX s a) (vAndVn m b a d) s

/-- `or.vv` (R208). -/
def vOrVv (m : MaskNo) (b : BitVec 5) (a : BitVec 5) (d : BitVec 5) : VEntry → State → VRes := intOp orElem (some .bitOr) false false m (.vec a.toNat) b d
/-- Dispatch of `or.vv`. -/
def execOrVv (m : MaskNo) (b : BitVec 5) (a : BitVec 5) (d : BitVec 5) (s : State) : Res := issue 0 (packWord 8#4 m b a 0#3 d 0x0B#7) noOps (vOrVv m b a d) s

/-- `or.vx` (R208). -/
def vOrVx (m : MaskNo) (b : BitVec 5) (_a : BitVec 5) (d : BitVec 5) : VEntry → State → VRes := intOp orElem (some .bitOr) false false m .scalar b d
/-- Dispatch of `or.vx`. -/
def execOrVx (m : MaskNo) (b : BitVec 5) (a : BitVec 5) (d : BitVec 5) (s : State) : Res := issue 0 (packWord 8#4 m b a 1#3 d 0x0B#7) (opX s a) (vOrVx m b a d) s

/-- `or.vi` (R208). -/
def vOrVi (m : MaskNo) (b : BitVec 5) (a : BitVec 5) (d : BitVec 5) : VEntry → State → VRes := intOp orElem (some .bitOr) false false m (.imm a.toInt) b d
/-- Dispatch of `or.vi`. -/
def execOrVi (m : MaskNo) (b : BitVec 5) (a : BitVec 5) (d : BitVec 5) (s : State) : Res := issue 0 (packWord 8#4 m b a 2#3 d 0x0B#7) noOps (vOrVi m b a d) s

/-- `or.vq` (R208). -/
def vOrVq (m : MaskNo) (b : BitVec 5) (q : QueueNo) (d : BitVec 5) : VEntry → State → VRes := intOp orElem (some .bitOr) false false m (.queue q) b d
/-- Dispatch of `or.vq`. -/
def execOrVq (m : MaskNo) (b : BitVec 5) (q : QueueNo) (d : BitVec 5) (s : State) : Res := issue 0 (packWord 8#4 m b (0#3 ++ q) 3#3 d 0x0B#7) noOps (vOrVq m b q d) s

/-- `or.vn` (R208). -/
def vOrVn (m : MaskNo) (b : BitVec 5) (_a : BitVec 5) (d : BitVec 5) : VEntry → State → VRes := intOp orElem (some .bitOr) false false m .named b d
/-- Dispatch of `or.vn`. -/
def execOrVn (m : MaskNo) (b : BitVec 5) (a : BitVec 5) (d : BitVec 5) (s : State) : Res := issue 0 (packWord 8#4 m b a 4#3 d 0x0B#7) (opX s a) (vOrVn m b a d) s

/-- `xor.vv` (R208). -/
def vXorVv (m : MaskNo) (b : BitVec 5) (a : BitVec 5) (d : BitVec 5) : VEntry → State → VRes := intOp xorElem (some .bitXor) false false m (.vec a.toNat) b d
/-- Dispatch of `xor.vv`. -/
def execXorVv (m : MaskNo) (b : BitVec 5) (a : BitVec 5) (d : BitVec 5) (s : State) : Res := issue 0 (packWord 9#4 m b a 0#3 d 0x0B#7) noOps (vXorVv m b a d) s

/-- `xor.vx` (R208). -/
def vXorVx (m : MaskNo) (b : BitVec 5) (_a : BitVec 5) (d : BitVec 5) : VEntry → State → VRes := intOp xorElem (some .bitXor) false false m .scalar b d
/-- Dispatch of `xor.vx`. -/
def execXorVx (m : MaskNo) (b : BitVec 5) (a : BitVec 5) (d : BitVec 5) (s : State) : Res := issue 0 (packWord 9#4 m b a 1#3 d 0x0B#7) (opX s a) (vXorVx m b a d) s

/-- `xor.vi` (R208). -/
def vXorVi (m : MaskNo) (b : BitVec 5) (a : BitVec 5) (d : BitVec 5) : VEntry → State → VRes := intOp xorElem (some .bitXor) false false m (.imm a.toInt) b d
/-- Dispatch of `xor.vi`. -/
def execXorVi (m : MaskNo) (b : BitVec 5) (a : BitVec 5) (d : BitVec 5) (s : State) : Res := issue 0 (packWord 9#4 m b a 2#3 d 0x0B#7) noOps (vXorVi m b a d) s

/-- `xor.vq` (R208). -/
def vXorVq (m : MaskNo) (b : BitVec 5) (q : QueueNo) (d : BitVec 5) : VEntry → State → VRes := intOp xorElem (some .bitXor) false false m (.queue q) b d
/-- Dispatch of `xor.vq`. -/
def execXorVq (m : MaskNo) (b : BitVec 5) (q : QueueNo) (d : BitVec 5) (s : State) : Res := issue 0 (packWord 9#4 m b (0#3 ++ q) 3#3 d 0x0B#7) noOps (vXorVq m b q d) s

/-- `xor.vn` (R208). -/
def vXorVn (m : MaskNo) (b : BitVec 5) (_a : BitVec 5) (d : BitVec 5) : VEntry → State → VRes := intOp xorElem (some .bitXor) false false m .named b d
/-- Dispatch of `xor.vn`. -/
def execXorVn (m : MaskNo) (b : BitVec 5) (a : BitVec 5) (d : BitVec 5) (s : State) : Res := issue 0 (packWord 9#4 m b a 4#3 d 0x0B#7) (opX s a) (vXorVn m b a d) s

/-- `sll.vv` (R208). -/
def vSllVv (m : MaskNo) (b : BitVec 5) (a : BitVec 5) (d : BitVec 5) : VEntry → State → VRes := intOp sllElem (some .sll) false false m (.vec a.toNat) b d
/-- Dispatch of `sll.vv`. -/
def execSllVv (m : MaskNo) (b : BitVec 5) (a : BitVec 5) (d : BitVec 5) (s : State) : Res := issue 0 (packWord 10#4 m b a 0#3 d 0x0B#7) noOps (vSllVv m b a d) s

/-- `sll.vx` (R208). -/
def vSllVx (m : MaskNo) (b : BitVec 5) (_a : BitVec 5) (d : BitVec 5) : VEntry → State → VRes := intOp sllElem (some .sll) false false m .scalar b d
/-- Dispatch of `sll.vx`. -/
def execSllVx (m : MaskNo) (b : BitVec 5) (a : BitVec 5) (d : BitVec 5) (s : State) : Res := issue 0 (packWord 10#4 m b a 1#3 d 0x0B#7) (opX s a) (vSllVx m b a d) s

/-- `sll.vi` (R208). -/
def vSllVi (m : MaskNo) (b : BitVec 5) (a : BitVec 5) (d : BitVec 5) : VEntry → State → VRes := intOp sllElem (some .sll) false false m (.imm a.toInt) b d
/-- Dispatch of `sll.vi`. -/
def execSllVi (m : MaskNo) (b : BitVec 5) (a : BitVec 5) (d : BitVec 5) (s : State) : Res := issue 0 (packWord 10#4 m b a 2#3 d 0x0B#7) noOps (vSllVi m b a d) s

/-- `sll.vq` (R208). -/
def vSllVq (m : MaskNo) (b : BitVec 5) (q : QueueNo) (d : BitVec 5) : VEntry → State → VRes := intOp sllElem (some .sll) false false m (.queue q) b d
/-- Dispatch of `sll.vq`. -/
def execSllVq (m : MaskNo) (b : BitVec 5) (q : QueueNo) (d : BitVec 5) (s : State) : Res := issue 0 (packWord 10#4 m b (0#3 ++ q) 3#3 d 0x0B#7) noOps (vSllVq m b q d) s

/-- `sll.vn` (R208). -/
def vSllVn (m : MaskNo) (b : BitVec 5) (_a : BitVec 5) (d : BitVec 5) : VEntry → State → VRes := intOp sllElem (some .sll) false false m .named b d
/-- Dispatch of `sll.vn`. -/
def execSllVn (m : MaskNo) (b : BitVec 5) (a : BitVec 5) (d : BitVec 5) (s : State) : Res := issue 0 (packWord 10#4 m b a 4#3 d 0x0B#7) (opX s a) (vSllVn m b a d) s

/-- `srl.vv` (R208). -/
def vSrlVv (m : MaskNo) (b : BitVec 5) (a : BitVec 5) (d : BitVec 5) : VEntry → State → VRes := intOp srlElem none false false m (.vec a.toNat) b d
/-- Dispatch of `srl.vv`. -/
def execSrlVv (m : MaskNo) (b : BitVec 5) (a : BitVec 5) (d : BitVec 5) (s : State) : Res := issue 0 (packWord 11#4 m b a 0#3 d 0x0B#7) noOps (vSrlVv m b a d) s

/-- `srl.vx` (R208). -/
def vSrlVx (m : MaskNo) (b : BitVec 5) (_a : BitVec 5) (d : BitVec 5) : VEntry → State → VRes := intOp srlElem none false false m .scalar b d
/-- Dispatch of `srl.vx`. -/
def execSrlVx (m : MaskNo) (b : BitVec 5) (a : BitVec 5) (d : BitVec 5) (s : State) : Res := issue 0 (packWord 11#4 m b a 1#3 d 0x0B#7) (opX s a) (vSrlVx m b a d) s

/-- `srl.vi` (R208). -/
def vSrlVi (m : MaskNo) (b : BitVec 5) (a : BitVec 5) (d : BitVec 5) : VEntry → State → VRes := intOp srlElem none false false m (.imm a.toInt) b d
/-- Dispatch of `srl.vi`. -/
def execSrlVi (m : MaskNo) (b : BitVec 5) (a : BitVec 5) (d : BitVec 5) (s : State) : Res := issue 0 (packWord 11#4 m b a 2#3 d 0x0B#7) noOps (vSrlVi m b a d) s

/-- `srl.vq` (R208). -/
def vSrlVq (m : MaskNo) (b : BitVec 5) (q : QueueNo) (d : BitVec 5) : VEntry → State → VRes := intOp srlElem none false false m (.queue q) b d
/-- Dispatch of `srl.vq`. -/
def execSrlVq (m : MaskNo) (b : BitVec 5) (q : QueueNo) (d : BitVec 5) (s : State) : Res := issue 0 (packWord 11#4 m b (0#3 ++ q) 3#3 d 0x0B#7) noOps (vSrlVq m b q d) s

/-- `srl.vn` (R208). -/
def vSrlVn (m : MaskNo) (b : BitVec 5) (_a : BitVec 5) (d : BitVec 5) : VEntry → State → VRes := intOp srlElem none false false m .named b d
/-- Dispatch of `srl.vn`. -/
def execSrlVn (m : MaskNo) (b : BitVec 5) (a : BitVec 5) (d : BitVec 5) (s : State) : Res := issue 0 (packWord 11#4 m b a 4#3 d 0x0B#7) (opX s a) (vSrlVn m b a d) s

/-- `sra.vv` (R208). -/
def vSraVv (m : MaskNo) (b : BitVec 5) (a : BitVec 5) (d : BitVec 5) : VEntry → State → VRes := intOp sraElem none false false m (.vec a.toNat) b d
/-- Dispatch of `sra.vv`. -/
def execSraVv (m : MaskNo) (b : BitVec 5) (a : BitVec 5) (d : BitVec 5) (s : State) : Res := issue 0 (packWord 12#4 m b a 0#3 d 0x0B#7) noOps (vSraVv m b a d) s

/-- `sra.vx` (R208). -/
def vSraVx (m : MaskNo) (b : BitVec 5) (_a : BitVec 5) (d : BitVec 5) : VEntry → State → VRes := intOp sraElem none false false m .scalar b d
/-- Dispatch of `sra.vx`. -/
def execSraVx (m : MaskNo) (b : BitVec 5) (a : BitVec 5) (d : BitVec 5) (s : State) : Res := issue 0 (packWord 12#4 m b a 1#3 d 0x0B#7) (opX s a) (vSraVx m b a d) s

/-- `sra.vi` (R208). -/
def vSraVi (m : MaskNo) (b : BitVec 5) (a : BitVec 5) (d : BitVec 5) : VEntry → State → VRes := intOp sraElem none false false m (.imm a.toInt) b d
/-- Dispatch of `sra.vi`. -/
def execSraVi (m : MaskNo) (b : BitVec 5) (a : BitVec 5) (d : BitVec 5) (s : State) : Res := issue 0 (packWord 12#4 m b a 2#3 d 0x0B#7) noOps (vSraVi m b a d) s

/-- `sra.vq` (R208). -/
def vSraVq (m : MaskNo) (b : BitVec 5) (q : QueueNo) (d : BitVec 5) : VEntry → State → VRes := intOp sraElem none false false m (.queue q) b d
/-- Dispatch of `sra.vq`. -/
def execSraVq (m : MaskNo) (b : BitVec 5) (q : QueueNo) (d : BitVec 5) (s : State) : Res := issue 0 (packWord 12#4 m b (0#3 ++ q) 3#3 d 0x0B#7) noOps (vSraVq m b q d) s

/-- `sra.vn` (R208). -/
def vSraVn (m : MaskNo) (b : BitVec 5) (_a : BitVec 5) (d : BitVec 5) : VEntry → State → VRes := intOp sraElem none false false m .named b d
/-- Dispatch of `sra.vn`. -/
def execSraVn (m : MaskNo) (b : BitVec 5) (a : BitVec 5) (d : BitVec 5) (s : State) : Res := issue 0 (packWord 12#4 m b a 4#3 d 0x0B#7) (opX s a) (vSraVn m b a d) s

/-- `mac.vv` (R208). -/
def vMacVv (m : MaskNo) (b : BitVec 5) (a : BitVec 5) (d : BitVec 5) : VEntry → State → VRes := intOp macElem none false true m (.vec a.toNat) b d
/-- Dispatch of `mac.vv`. -/
def execMacVv (m : MaskNo) (b : BitVec 5) (a : BitVec 5) (d : BitVec 5) (s : State) : Res := issue 0 (packWord 13#4 m b a 0#3 d 0x0B#7) noOps (vMacVv m b a d) s

/-- `mac.vx` (R208). -/
def vMacVx (m : MaskNo) (b : BitVec 5) (_a : BitVec 5) (d : BitVec 5) : VEntry → State → VRes := intOp macElem none false true m .scalar b d
/-- Dispatch of `mac.vx`. -/
def execMacVx (m : MaskNo) (b : BitVec 5) (a : BitVec 5) (d : BitVec 5) (s : State) : Res := issue 0 (packWord 13#4 m b a 1#3 d 0x0B#7) (opX s a) (vMacVx m b a d) s

/-- `mac.vi` (R208). -/
def vMacVi (m : MaskNo) (b : BitVec 5) (a : BitVec 5) (d : BitVec 5) : VEntry → State → VRes := intOp macElem none false true m (.imm a.toInt) b d
/-- Dispatch of `mac.vi`. -/
def execMacVi (m : MaskNo) (b : BitVec 5) (a : BitVec 5) (d : BitVec 5) (s : State) : Res := issue 0 (packWord 13#4 m b a 2#3 d 0x0B#7) noOps (vMacVi m b a d) s

/-- `mac.vq` (R208). -/
def vMacVq (m : MaskNo) (b : BitVec 5) (q : QueueNo) (d : BitVec 5) : VEntry → State → VRes := intOp macElem none false true m (.queue q) b d
/-- Dispatch of `mac.vq`. -/
def execMacVq (m : MaskNo) (b : BitVec 5) (q : QueueNo) (d : BitVec 5) (s : State) : Res := issue 0 (packWord 13#4 m b (0#3 ++ q) 3#3 d 0x0B#7) noOps (vMacVq m b q d) s

/-- `mac.vn` (R208). -/
def vMacVn (m : MaskNo) (b : BitVec 5) (_a : BitVec 5) (d : BitVec 5) : VEntry → State → VRes := intOp macElem none false true m .named b d
/-- Dispatch of `mac.vn`. -/
def execMacVn (m : MaskNo) (b : BitVec 5) (a : BitVec 5) (d : BitVec 5) (s : State) : Res := issue 0 (packWord 13#4 m b a 4#3 d 0x0B#7) (opX s a) (vMacVn m b a d) s

/-- `cmp.vv` (R209). -/
def vCmpVv (m : MaskNo) (b : BitVec 5) (a : BitVec 5) (c : Cond) (e : MaskNo) : VEntry → State → VRes := cmpOp (condSigned c) m (.vec a.toNat) b e
/-- Dispatch of `cmp.vv`. -/
def execCmpVv (m : MaskNo) (b : BitVec 5) (a : BitVec 5) (c : Cond) (e : MaskNo) (s : State) : Res := issue 0 (packWord 14#4 m b a 0#3 (c.bits ++ e) 0x0B#7) noOps (vCmpVv m b a c e) s

/-- `cmp.vx` (R209). -/
def vCmpVx (m : MaskNo) (b : BitVec 5) (_a : BitVec 5) (c : Cond) (e : MaskNo) : VEntry → State → VRes := cmpOp (condSigned c) m .scalar b e
/-- Dispatch of `cmp.vx`. -/
def execCmpVx (m : MaskNo) (b : BitVec 5) (a : BitVec 5) (c : Cond) (e : MaskNo) (s : State) : Res := issue 0 (packWord 14#4 m b a 1#3 (c.bits ++ e) 0x0B#7) (opX s a) (vCmpVx m b a c e) s

/-- `cmp.vi` (R209). -/
def vCmpVi (m : MaskNo) (b : BitVec 5) (a : BitVec 5) (c : Cond) (e : MaskNo) : VEntry → State → VRes := cmpOp (condSigned c) m (.imm a.toInt) b e
/-- Dispatch of `cmp.vi`. -/
def execCmpVi (m : MaskNo) (b : BitVec 5) (a : BitVec 5) (c : Cond) (e : MaskNo) (s : State) : Res := issue 0 (packWord 14#4 m b a 2#3 (c.bits ++ e) 0x0B#7) noOps (vCmpVi m b a c e) s

/-- `cmp.vq` (R209). -/
def vCmpVq (m : MaskNo) (b : BitVec 5) (q : QueueNo) (c : Cond) (e : MaskNo) : VEntry → State → VRes := cmpOp (condSigned c) m (.queue q) b e
/-- Dispatch of `cmp.vq`. -/
def execCmpVq (m : MaskNo) (b : BitVec 5) (q : QueueNo) (c : Cond) (e : MaskNo) (s : State) : Res := issue 0 (packWord 14#4 m b (0#3 ++ q) 3#3 (c.bits ++ e) 0x0B#7) noOps (vCmpVq m b q c e) s

/-- `cmp.vn` (R209). -/
def vCmpVn (m : MaskNo) (b : BitVec 5) (_a : BitVec 5) (c : Cond) (e : MaskNo) : VEntry → State → VRes := cmpOp (condSigned c) m .named b e
/-- Dispatch of `cmp.vn`. -/
def execCmpVn (m : MaskNo) (b : BitVec 5) (a : BitVec 5) (c : Cond) (e : MaskNo) (s : State) : Res := issue 0 (packWord 14#4 m b a 4#3 (c.bits ++ e) 0x0B#7) (opX s a) (vCmpVn m b a c e) s

/-- `cmpz.vv` (R209). -/
def vCmpzVv (m : MaskNo) (b : BitVec 5) (a : BitVec 5) (c : Cond) (e : MaskNo) : VEntry → State → VRes := cmpOp (condUnsigned c) m (.vec a.toNat) b e
/-- Dispatch of `cmpz.vv`. -/
def execCmpzVv (m : MaskNo) (b : BitVec 5) (a : BitVec 5) (c : Cond) (e : MaskNo) (s : State) : Res := issue 0 (packWord 15#4 m b a 0#3 (c.bits ++ e) 0x0B#7) noOps (vCmpzVv m b a c e) s

/-- `cmpz.vx` (R209). -/
def vCmpzVx (m : MaskNo) (b : BitVec 5) (_a : BitVec 5) (c : Cond) (e : MaskNo) : VEntry → State → VRes := cmpOp (condUnsigned c) m .scalar b e
/-- Dispatch of `cmpz.vx`. -/
def execCmpzVx (m : MaskNo) (b : BitVec 5) (a : BitVec 5) (c : Cond) (e : MaskNo) (s : State) : Res := issue 0 (packWord 15#4 m b a 1#3 (c.bits ++ e) 0x0B#7) (opX s a) (vCmpzVx m b a c e) s

/-- `cmpz.vi` (R209). -/
def vCmpzVi (m : MaskNo) (b : BitVec 5) (a : BitVec 5) (c : Cond) (e : MaskNo) : VEntry → State → VRes := cmpOp (condUnsigned c) m (.imm a.toInt) b e
/-- Dispatch of `cmpz.vi`. -/
def execCmpzVi (m : MaskNo) (b : BitVec 5) (a : BitVec 5) (c : Cond) (e : MaskNo) (s : State) : Res := issue 0 (packWord 15#4 m b a 2#3 (c.bits ++ e) 0x0B#7) noOps (vCmpzVi m b a c e) s

/-- `cmpz.vq` (R209). -/
def vCmpzVq (m : MaskNo) (b : BitVec 5) (q : QueueNo) (c : Cond) (e : MaskNo) : VEntry → State → VRes := cmpOp (condUnsigned c) m (.queue q) b e
/-- Dispatch of `cmpz.vq`. -/
def execCmpzVq (m : MaskNo) (b : BitVec 5) (q : QueueNo) (c : Cond) (e : MaskNo) (s : State) : Res := issue 0 (packWord 15#4 m b (0#3 ++ q) 3#3 (c.bits ++ e) 0x0B#7) noOps (vCmpzVq m b q c e) s

/-- `cmpz.vn` (R209). -/
def vCmpzVn (m : MaskNo) (b : BitVec 5) (_a : BitVec 5) (c : Cond) (e : MaskNo) : VEntry → State → VRes := cmpOp (condUnsigned c) m .named b e
/-- Dispatch of `cmpz.vn`. -/
def execCmpzVn (m : MaskNo) (b : BitVec 5) (a : BitVec 5) (c : Cond) (e : MaskNo) (s : State) : Res := issue 0 (packWord 15#4 m b a 4#3 (c.bits ++ e) 0x0B#7) (opX s a) (vCmpzVn m b a c e) s

/-- `minz.xv` (R210). -/
def vMinzXv (m : MaskNo) (b : BitVec 5) (a : BitVec 5) (d : BitVec 5) : VEntry → State → VRes := intOp minzElem none false false m (.vec a.toNat) b d
/-- Dispatch of `minz.xv`. -/
def execMinzXv (m : MaskNo) (b : BitVec 5) (a : BitVec 5) (d : BitVec 5) (s : State) : Res := issue 0 (packWord 0#4 m b a 6#3 d 0x0B#7) noOps (vMinzXv m b a d) s

/-- `minz.xx` (R210). -/
def vMinzXx (m : MaskNo) (b : BitVec 5) (_a : BitVec 5) (d : BitVec 5) : VEntry → State → VRes := intOp minzElem none false false m .scalar b d
/-- Dispatch of `minz.xx`. -/
def execMinzXx (m : MaskNo) (b : BitVec 5) (a : BitVec 5) (d : BitVec 5) (s : State) : Res := issue 0 (packWord 0#4 m b a 7#3 d 0x0B#7) (opX s a) (vMinzXx m b a d) s

/-- `maxz.xv` (R210). -/
def vMaxzXv (m : MaskNo) (b : BitVec 5) (a : BitVec 5) (d : BitVec 5) : VEntry → State → VRes := intOp maxzElem none false false m (.vec a.toNat) b d
/-- Dispatch of `maxz.xv`. -/
def execMaxzXv (m : MaskNo) (b : BitVec 5) (a : BitVec 5) (d : BitVec 5) (s : State) : Res := issue 0 (packWord 1#4 m b a 6#3 d 0x0B#7) noOps (vMaxzXv m b a d) s

/-- `maxz.xx` (R210). -/
def vMaxzXx (m : MaskNo) (b : BitVec 5) (_a : BitVec 5) (d : BitVec 5) : VEntry → State → VRes := intOp maxzElem none false false m .scalar b d
/-- Dispatch of `maxz.xx`. -/
def execMaxzXx (m : MaskNo) (b : BitVec 5) (a : BitVec 5) (d : BitVec 5) (s : State) : Res := issue 0 (packWord 1#4 m b a 7#3 d 0x0B#7) (opX s a) (vMaxzXx m b a d) s

/-- `mulhz.xv` (R210). -/
def vMulhzXv (m : MaskNo) (b : BitVec 5) (a : BitVec 5) (d : BitVec 5) : VEntry → State → VRes := intOp mulhzElem none false false m (.vec a.toNat) b d
/-- Dispatch of `mulhz.xv`. -/
def execMulhzXv (m : MaskNo) (b : BitVec 5) (a : BitVec 5) (d : BitVec 5) (s : State) : Res := issue 0 (packWord 2#4 m b a 6#3 d 0x0B#7) noOps (vMulhzXv m b a d) s

/-- `mulhz.xx` (R210). -/
def vMulhzXx (m : MaskNo) (b : BitVec 5) (_a : BitVec 5) (d : BitVec 5) : VEntry → State → VRes := intOp mulhzElem none false false m .scalar b d
/-- Dispatch of `mulhz.xx`. -/
def execMulhzXx (m : MaskNo) (b : BitVec 5) (a : BitVec 5) (d : BitVec 5) (s : State) : Res := issue 0 (packWord 2#4 m b a 7#3 d 0x0B#7) (opX s a) (vMulhzXx m b a d) s

/-- `div.xv` (R210). -/
def vDivXv (m : MaskNo) (b : BitVec 5) (a : BitVec 5) (d : BitVec 5) : VEntry → State → VRes := intOp divElem none false false m (.vec a.toNat) b d
/-- Dispatch of `div.xv`. -/
def execDivXv (m : MaskNo) (b : BitVec 5) (a : BitVec 5) (d : BitVec 5) (s : State) : Res := issue 0 (packWord 3#4 m b a 6#3 d 0x0B#7) noOps (vDivXv m b a d) s

/-- `div.xx` (R210). -/
def vDivXx (m : MaskNo) (b : BitVec 5) (_a : BitVec 5) (d : BitVec 5) : VEntry → State → VRes := intOp divElem none false false m .scalar b d
/-- Dispatch of `div.xx`. -/
def execDivXx (m : MaskNo) (b : BitVec 5) (a : BitVec 5) (d : BitVec 5) (s : State) : Res := issue 0 (packWord 3#4 m b a 7#3 d 0x0B#7) (opX s a) (vDivXx m b a d) s

/-- `divz.xv` (R210). -/
def vDivzXv (m : MaskNo) (b : BitVec 5) (a : BitVec 5) (d : BitVec 5) : VEntry → State → VRes := intOp divzElem none false false m (.vec a.toNat) b d
/-- Dispatch of `divz.xv`. -/
def execDivzXv (m : MaskNo) (b : BitVec 5) (a : BitVec 5) (d : BitVec 5) (s : State) : Res := issue 0 (packWord 4#4 m b a 6#3 d 0x0B#7) noOps (vDivzXv m b a d) s

/-- `divz.xx` (R210). -/
def vDivzXx (m : MaskNo) (b : BitVec 5) (_a : BitVec 5) (d : BitVec 5) : VEntry → State → VRes := intOp divzElem none false false m .scalar b d
/-- Dispatch of `divz.xx`. -/
def execDivzXx (m : MaskNo) (b : BitVec 5) (a : BitVec 5) (d : BitVec 5) (s : State) : Res := issue 0 (packWord 4#4 m b a 7#3 d 0x0B#7) (opX s a) (vDivzXx m b a d) s

/-- `rem.xv` (R210). -/
def vRemXv (m : MaskNo) (b : BitVec 5) (a : BitVec 5) (d : BitVec 5) : VEntry → State → VRes := intOp remElem none false false m (.vec a.toNat) b d
/-- Dispatch of `rem.xv`. -/
def execRemXv (m : MaskNo) (b : BitVec 5) (a : BitVec 5) (d : BitVec 5) (s : State) : Res := issue 0 (packWord 5#4 m b a 6#3 d 0x0B#7) noOps (vRemXv m b a d) s

/-- `rem.xx` (R210). -/
def vRemXx (m : MaskNo) (b : BitVec 5) (_a : BitVec 5) (d : BitVec 5) : VEntry → State → VRes := intOp remElem none false false m .scalar b d
/-- Dispatch of `rem.xx`. -/
def execRemXx (m : MaskNo) (b : BitVec 5) (a : BitVec 5) (d : BitVec 5) (s : State) : Res := issue 0 (packWord 5#4 m b a 7#3 d 0x0B#7) (opX s a) (vRemXx m b a d) s

/-- `remz.xv` (R210). -/
def vRemzXv (m : MaskNo) (b : BitVec 5) (a : BitVec 5) (d : BitVec 5) : VEntry → State → VRes := intOp remzElem none false false m (.vec a.toNat) b d
/-- Dispatch of `remz.xv`. -/
def execRemzXv (m : MaskNo) (b : BitVec 5) (a : BitVec 5) (d : BitVec 5) (s : State) : Res := issue 0 (packWord 6#4 m b a 6#3 d 0x0B#7) noOps (vRemzXv m b a d) s

/-- `remz.xx` (R210). -/
def vRemzXx (m : MaskNo) (b : BitVec 5) (_a : BitVec 5) (d : BitVec 5) : VEntry → State → VRes := intOp remzElem none false false m .scalar b d
/-- Dispatch of `remz.xx`. -/
def execRemzXx (m : MaskNo) (b : BitVec 5) (a : BitVec 5) (d : BitVec 5) (s : State) : Res := issue 0 (packWord 6#4 m b a 7#3 d 0x0B#7) (opX s a) (vRemzXx m b a d) s

/-- `sadd.xv` (R210). -/
def vSaddXv (m : MaskNo) (b : BitVec 5) (a : BitVec 5) (d : BitVec 5) : VEntry → State → VRes := intOp saddElem none false false m (.vec a.toNat) b d
/-- Dispatch of `sadd.xv`. -/
def execSaddXv (m : MaskNo) (b : BitVec 5) (a : BitVec 5) (d : BitVec 5) (s : State) : Res := issue 0 (packWord 7#4 m b a 6#3 d 0x0B#7) noOps (vSaddXv m b a d) s

/-- `sadd.xx` (R210). -/
def vSaddXx (m : MaskNo) (b : BitVec 5) (_a : BitVec 5) (d : BitVec 5) : VEntry → State → VRes := intOp saddElem none false false m .scalar b d
/-- Dispatch of `sadd.xx`. -/
def execSaddXx (m : MaskNo) (b : BitVec 5) (a : BitVec 5) (d : BitVec 5) (s : State) : Res := issue 0 (packWord 7#4 m b a 7#3 d 0x0B#7) (opX s a) (vSaddXx m b a d) s

/-- `ssub.xv` (R210). -/
def vSsubXv (m : MaskNo) (b : BitVec 5) (a : BitVec 5) (d : BitVec 5) : VEntry → State → VRes := intOp ssubElem none false false m (.vec a.toNat) b d
/-- Dispatch of `ssub.xv`. -/
def execSsubXv (m : MaskNo) (b : BitVec 5) (a : BitVec 5) (d : BitVec 5) (s : State) : Res := issue 0 (packWord 8#4 m b a 6#3 d 0x0B#7) noOps (vSsubXv m b a d) s

/-- `ssub.xx` (R210). -/
def vSsubXx (m : MaskNo) (b : BitVec 5) (_a : BitVec 5) (d : BitVec 5) : VEntry → State → VRes := intOp ssubElem none false false m .scalar b d
/-- Dispatch of `ssub.xx`. -/
def execSsubXx (m : MaskNo) (b : BitVec 5) (a : BitVec 5) (d : BitVec 5) (s : State) : Res := issue 0 (packWord 8#4 m b a 7#3 d 0x0B#7) (opX s a) (vSsubXx m b a d) s

/-- `wadd.xv` (R211). -/
def vWaddXv (m : MaskNo) (b : BitVec 5) (a : BitVec 5) (d : BitVec 5) : VEntry → State → VRes := intOp waddElem none true false m (.vec a.toNat) b d
/-- Dispatch of `wadd.xv`. -/
def execWaddXv (m : MaskNo) (b : BitVec 5) (a : BitVec 5) (d : BitVec 5) (s : State) : Res := issue 0 (packWord 9#4 m b a 6#3 d 0x0B#7) noOps (vWaddXv m b a d) s

/-- `wadd.xx` (R211). -/
def vWaddXx (m : MaskNo) (b : BitVec 5) (_a : BitVec 5) (d : BitVec 5) : VEntry → State → VRes := intOp waddElem none true false m .scalar b d
/-- Dispatch of `wadd.xx`. -/
def execWaddXx (m : MaskNo) (b : BitVec 5) (a : BitVec 5) (d : BitVec 5) (s : State) : Res := issue 0 (packWord 9#4 m b a 7#3 d 0x0B#7) (opX s a) (vWaddXx m b a d) s

/-- `wmul.xv` (R211). -/
def vWmulXv (m : MaskNo) (b : BitVec 5) (a : BitVec 5) (d : BitVec 5) : VEntry → State → VRes := intOp wmulElem none true false m (.vec a.toNat) b d
/-- Dispatch of `wmul.xv`. -/
def execWmulXv (m : MaskNo) (b : BitVec 5) (a : BitVec 5) (d : BitVec 5) (s : State) : Res := issue 0 (packWord 10#4 m b a 6#3 d 0x0B#7) noOps (vWmulXv m b a d) s

/-- `wmul.xx` (R211). -/
def vWmulXx (m : MaskNo) (b : BitVec 5) (_a : BitVec 5) (d : BitVec 5) : VEntry → State → VRes := intOp wmulElem none true false m .scalar b d
/-- Dispatch of `wmul.xx`. -/
def execWmulXx (m : MaskNo) (b : BitVec 5) (a : BitVec 5) (d : BitVec 5) (s : State) : Res := issue 0 (packWord 10#4 m b a 7#3 d 0x0B#7) (opX s a) (vWmulXx m b a d) s

/-- `sext` (R212). -/
def vSext (m : MaskNo) (b : BitVec 5) (f : Factor) (d : BitVec 5) : VEntry → State → VRes := extendOp true m b f d
/-- Dispatch of `sext`. -/
def execSext (m : MaskNo) (b : BitVec 5) (f : Factor) (d : BitVec 5) (s : State) : Res := issue 0 (packWord 11#4 m b (0#3 ++ f.bits) 6#3 d 0x0B#7) noOps (vSext m b f d) s

/-- `zext` (R212). -/
def vZext (m : MaskNo) (b : BitVec 5) (f : Factor) (d : BitVec 5) : VEntry → State → VRes := extendOp false m b f d
/-- Dispatch of `zext`. -/
def execZext (m : MaskNo) (b : BitVec 5) (f : Factor) (d : BitVec 5) (s : State) : Res := issue 0 (packWord 12#4 m b (0#3 ++ f.bits) 6#3 d 0x0B#7) noOps (vZext m b f d) s

/-- `narrow` (R212). -/
def vNarrow (m : MaskNo) (b : BitVec 5) (f : Factor) (d : BitVec 5) : VEntry → State → VRes := narrowOp false m b f d
/-- Dispatch of `narrow`. -/
def execNarrow (m : MaskNo) (b : BitVec 5) (f : Factor) (d : BitVec 5) (s : State) : Res := issue 0 (packWord 13#4 m b (0#3 ++ f.bits) 6#3 d 0x0B#7) noOps (vNarrow m b f d) s

/-- `narrowz` (R212). -/
def vNarrowz (m : MaskNo) (b : BitVec 5) (f : Factor) (d : BitVec 5) : VEntry → State → VRes := narrowOp true m b f d
/-- Dispatch of `narrowz`. -/
def execNarrowz (m : MaskNo) (b : BitVec 5) (f : Factor) (d : BitVec 5) (s : State) : Res := issue 0 (packWord 13#4 m b (1#3 ++ f.bits) 6#3 d 0x0B#7) noOps (vNarrowz m b f d) s

/-- `absd.xv` (R210). -/
def vAbsdXv (m : MaskNo) (b : BitVec 5) (a : BitVec 5) (d : BitVec 5) : VEntry → State → VRes := intOp absdElem none false false m (.vec a.toNat) b d
/-- Dispatch of `absd.xv`. -/
def execAbsdXv (m : MaskNo) (b : BitVec 5) (a : BitVec 5) (d : BitVec 5) (s : State) : Res := issue 0 (packWord 14#4 m b a 6#3 d 0x0B#7) noOps (vAbsdXv m b a d) s

/-- `absd.xx` (R210). -/
def vAbsdXx (m : MaskNo) (b : BitVec 5) (_a : BitVec 5) (d : BitVec 5) : VEntry → State → VRes := intOp absdElem none false false m .scalar b d
/-- Dispatch of `absd.xx`. -/
def execAbsdXx (m : MaskNo) (b : BitVec 5) (a : BitVec 5) (d : BitVec 5) (s : State) : Res := issue 0 (packWord 14#4 m b a 7#3 d 0x0B#7) (opX s a) (vAbsdXx m b a d) s

/-- `bitc` (R213). -/
def vBitc (m : MaskNo) (b : BitVec 5) (o : BitCount) (d : BitVec 5) : VEntry → State → VRes := bitcOp m b o d
/-- Dispatch of `bitc`. -/
def execBitc (m : MaskNo) (b : BitVec 5) (o : BitCount) (d : BitVec 5) (s : State) : Res := issue 0 (packWord 15#4 m b o.bits 6#3 d 0x0B#7) noOps (vBitc m b o d) s

end Sys2Proof.Machine
end

