-- ==== Sys2Proof/Machine/VecFloat.lean ====
section
/-! DEFINITION. The VF instructions other than the quantising ones (R129, R130, R214 to R220). -/

namespace Sys2Proof.Machine

/-- The format of a VF instruction, or `vcause` 1 at e4, e6 and e8 (R58). -/
def needFloat (e : VEntry) (c : VCfg) : Except Stop FFmt :=
  match c.fmt with
  | some f => if 16 ≤ c.w then .ok f else .error (trapWord 1 e)
  | none => .error (trapWord 1 e)

/-- The mode of `vfrm`, or `vcause` 1 while it holds a reserved value (R80; at every `vl`, log 22). -/
def needRound (e : VEntry) (s : State) : Except Stop Rnd :=
  match vectorRounding s.hart.vfrm with
  | some r => .ok r
  | none => .error (trapWord 1 e)

/-- The mode of an instruction, where it rounds as `vfrm` says (R81). -/
def roundFor (rounds : Bool) (e : VEntry) (s : State) : Except Stop Rnd := if rounds then needRound e s else .ok .rne

/-- A floating-point operation on elements: format, mode, then the codes of a, b and the old vd; the result and its flags. -/
abbrev FloatElem := FFmt → Rnd → Nat → Nat → Nat → Nat × Nat

/-- `fadd` (R214). -/
def faddElem : FloatElem := fun f r a b _ => fAdd f r (decodeFloat f b) (decodeFloat f a)
/-- `fsub` (R214). -/
def fsubElem : FloatElem := fun f r a b _ => fAdd f r (decodeFloat f b) (decodeFloat f a).negate
/-- `fmul` (R214). -/
def fmulElem : FloatElem := fun f r a b _ => fMul f r (decodeFloat f b) (decodeFloat f a)
/-- `fdiv` (R214). -/
def fdivElem : FloatElem := fun f r a b _ => fDiv f r (decodeFloat f b) (decodeFloat f a)
/-- `fmin` (R214). -/
def fminElem : FloatElem := fun f _ a b _ => fMinMax f false b a
/-- `fmax` (R214). -/
def fmaxElem : FloatElem := fun f _ a b _ => fMinMax f true b a
/-- `fmadd` (R214). -/
def fmaddElem : FloatElem := fun f r a b v => fMulAdd f r (decodeFloat f a) (decodeFloat f b) (decodeFloat f v)
/-- `fnmsub` (R214). -/
def fnmsubElem : FloatElem := fun f r a b v =>
  fAdd f r (fMulExact (decodeFloat f a) (decodeFloat f b)).negate (decodeFloat f v)

/-- `fadd` to `fnmsub` (R214): `rounds` says that the operation follows `vfrm` (R81). -/
def floatOp (op : FloatElem) (rounds useD : Bool) (m : MaskNo) (a : AOp) (b d : BitVec 5) (e : VEntry) (s : State) :
    VRes := do
  let c := s.cfg
  needVtype e c
  let f ← needFloat e c
  let rm ← roundFor rounds e s
  need e 1 (groupOk b.toNat c.g && groupOk d.toNat c.g && a.ok e s c.g)
  let reads := a.reads e c ++ [readBelow c b.toNat c.g c.sew c.vl] ++
    (if useD then [readBelow c d.toNat c.g c.sew c.vl] else [])
  let t ← mapLanes e s reads d.toNat c.g c.sew m (fun s1 =>
    let x := a.floatSrc e s1 f
    let y := groupSrc s1 b.toNat c.g c.sew
    let z := if useD then groupSrc s1 d.toNat c.g c.sew else constSrc c.w 0
    fun i =>
      let r := op f rm (x i).1 (y i).1 (z i).1
      (r.1, r.2, (x i).2 || (y i).2 || (z i).2))
  .ok (a.consume t)

/-- The truth of `fcmp` and its flags (R215). -/
def fcmpElem (c : FCond) (f : FFmt) (a b : Nat) : Bool × Nat :=
  let x := decodeFloat f b
  let y := decodeFloat f a
  let any := x.isNan || y.isNan
  match c with
  | .eq => (fEq x y, nanFlags x y)
  | .unord => (any, nanFlags x y)
  | .lt => (fLt x y, if any then flagNV else 0)
  | .le => (fLt x y || fEq x y, if any then flagNV else 0)

/-- `fcmp` (R215). -/
def fcmpOp (c : FCond) (m : MaskNo) (a : AOp) (b : BitVec 5) (md : MaskNo) (e : VEntry) (s : State) : VRes := do
  let k := s.cfg
  needVtype e k
  let f ← needFloat e k
  need e 1 (groupOk b.toNat k.g && a.ok e s k.g)
  let t ← maskLanes e s (a.reads e k ++ [readBelow k b.toNat k.g k.sew k.vl]) m md (fun s1 =>
    let x := a.floatSrc e s1 f
    let y := groupSrc s1 b.toNat k.g k.sew
    fun i =>
      let r := fcmpElem c f (x i).1 (y i).1
      (r.1, r.2, (x i).2 || (y i).2))
  .ok (a.consume t)

/-- A VF instruction with one vector source of the current format (R216, R218). -/
def floatUnary (op : FFmt → Rnd → Nat → Nat × Nat) (rounds : Bool) (m : MaskNo) (b d : BitVec 5) (e : VEntry) (s : State) :
    VRes := do
  let c := s.cfg
  needVtype e c
  let f ← needFloat e c
  let rm ← roundFor rounds e s
  need e 1 (groupOk b.toNat c.g && groupOk d.toNat c.g)
  mapLanes e s [readBelow c b.toNat c.g c.sew c.vl] d.toNat c.g c.sew m (fun s1 =>
    let y := groupSrc s1 b.toNat c.g c.sew
    fun i =>
      let r := op f rm (y i).1
      (r.1, r.2, (y i).2))

/-- `fsqrt` (R216). -/
def fsqrtElem (f : FFmt) (r : Rnd) (b : Nat) : Nat × Nat := fSqrt f r (decodeFloat f b)
/-- `frec` (R216). -/
def frecElem (f : FFmt) (_ : Rnd) (b : Nat) : Nat × Nat := fRec f (decodeFloat f b)
/-- `frsq` (R216). -/
def frsqElem (f : FFmt) (_ : Rnd) (b : Nat) : Nat × Nat := fRsq f (decodeFloat f b)
/-- `fexp2` (R216). -/
def fexp2Elem (f : FFmt) (_ : Rnd) (b : Nat) : Nat × Nat := fExp2 f (decodeFloat f b)
/-- `fclass` (R218). -/
def fclassElem (f : FFmt) (_ : Rnd) (b : Nat) : Nat × Nat := (fClass f b, 0)
/-- `fround` (R218). -/
def froundElem (f : FFmt) (r : Rnd) (b : Nat) : Nat × Nat := fRound f r b

/-! Conversions (R130, R217). -/

/-- The registers of the destination group of a conversion code: the smallest power of two not below G × bits / w (R217). -/
def cvtGroup (c : VCfg) (code : CvtCode) : Nat :=
  match code with
  | .toFloat f => pow2AtLeast 7 (ceilDiv (c.g * fmtBitsOf f) c.w)
  | _ => c.g

/-- The sew code of the destination of a conversion. -/
def cvtSew (c : VCfg) (code : CvtCode) : Nat :=
  match code with
  | .toFloat f => sewOfBits (fmtBitsOf f)
  | _ => c.sew

/-- Whether the conversion is defined at the current vtype (R130). -/
def cvtOk (c : VCfg) (f : FFmt) (code : CvtCode) : Bool :=
  match code with
  | .toFloat g => g != f
  | _ => c.w != 6

/-- One element converted (R60 to R62, R217). -/
def cvtElem (w : Nat) (f : FFmt) (rm : Rnd) (code : CvtCode) (b : Nat) : Nat × Nat :=
  match code with
  | .toFloat g => toFormat g rm (decodeFloat f b)
  | .toInt =>
    let r := fToInt rm (-(2 ^ (w - 1) : Nat)) ((2 ^ (w - 1) : Nat) - 1) (decodeFloat f b)
    (ofSigned w r.1, r.2)
  | .toUint =>
    let r := fToInt rm 0 ((2 ^ w : Nat) - 1) (decodeFloat f b)
    (ofSigned w r.1, r.2)
  | .fromInt => toFormat f rm (FVal.ofInt (toSigned w b))
  | .fromUint => toFormat f rm (FVal.ofInt b)

/-- `fcvt` (R130, R217). -/
def fcvtOp (m : MaskNo) (b : BitVec 5) (code : CvtCode) (d : BitVec 5) (e : VEntry) (s : State) : VRes := do
  let c := s.cfg
  needVtype e c
  match c.fmt with
  | none => .error (trapWord 1 e)
  | some f =>
    let rm ← needRound e s
    need e 1 (cvtOk c f code && groupOk b.toNat c.g && groupOk d.toNat (cvtGroup c code))
    mapLanes e s [readBelow c b.toNat c.g c.sew c.vl] d.toNat (cvtGroup c code) (cvtSew c code) m (fun s1 =>
      let y := groupSrc s1 b.toNat c.g c.sew
      fun i =>
        let r := cvtElem c.w f rm code (y i).1
        (r.1, r.2, (y i).2))

/-! Sign injection (R219) and widening (R220). -/

/-- The new sign of `fsgnj`, `fsgnjn` and `fsgnjx`: from the signs of a and b. -/
def signOp (op : Bool → Bool → Bool) (m : MaskNo) (a : AOp) (b d : BitVec 5) (e : VEntry) (s : State) : VRes :=
  floatOp (fun f _ x y _ =>
    (withSign f y (op (x.testBit (fmtBitsOf f - 1)) (y.testBit (fmtBitsOf f - 1))), 0)) false false m a b d e s

/-- The FP32 or FP64 format that FP16, BF16 or FP32 widens to (R220). -/
def wideFormat : FFmt → FFmt
  | .fp32 => .fp64
  | _ => .fp32

/-- A widening operation: exact sources a and b, the old wide vd, and the mode. -/
abbrev WideElem := FFmt → Rnd → FVal → FVal → FVal → Nat × Nat

/-- `fwadd` (R220). -/
def fwaddElem : WideElem := fun f r a b _ => fAdd f r b a
/-- `fwmul` (R220). -/
def fwmulElem : WideElem := fun f r a b _ => fMul f r b a
/-- `fwmac` (R220). -/
def fwmacElem : WideElem := fun f r a b v => fMulAdd f r a b v

/-- `fwadd`, `fwmul` and `fwmac` (R220). -/
def widenOp (op : WideElem) (useD : Bool) (m : MaskNo) (a : AOp) (b d : BitVec 5) (e : VEntry) (s : State) : VRes := do
  let c := s.cfg
  needVtype e c
  let f ← needFloat e c
  let rm ← needRound e s
  let wf := wideFormat f
  let wsew := sewOfBits (2 * c.w)
  need e 1 (c.w != 64 && groupOk b.toNat c.g && groupOk d.toNat (2 * c.g) && a.ok e s c.g)
  let reads := a.reads e c ++ [readBelow c b.toNat c.g c.sew c.vl] ++
    (if useD then [readBelow c d.toNat (2 * c.g) wsew c.vl] else [])
  mapLanes e s reads d.toNat (2 * c.g) wsew m (fun s1 =>
    let x := a.floatSrc e s1 f
    let y := groupSrc s1 b.toNat c.g c.sew
    let z := if useD then groupSrc s1 d.toNat (2 * c.g) wsew else constSrc (2 * c.w) 0
    fun i =>
      let r := op wf rm (decodeFloat f (x i).1) (decodeFloat f (y i).1) (decodeFloat wf (z i).1)
      (r.1, r.2, (x i).2 || (y i).2 || (z i).2))

/-! The instructions. -/


/-- `fadd.vv` (R214). -/
def vFaddVv (m : MaskNo) (b : BitVec 5) (a : BitVec 5) (d : BitVec 5) : VEntry → State → VRes := floatOp faddElem true false m (.vec a.toNat) b d
/-- Dispatch of `fadd.vv`. -/
def execFaddVv (m : MaskNo) (b : BitVec 5) (a : BitVec 5) (d : BitVec 5) (s : State) : Res := issue 0 (packWord 0#4 m b a 0#3 d 0x2B#7) noOps (vFaddVv m b a d) s

/-- `fadd.vx` (R214). -/
def vFaddVx (m : MaskNo) (b : BitVec 5) (_a : BitVec 5) (d : BitVec 5) : VEntry → State → VRes := floatOp faddElem true false m .scalar b d
/-- Dispatch of `fadd.vx`. -/
def execFaddVx (m : MaskNo) (b : BitVec 5) (a : BitVec 5) (d : BitVec 5) (s : State) : Res := issue 0 (packWord 0#4 m b a 1#3 d 0x2B#7) (opF s a) (vFaddVx m b a d) s

/-- `fadd.vq` (R214). -/
def vFaddVq (m : MaskNo) (b : BitVec 5) (q : QueueNo) (d : BitVec 5) : VEntry → State → VRes := floatOp faddElem true false m (.queue q) b d
/-- Dispatch of `fadd.vq`. -/
def execFaddVq (m : MaskNo) (b : BitVec 5) (q : QueueNo) (d : BitVec 5) (s : State) : Res := issue 0 (packWord 0#4 m b (0#3 ++ q) 3#3 d 0x2B#7) noOps (vFaddVq m b q d) s

/-- `fadd.vn` (R214). -/
def vFaddVn (m : MaskNo) (b : BitVec 5) (_a : BitVec 5) (d : BitVec 5) : VEntry → State → VRes := floatOp faddElem true false m .named b d
/-- Dispatch of `fadd.vn`. -/
def execFaddVn (m : MaskNo) (b : BitVec 5) (a : BitVec 5) (d : BitVec 5) (s : State) : Res := issue 0 (packWord 0#4 m b a 4#3 d 0x2B#7) (opX s a) (vFaddVn m b a d) s

/-- `fsub.vv` (R214). -/
def vFsubVv (m : MaskNo) (b : BitVec 5) (a : BitVec 5) (d : BitVec 5) : VEntry → State → VRes := floatOp fsubElem true false m (.vec a.toNat) b d
/-- Dispatch of `fsub.vv`. -/
def execFsubVv (m : MaskNo) (b : BitVec 5) (a : BitVec 5) (d : BitVec 5) (s : State) : Res := issue 0 (packWord 1#4 m b a 0#3 d 0x2B#7) noOps (vFsubVv m b a d) s

/-- `fsub.vx` (R214). -/
def vFsubVx (m : MaskNo) (b : BitVec 5) (_a : BitVec 5) (d : BitVec 5) : VEntry → State → VRes := floatOp fsubElem true false m .scalar b d
/-- Dispatch of `fsub.vx`. -/
def execFsubVx (m : MaskNo) (b : BitVec 5) (a : BitVec 5) (d : BitVec 5) (s : State) : Res := issue 0 (packWord 1#4 m b a 1#3 d 0x2B#7) (opF s a) (vFsubVx m b a d) s

/-- `fsub.vq` (R214). -/
def vFsubVq (m : MaskNo) (b : BitVec 5) (q : QueueNo) (d : BitVec 5) : VEntry → State → VRes := floatOp fsubElem true false m (.queue q) b d
/-- Dispatch of `fsub.vq`. -/
def execFsubVq (m : MaskNo) (b : BitVec 5) (q : QueueNo) (d : BitVec 5) (s : State) : Res := issue 0 (packWord 1#4 m b (0#3 ++ q) 3#3 d 0x2B#7) noOps (vFsubVq m b q d) s

/-- `fsub.vn` (R214). -/
def vFsubVn (m : MaskNo) (b : BitVec 5) (_a : BitVec 5) (d : BitVec 5) : VEntry → State → VRes := floatOp fsubElem true false m .named b d
/-- Dispatch of `fsub.vn`. -/
def execFsubVn (m : MaskNo) (b : BitVec 5) (a : BitVec 5) (d : BitVec 5) (s : State) : Res := issue 0 (packWord 1#4 m b a 4#3 d 0x2B#7) (opX s a) (vFsubVn m b a d) s

/-- `fmul.vv` (R214). -/
def vFmulVv (m : MaskNo) (b : BitVec 5) (a : BitVec 5) (d : BitVec 5) : VEntry → State → VRes := floatOp fmulElem true false m (.vec a.toNat) b d
/-- Dispatch of `fmul.vv`. -/
def execFmulVv (m : MaskNo) (b : BitVec 5) (a : BitVec 5) (d : BitVec 5) (s : State) : Res := issue 0 (packWord 2#4 m b a 0#3 d 0x2B#7) noOps (vFmulVv m b a d) s

/-- `fmul.vx` (R214). -/
def vFmulVx (m : MaskNo) (b : BitVec 5) (_a : BitVec 5) (d : BitVec 5) : VEntry → State → VRes := floatOp fmulElem true false m .scalar b d
/-- Dispatch of `fmul.vx`. -/
def execFmulVx (m : MaskNo) (b : BitVec 5) (a : BitVec 5) (d : BitVec 5) (s : State) : Res := issue 0 (packWord 2#4 m b a 1#3 d 0x2B#7) (opF s a) (vFmulVx m b a d) s

/-- `fmul.vq` (R214). -/
def vFmulVq (m : MaskNo) (b : BitVec 5) (q : QueueNo) (d : BitVec 5) : VEntry → State → VRes := floatOp fmulElem true false m (.queue q) b d
/-- Dispatch of `fmul.vq`. -/
def execFmulVq (m : MaskNo) (b : BitVec 5) (q : QueueNo) (d : BitVec 5) (s : State) : Res := issue 0 (packWord 2#4 m b (0#3 ++ q) 3#3 d 0x2B#7) noOps (vFmulVq m b q d) s

/-- `fmul.vn` (R214). -/
def vFmulVn (m : MaskNo) (b : BitVec 5) (_a : BitVec 5) (d : BitVec 5) : VEntry → State → VRes := floatOp fmulElem true false m .named b d
/-- Dispatch of `fmul.vn`. -/
def execFmulVn (m : MaskNo) (b : BitVec 5) (a : BitVec 5) (d : BitVec 5) (s : State) : Res := issue 0 (packWord 2#4 m b a 4#3 d 0x2B#7) (opX s a) (vFmulVn m b a d) s

/-- `fdiv.vv` (R214). -/
def vFdivVv (m : MaskNo) (b : BitVec 5) (a : BitVec 5) (d : BitVec 5) : VEntry → State → VRes := floatOp fdivElem true false m (.vec a.toNat) b d
/-- Dispatch of `fdiv.vv`. -/
def execFdivVv (m : MaskNo) (b : BitVec 5) (a : BitVec 5) (d : BitVec 5) (s : State) : Res := issue 0 (packWord 3#4 m b a 0#3 d 0x2B#7) noOps (vFdivVv m b a d) s

/-- `fdiv.vx` (R214). -/
def vFdivVx (m : MaskNo) (b : BitVec 5) (_a : BitVec 5) (d : BitVec 5) : VEntry → State → VRes := floatOp fdivElem true false m .scalar b d
/-- Dispatch of `fdiv.vx`. -/
def execFdivVx (m : MaskNo) (b : BitVec 5) (a : BitVec 5) (d : BitVec 5) (s : State) : Res := issue 0 (packWord 3#4 m b a 1#3 d 0x2B#7) (opF s a) (vFdivVx m b a d) s

/-- `fdiv.vq` (R214). -/
def vFdivVq (m : MaskNo) (b : BitVec 5) (q : QueueNo) (d : BitVec 5) : VEntry → State → VRes := floatOp fdivElem true false m (.queue q) b d
/-- Dispatch of `fdiv.vq`. -/
def execFdivVq (m : MaskNo) (b : BitVec 5) (q : QueueNo) (d : BitVec 5) (s : State) : Res := issue 0 (packWord 3#4 m b (0#3 ++ q) 3#3 d 0x2B#7) noOps (vFdivVq m b q d) s

/-- `fdiv.vn` (R214). -/
def vFdivVn (m : MaskNo) (b : BitVec 5) (_a : BitVec 5) (d : BitVec 5) : VEntry → State → VRes := floatOp fdivElem true false m .named b d
/-- Dispatch of `fdiv.vn`. -/
def execFdivVn (m : MaskNo) (b : BitVec 5) (a : BitVec 5) (d : BitVec 5) (s : State) : Res := issue 0 (packWord 3#4 m b a 4#3 d 0x2B#7) (opX s a) (vFdivVn m b a d) s

/-- `fmin.vv` (R214). -/
def vFminVv (m : MaskNo) (b : BitVec 5) (a : BitVec 5) (d : BitVec 5) : VEntry → State → VRes := floatOp fminElem false false m (.vec a.toNat) b d
/-- Dispatch of `fmin.vv`. -/
def execFminVv (m : MaskNo) (b : BitVec 5) (a : BitVec 5) (d : BitVec 5) (s : State) : Res := issue 0 (packWord 4#4 m b a 0#3 d 0x2B#7) noOps (vFminVv m b a d) s

/-- `fmin.vx` (R214). -/
def vFminVx (m : MaskNo) (b : BitVec 5) (_a : BitVec 5) (d : BitVec 5) : VEntry → State → VRes := floatOp fminElem false false m .scalar b d
/-- Dispatch of `fmin.vx`. -/
def execFminVx (m : MaskNo) (b : BitVec 5) (a : BitVec 5) (d : BitVec 5) (s : State) : Res := issue 0 (packWord 4#4 m b a 1#3 d 0x2B#7) (opF s a) (vFminVx m b a d) s

/-- `fmin.vq` (R214). -/
def vFminVq (m : MaskNo) (b : BitVec 5) (q : QueueNo) (d : BitVec 5) : VEntry → State → VRes := floatOp fminElem false false m (.queue q) b d
/-- Dispatch of `fmin.vq`. -/
def execFminVq (m : MaskNo) (b : BitVec 5) (q : QueueNo) (d : BitVec 5) (s : State) : Res := issue 0 (packWord 4#4 m b (0#3 ++ q) 3#3 d 0x2B#7) noOps (vFminVq m b q d) s

/-- `fmin.vn` (R214). -/
def vFminVn (m : MaskNo) (b : BitVec 5) (_a : BitVec 5) (d : BitVec 5) : VEntry → State → VRes := floatOp fminElem false false m .named b d
/-- Dispatch of `fmin.vn`. -/
def execFminVn (m : MaskNo) (b : BitVec 5) (a : BitVec 5) (d : BitVec 5) (s : State) : Res := issue 0 (packWord 4#4 m b a 4#3 d 0x2B#7) (opX s a) (vFminVn m b a d) s

/-- `fmax.vv` (R214). -/
def vFmaxVv (m : MaskNo) (b : BitVec 5) (a : BitVec 5) (d : BitVec 5) : VEntry → State → VRes := floatOp fmaxElem false false m (.vec a.toNat) b d
/-- Dispatch of `fmax.vv`. -/
def execFmaxVv (m : MaskNo) (b : BitVec 5) (a : BitVec 5) (d : BitVec 5) (s : State) : Res := issue 0 (packWord 5#4 m b a 0#3 d 0x2B#7) noOps (vFmaxVv m b a d) s

/-- `fmax.vx` (R214). -/
def vFmaxVx (m : MaskNo) (b : BitVec 5) (_a : BitVec 5) (d : BitVec 5) : VEntry → State → VRes := floatOp fmaxElem false false m .scalar b d
/-- Dispatch of `fmax.vx`. -/
def execFmaxVx (m : MaskNo) (b : BitVec 5) (a : BitVec 5) (d : BitVec 5) (s : State) : Res := issue 0 (packWord 5#4 m b a 1#3 d 0x2B#7) (opF s a) (vFmaxVx m b a d) s

/-- `fmax.vq` (R214). -/
def vFmaxVq (m : MaskNo) (b : BitVec 5) (q : QueueNo) (d : BitVec 5) : VEntry → State → VRes := floatOp fmaxElem false false m (.queue q) b d
/-- Dispatch of `fmax.vq`. -/
def execFmaxVq (m : MaskNo) (b : BitVec 5) (q : QueueNo) (d : BitVec 5) (s : State) : Res := issue 0 (packWord 5#4 m b (0#3 ++ q) 3#3 d 0x2B#7) noOps (vFmaxVq m b q d) s

/-- `fmax.vn` (R214). -/
def vFmaxVn (m : MaskNo) (b : BitVec 5) (_a : BitVec 5) (d : BitVec 5) : VEntry → State → VRes := floatOp fmaxElem false false m .named b d
/-- Dispatch of `fmax.vn`. -/
def execFmaxVn (m : MaskNo) (b : BitVec 5) (a : BitVec 5) (d : BitVec 5) (s : State) : Res := issue 0 (packWord 5#4 m b a 4#3 d 0x2B#7) (opX s a) (vFmaxVn m b a d) s

/-- `fmadd.vv` (R214). -/
def vFmaddVv (m : MaskNo) (b : BitVec 5) (a : BitVec 5) (d : BitVec 5) : VEntry → State → VRes := floatOp fmaddElem true true m (.vec a.toNat) b d
/-- Dispatch of `fmadd.vv`. -/
def execFmaddVv (m : MaskNo) (b : BitVec 5) (a : BitVec 5) (d : BitVec 5) (s : State) : Res := issue 0 (packWord 6#4 m b a 0#3 d 0x2B#7) noOps (vFmaddVv m b a d) s

/-- `fmadd.vx` (R214). -/
def vFmaddVx (m : MaskNo) (b : BitVec 5) (_a : BitVec 5) (d : BitVec 5) : VEntry → State → VRes := floatOp fmaddElem true true m .scalar b d
/-- Dispatch of `fmadd.vx`. -/
def execFmaddVx (m : MaskNo) (b : BitVec 5) (a : BitVec 5) (d : BitVec 5) (s : State) : Res := issue 0 (packWord 6#4 m b a 1#3 d 0x2B#7) (opF s a) (vFmaddVx m b a d) s

/-- `fmadd.vq` (R214). -/
def vFmaddVq (m : MaskNo) (b : BitVec 5) (q : QueueNo) (d : BitVec 5) : VEntry → State → VRes := floatOp fmaddElem true true m (.queue q) b d
/-- Dispatch of `fmadd.vq`. -/
def execFmaddVq (m : MaskNo) (b : BitVec 5) (q : QueueNo) (d : BitVec 5) (s : State) : Res := issue 0 (packWord 6#4 m b (0#3 ++ q) 3#3 d 0x2B#7) noOps (vFmaddVq m b q d) s

/-- `fmadd.vn` (R214). -/
def vFmaddVn (m : MaskNo) (b : BitVec 5) (_a : BitVec 5) (d : BitVec 5) : VEntry → State → VRes := floatOp fmaddElem true true m .named b d
/-- Dispatch of `fmadd.vn`. -/
def execFmaddVn (m : MaskNo) (b : BitVec 5) (a : BitVec 5) (d : BitVec 5) (s : State) : Res := issue 0 (packWord 6#4 m b a 4#3 d 0x2B#7) (opX s a) (vFmaddVn m b a d) s

/-- `fnmsub.vv` (R214). -/
def vFnmsubVv (m : MaskNo) (b : BitVec 5) (a : BitVec 5) (d : BitVec 5) : VEntry → State → VRes := floatOp fnmsubElem true true m (.vec a.toNat) b d
/-- Dispatch of `fnmsub.vv`. -/
def execFnmsubVv (m : MaskNo) (b : BitVec 5) (a : BitVec 5) (d : BitVec 5) (s : State) : Res := issue 0 (packWord 7#4 m b a 0#3 d 0x2B#7) noOps (vFnmsubVv m b a d) s

/-- `fnmsub.vx` (R214). -/
def vFnmsubVx (m : MaskNo) (b : BitVec 5) (_a : BitVec 5) (d : BitVec 5) : VEntry → State → VRes := floatOp fnmsubElem true true m .scalar b d
/-- Dispatch of `fnmsub.vx`. -/
def execFnmsubVx (m : MaskNo) (b : BitVec 5) (a : BitVec 5) (d : BitVec 5) (s : State) : Res := issue 0 (packWord 7#4 m b a 1#3 d 0x2B#7) (opF s a) (vFnmsubVx m b a d) s

/-- `fnmsub.vq` (R214). -/
def vFnmsubVq (m : MaskNo) (b : BitVec 5) (q : QueueNo) (d : BitVec 5) : VEntry → State → VRes := floatOp fnmsubElem true true m (.queue q) b d
/-- Dispatch of `fnmsub.vq`. -/
def execFnmsubVq (m : MaskNo) (b : BitVec 5) (q : QueueNo) (d : BitVec 5) (s : State) : Res := issue 0 (packWord 7#4 m b (0#3 ++ q) 3#3 d 0x2B#7) noOps (vFnmsubVq m b q d) s

/-- `fnmsub.vn` (R214). -/
def vFnmsubVn (m : MaskNo) (b : BitVec 5) (_a : BitVec 5) (d : BitVec 5) : VEntry → State → VRes := floatOp fnmsubElem true true m .named b d
/-- Dispatch of `fnmsub.vn`. -/
def execFnmsubVn (m : MaskNo) (b : BitVec 5) (a : BitVec 5) (d : BitVec 5) (s : State) : Res := issue 0 (packWord 7#4 m b a 4#3 d 0x2B#7) (opX s a) (vFnmsubVn m b a d) s

/-- `fcmp.vv` (R215). -/
def vFcmpVv (m : MaskNo) (b : BitVec 5) (a : BitVec 5) (c : FCond) (e : MaskNo) : VEntry → State → VRes := fcmpOp c m (.vec a.toNat) b e
/-- Dispatch of `fcmp.vv`. -/
def execFcmpVv (m : MaskNo) (b : BitVec 5) (a : BitVec 5) (c : FCond) (e : MaskNo) (s : State) : Res := issue 0 (packWord 8#4 m b a 0#3 (c.bits ++ e) 0x2B#7) noOps (vFcmpVv m b a c e) s

/-- `fcmp.vx` (R215). -/
def vFcmpVx (m : MaskNo) (b : BitVec 5) (_a : BitVec 5) (c : FCond) (e : MaskNo) : VEntry → State → VRes := fcmpOp c m .scalar b e
/-- Dispatch of `fcmp.vx`. -/
def execFcmpVx (m : MaskNo) (b : BitVec 5) (a : BitVec 5) (c : FCond) (e : MaskNo) (s : State) : Res := issue 0 (packWord 8#4 m b a 1#3 (c.bits ++ e) 0x2B#7) (opF s a) (vFcmpVx m b a c e) s

/-- `fcmp.vq` (R215). -/
def vFcmpVq (m : MaskNo) (b : BitVec 5) (q : QueueNo) (c : FCond) (e : MaskNo) : VEntry → State → VRes := fcmpOp c m (.queue q) b e
/-- Dispatch of `fcmp.vq`. -/
def execFcmpVq (m : MaskNo) (b : BitVec 5) (q : QueueNo) (c : FCond) (e : MaskNo) (s : State) : Res := issue 0 (packWord 8#4 m b (0#3 ++ q) 3#3 (c.bits ++ e) 0x2B#7) noOps (vFcmpVq m b q c e) s

/-- `fcmp.vn` (R215). -/
def vFcmpVn (m : MaskNo) (b : BitVec 5) (_a : BitVec 5) (c : FCond) (e : MaskNo) : VEntry → State → VRes := fcmpOp c m .named b e
/-- Dispatch of `fcmp.vn`. -/
def execFcmpVn (m : MaskNo) (b : BitVec 5) (a : BitVec 5) (c : FCond) (e : MaskNo) (s : State) : Res := issue 0 (packWord 8#4 m b a 4#3 (c.bits ++ e) 0x2B#7) (opX s a) (vFcmpVn m b a c e) s

/-- `fsqrt` (R216). -/
def vFsqrt (m : MaskNo) (b : BitVec 5) (d : BitVec 5) : VEntry → State → VRes := floatUnary fsqrtElem true m b d
/-- Dispatch of `fsqrt`. -/
def execFsqrt (m : MaskNo) (b : BitVec 5) (d : BitVec 5) (s : State) : Res := issue 0 (packWord 9#4 m b 0#5 0#3 d 0x2B#7) noOps (vFsqrt m b d) s

/-- `frec` (R216). -/
def vFrec (m : MaskNo) (b : BitVec 5) (d : BitVec 5) : VEntry → State → VRes := floatUnary frecElem false m b d
/-- Dispatch of `frec`. -/
def execFrec (m : MaskNo) (b : BitVec 5) (d : BitVec 5) (s : State) : Res := issue 0 (packWord 10#4 m b 0#5 0#3 d 0x2B#7) noOps (vFrec m b d) s

/-- `frsq` (R216). -/
def vFrsq (m : MaskNo) (b : BitVec 5) (d : BitVec 5) : VEntry → State → VRes := floatUnary frsqElem false m b d
/-- Dispatch of `frsq`. -/
def execFrsq (m : MaskNo) (b : BitVec 5) (d : BitVec 5) (s : State) : Res := issue 0 (packWord 11#4 m b 0#5 0#3 d 0x2B#7) noOps (vFrsq m b d) s

/-- `fexp2` (R216). -/
def vFexp2 (m : MaskNo) (b : BitVec 5) (d : BitVec 5) : VEntry → State → VRes := floatUnary fexp2Elem false m b d
/-- Dispatch of `fexp2`. -/
def execFexp2 (m : MaskNo) (b : BitVec 5) (d : BitVec 5) (s : State) : Res := issue 0 (packWord 12#4 m b 0#5 0#3 d 0x2B#7) noOps (vFexp2 m b d) s

/-- `fcvt` (R217). -/
def vFcvt (m : MaskNo) (b : BitVec 5) (c : CvtCode) (d : BitVec 5) : VEntry → State → VRes := fcvtOp m b c d
/-- Dispatch of `fcvt`. -/
def execFcvt (m : MaskNo) (b : BitVec 5) (c : CvtCode) (d : BitVec 5) (s : State) : Res := issue 0 (packWord 13#4 m b c.bits 0#3 d 0x2B#7) noOps (vFcvt m b c d) s

/-- `fclass` (R218). -/
def vFclass (m : MaskNo) (b : BitVec 5) (d : BitVec 5) : VEntry → State → VRes := floatUnary fclassElem false m b d
/-- Dispatch of `fclass`. -/
def execFclass (m : MaskNo) (b : BitVec 5) (d : BitVec 5) (s : State) : Res := issue 0 (packWord 14#4 m b 0#5 0#3 d 0x2B#7) noOps (vFclass m b d) s

/-- `fround` (R218). -/
def vFround (m : MaskNo) (b : BitVec 5) (d : BitVec 5) : VEntry → State → VRes := floatUnary froundElem true m b d
/-- Dispatch of `fround`. -/
def execFround (m : MaskNo) (b : BitVec 5) (d : BitVec 5) (s : State) : Res := issue 0 (packWord 15#4 m b 0#5 0#3 d 0x2B#7) noOps (vFround m b d) s

/-- `fsgnj.xv` (R219). -/
def vFsgnjXv (m : MaskNo) (b : BitVec 5) (a : BitVec 5) (d : BitVec 5) : VEntry → State → VRes := signOp (fun x _ => x) m (.vec a.toNat) b d
/-- Dispatch of `fsgnj.xv`. -/
def execFsgnjXv (m : MaskNo) (b : BitVec 5) (a : BitVec 5) (d : BitVec 5) (s : State) : Res := issue 0 (packWord 0#4 m b a 6#3 d 0x2B#7) noOps (vFsgnjXv m b a d) s

/-- `fsgnj.xx` (R219). -/
def vFsgnjXx (m : MaskNo) (b : BitVec 5) (_a : BitVec 5) (d : BitVec 5) : VEntry → State → VRes := signOp (fun x _ => x) m .scalar b d
/-- Dispatch of `fsgnj.xx`. -/
def execFsgnjXx (m : MaskNo) (b : BitVec 5) (a : BitVec 5) (d : BitVec 5) (s : State) : Res := issue 0 (packWord 0#4 m b a 7#3 d 0x2B#7) (opF s a) (vFsgnjXx m b a d) s

/-- `fsgnjn.xv` (R219). -/
def vFsgnjnXv (m : MaskNo) (b : BitVec 5) (a : BitVec 5) (d : BitVec 5) : VEntry → State → VRes := signOp (fun x _ => !x) m (.vec a.toNat) b d
/-- Dispatch of `fsgnjn.xv`. -/
def execFsgnjnXv (m : MaskNo) (b : BitVec 5) (a : BitVec 5) (d : BitVec 5) (s : State) : Res := issue 0 (packWord 1#4 m b a 6#3 d 0x2B#7) noOps (vFsgnjnXv m b a d) s

/-- `fsgnjn.xx` (R219). -/
def vFsgnjnXx (m : MaskNo) (b : BitVec 5) (_a : BitVec 5) (d : BitVec 5) : VEntry → State → VRes := signOp (fun x _ => !x) m .scalar b d
/-- Dispatch of `fsgnjn.xx`. -/
def execFsgnjnXx (m : MaskNo) (b : BitVec 5) (a : BitVec 5) (d : BitVec 5) (s : State) : Res := issue 0 (packWord 1#4 m b a 7#3 d 0x2B#7) (opF s a) (vFsgnjnXx m b a d) s

/-- `fsgnjx.xv` (R219). -/
def vFsgnjxXv (m : MaskNo) (b : BitVec 5) (a : BitVec 5) (d : BitVec 5) : VEntry → State → VRes := signOp (fun x y => x != y) m (.vec a.toNat) b d
/-- Dispatch of `fsgnjx.xv`. -/
def execFsgnjxXv (m : MaskNo) (b : BitVec 5) (a : BitVec 5) (d : BitVec 5) (s : State) : Res := issue 0 (packWord 2#4 m b a 6#3 d 0x2B#7) noOps (vFsgnjxXv m b a d) s

/-- `fsgnjx.xx` (R219). -/
def vFsgnjxXx (m : MaskNo) (b : BitVec 5) (_a : BitVec 5) (d : BitVec 5) : VEntry → State → VRes := signOp (fun x y => x != y) m .scalar b d
/-- Dispatch of `fsgnjx.xx`. -/
def execFsgnjxXx (m : MaskNo) (b : BitVec 5) (a : BitVec 5) (d : BitVec 5) (s : State) : Res := issue 0 (packWord 2#4 m b a 7#3 d 0x2B#7) (opF s a) (vFsgnjxXx m b a d) s

/-- `fwadd.xv` (R220). -/
def vFwaddXv (m : MaskNo) (b : BitVec 5) (a : BitVec 5) (d : BitVec 5) : VEntry → State → VRes := widenOp fwaddElem false m (.vec a.toNat) b d
/-- Dispatch of `fwadd.xv`. -/
def execFwaddXv (m : MaskNo) (b : BitVec 5) (a : BitVec 5) (d : BitVec 5) (s : State) : Res := issue 0 (packWord 3#4 m b a 6#3 d 0x2B#7) noOps (vFwaddXv m b a d) s

/-- `fwadd.xx` (R220). -/
def vFwaddXx (m : MaskNo) (b : BitVec 5) (_a : BitVec 5) (d : BitVec 5) : VEntry → State → VRes := widenOp fwaddElem false m .scalar b d
/-- Dispatch of `fwadd.xx`. -/
def execFwaddXx (m : MaskNo) (b : BitVec 5) (a : BitVec 5) (d : BitVec 5) (s : State) : Res := issue 0 (packWord 3#4 m b a 7#3 d 0x2B#7) (opF s a) (vFwaddXx m b a d) s

/-- `fwmul.xv` (R220). -/
def vFwmulXv (m : MaskNo) (b : BitVec 5) (a : BitVec 5) (d : BitVec 5) : VEntry → State → VRes := widenOp fwmulElem false m (.vec a.toNat) b d
/-- Dispatch of `fwmul.xv`. -/
def execFwmulXv (m : MaskNo) (b : BitVec 5) (a : BitVec 5) (d : BitVec 5) (s : State) : Res := issue 0 (packWord 4#4 m b a 6#3 d 0x2B#7) noOps (vFwmulXv m b a d) s

/-- `fwmul.xx` (R220). -/
def vFwmulXx (m : MaskNo) (b : BitVec 5) (_a : BitVec 5) (d : BitVec 5) : VEntry → State → VRes := widenOp fwmulElem false m .scalar b d
/-- Dispatch of `fwmul.xx`. -/
def execFwmulXx (m : MaskNo) (b : BitVec 5) (a : BitVec 5) (d : BitVec 5) (s : State) : Res := issue 0 (packWord 4#4 m b a 7#3 d 0x2B#7) (opF s a) (vFwmulXx m b a d) s

/-- `fwmac.xv` (R220). -/
def vFwmacXv (m : MaskNo) (b : BitVec 5) (a : BitVec 5) (d : BitVec 5) : VEntry → State → VRes := widenOp fwmacElem true m (.vec a.toNat) b d
/-- Dispatch of `fwmac.xv`. -/
def execFwmacXv (m : MaskNo) (b : BitVec 5) (a : BitVec 5) (d : BitVec 5) (s : State) : Res := issue 0 (packWord 5#4 m b a 6#3 d 0x2B#7) noOps (vFwmacXv m b a d) s

/-- `fwmac.xx` (R220). -/
def vFwmacXx (m : MaskNo) (b : BitVec 5) (_a : BitVec 5) (d : BitVec 5) : VEntry → State → VRes := widenOp fwmacElem true m .scalar b d
/-- Dispatch of `fwmac.xx`. -/
def execFwmacXx (m : MaskNo) (b : BitVec 5) (a : BitVec 5) (d : BitVec 5) (s : State) : Res := issue 0 (packWord 5#4 m b a 7#3 d 0x2B#7) (opF s a) (vFwmacXx m b a d) s

end Sys2Proof.Machine
end

