-- ==== Sys2Proof/Machine/VecPerm.lean ====
section
/-! DEFINITION. The VP instructions: masks, counts, slides, gathers, packing, reductions and moves (R131, R221 to R229). -/

namespace Sys2Proof.Machine

/-! Masks (R221, R222). -/

/-- `mand`, `mor`, `mxor`, `mandn`: every bit below `vl` from mb and ma (R221). -/
def maskOp (op : Bool → Bool → Bool) (b a d : MaskNo) (e : VEntry) (s : State) : VRes := do
  needVtype e s.cfg
  let s1 ← admission e s [] [] 0
  .ok (s1.onHart (fun h => h.writeMask d ((List.range s.cfg.vl).map (fun i => (i, op (h.maskBit b i) (h.maskBit a i))))))

/-- A BQ entry for an instruction that takes one: 16 unpopped values leave none (R347). -/
def needBq (e : VEntry) (s : State) : Except Stop Unit := need e 1 (decide (s.hart.bq.length < Config.bqDepth))

/-- `mpop` and `mfirst`: x[rd] from the selected indices, ascending (R222, R204). -/
def countOp (op : List Nat → Word) (m b : MaskNo) (d : BitVec 5) (e : VEntry) (s : State) : VRes := do
  needVtype e s.cfg
  needBq e s
  let s1 ← admission e s [] [] 0
  .ok (s1.setX d (op ((s.actives m).filter (fun i => s.hart.maskBit b i))))

/-- `mpop` (R222). -/
def popResult (l : List Nat) : Word := BitVec.ofNat 64 l.length

/-- `mfirst` (R222). -/
def firstResult : List Nat → Word
  | [] => -1#64
  | i :: _ => BitVec.ofNat 64 i

/-- Prefix counts: for each index the number of earlier ones that a predicate selects. -/
def prefixCounts (p : Nat → Bool) : List Nat → Nat → List Nat
  | [], _ => []
  | i :: is, n => n :: prefixCounts p is (if p i then n + 1 else n)

/-- An instruction without vector sources: every active element from its index and a table. -/
def indexOp (tbl : Hart → Nat → Nat → Nat) (m : MaskNo) (d : BitVec 5) (e : VEntry) (s : State) : VRes := do
  let c := s.cfg
  needVtype e c
  need e 1 (c.w != 6 && groupOk d.toNat c.g)
  mapLanes e s [] d.toNat c.g c.sew m (fun s1 =>
    let t := tbl s1.hart c.vl
    fun i => (t i % 2 ^ c.w, 0, false))

/-- `iota` (R222). -/
def iotaOp (m b : MaskNo) (d : BitVec 5) : VEntry → State → VRes :=
  indexOp (fun h n =>
    let l := prefixCounts (fun i => h.maskBit m i && h.maskBit b i) (List.range n) 0
    fun i => l.getD i 0) m d

/-- `vid` (R222): the shape A where R190 puts it on the scalar-affine path (R191). -/
def vidOp (m : MaskNo) (d : BitVec 5) (e : VEntry) (s : State) : VRes :=
  let c := s.cfg
  if c.vill = false ∧ c.w ≠ 6 ∧ groupOk d.toNat c.g = true ∧ m = 0#3 ∧ c.vl = c.vlmax then
    .ok (runShape e s c d.toNat ((List.range c.g).map (fun j => (j * (c.regBits / c.w), 1))))
  else indexOp (fun _ _ i => i) m d e s

/-! Permutations (R223 to R225, R229). -/

/-- The offset of a slide: x[rs1], imm5, or element 0 of the named register, with its poison (R223). -/
def slideOffset (a : AOp) (e : VEntry) (s : State) : Nat × Bool :=
  match a with
  | .scalar => ((e.op0.getD 0#64).toNat, false)
  | .imm i => (i.toNat, false)
  | _ => a.src e s 0

/-- The read of a slide's offset: element 0 of the named group. -/
def slideReads (a : AOp) (e : VEntry) (c : VCfg) : List GroupRead :=
  match a.reg e with
  | some n => if c.vl = 0 then [] else [readBelow c n c.g c.sew 1]
  | none => []

/-- A permutation of one source group: for each active i, the source index it takes, or a constant 0, or no write. -/
inductive Pick where
  | source (j : Nat) | zero | keep
deriving DecidableEq, Repr

/-- Elements picked from a group and written to the destination group; `bad` poisons every result. -/
def pickLanes (e : VEntry) (s1 : State) (m : MaskNo) (b d : BitVec 5) (pick : Nat → Pick) (bad : Bool) : State :=
  let c := s1.cfg
  let y := groupSrc s1 b.toNat c.g c.sew
  writeGroup s1 d.toNat c.g c.sew ((List.range c.vl).map (fun i =>
    if s1.hart.maskBit m i then
      match pick i with
      | .source j => some ((y j).1, (y j).2 || bad)
      | .zero => some (0, bad)
      | .keep => none
    else none))

/-- The destination registers of an instruction of the current width and group. -/
def ownDest (c : VCfg) (d : BitVec 5) : List Nat := destRegs c d.toNat c.g c.w c.vl

/-- `slideup` and `slidedn` (R223). -/
def slideOp (up : Bool) (m : MaskNo) (a : AOp) (b d : BitVec 5) (e : VEntry) (s : State) : VRes := do
  let c := s.cfg
  needVtype e c
  need e 1 (groupOk b.toNat c.g && groupOk d.toNat c.g && a.ok e s c.g)
  let o := (slideOffset a e s).1
  let read := if up then readBelow c b.toNat c.g c.sew (c.vl - o)
    else if c.vl = 0 then readBelow c b.toNat c.g c.sew 0 else readFrom c b.toNat c.g c.sew o (min (c.vl + o) c.vlmax)
  let s1 ← admission e s (slideReads a e c ++ [read]) (ownDest c d) (microOpsOf (ownDest c d).length)
  let (off, bad) := slideOffset a e s1
  .ok (pickLanes e s1 m b d (fun i =>
    if up then if off ≤ i then .source (i - off) else .keep
    else if i + off < c.vlmax then .source (i + off) else .zero) bad)

/-- A gather by indices in a register or a scalar (R224): `modulus` is that of `vlut`. -/
def gatherOp (modulus : Nat → Nat) (m : MaskNo) (a : AOp) (b d : BitVec 5) (e : VEntry) (s : State) : VRes := do
  let c := s.cfg
  needVtype e c
  need e 1 (groupOk b.toNat c.g && groupOk d.toNat c.g && a.ok e s c.g)
  let reads := a.reads e c ++ (if c.vl = 0 then [] else [readWhole b.toNat c.g c.sew])
  let s1 ← admission e s reads (ownDest c d) (microOpsOf (ownDest c d).length)
  let x := a.src e s1
  need e 9 (!((s1.actives m).any (fun i => (x i).2)))
  .ok (pickLanes e s1 m b d (fun i =>
    let n := (x i).1 % modulus c.w
    if n < c.vlmax then .source n else .zero) false)

/-- `vrev` (R229). -/
def vrevOp (m : MaskNo) (b d : BitVec 5) (e : VEntry) (s : State) : VRes := do
  let c := s.cfg
  needVtype e c
  need e 1 (groupOk b.toNat c.g && groupOk d.toNat c.g)
  let s1 ← admission e s [readBelow c b.toNat c.g c.sew c.vl] (ownDest c d) (microOpsOf (ownDest c d).length)
  .ok (pickLanes e s1 m b d (fun i => .source (c.vl - 1 - i)) false)

/-- `vcompress` and `vexpand`: mK selects (R225). -/
def compressOp (expand : Bool) (m : MaskNo) (b d : BitVec 5) (e : VEntry) (s : State) : VRes := do
  let c := s.cfg
  needVtype e c
  need e 1 (groupOk b.toNat c.g && groupOk d.toNat c.g)
  let s1 ← admission e s [readBelow c b.toNat c.g c.sew c.vl] (ownDest c d) (microOpsOf (ownDest c d).length)
  let l := s1.actives m
  if expand then
    let before := prefixCounts (fun i => s1.hart.maskBit m i) (List.range c.vl) 0
    .ok (pickLanes e s1 m b d (fun i => .source (before.getD i 0)) false)
  else .ok (pickLanes e s1 0#3 b d (fun k => match l[k]? with | some i => .source i | none => .keep) false)

/-! Packing (R226). -/

/-- The width, offset and sign flag of xS, none where a field is out of range; `vpack` makes no use of the flag (R226). -/
def packGeometry (w : Nat) (x : Word) : Option (Nat × Nat × Bool) :=
  let width := wordField x 0 7
  let off := wordField x 16 7
  let sign := x.getLsbD 32
  let rest := x.toNat - width - off * 2 ^ 16 - (if sign then 2 ^ 32 else 0)
  if 1 ≤ width ∧ width ≤ w ∧ rest = 0 then some (width, off, sign) else none

/-- `vunpack` (R226). -/
def vunpackOp (m : MaskNo) (b d : BitVec 5) (e : VEntry) (s : State) : VRes := do
  let c := s.cfg
  needVtype e c
  match packGeometry c.w (e.op0.getD 0#64) with
  | none => .error (trapWord 1 e)
  | some (width, off, sign) =>
    need e 1 (groupOk b.toNat c.g && groupOk d.toNat c.g)
    let used := if c.vl = 0 then 0 else min c.g (ceilDiv (off + c.vl * width) c.regBits)
    let s1 ← admission e s [⟨b.toNat, c.g, c.sew, used, 0⟩] (ownDest c d) (microOpsOf (ownDest c d).length)
    let image := groupImage s1.hart c.regBits b.toNat c.g c.sew c.grp
    let poison := groupPoison s1.hart c.regBits b.toNat c.g
    .ok (writeGroup s1 d.toNat c.g c.sew ((List.range c.vl).map (fun i =>
      if s1.hart.maskBit m i then
        let lo := off + i * width
        let x := getBits image lo width
        let bad := poison != 0 && getBits poison (lo / 8) ((lo + width - 1) / 8 + 1 - lo / 8) != 0
        some (if sign then ofSigned c.w (toSigned width x) else x, bad)
      else none)))

/-- `vpack` (R226): vd is source and destination; the registers written are those that hold an element below `vl` or a bit of
the fields below `vl` (log 20). -/
def vpackOp (m : MaskNo) (b d : BitVec 5) (e : VEntry) (s : State) : VRes := do
  let c := s.cfg
  needVtype e c
  match packGeometry c.w (e.op0.getD 0#64) with
  | none => .error (trapWord 1 e)
  | some (width, off, _) =>
    need e 1 (groupOk b.toNat c.g && groupOk d.toNat c.g)
    let regs := if c.vl = 0 then 0
      else min c.g (max (regsBelow c.regBits c.w c.vl) (ceilDiv (off + c.vl * width) c.regBits))
    let dest := (List.range regs).map (fun j => d.toNat + j)
    let s1 ← admission e s [readBelow c b.toNat c.g c.sew c.vl, ⟨d.toNat, c.g, c.sew, regs, 0⟩] dest (microOpsOf regs)
    let y := groupSrc s1 b.toNat c.g c.sew
    let (v, k, p) := packElems width ((List.range c.vl).map (fun i =>
      if s1.hart.maskBit m i then some (y i) else none))
    .ok (writeBits s1 d.toNat c.g c.sew regs (v * 2 ^ off) (k * 2 ^ off) (p * 2 ^ off))

/-! Reductions (R227, R228). -/

/-- The reads of a reduction: element 0 of vs1, and the vs2 group. -/
def redReads (c : VCfg) (a b : BitVec 5) : List GroupRead :=
  (if c.vl = 0 then [] else [⟨a.toNat, c.g, c.sew, 1, 0⟩]) ++ [readBelow c b.toNat c.g c.sew c.vl]

/-- A reduction: from vs1[0] and the active elements, each with its index, the new vd[0] and flags (R227). -/
def reduceLanes (e : VEntry) (s : State) (m : MaskNo) (a b d : BitVec 5) (red : Nat → List (Nat × Nat) → Nat × Nat) : VRes := do
  let c := s.cfg
  need e 1 (groupOk b.toNat c.g)
  let dest := if c.vl = 0 then [] else [d.toNat]
  let s1 ← admission e s (redReads c a b) dest (microOpsOf dest.length)
  if c.vl = 0 then .ok s1
  else
    let init := regSrc s1 a.toNat 0
    let y := groupSrc s1 b.toNat c.g c.sew
    let els := (s1.actives m).map (fun i => (i, y i))
    let r := red init.1 (els.map (fun x => (x.1, x.2.1)))
    let bad := init.2 || els.any (fun x => x.2.2)
    .ok (writeElem0 (s1.onHart (fun h => h.orFlags r.2)) d.toNat (r.1, bad))

/-- An integer reduction (R227). -/
def redOp (op : Nat → Nat → Nat → Nat) (m : MaskNo) (a b d : BitVec 5) (e : VEntry) (s : State) : VRes := do
  let c := s.cfg
  needVtype e c
  need e 1 (c.w != 6)
  reduceLanes e s m a b d (fun x l => (l.foldl (fun acc y => op c.w acc y.2) x, 0))

/-- `redsum` (R227). -/
def redsumElem (w x y : Nat) : Nat := (x + y) % 2 ^ w
/-- `redmin` (R227). -/
def redminElem (w x y : Nat) : Nat := if toSigned w x ≤ toSigned w y then x else y
/-- `redmax` (R227). -/
def redmaxElem (w x y : Nat) : Nat := if toSigned w x ≤ toSigned w y then y else x
/-- `redminz` (R227). -/
def redminzElem (_ x y : Nat) : Nat := min x y
/-- `redmaxz` (R227). -/
def redmaxzElem (_ x y : Nat) : Nat := max x y
/-- `redand` (R227). -/
def redandElem (_ x y : Nat) : Nat := x &&& y
/-- `redor` (R227). -/
def redorElem (_ x y : Nat) : Nat := x ||| y
/-- `redxor` (R227). -/
def redxorElem (_ x y : Nat) : Nat := x ^^^ y

/-- A rounded sum of two codes with its flags ORed in. -/
def addStep (f : FFmt) (rm : Rnd) (acc : Nat × Nat) (y : Nat) : Nat × Nat :=
  let r := fAdd f rm (decodeFloat f acc.1) (decodeFloat f y)
  (r.1, acc.2 ||| r.2)

/-- One level of the tree of `fredt`: neighbours added where both are present (R228). -/
def treeLevel (f : FFmt) (rm : Rnd) : List (Option (Nat × Nat)) → List (Option (Nat × Nat))
  | x :: y :: rest =>
    (match x, y with
     | some p, some q => some ((addStep f rm p q.1).1, (addStep f rm p q.1).2 ||| q.2)
     | some p, none => some p
     | none, q => q) :: treeLevel f rm rest
  | [x] => [x]
  | [] => []

/-- The tree of `fredt` down to one value, by at most `n` levels (R228). -/
def treeReduce (f : FFmt) (rm : Rnd) : Nat → List (Option (Nat × Nat)) → Option (Nat × Nat)
  | 0, l => match l with | x :: _ => x | [] => none
  | n + 1, l => match l with | [] => none | [x] => x | l => treeReduce f rm n (treeLevel f rm l)

/-- `fredt` (R228): the leaves lie at the element indices, absent where an element is not active. -/
def fredtElem (f : FFmt) (rm : Rnd) (x : Nat) (l : List (Nat × Nat)) : Nat × Nat :=
  match l.getLast? with
  | none => (x, 0)
  | some top =>
    let leaves := (List.range (top.1 + 1)).map (fun j =>
      match l.find? (fun y => y.1 == j) with | some y => some (y.2, 0) | none => none)
    match treeReduce f rm 32 leaves with
    | some r => ((addStep f rm (x, r.2) r.1).1, (addStep f rm (x, r.2) r.1).2)
    | none => (x, 0)

/-- `fredo` (R228). -/
def fredoElem (f : FFmt) (rm : Rnd) (x : Nat) (l : List (Nat × Nat)) : Nat × Nat :=
  l.foldl (fun acc y => addStep f rm acc y.2) (x, 0)

/-- `fredmax` and `fredmin` (R228). -/
def fredmmElem (max : Bool) (f : FFmt) (_ : Rnd) (x : Nat) (l : List (Nat × Nat)) : Nat × Nat :=
  l.foldl (fun acc y =>
    let r := fMinMax f max acc.1 y.2
    (r.1, acc.2 ||| r.2)) (x, 0)

/-- A floating-point reduction (R228). -/
def fredOp (op : FFmt → Rnd → Nat → List (Nat × Nat) → Nat × Nat) (rounds : Bool) (m : MaskNo) (a b d : BitVec 5) (e : VEntry)
    (s : State) : VRes := do
  let c := s.cfg
  needVtype e c
  let f ← needFloat e c
  let rm ← if rounds then needRound e s else .ok .rne
  reduceLanes e s m a b d (op f rm)

/-! Moves (R229). -/

/-- `mvxs` (R229). -/
def mvxsOp (b d : BitVec 5) (e : VEntry) (s : State) : VRes := do
  let c := s.cfg
  needVtype e c
  need e 1 (groupOk b.toNat c.g)
  needBq e s
  let n := (e.op0.getD 0#64).toNat
  let reads := if n < c.vlmax then [readFrom c b.toNat c.g c.sew n (n + 1)] else []
  let s1 ← admission e s reads [] (microOpsOf ((reads.map (fun r => r.used - r.lo)).foldl (· + ·) 0))
  let x := if n < c.vlmax then groupSrc s1 b.toNat c.g c.sew n else (0, false)
  need e 9 (!x.2)
  .ok (s1.setX d (BitVec.ofInt 64 (toSigned c.w x.1)))

/-- `mvsx` (R229): only the register that holds element 0 is written (log 58). -/
def mvsxOp (d : BitVec 5) (e : VEntry) (s : State) : VRes := do
  let c := s.cfg
  needVtype e c
  need e 1 (groupOk d.toNat c.g)
  let dest := if c.vl = 0 then [] else [d.toNat]
  let s1 ← admission e s [] dest (microOpsOf dest.length)
  if c.vl = 0 then .ok s1 else .ok (writeElem0 s1 d.toNat ((e.op0.getD 0#64).toNat, false))

/-- `vbcast` (R229): U where R190 puts it on the scalar-affine path (R191). -/
def vbcastOp (d : BitVec 5) (e : VEntry) (s : State) : VRes := do
  let c := s.cfg
  needVtype e c
  need e 1 (groupOk d.toNat c.g)
  let x := (e.op0.getD 0#64).toNat
  if c.vl = c.vlmax then .ok (runShape e s c d.toNat (List.replicate c.g (x, 0)))
  else mapLanes e s [] d.toNat c.g c.sew 0#3 (fun _ _ => (x % 2 ^ c.w, 0, false))

/-! The instructions. -/


/-- `mand` (R221). -/
def vMand (b : MaskNo) (a : MaskNo) (d : MaskNo) : VEntry → State → VRes := maskOp (fun x y => x && y) b a d
/-- Dispatch of `mand`. -/
def execMand (b : MaskNo) (a : MaskNo) (d : MaskNo) (s : State) : Res := issue 0 (packWord 0#4 0#3 (0#2 ++ b) (0#2 ++ a) 0#3 (0#2 ++ d) 0x5B#7) noOps (vMand b a d) s

/-- `mor` (R221). -/
def vMor (b : MaskNo) (a : MaskNo) (d : MaskNo) : VEntry → State → VRes := maskOp (fun x y => x || y) b a d
/-- Dispatch of `mor`. -/
def execMor (b : MaskNo) (a : MaskNo) (d : MaskNo) (s : State) : Res := issue 0 (packWord 1#4 0#3 (0#2 ++ b) (0#2 ++ a) 0#3 (0#2 ++ d) 0x5B#7) noOps (vMor b a d) s

/-- `mxor` (R221). -/
def vMxor (b : MaskNo) (a : MaskNo) (d : MaskNo) : VEntry → State → VRes := maskOp (fun x y => x != y) b a d
/-- Dispatch of `mxor`. -/
def execMxor (b : MaskNo) (a : MaskNo) (d : MaskNo) (s : State) : Res := issue 0 (packWord 2#4 0#3 (0#2 ++ b) (0#2 ++ a) 0#3 (0#2 ++ d) 0x5B#7) noOps (vMxor b a d) s

/-- `mandn` (R221). -/
def vMandn (b : MaskNo) (a : MaskNo) (d : MaskNo) : VEntry → State → VRes := maskOp (fun x y => x && !y) b a d
/-- Dispatch of `mandn`. -/
def execMandn (b : MaskNo) (a : MaskNo) (d : MaskNo) (s : State) : Res := issue 0 (packWord 3#4 0#3 (0#2 ++ b) (0#2 ++ a) 0#3 (0#2 ++ d) 0x5B#7) noOps (vMandn b a d) s

/-- `mpop` (R222). -/
def vMpop (m : MaskNo) (b : MaskNo) (d : BitVec 5) : VEntry → State → VRes := countOp popResult m b d
/-- Dispatch of `mpop`. -/
def execMpop (m : MaskNo) (b : MaskNo) (d : BitVec 5) (s : State) : Res := issue 0 (packWord 4#4 m (0#2 ++ b) 0#5 0#3 d 0x5B#7) noOps (vMpop m b d) s

/-- `mfirst` (R222). -/
def vMfirst (m : MaskNo) (b : MaskNo) (d : BitVec 5) : VEntry → State → VRes := countOp firstResult m b d
/-- Dispatch of `mfirst`. -/
def execMfirst (m : MaskNo) (b : MaskNo) (d : BitVec 5) (s : State) : Res := issue 0 (packWord 5#4 m (0#2 ++ b) 0#5 0#3 d 0x5B#7) noOps (vMfirst m b d) s

/-- `iota` (R222). -/
def vIota (m : MaskNo) (b : MaskNo) (d : BitVec 5) : VEntry → State → VRes := iotaOp m b d
/-- Dispatch of `iota`. -/
def execIota (m : MaskNo) (b : MaskNo) (d : BitVec 5) (s : State) : Res := issue 0 (packWord 6#4 m (0#2 ++ b) 0#5 0#3 d 0x5B#7) noOps (vIota m b d) s

/-- `vid` (R222). -/
def vVid (m : MaskNo) (d : BitVec 5) : VEntry → State → VRes := vidOp m d
/-- Dispatch of `vid`. -/
def execVid (m : MaskNo) (d : BitVec 5) (s : State) : Res := issue 0 (packWord 7#4 m 0#5 0#5 0#3 d 0x5B#7) noOps (vVid m d) s

/-- `slideup.vx` (R223). -/
def vSlideupVx (m : MaskNo) (b : BitVec 5) (_a : BitVec 5) (d : BitVec 5) : VEntry → State → VRes := slideOp true m .scalar b d
/-- Dispatch of `slideup.vx`. -/
def execSlideupVx (m : MaskNo) (b : BitVec 5) (a : BitVec 5) (d : BitVec 5) (s : State) : Res := issue 0 (packWord 8#4 m b a 1#3 d 0x5B#7) (opX s a) (vSlideupVx m b a d) s

/-- `slideup.vi` (R223). -/
def vSlideupVi (m : MaskNo) (b : BitVec 5) (a : BitVec 5) (d : BitVec 5) : VEntry → State → VRes := slideOp true m (.imm a.toInt) b d
/-- Dispatch of `slideup.vi`. -/
def execSlideupVi (m : MaskNo) (b : BitVec 5) (a : BitVec 5) (d : BitVec 5) (s : State) : Res := issue 0 (packWord 8#4 m b a 2#3 d 0x5B#7) noOps (vSlideupVi m b a d) s

/-- `slideup.vn` (R223). -/
def vSlideupVn (m : MaskNo) (b : BitVec 5) (_a : BitVec 5) (d : BitVec 5) : VEntry → State → VRes := slideOp true m .named b d
/-- Dispatch of `slideup.vn`. -/
def execSlideupVn (m : MaskNo) (b : BitVec 5) (a : BitVec 5) (d : BitVec 5) (s : State) : Res := issue 0 (packWord 8#4 m b a 4#3 d 0x5B#7) (opX s a) (vSlideupVn m b a d) s

/-- `slidedn.vx` (R223). -/
def vSlidednVx (m : MaskNo) (b : BitVec 5) (_a : BitVec 5) (d : BitVec 5) : VEntry → State → VRes := slideOp false m .scalar b d
/-- Dispatch of `slidedn.vx`. -/
def execSlidednVx (m : MaskNo) (b : BitVec 5) (a : BitVec 5) (d : BitVec 5) (s : State) : Res := issue 0 (packWord 9#4 m b a 1#3 d 0x5B#7) (opX s a) (vSlidednVx m b a d) s

/-- `slidedn.vi` (R223). -/
def vSlidednVi (m : MaskNo) (b : BitVec 5) (a : BitVec 5) (d : BitVec 5) : VEntry → State → VRes := slideOp false m (.imm a.toInt) b d
/-- Dispatch of `slidedn.vi`. -/
def execSlidednVi (m : MaskNo) (b : BitVec 5) (a : BitVec 5) (d : BitVec 5) (s : State) : Res := issue 0 (packWord 9#4 m b a 2#3 d 0x5B#7) noOps (vSlidednVi m b a d) s

/-- `slidedn.vn` (R223). -/
def vSlidednVn (m : MaskNo) (b : BitVec 5) (_a : BitVec 5) (d : BitVec 5) : VEntry → State → VRes := slideOp false m .named b d
/-- Dispatch of `slidedn.vn`. -/
def execSlidednVn (m : MaskNo) (b : BitVec 5) (a : BitVec 5) (d : BitVec 5) (s : State) : Res := issue 0 (packWord 9#4 m b a 4#3 d 0x5B#7) (opX s a) (vSlidednVn m b a d) s

/-- `vgather.vv` (R224). -/
def vVgatherVv (m : MaskNo) (b : BitVec 5) (a : BitVec 5) (d : BitVec 5) : VEntry → State → VRes := gatherOp (fun _ => 2 ^ 64) m (.vec a.toNat) b d
/-- Dispatch of `vgather.vv`. -/
def execVgatherVv (m : MaskNo) (b : BitVec 5) (a : BitVec 5) (d : BitVec 5) (s : State) : Res := issue 0 (packWord 10#4 m b a 0#3 d 0x5B#7) noOps (vVgatherVv m b a d) s

/-- `vgather.vx` (R224). -/
def vVgatherVx (m : MaskNo) (b : BitVec 5) (_a : BitVec 5) (d : BitVec 5) : VEntry → State → VRes := gatherOp (fun _ => 2 ^ 64) m .scalar b d
/-- Dispatch of `vgather.vx`. -/
def execVgatherVx (m : MaskNo) (b : BitVec 5) (a : BitVec 5) (d : BitVec 5) (s : State) : Res := issue 0 (packWord 10#4 m b a 1#3 d 0x5B#7) (opX s a) (vVgatherVx m b a d) s

/-- `vcompress` (R225). -/
def vVcompress (m : MaskNo) (b : BitVec 5) (d : BitVec 5) : VEntry → State → VRes := compressOp false m b d
/-- Dispatch of `vcompress`. -/
def execVcompress (m : MaskNo) (b : BitVec 5) (d : BitVec 5) (s : State) : Res := issue 0 (packWord 11#4 m b 0#5 0#3 d 0x5B#7) noOps (vVcompress m b d) s

/-- `vexpand` (R225). -/
def vVexpand (m : MaskNo) (b : BitVec 5) (d : BitVec 5) : VEntry → State → VRes := compressOp true m b d
/-- Dispatch of `vexpand`. -/
def execVexpand (m : MaskNo) (b : BitVec 5) (d : BitVec 5) (s : State) : Res := issue 0 (packWord 12#4 m b 0#5 0#3 d 0x5B#7) noOps (vVexpand m b d) s

/-- `vlut` (R224). -/
def vVlut (m : MaskNo) (b : BitVec 5) (a : BitVec 5) (d : BitVec 5) : VEntry → State → VRes := gatherOp (fun w => 2 ^ min w 8) m (.vec a.toNat) b d
/-- Dispatch of `vlut`. -/
def execVlut (m : MaskNo) (b : BitVec 5) (a : BitVec 5) (d : BitVec 5) (s : State) : Res := issue 0 (packWord 13#4 m b a 0#3 d 0x5B#7) noOps (vVlut m b a d) s

/-- `vunpack` (R226). -/
def vVunpack (m : MaskNo) (b : BitVec 5) (_a : BitVec 5) (d : BitVec 5) : VEntry → State → VRes := vunpackOp m b d
/-- Dispatch of `vunpack`. -/
def execVunpack (m : MaskNo) (b : BitVec 5) (a : BitVec 5) (d : BitVec 5) (s : State) : Res := issue 0 (packWord 14#4 m b a 1#3 d 0x5B#7) (opX s a) (vVunpack m b a d) s

/-- `vpack` (R226). -/
def vVpack (m : MaskNo) (b : BitVec 5) (_a : BitVec 5) (d : BitVec 5) : VEntry → State → VRes := vpackOp m b d
/-- Dispatch of `vpack`. -/
def execVpack (m : MaskNo) (b : BitVec 5) (a : BitVec 5) (d : BitVec 5) (s : State) : Res := issue 0 (packWord 15#4 m b a 1#3 d 0x5B#7) (opX s a) (vVpack m b a d) s

/-- `redsum` (R227). -/
def vRedsum (m : MaskNo) (b : BitVec 5) (a : BitVec 5) (d : BitVec 5) : VEntry → State → VRes := redOp redsumElem m a b d
/-- Dispatch of `redsum`. -/
def execRedsum (m : MaskNo) (b : BitVec 5) (a : BitVec 5) (d : BitVec 5) (s : State) : Res := issue 0 (packWord 0#4 m b a 6#3 d 0x5B#7) noOps (vRedsum m b a d) s

/-- `redmin` (R227). -/
def vRedmin (m : MaskNo) (b : BitVec 5) (a : BitVec 5) (d : BitVec 5) : VEntry → State → VRes := redOp redminElem m a b d
/-- Dispatch of `redmin`. -/
def execRedmin (m : MaskNo) (b : BitVec 5) (a : BitVec 5) (d : BitVec 5) (s : State) : Res := issue 0 (packWord 1#4 m b a 6#3 d 0x5B#7) noOps (vRedmin m b a d) s

/-- `redmax` (R227). -/
def vRedmax (m : MaskNo) (b : BitVec 5) (a : BitVec 5) (d : BitVec 5) : VEntry → State → VRes := redOp redmaxElem m a b d
/-- Dispatch of `redmax`. -/
def execRedmax (m : MaskNo) (b : BitVec 5) (a : BitVec 5) (d : BitVec 5) (s : State) : Res := issue 0 (packWord 2#4 m b a 6#3 d 0x5B#7) noOps (vRedmax m b a d) s

/-- `redminz` (R227). -/
def vRedminz (m : MaskNo) (b : BitVec 5) (a : BitVec 5) (d : BitVec 5) : VEntry → State → VRes := redOp redminzElem m a b d
/-- Dispatch of `redminz`. -/
def execRedminz (m : MaskNo) (b : BitVec 5) (a : BitVec 5) (d : BitVec 5) (s : State) : Res := issue 0 (packWord 3#4 m b a 6#3 d 0x5B#7) noOps (vRedminz m b a d) s

/-- `redmaxz` (R227). -/
def vRedmaxz (m : MaskNo) (b : BitVec 5) (a : BitVec 5) (d : BitVec 5) : VEntry → State → VRes := redOp redmaxzElem m a b d
/-- Dispatch of `redmaxz`. -/
def execRedmaxz (m : MaskNo) (b : BitVec 5) (a : BitVec 5) (d : BitVec 5) (s : State) : Res := issue 0 (packWord 4#4 m b a 6#3 d 0x5B#7) noOps (vRedmaxz m b a d) s

/-- `redand` (R227). -/
def vRedand (m : MaskNo) (b : BitVec 5) (a : BitVec 5) (d : BitVec 5) : VEntry → State → VRes := redOp redandElem m a b d
/-- Dispatch of `redand`. -/
def execRedand (m : MaskNo) (b : BitVec 5) (a : BitVec 5) (d : BitVec 5) (s : State) : Res := issue 0 (packWord 5#4 m b a 6#3 d 0x5B#7) noOps (vRedand m b a d) s

/-- `redor` (R227). -/
def vRedor (m : MaskNo) (b : BitVec 5) (a : BitVec 5) (d : BitVec 5) : VEntry → State → VRes := redOp redorElem m a b d
/-- Dispatch of `redor`. -/
def execRedor (m : MaskNo) (b : BitVec 5) (a : BitVec 5) (d : BitVec 5) (s : State) : Res := issue 0 (packWord 6#4 m b a 6#3 d 0x5B#7) noOps (vRedor m b a d) s

/-- `redxor` (R227). -/
def vRedxor (m : MaskNo) (b : BitVec 5) (a : BitVec 5) (d : BitVec 5) : VEntry → State → VRes := redOp redxorElem m a b d
/-- Dispatch of `redxor`. -/
def execRedxor (m : MaskNo) (b : BitVec 5) (a : BitVec 5) (d : BitVec 5) (s : State) : Res := issue 0 (packWord 7#4 m b a 6#3 d 0x5B#7) noOps (vRedxor m b a d) s

/-- `fredo` (R228). -/
def vFredo (m : MaskNo) (b : BitVec 5) (a : BitVec 5) (d : BitVec 5) : VEntry → State → VRes := fredOp fredoElem true m a b d
/-- Dispatch of `fredo`. -/
def execFredo (m : MaskNo) (b : BitVec 5) (a : BitVec 5) (d : BitVec 5) (s : State) : Res := issue 0 (packWord 8#4 m b a 6#3 d 0x5B#7) noOps (vFredo m b a d) s

/-- `fredt` (R228). -/
def vFredt (m : MaskNo) (b : BitVec 5) (a : BitVec 5) (d : BitVec 5) : VEntry → State → VRes := fredOp fredtElem true m a b d
/-- Dispatch of `fredt`. -/
def execFredt (m : MaskNo) (b : BitVec 5) (a : BitVec 5) (d : BitVec 5) (s : State) : Res := issue 0 (packWord 9#4 m b a 6#3 d 0x5B#7) noOps (vFredt m b a d) s

/-- `fredmax` (R228). -/
def vFredmax (m : MaskNo) (b : BitVec 5) (a : BitVec 5) (d : BitVec 5) : VEntry → State → VRes := fredOp (fredmmElem true) false m a b d
/-- Dispatch of `fredmax`. -/
def execFredmax (m : MaskNo) (b : BitVec 5) (a : BitVec 5) (d : BitVec 5) (s : State) : Res := issue 0 (packWord 10#4 m b a 6#3 d 0x5B#7) noOps (vFredmax m b a d) s

/-- `fredmin` (R228). -/
def vFredmin (m : MaskNo) (b : BitVec 5) (a : BitVec 5) (d : BitVec 5) : VEntry → State → VRes := fredOp (fredmmElem false) false m a b d
/-- Dispatch of `fredmin`. -/
def execFredmin (m : MaskNo) (b : BitVec 5) (a : BitVec 5) (d : BitVec 5) (s : State) : Res := issue 0 (packWord 11#4 m b a 6#3 d 0x5B#7) noOps (vFredmin m b a d) s

/-- `mvxs` (R229). -/
def vMvxs (b : BitVec 5) (_a : BitVec 5) (d : BitVec 5) : VEntry → State → VRes := mvxsOp b d
/-- Dispatch of `mvxs`. -/
def execMvxs (b : BitVec 5) (a : BitVec 5) (d : BitVec 5) (s : State) : Res := issue 0 (packWord 12#4 0#3 b a 7#3 d 0x5B#7) (opX s a) (vMvxs b a d) s

/-- `mvsx` (R229). -/
def vMvsx (_a : BitVec 5) (d : BitVec 5) : VEntry → State → VRes := mvsxOp d
/-- Dispatch of `mvsx`. -/
def execMvsx (a : BitVec 5) (d : BitVec 5) (s : State) : Res := issue 0 (packWord 13#4 0#3 0#5 a 7#3 d 0x5B#7) (opX s a) (vMvsx a d) s

/-- `vbcast` (R229). -/
def vVbcast (_a : BitVec 5) (d : BitVec 5) : VEntry → State → VRes := vbcastOp d
/-- Dispatch of `vbcast`. -/
def execVbcast (a : BitVec 5) (d : BitVec 5) (s : State) : Res := issue 0 (packWord 14#4 0#3 0#5 a 7#3 d 0x5B#7) (opX s a) (vVbcast a d) s

/-- `vrev` (R229). -/
def vVrev (m : MaskNo) (b : BitVec 5) (d : BitVec 5) : VEntry → State → VRes := vrevOp m b d
/-- Dispatch of `vrev`. -/
def execVrev (m : MaskNo) (b : BitVec 5) (d : BitVec 5) (s : State) : Res := issue 0 (packWord 15#4 m b 0#5 6#3 d 0x5B#7) noOps (vVrev m b d) s

end Sys2Proof.Machine
end

