-- ==== Sys2Proof/Machine/Anchor.lean ====
section
/-! DEFINITION. Anchored fields: descriptors, exact cell values and the VA instructions of `an1.0` (R88 to R107, R230 to R248). -/

namespace Sys2Proof.Machine

/-! Exact values: n * 2^e. -/

/-- An exact dyadic number. -/
structure Dy where
  n : Int
  e : Int
deriving DecidableEq, Repr

/-- Sum. -/
def Dy.add (a b : Dy) : Dy :=
  let e := if a.e ≤ b.e then a.e else b.e
  ⟨a.n * (2 ^ (a.e - e).toNat : Nat) + b.n * (2 ^ (b.e - e).toNat : Nat), e⟩

/-- Negation. -/
def Dy.neg (a : Dy) : Dy := ⟨-a.n, a.e⟩

/-- Difference. -/
def Dy.sub (a b : Dy) : Dy := a.add b.neg

/-- Product. -/
def Dy.mul (a b : Dy) : Dy := ⟨a.n * b.n, a.e + b.e⟩

/-- `n * 2^e` as an integer. -/
def Dy.ofInt (n : Int) (e : Int) : Dy := ⟨n, e⟩

/-- RNE of x / 2^q to an integer, and whether it is inexact (R98). -/
def Dy.quantum (x : Dy) (q : Int) : Int × Bool :=
  let s := x.e - q
  if 0 ≤ s then (x.n * (2 ^ s.toNat : Nat), false)
  else (rneDiv x.n (2 ^ (-s).toNat), x.n % (2 ^ (-s).toNat : Nat) != 0)

/-- RNE into a format: code, flags, and whether it overflowed; zero is +0 (R91, R98). -/
def Dy.toFloat (f : FFmt) (x : Dy) : Nat × Nat × Bool := roundFinite f .rne .ieee (x.n < 0) x.n.natAbs x.e false

/-- The exact value of a finite code, none for an infinity or a NaN. -/
def finiteOf (f : FFmt) (code : Nat) : Option Dy :=
  match decodeFloat f code with
  | .fin neg m e => some ⟨if neg then -(m : Int) else m, e⟩
  | _ => none

/-! Descriptors (R88, R89). -/

/-- The anchor's code. -/
def descAnchor (x : BitVec 128) : Nat := getBits x.toNat 0 64
/-- The quantum exponent. -/
def descQexp (x : BitVec 128) : Int := toSigned 8 (getBits x.toNat 64 8)
/-- The geometry byte. -/
def descGeom (x : BitVec 128) : Nat := getBits x.toNat 72 8
/-- The version. -/
def descVersion (x : BitVec 128) : Nat := getBits x.toNat 80 16

/-- A descriptor from its fields, reserved bytes 0. -/
def makeDesc (anchor : Nat) (qexp : Int) (geom version : Nat) : BitVec 128 :=
  BitVec.ofNat 128 (anchor % 2 ^ 64 + 2 ^ 64 * (ofSigned 8 qexp + 2 ^ 8 * (geom % 2 ^ 8 + 2 ^ 8 * (version % 2 ^ 16))))

/-- The block-size code of B (R89). -/
def blockCode (b : Nat) : Nat := if b = 4 then 1 else if b = 8 then 2 else if b = 16 then 3 else if b = 24 then 4 else 5

/-- The width code of a deviation width (R89). -/
def widthCode (w : Nat) : Nat := if w = 4 then 0 else if w = 8 then 1 else if w = 16 then 2 else 3

/-- The geometry byte of a block size and a deviation width (R89). -/
def geomByte (b w : Nat) : Nat := widthCode w * 8 + blockCode b

/-- The canonical NaN anchor of an invalid block (R92). -/
def nanAnchor : Nat := 0x7FF8000000000000

/-- One block as an instruction reads it: its anchor's exact value (none: invalid, R92) and its quantum exponent. -/
structure Block where
  anchor : Option Dy
  code : Nat
  qexp : Int
deriving DecidableEq, Repr

/-- The octet of a deviation register (R94). -/
def octetOf (n : Nat) : Nat := n / 8

/-- Descriptor `k` of an anchor register. -/
def Hart.desc (h : Hart) (o k : Nat) : BitVec 128 := ((h.w[o]?).bind (fun v => v[k]?)).getD 0#128

/-- Block `k` of an octet. -/
def Hart.block (h : Hart) (o k : Nat) : Block :=
  let x := h.desc o k
  ⟨finiteOf .fp64 (descAnchor x), descAnchor x, descQexp x⟩

/-- Descriptor `k` of an anchor register replaced. -/
def Hart.setDesc (h : Hart) (o k : Nat) (x : BitVec 128) : Hart :=
  match h.w[o]? with
  | some v => { h with w := h.w.setIfInBounds o (v.setIfInBounds k x) }
  | none => h

/-- A descriptor that an instruction of R233 writes: geometry, and the version plus 2. -/
def Hart.writeDesc (h : Hart) (o k : Nat) (anchor : Nat) (qexp : Int) (geom : Nat) : Hart :=
  h.setDesc o k (makeDesc anchor qexp geom (descVersion (h.desc o k) + 2))

/-- Blocks of the current grant (R96). -/
def VCfg.blocks (c : VCfg) : Nat := if c.block = 0 then 0 else min 128 (c.vl / c.block)

/-- Cells of the current grant (R96). -/
def VCfg.cells (c : VCfg) : Nat := c.blocks * c.block

/-! Results by block (R98). -/

/-- The result of one block: its deviations with their poison, the descriptor it writes (anchor and qexp), its flags, and
whether it cannot be represented. -/
structure BlockOut where
  devs : List (Int × Bool)
  desc : Option (Nat × Int)
  flags : Nat
  bad : Bool
deriving DecidableEq, Repr

/-- A deviation's range at a width (R98). -/
def devFits (w : Nat) (d : Int) : Bool := decide (-(2 ^ (w - 1) : Nat) ≤ d) && decide (d ≤ (2 ^ (w - 1) : Nat) - 1)

/-- A result qexp's range (R98). -/
def qexpFits (q : Int) : Bool := decide (-128 ≤ q) && decide (q ≤ 127)

/-- A block that cannot be represented. -/
def badBlock : BlockOut := ⟨[], none, 0, true⟩

/-- An invalid result block (R92, R233): anchor NaN, deviations 0, NV. -/
def invalidBlock (poison : List Bool) (qexp : Int) : BlockOut :=
  if qexpFits qexp then ⟨poison.map (fun p => (0, p)), some (nanAnchor, qexp), flagNV, false⟩ else badBlock

/-- A block from its rounded deviations: NX where one was inexact, and the range checks (R98). The stored bits of a poisoned deviation count in
them as any value does: R205 and R236 do not say (DESIGN CHOICE, log 36). -/
def blockFrom (w : Nat) (cells : List ((Int × Bool) × Bool)) (desc : Option (Nat × Int)) : BlockOut :=
  { devs := cells.map (fun c => (c.1.1, c.2)), desc := desc, flags := if cells.any (fun c => c.1.2) then flagNX else 0,
    bad := cells.any (fun c => !devFits w c.1.1) || (match desc with | some d => !qexpFits d.2 | none => false) }

/-- Block masks of `vobm0` and `vobm1` (R98). -/
def blockMask (outs : List BlockOut) : Nat := (outs.zipIdx).foldl (fun acc x => if x.1.bad then acc + 2 ^ x.2 else acc) 0

/-- The end of an anchored arithmetic instruction: the deviation-overflow trap (R98, R236), or the deviations to the group at
vd, the descriptors to its octet (R233) and the flags (R238). -/
def finishBlocks (e : VEntry) (s : State) (d : BitVec 5) (dg dw : Nat) (outs : List BlockOut) : VRes :=
  let c := s.cfg
  if outs.any (fun o => o.bad) then
    let k := blockMask outs
    .error (.trap 7 (wordVal e.word) (.overflow (BitVec.ofNat 64 k) (BitVec.ofNat 64 (k / 2 ^ 64))))
  else
    let fl := outs.foldl (fun acc o => acc ||| o.flags) 0
    let elems := outs.flatMap (fun o => o.devs.map (fun x => some (ofSigned dw x.1, x.2)))
    let geom := geomByte c.block dw
    let s1 := s.onHart (fun h =>
      (outs.zipIdx).foldl (fun acc x =>
        match x.1.desc with
        | some (a, q) => acc.writeDesc (octetOf d.toNat) x.2 a q geom
        | none => acc) (h.orFlags fl))
    .ok (writeGroup s1 d.toNat dg (sewOfBits dw) elems)

/-- The cells of block `k` as signed deviations with their poison. -/
def cellsOf (c : VCfg) (src : Src) (k : Nat) : List (Int × Bool) :=
  (List.range c.block).map (fun j =>
    let x := src (k * c.block + j)
    (toSigned c.w x.1, x.2))

/-- The deviations of a group, by element. -/
def devSrc (s : State) (n : Nat) : Src := groupSrc s n s.cfg.g s.cfg.sew

/-- The admission checks that anchored instructions share (R235): a block size, and aligned groups. -/
def needBlocks (e : VEntry) (c : VCfg) (ok : Bool) : Except Stop Unit := do
  needVtype e c
  need e 1 (c.block != 0 && ok)

/-- The read of the cells of a group. -/
def readCells (c : VCfg) (n : Nat) : GroupRead := readBelow c n c.g c.sew c.cells

/-- Destination registers of a deviation group. -/
def cellDest (c : VCfg) (n g w : Nat) : List Nat := destRegs c n g w c.cells

/-- The poison of some cells. -/
def poisonOf (l : List (Int × Bool)) : List Bool := l.map (fun x => x.2)

/-- An anchored operation on one block of vs2 (and of another source) with the block of the destination octet (R98). -/
def blockOp (reads : List Nat) (ok : Bool) (d : BitVec 5) (e : VEntry) (s : State) (f : State → Nat → BlockOut) : VRes := do
  let c := s.cfg
  needBlocks e c (ok && groupOk d.toNat c.g && reads.all (fun n => groupOk n c.g))
  let dest := cellDest c d.toNat c.g c.w
  let s1 ← admission e s (reads.map (readCells c)) dest (microOpsOf dest.length)
  let g := f s1
  finishBlocks e s1 d c.g c.w ((List.range c.blocks).map g)

/-! Adding and subtracting (R239). -/

/-- `aadd.vi` and `asub.vi`: n in quantum units. -/
def aaddImm (sub : Bool) (n : Int) (b d : BitVec 5) (e : VEntry) (s : State) : VRes :=
  blockOp [b.toNat] (octetOf b.toNat == octetOf d.toNat) d e s (fun s1 =>
    let c := s1.cfg
    let y := devSrc s1 b.toNat
    fun k =>
      let l := cellsOf c y k
      let blk := s1.hart.block (octetOf d.toNat) k
      match blk.anchor with
      | none => invalidBlock (poisonOf l) blk.qexp
      | some _ => blockFrom c.w (l.map (fun x => ((if sub then x.1 - n else x.1 + n, false), x.2))) none)

/-- `aadd.vx` and `asub.vx`: an FP64 scalar. -/
def aaddScalar (sub : Bool) (b d : BitVec 5) (e : VEntry) (s : State) : VRes :=
  match finiteOf .fp64 (e.op0.getD 0#64).toNat with
  | none => do
    needVtype e s.cfg
    .error (trapWord 1 e)
  | some x =>
    let x' := if sub then x.neg else x
    blockOp [b.toNat] (octetOf b.toNat == octetOf d.toNat) d e s (fun s1 =>
      let c := s1.cfg
      let y := devSrc s1 b.toNat
      fun k =>
        let l := cellsOf c y k
        let blk := s1.hart.block (octetOf d.toNat) k
        match blk.anchor with
        | none => invalidBlock (poisonOf l) blk.qexp
        | some _ => blockFrom c.w (l.map (fun p => (((Dy.ofInt p.1 blk.qexp).add x').quantum blk.qexp, p.2))) none)

/-- `aadd.vv` and `asub.vv`: the exact values of both fields less the destination's anchor. -/
def aaddField (sub : Bool) (a b d : BitVec 5) (e : VEntry) (s : State) : VRes :=
  blockOp [a.toNat, b.toNat] true d e s (fun s1 =>
    let c := s1.cfg
    let x := devSrc s1 a.toNat
    let y := devSrc s1 b.toNat
    fun k =>
      let la := cellsOf c x k
      let lb := cellsOf c y k
      let ba := s1.hart.block (octetOf a.toNat) k
      let bb := s1.hart.block (octetOf b.toNat) k
      let bd := s1.hart.block (octetOf d.toNat) k
      match ba.anchor, bb.anchor, bd.anchor with
      | some va, some vb, some vd =>
        blockFrom c.w ((List.zip la lb).map (fun p =>
          let u := va.add (Dy.ofInt p.1.1 ba.qexp)
          let v := vb.add (Dy.ofInt p.2.1 bb.qexp)
          (((if sub then v.sub u else v.add u).sub vd).quantum bd.qexp, p.1.2 || p.2.2))) none
      | _, _, _ => invalidBlock ((List.zip la lb).map (fun p => p.1.2 || p.2.2)) bd.qexp)

/-! Differences (R100, R240). -/

/-- Block `k` of `adiff` with shift `s`: `n` cells in all. -/
def adiffBlock (h : Hart) (c : VCfg) (o : Nat) (y : Src) (shift n k : Nat) : BlockOut :=
  let blk := h.block o k
  let dev (i : Nat) : Int := toSigned c.w (y i).1
  let idx := (List.range c.block).map (fun j => k * c.block + j)
  let edge (i : Nat) : Bool := decide (i < shift) || decide (n ≤ i + shift)
  let dead (i : Nat) : Bool :=
    !edge i && (i + shift) / c.block != (i - shift) / c.block &&
    ((h.block o ((i + shift) / c.block)).anchor.isNone || (h.block o ((i - shift) / c.block)).anchor.isNone)
  let bad (i : Nat) : Bool := !edge i && ((y (i + shift)).2 || (y (i - shift)).2)
  if blk.anchor.isNone || idx.any dead then invalidBlock (idx.map bad) blk.qexp
  else
    let cell (i : Nat) : Int × Bool :=
      if edge i then (0, false)
      else if (i + shift) / c.block = (i - shift) / c.block then (dev (i + shift) - dev (i - shift), false)
      else
        let val (j : Nat) : Dy :=
          let bj := h.block o (j / c.block)
          ((bj.anchor).getD ⟨0, 0⟩).add (Dy.ofInt (dev j) bj.qexp)
        ((val (i + shift)).sub (val (i - shift))).quantum blk.qexp
    blockFrom (2 * c.w) (idx.map (fun i => (cell i, bad i))) (some (0, blk.qexp))

/-- `adiff` (R240). -/
def adiffOp (shift : VEntry → Nat) (b d : BitVec 5) (e : VEntry) (s : State) : VRes := do
  let c := s.cfg
  needBlocks e c (decide (c.w ≤ 16) && groupOk b.toNat c.g && groupOk d.toNat (2 * c.g))
  let dest := cellDest c d.toNat (2 * c.g) (2 * c.w)
  let s1 ← admission e s [readCells c b.toNat] dest (microOpsOf dest.length)
  let y := devSrc s1 b.toNat
  finishBlocks e s1 d (2 * c.g) (2 * c.w)
    ((List.range c.blocks).map (adiffBlock s1.hart c (octetOf b.toNat) y (shift e) c.cells))

/-! Products and scaling (R101, R241, R242). -/

/-- RNE64 of an exact value as an anchor, none where it would be infinite (R98). -/
def anchorOf (x : Dy) : Option (Nat × Dy) :=
  let r := x.toFloat .fp64
  if r.2.2 then none else (finiteOf .fp64 r.1).map (fun v => (r.1, v))

/-- `amul` with the result's quantum exponent (R241). -/
def amulOp (qexp : VEntry → Int) (b d : BitVec 5) (e : VEntry) (s : State) : VRes :=
  blockOp [d.toNat, b.toNat] true d e s (fun s1 =>
    let c := s1.cfg
    let x := devSrc s1 d.toNat
    let y := devSrc s1 b.toNat
    let q := qexp e
    fun k =>
      let la := cellsOf c x k
      let lb := cellsOf c y k
      let ba := s1.hart.block (octetOf d.toNat) k
      let bb := s1.hart.block (octetOf b.toNat) k
      match ba.anchor, bb.anchor with
      | some va, some vb =>
        match anchorOf (va.mul vb) with
        | none => badBlock
        | some (code, r) =>
          let residue := (va.mul vb).sub r
          blockFrom c.w ((List.zip la lb).map (fun p =>
            let da := Dy.ofInt p.1.1 ba.qexp
            let db := Dy.ofInt p.2.1 bb.qexp
            let t := ((residue.add (va.mul db)).add (vb.mul da)).add (da.mul db)
            (t.quantum q, p.1.2 || p.2.2))) (some (code, q))
      | _, _ => invalidBlock ((List.zip la lb).map (fun p => p.1.2 || p.2.2)) q)

/-- `ascale.vi`: the anchor and the quantum scaled by a power of two, exactly (R242). -/
def ascaleImm (k2 : Int) (b d : BitVec 5) (e : VEntry) (s : State) : VRes :=
  blockOp [b.toNat] (octetOf b.toNat == octetOf d.toNat) d e s (fun s1 =>
    let c := s1.cfg
    let y := devSrc s1 b.toNat
    fun k =>
      let l := cellsOf c y k
      let blk := s1.hart.block (octetOf b.toNat) k
      match blk.anchor with
      | none => invalidBlock (poisonOf l) (blk.qexp + k2)
      | some v =>
        let r := (v.mul ⟨1, k2⟩).toFloat .fp64
        if r.2.1 ≠ 0 then badBlock
        else blockFrom c.w (l.map (fun x => ((x.1, false), x.2))) (some (r.1, blk.qexp + k2)))

/-- `ascale.vx`: the field scaled by an FP64 scalar (R242). -/
def ascaleScalar (b d : BitVec 5) (e : VEntry) (s : State) : VRes :=
  match finiteOf .fp64 (e.op0.getD 0#64).toNat with
  | none => do
    needVtype e s.cfg
    .error (trapWord 1 e)
  | some x =>
    blockOp [b.toNat] (octetOf b.toNat == octetOf d.toNat) d e s (fun s1 =>
      let c := s1.cfg
      let y := devSrc s1 b.toNat
      fun k =>
        let l := cellsOf c y k
        let blk := s1.hart.block (octetOf b.toNat) k
        match blk.anchor with
        | none => invalidBlock (poisonOf l) blk.qexp
        | some v =>
          match anchorOf (v.mul x) with
          | none => badBlock
          | some (code, r) =>
            let base := (v.mul x).sub r
            blockFrom c.w (l.map (fun p => ((base.add ((Dy.ofInt p.1 blk.qexp).mul x)).quantum blk.qexp, p.2)))
              (some (code, blk.qexp)))

/-! Re-anchoring (R102, R243). -/

/-- The shift of a block in a mode (R102). -/
def anchorShift (mode : Nat) (ds : List Int) : Int :=
  match mode with
  | 0 =>
    let lo := ds.foldl (fun a x => if x < a then x else a) (ds.headD 0)
    let hi := ds.foldl (fun a x => if a < x then x else a) (ds.headD 0)
    rneDiv (lo + hi) 2
  | 1 => ds.headD 0
  | _ => rneDiv (ds.foldl (· + ·) 0) ds.length

/-- `areanchor` with a mode and a quantum change (R243). -/
def areanchorOp (mode : VEntry → Nat) (change : VEntry → Int) (b d : BitVec 5) (e : VEntry) (s : State) : VRes := do
  let c := s.cfg
  needBlocks e c (mode e != 3 && octetOf b.toNat == octetOf d.toNat && groupOk b.toNat c.g && groupOk d.toNat c.g)
  let dest := cellDest c d.toNat c.g c.w
  let s1 ← admission e s [readCells c b.toNat] dest (microOpsOf dest.length)
  let y := devSrc s1 b.toNat
  need e 9 (!((List.range c.cells).any (fun i => (y i).2)))
  finishBlocks e s1 d c.g c.w ((List.range c.blocks).map (fun k =>
    let l := cellsOf c y k
    let blk := s1.hart.block (octetOf b.toNat) k
    let q := blk.qexp + change e
    match blk.anchor with
    | none => invalidBlock (poisonOf l) q
    | some v =>
      match anchorOf (v.add (Dy.ofInt (anchorShift (mode e) (l.map (fun x => x.1))) blk.qexp)) with
      | none => badBlock
      | some (code, r) =>
        blockFrom c.w (l.map (fun p => (((v.add (Dy.ofInt p.1 blk.qexp)).sub r).quantum q, p.2))) (some (code, q))))

/-! Conversions (R244, R245). -/

/-- The format of a float code. -/
def anchorFormat : AnchorFloat → FFmt
  | .fp16 => .fp16 | .bf16 => .bf16 | .fp32 => .fp32 | .fp64 => .fp64

/-- Registers of a float group beside a deviation group (R244). -/
def floatGroup (c : VCfg) (f : FFmt) : Nat := pow2AtLeast 7 (ceilDiv (c.g * fmtBitsOf f) c.w)

/-- `aconv` (R244). -/
def aconvOp (b : BitVec 5) (code : AnchorFloat) (d : BitVec 5) (e : VEntry) (s : State) : VRes := do
  let c := s.cfg
  let f := anchorFormat code
  needBlocks e c (groupOk b.toNat c.g && groupOk d.toNat (floatGroup c f))
  let fw := fmtBitsOf f
  let dest := cellDest c d.toNat (floatGroup c f) fw
  let s1 ← admission e s [readCells c b.toNat] dest (microOpsOf dest.length)
  let y := devSrc s1 b.toNat
  need e 9 (!((List.range c.cells).any (fun i => (y i).2)))
  let outs := (List.range c.cells).map (fun i =>
    let blk := s1.hart.block (octetOf b.toNat) (i / c.block)
    match blk.anchor with
    | none => (canonicalNan f, flagNV)
    | some v =>
      let r := (v.add (Dy.ofInt (toSigned c.w (y i).1) blk.qexp)).toFloat f
      (r.1, r.2.1))
  let fl := outs.foldl (fun acc o => acc ||| o.2) 0
  .ok (writeGroup (s1.onHart (fun h => h.orFlags fl)) d.toNat (floatGroup c f) (sewOfBits fw)
    (outs.map (fun o => some (o.1, false))))

/-- `afrom` (R245). -/
def afromOp (b : BitVec 5) (code : AnchorFloat) (d : BitVec 5) (e : VEntry) (s : State) : VRes := do
  let c := s.cfg
  let f := anchorFormat code
  let fg := floatGroup c f
  let fsew := sewOfBits (fmtBitsOf f)
  needBlocks e c (groupOk d.toNat c.g && groupOk b.toNat fg)
  let dest := cellDest c d.toNat c.g c.w
  let s1 ← admission e s [readBelow c b.toNat fg fsew c.cells] dest (microOpsOf dest.length)
  let y := groupSrc s1 b.toNat fg fsew
  need e 9 (!((List.range c.cells).any (fun i => (y i).2)))
  finishBlocks e s1 d c.g c.w ((List.range c.blocks).map (fun k =>
    let idx := (List.range c.block).map (fun j => k * c.block + j)
    let blk := s1.hart.block (octetOf d.toNat) k
    match blk.anchor with
    | none => invalidBlock (idx.map (fun _ => false)) blk.qexp
    | some v =>
      let o := blockFrom c.w (idx.map (fun i =>
        match finiteOf f (y i).1 with
        | some x => ((x.sub v).quantum blk.qexp, false)
        | none => ((0, false), false))) none
      if idx.any (fun i => (finiteOf f (y i).1).isNone) then { o with flags := o.flags ||| flagNV } else o))

/-! Sums, anchors in and out, comparison (R246 to R248). -/

/-- `ared` (R106, R246). -/
def aredOp (b d : BitVec 5) (e : VEntry) (s : State) : VRes := do
  let c := s.cfg
  needBlocks e c (groupOk b.toNat c.g)
  needBq e s
  let s1 ← admission e s [readCells c b.toNat] [] (microOpsOf (readCells c b.toNat).used)
  let y := devSrc s1 b.toNat
  need e 9 (!((List.range c.cells).any (fun i => (y i).2)))
  let sum : Int := (List.range c.cells).foldl (fun acc i => acc + toSigned c.w (y i).1) 0
  let fits := decide (-(2 ^ 63 : Nat) ≤ sum) && decide (sum ≤ (2 ^ 63 : Nat) - 1)
  .ok ((s1.onHart (fun h => h.orFlags (if fits then 0 else flagOF))).setX d (BitVec.ofInt 64 sum))

/-- `aget` (R247). -/
def agetOp (b d : BitVec 5) (e : VEntry) (s : State) : VRes := do
  let c := s.cfg
  needBlocks e c (groupOk d.toNat 4)
  let dest := destRegs c d.toNat 4 64 c.blocks
  let s1 ← admission e s [] dest (microOpsOf dest.length)
  .ok (writeGroup s1 d.toNat 4 5
    ((List.range c.blocks).map (fun k => some ((s1.hart.block (octetOf b.toNat) k).code, false))))

/-- `aput` and `aqset`: a field of the destination's descriptors from vector elements (R247). -/
def aputOp (qexp : Bool) (b d : BitVec 5) (e : VEntry) (s : State) : VRes := do
  let c := s.cfg
  let g := if qexp then 1 else 4
  let sew := if qexp then 2 else 5
  needBlocks e c (groupOk b.toNat g)
  let r := readBelow c b.toNat g sew c.blocks
  let s1 ← admission e s [r] [] (microOpsOf r.used)
  let y := groupSrc s1 b.toNat g sew
  need e 9 (!((List.range c.blocks).any (fun k => (y k).2)))
  let o := octetOf d.toNat
  .ok (s1.onHart (fun h => (List.range c.blocks).foldl (fun acc k =>
    let blk := h.block o k
    if qexp then acc.writeDesc o k blk.code (toSigned 8 (y k).1) (geomByte c.block c.w)
    else acc.writeDesc o k (y k).1 blk.qexp (geomByte c.block c.w)) h))

/-- The truth of a comparison of exact values (R248). -/
def acmpElem (cc : Cond) (b a : Dy) : Bool :=
  let d := (b.sub a).n
  match cc with
  | .eq => d == 0
  | .ne => d != 0
  | .lt => decide (d < 0)
  | .le => decide (d ≤ 0)

/-- `acmp` (R248). -/
def acmpOp (cc : Cond) (a b : BitVec 5) (md : MaskNo) (e : VEntry) (s : State) : VRes := do
  let c := s.cfg
  needBlocks e c (groupOk a.toNat c.g && groupOk b.toNat c.g)
  let ra := readCells c a.toNat
  let rb := readCells c b.toNat
  let s1 ← admission e s [ra, rb] [] (microOpsOf (ra.used + rb.used))
  let x := devSrc s1 a.toNat
  let y := devSrc s1 b.toNat
  need e 9 (!((List.range c.cells).any (fun i => (x i).2 || (y i).2)))
  let outs := (List.range c.cells).map (fun i =>
    let ba := s1.hart.block (octetOf a.toNat) (i / c.block)
    let bb := s1.hart.block (octetOf b.toNat) (i / c.block)
    match ba.anchor, bb.anchor with
    | some va, some vb =>
      (i, acmpElem cc (vb.add (Dy.ofInt (toSigned c.w (y i).1) bb.qexp)) (va.add (Dy.ofInt (toSigned c.w (x i).1) ba.qexp)), 0)
    | _, _ => (i, cc == Cond.ne, flagNV))
  let fl := outs.foldl (fun acc o => acc ||| o.2.2) 0
  .ok (s1.onHart (fun h => (h.orFlags fl).writeMask md (outs.map (fun o => (o.1, o.2.1)))))

/-! The instructions. -/


/-- `aadd.vv` (R239). -/
def vAaddVv (b : BitVec 5) (a : BitVec 5) (d : BitVec 5) : VEntry → State → VRes := aaddField false a b d
/-- Dispatch of `aadd.vv`. -/
def execAaddVv (b : BitVec 5) (a : BitVec 5) (d : BitVec 5) (s : State) : Res := issue 2 (packWord 0#4 0#3 b a 0#3 d 0x7B#7) noOps (vAaddVv b a d) s

/-- `aadd.vx` (R239). -/
def vAaddVx (b : BitVec 5) (_a : BitVec 5) (d : BitVec 5) : VEntry → State → VRes := aaddScalar false b d
/-- Dispatch of `aadd.vx`. -/
def execAaddVx (b : BitVec 5) (a : BitVec 5) (d : BitVec 5) (s : State) : Res := issue 2 (packWord 0#4 0#3 b a 1#3 d 0x7B#7) (opF s a) (vAaddVx b a d) s

/-- `aadd.vi` (R239). -/
def vAaddVi (b : BitVec 5) (a : BitVec 5) (d : BitVec 5) : VEntry → State → VRes := aaddImm false a.toInt b d
/-- Dispatch of `aadd.vi`. -/
def execAaddVi (b : BitVec 5) (a : BitVec 5) (d : BitVec 5) (s : State) : Res := issue 2 (packWord 0#4 0#3 b a 2#3 d 0x7B#7) noOps (vAaddVi b a d) s

/-- `asub.vv` (R239). -/
def vAsubVv (b : BitVec 5) (a : BitVec 5) (d : BitVec 5) : VEntry → State → VRes := aaddField true a b d
/-- Dispatch of `asub.vv`. -/
def execAsubVv (b : BitVec 5) (a : BitVec 5) (d : BitVec 5) (s : State) : Res := issue 2 (packWord 1#4 0#3 b a 0#3 d 0x7B#7) noOps (vAsubVv b a d) s

/-- `asub.vx` (R239). -/
def vAsubVx (b : BitVec 5) (_a : BitVec 5) (d : BitVec 5) : VEntry → State → VRes := aaddScalar true b d
/-- Dispatch of `asub.vx`. -/
def execAsubVx (b : BitVec 5) (a : BitVec 5) (d : BitVec 5) (s : State) : Res := issue 2 (packWord 1#4 0#3 b a 1#3 d 0x7B#7) (opF s a) (vAsubVx b a d) s

/-- `asub.vi` (R239). -/
def vAsubVi (b : BitVec 5) (a : BitVec 5) (d : BitVec 5) : VEntry → State → VRes := aaddImm true a.toInt b d
/-- Dispatch of `asub.vi`. -/
def execAsubVi (b : BitVec 5) (a : BitVec 5) (d : BitVec 5) (s : State) : Res := issue 2 (packWord 1#4 0#3 b a 2#3 d 0x7B#7) noOps (vAsubVi b a d) s

/-- `adiff.vx` (R240). -/
def vAdiffVx (b : BitVec 5) (_a : BitVec 5) (d : BitVec 5) : VEntry → State → VRes := adiffOp (fun e => (e.op0.getD 0#64).toNat) b d
/-- Dispatch of `adiff.vx`. -/
def execAdiffVx (b : BitVec 5) (a : BitVec 5) (d : BitVec 5) (s : State) : Res := issue 2 (packWord 2#4 0#3 b a 1#3 d 0x7B#7) (opX s a) (vAdiffVx b a d) s

/-- `adiff.vi` (R240). -/
def vAdiffVi (b : BitVec 5) (a : BitVec 5) (d : BitVec 5) : VEntry → State → VRes := adiffOp (fun _ => a.toNat) b d
/-- Dispatch of `adiff.vi`. -/
def execAdiffVi (b : BitVec 5) (a : BitVec 5) (d : BitVec 5) (s : State) : Res := issue 2 (packWord 2#4 0#3 b a 2#3 d 0x7B#7) noOps (vAdiffVi b a d) s

/-- `amul.vx` (R241). -/
def vAmulVx (b : BitVec 5) (_a : BitVec 5) (d : BitVec 5) : VEntry → State → VRes := amulOp (fun e => toSigned 8 (wordField (e.op0.getD 0#64) 0 8)) b d
/-- Dispatch of `amul.vx`. -/
def execAmulVx (b : BitVec 5) (a : BitVec 5) (d : BitVec 5) (s : State) : Res := issue 2 (packWord 3#4 0#3 b a 1#3 d 0x7B#7) (opX s a) (vAmulVx b a d) s

/-- `amul.vi` (R241). -/
def vAmulVi (b : BitVec 5) (a : BitVec 5) (d : BitVec 5) : VEntry → State → VRes := amulOp (fun _ => a.toInt) b d
/-- Dispatch of `amul.vi`. -/
def execAmulVi (b : BitVec 5) (a : BitVec 5) (d : BitVec 5) (s : State) : Res := issue 2 (packWord 3#4 0#3 b a 2#3 d 0x7B#7) noOps (vAmulVi b a d) s

/-- `ascale.vx` (R242). -/
def vAscaleVx (b : BitVec 5) (_a : BitVec 5) (d : BitVec 5) : VEntry → State → VRes := ascaleScalar b d
/-- Dispatch of `ascale.vx`. -/
def execAscaleVx (b : BitVec 5) (a : BitVec 5) (d : BitVec 5) (s : State) : Res := issue 2 (packWord 4#4 0#3 b a 1#3 d 0x7B#7) (opF s a) (vAscaleVx b a d) s

/-- `ascale.vi` (R242). -/
def vAscaleVi (b : BitVec 5) (a : BitVec 5) (d : BitVec 5) : VEntry → State → VRes := ascaleImm a.toInt b d
/-- Dispatch of `ascale.vi`. -/
def execAscaleVi (b : BitVec 5) (a : BitVec 5) (d : BitVec 5) (s : State) : Res := issue 2 (packWord 4#4 0#3 b a 2#3 d 0x7B#7) noOps (vAscaleVi b a d) s

/-- `aconv` (R244). -/
def vAconv (b : BitVec 5) (c : AnchorFloat) (d : BitVec 5) : VEntry → State → VRes := aconvOp b c d
/-- Dispatch of `aconv`. -/
def execAconv (b : BitVec 5) (c : AnchorFloat) (d : BitVec 5) (s : State) : Res := issue 2 (packWord 5#4 0#3 b c.bits 0#3 d 0x7B#7) noOps (vAconv b c d) s

/-- `afrom` (R245). -/
def vAfrom (b : BitVec 5) (c : AnchorFloat) (d : BitVec 5) : VEntry → State → VRes := afromOp b c d
/-- Dispatch of `afrom`. -/
def execAfrom (b : BitVec 5) (c : AnchorFloat) (d : BitVec 5) (s : State) : Res := issue 2 (packWord 6#4 0#3 b c.bits 0#3 d 0x7B#7) noOps (vAfrom b c d) s

/-- `areanchor.vx` (R243). -/
def vAreanchorVx (b : BitVec 5) (_a : BitVec 5) (d : BitVec 5) : VEntry → State → VRes := areanchorOp (fun e => wordField (e.op0.getD 0#64) 8 2) (fun e => toSigned 8 (wordField (e.op0.getD 0#64) 0 8)) b d
/-- Dispatch of `areanchor.vx`. -/
def execAreanchorVx (b : BitVec 5) (a : BitVec 5) (d : BitVec 5) (s : State) : Res := issue 2 (packWord 7#4 0#3 b a 1#3 d 0x7B#7) (opX s a) (vAreanchorVx b a d) s

/-- `areanchor.vi` (R243). -/
def vAreanchorVi (b : BitVec 5) (o : BitVec 2) (d : BitVec 5) : VEntry → State → VRes := areanchorOp (fun _ => o.toNat) (fun _ => 0) b d
/-- Dispatch of `areanchor.vi`. -/
def execAreanchorVi (b : BitVec 5) (o : BitVec 2) (d : BitVec 5) (s : State) : Res := issue 2 (packWord 7#4 0#3 b (0#3 ++ o) 2#3 d 0x7B#7) noOps (vAreanchorVi b o d) s

/-- `ared` (R246). -/
def vAred (b : BitVec 5) (d : BitVec 5) : VEntry → State → VRes := aredOp b d
/-- Dispatch of `ared`. -/
def execAred (b : BitVec 5) (d : BitVec 5) (s : State) : Res := issue 2 (packWord 8#4 0#3 b 0#5 0#3 d 0x7B#7) noOps (vAred b d) s

/-- `aget` (R247). -/
def vAget (b : BitVec 5) (d : BitVec 5) : VEntry → State → VRes := agetOp b d
/-- Dispatch of `aget`. -/
def execAget (b : BitVec 5) (d : BitVec 5) (s : State) : Res := issue 2 (packWord 9#4 0#3 b 0#5 0#3 d 0x7B#7) noOps (vAget b d) s

/-- `aput` (R247). -/
def vAput (b : BitVec 5) (d : BitVec 5) : VEntry → State → VRes := aputOp false b d
/-- Dispatch of `aput`. -/
def execAput (b : BitVec 5) (d : BitVec 5) (s : State) : Res := issue 2 (packWord 10#4 0#3 b 0#5 0#3 d 0x7B#7) noOps (vAput b d) s

/-- `aqset` (R247). -/
def vAqset (b : BitVec 5) (d : BitVec 5) : VEntry → State → VRes := aputOp true b d
/-- Dispatch of `aqset`. -/
def execAqset (b : BitVec 5) (d : BitVec 5) (s : State) : Res := issue 2 (packWord 11#4 0#3 b 0#5 0#3 d 0x7B#7) noOps (vAqset b d) s

/-- `acmp` (R248). -/
def vAcmp (b : BitVec 5) (a : BitVec 5) (c : Cond) (e : MaskNo) : VEntry → State → VRes := acmpOp c a b e
/-- Dispatch of `acmp`. -/
def execAcmp (b : BitVec 5) (a : BitVec 5) (c : Cond) (e : MaskNo) (s : State) : Res := issue 2 (packWord 4#4 0#3 b a 6#3 (c.bits ++ e) 0x7B#7) noOps (vAcmp b a c e) s

end Sys2Proof.Machine
end

