-- ==== Sys2Proof/Machine/Quant.lean ====
section
/-! DEFINITION. Block scales, quantisation and the five VF instructions of `mx1.0` (R63 to R76, R276 to R283). -/

namespace Sys2Proof.Machine

/-! Block scales and quotients. -/

/-- The value of an E3M5 code as `m * 2^e` (R63). -/
def scaleVal (code : Nat) : Nat × Int :=
  let e := getBits code 5 3
  let m := getBits code 0 5
  if e = 0 then (m, -7) else (32 + m, (e : Int) - 8)

/-- An E3M5 code as a value. -/
def scaleFVal (code : Nat) : FVal := .fin false (scaleVal code).1 (scaleVal code).2

/-- Band scale `i` of `vband`: BA0, BA1, BB0, BB1 (R64). -/
def Hart.band (h : Hart) (i : Nat) : FVal := decodeFloat .bf16 (wordField h.vband (16 * i) 16)

/-- What a quantising instruction encodes into: a narrow format, or INT8 (none) (R66). -/
abbrev QTarget := Option FFmt

/-- The block size of a target (R66). -/
def blockSizeOf (t : QTarget) : Nat := if t = some .fp4 then 8 else 24

/-- The format maximum F as `m * 2^e` (R66). -/
def targetMax (t : QTarget) : Nat × Int :=
  match t with
  | none => (127, 0)
  | some f => match decodeFloat f (maxFiniteCode f) with | .fin _ m e => (m, e) | _ => (0, 0)

/-- The number of E3M5 codes whose value times `d` is below the magnitude `a`, by the bits of the count from `k − 1` down. -/
def scaleCount (a d : Nat × Int) : Nat → Nat → Nat
  | 0, n => n
  | k + 1, n =>
    let v := scaleVal (n + 2 ^ k - 1)
    scaleCount a d k (if finLt false (v.1 * d.1) (v.2 + d.2) false a.1 a.2 then n + 2 ^ k else n)

/-- The smallest scale of R68 step 4: value times `d` at least `a`; none where even 31.5 is too small (step 3). -/
def scaleFor (a d : Nat × Int) : Option Nat :=
  let n := scaleCount a d 8 0
  let v := scaleVal n
  if finLt false (v.1 * d.1) (v.2 + d.2) false a.1 a.2 then none else some n

/-- One quotient `m * 2^e / d`, rounded RNE into the target and saturated to F: code, whether it is inexact, whether it
saturated. A zero is +0 (R68 steps 5 and 6). -/
def quotCode (t : QTarget) (neg : Bool) (m : Nat) (e : Int) (d : Nat × Int) : Nat × Bool × Bool :=
  if m = 0 then (0, false, false)
  else
    let (q, st, s) := quotSticky m d.1 64
    let x := e - d.2 - s
    match t with
    | some f =>
      let r := roundFinite f .rne .quant neg q x st
      (if r.1 % 2 ^ (fmtBitsOf f - 1) = 0 then 0 else r.1, r.2.1 &&& flagNX != 0, r.2.2)
    | none =>
      let (n, inexact) := roundTo .rne neg q x 0 st
      let n' := min n 127
      (if neg then ofSigned 8 (-(n' : Int)) else n', inexact || decide (127 < n), decide (127 < n))

/-- The code of an infinity or a NaN (R62, R71). -/
def specialCode (t : QTarget) (v : FVal) : Nat :=
  match t, v with
  | some f, .inf neg => signCode f neg + maxFiniteCode f
  | some f, .nan _ => canonicalNan f
  | none, .inf neg => if neg then ofSigned 8 (-127) else 127
  | _, _ => 0

/-- Whether a value is finite. -/
def FVal.isFinite : FVal → Bool
  | .fin _ _ _ => true
  | _ => false

/-- Whether a value is finite and not zero. -/
def FVal.isNonZero (v : FVal) : Bool := v.isFinite && !v.isZero

/-- The magnitude of a finite value; 0 otherwise. -/
def FVal.magnitude : FVal → Nat × Int
  | .fin _ m e => (m, e)
  | _ => (0, 0)

/-- The larger of two magnitudes. -/
def maxMag (a b : Nat × Int) : Nat × Int := if finLt false a.1 a.2 false b.1 b.2 then b else a

/-- A quantised block: its scale, the code of each position (0 where it is not active), its flags. -/
structure QBlock where
  scale : Nat
  codes : List Nat
  flags : Nat
deriving DecidableEq, Repr

/-- A block's positions: the value of each active element, none elsewhere. -/
abbrev QIn := List (Option FVal)

/-- NV where an active element is an infinity or a NaN (R71). -/
def specialFlags (xs : QIn) : Nat := if xs.any (fun x => x.any (fun v => !v.isFinite)) then flagNV else 0

/-- UF where a non-zero active element is encoded as zero (R68). -/
def lostFlags (xs : QIn) (codes : List Nat) : Nat :=
  if (List.zip xs codes).any (fun p => p.1.any FVal.isNonZero && p.2 == 0) then flagUF else 0

/-- The zero block of R70. -/
def zeroBlock (t : QTarget) (xs : QIn) : QBlock :=
  let codes := xs.map (fun x => (x.map (specialCode t)).getD 0)
  ⟨0, codes, flagBZERO ||| specialFlags xs ||| lostFlags xs codes⟩

/-- A block encoded onto a scale: its codes, its flags, and whether an element saturated (R68 step 5, R71). -/
def encodeBlock (t : QTarget) (xs : QIn) (d : Nat × Int) : List Nat × Nat × Bool :=
  let r := xs.map (fun x =>
    match x with
    | some (.fin neg m e) => quotCode t neg m e d
    | some v => (specialCode t v, false, false)
    | none => (0, false, false))
  let codes := r.map (fun y => y.1)
  (codes, (if r.any (fun y => y.2.1) then flagNX else 0) ||| specialFlags xs ||| lostFlags xs codes,
   r.any (fun y => y.2.2))

/-- A scale times a positive band. -/
def scaleTimes (code : Nat) (band : Nat × Int) : Nat × Int := ((scaleVal code).1 * band.1, (scaleVal code).2 + band.2)

/-- The magnitude of a band that is positive and finite, none for any other (R65). -/
def goodBand : FVal → Option (Nat × Int)
  | .fin false m e => if m = 0 then none else some (m, e)
  | _ => none

/-- R68 to R71 on one block, the scale chosen. -/
def quantBlock (t : QTarget) (band : FVal) (xs : QIn) : QBlock :=
  match goodBand band with
  | none => let z := zeroBlock t xs; { z with flags := z.flags ||| flagNV }
  | some b =>
    let amax := xs.foldl (fun a x => maxMag a ((x.map FVal.magnitude).getD (0, 0))) (0, 0)
    let f := targetMax t
    if amax.1 = 0 then zeroBlock t xs
    else
      let found := scaleFor amax (b.1 * f.1, b.2 + f.2)
      let scale := found.getD 0xFF
      let (codes, fl, _) := encodeBlock t xs (scaleTimes scale b)
      if (List.zip xs codes).all (fun p => !(p.1.any FVal.isFinite) || p.2 == 0) then
        let z := zeroBlock t xs
        { z with flags := z.flags ||| fl }
      else ⟨scale, codes, fl ||| (if found.isNone then flagBSAT else 0)⟩

/-- One block onto a scale already chosen (R280). -/
def rescaleBlock (t : QTarget) (band : FVal) (scale : Nat) (xs : QIn) : QBlock :=
  match goodBand band with
  | none => let z := zeroBlock t xs; { z with flags := z.flags ||| flagNV }
  | some b =>
    if scale = 0 then zeroBlock t xs
    else
      let (codes, fl, sat) := encodeBlock t xs (scaleTimes scale b)
      ⟨scale, codes, fl ||| (if sat then flagBSAT else 0)⟩

/-- `e * s * β` exactly (R72, R281). -/
def dequantValue (f : FFmt) (code scale : Nat) (band : FVal) : FVal :=
  fMulExact (fMulExact (decodeFloat f code) (scaleFVal scale)) band

/-! Outliers (R73 to R76). -/

/-- A block with its outliers: the block, its record, the number of clipped outliers (R74, R75). -/
def outlierBlock (band : FVal) (theta : Nat × Int) (xs : QIn) : QBlock × Nat × Nat :=
  let big (x : Option FVal) : Bool :=
    x.any (fun v => v.isFinite && finLt false theta.1 theta.2 false v.magnitude.1 v.magnitude.2)
  let idx := (List.range xs.length).filter (fun i => big (xs.getD i none))
  let mag (i : Nat) : Nat × Int := (((xs.getD i none).map FVal.magnitude).getD (0, 0))
  let rest := xs.map (fun x => if big x then none else x)
  let q := quantBlock (some .fp4) band rest
  match idx with
  | [] => (q, 0, 0)
  | i0 :: more =>
    let kept := more.foldl (fun a i => if finLt false (mag a).1 (mag a).2 false (mag i).1 (mag i).2 then i else a) i0
    match xs.getD kept none with
    | some (.fin neg m e) =>
      let r := roundFinite .fp16 .rne .quant neg m e false
      let clipped := idx.filter (fun i => i != kept)
      let quot (i : Nat) : Nat × Bool × Bool :=
        match xs.getD i none, goodBand band with
        | some (.fin n mm ee), some b => quotCode (some .fp4) n mm ee (scaleTimes q.scale b)
        | _, _ => (0, false, false)
      let codes := (q.codes.zipIdx).map (fun c =>
        if clipped.contains c.2 then
          if q.scale = 0 then 0
          else signCode .fp4 (((xs.getD c.2 none).map FVal.neg).getD false) + maxFiniteCode .fp4
        else c.1)
      let fl := q.flags ||| (r.2.1 &&& (flagNX ||| flagUF)) ||| (if r.2.2 then flagBSAT else 0) |||
        (if clipped.isEmpty then 0 else flagOUTOVF) |||
        (if q.scale = 0 then if clipped.isEmpty then 0 else flagUF
         else if clipped.any (fun i => (quot i).2.1) then flagNX else 0)
      (⟨q.scale, codes, fl⟩, kept * 2 ^ 16 + r.1, clipped.length)
    | _ => (q, 0, 0)

/-! The instructions (R276 to R283). -/

/-- What R276 fixes for the five instructions: the narrow format and the registers of the FP32 group. -/
structure QCfg where
  f : FFmt
  gs : Nat
  bk : Nat
deriving DecidableEq, Repr

/-- The checks of R276, and the FP32 groups and narrow groups of an instruction aligned (R125). -/
def needQuant (e : VEntry) (c : VCfg) (narrow wide : List Nat) (more : QCfg → Bool) : Except Stop QCfg := do
  needVtype e c
  match (if c.sew ≤ 2 ∧ c.block = 0 then c.fmt else none) with
  | none => .error (trapWord 1 e)
  | some f =>
    let gs := pow2AtLeast 7 (ceilDiv (c.g * 32) c.w)
    let q : QCfg := ⟨f, gs, blockSizeOf (some f)⟩
    need e 1 (decide (gs ≤ 8) && narrow.all (fun n => groupOk n c.g) && wide.all (fun n => groupOk n gs) && more q)
    .ok q

/-- Whether two runs of registers have none in common (R278). -/
def disjoint (a n b m : Nat) : Bool := decide (a + n ≤ b) || decide (b + m ≤ a)

/-- Blocks that hold an element below `vl` (R277). -/
def QCfg.blocks (q : QCfg) (vl : Nat) : Nat := ceilDiv vl q.bk

/-- The indices of a block. -/
def QCfg.indices (q : QCfg) (k : Nat) : List Nat := (List.range q.bk).map (fun j => k * q.bk + j)

/-- Whether an element is active (R67). -/
def State.isActive (s : State) (m : MaskNo) (i : Nat) : Bool := decide (i < s.hart.vl.toNat) && s.hart.maskBit m i

/-- Whether a block holds an active element. -/
def QCfg.live (q : QCfg) (s : State) (m : MaskNo) (k : Nat) : Bool := (q.indices k).any (s.isActive m)

/-- Elements of the narrow group an instruction may write: `vl`, or to the end of a live last block below vlmax (R67). -/
def QCfg.extent (q : QCfg) (s : State) (m : MaskNo) : Nat :=
  let c := s.cfg
  let n := q.blocks c.vl
  if n = 0 then 0 else if q.live s m (n - 1) then min c.vlmax (n * q.bk) else c.vl

/-- The quantised blocks of an instruction by number: the result of a live block. -/
def QCfg.run (q : QCfg) (s : State) (m : MaskNo) (val : Nat → FVal) (f : Nat → QIn → α) : List (Option α) :=
  (List.range (q.blocks s.cfg.vl)).map (fun k =>
    if q.live s m k then some (f k ((q.indices k).map (fun i => if s.isActive m i then some (val i) else none)))
    else none)

/-- The narrow elements written: codes of active elements, +0 in the padded positions of a live block (R67). -/
def QCfg.narrowElems (q : QCfg) (s : State) (m : MaskNo) (outs : List (Option QBlock)) (bad : Nat → Bool) :
    List (Option (Nat × Bool)) :=
  (List.range (q.extent s m)).map (fun i =>
    match outs[i / q.bk]? with
    | some (some b) =>
      if s.isActive m i then some (b.codes.getD (i % q.bk) 0, bad i)
      else if s.cfg.vl ≤ i then some (0, false) else none
    | _ => none)

/-- Whether any active element of a block is poisoned (R260). -/
def QCfg.badBlock (q : QCfg) (s : State) (m : MaskNo) (bad : Nat → Bool) (k : Nat) : Bool :=
  (q.indices k).any (fun i => s.isActive m i && bad i)

/-- One value for each live block. -/
def QCfg.perBlock (q : QCfg) (s : State) (m : MaskNo) (outs : List (Option α)) (bad : Nat → Bool) (f : α → Nat) :
    List (Option (Nat × Bool)) :=
  (outs.zipIdx).map (fun p => p.1.map (fun b => (f b, q.badBlock s m bad p.2)))

/-- The flags of all blocks. -/
def flagsOf (outs : List (Option QBlock)) : Nat := outs.foldl (fun acc o => acc ||| (o.elim 0 QBlock.flags)) 0

/-- Registers of the narrow group written. -/
def QCfg.narrowDest (q : QCfg) (s : State) (m : MaskNo) (d : Nat) : List Nat :=
  destRegs s.cfg d s.cfg.g s.cfg.w (q.extent s m)

/-- Elements of an FP32 group. -/
def floatVal (src : Src) (i : Nat) : FVal := decodeFloat .fp32 (src i).1

/-- `vquant` (R279). -/
def vquantOp (m : MaskNo) (b sc d : BitVec 5) (e : VEntry) (s : State) : VRes := do
  let c := s.cfg
  let q ← needQuant e c [d.toNat] [b.toNat] (fun _ => disjoint d.toNat c.g sc.toNat 1)
  let dest := q.narrowDest s m d.toNat ++ destRegs c sc.toNat 1 8 (q.blocks c.vl)
  let s1 ← admission e s [readBelow c b.toNat q.gs 4 c.vl] dest (microOpsOf dest.length)
  let x := groupSrc s1 b.toNat q.gs 4
  let bad := fun i => (x i).2
  let outs := q.run s1 m (floatVal x) (fun _ => quantBlock (some q.f) (s1.hart.band 0))
  let s2 := s1.onHart (fun h => h.orFlags (flagsOf outs))
  let s3 := writeGroup s2 d.toNat c.g c.sew (q.narrowElems s1 m outs bad)
  .ok (writeGroup s3 sc.toNat 1 2 (q.perBlock s1 m outs bad QBlock.scale))

/-- `vbscale` (R280). -/
def vbscaleOp (m : MaskNo) (b sc d : BitVec 5) (e : VEntry) (s : State) : VRes := do
  let c := s.cfg
  let q ← needQuant e c [d.toNat] [b.toNat] (fun _ => true)
  let dest := q.narrowDest s m d.toNat
  let reads := [readBelow c b.toNat q.gs 4 c.vl, readBelow c sc.toNat 1 2 (q.blocks c.vl)]
  let s1 ← admission e s reads dest (microOpsOf dest.length)
  let x := groupSrc s1 b.toNat q.gs 4
  let y := groupSrc s1 sc.toNat 1 2
  let outs := q.run s1 m (floatVal x) (fun k => rescaleBlock (some q.f) (s1.hart.band 0) (y k).1)
  let s2 := s1.onHart (fun h => h.orFlags (flagsOf outs))
  .ok (writeGroup s2 d.toNat c.g c.sew (q.narrowElems s1 m outs (fun i => (x i).2 || (y (i / q.bk)).2)))

/-- `vdequant` (R281). -/
def vdequantOp (m : MaskNo) (b sc d : BitVec 5) (e : VEntry) (s : State) : VRes := do
  let c := s.cfg
  let q ← needQuant e c [b.toNat] [d.toNat] (fun _ => true)
  let dest := destRegs c d.toNat q.gs 32 c.vl
  let reads := [readBelow c b.toNat c.g c.sew c.vl, readBelow c sc.toNat 1 2 (q.blocks c.vl)]
  let s1 ← admission e s reads dest (microOpsOf dest.length)
  let x := groupSrc s1 b.toNat c.g c.sew
  let y := groupSrc s1 sc.toNat 1 2
  let outs := (List.range c.vl).map (fun i =>
    if s1.hart.maskBit m i then
      let k := y (i / q.bk)
      let r := toFormat .fp32 .rne (dequantValue q.f (x i).1 k.1 (s1.hart.band 0))
      some (r.1, r.2, (x i).2 || k.2)
    else none)
  let fl := outs.foldl (fun acc o => acc ||| (o.elim 0 (fun r => r.2.1))) 0
  .ok (writeGroup (s1.onHart (fun h => h.orFlags fl)) d.toNat q.gs 4
    (outs.map (fun o => o.map (fun r => (r.1, r.2.2)))))

/-- The exact sum of a value and a carried error (R282): a zero has no sign. -/
def exactAdd (a b : FVal) : FVal :=
  match a, b with
  | .nan s, _ => .nan s
  | _, .nan s => .nan s
  | .inf x, .inf y => if x = y then .inf x else .nan true
  | .inf x, _ => .inf x
  | _, .inf y => .inf y
  | .fin n1 m1 e1, .fin n2 m2 e2 =>
    let (v, x) := exactSum n1 m1 e1 n2 m2 e2
    .fin (v < 0) v.natAbs x

/-- The new carried error of an element: RNE32 of what quantisation lost, and whether that is inexact (R282, R61). -/
def errorOf (f : FFmt) (y : FVal) (code scale : Nat) (band : FVal) : Nat × Bool :=
  if !y.isFinite then (0, false)
  else
    let d := if scale = 0 then FVal.fin false 0 0 else dequantValue f code scale band
    match exactAdd y d.negate with
    | .fin n m e =>
      let r := roundFinite .fp32 .rne .quant n m e false
      (r.1, r.2.1 &&& flagNX != 0)
    | _ => (0, false)

/-- `vqef` (R282). -/
def vqefOp (m : MaskNo) (b er d : BitVec 5) (e : VEntry) (s : State) : VRes := do
  let c := s.cfg
  let q ← needQuant e c [d.toNat] [b.toNat, er.toNat] (fun q =>
    decide (d.toNat + c.g ≤ 31) && disjoint d.toNat (c.g + 1) er.toNat q.gs)
  let dest := q.narrowDest s m d.toNat ++ destRegs c (d.toNat + c.g) 1 8 (q.blocks c.vl) ++
    destRegs c er.toNat q.gs 32 c.vl
  let reads := [readBelow c b.toNat q.gs 4 c.vl, readBelow c er.toNat q.gs 4 c.vl]
  let s1 ← admission e s reads dest (microOpsOf dest.length)
  let x := groupSrc s1 b.toNat q.gs 4
  let y := groupSrc s1 er.toNat q.gs 4
  let band := s1.hart.band 0
  let val := fun i => exactAdd (floatVal x i) (floatVal y i)
  let bad := fun i => (x i).2 || (y i).2
  let outs := q.run s1 m val (fun _ => quantBlock (some q.f) band)
  let errs := (List.range c.vl).map (fun i =>
    match outs[i / q.bk]? with
    | some (some o) =>
      if s1.isActive m i then some (errorOf q.f (val i) (o.codes.getD (i % q.bk) 0) o.scale band, bad i) else none
    | _ => none)
  let fl := flagsOf outs ||| (if errs.any (fun o => o.any (fun r => r.1.2)) then flagNX else 0)
  let s2 := s1.onHart (fun h => h.orFlags fl)
  let s3 := writeGroup s2 d.toNat c.g c.sew (q.narrowElems s1 m outs bad)
  let s4 := writeGroup s3 (d.toNat + c.g) 1 2 (q.perBlock s1 m outs bad QBlock.scale)
  .ok (writeGroup s4 er.toNat q.gs 4 (errs.map (fun o => o.map (fun r => (r.1.1, r.2)))))

/-- The threshold of `vouts`, none where it is not positive and finite (R283). -/
def thetaOf (e : VEntry) : Option (Nat × Int) :=
  match decodeFloat .fp32 (unbox32 (e.op0.getD 0#64)) with
  | .fin false m x => if m = 0 then none else some (m, x)
  | _ => none

/-- `voutcnt` after some clipped outliers, saturating (R75). -/
def Hart.addClipped (h : Hart) (n : Nat) : Hart :=
  { h with voutcnt := BitVec.ofNat 32 (min (h.voutcnt.toNat + n) (2 ^ 32 - 1)) }

/-- `vouts` (R283). -/
def voutsOp (m : MaskNo) (b d : BitVec 5) (e : VEntry) (s : State) : VRes := do
  let c := s.cfg
  let q ← needQuant e c [] [b.toNat] (fun _ => c.sew == 0 && c.g == 1 && decide (d.toNat ≤ 29) && (thetaOf e).isSome)
  let n := q.blocks c.vl
  let dest := q.narrowDest s m d.toNat ++ destRegs c (d.toNat + 1) 1 8 n ++ destRegs c (d.toNat + 2) 1 32 n
  let s1 ← admission e s [readBelow c b.toNat q.gs 4 c.vl] dest (microOpsOf dest.length)
  let x := groupSrc s1 b.toNat q.gs 4
  let bad := fun i => (x i).2
  let outs := q.run s1 m (floatVal x) (fun _ => outlierBlock (s1.hart.band 0) ((thetaOf e).getD (1, 0)))
  let blocks := outs.map (fun o => o.map (fun r => r.1))
  let clipped := outs.foldl (fun acc o => acc + (o.elim 0 (fun r => r.2.2))) 0
  let s2 := s1.onHart (fun h => (h.orFlags (flagsOf blocks)).addClipped clipped)
  let s3 := writeGroup s2 d.toNat c.g c.sew (q.narrowElems s1 m blocks bad)
  let s4 := writeGroup s3 (d.toNat + 1) 1 2 (q.perBlock s1 m blocks bad QBlock.scale)
  .ok (writeGroup s4 (d.toNat + 2) 1 4 (q.perBlock s1 m outs bad (fun r => r.2.1)))

/-- `vquant` (R279). -/
def vVquant (m : MaskNo) (b : BitVec 5) (a : BitVec 5) (d : BitVec 5) : VEntry → State → VRes := vquantOp m b a d
/-- Dispatch of `vquant`. -/
def execVquant (m : MaskNo) (b : BitVec 5) (a : BitVec 5) (d : BitVec 5) (s : State) : Res := issue 1 (packWord 6#4 m b a 6#3 d 0x2B#7) noOps (vVquant m b a d) s

/-- `vdequant` (R281). -/
def vVdequant (m : MaskNo) (b : BitVec 5) (a : BitVec 5) (d : BitVec 5) : VEntry → State → VRes := vdequantOp m b a d
/-- Dispatch of `vdequant`. -/
def execVdequant (m : MaskNo) (b : BitVec 5) (a : BitVec 5) (d : BitVec 5) (s : State) : Res := issue 1 (packWord 7#4 m b a 6#3 d 0x2B#7) noOps (vVdequant m b a d) s

/-- `vqef` (R282). -/
def vVqef (m : MaskNo) (b : BitVec 5) (a : BitVec 5) (d : BitVec 5) : VEntry → State → VRes := vqefOp m b a d
/-- Dispatch of `vqef`. -/
def execVqef (m : MaskNo) (b : BitVec 5) (a : BitVec 5) (d : BitVec 5) (s : State) : Res := issue 1 (packWord 8#4 m b a 6#3 d 0x2B#7) noOps (vVqef m b a d) s

/-- `vbscale` (R280). -/
def vVbscale (m : MaskNo) (b : BitVec 5) (a : BitVec 5) (d : BitVec 5) : VEntry → State → VRes := vbscaleOp m b a d
/-- Dispatch of `vbscale`. -/
def execVbscale (m : MaskNo) (b : BitVec 5) (a : BitVec 5) (d : BitVec 5) (s : State) : Res := issue 1 (packWord 9#4 m b a 6#3 d 0x2B#7) noOps (vVbscale m b a d) s

/-- `vouts` (R283). -/
def vVouts (m : MaskNo) (b : BitVec 5) (_a : BitVec 5) (d : BitVec 5) : VEntry → State → VRes := voutsOp m b d
/-- Dispatch of `vouts`. -/
def execVouts (m : MaskNo) (b : BitVec 5) (a : BitVec 5) (d : BitVec 5) (s : State) : Res := issue 1 (packWord 10#4 m b a 7#3 d 0x2B#7) (opF s a) (vVouts m b a d) s

end Sys2Proof.Machine
end

