-- ==== Sys2Proof/Machine/Matrix.lean ====
section
/-! DEFINITION. The accumulator tiles and scale registers and the instructions that act on them (R77 to R79, R256 to R275). -/

namespace Sys2Proof.Machine

/-- A tile the hart owns (R257). -/
def needTile (e : VEntry) (s : State) (t : TileNo) : Except Stop Unit := need e 11 (decide (t.toNat < s.hart.ownTiles))

/-- Row `i` of a tile. -/
def Tile.row (t : Tile) (i : Nat) : Nat := ((t.rows[i]?).getD 0#4096).toNat

/-- The poison of row `i`. -/
def Tile.rowPoison (t : Tile) (i : Nat) : Nat := ((t.poison[i]?).getD 0#128).toNat

/-- Element C[i][j] of a tile (R256). -/
def Tile.elem (t : Tile) (i j : Nat) : Nat := getBits (t.row i) (32 * j) 32

/-- Whether C[i][j] is poisoned (R260). -/
def Tile.bad (t : Tile) (i j : Nat) : Bool := (t.rowPoison i).testBit j

/-- Elements 0 to n − 1 of row `i` replaced, each with its poison. -/
def Tile.setRow (t : Tile) (i : Nat) (xs : List (Nat × Bool)) : Tile :=
  let n := xs.length
  let v := xs.foldr (fun x acc => x.1 % 2 ^ 32 + 2 ^ 32 * acc) 0
  let p := xs.foldr (fun x acc => (if x.2 then 1 else 0) + 2 * acc) 0
  { rows := t.rows.setIfInBounds i (BitVec.ofNat 4096 (setBits (t.row i) 0 (32 * n) v))
    poison := t.poison.setIfInBounds i (BitVec.ofNat 128 (setBits (t.rowPoison i) 0 n p)) }

/-- N of R265. -/
def VCfg.cols (c : VCfg) : Nat := min c.vl 128

/-! The block update (R77). -/

/-- The sum of the products inside the 28-bit window, in units of 2^(E−27), and that unit's exponent; none where every
product is 0. -/
def windowSum (ps : List FVal) : Option (Int × Int) :=
  let tops := ps.filterMap (fun p => match p with | .fin _ m e => if m = 0 then none else some ((bitLen m : Int) - 1 + e) | _ => none)
  match tops with
  | [] => none
  | t0 :: ts =>
    let u := ts.foldl (fun a t => if a < t then t else a) t0 - 27
    some (ps.foldl (fun acc p =>
      match p with
      | .fin n m e =>
        let k : Nat := if u ≤ e then m * 2 ^ (e - u).toNat else m >>> (u - e).toNat
        if n then acc - k else acc + k
      | _ => acc) 0, u)

/-- The block contribution of R77 as an FP32 code, and its flags. -/
def blockTerm (ps : List FVal) (g : FVal) : Nat × Nat :=
  let pos := ps.any (fun p => match p with | .inf n => !n | _ => false)
  let neg := ps.any (fun p => match p with | .inf n => n | _ => false)
  if ps.any FVal.isNan || (pos && neg) || !g.isFinite then (canonicalNan .fp32, flagNV)
  else if pos || neg then
    if g.isZero then (canonicalNan .fp32, flagNV) else (signCode .fp32 (neg != g.neg) + infCode .fp32, 0)
  else
    match windowSum ps with
    | none => (0, 0)
    | some (sum, u) =>
      match g with
      | .fin gn gm ge =>
        if sum = 0 then (0, 0)
        else if gm = 0 then (signCode .fp32 (sum < 0), 0)
        else
          let r := roundFinite .fp32 .rne .ieee (decide (sum < 0) != gn) (sum.natAbs * gm) (u + ge) false
          (r.1, r.2.1)
      | _ => (canonicalNan .fp32, flagNV)

/-- One accumulator element updated by one K-block (R77, R78). -/
def blockUpdate (acc : Nat) (ps : List FVal) (g : FVal) : Nat × Nat :=
  let (blk, fl) := blockTerm ps g
  let r := fAdd .fp32 .rne (decodeFloat .fp32 acc) (decodeFloat .fp32 blk)
  (r.1, fl ||| r.2)

/-- What an outer-product form multiplies: its K-block depth and how it reads an element. -/
structure MpaForm where
  kb : Nat
  val : Nat → FVal

/-- A format's elements as values. -/
def MpaForm.ofFormat (kb : Nat) (f : FFmt) : MpaForm := ⟨kb, decodeFloat f⟩

/-- The form of `mpa` at a vtype (R264). -/
def mpaFormat (c : VCfg) : Option MpaForm :=
  match c.sew, c.alt with
  | 0, false => some (.ofFormat 8 .fp4)
  | 1, false => some (.ofFormat 24 .e2m3)
  | 1, true => some (.ofFormat 24 .e3m2)
  | 2, false => some (.ofFormat 24 .e4m3)
  | 2, true => some (.ofFormat 24 .e5m2)
  | _, _ => none

/-- The form of `mpa.i`. -/
def mpaIntFormat (c : VCfg) : Option MpaForm := if c.sew = 2 then some ⟨24, fun x => .ofInt (toSigned 8 x)⟩ else none

/-- The form of `mpa.h`. -/
def mpaHalfFormat (c : VCfg) : Option MpaForm :=
  if c.sew = 3 then some (.ofFormat 8 (if c.alt then .bf16 else .fp16)) else none

/-- The form of `mlra`. -/
def mlraFormat (c : VCfg) : Option MpaForm := if c.sew = 3 ∧ c.alt = true then some (.ofFormat 16 .bf16) else none

/-- The scale product of an element (R77, R262). -/
def scaleProduct (h : Hart) (i j : Nat) : FVal :=
  fMulExact (fMulExact (fMulExact (scaleFVal ((h.sA[i]?).getD 0#8).toNat) (scaleFVal ((h.sB[j]?).getD 0#8).toNat))
    (h.band (i / 64))) (h.band (2 + j / 64))

/-- The values of row or column `i` of an operand, and whether one of its bytes is poisoned. -/
def operandLine (f : MpaForm) (src : Src) (stride i : Nat) : List FVal × Bool :=
  ((List.range f.kb).map (fun k => f.val (src (k * stride + i)).1), (List.range f.kb).any (fun k => (src (k * stride + i)).2))

/-- A tile row after an update, and its flags. -/
def updateRow (t : Tile) (i : Nat) (a : List FVal × Bool) (bs : List (List FVal × Bool)) (g : Nat → FVal) :
    List (Nat × Bool) × Nat :=
  let r := (bs.zipIdx).map (fun b =>
    let u := blockUpdate (t.elem i b.2) (List.zipWith fMulExact a.1 b.1.1) (g b.2)
    (u, a.2 || b.1.2 || t.bad i b.2))
  (r.map (fun x => (x.1.1, x.2)), r.foldl (fun acc x => acc ||| x.1.2) 0)

/-- An outer-product form (R265, R268, R272). -/
def mpaOp (form : VCfg → Option MpaForm) (g : Hart → Nat → Nat → FVal) (b a : BitVec 5) (t : TileNo) (e : VEntry) (s : State) :
    VRes := do
  let c := s.cfg
  needVtype e c
  match (if c.block = 0 then form c else none) with
  | none => .error (trapWord 1 e)
  | some f =>
    need e 1 (groupOk a.toNat c.g && groupOk b.toNat c.g)
    needTile e s t
    let vrow := s.hart.vrow.toNat
    if vrow = 0 ∨ c.vl = 0 then admission e s [] [] 1
    else
      need e 12 (decide (f.kb * vrow ≤ c.vlmax) && decide ((f.kb - 1) * c.vl + c.cols ≤ c.vlmax))
      let reads := [readBelow c a.toNat c.g c.sew (f.kb * vrow), readBelow c b.toNat c.g c.sew ((f.kb - 1) * c.vl + c.cols)]
      let s1 ← admission e s reads [] 1
      let x := groupSrc s1 a.toNat c.g c.sew
      let y := groupSrc s1 b.toNat c.g c.sew
      let cols := (List.range c.cols).map (operandLine f y c.vl)
      let (tile, fl) := (List.range vrow).foldl (fun (acc : Tile × Nat) i =>
        let r := updateRow (s1.hart.getT t) i (operandLine f x vrow i) cols (g s1.hart i)
        (acc.1.setRow i r.1, acc.2 ||| r.2)) (s1.hart.getT t, 0)
      .ok (s1.onHart (fun h => (h.setT t tile).orFlags fl))

/-- The scale of `mlra`: 1 (R272). -/
def unitScale (_ : Hart) (_ _ : Nat) : FVal := .fin false 1 0

/-- `mzero` (R267). -/
def mzeroOp (t : TileNo) (e : VEntry) (s : State) : VRes := do
  needTile e s t
  let s1 ← admission e s [] [] 1
  .ok (s1.onHart (fun h => h.setT t Tile.reset))

/-- The checks of `mmv`: its row (R270). -/
def needRow (e : VEntry) (s : State) (t : TileNo) (b : BitVec 5) : Except Stop Nat := do
  let c := s.cfg
  let row := (e.op0.getD 0#64).toNat
  needVtype e c
  need e 1 (c.sew == 4 && !c.alt && c.block == 0 && groupOk b.toNat c.g && decide (row < 128))
  needTile e s t
  .ok row

/-- `mmv.tv` (R270). With `vl` above 128 it obtains, and tags G, the registers that hold one of the 128 elements it writes: R34 speaks of
elements below `vl` (DESIGN CHOICE, log 58). -/
def mmvTvOp (t : TileNo) (b : BitVec 5) (e : VEntry) (s : State) : VRes := do
  let c := s.cfg
  let row ← needRow e s t b
  let dest := destRegs c b.toNat c.g 32 c.cols
  let s1 ← admission e s [] dest (microOpsOf dest.length)
  let tile := s1.hart.getT t
  .ok (writeGroup s1 b.toNat c.g 4 ((List.range c.cols).map (fun j => some (tile.elem row j, tile.bad row j))))

/-- `mmv.vt` (R270). -/
def mmvVtOp (t : TileNo) (b : BitVec 5) (e : VEntry) (s : State) : VRes := do
  let c := s.cfg
  let row ← needRow e s t b
  let r := readBelow c b.toNat c.g 4 c.cols
  let s1 ← admission e s [r] [] (microOpsOf r.used)
  let x := groupSrc s1 b.toNat c.g 4
  .ok (s1.onHart (fun h => h.setT t ((h.getT t).setRow row ((List.range c.cols).map x))))

/-- The first codes of a scale register replaced (R271). -/
def setCodes (v : Vector Byte 128) (xs : List Nat) : Vector Byte 128 :=
  (xs.zipIdx).foldl (fun acc p => acc.setIfInBounds p.2 (BitVec.ofNat 8 p.1)) v

/-- `mscale` (R271). With `vl` = 0 it reads and writes no element: R172 names no exception for it (log 58). -/
def mscaleOp (b a : BitVec 5) (e : VEntry) (s : State) : VRes := do
  let c := s.cfg
  needVtype e c
  let vrow := if c.vl = 0 then 0 else s.hart.vrow.toNat
  let s1 ← admission e s [readBelow c a.toNat 1 2 vrow, readBelow c b.toNat 1 2 c.cols] [] 1
  let xs := (List.range vrow).map (groupSrc s1 a.toNat 1 2)
  let ys := (List.range c.cols).map (groupSrc s1 b.toNat 1 2)
  need e 9 (!(xs.any (fun x => x.2) || ys.any (fun y => y.2)))
  .ok (s1.onHart (fun h =>
    { h with sA := setCodes h.sA (xs.map (fun x => x.1)), sB := setCodes h.sB (ys.map (fun y => y.1)) }))

/-! Reading tiles out (R273 to R275). -/

/-- What `mcvt` writes: block-scaled codes, a 16-bit float, or the bits. -/
inductive CvtTarget where
  | narrow (t : QTarget) | half (f : FFmt) | bits
deriving DecidableEq, Repr

/-- The destination of `mcvt` at a vtype (R273). -/
def mcvtTarget (c : VCfg) (int : Bool) : Option CvtTarget :=
  if c.block ≠ 0 then none
  else if int then if c.sew = 2 ∧ c.alt = false then some (.narrow none) else none
  else if c.sew ≤ 2 then c.fmt.map (fun f => .narrow (some f))
  else if c.sew = 3 then c.fmt.map .half
  else if c.sew = 4 then some .bits
  else none

/-- What a row of `mcvt` gives: its elements with their poison, its scales with theirs, its flags. -/
structure CvtRow where
  elems : List (Nat × Bool)
  scales : List (Nat × Bool)
  flags : Nat
deriving DecidableEq, Repr

/-- A row as block-scaled codes (R274): each block quantised, the padded positions +0. -/
def narrowRow (t : QTarget) (band : FVal) (n : Nat) (x : Nat → Nat × Bool) : CvtRow :=
  let bk := blockSizeOf t
  let bs := (List.range (ceilDiv n bk)).map (fun b =>
    let idx := (List.range bk).map (fun j => b * bk + j)
    let q := quantBlock t band (idx.map (fun j => if j < n then some (decodeFloat .fp32 (x j).1) else none))
    (List.zip q.codes (idx.map (fun j => decide (j < n) && (x j).2)), (q.scale, idx.any (fun j => decide (j < n) && (x j).2)),
     q.flags))
  ⟨bs.flatMap (fun b => b.1), bs.map (fun b => b.2.1), bs.foldl (fun acc b => acc ||| b.2.2) 0⟩

/-- One element to FP16 or BF16, saturated (R61, R62, R274). -/
def halfElem (f : FFmt) (code : Nat) : Nat × Nat :=
  match decodeFloat .fp32 code with
  | .fin n m e => let r := roundFinite f .rne .quant n m e false; (r.1, r.2.1)
  | .inf n => (signCode f n + maxFiniteCode f, flagNV)
  | .nan sig => (canonicalNan f, if sig then flagNV else 0)

/-- A row of `mcvt`. -/
def CvtTarget.row (t : CvtTarget) (band : FVal) (n : Nat) (x : Nat → Nat × Bool) : CvtRow :=
  match t with
  | .narrow q => narrowRow q band n x
  | .half f =>
    let r := (List.range n).map (fun j => (halfElem f (x j).1, (x j).2))
    ⟨r.map (fun y => (y.1.1, y.2)), [], r.foldl (fun acc y => acc ||| y.1.2) 0⟩
  | .bits => ⟨(List.range n).map x, [], 0⟩

/-- The length of a row in elements, padding included, and in blocks (R274). -/
def CvtTarget.lengths (t : CvtTarget) (n : Nat) : Nat × Nat :=
  match t with
  | .narrow q => (blockSizeOf q * ceilDiv n (blockSizeOf q), ceilDiv n (blockSizeOf q))
  | _ => (n, 0)

/-- Whether a destination of `mcvt` writes scales. -/
def CvtTarget.isNarrow : CvtTarget → Bool
  | .narrow _ => true
  | _ => false

/-- `mcvt` (R273 to R275). -/
def mcvtOp (t : TileNo) (d : BitVec 5) (e : VEntry) (s : State) : VRes := do
  let c := s.cfg
  needVtype e c
  let x := (e.op0.getD 0#64).toNat
  let rows := getBits x 8 8
  let first := getBits x 0 7
  match mcvtTarget c (x.testBit 16) with
  | none => .error (trapWord 1 e)
  | some k =>
    need e 1 (getBits x 17 47 == 0 && !(x.testBit 7) && rows != 0 && groupOk d.toNat c.g &&
      (!k.isNarrow || decide (d.toNat + c.g ≤ 31)))
    needTile e s t
    let (np, nbr) := k.lengths c.cols
    need e 12 (decide (first + rows ≤ 128) && decide (rows * np ≤ c.vlmax) && decide (rows * nbr ≤ 64 * c.lanes))
    let dest := destRegs c d.toNat c.g c.w (rows * np) ++ destRegs c (d.toNat + c.g) 1 8 (rows * nbr)
    let s1 ← admission e s [] dest (microOpsOf dest.length)
    let tile := s1.hart.getT t
    let out := (List.range rows).map (fun r =>
      let i := first + r
      k.row (s1.hart.band (i / 64)) c.cols (fun j => (tile.elem i j, tile.bad i j)))
    let s2 := s1.onHart (fun h => h.orFlags (out.foldl (fun acc r => acc ||| r.flags) 0))
    let s3 := writeGroup s2 d.toNat c.g c.sew (out.flatMap (fun r => r.elems.map some))
    .ok (writeGroup s3 (d.toNat + c.g) 1 2 (out.flatMap (fun r => r.scales.map some)))

/-- `mzero` (R267). -/
def vMzero (t : TileNo) : VEntry → State → VRes := mzeroOp t
/-- Dispatch of `mzero`. -/
def execMzero (t : TileNo) (s : State) : Res := issue 1 (packWord 12#4 0#3 0#5 0#5 0#3 (0#3 ++ t) 0x7B#7) noOps (vMzero t) s

/-- `mpa` (R268). -/
def vMpa (b : BitVec 5) (a : BitVec 5) (t : TileNo) : VEntry → State → VRes := mpaOp mpaFormat scaleProduct b a t
/-- Dispatch of `mpa`. -/
def execMpa (b : BitVec 5) (a : BitVec 5) (t : TileNo) (s : State) : Res := issue 1 (packWord 13#4 0#3 b a 0#3 (0#3 ++ t) 0x7B#7) noOps (vMpa b a t) s

/-- `mpa.i` (R268). -/
def vMpaI (b : BitVec 5) (a : BitVec 5) (t : TileNo) : VEntry → State → VRes := mpaOp mpaIntFormat scaleProduct b a t
/-- Dispatch of `mpa.i`. -/
def execMpaI (b : BitVec 5) (a : BitVec 5) (t : TileNo) (s : State) : Res := issue 1 (packWord 0#4 0#3 b a 6#3 (0#3 ++ t) 0x7B#7) noOps (vMpaI b a t) s

/-- `mpa.h` (R268). -/
def vMpaH (b : BitVec 5) (a : BitVec 5) (t : TileNo) : VEntry → State → VRes := mpaOp mpaHalfFormat scaleProduct b a t
/-- Dispatch of `mpa.h`. -/
def execMpaH (b : BitVec 5) (a : BitVec 5) (t : TileNo) (s : State) : Res := issue 1 (packWord 1#4 0#3 b a 6#3 (0#3 ++ t) 0x7B#7) noOps (vMpaH b a t) s

/-- `mlra` (R272). -/
def vMlra (b : BitVec 5) (a : BitVec 5) (t : TileNo) : VEntry → State → VRes := mpaOp mlraFormat unitScale b a t
/-- Dispatch of `mlra`. -/
def execMlra (b : BitVec 5) (a : BitVec 5) (t : TileNo) (s : State) : Res := issue 4 (packWord 2#4 0#3 b a 6#3 (0#3 ++ t) 0x7B#7) noOps (vMlra b a t) s

/-- `mmv.tv` (R270). -/
def vMmvTv (b : BitVec 5) (_a : BitVec 5) (t : TileNo) : VEntry → State → VRes := mmvTvOp t b
/-- Dispatch of `mmv.tv`. -/
def execMmvTv (b : BitVec 5) (a : BitVec 5) (t : TileNo) (s : State) : Res := issue 1 (packWord 14#4 0#3 b a 1#3 (0#3 ++ t) 0x7B#7) (opX s a) (vMmvTv b a t) s

/-- `mmv.vt` (R270). -/
def vMmvVt (b : BitVec 5) (_a : BitVec 5) (t : TileNo) : VEntry → State → VRes := mmvVtOp t b
/-- Dispatch of `mmv.vt`. -/
def execMmvVt (b : BitVec 5) (a : BitVec 5) (t : TileNo) (s : State) : Res := issue 1 (packWord 14#4 0#3 b a 1#3 (4#3 ++ t) 0x7B#7) (opX s a) (vMmvVt b a t) s

/-- `mscale` (R271). -/
def vMscale (b : BitVec 5) (a : BitVec 5) : VEntry → State → VRes := mscaleOp b a
/-- Dispatch of `mscale`. -/
def execMscale (b : BitVec 5) (a : BitVec 5) (s : State) : Res := issue 1 (packWord 15#4 0#3 b a 0#3 0#5 0x7B#7) noOps (vMscale b a) s

/-- `mcvt` (R273). -/
def vMcvt (t : TileNo) (_a : BitVec 5) (d : BitVec 5) : VEntry → State → VRes := mcvtOp t d
/-- Dispatch of `mcvt`. -/
def execMcvt (t : TileNo) (a : BitVec 5) (d : BitVec 5) (s : State) : Res := issue 1 (packWord 3#4 0#3 (0#3 ++ t) a 7#3 d 0x7B#7) (opX s a) (vMcvt t a d) s

end Sys2Proof.Machine
end

