-- ==== Sys2Proof/Machine/VecMem.lean ====
section
/-! DEFINITION. The VM instructions: loads, stores, atomics, anchored fields, tile rows, copies, fills and near-memory commands
(R133, R309 to R342). -/

namespace Sys2Proof.Machine

/-! Addresses (R311, R312). -/

/-- The address modes. -/
inductive VMode where
  | unit | strided | indexed (n : Nat) | bits
deriving DecidableEq, Repr

/-- Registers of the index group (R312). -/
def indexCount (c : VCfg) : Nat := pow2AtLeast 7 (ceilDiv (c.g * 64) c.w)

/-- Whether a mode and its operands suit the element width (R312, R313, R323). -/
def VMode.ok (m : VMode) (e : VEntry) (c : VCfg) : Bool :=
  match m with
  | .unit => true
  | .strided => decide (8 ≤ c.w)
  | .indexed n => decide (8 ≤ c.w) && groupOk n (indexCount c)
  | .bits =>
    let o := (e.op1.getD 0#64).toNat
    decide (o ≤ 7) && (decide (c.w < 8) || o == 0)

/-- The read of the index group. -/
def VMode.reads (m : VMode) (c : VCfg) : List GroupRead :=
  match m with
  | .indexed n => [readBelow c n (indexCount c) 5 c.vl]
  | _ => []

/-- The index elements of a mode (R312); constant 0 for the others. -/
def VMode.index (m : VMode) (s : State) : Src :=
  match m with
  | .indexed n => groupSrc s n (indexCount s.cfg) 5
  | _ => constSrc 64 0

/-- Where an element lies: the address of its first byte, its bytes, and its first bit in them (R311). -/
structure Place where
  va : Nat
  len : Nat
  sub : Nat
deriving DecidableEq, Repr

/-- The place of element `i` (R311). -/
def VMode.place (m : VMode) (e : VEntry) (w : Nat) (index : Src) (i : Nat) : Place :=
  let base := (e.op0.getD 0#64).toNat
  let whole (a : Int) : Place := ⟨ofSigned 64 a, w / 8, 0⟩
  let packed (bit : Nat) : Place := ⟨wrap (base + bit / 8), (bit % 8 + w + 7) / 8, bit % 8⟩
  match m with
  | .unit => packed (i * w)
  | .bits => packed ((e.op1.getD 0#64).toNat + i * w)
  | .strided => whole (base + i * toSigned 64 (e.op1.getD 0#64).toNat)
  | .indexed _ => whole (base + toSigned 64 (index i).1)

/-- The base of a unit-stride mode (R292). -/
def VMode.unitBase (m : VMode) (e : VEntry) : Option Nat :=
  match m with
  | .unit => some (e.op0.getD 0#64).toNat
  | _ => none

/-- The addresses of some places that are not aligned to the element (R313). -/
def misplaced (w : Nat) (ps : List Place) : List Nat :=
  if w < 8 then [] else (ps.map Place.va).filter (fun a => a % (w / 8) != 0)

/-- The byte ranges of some places. -/
def rangesOf (ps : List Place) : List (Nat × Nat) := ps.map (fun p => (p.va, p.len))

/-- Values listed by rising index, spread over `n` positions from `i`. -/
def spread : Nat → Nat → List (Nat × α) → List (Option α)
  | 0, _, _ => []
  | n + 1, i, [] => none :: spread n (i + 1) []
  | n + 1, i, (k, v) :: rest => if k = i then some v :: spread n (i + 1) rest else none :: spread n (i + 1) ((k, v) :: rest)

/-- An element from the bytes at its place, with their poison. -/
def elementOf (w : Nat) (p : Place) (bs : List (Byte × Bool)) : Nat × Bool :=
  let v := valueOf bs
  (getBits v.1 p.sub w, v.2)

/-- The byte writes of an element at its place: only its own bits (R313). -/
def elementWrites (w : Nat) (p : Place) (l : List Piece) (v : Nat) (bad : Bool) : List ByteWrite :=
  throughPieces l <| (List.zip (pieceKeys l) (List.zip (toBytes p.len (v % 2 ^ w * 2 ^ p.sub)) (toBytes p.len ((2 ^ w - 1) * 2 ^ p.sub)))).map
    (fun b => ⟨b.1, b.2.1, b.2.2, bad, .cached⟩)

/-! The paths of the load-store unit (R292). -/

/-- The event of the path a 64-byte chunk takes, none where no counter counts it (R292, R433): `lane` is the physical lane that holds
its bytes, where the access is unit-stride from a multiple of 64. -/
def chunkEvent (core : Nat) (ap : Aperture) (line : Nat) (lane : Option Nat) : Option Nat :=
  match ap with
  | .absoluteScratchpad => some 0x13
  | .gangScratchpad => some 0x13
  | .memoryControl => none
  | .cxl => none
  | _ =>
    if 2 ^ 53 ≤ line * 64 then none
    else if line * 64 / regionSpan ≠ core / 32 then some 0x14
    else if lane = some (line % 16) ∧ ap ≠ .nearMemory then some 0x12
    else some 0x13

/-- The physical lane of a piece of a unit-stride access from a base (R30, R292). -/
def State.laneAt (s : State) (base : Option Nat) (c : Piece) : Option Nat :=
  base.bind (fun b =>
    if b % 64 = 0 then some (nthLane (s.quadsOf s.hart) ((c.va + 2 ^ 64 - b) % 2 ^ 64 / 64 % s.lanes s.hart)) else none)

/-- Pieces with one for each 64-byte line of an aperture. -/
def onePerLine (l : List Piece) : List Piece :=
  l.foldl (fun acc c => if acc.any (fun d => d.ap == c.ap && d.key / 64 == c.key / 64) then acc else acc ++ [c]) []

/-- The chunks of an access counted on the paths they take, one for each line it touches (R292, R433; log 59). -/
def State.countChunks (s : State) (e : VEntry) (base : Option Nat) (l : List Piece) : State :=
  if l.isEmpty then s
  else
    let core := coreOfHart s.hart.hid
    let evs := (onePerLine l).filterMap (fun c => chunkEvent core c.ap (c.key / 64) (s.laneAt base c))
    [0x12, 0x13, 0x14].foldl (fun t ev => t.countHart ev ((evs.filter (· == ev)).length) e.mode) s

/-- What a probed access of the active elements gives: their indices with their places and pieces, the marks its probe leaves, and
the state after it. -/
structure Accessed where
  elems : List (Nat × Place × List Piece)
  marks : List LeafMark
  after : State

/-- Whether the places or the mask of an access depend on vector registers. -/
def VMode.dependent (m : VMode) (mask : MaskNo) : Bool := mask != 0#3 || (match m with | .indexed _ => true | _ => false)

/-- The unit in which the elements of a load are read: an element, or each byte of e4 and e6 ones; an ordered load reads the elements of
one line as one, and others as they are (R324, R366, R369; log 8). -/
def loadUnit (h : Hart) (m : VMode) (mask : MaskNo) (ordered : Bool) (w : Nat) (pieces : List Piece) : Nat :=
  h.unitOf (m.dependent mask)
    (if ordered then (if pieces.all (fun c => c.key / 64 == (pieces.head?.elim 0 Piece.key) / 64) then 64 else 0) else max 1 (w / 8))

/-- The active elements' access of a mode, probed; a poisoned index element traps after it (R310, R314, R319). -/
def accessElems (m : VMode) (mask : MaskNo) (write : Bool) (accept : Aperture → Bool → Bool) (e : VEntry) (s : State) :
    Except Stop Accessed := do
  let w := s.cfg.w
  let idx := m.index s
  let act := s.actives mask
  let places := act.map (m.place e w idx)
  let rs : List ProbeReq := [⟨s.entryAgent e, write, rangesOf places, misplaced w places, accept⟩]
  let (ps, s1) ← probeFor e s write rs
  needProbed e 9 (probeMarks rs ps) (!(act.any (fun i => (idx i).2)))
  let pieces := ps.flatMap Probed.pieces
  .ok ⟨List.zip act (List.zip places pieces), probeMarks rs ps, s1.countChunks e (m.unitBase e) (pieces.flatMap id)⟩

/-! Loads and stores (R322 to R327). -/

/-- The elements loaded in units of `u` bytes, by index. -/
def Accessed.load (a : Accessed) (u w : Nat) : List (Nat × (Nat × Bool)) :=
  a.elems.map (fun x => (x.1, elementOf w x.2.1 (readPieces u a.after x.2.2)))

/-- The pieces of the elements. -/
def Accessed.pieces (a : Accessed) : List Piece := a.elems.flatMap (fun x => x.2.2)

/-- The state once the elements are loaded. -/
def Accessed.loaded (a : Accessed) (u : Nat) : State := a.after.onHart (Hart.observe u a.pieces)

/-- `vld` and `vld.b`, and where `ordered` holds `vldo` (R322 to R324). -/
def vldOp (ordered : Bool) (m : VMode) (mask : MaskNo) (d : BitVec 5) (e : VEntry) (s : State) : VRes := keeping s do
  let c := s.cfg
  needVtype e c
  need e 1 (m.ok e c && groupOk d.toNat c.g)
  let s1 ← admission e s (m.reads c) (ownDest c d) (microOpsOf (ownDest c d).length)
  let s2 ← drainVsq s1
  let a ← accessElems m mask false acceptAll e s2
  let u := loadUnit s.hart m mask ordered c.w a.pieces
  .ok (writeGroup (a.loaded u) d.toNat c.g c.sew (spread c.vl 0 (a.load u c.w)))

/-- Which bytes of the gang scratchpad window a `vld.w` takes: those an arrival copy has brought (R298, R325). -/
def arrived (s : State) (l : List Piece) : Bool :=
  (pieceKeys l).all (fun k =>
    match bankOfKey k with
    | some (c, b, o) => decide (o / 8 * 8 + 8 ≤ arrivalPointer s c b)
    | none => true)

/-- The stores before a pending arrival copy performed; all of them where a store stands behind it (R321, R325). -/
def drainToCopy (s : State) : Except Stop State :=
  match s.hart.vsq.findIdx? (fun x => x.arrival) with
  | some k =>
    if k + 1 = s.hart.vsq.length then
      match (s.hart.vsq.take k).findSome? (entryWait s) with
      | some r => .error (.wait r s)
      | none => .ok (s.performAll (s.hart.vsq.take k) (s.hart.vsq.drop k))
    else drainVsq s
  | none => drainVsq s

/-- `vld.w` (R325). -/
def vldWOp (mask : MaskNo) (d : BitVec 5) (e : VEntry) (s : State) : VRes := keeping s do
  let c := s.cfg
  needVtype e c
  need e 1 (groupOk d.toNat c.g)
  let s1 ← admission e s [] (ownDest c d) (microOpsOf (ownDest c d).length)
  let s2 ← drainToCopy s1
  let a ← accessElems .unit mask false (fun ap _ => ap == .gangScratchpad) e s2
  if a.elems.all (fun x => arrived a.after x.2.2) then
    .ok (writeGroup (a.loaded 0) d.toNat c.g c.sew (spread c.vl 0 (a.load 0 c.w)))
  else .error (.wait .memory s)

/-- A store form's writes handed over (R318), with the kinds of their pages and the ARIT entries of an engine form. -/
def storeElems (s : State) (pieces : List (List Piece)) (ws : List ByteWrite) (arrival : Bool) (arit : List AritEntry) : State :=
  s.pushStore ⟨ws, pieces.flatMap pieceKinds, arrival, arit, []⟩

/-- `vst`, `vst.b` and `vsto` (R322 to R324). -/
def vstOp (m : VMode) (mask : MaskNo) (v : BitVec 5) (e : VEntry) (s : State) : VRes := keeping s do
  let c := s.cfg
  needVtype e c
  need e 1 (m.ok e c && groupOk v.toNat c.g)
  vsqRoom s
  let r := readBelow c v.toNat c.g c.sew c.vl
  let s1 ← admission e s (m.reads c ++ [r]) [] (readMicroOps (m.reads c ++ [r]))
  let a ← accessElems m mask true acceptAll e s1
  let x := groupSrc s1 v.toNat c.g c.sew
  needProbed e 9 a.marks (!(a.elems.any (fun y => (x y.1).2)))
  .ok (if a.elems.isEmpty then a.after
    else storeElems a.after (a.elems.map (fun y => y.2.2))
      (a.elems.flatMap (fun y => elementWrites c.w y.2.1 y.2.2 (x y.1).1 false)) false [])

/-- `vld.q` (R326). With `vl` = 0 it places no delivery (log 58). -/
def vldQOp (m : VMode) (mask : MaskNo) (q : QueueNo) (e : VEntry) (s : State) : VRes := keeping s do
  let c := s.cfg
  needVtype e c
  let size := ceilDiv (c.vl * c.w) (64 * c.lanes)
  let held := (((s.hart.loadq[q.toNat]).map Delivery.groups)).foldl (· + ·) 0
  need e 1 (m.ok e c && decide (held + size ≤ Config.loadQueueGroups))
  let s1 ← admission e s (m.reads c) [] (readMicroOps (m.reads c))
  let s2 ← drainVsq s1
  let a ← accessElems m mask false acceptAll e s2
  let u := loadUnit s.hart m mask false c.w a.pieces
  let (v, _, p) := packElems c.w ((spread c.vl 0 (a.load u c.w)).map (fun x => some (x.getD (0, false))))
  let d : Delivery := ⟨size, BitVec.ofNat 8192 v, BitVec.ofNat 1024 (bytesTouched p 1024)⟩
  .ok (if c.vl = 0 then a.after
    else (a.loaded u).onHart (fun h => { h with loadq := h.loadq.set q.toNat (h.loadq[q.toNat] ++ [d]) }))

/-- `vpf` (R327): it moves lines only; its other checks hold at a width that its mode admits. -/
def vpfOp (m : VMode) (e : VEntry) (s : State) : VRes := do
  let c := s.cfg
  needVtype e c
  if 8 ≤ c.w then
    need e 1 (m.ok e c)
    admission e s (m.reads c) [] (readMicroOps (m.reads c))
  else admission e s [] [] 0

/-! Atomics (R334 to R336). -/

/-- The width check of an atomic operation (R334). -/
def atomicOk (o : AtomicOp) (c : VCfg) : Bool :=
  match o with
  | .fadd => decide (16 ≤ c.w) && c.fmt.isSome
  | _ => decide (8 ≤ c.w)

/-- The new value of an atomic operation, with its flags (R334). -/
def atomicNew (o : AtomicOp) (c : VCfg) (old v : Nat) : Nat × Nat :=
  let lt := decide (toSigned c.w old < toSigned c.w v)
  match o with
  | .add => ((old + v) % 2 ^ c.w, 0)
  | .fadd =>
    match c.fmt with
    | some f => fAdd f .rne (decodeFloat f old) (decodeFloat f v)
    | none => (0, 0)
  | .min => (if lt then old else v, 0)
  | .max => (if lt then v else old, 0)
  | .minz => (if old < v then old else v, 0)
  | .maxz => (if old < v then v else old, 0)
  | .or => (old ||| v, 0)
  | .swap => (v, 0)

/-- The progress of an atomic over its elements: the results by index, the flags, the state. -/
structure AtomicRun where
  res : List (Nat × (Nat × Bool))
  flags : Nat
  after : State

/-- One element of an atomic: a single read-modify-write (R334, R336). -/
def atomicElem (o : AtomicOp) (c : VCfg) (x : Src) (r : AtomicRun) (y : Nat × Place × List Piece) : AtomicRun :=
  let old := elementOf c.w y.2.1 (readNow r.after y.2.2)
  let new := atomicNew o c old.1 (x y.1).1
  ⟨(y.1, old) :: r.res, r.flags ||| new.2,
   performEntry ⟨elementWrites c.w y.2.1 y.2.2 new.1 old.2, pieceKinds y.2.2, false, [], []⟩ r.after⟩

/-- Elements by address, equal addresses by index (R334). -/
def insertPlace (y : Nat × Place × List Piece) : List (Nat × Place × List Piece) → List (Nat × Place × List Piece)
  | [] => [y]
  | z :: zs => if y.2.1.va < z.2.1.va then y :: z :: zs else z :: insertPlace y zs

/-- The 64-byte lines of some pieces, rising. -/
def linesTouched (l : List (List Piece)) : List Nat := risingOf (l.flatMap (fun ps => ps.map (fun p => p.key / 64)))

/-- Lines locked by the current hart: their reservations are lost (R113, R334). -/
def State.lockLines (s : State) (lines : List Nat) : State :=
  dropReservations lines { s with locks := s.locks ++ lines.map (fun l => ⟨s.hart.hid, l⟩) }

/-- Results by rising index. -/
def insertResult (y : Nat × α) : List (Nat × α) → List (Nat × α)
  | [] => [y]
  | z :: zs => if y.1 < z.1 then y :: z :: zs else z :: insertResult y zs

/-- Apertures of the vector atomics and of descriptors (R320). -/
def acceptAtomic (ap : Aperture) (_ : Bool) : Bool := ap == .cached || ap == .gangScratchpad

/-- `vamo` (`locks`) and `vupd.o` (R334, R335). -/
def atomicOp (locks : Bool) (o : AtomicOp) (mask : MaskNo) (b d : BitVec 5) (e : VEntry) (s : State) : VRes := keeping s do
  let c := s.cfg
  let m := VMode.indexed b.toNat
  needVtype e c
  need e 1 (m.ok e c && atomicOk o c && groupOk d.toNat c.g)
  vsqRoom s
  let r := readBelow c d.toNat c.g c.sew c.vl
  let dest := if locks then ownDest c d else []
  let s1 ← admission e s (m.reads c ++ [r]) dest (if locks then microOpsOf r.used else readMicroOps (m.reads c ++ [r]))
  let s2 ← drainVsq s1
  let a ← accessElems m mask true acceptAtomic e s2
  let x := groupSrc s2 d.toNat c.g c.sew
  needProbed e 9 a.marks (!(a.elems.any (fun y => (x y.1).2)))
  let order := if locks then a.elems.foldl (fun acc y => insertPlace y acc) [] else a.elems
  let start := if locks then a.after.lockLines (linesTouched (a.elems.map (fun y => y.2.2))) else a.after
  let run := order.foldl (atomicElem o c x) ⟨[], 0, start⟩
  let t := run.after.onHart (fun h => (h.orFlags run.flags).observe 0 a.pieces)
  .ok (if locks then writeGroup t d.toNat c.g c.sew (spread c.vl 0 (run.res.foldl (fun acc y => insertResult y acc) []))
    else t)

/-! Anchored loads and stores (R93, R104, R105, R328 to R330). -/

/-- The checks that `ald`, `ald.c` and `ast` share (R328). -/
def needField (e : VEntry) (c : VCfg) (v : BitVec 5) : Except Stop Unit := do
  needVtype e c
  need e 1 (c.block != 0 && groupOk v.toNat c.g)

/-- The requests for the cells and the descriptors of a field (R93, R320). -/
def fieldReqs (e : VEntry) (s : State) (write : Bool) : List ProbeReq :=
  let c := s.cfg
  let cell := (e.op0.getD 0#64).toNat
  let desc := (e.op1.getD 0#64).toNat
  if c.blocks = 0 then []
  else
    [⟨s.entryAgent e, write, [(cell, c.cells * c.w / 8)], if c.w < 8 ∨ cell % (c.w / 8) = 0 then [] else [cell], acceptAll⟩,
     ⟨s.entryAgent e, write, [(desc, 16 * c.blocks)], if desc % 16 = 0 then [] else [desc], acceptAtomic⟩]

/-- The pieces of the two requests. -/
def fieldPieces (ps : List Probed) : List Piece × List Piece :=
  match ps with
  | [a, b] => (a.pieces.flatMap id, b.pieces.flatMap id)
  | _ => ([], [])

/-- Whether a descriptor passes R90 at a block size and a width. -/
def descOk (c : VCfg) (x : Nat) : Bool :=
  getBits x 72 8 == geomByte c.block c.w && getBits x 96 32 == 0

/-- Block `k` of a field as read. -/
def blockRead (c : VCfg) (cells descs : List (Byte × Bool)) (k : Nat) : BlockRead :=
  let n := c.block * c.w / 8
  let d := valueOf ((descs.drop (16 * k)).take 16)
  let bytes := (cells.drop (n * k)).take n
  ⟨d.1, d.2, ofBytes (bytes.map (fun b => b.1)),
   (bytes.zipIdx).foldl (fun acc b => if b.1.2 then acc + 2 ^ b.2 else acc) 0⟩

/-- The blocks of a field from the bytes of its cells and descriptors; `skip` lists blocks that need no read. -/
def blocksOf (c : VCfg) (cells descs : List (Byte × Bool)) (skip : List Nat) : List (Nat × BlockRead) :=
  ((List.range c.blocks).filter (fun k => !(skip.contains k))).map (fun k => (k, blockRead c cells descs k))

/-- The blocks of a field as they are now. -/
def blocksNow (s : State) (ps : List Probed) (skip : List Nat) : List (Nat × BlockRead) :=
  let (cp, dp) := fieldPieces ps
  blocksOf s.cfg (readPieces 0 s cp) (readPieces 0 s dp) skip

/-- Blocks as they are read, checked by R319 and R90, after a probe that leaves some marks. -/
def checkField (e : VEntry) (c : VCfg) (ms : List LeafMark) (l : List (Nat × BlockRead)) : Except Stop Unit := do
  needProbed e 9 ms (!(l.any (fun b => b.2.badDesc)))
  match l.find? (fun b => !(descOk c b.2.desc)) with
  | some b => .error (.trap 13 (BitVec.ofNat 64 (wrap ((e.op1.getD 0#64).toNat + 16 * b.1))) (.marked ms))
  | none => .ok ()

/-- The unit in which an `ald` reads its cells: an element, or each byte of e4 and e6 ones (R366). -/
def cellUnit (c : VCfg) : Nat := max 1 (c.w / 8)

/-- The descriptors an `ald` reads: those it has read ahead in the window, else as they are read now, in halves of 8 bytes (R105, R366). -/
def fieldDescs (s : State) (ps : List Probed) : List (Byte × Bool) :=
  (s.hart.window.bind InFlight.descs).getD (readPieces 8 s (fieldPieces ps).2)

/-- The chunks of a field's cells and descriptors counted (R292). -/
def countField (e : VEntry) (ps : List Probed) (s : State) : State :=
  let (cp, dp) := fieldPieces ps
  (s.countChunks e (e.op0.map BitVec.toNat) cp).countChunks e (e.op1.map BitVec.toNat) dp

/-- Blocks loaded: the cells to the group, the descriptors to its octet (R328). -/
def writeField (s : State) (d : BitVec 5) (blocks : List (Nat × BlockRead)) : State :=
  let c := s.cfg
  let s1 := s.onHart (fun h => blocks.foldl (fun acc b => acc.setDesc (octetOf d.toNat) b.1 (BitVec.ofNat 128 b.2.desc)) h)
  writeGroup s1 d.toNat c.g c.sew ((blocks.flatMap (fun b => (List.range c.block).map (fun i =>
    let lo := i * c.w / 8
    some (getBits b.2.cells (i * c.w) c.w, getBits b.2.badCells lo (ceilDiv ((i + 1) * c.w) 8 - lo) != 0)))))

/-- `ald` (R328). -/
def aldOp (d : BitVec 5) (e : VEntry) (s : State) : VRes := keeping s do
  let c := s.cfg
  needField e c d
  let dest := cellDest c d.toNat c.g c.w
  let s1 ← admission e s [] dest (microOpsOf dest.length)
  let s2 ← drainVsq s1
  let (ps, s3) ← probeFor e s2 false (fieldReqs e s2 false)
  let (cp, dp) := fieldPieces ps
  let l := blocksOf c (readPieces (cellUnit c) s3 cp) (fieldDescs s3 ps) []
  checkField e c (probeMarks (fieldReqs e s2 false) ps) l
  .ok (writeField ((countField e ps s3).onHart (fun h => (h.observe (cellUnit c) cp).observe 8 dp)) d l)

/-- The descriptors that an `ald` put into the window reads ahead of its cells; none for another word (R105). -/
def aheadDescs (e : VEntry) (s : State) : Option (List (Byte × Bool)) :=
  if e.word.extractLsb' 0 7 == 0x57#7 && e.word.extractLsb' 12 3 == 0#3 && e.word.extractLsb' 28 4 == 8#4 then
    match probe s false (fieldReqs e s false) e.word with
    | .ok ps => some (readPieces 8 s (fieldPieces ps).2)
    | .error _ => none
  else none

/-- The least gap before the attempt after `a` made (R105). -/
def attemptGap (a : Nat) : Nat := min (2 ^ (a - 1)) 128 * 64

/-- The first check and admission of an `ald.c`, made once; a further attempt goes on from what the earlier ones left (R105). -/
def aldcAdmit (d : BitVec 5) (e : VEntry) (s : State) : Except Stop State :=
  let c := s.cfg
  match s.hart.aldc with
  | some _ => .ok s
  | none => do
    needField e c d
    let dest := cellDest c d.toNat c.g c.w
    admission e s [] dest (microOpsOf dest.length)

/-- The blocks of an attempt accepted: D1 and D2 are the same, and the version is even (R105). -/
def acceptBlocks (d1 d2 : List (Nat × BlockRead)) : List (Nat × BlockRead) :=
  d1.filter (fun b => !(b.2.desc.testBit 80) && d2.any (fun x => x.1 == b.1 && x.2.desc == b.2.desc))

/-- The end of an attempt, once D2 is read and checked as D1 is (R90, R319): every block accepted, the last attempt made, or a wait for the
next (R105, R329). -/
def aldcEnd (d : BitVec 5) (e : VEntry) (ps : List Probed) (ms : List LeafMark) (st : AldcState) (d1 : List (Nat × BlockRead))
    (s : State) : VRes := do
  let d2 := blocksNow s ps (st.accepted.map (fun b => b.1))
  let kept := (acceptBlocks d1 d2).foldl (fun acc b => insertResult b acc) st.accepted
  checkField e s.cfg ms d2
  let t := s.onHart (fun h => (h.observe 0 (fieldPieces ps).1).observe 0 (fieldPieces ps).2)
  if kept.length = s.cfg.blocks then .ok ((writeField (countField e ps t) d kept).onHart (fun h => { h with aldc := none }))
  else if st.attempts + 1 = 16 then .error (.trap 13 0#64 (.marked ms))
  else
    .error (.wait .aldc (t.onHart (fun h =>
      { h with aldc := some { st with
          attempts := st.attempts + 1, earliest := s.time.toNat + attemptGap (st.attempts + 1), accepted := kept, first := none } })))

/-- `ald.c`: an attempt (R105, R329). D1 and the cells are read in one step; D2 is read in the same step, or where the schedule holds
the window open in a later one, after what other harts and the own scalar stream have done (log 2). -/
def aldcOp (d : BitVec 5) (e : VEntry) (s : State) : VRes := do
  let s1 ← aldcAdmit d e s
  match (do
      let s2 ← drainVsq s1
      probeFor e s2 false (fieldReqs e s2 false)) with
  | .error (.wait r _) => .error (.wait r s)
  | .error x => .error x
  | .ok (ps, s3) =>
    let ms := probeMarks (fieldReqs e s1 false) ps
    let st := s.hart.aldc.getD ⟨0, 0, [], none, s.hart.satp, s.hart.mstatus.getLsbD 18⟩
    match st.first with
    | some d1 => aldcEnd d e ps ms st d1 s3
    | none => do
      let d1 := blocksNow s3 ps (st.accepted.map (fun b => b.1))
      checkField e s3.cfg ms d1
      if s.hart.holdWindow then .error (.wait .aldc (s3.onHart (fun h => { h with aldc := some { st with first := some d1 } })))
      else aldcEnd d e ps ms st d1 s3

/-- A descriptor as `ast` writes it: the register's anchor and qexp, the current geometry, the next even version (R104, R330). -/
def storedDesc (c : VCfg) (reg : BitVec 128) (v : Nat) : Nat :=
  (makeDesc (descAnchor reg) (descQexp reg) (geomByte c.block c.w) (setBit v 0 true + 1)).toNat

/-- The memory version of block `k` among the bytes of some descriptors: bits [95:80] (R88). -/
def memVersion (old : List Byte) (k : Nat) : Nat := ofBytes (((old.drop (16 * k)).drop 10).take 2)

/-- The first writes of `ast`: the version v of every block becomes v | 1 (R104). -/
def oddVersions (dp : List Piece) (old : List Byte) (blocks : Nat) : List ByteWrite :=
  let ws := pieceWrites dp old
  (List.range blocks).flatMap (fun k =>
    (List.zip ((ws.drop (16 * k + 10)).take 2) (toBytes 2 (setBit (memVersion old k) 0 true))).map (fun p => { p.1 with value := p.2 }))

/-- `ast` (R104, R330). -/
def astOp (v : BitVec 5) (e : VEntry) (s : State) : VRes := keeping s do
  let c := s.cfg
  needField e c v
  vsqRoom s
  let r := readCells c v.toNat
  let s1 ← admission e s [r] [] (microOpsOf r.used)
  let s2 ← drainVsq s1
  let (ps, s3) ← probeFor e s2 true (fieldReqs e s2 true)
  let x := groupSrc s3 v.toNat c.g c.sew
  needProbed e 9 (probeMarks (fieldReqs e s2 true) ps) (!((List.range c.cells).any (fun i => (x i).2)))
  let (cp, dp) := fieldPieces ps
  let s4 := (countField e ps s3).lockLines (linesTouched [dp])
  let (cells, _, _) := packElems c.w ((List.range c.cells).map (fun i => some (x i)))
  let old := pieceBytes s4 dp
  let descs := (List.range c.blocks).flatMap (fun k => toBytes 16 (storedDesc c (s4.hart.desc (octetOf v.toNat) k) (memVersion old k)))
  let ws := oddVersions dp old c.blocks ++ pieceWrites cp (toBytes (c.cells * c.w / 8) cells) ++ pieceWrites dp descs
  .ok (if c.blocks = 0 then s3
    else performEntry ⟨ws, pieceKinds (cp ++ dp), false, [], []⟩ (s4.onHart (Hart.refresh (ws.map ByteWrite.key))))

/-! Tile rows (R331). -/

/-- The checks of `mld` and `mst`. -/
def needTileRows (e : VEntry) (s : State) (t : TileNo) : Except Stop Unit := do
  needVtype e s.cfg
  need e 1 (s.cfg.sew == 4 && !s.cfg.alt)
  needTile e s t

/-- The rows of the rectangle as byte ranges. -/
def tileRanges (e : VEntry) (s : State) : List (Nat × Nat) :=
  let n := 4 * s.cfg.cols
  if n = 0 then []
  else (List.range s.hart.vrow.toNat).map (fun (i : Nat) =>
    (ofSigned 64 ((e.op0.getD 0#64).toNat + (i : Int) * toSigned 64 (e.op1.getD 0#64).toNat), n))

/-- The request of a tile access: every element of a row that does not begin at a multiple of 4 is misaligned (R313, R315). -/
def tileReq (e : VEntry) (s : State) (write : Bool) : ProbeReq :=
  let r := tileRanges e s
  plainReq s e write r ((r.filter (fun x => x.1 % 4 != 0)).flatMap (fun x => (List.range (x.2 / 4)).map (fun j => wrap (x.1 + 4 * j))))

/-- Words of some bytes with their poison, four bytes each. -/
def wordsOf : Nat → List (Byte × Bool) → List (Nat × Bool)
  | 0, _ => []
  | n + 1, bs => valueOf (bs.take 4) :: wordsOf n (bs.drop 4)

/-- `mld`. -/
def mldOp (t : TileNo) (e : VEntry) (s : State) : VRes := keeping s do
  needTileRows e s t
  aritRoom s 1
  let s1 ← admission e s [] [] 0
  let s2 ← drainVsq s1
  let (ps, s3) ← probeFor e s2 false [tileReq e s2 false]
  let pieces := ps.flatMap Probed.pieces
  let rows := pieces.map (fun l => wordsOf s3.cfg.cols (readPieces 4 s3 l))
  .ok (((s3.countChunks e none (pieces.flatMap id)).onHart (Hart.observe 4 (pieces.flatMap id))).onHart (fun h => h.setT t ((rows.zipIdx).foldl (fun acc r => acc.setRow r.2 r.1) (h.getT t))))

/-- `mst`. -/
def mstOp (t : TileNo) (e : VEntry) (s : State) : VRes := keeping s do
  needTileRows e s t
  vsqRoom s
  aritRoom s 1
  let s1 ← admission e s [] [] 0
  let s2 ← drainVsq s1
  let rs := [tileReq e s2 true]
  let (ps, s3) ← probeFor e s2 true rs
  let n := s3.cfg.cols
  let tile := s3.hart.getT t
  let pieces := ps.flatMap Probed.pieces
  needProbed e 9 (probeMarks rs ps) (!((pieces.zipIdx).any (fun p => (List.range n).any (fun j => tile.bad p.2 j))))
  .ok (if pieces.isEmpty then s3
    else storeElems (s3.countChunks e none (pieces.flatMap id)) pieces ((pieces.zipIdx).flatMap (fun p =>
      pieceWrites p.1 ((List.range n).flatMap (fun j => toBytes 4 (tile.elem p.2 j))))) false (s3.aritEntries rs ps))

/-! Copies and fills (R332, R333). -/

/-- Bytes that `vl` elements take, or the trap where they do not fill bytes. -/
def needBytes (e : VEntry) (c : VCfg) : Except Stop Nat := do
  needVtype e c
  need e 1 (c.vl * c.w % 8 == 0)
  .ok (c.vl * c.w / 8)

/-- The requests of a copy: nothing where it moves no byte. -/
def copyReqs (arrival : Bool) (e : VEntry) (s : State) (n : Nat) : List ProbeReq :=
  if n = 0 then []
  else
    [plainReq s e false [((e.op0.getD 0#64).toNat, n)] [],
     { plainReq s e true [((e.op1.getD 0#64).toNat, n)] [] with
       accept := fun ap _ => !arrival || ap == .gangScratchpad }]

/-- The ARIT entries of a copy: its source and its destination (R321). -/
def copyArit (arrival : Bool) (s : State) (rs : List ProbeReq) (ps : List Probed) : List AritEntry :=
  (s.aritEntries rs ps).map (fun a => { a with copy := arrival && a.write })

/-- Whether some keys lie in a bank. -/
def touchesBank (core bank : Nat) (keys : List Nat) : Bool :=
  keys.any (fun k => (bankOfKey k).any (fun b => b.1 == core && b.2.1 == bank))

/-- Whether an arrival copy of a hart is in flight to a bank: in its VSQ or in its window (R298). -/
def Hart.copiesTo (core bank : Nat) (h : Hart) : Bool :=
  h.vsq.any (fun x => x.arrival && touchesBank core bank (x.writes.map ByteWrite.key)) ||
  h.window.any (fun w => w.arit.any (fun a => a.copy && touchesBank core bank (a.bytes.map (fun b => b.2.1))))

/-- Whether an arrival copy may be admitted: none other on its core is in flight to a bank it touches. The one in the window has been
admitted (R298). -/
def arrivalFree (s : State) (keys : List Nat) : Bool :=
  s.hart.window.isSome || !((banksTouched keys).any (fun b => s.harts.any (Hart.copiesTo b.1.1 b.1.2)))

/-- `vcpy` with its arrival flag (R298, R332); the z flag changes no byte. -/
def vcpyOp (arrival : Bool) (e : VEntry) (s : State) : VRes := keeping s do
  let n ← needBytes e s.cfg
  vsqRoom s
  aritRoom s 2
  let s1 ← admission e s [] [] 0
  let s2 ← drainVsq s1
  let rs := copyReqs arrival e s2 n
  let (ps, s3) ← probeFor e s2 true rs
  match ps with
  | [src, dst] =>
    let source := src.pieces.flatMap id
    let target := dst.pieces.flatMap id
    let ws := throughPieces target ((List.zip (pieceKeys target) (readPieces 1 s3 source)).map (fun p =>
      (⟨p.1, p.2.1, 0xFF#8, p.2.2, .cached⟩ : ByteWrite)))
    if arrival && !(arrivalFree s3 (pieceKeys target)) then .error (.wait .memory s)
    else .ok (storeElems ((s3.countChunks e none (source ++ target)).onHart (Hart.observe 1 source)) dst.pieces ws arrival (copyArit arrival s3 rs ps))
  | _ => .ok s3

/-- The request of a fill: nothing where it writes no byte. -/
def fillReqs (e : VEntry) (s : State) (n : Nat) : List ProbeReq :=
  let w := s.cfg.w
  let base := (e.op0.getD 0#64).toNat
  if n = 0 then [] else [plainReq s e true [(base, n)] (if w < 8 ∨ base % (w / 8) = 0 then [] else [base])]

/-- `vfill` (R333). -/
def vfillOp (e : VEntry) (s : State) : VRes := keeping s do
  let c := s.cfg
  let n ← needBytes e c
  vsqRoom s
  aritRoom s 1
  let s1 ← admission e s [] [] 0
  let s2 ← drainVsq s1
  let rs := fillReqs e s2 n
  let (ps, s3) ← probeFor e s2 true rs
  let v := (e.op1.getD 0#64).toNat
  let (img, _, _) := packElems c.w ((List.range c.vl).map (fun _ => some (v, false)))
  let pieces := ps.flatMap Probed.pieces
  .ok (if n = 0 then s3
    else storeElems (s3.countChunks e none (pieces.flatMap id)) pieces (pieceWrites (pieces.flatMap id) (toBytes n img)) false
      (s3.aritEntries rs ps))

/-! Near-memory commands (R337 to R340). -/

/-- The fields of a command block (R338). -/
structure NmBlock where
  op : Nat
  fmt : Nat
  n : Nat
  dst : Nat
  src : Nat
  a : BitVec 32
  b : BitVec 32
deriving DecidableEq, Repr

/-- A command block from its 64 bytes. -/
def nmBlock (x : Nat) : NmBlock :=
  ⟨getBits x 0 8, getBits x 8 8, getBits x 32 32, getBits x 64 64, getBits x 128 64, BitVec.ofNat 32 (getBits x 192 32),
   BitVec.ofNat 32 (getBits x 224 32)⟩

/-- Whether an operation reads a source (R338). -/
def nmUsesSource (op : Nat) : Bool := op == 1 || op == 2 || op == 4 || op == 5

/-- Whether a command block is well formed (R338). -/
def nmBlockOk (x : Nat) : Bool :=
  let k := nmBlock x
  decide (k.op ≤ 5) && decide (k.fmt ≤ 1) && getBits x 16 16 == 0 && getBits x 256 256 == 0 &&
  decide (1 ≤ k.n) && decide (k.n ≤ 256) && k.dst % 64 == 0 && k.src % 64 == 0 &&
  (if nmUsesSource k.op then
     k.src == k.dst || decide (k.dst + 64 * k.n ≤ k.src) || decide (k.src + 64 * k.n ≤ k.dst)
   else k.src == 0)

/-- The lines of a command as ranges. -/
def nmRanges (base n : Nat) : List (Nat × Nat) := (List.range n).map (fun l => (wrap (base + 64 * l), 64))

/-- Apertures of near-memory lines: home regions of this device (R320). -/
def acceptLines (ap : Aperture) (isLocal : Bool) : Bool :=
  isLocal && (ap == .cached || ap == .uncached || ap == .nearMemory)

/-- Commands that hold an NQ entry of the current hart (R337). -/
def State.ownCommands (s : State) : List NmCommand :=
  s.nq.filter (fun c => s.hart.gang == some c.gang && s.hart.rank == c.rank && c.held)

/-- The keys of probed lines. -/
def lineKeys (p : Probed) : List Nat := p.pieces.filterMap (fun l => l.head?.map Piece.key)

/-- The request of an `nm`'s command block. -/
def blockReq (e : VEntry) (s : State) : ProbeReq := plainReq s e false [((e.op2.getD 0#64).toNat, 64)] []

/-- The requests of an `nm` after its command block: the completion record, the destination lines and the source lines. -/
def nmReqs (e : VEntry) (s : State) (k : NmBlock) : List ProbeReq :=
  let r := (e.op0.getD 0#64).toNat
  let lines (write : Bool) (base : Nat) : ProbeReq := ⟨s.entryAgent e, write, nmRanges base k.n, [], acceptLines⟩
  [plainReq s e true [(r, 64)] (if r % 64 = 0 then [] else [r]), lines true k.dst] ++
    (if nmUsesSource k.op then [lines false k.src] else [])

/-- `nm` (R340). A trap of the command block has no effect at all: the whole probe has not passed then (R388). -/
def nmOp (e : VEntry) (s : State) : VRes := keeping s do
  if Config.nqDepth ≤ s.ownCommands.length then .error (.wait .nmRoom s)
  else
    aritRoom s 1
    let s1 ← admission e s [] [] 0
    let s2 ← drainVsq s1
    let (bp, s3) ← probeFor e s2 true [blockReq e s2]
    let block := bp.flatMap (fun p => p.pieces.flatMap id)
    let v := valueOf (readPieces 1 s3 block)
    need e 9 (!v.2)
    if !(nmBlockOk v.1) then .error (.trap 10 (e.op2.getD 0#64) .plain)
    else
      let k := nmBlock v.1
      aritRoom s (if nmUsesSource k.op then 2 else 1)
      let (ps, s4) ← probeWith busWait e s3 true (nmReqs e s3 k)
      let dst := (ps[1]?).elim [] lineKeys
      let src := (ps[2]?).elim [] lineKeys
      let record := (((ps[0]?).elim [] lineKeys).headD 0)
      let s5 := (risingOf ((dst ++ src).map (fun x => x / 4096))).foldl (fun t p => setPageKind t p 0) s4
      let cmd : NmCommand :=
        { gang := s.hart.gang.getD 0, rank := s.hart.rank, held := true, op := k.op, fmt := k.fmt, n := k.n, dst := dst,
          src := src, a := k.a, b := k.b, record := record, recordAddr := e.op0.getD 0#64,
          kinds := (ps.head?).elim [] (fun p => pieceKinds (p.pieces.flatMap id)), tag := BitVec.ofNat 32 (e.op1.getD 0#64).toNat, done := [], skipped := [], lastTime := 0#64, half := false }
      .ok { (s5.countChunks e none block).onHart (Hart.observe 1 block) with nq := s5.nq ++ [cmd] }

/-! What an engine form in the window holds (R321). -/

/-- The requests that name the ranges of an engine form, with whether it is an arrival copy; none for another word. -/
def engineReqs (e : VEntry) (s : State) : List ProbeReq × Bool :=
  let f4 := (e.word.extractLsb' 28 4).toNat
  let n := s.cfg.vl * s.cfg.w / 8
  if e.word.extractLsb' 0 7 == 0x57#7 && e.word.extractLsb' 12 3 == 0#3 then
    if f4 = 11 then ([tileReq e s false], false)
    else if f4 = 12 then ([tileReq e s true], false)
    else if f4 = 13 then (copyReqs (e.word.getLsbD 8) e s n, e.word.getLsbD 8)
    else if f4 = 14 then (fillReqs e s n, false)
    else if f4 = 15 then
      match probe s true [blockReq e s] e.word with
      | .ok bp => ((nmReqs e s (nmBlock (valueOf (readPieces 1 s (bp.flatMap (fun p => p.pieces.flatMap id)))).1)).drop 1, false)
      | .error _ => ([], false)
    else ([], false)
  else ([], false)

/-- The ARIT entries an engine form takes at its admission (R321). -/
def engineArit (e : VEntry) (s : State) : List AritEntry :=
  let (rs, arrival) := engineReqs e s
  match probe s true rs e.word with
  | .ok ps => copyArit arrival s rs ps
  | .error _ => []

/-- `vld` (R322). -/
def vVld (m : MaskNo) (_a : BitVec 5) (d : BitVec 5) : VEntry → State → VRes := vldOp false .unit m d
/-- Dispatch of `vld`. -/
def execVld (m : MaskNo) (a : BitVec 5) (d : BitVec 5) (s : State) : Res := issue 0 (packWord 0#4 m 0#5 a 0#3 d 0x57#7) (opX s a) (vVld m a d) s

/-- `vld.s` (R322). -/
def vVldS (m : MaskNo) (_b : BitVec 5) (_a : BitVec 5) (d : BitVec 5) : VEntry → State → VRes := vldOp false .strided m d
/-- Dispatch of `vld.s`. -/
def execVldS (m : MaskNo) (b : BitVec 5) (a : BitVec 5) (d : BitVec 5) (s : State) : Res := issue 0 (packWord 0#4 m b a 1#3 d 0x57#7) (opXX s a b) (vVldS m b a d) s

/-- `vld.x` (R322). -/
def vVldX (m : MaskNo) (b : BitVec 5) (_a : BitVec 5) (d : BitVec 5) : VEntry → State → VRes := vldOp false (.indexed b.toNat) m d
/-- Dispatch of `vld.x`. -/
def execVldX (m : MaskNo) (b : BitVec 5) (a : BitVec 5) (d : BitVec 5) (s : State) : Res := issue 0 (packWord 0#4 m b a 2#3 d 0x57#7) (opX s a) (vVldX m b a d) s

/-- `vld.b` (R323). -/
def vVldB (m : MaskNo) (_b : BitVec 5) (_a : BitVec 5) (d : BitVec 5) : VEntry → State → VRes := vldOp false .bits m d
/-- Dispatch of `vld.b`. -/
def execVldB (m : MaskNo) (b : BitVec 5) (a : BitVec 5) (d : BitVec 5) (s : State) : Res := issue 0 (packWord 0#4 m b a 3#3 d 0x57#7) (opXX s a b) (vVldB m b a d) s

/-- `vld.w` (R325). -/
def vVldW (m : MaskNo) (_a : BitVec 5) (d : BitVec 5) : VEntry → State → VRes := vldWOp m d
/-- Dispatch of `vld.w`. -/
def execVldW (m : MaskNo) (a : BitVec 5) (d : BitVec 5) (s : State) : Res := issue 0 (packWord 0#4 m 0#5 a 5#3 d 0x57#7) (opX s a) (vVldW m a d) s

/-- `vst` (R322). -/
def vVst (m : MaskNo) (_a : BitVec 5) (sc : VRegNo) : VEntry → State → VRes := vstOp .unit m sc
/-- Dispatch of `vst`. -/
def execVst (m : MaskNo) (a : BitVec 5) (sc : VRegNo) (s : State) : Res := issue 0 (packWord 1#4 m 0#5 a 0#3 sc 0x57#7) (opX s a) (vVst m a sc) s

/-- `vst.s` (R322). -/
def vVstS (m : MaskNo) (_b : BitVec 5) (_a : BitVec 5) (sc : VRegNo) : VEntry → State → VRes := vstOp .strided m sc
/-- Dispatch of `vst.s`. -/
def execVstS (m : MaskNo) (b : BitVec 5) (a : BitVec 5) (sc : VRegNo) (s : State) : Res := issue 0 (packWord 1#4 m b a 1#3 sc 0x57#7) (opXX s a b) (vVstS m b a sc) s

/-- `vst.x` (R322). -/
def vVstX (m : MaskNo) (b : BitVec 5) (_a : BitVec 5) (sc : VRegNo) : VEntry → State → VRes := vstOp (.indexed b.toNat) m sc
/-- Dispatch of `vst.x`. -/
def execVstX (m : MaskNo) (b : BitVec 5) (a : BitVec 5) (sc : VRegNo) (s : State) : Res := issue 0 (packWord 1#4 m b a 2#3 sc 0x57#7) (opX s a) (vVstX m b a sc) s

/-- `vst.b` (R323). -/
def vVstB (m : MaskNo) (_b : BitVec 5) (_a : BitVec 5) (sc : VRegNo) : VEntry → State → VRes := vstOp .bits m sc
/-- Dispatch of `vst.b`. -/
def execVstB (m : MaskNo) (b : BitVec 5) (a : BitVec 5) (sc : VRegNo) (s : State) : Res := issue 0 (packWord 1#4 m b a 3#3 sc 0x57#7) (opXX s a b) (vVstB m b a sc) s

/-- `vld.q` (R326). -/
def vVldQ (m : MaskNo) (_a : BitVec 5) (q : QueueNo) : VEntry → State → VRes := vldQOp .unit m q
/-- Dispatch of `vld.q`. -/
def execVldQ (m : MaskNo) (a : BitVec 5) (q : QueueNo) (s : State) : Res := issue 0 (packWord 2#4 m 0#5 a 0#3 (0#3 ++ q) 0x57#7) (opX s a) (vVldQ m a q) s

/-- `vld.q.s` (R326). -/
def vVldQS (m : MaskNo) (_b : BitVec 5) (_a : BitVec 5) (q : QueueNo) : VEntry → State → VRes := vldQOp .strided m q
/-- Dispatch of `vld.q.s`. -/
def execVldQS (m : MaskNo) (b : BitVec 5) (a : BitVec 5) (q : QueueNo) (s : State) : Res := issue 0 (packWord 2#4 m b a 1#3 (0#3 ++ q) 0x57#7) (opXX s a b) (vVldQS m b a q) s

/-- `vld.q.x` (R326). -/
def vVldQX (m : MaskNo) (b : BitVec 5) (_a : BitVec 5) (q : QueueNo) : VEntry → State → VRes := vldQOp (.indexed b.toNat) m q
/-- Dispatch of `vld.q.x`. -/
def execVldQX (m : MaskNo) (b : BitVec 5) (a : BitVec 5) (q : QueueNo) (s : State) : Res := issue 0 (packWord 2#4 m b a 2#3 (0#3 ++ q) 0x57#7) (opX s a) (vVldQX m b a q) s

/-- `vldo.s` (R324). -/
def vVldoS (m : MaskNo) (_b : BitVec 5) (_a : BitVec 5) (d : BitVec 5) : VEntry → State → VRes := vldOp true .strided m d
/-- Dispatch of `vldo.s`. -/
def execVldoS (m : MaskNo) (b : BitVec 5) (a : BitVec 5) (d : BitVec 5) (s : State) : Res := issue 0 (packWord 3#4 m b a 1#3 d 0x57#7) (opXX s a b) (vVldoS m b a d) s

/-- `vsto.s` (R324). -/
def vVstoS (m : MaskNo) (_b : BitVec 5) (_a : BitVec 5) (sc : VRegNo) : VEntry → State → VRes := vstOp .strided m sc
/-- Dispatch of `vsto.s`. -/
def execVstoS (m : MaskNo) (b : BitVec 5) (a : BitVec 5) (sc : VRegNo) (s : State) : Res := issue 0 (packWord 4#4 m b a 1#3 sc 0x57#7) (opXX s a b) (vVstoS m b a sc) s

/-- `vldo.x` (R324). -/
def vVldoX (m : MaskNo) (b : BitVec 5) (_a : BitVec 5) (d : BitVec 5) : VEntry → State → VRes := vldOp true (.indexed b.toNat) m d
/-- Dispatch of `vldo.x`. -/
def execVldoX (m : MaskNo) (b : BitVec 5) (a : BitVec 5) (d : BitVec 5) (s : State) : Res := issue 0 (packWord 3#4 m b a 2#3 d 0x57#7) (opX s a) (vVldoX m b a d) s

/-- `vsto.x` (R324). -/
def vVstoX (m : MaskNo) (b : BitVec 5) (_a : BitVec 5) (sc : VRegNo) : VEntry → State → VRes := vstOp (.indexed b.toNat) m sc
/-- Dispatch of `vsto.x`. -/
def execVstoX (m : MaskNo) (b : BitVec 5) (a : BitVec 5) (sc : VRegNo) (s : State) : Res := issue 0 (packWord 4#4 m b a 2#3 sc 0x57#7) (opX s a) (vVstoX m b a sc) s

/-- `vamo` (R334). -/
def vVamo (m : MaskNo) (b : BitVec 5) (_a : BitVec 5) (o : AtomicOp) (d : BitVec 5) : VEntry → State → VRes := atomicOp true o m b d
/-- Dispatch of `vamo`. -/
def execVamo (m : MaskNo) (b : BitVec 5) (a : BitVec 5) (o : AtomicOp) (d : BitVec 5) (s : State) : Res := issue 0 (packWord 5#4 m b a o.bits d 0x57#7) (opX s a) (vVamo m b a o d) s

/-- `vupd.o` (R335). -/
def vVupdO (m : MaskNo) (b : BitVec 5) (_a : BitVec 5) (o : AtomicOp) (sc : VRegNo) : VEntry → State → VRes := atomicOp false o m b sc
/-- Dispatch of `vupd.o`. -/
def execVupdO (m : MaskNo) (b : BitVec 5) (a : BitVec 5) (o : AtomicOp) (sc : VRegNo) (s : State) : Res := issue 0 (packWord 6#4 m b a o.bits sc 0x57#7) (opX s a) (vVupdO m b a o sc) s

/-- `vpf` (R327). -/
def vVpf (_m : MaskNo) (_a : BitVec 5) : VEntry → State → VRes := vpfOp .unit
/-- Dispatch of `vpf`. -/
def execVpf (m : MaskNo) (a : BitVec 5) (s : State) : Res := issue 0 (packWord 7#4 m 0#5 a 0#3 0#5 0x57#7) (opX s a) (vVpf m a) s

/-- `vpf.s` (R327). -/
def vVpfS (_m : MaskNo) (_b : BitVec 5) (_a : BitVec 5) : VEntry → State → VRes := vpfOp .strided
/-- Dispatch of `vpf.s`. -/
def execVpfS (m : MaskNo) (b : BitVec 5) (a : BitVec 5) (s : State) : Res := issue 0 (packWord 7#4 m b a 1#3 0#5 0x57#7) (opXX s a b) (vVpfS m b a) s

/-- `vpf.x` (R327). -/
def vVpfX (_m : MaskNo) (b : BitVec 5) (_a : BitVec 5) : VEntry → State → VRes := vpfOp (.indexed b.toNat)
/-- Dispatch of `vpf.x`. -/
def execVpfX (m : MaskNo) (b : BitVec 5) (a : BitVec 5) (s : State) : Res := issue 0 (packWord 7#4 m b a 2#3 0#5 0x57#7) (opX s a) (vVpfX m b a) s

/-- `ald` (R328). -/
def vAld (_b : BitVec 5) (_a : BitVec 5) (d : BitVec 5) : VEntry → State → VRes := aldOp d
/-- Dispatch of `ald`. -/
def execAld (b : BitVec 5) (a : BitVec 5) (d : BitVec 5) (s : State) : Res := issue 2 (packWord 8#4 0#3 b a 0#3 d 0x57#7) (opXX s a b) (vAld b a d) s

/-- `ald.c` (R329). -/
def vAldC (_b : BitVec 5) (_a : BitVec 5) (d : BitVec 5) : VEntry → State → VRes := aldcOp d
/-- Dispatch of `ald.c`. -/
def execAldC (b : BitVec 5) (a : BitVec 5) (d : BitVec 5) (s : State) : Res := issue 2 (packWord 9#4 0#3 b a 0#3 d 0x57#7) (opXX s a b) (vAldC b a d) s

/-- `ast` (R330). -/
def vAst (_b : BitVec 5) (_a : BitVec 5) (sc : VRegNo) : VEntry → State → VRes := astOp sc
/-- Dispatch of `ast`. -/
def execAst (b : BitVec 5) (a : BitVec 5) (sc : VRegNo) (s : State) : Res := issue 2 (packWord 10#4 0#3 b a 0#3 sc 0x57#7) (opXX s a b) (vAst b a sc) s

/-- `mld` (R331). -/
def vMld (_b : BitVec 5) (_a : BitVec 5) (t : TileNo) : VEntry → State → VRes := mldOp t
/-- Dispatch of `mld`. -/
def execMld (b : BitVec 5) (a : BitVec 5) (t : TileNo) (s : State) : Res := issue 1 (packWord 11#4 0#3 b a 0#3 (0#3 ++ t) 0x57#7) (opXX s a b) (vMld b a t) s

/-- `mst` (R331). -/
def vMst (_b : BitVec 5) (_a : BitVec 5) (t : TileNo) : VEntry → State → VRes := mstOp t
/-- Dispatch of `mst`. -/
def execMst (b : BitVec 5) (a : BitVec 5) (t : TileNo) (s : State) : Res := issue 1 (packWord 12#4 0#3 b a 0#3 (0#3 ++ t) 0x57#7) (opXX s a b) (vMst b a t) s

/-- `vcpy` (R332). -/
def vVcpy (_b : BitVec 5) (_a : BitVec 5) (p : BitVec 1) (_z : BitVec 1) : VEntry → State → VRes := vcpyOp (p == 1#1)
/-- Dispatch of `vcpy`. -/
def execVcpy (b : BitVec 5) (a : BitVec 5) (p : BitVec 1) (z : BitVec 1) (s : State) : Res := issue 0 (packWord 13#4 0#3 b a 0#3 (0#3 ++ p ++ z) 0x57#7) (opXX s a b) (vVcpy b a p z) s

/-- `vfill` (R333). -/
def vVfill (_b : BitVec 5) (_a : BitVec 5) : VEntry → State → VRes := vfillOp
/-- Dispatch of `vfill`. -/
def execVfill (b : BitVec 5) (a : BitVec 5) (s : State) : Res := issue 0 (packWord 14#4 0#3 b a 0#3 0#5 0x57#7) (opXX s a b) (vVfill b a) s

/-- `nm` (R340). -/
def vNm (_b : BitVec 5) (_a : BitVec 5) (_k : BitVec 5) : VEntry → State → VRes := nmOp
/-- Dispatch of `nm`. -/
def execNm (b : BitVec 5) (a : BitVec 5) (k : BitVec 5) (s : State) : Res := issue 3 (packWord 15#4 0#3 b a 0#3 k 0x57#7) ⟨some (s.hart.getX a), some (s.hart.getX b), some (s.hart.getX k)⟩ (vNm b a k) s

end Sys2Proof.Machine
end

