-- ==== Sys2Proof/Machine/Context.lean ====
section
/-! DEFINITION. The context image (R410, R411): written by `vsave` and by a full context switch, read by `vrest` (R412, R413). -/

namespace Sys2Proof.Machine

/-- Bytes of an image with whether each is poisoned. -/
abbrev ImageBytes := List (Byte × Bool)

/-- Clean bytes. -/
def clean (bs : List Byte) : ImageBytes := bs.map (fun b => (b, false))

/-- Zeros to the next multiple of 64 (R410). -/
def pad64 (bs : ImageBytes) : ImageBytes := bs ++ clean (List.replicate (ceilDiv bs.length 64 * 64 - bs.length) 0#8)

/-- The next multiple of 64. -/
def up64 (n : Nat) : Nat := ceilDiv n 64 * 64

/-- `n` bytes of a number with one poison bit each. -/
def bytesWith (n x poison : Nat) : ImageBytes := List.zip (toBytes n x) ((List.range n).map poison.testBit)

/-! Writing (R411). -/

/-- The words of section 1. -/
def contextWords (h : Hart) : List Word :=
  [BitVec.ofNat 64 h.vflags.toNat, BitVec.ofNat 64 h.vfrm.toNat, h.vband, h.avec, h.aepc, h.acause, h.vobm0, h.vobm1,
   BitVec.ofNat 64 h.voutcnt.toNat, h.aqsave, BitVec.ofNat 64 h.vl.toNat, BitVec.ofNat 64 h.vrow.toNat, h.vtype,
   BitVec.ofNat 64 h.gencap.toNat, h.nmError.getD 0#64, h.vepc, h.vcause, h.vtval, h.vqsave, h.vmissrec, h.vmisscnt,
   0#64, 0#64, 0#64]

/-- The number of a tag (R395). -/
def tagBits : ShapeTag → Nat
  | .u => 0 | .a => 1 | .g => 2

/-- The 24-byte record of a register (R395). -/
def shapeRecord (r : VReg) : List Byte :=
  toBytes 8 (if r.tag = .g then 0 else r.base.toNat) ++ toBytes 8 (if r.tag = .a then r.stride.toNat else 0) ++
  toBytes 8 (tagBits r.tag + 4 * r.sew.toNat + 32 * r.grp.toNat)

/-- Registers tagged G, ascending. -/
def generalRegs (h : Hart) : List VReg := h.v.toList.filter (fun r => r.tag == .g)

/-- The masks saved: those that are not 0 (R411). -/
def savedMasks (h : Hart) : List Nat := [1, 2, 3, 4, 5, 6, 7].filter (fun k => ((h.m[k]?).getD 0#16384) != 0#16384)

/-- The anchor registers saved: those with a byte that is not 0 (R411). -/
def savedAnchors (h : Hart) : List Nat := (List.range 4).filter (fun o => (List.range 128).any (fun k => h.desc o k != 0#128))

/-- The rows of a tile that are not elided (R411). -/
def savedRows (t : Tile) : List Nat := (List.range 128).filter (fun i => t.row i != 0)

/-- A set of numbers as a bit mask. -/
def bitsOf (l : List Nat) : Nat := l.foldl (fun acc k => acc + 2 ^ k) 0

/-- A tile's part of section 6. -/
def tileBytes (t : Tile) : ImageBytes :=
  let rows := savedRows t
  clean (toBytes 16 (bitsOf rows)) ++ rows.flatMap (fun i =>
    List.zip (toBytes 512 (t.row i)) ((List.range 512).map (fun b => t.bad i (b / 4))))

/-- The deliveries of the load queues with their queue: q0 to q3, each in its own order, since R411 does not say how the deliveries of different
queues follow one another (DESIGN CHOICE, log 41). -/
def deliveriesOf (h : Hart) : List (Nat × Delivery) :=
  (List.range 4).flatMap (fun q => ((h.loadq[q]?).getD []).map (fun d => (q, d)))

/-- A delivery in section 7. -/
def deliveryBytes (lanes : Nat) (d : Nat × Delivery) : ImageBytes :=
  clean (toBytes 8 (d.1 + 256 * d.2.groups)) ++ bytesWith (d.2.groups * 8 * lanes) d.2.image.toNat d.2.poison.toNat

/-- The eight sections of an image, each padded. -/
def imageSections (h : Hart) (lanes : Nat) (viq : List VEntry) : List ImageBytes :=
  [ clean ((contextWords h).flatMap wordBytes),
    clean (h.v.toList.flatMap shapeRecord),
    (generalRegs h).flatMap (fun r => bytesWith (64 * lanes) r.image.toNat r.poison.toNat),
    clean ((savedMasks h).flatMap (fun k => toBytes 2048 ((h.m[k]?).getD 0#16384).toNat)),
    clean ((savedAnchors h).flatMap (fun o => (List.range 128).flatMap (fun k => toBytes 16 (h.desc o k).toNat))),
    clean (h.sA.toList ++ h.sB.toList) ++ (h.t.toList.take h.ownTiles).flatMap tileBytes,
    clean (h.bq.flatMap (fun b => toBytes 8 (if b then 1 else 0)) ++ h.pigeonhole.flatMap wordBytes) ++
      (deliveriesOf h).flatMap (deliveryBytes lanes),
    clean (viq.flatMap entryBytes) ].map pad64

/-- The offsets of sections from a start. -/
def sectionOffsets : Nat → List Nat → List Nat
  | _, [] => []
  | o, n :: ns => o :: sectionOffsets (o + n) ns

/-- The whole image (R410, R411); the line of a poisoned byte is poisoned. -/
def contextImage (h : Hart) (lanes : Nat) (viq : List VEntry) : ImageBytes :=
  let ss := imageSections h lanes viq
  let size := 64 + (ss.map List.length).foldl (· + ·) 0
  let header := toBytes 4 0x43564C41 ++ toBytes 2 1 ++ toBytes 2 (if h.anchorHandler then 1 else 0) ++ toBytes 4 size ++
    [byteOf lanes, byteOf (generalRegs h).length, byteOf (bitsOf (savedMasks h) / 2), byteOf (bitsOf (savedAnchors h)),
     byteOf (2 ^ h.ownTiles - 1), byteOf viq.length, byteOf h.bq.length, byteOf h.pigeonhole.length,
     byteOf (deliveriesOf h).length] ++ List.replicate 11 0#8 ++
    (sectionOffsets 64 (ss.map List.length)).flatMap (toBytes 4)
  clean header ++ ss.flatMap id

/-- The size of the image a save would write (R411, `vctxsz`). -/
def contextSize (h : Hart) (lanes : Nat) : Nat := (contextImage h lanes []).length

/-- Poison spread over each 64-byte line, by at most `n` lines (R411). -/
def poisonLines : Nat → ImageBytes → ImageBytes
  | 0, _ => []
  | n + 1, bs =>
    let line := bs.take 64
    let bad := line.any (fun b => b.2)
    line.map (fun b => (b.1, bad)) ++ poisonLines n (bs.drop 64)

/-! Reading (R413). -/

/-- An image being read: its bytes as one number and the poison of its bytes. -/
structure Image where
  size : Nat
  value : Nat
  poison : Nat
deriving DecidableEq, Repr

/-- An image from its bytes. -/
def Image.ofBytes (bs : ImageBytes) : Image :=
  ⟨bs.length, Machine.ofBytes (bs.map (fun b => b.1)),
   bs.foldr (fun b acc => (if b.2 then 1 else 0) + 2 * acc) 0⟩

/-- `n` bytes at an offset, as a number. -/
def Image.get (x : Image) (off n : Nat) : Nat := getBits x.value (8 * off) (8 * n)

/-- The poison bits of `n` bytes at an offset. -/
def Image.bad (x : Image) (off n : Nat) : Nat := getBits x.poison off n

/-- Where the parts of an image lie, from its own fields (R410, R411). -/
structure ImageMap where
  lanes : Nat
  general : Nat
  masks : Nat
  anchors : Nat
  tiles : Nat
  nViq : Nat
  nBq : Nat
  nPh : Nat
  nVlq : Nat
  regsAt : Nat
  masksAt : Nat
  anchorsAt : Nat
  tilesAt : Nat
  tileStarts : List Nat
  tilesEnd : Nat
  queuesAt : Nat
  deliveries : List (Nat × Nat × Nat)
  queuesEnd : Nat
  viqAt : Nat
  size : Nat
deriving DecidableEq, Repr

/-- The starts of owned tiles' parts from an offset, and where they end. -/
def tileParts (x : Image) : Nat → Nat → List Nat × Nat
  | 0, o => ([], o)
  | n + 1, o =>
    let next := o + 16 + 512 * popCount 128 (x.get o 16)
    let (l, fin) := tileParts x n next
    (o :: l, fin)

/-- Deliveries from an offset: queue, groups and where the bytes lie; and where they end. -/
def deliveryParts (x : Image) (lanes : Nat) : Nat → Nat → List (Nat × Nat × Nat) × Nat
  | 0, o => ([], o)
  | n + 1, o =>
    let groups := x.get (o + 1) 1
    let (l, fin) := deliveryParts x lanes n (o + 8 + groups * 8 * lanes)
    ((x.get o 1 % 4, groups, o + 8) :: l, fin)

/-- The map of an image. -/
def imageMap (x : Image) : ImageMap :=
  let lanes := x.get 0x0C 1
  let general := x.get 0x0D 1
  let masks := x.get 0x0E 1
  let anchors := x.get 0x0F 1
  let tiles := x.get 0x10 1
  let nBq := x.get 0x12 1
  let nPh := x.get 0x13 1
  let nVlq := x.get 0x14 1
  let masksAt := 1024 + general * 64 * lanes
  let anchorsAt := masksAt + 2048 * popCount 8 masks
  let tilesAt := anchorsAt + 2048 * popCount 8 anchors
  let tp := tileParts x (popCount 8 tiles) (tilesAt + 256)
  let queuesAt := up64 tp.2
  let dp := deliveryParts x lanes nVlq (queuesAt + 8 * (nBq + nPh))
  let viqAt := up64 dp.2
  { lanes, general, masks, anchors, tiles, nViq := x.get 0x11 1, nBq, nPh, nVlq, regsAt := 1024, masksAt, anchorsAt, tilesAt,
    tileStarts := tp.1, tilesEnd := tp.2, queuesAt, deliveries := dp.1, queuesEnd := dp.2, viqAt, size := viqAt + 64 * x.get 0x11 1 }

/-- Places behind the header that must hold 0, as (offset, bytes): the reserved bytes and the padding (R410, R411, R252). -/
def reservedParts (m : ImageMap) : List (Nat × Nat) :=
  [(64 + 0x69, 7), (64 + 0xA8, 24)] ++
  (List.range 32).map (fun i => (256 + 24 * i + 0x11, 7)) ++
  (List.range m.nBq).map (fun i => (m.queuesAt + 8 * i + 1, 7)) ++
  m.deliveries.map (fun d => (d.2.2 - 6, 6)) ++
  (List.range m.nViq).map (fun i => (m.viqAt + 64 * i + 0x0D, 3)) ++
  (List.range m.nViq).map (fun i => (m.viqAt + 64 * i + 0x28, 24)) ++
  [(m.tilesEnd, m.queuesAt - m.tilesEnd), (m.queuesEnd, m.viqAt - m.queuesEnd)]

/-- The offset of the first byte that is not 0 in a place. -/
def firstNonZero (x : Image) (p : Nat × Nat) : Option Nat :=
  ((List.range p.2).find? (fun i => x.get (p.1 + i) 1 != 0)).map (fun i => p.1 + i)

/-- The tag, sew and grp byte of record `i`. -/
def recordTag (x : Image) (i : Nat) : Nat := x.get (256 + 24 * i + 0x10) 1

/-- Offsets of failing bytes of the header (R413): magic, format, reserved bits and bytes, size, lanes, counts and offsets. R413 names nG
alone of the counts; nVIQ, nBQ and nPH beyond the ranges of R410 fail too (DESIGN CHOICE, log 41). -/
def headerFailures (x : Image) (m : ImageMap) (lanes : Nat) : List Nat :=
  let at? (off n want : Nat) : List Nat :=
    ((List.range n).filter (fun i => x.get (off + i) 1 != want / 256 ^ i % 256)).map (fun i => off + i)
  at? 0 4 0x43564C41 ++ at? 4 2 1 ++ (if x.get 6 1 < 2 then [] else [6]) ++ at? 7 1 0 ++ at? 8 4 m.size ++
  (if m.lanes = lanes then [] else [0x0C]) ++
  (if ((List.range 32).filter (fun i => recordTag x i % 4 == 2)).length = m.general then [] else [0x0D]) ++ (if m.masks < 128 then [] else [0x0E]) ++
  (if m.anchors < 16 then [] else [0x0F]) ++ (if m.tiles < 16 then [] else [0x10]) ++
  (if m.nViq ≤ 64 then [] else [0x11]) ++ (if m.nBq ≤ 16 then [] else [0x12]) ++ (if m.nPh ≤ 8 then [] else [0x13]) ++ at? 0x15 11 0 ++
  ([64, 256, m.regsAt, m.masksAt, m.anchorsAt, m.tilesAt, m.queuesAt, m.viqAt].zipIdx).flatMap (fun o => at? (0x20 + 4 * o.2) 4 o.1)

/-- Offsets of failing bytes of the other sections (R413, R395). A BQ value above 1, a delivery of 0 groups and an entry with undefined valid
bits, which R411 does not allow and R413 does not name, fail too; where a queue's deliveries exceed 8 element groups, the size byte of its
first delivery is the first that fails (DESIGN CHOICE, log 41). -/
def bodyFailures (x : Image) (m : ImageMap) : List Nat :=
  (reservedParts m).filterMap (firstNonZero x) ++
  ((List.range 32).filter (fun i => recordTag x i % 4 == 3 || decide (128 ≤ recordTag x i))).map (fun i => 256 + 24 * i + 0x10) ++
  ((List.range m.nBq).filter (fun i => decide (1 < x.get (m.queuesAt + 8 * i) 1))).map (fun i => m.queuesAt + 8 * i) ++
  (m.deliveries.filter (fun d => decide (3 < x.get (d.2.2 - 8) 1))).map (fun d => d.2.2 - 8) ++
  (m.deliveries.filter (fun d => decide (d.2.1 = 0) ||
    decide (8 < ((m.deliveries.filter (fun o => o.1 == d.1)).map (fun o => o.2.1)).foldl (· + ·) 0))).map (fun d => d.2.2 - 7) ++
  ((List.range m.nViq).filter (fun i => decide (8 ≤ x.get (m.viqAt + 64 * i + 0x0C) 1))).map (fun i => m.viqAt + 64 * i + 0x0C)

/-- Whether a byte that may not be poisoned is: the header, sections 1, 2, 4, 5 and the scale registers (R412). -/
def imagePoisoned (x : Image) (m : ImageMap) : Bool :=
  x.bad 0 1024 != 0 || x.bad m.masksAt (m.tilesAt - m.masksAt) != 0 || x.bad m.tilesAt 256 != 0

/-- An operand of an entry, absent where its valid bit is clear. -/
def entryOperand (valid k v : Nat) : Option Word := if valid.testBit k then some (BitVec.ofNat 64 v) else none

/-- Entry bytes at an offset as an entry dispatched in a mode (R252). -/
def entryAt (get : Nat → Nat → Nat) (off : Nat) (mode : Mode) : VEntry :=
  let valid := get (off + 0x0C) 4
  ⟨BitVec.ofNat 64 (get off 8), BitVec.ofNat 32 (get (off + 8) 4), entryOperand valid 0 (get (off + 0x10) 8),
   entryOperand valid 1 (get (off + 0x18) 8), entryOperand valid 2 (get (off + 0x20) 8), mode⟩

/-- The registers of an image, the saved bytes given to the G records in order. -/
def imageRegs (x : Image) (m : ImageMap) : Nat → Nat → Nat → List VReg
  | 0, _, _ => []
  | n + 1, i, next =>
    let t := recordTag x i
    let sew := BitVec.ofNat 3 (t / 4)
    let grp := BitVec.ofNat 2 (t / 32)
    if t % 4 = 2 then
      ⟨.g, sew, grp, 0#64, 0#64, BitVec.ofNat 8192 (x.get next (64 * m.lanes)), BitVec.ofNat 1024 (x.bad next (64 * m.lanes))⟩ ::
        imageRegs x m n (i + 1) (next + 64 * m.lanes)
    else
      ⟨if t % 4 = 1 then .a else .u, sew, grp, BitVec.ofNat 64 (x.get (256 + 24 * i) 8),
        BitVec.ofNat 64 (if t % 4 = 1 then x.get (256 + 24 * i + 8) 8 else 0), 0#8192, 0#1024⟩ :: imageRegs x m n (i + 1) next

/-- The place of a set bit among the set bits below it. -/
def rankOf (bits k : Nat) : Nat := popCount k bits

/-- A tile of an image: elided rows are 0. -/
def imageTile (x : Image) (start : Nat) : Tile :=
  let rows := x.get start 16
  (List.range 128).foldl (fun t i =>
    if rows.testBit i then
      let o := start + 16 + 512 * rankOf rows i
      t.setRow i ((List.range 128).map (fun j => (x.get (o + 4 * j) 4, x.bad (o + 4 * j) 4 != 0)))
    else t) Tile.reset

/-- The mask `k` of an image. -/
def imageMask (x : Image) (m : ImageMap) (k : Nat) : BitVec 16384 :=
  if k ≠ 0 ∧ m.masks.testBit (k - 1) = true then BitVec.ofNat 16384 (x.get (m.masksAt + 2048 * rankOf m.masks (k - 1)) 2048)
  else 0#16384

/-- Anchor register `o` of an image. -/
def imageAnchor (x : Image) (m : ImageMap) (o : Nat) : Vector (BitVec 128) 128 :=
  Vector.ofFn (fun (k : Fin 128) =>
    if m.anchors.testBit o then BitVec.ofNat 128 (x.get (m.anchorsAt + 2048 * rankOf m.anchors o + 16 * k.val) 16) else 0#128)

/-- A word of section 1. -/
def Image.csr (x : Image) (off : Nat) : Word := BitVec.ofNat 64 (x.get (64 + off) 8)

/-- `vtype` as a restore leaves it: its reserved bits read 0, and all but `vill` do while `vill` is set (R162, R165). -/
def restoredVtype (v : Word) : Word := if v.getLsbD 63 then 0x8000000000000000#64 else v &&& 0x3FF#64

/-- The vector state of a hart replaced by that of an image (R411, R413); its entries take their place in the VIQ, with the mode the
hart is in (log 60). -/
def applyImage (h : Hart) (x : Image) : Hart :=
  let m := imageMap x
  let regs := imageRegs x m 32 0 m.regsAt
  { h with
    vflags := (x.csr 0x00).truncate 9, vfrm := (x.csr 0x08).truncate 3, vband := x.csr 0x10,
    avec := setWordField (x.csr 0x18) 0 2 0, aepc := x.csr 0x20, acause := BitVec.ofNat 64 (wordField (x.csr 0x28) 0 8),
    vobm0 := x.csr 0x30, vobm1 := x.csr 0x38, voutcnt := (x.csr 0x40).truncate 32, aqsave := setWordField (x.csr 0x48) 0 6 0,
    vl := (x.csr 0x50).truncate 32, vrow := (x.csr 0x58).truncate 32, vtype := restoredVtype (x.csr 0x60),
    gencap := (x.csr 0x68).truncate 8, nmError := if x.csr 0x70 = 0#64 then none else some (x.csr 0x70),
    vepc := x.csr 0x78, vcause := BitVec.ofNat 64 (wordField (x.csr 0x80) 0 8), vtval := x.csr 0x88,
    vqsave := setWordField (x.csr 0x90) 0 6 0, vmissrec := setWordField (x.csr 0x98) 0 6 0,
    vmisscnt := BitVec.ofNat 64 (wordField (x.csr 0xA0) 0 8),
    v := Vector.ofFn (fun (i : Fin 32) => regs.getD i.val VReg.reset),
    m := Vector.ofFn (fun (k : Fin 8) => imageMask x m k.val),
    w := Vector.ofFn (fun (o : Fin 4) => imageAnchor x m o.val),
    t := Vector.ofFn (fun (i : Fin 4) =>
      if m.tiles.testBit i.val then imageTile x ((m.tileStarts.getD (rankOf m.tiles i.val) 0)) else Tile.reset),
    sA := Vector.ofFn (fun (i : Fin 128) => byteOf (x.get (m.tilesAt + i.val) 1)),
    sB := Vector.ofFn (fun (i : Fin 128) => byteOf (x.get (m.tilesAt + 128 + i.val) 1)),
    anchorHandler := x.get 6 1 % 2 == 1,
    bq := (List.range m.nBq).map (fun i => x.get (m.queuesAt + 8 * i) 1 == 1),
    pigeonhole := (List.range m.nPh).map (fun i => BitVec.ofNat 64 (x.get (m.queuesAt + 8 * (m.nBq + i)) 8)),
    loadq := Vector.ofFn (fun (q : Fin 4) =>
      (m.deliveries.filter (fun d => d.1 == q.val)).map (fun d =>
        ⟨d.2.1, BitVec.ofNat 8192 (x.get d.2.2 (d.2.1 * 8 * m.lanes)), BitVec.ofNat 1024 (x.bad d.2.2 (d.2.1 * 8 * m.lanes))⟩)),
    viq := (List.range m.nViq).map (fun i => entryAt x.get (m.viqAt + 64 * i) h.mode) }

/-- A hart's vector state as a save and a restore leave it: poison at the grain of image lines (R46, R411). -/
def roundTrip (h : Hart) (lanes : Nat) : Hart :=
  let bs := contextImage h lanes h.viq
  { applyImage h (Image.ofBytes (poisonLines (ceilDiv bs.length 64) bs)) with viq := h.viq }

/-! `vsave` and `vrest` (R412, R413). -/

/-- `vsave` (R412). -/
def vsaveOp (e : VEntry) (s : State) : VRes := keeping s do
  vsqRoom s
  let s1 ← admission e s [] [] 0
  let base := (e.op0.getD 0#64).toNat
  let bs := contextImage s1.hart (s1.lanes s1.hart) []
  let r := plainReq s1 e true [(base, bs.length)] (if base % 64 = 0 then [] else [base])
  let (ps, s2) ← probeFor e s1 true [r]
  let pieces := ps.flatMap Probed.pieces
  let lines := poisonLines (ceilDiv bs.length 64) bs
  .ok (storeElems s2 pieces (throughPieces (pieces.flatMap id) <| (List.zip (pieceKeys (pieces.flatMap id)) lines).map (fun p => ⟨p.1, p.2.1, 0xFF#8, p.2.2, .cached⟩)) false [])

/-- Slots for the G registers of an image, once every slot the hart holds is released (R413, R196, R197). -/
def obtainRestored (e : VEntry) (s : State) (general gencap : Nat) : Except Stop State :=
  let h := s.hart
  let need := general - h.size.toNat
  let free := s.unreserved (coreOfHart h.hid) + (h.reserved - h.size.toNat)
  if h.window.isSome = true ∨ need ≤ free then .ok (s.countAdmission 4 need e.mode)
  else if gencap ≠ 0xFF ∧ gencap < general then .error (trapWord 8 e)
  else .error (.wait .desk s)

/-- The least failing offset as a trap of cause 1 with its address, after a probe that leaves some marks (R413, R388). -/
def failAt (base : Nat) (ms : List LeafMark) (l : List Nat) : Except Stop Unit :=
  match leastOf l with
  | some o => .error (.trap 1 (BitVec.ofNat 64 (wrap (base + o))) (.marked ms))
  | none => .ok ()

/-- `vrest` (R412, R413). The failures of the header go before poison in the sections that may hold none, all others after it: R405, R412 and
R413 give no order (DESIGN CHOICE, log 41). -/
def vrestOp (e : VEntry) (s : State) : VRes := keeping s do
  let s1 ← admission e s [] [] 0
  let base := (e.op0.getD 0#64).toNat
  let bad := if base % 64 = 0 then [] else [base]
  let (hp, s2) ← probeFor e s1 false [plainReq s1 e false [(base, 64)] bad]
  let s3 ← drainVsq s2
  let header := Image.ofBytes (readPieces 0 s3 (hp.flatMap (fun p => p.pieces.flatMap id)))
  need e 9 (header.poison == 0)
  let rs := [plainReq s3 e false [(base, max 64 (header.get 8 4))] bad]
  let (ps, s4) ← probeFor e s3 false rs
  let ms := probeMarks rs ps
  let x := Image.ofBytes (readPieces 0 s4 (ps.flatMap (fun p => p.pieces.flatMap id)))
  let m := imageMap x
  failAt base ms (headerFailures x m (s.lanes s.hart))
  needProbed e 9 ms (!(imagePoisoned x m))
  failAt base ms (bodyFailures x m)
  if m.tiles &&& (2 ^ s.hart.ownTiles - 1) ≠ m.tiles then .error (.trap 11 (wordVal e.word) (.marked ms))
  else
    let s5 ← obtainRestored e s4 m.general ((x.csr 0x68).truncate 8 : BitVec 8).toNat
    .ok (s5.onHart (fun h => applyImage (h.observe 0 (ps.flatMap (fun p => p.pieces.flatMap id))) x))

end Sys2Proof.Machine
end

