-- ==== Sys2Proof/Machine/Dispatcher.lean ====
section
/-! DEFINITION. Launch records and queues (R349, R350), the dispatchers (R24 to R29, R38 to R49, R468), the hall pass
(R40 to R44), the full context switch and the retirement of gangs. -/

namespace Sys2Proof.Machine

/-! Launch records (R349, R145). -/

/-- The entry of a launch. -/
def recEntry (r : LaunchRecord) : Nat := recField r 0x00 8
/-- The load base of its code object. -/
def recBase (r : LaunchRecord) : Nat := recField r 0x08 8
/-- Its segment bound (R51, R143). -/
def recBound (r : LaunchRecord) : Nat := recField r 0x10 8
/-- Its successor list (R151). -/
def recSuccessors (r : LaunchRecord) : Nat := recField r 0x18 8
/-- The address of its argument block (R29). -/
def recArgs (r : LaunchRecord) : Nat := recField r 0x20 8
/-- The address of its completion record (R49). -/
def recDone (r : LaunchRecord) : Nat := recField r 0x28 8
/-- Its gang count. -/
def recCount (r : LaunchRecord) : Nat := recField r 0x30 4
/-- Harts of one gang. -/
def recHarts (r : LaunchRecord) : Nat := recField r 0x34 1
/-- The priority field. -/
def recPriority (r : LaunchRecord) : Nat := recField r 0x35 1 % 8
/-- Desk of one hart. -/
def recDesk (r : LaunchRecord) : Nat := recField r 0x36 1
/-- Tiles of one hart. -/
def recTiles (r : LaunchRecord) : Nat := recField r 0x37 1
/-- Scratchpad banks of one gang. -/
def recBanks (r : LaunchRecord) : Nat := ceilDiv (recField r 0x38 4) Config.bankBytes
/-- Named barriers of one gang. -/
def recBarriers (r : LaunchRecord) : Nat := recField r 0x3C 2
/-- String-mate placement (R145). -/
def recMates (r : LaunchRecord) : Bool := (recField r 0x3E 2).testBit 0
/-- A shape-bounded launch (R145). -/
def recBounded (r : LaunchRecord) : Bool := (recField r 0x3E 2).testBit 1
/-- A reclaimable launch (R145). -/
def recReclaimable (r : LaunchRecord) : Bool := (recField r 0x3E 2).testBit 2
/-- The address of the successor launch, or 0. -/
def recNext (r : LaunchRecord) : Nat := recField r 0x48 8
/-- The time slice in µs. -/
def recSlice (r : LaunchRecord) : Nat := recField r 0x50 4
/-- Whether a die is in the die mask. -/
def recOnDie (r : LaunchRecord) (die : Nat) : Bool := (recField r 0x54 4 % 16).testBit die
/-- Exclusive quads of one gang. -/
def recQuads (r : LaunchRecord) : Nat := recField r 0x58 1 % 8
/-- The declared general-register count. -/
def recGeneral (r : LaunchRecord) : Nat := recField r 0x59 1

/-- Checks 1 to 10 of R24: whether one fails. -/
def recMalformed (r : LaunchRecord) : Bool :=
  !([1, 2, 4, 8].contains (recHarts r)) || recCount r == 0 || recField r 0x54 4 % 16 == 0 ||
  decide (recDesk r < 8) || decide (48 < recDesk r) || decide (4 < recTiles r) || decide (4 < recQuads r) ||
  (if recBounded r then decide (32 < recGeneral r) || decide (recDesk r < recGeneral r + 8) else recGeneral r != 0) ||
  recField r 0x35 1 / 8 != 0 || recField r 0x3E 2 / 8 != 0 || recField r 0x40 4 / 256 != 0 || recField r 0x44 4 / 32 != 0 ||
  recField r 0x54 4 / 16 != 0 || recField r 0x58 1 / 8 != 0 || recField r 0x5A 38 != 0 ||
  recEntry r % 4 != 0 || decide (recEntry r < recBase r) || decide (recBound r ≤ recEntry r) ||
  decide (recBound r < recBase r) || recDone r % 16 != 0

/-- The status R24 rejects a record with, 0 where it passes. Every profile is implemented, so status 3 does not occur. -/
def recordStatus (r : LaunchRecord) : Nat :=
  if recMalformed r then 1
  else if Config.poolSlots < recHarts r * recDesk r ∨ Config.tilesPerCore < recHarts r * recTiles r ∨
      Config.banksPerCore < recBanks r ∨ Config.barriersPerCore < recBarriers r then 2
  else 0

/-! Launch queues (R350). -/

/-- Launch queue `q`. -/
def State.queue (s : State) (q : Nat) : LaunchQueue := (s.queues[q]?).getD LaunchQueue.reset

/-- Launch queue `q` replaced. -/
def State.setQueue (s : State) (q : Nat) (x : LaunchQueue) : State := { s with queues := s.queues.setIfInBounds q x }

/-- The head of a queue at the moment it becomes head. -/
def headNow (s : State) (records : List LaunchRecord) : Option HeadState :=
  if records.isEmpty then none else some ⟨s.time, 0, none⟩

/-- A record enters its queue as one event (R350). -/
def State.enterQueue (s : State) (q : Nat) (r : LaunchRecord) : State :=
  let x := s.queue q
  s.setQueue q { x with records := x.records ++ [r], head := if x.head.isSome then x.head else headNow s [r] }

/-- The head leaves its queue (R24, R26). -/
def State.popQueue (s : State) (q : Nat) : State :=
  let x := s.queue q
  s.setQueue q { x with records := x.records.drop 1, head := headNow s (x.records.drop 1) }

/-- Submissions of `launch` in flight to a queue (R351). -/
def State.inFlightTo (s : State) (q : Nat) : Nat :=
  ((s.harts.map (fun h => (h.lq.filter (fun e => e.queue == q)).length)).foldl (· + ·) 0)

/-- Whether a producer other than a successor finds a free slot: a held successor goes ahead of it (R350, R351). -/
def State.queueHasSlot (s : State) (q : Nat) : Bool :=
  decide ((s.queue q).records.length + (s.queue q).held.length + s.inFlightTo q < Config.launchQueueDepth)

/-- HELD_SUCCESSOR_ENTERS_QUEUE: the slots that submissions in flight have reserved stay theirs (R350, R351). -/
def heldEnters (s : State) (q : Nat) : State :=
  let x := s.queue q
  match x.held with
  | r :: rest =>
    if x.enable = true ∧ x.records.length + s.inFlightTo q < Config.launchQueueDepth then (s.setQueue q { x with held := rest }).enterQueue q r
    else s
  | [] => s

/-- The oldest submission of a hart's LQ entered into its queue (R351). -/
def Hart.popLq (h : Hart) : Hart := { h with lq := h.lq.drop 1 }

/-- LQ_RECORD_ENTERS_QUEUE for the current hart (R351). -/
def lqEnters (s : State) : State :=
  match s.hart.lq with
  | e :: _ => ((s.enterQueue e.queue e.record).onHart Hart.popLq).wake .queueRoom
  | [] => s

/-- Whole milliseconds a head has aged, capped so that its priority stays at most 7 (R25). -/
def agedHead (now : Word) (x : LaunchQueue) : LaunchQueue :=
  match x.head with
  | some h => { x with head := some { h with raised := min 7 ((now - h.since).toNat / 1000000) } }
  | none => x

/-- QUEUE_HEAD_AGING (R25). -/
def ageQueue (s : State) (q : Nat) : State := s.setQueue q (agedHead s.time (s.queue q))

/-! Gangs on a core (R27). -/

/-- Whether a gang holds a core. -/
def Gang.placed (g : Gang) : Bool := !g.harts.isEmpty

/-- The record of a gang. -/
def State.recordOf (s : State) (g : Gang) : LaunchRecord := ((s.findLaunch g.launch).map Launch.record).getD 0#1024

/-- The gangs placed on a core but for some. -/
def placedOn (s : State) (core : Nat) (without : List Nat) : List Gang :=
  s.gangs.filter (fun g => g.placed && g.core == core && !(without.contains g.key))

/-- What a core has free (R27). -/
structure CoreRoom where
  harts : List Nat
  registers : Nat
  tiles : Nat
  banks : List Nat
  barriers : Nat
  held : Nat
  exclusive : Nat
  users : List Nat
deriving DecidableEq, Repr

/-- The union of some quad masks. -/
def quadUnion (gs : List Gang) : Nat := gs.foldl (fun m g => m ||| g.quads.toNat) 0

/-- What a core has free, or would have without some of its gangs. -/
def roomOf (s : State) (core : Nat) (without : List Nat) : CoreRoom :=
  let gs := placedOn s core without
  let gone := (placedOn s core []).filter (fun g => without.contains g.key)
  { harts := ((List.range Config.hartsPerCore).map (fun i => core * Config.hartsPerCore + i)).filter
      (fun hid => !(gs.any (fun g => g.harts.contains hid))),
    registers := s.unreserved core + sumOver gone (fun g => sumOver (s.gangHarts g) Hart.reserved),
    tiles := Config.tilesPerCore - sumOver gs (fun g => g.harts.length * recTiles (s.recordOf g)),
    banks := (List.range Config.banksPerCore).filter (fun b => !(gs.any (fun g => g.banks.contains b))),
    barriers := Config.barriersPerCore - sumOver gs (fun g => g.barriers.length - 1),
    held := quadUnion gs,
    exclusive := quadUnion (gs.filter Gang.exclusive),
    users := (List.range 4).map (fun n => (gs.filter (fun g => g.quads.getLsbD n)).length) }

/-- What a gang to be placed asks for: its launch, its key where it is a switched-out gang, its record, the unreserved
registers it needs, and the quads of its saved image (R27, R468). -/
structure Want where
  launch : Nat
  saved : Option Nat
  record : LaunchRecord
  registers : Nat
  quads : Option Nat
  since : Nat
deriving DecidableEq, Repr

/-- The first `k` numbers of a list as a quad mask. -/
def quadMask (l : List Nat) (k : Nat) : Nat := (l.take k).foldl (fun m n => m ||| 2 ^ n) 0

/-- Quads by the fewest gangs that hold them, then by number (R29). -/
def fewestFirst (users : List Nat) (avail : List Nat) : List Nat :=
  (List.range (Config.hartsPerCore + 1)).flatMap (fun k => avail.filter (fun n => users.getD n 0 == k))

/-- The lane mask a gang would get on a core (R29, R468), none where lanes are lacking. -/
def chooseQuads (ceilq : Nat) (w : Want) (r : CoreRoom) : Option Nat :=
  let q := recQuads w.record
  if q ≠ 0 then
    let free := (List.range 4).filter (fun n => !(r.held.testBit n))
    let k := w.quads.getD q
    if free.length < k then none else some (quadMask free k)
  else
    let avail := (List.range 4).filter (fun n => !(r.exclusive.testBit n))
    let k := w.quads.getD (min ceilq avail.length)
    if k = 0 ∨ avail.length < k then none else some (quadMask (fewestFirst r.users avail) k)

/-- Whether a core has everything but lanes and registers (R40). -/
def roomButLanes (w : Want) (r : CoreRoom) : Bool :=
  decide (recHarts w.record ≤ r.harts.length) && decide (recHarts w.record * recTiles w.record ≤ r.tiles) &&
  decide (recBanks w.record ≤ r.banks.length) && decide (recBarriers w.record ≤ r.barriers)

/-- The lane mask of a placement on a core, none where something is lacking (R27, R468). -/
def fitOn (s : State) (w : Want) (core : Nat) (without : List Nat) : Option Nat :=
  let r := roomOf s core without
  if roomButLanes w r = true ∧ w.registers ≤ r.registers then chooseQuads (s.core core).ceilq.toNat w r else none

/-- The cores of a die in the order a dispatcher tries them (R28). -/
def coreOrder (s : State) (w : Want) (die : Nat) : List Nat :=
  let cores := (List.range Config.coresPerDie).map (fun i => die * Config.coresPerDie + i)
  if recMates w.record then
    let onString (c : Nat) : List Gang := s.gangs.filter (fun g => g.placed && g.core / 4 == c / 4)
    let mates (c : Nat) : Bool := (onString c).any (fun g => g.launch == w.launch)
    cores.filter mates ++ cores.filter (fun c => (onString c).isEmpty) ++
      cores.filter (fun c => !(mates c) && !((onString c).isEmpty))
  else cores

/-- The first core of a die that fits, with its lane mask. -/
def fitOnDie (s : State) (w : Want) (die : Nat) : Option (Nat × Nat) :=
  if recOnDie w.record die then (coreOrder s w die).findSome? (fun c => (fitOn s w c []).map (fun q => (c, q))) else none

/-- Whether a gang fits some core as it stands. -/
def fitsSomewhere (s : State) (w : Want) : Bool := (List.range 4).any (fun d => (fitOnDie s w d).isSome)

/-! Who waits to be placed. -/

/-- Whether a switched-out gang may be restored: its stores performed, its commands recorded (R46), and `time` past every value its harts
have read (R429). -/
def Gang.restorable (s : State) (g : Gang) : Bool :=
  g.saved.any (fun v => v.harts.all (fun h => decide (h.largestTime < s.time))) &&
  !(s.passed.any (fun p => p.gang == g.key)) && !(s.nq.any (fun c => c.gang == g.key))

/-- A switched-out gang as a candidate (R468). -/
def savedWant (s : State) (g : Gang) : Option Want :=
  match g.saved with
  | some v =>
    let r := s.recordOf g
    if g.restorable s then
      some ⟨g.launch, some g.key, r, sumOver v.harts (fun h => max (recDesk r) h.general), some (v.lanes / 4), v.since⟩
    else none
  | none => none

/-- The head of a queue as a candidate, once checked (R26). -/
def headWant (s : State) (q : Nat) : Option Want :=
  match ((s.queue q).head.bind HeadState.launch).bind s.findLaunch with
  | some l =>
    if l.placed < recCount l.record then
      some ⟨l.key, none, l.record, recHarts l.record * recDesk l.record, none, 0⟩
    else none
  | none => none

/-- The oldest of some candidates first (R45). -/
def oldestFirst : List Want → List Want
  | [] => []
  | w :: ws =>
    let rec put : List Want → List Want
      | [] => [w]
      | x :: xs => if w.since ≤ x.since then w :: x :: xs else x :: put xs
    put (oldestFirst ws)

/-- The switched-out gangs of a priority, oldest first. -/
def readyGangs (s : State) (prio : Nat) : List Want :=
  (oldestFirst (s.gangs.filterMap (savedWant s))).filter (fun w => recPriority w.record == prio)

/-- The effective priority of a queue's head (R25). -/
def effectivePriority (s : State) (q : Nat) : Nat :=
  match (s.queue q).head with
  | some h => min 7 (recPriority (((s.queue q).records.head?).getD 0#1024) + h.raised)
  | none => 0

/-- The queues from the one after the last served, in order (R25). -/
def queueOrder (last : Nat) : List Nat := (List.range 64).map (fun i => (last + 1 + i) % 64)

/-- The heads of one effective priority in round-robin order, with their queues (R25). -/
def headsAt (s : State) (die prio : Nat) : List (Nat × Want) :=
  ((queueOrder ((s.roundRobin[die]?).getD 0)).filter (fun q => effectivePriority s q == prio)).filterMap
    (fun q => (headWant s q).map (fun w => (q, w)))

/-- The switched-out gangs of a priority with the moments of their switches, oldest first. -/
def readySince (s : State) (prio : Nat) : List (Word × Want) :=
  (readyGangs s prio).filterMap (fun w => ((w.saved.bind s.findGang).bind Gang.saved).map (fun v => (v.time, w)))

/-- Heads, each with the moment it became head. -/
def headsSince (s : State) (hs : List (Nat × Want)) : List (Word × (Nat × Want)) :=
  hs.map (fun x => (((s.queue x.1).head.map HeadState.since).getD 0#64, x))

/-- The heads of one priority up to the last in round-robin order that was ready at a moment. -/
def headsReady (t : Word) (hs : List (Word × (Nat × Want))) : List (Word × (Nat × Want)) :=
  (hs.reverse.dropWhile (fun h => decide (t < h.1))).reverse

/-- The heads of one priority in round-robin order (R25), and the switched-out gangs, oldest first, each behind all the heads that were
ready at its switch: it stands at the tail of the ready list of its priority (R45, R361). -/
def mergeReady : List (Word × Want) → List (Word × (Nat × Want)) → List (Option Nat × Want)
  | [], hs => hs.map (fun h => (some h.2.1, h.2.2))
  | (t, w) :: ws, hs =>
    (headsReady t hs).map (fun h => (some h.2.1, h.2.2)) ++ (none, w) :: mergeReady ws (hs.drop (headsReady t hs).length)

/-- A dispatcher's candidates: by falling priority, and within one the heads in round-robin order with the switched-out gangs among them (log
18). A head comes with its queue. -/
def candidates (s : State) (die : Nat) : List (Option Nat × Want) :=
  ([7, 6, 5, 4, 3, 2, 1, 0].flatMap (fun p => mergeReady (readySince s p) (headsSince s (headsAt s die p)))).filter
    (fun x => recOnDie x.2.record die)

/-! Placement (R27 to R29, R468). -/

/-- The gang number and rank CSR of a hart (R180). -/
def gangIdWord (number rank nh : Nat) : Word := BitVec.ofNat 64 (number % 2 ^ 32 + rank % 8 * 2 ^ 32 + nh % 16 * 2 ^ 36)

/-- A hart of a newly placed gang (R29, R161). -/
def startHart (s : State) (hid core key number rank quads : Nat) (r : LaunchRecord) : Hart :=
  let h := Hart.reset hid
  { h with
    run := .running, gang := some key, rank := rank, pc := BitVec.ofNat 64 (recEntry r), mode := .user,
    x := (h.x.set 10 (BitVec.ofNat 64 (recArgs r))).set 11 (gangIdWord number rank (recHarts r)),
    lgrant := BitVec.ofNat 5 (min (quadLanes (BitVec.ofNat 4 quads)) (4 * (s.core core).ceilq.toNat)),
    gencap := if recBounded r then BitVec.ofNat 8 (recGeneral r) else 0xFF#8,
    size := BitVec.ofNat 8 (recDesk r), ownTiles := recTiles r }

/-- Harts added to the device: the current hart stays unless it is a free slot. -/
def State.addHarts (s : State) (hs : List Hart) : State :=
  let all := hs.foldl (fun l h => insertHart h l) (if s.hart.run = .free then s.others else insertHart s.hart s.others)
  if s.hart.run = .free then
    match all with
    | h :: rest => { s with hart := h, others := rest }
    | [] => s
  else { s with others := all.filter (fun h => h.hid != s.hart.hid) }

/-- The harts of a gang removed; a free slot becomes current where the current hart is among them and none is left. -/
def State.removeGang (s : State) (key : Nat) : State :=
  let keep := s.others.filter (fun h => h.gang != some key)
  if s.hart.gang = some key then
    match keep with
    | h :: rest => { s with hart := h, others := rest }
    | [] => { s with hart := Hart.reset s.hart.hid, others := [] }
  else { s with others := keep }

/-- The end of a time slice that begins now (R45). -/
def sliceFrom (s : State) (r : LaunchRecord) : Option Word :=
  if recSlice r = 0 then none else some (s.time + BitVec.ofNat 64 (1000 * recSlice r))

/-- The barriers of a new gang (R357). -/
def newBarriers (r : LaunchRecord) : List Barrier := List.replicate (recBarriers r + 1) ⟨recHarts r, none, 0, []⟩

/-! The gang scratchpad (R46, R48, R296). -/

/-- The absolute base of each bank of a gang. -/
def gangBankKeys (g : Gang) : List Nat := g.banks.map (bankKey g.core)

/-- The bytes of some banks as cells that count from 0 across them. -/
def saveBanks (s : State) (bases : List Nat) : List Host.Cell :=
  (bases.zipIdx).flatMap (fun b => (s.mem.filter (fun c => decide (b.1 ≤ c.1) && decide (c.1 < b.1 + Config.bankBytes))).map
    (fun c => (c.1 - b.1 + b.2 * Config.bankBytes, c.2)))

/-- The poisoned units of some banks, as offsets that count from 0 across them. -/
def savePoison (s : State) (bases : List Nat) : List Nat :=
  (bases.zipIdx).flatMap (fun b => (s.poison.filter (fun u => decide (b.1 ≤ u.base) && decide (u.base < b.1 + Config.bankBytes))).map
    (fun u => u.base - b.1 + b.2 * Config.bankBytes))

/-- Banks cleared to zero (R48, R296; log 18). -/
def clearBanks (s : State) (bases : List Nat) : State := bases.foldl (fun t b => zeroRange b Config.bankBytes t) s

/-- The key of a saved offset in new banks. -/
def bankPlace (bases : List Nat) (off : Nat) : Nat := bases.getD (off / Config.bankBytes) 0 + off % Config.bankBytes

/-- Saved scratchpad bytes and poison written into new banks (R46). -/
def restoreBanks (s : State) (bases : List Nat) (cells : List Host.Cell) (bad : List Nat) : State :=
  { s with
    mem := cells.foldl (fun m c => memWrite m (bankPlace bases c.1) c.2) s.mem,
    poison := bad.foldl (fun l o => addPoison l ⟨bankPlace bases o, 8⟩) s.poison }

/-- The next gang of a launch placed on a core with a lane mask (R26, R27, R29). -/
def placeNew (s : State) (l : Launch) (core quads : Nat) : State :=
  let r := l.record
  let room := roomOf s core []
  let hids := room.harts.take (recHarts r)
  let key := s.nextKey
  let g : Gang :=
    { key := key, launch := l.key, number := l.placed, core := core, harts := hids, quads := BitVec.ofNat 4 quads,
      exclusive := recQuads r != 0, vgrantmax := 0xF#4, reclaim := none, barriers := newBarriers r,
      banks := room.banks.take (recBanks r), order := key, sliceEnd := sliceFrom s r, sliceExhausted := false, saved := none }
  let s1 := clearBanks { s with gangs := s.gangs ++ [g], nextKey := key + 1 } (gangBankKeys g)
  let s2 := s1.addHarts ((hids.zipIdx).map (fun x => startHart s x.1 core key l.placed x.2 quads r))
  s2.putLaunch { l with placed := l.placed + 1 }

/-- Harts by rank. -/
def byRank (hs : List Hart) : List Hart := (List.range Config.hartsPerCore).flatMap (fun r => hs.filter (fun h => h.rank == r))

/-- A switched-out gang placed again: rank r gets the r-th of the core's free hart numbers (R22, R468). A halted hart whose stores have been
performed since the switch counts for the phases of its barriers (R357, R382). -/
def placeSaved (s : State) (g : Gang) (v : SavedGang) (core quads : Nat) : State :=
  let r := s.recordOf g
  let room := roomOf s core []
  let hids := room.harts.take (recHarts r)
  let banks := room.banks.take (recBanks r)
  let g1 := { g with
    core := core, harts := hids, quads := BitVec.ofNat 4 quads, banks := banks, order := s.nextKey, saved := none,
    sliceEnd := sliceFrom s r, sliceExhausted := false }
  let bases := banks.map (bankKey core)
  let s1 := restoreBanks (clearBanks ({ s with nextKey := s.nextKey + 1 }.putGang g1) bases) bases v.scratchpad v.padPoison
  settleBarriers (s1.addHarts ((List.zip hids (byRank v.harts)).map (fun x => { x.2 with hid := x.1, size := BitVec.ofNat 8 (recDesk r) }))) g1

/-! Pre-emption (R38, R40, R45, R46). -/

/-- Whether every hart of a gang waits or has halted (R38). -/
def gangIdle (s : State) (g : Gang) : Bool :=
  (s.gangHarts g).any (fun h => !h.isHalted) &&
  (s.gangHarts g).all (fun h => h.isHalted || (match h.wait with
    | some .barrier => true | some (.waitMem _ _) => true | some (.waitTime _) => true | some .qpop => true
    | some .reclaimPoint => true | some .desk => true | _ => false))

/-- Whether an instruction of a gang holds line locks, or a scalar load or atomic of it is still to be performed: it completes before a
save (R47). -/
def gangLocks (s : State) (g : Gang) : Bool :=
  s.locks.any (fun l => g.harts.contains l.hid) || (s.gangHarts g).any (fun h => !h.slq.isEmpty)

/-- Whether a candidate may take the place of a gang: it fits no core as things stand, and the gang's core without it
(R38, R45, R46). -/
def needsPlaceOf (s : State) (w : Want) (g : Gang) : Bool :=
  g.placed && recOnDie w.record (g.core / Config.coresPerDie) && !(fitsSomewhere s w) && (fitOn s w g.core [g.key]).isSome

/-- Everything ready to be placed. -/
def allWants (s : State) : List Want :=
  s.gangs.filterMap (savedWant s) ++ (List.range 64).filterMap (headWant s)

/-- Whether a ready gang of at least a gang's priority field needs its resources (R38, R45, R361). -/
def hasRival (s : State) (g : Gang) : Bool :=
  (allWants s).any (fun w => decide (recPriority (s.recordOf g) ≤ recPriority w.record) && needsPlaceOf s w g)

/-- The quads a victim keeps: given up from the highest down, as few as leave `q` quads that no gang holds (R40). -/
def keepQuads (others q : Nat) : Nat → Nat → Nat
  | 0, keep => keep
  | n + 1, keep =>
    if q ≤ popCount 4 (15 &&& ((others ||| keep) ^^^ 15)) then keep else keepQuads others q n (setBits keep n 1 0)

/-- The hall pass a candidate may use on a victim: KEEP and DESKCUT, for the quads its record asks for, or those of its saved image (R468).
No other gang holds a quad the victim gives up (R40). -/
def hallPass (s : State) (w : Want) (g : Gang) : Option (Nat × Nat) :=
  let q := w.quads.getD (recQuads w.record)
  let room := roomOf s g.core []
  let others := quadUnion (placedOn s g.core [g.key])
  let keep := keepQuads others q 4 g.quads.toNat
  let cut := ceilDiv (w.registers - room.registers) g.harts.length
  let size := ((s.gangHarts g).map (fun h => h.size.toNat)).headD 0
  if recReclaimable (s.recordOf g) = true ∧ recQuads w.record ≠ 0 ∧ roomButLanes w room = true ∧
      q ≤ popCount 4 (15 &&& ((others ||| keep) ^^^ 15)) ∧ (g.quads.toNat ^^^ keep) &&& others = 0 ∧ keep ≠ 0 ∧ 8 + cut ≤ size ∧
      recPriority (s.recordOf g) < recPriority w.record then some (keep, cut)
  else none

/-- A reclaim started or narrowed (R414). -/
def startReclaim (s : State) (g : Gang) (keep cut : Nat) : State :=
  match g.reclaim with
  | some r => s.putGang { g with vgrantmax := g.vgrantmax &&& BitVec.ofNat 4 keep, reclaim := some { r with deskCut := max r.deskCut cut } }
  | none => s.putGang { g with vgrantmax := BitVec.ofNat 4 keep, reclaim := some ⟨s.time + 50000#64, cut⟩ }

/-- Victims for a candidate, the lowest priority field first, then the most recently placed (R39, R46). -/
def victimOrder (s : State) (gs : List Gang) : List Gang :=
  let rec put (g : Gang) : List Gang → List Gang
    | [] => [g]
    | x :: xs =>
      if recPriority (s.recordOf g) < recPriority (s.recordOf x) ∨
          (recPriority (s.recordOf g) = recPriority (s.recordOf x) ∧ x.order < g.order) then g :: x :: xs
      else x :: put g xs
  gs.foldr put []

/-! The full context switch (R46, R47). -/

/-- The part of a VSQ entry that lies in scratchpad, and the rest. -/
def splitEntry (e : VsqEntry) : VsqEntry × VsqEntry :=
  ({ e with writes := e.writes.filter (fun w => isScratchKey w.key), kinds := [] },
   { e with writes := e.writes.filter (fun w => !(isScratchKey w.key)), arrival := false })

/-- A leaving hart's scratchpad stores performed, its others left behind; the stores of its scalar stream go the same way (R46, R318). -/
def leaveStores (s : State) (key : Nat) (h : Hart) : State :=
  (h.ssq ++ h.vsq).foldl (fun t e =>
    let (pad, rest) := splitEntry e
    let t1 := if pad.writes.isEmpty then t else performEntry pad t
    if rest.writes.isEmpty then t1 else { t1 with passed := t1.passed ++ [⟨key, rest⟩] }) s

/-- What the head of a suspended VIQ waits for: what the instruction discarded from the window waits or had waited for, so that a
`bar.sync` that has arrived does not arrive again (R358); a stop at a reclaim point ends (R43). -/
def Hart.suspendedWait (h : Hart) : Option WaitReason :=
  match (h.window.bind InFlight.waited).or h.wait with
  | some .reclaimPoint => none
  | r => r

/-- A hart as the switch saves it: discarded work back at the head of its VIQ, its vector state as the image carries it
(R46, R47, R411). -/
def suspendHart (lanes : Nat) (h : Hart) : Hart :=
  let h1 := { h with
    viq := h.inFlight, window := none, next := [], vsq := [], ssq := [], slq := [], oldLines := [], taint := 0#33, vectorTaint := false, lq := [],
    reservation := none, aldc := none, headAged := none, drainViq := false, wait := h.suspendedWait }
  roundTrip h1 lanes

/-- LQ submissions of a leaving hart entered into their queues (R346). -/
def drainLq (s : State) (h : Hart) : State := h.lq.foldl (fun t e => t.enterQueue e.queue e.record) s

/-- Locks, pins, NQ entries and arrival pointers of leaving harts given back (R46, R298, R317). -/
def State.dropHolds (s : State) (key : Nat) (hids : List Nat) : State :=
  { (hids.filterMap s.findHart).foldl (fun t h => endArrival h t) s with
    pins := dropPins hids s.pins,
    locks := s.locks.filter (fun l => !(hids.contains l.hid)),
    nq := s.nq.map (fun c => if c.gang = key then { c with held := false } else c) }

/-- Lanes of a core in no gang's mask power-gated (R441). -/
def gateFree (s : State) (core : Nat) : State :=
  s.setCore core { s.core core with gated := (s.core core).gated ||| ~~~(laneMask (BitVec.ofNat 4 (quadUnion (placedOn s core [])))) }

/-- A placed gang saved from its core, after its instructions with line locks have completed (R46). What the core's counters may have counted
of it is counted (log 11). -/
def switchOut (s : State) (g : Gang) : State :=
  let hs := s.gangHarts g
  let lanes := quadLanes g.quads
  let s1 := hs.foldl (fun t h => drainLq (leaveStores t g.key h) h) (settleCounters s g.core)
  let bases := gangBankKeys g
  let saved : SavedGang :=
    { harts := hs.map (suspendHart lanes), scratchpad := saveBanks s1 bases, padPoison := savePoison s1 bases, lanes := lanes,
      since := s1.nextKey, time := s.time }
  let g1 := { g with
    harts := [], quads := 0#4, banks := [], reclaim := none, vgrantmax := 0xF#4, sliceEnd := none, sliceExhausted := false,
    saved := some saved }
  let s2 := clearBanks (s1.dropHolds g.key g.harts) bases
  (gateFree (({ s2 with nextKey := s2.nextKey + 1 }.putGang g1).removeGang g.key) g.core |>.countCore g.core 0x1D 1).wake .lineLock

/-! Reclaims (R41 to R44). -/

/-- A register image without the 64-byte parts of the lanes given up: the quads of `old` in order, those of `new` kept. -/
def keepLanes (old new : Nat) (unit image : Nat) : Nat :=
  let qs := (List.range 4).filter (fun n => old.testBit n)
  let parts := ((qs.zipIdx).filter (fun q => new.testBit q.1)).map (fun q => getBits image (4 * unit * q.2) (4 * unit))
  parts.foldr (fun p acc => p + 2 ^ (4 * unit) * acc) 0

/-- A register of a gang whose mask shrinks (R41, R187). -/
def VReg.shrink (old new : Nat) (r : VReg) : VReg :=
  if r.tag = .g then
    { r with image := BitVec.ofNat 8192 (keepLanes old new 512 r.image.toNat),
             poison := BitVec.ofNat 1024 (keepLanes old new 64 r.poison.toNat) }
  else r

/-- A hart of a gang whose reclaim takes effect (R41, R414). -/
def Hart.reclaimed (old new cut : Nat) (h : Hart) : Hart :=
  { h with v := h.v.map (VReg.shrink old new), size := h.size - BitVec.ofNat 8 cut }

/-- Whether every live hart of a gang has stopped at an RP point (R41). -/
def allStopped (s : State) (g : Gang) : Bool :=
  (s.gangHarts g).any (fun h => !h.isHalted) &&
  (s.gangHarts g).all (fun h => h.isHalted || h.wait == some .reclaimPoint)

/-- The lanes and desks of a reclaim taking effect; the stopped instructions complete next (R41, R174). -/
def applyReclaim (s : State) (g : Gang) (r : Reclaim) : State :=
  let old := g.quads.toNat
  let new := old &&& g.vgrantmax.toNat
  let f (h : Hart) : Hart := if h.gang = some g.key then h.reclaimed old new r.deskCut else h
  gateFree ({ s with hart := f s.hart, others := s.others.map f }.putGang
    { g with quads := BitVec.ofNat 4 new, vgrantmax := 0xF#4, reclaim := none }) g.core

/-- RECLAIM_ABANDON (R43). -/
def abandonReclaim (s : State) (g : Gang) : State :=
  match g.reclaim with
  | some r => if r.deadline ≤ s.time ∧ gangLocks s g = false then switchOut s g else s
  | none => s

/-! Retirement and completion (R48, R49). -/

/-- Whether a placed gang may retire: every hart halted, and its scalar loads and atomics performed. -/
def gangFinished (s : State) (g : Gang) : Bool := g.placed && (s.gangHarts g).all (fun h => h.isHalted && h.slq.isEmpty)

/-- A gang retired: its resources cleared and given back; its launch counts it (R48). It stays listed, without harts, until
its launch completes. -/
def retireGang (s : State) (g : Gang) : State :=
  let hs := s.gangHarts g
  let s1 := hs.foldl (fun t h => drainLq (leaveStores t g.key h) h) (settleCounters s g.core)
  let s2 := clearBanks (s1.dropHolds g.key g.harts) (gangBankKeys g)
  let s3 := (s2.putGang { g with harts := [], quads := 0#4, banks := [], barriers := [], reclaim := none, sliceEnd := none }).removeGang g.key
  let s4 := match s3.findLaunch g.launch with
    | some l => s3.putLaunch { l with retired := l.retired + 1 }
    | none => s3
  gateFree s4 g.core

/-- The key of `len` bytes of the cached aperture of a home region of this device that a realm may access (R49, R454). -/
def realmKey (s : State) (realm addr len : Nat) : Option Nat :=
  if deviceOf addr = s.device then
    let first := localOf addr
    match localKey s (realmAgent realm) first, localKey s (realmAgent realm) (first + len - 1) with
    | some (.cached, k), some (.cached, _) => some k
    | _, _ => none
  else none

/-- A completion record (R49). -/
def completionBytes (status faults : Nat) (time : Word) : List Byte := toBytes 4 status ++ toBytes 4 faults ++ wordBytes time

/-- A count of LQCTL, saturating at 255 (R456). -/
def bump255 (n : Nat) : Nat := if n < 255 then n + 1 else n

/-- Whether `len` bytes that a dispatcher reads or writes for a realm lie on a line held locked: it waits (R104, R334). -/
def realmLocked (s : State) (realm addr len : Nat) : Bool :=
  (realmKey s realm addr len).any (fun k => lineLocked s k || lineLocked s (k + len - 1))

/-- Whether a launch's completion record, or its successor's record, lies on a locked line. -/
def recordsLocked (s : State) (r : LaunchRecord) : Bool :=
  (recDone r != 0 && realmLocked s (recRealm r) (recDone r) 16) ||
  (recNext r != 0 && (realmLocked s (recRealm r) (recNext r) 64 || realmLocked s (recRealm r) (recNext r + 64) 64))

/-- Whether the head of a queue is to be rejected and its completion record lies on a locked line. -/
def checkLocked (s : State) (q : Nat) : Bool :=
  (s.queue q).records.head?.any (fun r => recordStatus r != 0 && recDone r != 0 && realmLocked s (recRealm r) (recDone r) 16)

/-- The completion record written, or its loss counted (R49). -/
def writeCompletion (s : State) (queue : Nat) (r : LaunchRecord) (status faults : Nat) : State :=
  if recDone r = 0 then s
  else
    match realmKey s (recRealm r) (recDone r) 16 with
    | some key => storeRun key (completionBytes status faults s.time) s
    | none => s.setQueue queue { s.queue queue with dropped := bump255 (s.queue queue).dropped }

/-- The bytes of a launch record read for a realm, none where the read fails (R49, R457). -/
def readRecord (s : State) (realm addr : Nat) : Option LaunchRecord :=
  if addr % 64 = 0 then
    match realmKey s realm addr 64, realmKey s realm (addr + 64) 64 with
    | some a, some b =>
      if anyPoison s a 64 || anyPoison s b 64 then none
      else some (BitVec.ofNat 1024 (ofBytes (readKeys s a 64 ++ readKeys s b 64)))
    | _, _ => none
  else none

/-- The successor of a completed launch enqueued, held, or counted as lost (R49, R350). -/
def enqueueSuccessor (s : State) (queue : Nat) (r : LaunchRecord) : State :=
  if recNext r = 0 then s
  else
    match readRecord s (recRealm r) (recNext r) with
    | some n =>
      let x := s.queue queue
      heldEnters (s.setQueue queue { x with held := x.held ++ [recSetRealm n (recRealm r)] }) queue
    | none => s.setQueue queue { s.queue queue with succLost := bump255 (s.queue queue).succLost }

/-- LAUNCH_CHECK (R24): the head of a queue checked; a rejected record completes and leaves the queue, once no lock holds its completion
record. -/
def checkHead (s : State) (q : Nat) : State :=
  let x := s.queue q
  match x.head, x.records with
  | some h, r :: _ =>
    if h.launch.isSome || checkLocked s q then s
    else if recordStatus r ≠ 0 then (writeCompletion s q r (recordStatus r) 0).popQueue q
    else
      let l : Launch := ⟨s.nextKey, q, r, 0, 0, 0, false⟩
      { s with nextKey := s.nextKey + 1, launches := s.launches ++ [l] }.setQueue q { x with head := some { h with launch := some l.key } }
  | _, _ => s

/-- Gangs of a launch. -/
def State.gangsOf (s : State) (l : Launch) : List Gang := s.gangs.filter (fun g => g.launch == l.key)

/-- Whether a launch is complete: every gang retired, every near-memory command recorded and every store performed
(R48, R49, R362, R374), and no lock holds its records. -/
def launchDone (s : State) (l : Launch) : Bool :=
  l.retired == recCount l.record && !(recordsLocked s l.record) && !(s.nq.any (fun c => (s.gangsOf l).any (fun g => g.key == c.gang))) &&
  !(s.passed.any (fun p => (s.gangsOf l).any (fun g => g.key == p.gang)))

/-- LAUNCH_COMPLETE (R49). -/
def completeLaunch (s : State) (l : Launch) : State :=
  let s1 := writeCompletion s l.queue l.record (if l.terminated then 4 else 0) l.faults
  let s2 := enqueueSuccessor s1 l.queue l.record
  { s2 with launches := s2.launches.filter (fun o => o.key != l.key), gangs := s2.gangs.filter (fun g => g.launch != l.key) }

/-! The dispatcher's work in one event. -/

/-- A candidate placed on a core (R27, R468); a head whose last gang is placed leaves its queue (R26). -/
def placeCandidate (s : State) (die : Nat) (q : Option Nat) (w : Want) (core quads : Nat) : State :=
  match w.saved with
  | some key =>
    match s.findGang key with
    | some g => (g.saved.map (fun v => placeSaved s g v core quads)).getD s
    | none => s
  | none =>
    match s.findLaunch w.launch with
    | some l =>
      let s1 := placeNew s l core quads
      let s2 := { s1 with roundRobin := s1.roundRobin.setIfInBounds die (q.getD 0) }
      if l.placed + 1 = recCount l.record then s2.popQueue (q.getD 0) else s2
    | none => s

/-- How room is made for a candidate: a hall pass on a gang, with KEEP and DESKCUT, or a full context switch of a gang. -/
inductive RoomPlan where
  | hallPass (gang : Gang) (keep cut : Nat)
  | switch (gang : Gang)
deriving DecidableEq, Repr

/-- How one victim makes room for a candidate: a hall pass where R40 allows one, else a full context switch where its resources make room
(R46). -/
def roomFrom (s : State) (w : Want) (g : Gang) : Option RoomPlan :=
  match hallPass s w g with
  | some k => some (.hallPass g k.1 k.2)
  | none => if needsPlaceOf s w g then some (.switch g) else none

/-- Room for a candidate on a die: from the first of the gangs of lower priority, in the order of R46, that makes room, or from an idle gang
of at most its priority (R38). -/
def roomPlan (s : State) (die : Nat) (w : Want) : Option RoomPlan :=
  if s.gangs.any (fun g => g.reclaim.isSome && g.core / Config.coresPerDie == die) then none
  else
    let gs := victimOrder s (s.gangs.filter (fun g => g.placed && g.core / Config.coresPerDie == die))
    let lower := gs.filter (fun g => decide (recPriority (s.recordOf g) < recPriority w.record))
    let idle := gs.filter (fun g => decide (recPriority (s.recordOf g) ≤ recPriority w.record) && gangIdle s g)
    (lower ++ idle).findSome? (roomFrom s w)

/-- The first candidate of a die that fits a core, with its queue, the core and the lane mask. -/
def firstFit (s : State) (die : Nat) : Option ((Option Nat × Want) × (Nat × Nat)) :=
  (candidates s die).findSome? (fun x => (fitOnDie s x.2 die).map (fun p => (x, p)))

/-- The room a dispatcher makes where no candidate fits: for the first that may have it. -/
def firstRoom (s : State) (die : Nat) : Option RoomPlan :=
  if (firstFit s die).isSome then none else (candidates s die).findSome? (fun x => roomPlan s die x.2)

/-- GANG_PLACEMENT for the dispatcher of a die: the first candidate that fits, where it is a new gang (R25 to R29); where none fits,
the hall pass the dispatcher may use (R40). -/
def placeNext (s : State) (die : Nat) : State :=
  match firstFit s die with
  | some (x, p) => if x.2.saved = none then placeCandidate s die x.1 x.2 p.1 p.2 else s
  | none =>
    match firstRoom s die with
    | some (.hallPass g keep cut) => startReclaim s g keep cut
    | _ => s

/-- GANG_RESTORE for the dispatcher of a die: the first candidate that fits, where it is a switched-out gang (R468). -/
def restoreNext (s : State) (die : Nat) : State :=
  match firstFit s die with
  | some (x, p) => if x.2.saved = none then s else placeCandidate s die x.1 x.2 p.1 p.2
  | none => s

/-- The gang that gives way where every live hart of a core waits for desk (R39). -/
def deskVictim (s : State) (core : Nat) : Option Gang :=
  let live := s.harts.filter (fun h => coreOfHart h.hid == core && h.run == .running)
  if !live.isEmpty && live.all (fun h => h.wait == some .desk) then
    (victimOrder s ((placedOn s core []).filter (fun g => !(gangLocks s g)))).head?
  else none

/-- Whether a dispatcher switches a gang out now, to make room (R38, R46) or for a core whose harts all wait for desk (R39). -/
def givesWay (s : State) (g : Gang) : Bool :=
  g.placed && !(gangLocks s g) &&
  ((deskVictim s g.core).any (fun v => v.key == g.key) ||
    (match firstRoom s (g.core / Config.coresPerDie) with
     | some (.switch v) => v.key == g.key
     | _ => false))

/-- TIME_SLICE_EXPIRY (R45, R361): a gang whose slice is exhausted is switched out for a rival, or its slice renews. -/
def expireSlice (s : State) (g : Gang) : State :=
  if g.placed = true ∧ (g.sliceExhausted = true ∨ g.sliceEnd.any (fun t => decide (t ≤ s.time)) = true) then
    if hasRival s g then switchOut s g
    else s.putGang { g with sliceEnd := sliceFrom s (s.recordOf g), sliceExhausted := false }
  else s

end Sys2Proof.Machine
end

