-- ==== Sys2Proof/Machine/Control.lean ====
section
/-! DEFINITION. The VC instructions but `vret` and `aret`: length setting, fences, barriers, waits, queues, launches, context
and reclaim (R134 to R136, R165 to R172, R346 to R364, R412 to R415). -/

namespace Sys2Proof.Machine

/-! `setl` (R166 to R171). -/

/-- Whether a requested vtype is illegal (R166). -/
def vtypeIllegal (vt : Nat) : Bool :=
  let sew := getBits vt 0 3
  let alt := vt.testBit 3
  let b := getBits vt 6 3
  decide (5 < sew) || decide (5 < b) || (alt && (sew == 0 || sew == 4 || sew == 5)) ||
  (b != 0 && (sew == 1 || sew == 5 || alt)) || decide (2 ^ 10 ≤ vt)

/-- The K-block length of a vtype, 0 where it has none (R169). -/
def kBlock (sew block : Nat) : Nat :=
  if block = 0 then match sew with | 0 => 8 | 1 => 24 | 2 => 24 | 3 => 8 | _ => 0 else 0

/-- The row cap of a vtype at a lane count (R169). -/
def rowCap (vt l : Nat) : Nat :=
  let sew := getBits vt 0 3
  let kb := kBlock sew (getBits vt 6 3)
  if kb = 0 then 0 else min 128 (l * 512 * 2 ^ getBits vt 4 2 / (kb * sewBits sew))

/-- The columns a legal vtype grants at a lane count (R168). -/
def grantCols (vt l cols : Nat) : Nat :=
  let vlmax := l * 512 * 2 ^ getBits vt 4 2 / sewBits (getBits vt 0 3)
  let b := blockOf (getBits vt 6 3)
  if b = 0 then min cols vlmax else min (b * ceilDiv cols b) (min (b * (vlmax / b)) (128 * b))

/-- The power lane ceiling the current hart sees, in lanes (R175): the one in force at the admission of the instruction in its window,
or at the moment a stop at a reclaim point ends (R170), else that of its core. -/
def State.ceiling (s : State) : Nat :=
  let now := (s.core (coreOfHart s.hart.hid)).ceilq
  4 * (if s.hart.wait = some .reclaimPoint then now else (s.hart.window.map InFlight.ceiling).getD now).toNat

/-- The lane count a `setl` uses now (R168). -/
def State.grantLanes (s : State) : Nat := min (s.lanes s.hart) s.ceiling

/-- The state after a `setl` with a legal vtype (R168). -/
def grantLegal (vt rows cols : Nat) (d : XReg) (s : State) : State :=
  let l := s.grantLanes
  let vl := grantCols vt l cols
  let vrow := min rows (rowCap vt l)
  (s.onHart (fun h => { h with
    vl := BitVec.ofNat 32 vl, vrow := BitVec.ofNat 32 vrow, vtype := BitVec.ofNat 64 vt, lgrant := BitVec.ofNat 5 l })).setX d
    (BitVec.ofNat 64 (vrow * 2 ^ 32 + vl))

/-- The state after a `setl` with an illegal vtype (R168). -/
def grantIllegal (d : XReg) (s : State) : State :=
  (s.onHart (fun h => { h with vl := 0#32, vrow := 0#32, vtype := 0x8000000000000000#64 })).setX d 0#64

/-- Whether a reclaim is pending on the current hart's gang (R41). -/
def State.reclaimPending (s : State) : Bool := (s.gangOf s.hart).any (fun g => g.reclaim.isSome)

/-- `setl` and `setl.r`: rs1, the requested vtype and rd (R168, R170, R41). -/
def setlOp (a : XReg) (vt : Nat) (d : XReg) (e : VEntry) (s : State) : VRes :=
  let req := (e.op0.getD 0#64).toNat
  let rows := if a = 0#5 then 2 ^ 32 - 1 else req / 2 ^ 32
  let cols := if a = 0#5 then 2 ^ 32 - 1 else req % 2 ^ 32
  if vtypeIllegal vt then .ok (grantIllegal d (s.countAdmitted e 0))
  else if vt.testBit 9 = true ∧ s.reclaimPending = true then
    .error (.wait .reclaimPoint (if s.hart.wait = some .reclaimPoint then s else s.countHart 0x1C 1 e.mode))
  else .ok (grantLegal vt rows cols d (s.countAdmitted e 0))

/-- The operands of a `setl`: rs1 = x0 is not read (R252). -/
def opSetl (s : State) (a : XReg) : Captured := if a = 0#5 then noOps else opX s a

/-- The operands of a `setl.r`. -/
def opSetlR (s : State) (a b : XReg) : Captured := { opSetl s a with op1 := some (s.hart.getX b) }

/-! Fences and `drain` (R363, R364, R373). -/

/-- Whether a scope contains the base dies, whose line events a fence then orders (R372, R423). -/
def reachesBaseDies : Scope → Bool
  | .dev => true
  | .dom => true
  | .sys => true
  | _ => false

/-- A fence that orders line events: the hart's vector loads no longer read bytes from before one (R340, R373; log 8). -/
def Hart.acquire (sc : Scope) (h : Hart) : Hart := if reachesBaseDies sc then { h with oldLines := [] } else h

/-- A fence that waits for no store: a hart's loads are performed in order, and its vector stores among themselves (R373; log 3). -/
def plainFence (sc : Scope) (e : VEntry) (s : State) : VRes := .ok ((s.onHart (Hart.acquire sc)).countAdmitted e 0)

/-- A fence after the stores of one stream or of both: each is performed before anything later (R373). -/
def fenceAfter (drain : State → Except Stop State) (sc : Scope) (e : VEntry) (s : State) : VRes := keeping s do
  let s1 ← drain s
  plainFence sc e s1

/-- A fence after the scalar stores of the hart (R373). -/
def scalarFence : Scope → VEntry → State → VRes := fenceAfter drainSsq

/-- A fence after the vector stores of the hart (R373). -/
def storeFence : Scope → VEntry → State → VRes := fenceAfter drainVsq

/-- A fence after the stores of both streams (R373). -/
def bothFence : Scope → VEntry → State → VRes := fenceAfter drainStores

/-- Every class sees every write that came before: the merge of `fence.alias` (R377; log 8). -/
def State.merged (s : State) : State := { s with stale := [] }

/-- `fence.alias`: after the stores of both streams, and no class sees a byte as it was before another class's write (R377; log 8). -/
def aliasFence (sc : Scope) (e : VEntry) (s : State) : VRes := do
  let s1 ← bothFence sc e s
  .ok s1.merged

/-- Whether a near-memory command belongs to a hart (R341). -/
def NmCommand.ofHart (c : NmCommand) (h : Hart) : Bool := h.gang == some c.gang && h.rank == c.rank

/-- Whether every line of a command has been applied or skipped (R339). -/
def NmCommand.linesDone (c : NmCommand) : Bool :=
  (List.range c.dst.length).all (fun i => c.done.contains i || c.skipped.contains i)

/-- `fence.nm`: after the line events of the hart's near-memory commands, in a scope that contains the base dies (R372, R373, R423). -/
def nmFence (sc : Scope) (e : VEntry) (s : State) : VRes :=
  if reachesBaseDies sc && s.nq.any (fun c => c.ofHart s.hart && !c.linesDone) then .error (.wait .nmDrain s) else plainFence sc e s

/-- `drain` (R364): the queues named have drained, then a pending near-memory error is reported. Naming the VIQ orders every access of
earlier vector instructions, so their stores are performed too (R373). -/
def drainOp (q : BitVec 6) (e : VEntry) (s : State) : VRes :=
  let stores := q.getLsbD 0 || q.getLsbD 2
  match (if stores then drainVsq s else .ok s) with
  | .error (.wait r _) => .error (.wait r s)
  | .error x => .error x
  | .ok s1 =>
    if q.getLsbD 5 = true ∧ s1.hart.lq ≠ [] then .error (.wait .queueRoom s1)
    else if q.getLsbD 3 = true ∧ s1.ownCommands ≠ [] then .error (.wait .nmDrain s1)
    else
      match (if q.getLsbD 3 then s1.hart.nmError else none) with
      | some a =>
        if s.hart.vsq ≠ [] ∧ stores = true then .error (.wait .storeRoom s1) else .error (.trap 10 a .clearNmError)
      | none => .ok ((if q.getLsbD 3 then s1.onHart (Hart.acquire .sys) else s1).countAdmitted e 0)

/-! Barriers (R357, R358). -/

/-- The gang and the barrier an identifier names (R357). -/
def barrierAt (e : VEntry) (s : State) : Except Stop (Gang × Nat × Barrier) :=
  let id := (e.op0.getD 0#64).toNat
  match s.gangOf s.hart with
  | some g => match g.barriers[id]? with | some b => .ok (g, id, b) | none => .error (trapWord 1 e)
  | none => .error (trapWord 1 e)

/-- The recorded phase of a barrier. -/
def Hart.phaseOf (h : Hart) (id : Nat) : Option Nat := (h.barPhases.find? (fun p => p.1 == id)).map (fun p => p.2)

/-- The recorded phase of a barrier set, or cleared. -/
def Hart.setPhase (h : Hart) (id : Nat) (p : Option Nat) : Hart :=
  { h with barPhases := (p.elim [] (fun n => [(id, n)])) ++ h.barPhases.filter (fun x => x.1 != id) }

/-- An arrival: the hart enters the arrived set of the current phase, records the phase, and the phase may complete (R358). -/
def arriveAt (s : State) (g : Gang) (id : Nat) (b : Barrier) : State :=
  let b1 := { b with arrived := if b.arrived.contains s.hart.rank then b.arrived else s.hart.rank :: b.arrived }
  (s.putGang { g with barriers := g.barriers.set id (b1.settle (haltedRanks s g)) }).onHart (fun h => h.setPhase id (some b.phase))

/-- A wait for the recorded phase, or for the current one where none is recorded (R358). -/
def awaitPhase (id phase : Nat) (e : VEntry) (s : State) : VRes :=
  match s.hart.phaseOf id with
  | none => .error (.wait .barrier (s.onHart (fun h => h.setPhase id (some phase))))
  | some p =>
    if phase = p then .error (.wait .barrier s) else .ok ((s.onHart (fun h => h.setPhase id none)).countAdmitted e 0)

/-- `bar.arrive` (R358): it completes at once, though R37 lists it among the instructions that wait. -/
def barArriveOp (e : VEntry) (s : State) : VRes := keeping s do
  let (g, id, b) ← barrierAt e s
  let s1 ← drainStores s
  .ok ((arriveAt s1 g id b).countAdmitted e 0)

/-- `bar.wait` (R358). -/
def barWaitOp (e : VEntry) (s : State) : VRes := do
  let (_, id, b) ← barrierAt e s
  awaitPhase id b.phase e s

/-- `bar.sync` (R358): executed again after a wait, it only waits (R365). -/
def barSyncOp (e : VEntry) (s : State) : VRes := do
  if s.hart.wait = some .barrier then barWaitOp e s
  else
    let (g, id, b) ← barrierAt e s
    let s1 ← keeping s (drainStores s)
    barWaitOp e (arriveAt s1 g id b)

/-- `bar.init` (R358). -/
def barInitOp (e : VEntry) (s : State) : VRes := do
  let (g, id, b) ← barrierAt e s
  let c := (e.op1.getD 0#64).toNat
  need e 1 (id != 0 && decide (1 ≤ c) && decide (c ≤ recHarts (s.recordOf g)))
  let b1 := if b.arrived = [] then { b with count := c, pending := none } else { b with pending := some c }
  .ok ((s.putGang { g with barriers := g.barriers.set id b1 }).countAdmitted e 0)

/-! Waiting, yielding, halting (R359 to R362). -/

/-- The apertures of `wait.mem`. -/
def acceptWatched : Aperture → Bool → Bool := fun ap _ => ap == .cached || ap == .gangScratchpad

/-- `wait.mem` (R359): a load of the scalar stream, after the scalar stores of its hart. -/
def waitMemOp (d : XReg) (e : VEntry) (s : State) : VRes :=
  let addr := (e.op0.getD 0#64).toNat
  let limit := e.op1.getD 0#64
  let req : ProbeReq := ⟨s.entryAgent e, false, [(addr, 8)], if addr % 8 = 0 then [] else [addr], acceptWatched⟩
  match (do
      let s0 ← drainSsq s
      probeFor e s0 false [req]) with
  | .error (.wait r _) => .error (.wait r s)
  | .error x => .error x
  | .ok (ps, s1) =>
    let l := ps.flatMap (fun p => p.pieces.flatMap id)
    let v := valueOf (readNow s1 l)
    if v.2 then .error (.trap 9 (wordVal e.word) (.marked (probeMarks [req] ps)))
    else if BitVec.ofNat 64 v.1 ≠ e.op2.getD 0#64 ∨ (limit ≠ 0#64 ∧ limit ≤ s.time) then
      .ok ((s1.setX d (BitVec.ofNat 64 v.1)).countAdmitted e 0)
    else .error (.wait (.waitMem ((l.head?.map Piece.key).getD 0 / 64) limit) s1)

/-- `wait.time` (R360). -/
def waitTimeOp (e : VEntry) (s : State) : VRes :=
  let deadline := e.op0.getD 0#64
  if deadline ≤ s.time then .ok (s.countAdmitted e 0) else .error (.wait (.waitTime deadline) s)

/-- `yield` (R361): where a rival needs the core, the gang is marked as at the end of its slice, and the dispatcher acts next; a gang
whose instructions hold line locks is switched out once they have completed (R47). -/
def yieldOp (e : VEntry) (s : State) : VRes :=
  let s1 := s.countAdmitted e 0
  match s1.gangOf s1.hart with
  | some g =>
    if hasRival s1 g then
      .ok { s1.putGang { g with sliceExhausted := true } with agenda := .event (.timeSliceExpiry g.key) :: s1.agenda }
    else .ok s1
  | none => .ok s1

/-- `halt` and `kend`, after the stores of both streams (R362, R48). -/
def haltOp (e : VEntry) (s : State) : VRes := keeping s do
  let s1 ← drainStores s
  if s1.hart.lq ≠ [] then .error (.wait .queueRoom s)
  else .ok ((s1.countAdmitted e 0).onHart Hart.halt).settleOwn

/-! Queues (R351 to R356). -/

/-- Harts of the current hart's gang, 0 for a hart of no gang. -/
def State.gangSize (s : State) : Nat := ((s.gangOf s.hart).map (fun g => g.harts.length)).getD 0

/-- Harts of the gang with a lower number that wait to push to the same pigeonhole (R354, R365). -/
def earlierPushers (s : State) (id : Word) : Nat :=
  (s.others.filter (fun h => h.gang == s.hart.gang && decide (h.hid < s.hart.hid) && h.wait == some .qpush &&
    (h.inFlight.head?.any (fun e => e.op0 == some id)))).length

/-- `qpush` (R354). -/
def qpushOp (e : VEntry) (s : State) : VRes := keeping s do
  let id := (e.op0.getD 0#64).toNat
  need e 1 (decide (0x10 ≤ id) && decide (id < 0x10 + s.gangSize))
  let s1 ← drainStores s
  match s1.harts.find? (fun h => h.gang == s.hart.gang && h.rank == id - 0x10 && h.run != .free) with
  | none => .error (trapWord 1 e)
  | some t =>
    if t.isHalted then .ok (s1.countAdmitted e 0)
    else if Config.pigeonholeDepth ≤ t.pigeonhole.length + earlierPushers s (e.op0.getD 0#64) then .error (.wait .qpush s)
    else .ok ((s1.putHart { t with pigeonhole := t.pigeonhole ++ [e.op1.getD 0#64] }).countAdmitted e 0)

/-- `qpop` and `qpop.t` (R355, R352). -/
def qpopOp (traps : Bool) (d : XReg) (e : VEntry) (s : State) : VRes :=
  let id := (e.op0.getD 0#64).toNat
  if id = 0 then
    match s.hart.bq with
    | b :: rest => .ok (((s.onHart (fun h => { h with bq := rest })).setX d (if b then 1#64 else 0#64)).countAdmitted e 0)
    | [] => if traps then .error (trapWord 14 e) else .ok ((s.setX d (-1#64)).countAdmitted e 0)
  else if id = 0x10 + s.hart.rank ∧ s.hart.rank < s.gangSize then
    match s.hart.pigeonhole with
    | v :: rest => .ok (((s.onHart (fun h => { h with pigeonhole := rest })).setX d v).countAdmitted e 0)
    | [] => if traps then .error (trapWord 14 e) else .error (.wait .qpop s)
  else .error (trapWord 1 e)

/-- `qany` and `qall` (R356). -/
def qmaskOp (all : Bool) (m : MaskNo) (e : VEntry) (s : State) : VRes := do
  let c := s.cfg
  needVtype e c
  needBq e s
  let bit (i : Nat) : Bool := s.hart.maskBit m i
  let v := if all then (List.range c.vl).all bit else (List.range c.vl).any bit
  .ok ((s.countAdmitted e 0).onHart (fun h => { h with bq := h.bq ++ [v] }))

/-- `launch` (R351). -/
def launchOp (d : XReg) (e : VEntry) (s : State) : VRes := keeping s do
  let base := (e.op0.getD 0#64).toNat
  let q := (e.op1.getD 0#64).toNat
  need e 1 (decide (q ≤ 63))
  let s1 := s.countAdmitted e 0
  let rs := [plainReq s1 e false [(base, 128)] (if base % 64 = 0 then [] else [base])]
  let (ps, s2) ← probeFor e s1 false rs
  if Config.lqDepth ≤ s.hart.lq.length then .error (.wait .queueRoom s)
  else
    let s3 ← drainStores s2
    let v := valueOf (readNow s3 (ps.flatMap (fun p => p.pieces.flatMap id)))
    needProbed e 9 (probeMarks rs ps) (!v.2)
    let realm := s.realmOf s.hart
    let r := recSetRealm (BitVec.ofNat 1024 v.1) realm
    if (s3.queue q).enable = false ∨ (s3.queue q).realm ≠ realm then .ok (s3.setX d 2#64)
    else if s3.queueHasSlot q = false then .ok (s3.setX d 1#64)
    else .ok ((s3.onHart (fun h => { h with lq := h.lq ++ [⟨q, r⟩] })).setX d 0#64)

/-- `qlen` (R353, R352). -/
def qlenOp (d : XReg) (e : VEntry) (s : State) : VRes :=
  let id := (e.op0.getD 0#64).toNat
  let answer (n : Nat) : VRes := .ok ((s.setX d (BitVec.ofNat 64 n)).countAdmitted e 0)
  if id = 0 then answer s.hart.bq.length
  else if id = 0x200 then answer s.hart.lq.length
  else if 0x10 ≤ id ∧ id < 0x10 + s.gangSize then
    answer (((s.harts.find? (fun h => h.gang == s.hart.gang && h.rank == id - 0x10 && h.run != .free)).map
      (fun h => h.pigeonhole.length)).getD 0)
  else if 0x100 ≤ id ∧ id < 0x140 then
    let x := s.queue (id - 0x100)
    if x.enable = true ∧ x.realm = s.realmOf s.hart then answer x.records.length
    else .error (.trap 5 (e.op0.getD 0#64) .plain)
  else .error (trapWord 1 e)

/-! `reclaim` and `vprobe` (R414, R415). -/

/-- `reclaim` (R414). -/
def reclaimOp (e : VEntry) (s : State) : VRes :=
  let hid := getBits (e.op0.getD 0#64).toNat 0 10
  let k := (e.op1.getD 0#64).toNat
  let keep := getBits k 0 4
  let cut := getBits k 8 8
  if getBits k 4 4 ≠ 0 ∨ 2 ^ 16 ≤ k then .error (trapWord 1 e)
  else
    let s1 := s.countAdmitted e 0
    match s.gangs.find? (fun g => g.harts.contains hid) with
    | none => .ok s1
    | some g =>
      let mask := g.quads.toNat
      let size := ((s.gangHarts g).map (fun h => h.size.toNat)).headD 0
      if (s.gangHarts g).all Hart.isHalted then .ok s1
      else if recReclaimable (s.recordOf g) = false ∨ keep &&& mask = 0 ∨ size < cut + 8 then .error (trapWord 1 e)
      else if keep &&& mask = mask ∧ cut = 0 then .ok s1
      else .ok (startReclaim s1 g keep cut)

/-- The outcome of every page of a range as a U-mode access (R415). -/
def probedPages (s : State) (base len : Nat) (write : Bool) : List (Nat × Except XErr Leaf) :=
  (List.range (if len = 0 then 0 else (base % 4096 + len - 1) / 4096 + 1)).map (fun i =>
    let p := wrap (base / 4096 * 4096 + 4096 * i)
    (p / 4096, translate s (s.agent s.hart .user) (if write then .write else .read) p))

/-- Whether an outcome is a page with V = 0. -/
def outcomeMissing : Except XErr Leaf → Bool
  | .error .missing => true
  | _ => false

/-- Whether an outcome fails for another reason. -/
def outcomeFails : Except XErr Leaf → Bool
  | .error .missing => false
  | .error _ => true
  | .ok _ => false

/-- Whether the walk of an outcome meets an entry that it waits for (R104, R334, R387). -/
def outcomeLocked : Except XErr Leaf → Bool
  | .error .locked => true
  | _ => false

/-- `vprobe` (R415). -/
def vprobeOp (d : XReg) (e : VEntry) (s : State) : VRes :=
  let base := (e.op0.getD 0#64).toNat
  let k := (e.op1.getD 0#64).toNat
  let len := getBits k 0 40
  if getBits k 40 23 ≠ 0 then .error (trapWord 1 e)
  else
    let s1 := s.countAdmitted e 0
    if len = 0 then .ok ((s1.onHart (fun h => { h with vmisscnt := 0#64 })).setX d 0#64)
    else
      let ps := probedPages s base len (k.testBit 63)
      let missing := (ps.filter (fun p => outcomeMissing p.2)).map (fun p => (p.1, k.testBit 63))
      if ps.any (fun p => outcomeLocked p.2) then .error (.wait .lineLock s) else
      if let some r := (missRecordKey s1).bind (fun key => recordWait s1 key 512) then .error (.wait r s) else
      let s2 := (writeMissRecord s1 missing).countHart 5 (min 64 missing.length) e.mode
      .ok (s2.setX d (BitVec.ofNat 64 (min (2 ^ 32 - 1) missing.length + (if ps.any (fun p => outcomeFails p.2) then 2 ^ 32 else 0))))

/-- `setl` (R168). -/
def vSetl (v : BitVec 10) (a : BitVec 5) (d : BitVec 5) : VEntry → State → VRes := fun e => setlOp a v.toNat d e
/-- Dispatch of `setl`. -/
def execSetl (v : BitVec 10) (a : BitVec 5) (d : BitVec 5) (s : State) : Res := issue 0 (packWord (0#2 ++ v.extractLsb' 8 2) (v.extractLsb' 5 3) (v.extractLsb' 0 5) a 0#3 d 0x77#7) (opSetl s a) (vSetl v a d) s

/-- `setl.r` (R168). -/
def vSetlR (_b : BitVec 5) (a : BitVec 5) (d : BitVec 5) : VEntry → State → VRes := fun e => setlOp a (e.op1.getD 0#64).toNat d e
/-- Dispatch of `setl.r`. -/
def execSetlR (b : BitVec 5) (a : BitVec 5) (d : BitVec 5) (s : State) : Res := issue 0 (packWord 0#4 0#3 b a 1#3 d 0x77#7) (opSetlR s a b) (vSetlR b a d) s

/-- `fence.sv` (R373). -/
def vFenceSv (sc : Scope) : VEntry → State → VRes := scalarFence sc
/-- Dispatch of `fence.sv`. -/
def execFenceSv (sc : Scope) (s : State) : Res := issue 0 (packWord 0#4 sc.bits 0#5 0#5 2#3 0#5 0x77#7) noOps (vFenceSv sc) s

/-- `fence.vs` (R373). -/
def vFenceVs (sc : Scope) : VEntry → State → VRes := storeFence sc
/-- Dispatch of `fence.vs`. -/
def execFenceVs (sc : Scope) (s : State) : Res := issue 0 (packWord 1#4 sc.bits 0#5 0#5 2#3 0#5 0x77#7) noOps (vFenceVs sc) s

/-- `fence.vv` (R373). -/
def vFenceVv (sc : Scope) : VEntry → State → VRes := plainFence sc
/-- Dispatch of `fence.vv`. -/
def execFenceVv (sc : Scope) (s : State) : Res := issue 0 (packWord 2#4 sc.bits 0#5 0#5 2#3 0#5 0x77#7) noOps (vFenceVv sc) s

/-- `fence.nm` (R373). -/
def vFenceNm (sc : Scope) : VEntry → State → VRes := nmFence sc
/-- Dispatch of `fence.nm`. -/
def execFenceNm (sc : Scope) (s : State) : Res := issue 0 (packWord 3#4 sc.bits 0#5 0#5 2#3 0#5 0x77#7) noOps (vFenceNm sc) s

/-- `fence.alias` (R373). -/
def vFenceAlias (sc : Scope) : VEntry → State → VRes := aliasFence sc
/-- Dispatch of `fence.alias`. -/
def execFenceAlias (sc : Scope) (s : State) : Res := issue 0 (packWord 4#4 sc.bits 0#5 0#5 2#3 0#5 0x77#7) noOps (vFenceAlias sc) s

/-- `fence.rel` (R373). -/
def vFenceRel (sc : Scope) : VEntry → State → VRes := bothFence sc
/-- Dispatch of `fence.rel`. -/
def execFenceRel (sc : Scope) (s : State) : Res := issue 0 (packWord 5#4 sc.bits 0#5 0#5 2#3 0#5 0x77#7) noOps (vFenceRel sc) s

/-- `fence.acq` (R373). -/
def vFenceAcq (sc : Scope) : VEntry → State → VRes := plainFence sc
/-- Dispatch of `fence.acq`. -/
def execFenceAcq (sc : Scope) (s : State) : Res := issue 0 (packWord 6#4 sc.bits 0#5 0#5 2#3 0#5 0x77#7) noOps (vFenceAcq sc) s

/-- `fence.ar` (R373). -/
def vFenceAr (sc : Scope) : VEntry → State → VRes := bothFence sc
/-- Dispatch of `fence.ar`. -/
def execFenceAr (sc : Scope) (s : State) : Res := issue 0 (packWord 7#4 sc.bits 0#5 0#5 2#3 0#5 0x77#7) noOps (vFenceAr sc) s

/-- `drain` (R364). -/
def vDrain (q : BitVec 6) : VEntry → State → VRes := drainOp q
/-- Dispatch of `drain`. -/
def execDrain (q : BitVec 6) (s : State) : Res := issue 0 (packWord 8#4 (0#2 ++ q.extractLsb' 5 1) (q.extractLsb' 0 5) 0#5 2#3 0#5 0x77#7) noOps (vDrain q) s

/-- `bar.arrive` (R358). -/
def vBarArrive (_a : BitVec 5) : VEntry → State → VRes := barArriveOp
/-- Dispatch of `bar.arrive`. -/
def execBarArrive (a : BitVec 5) (s : State) : Res := issue 0 (packWord 0#4 0#3 0#5 a 3#3 0#5 0x77#7) (opX s a) (vBarArrive a) s

/-- `bar.wait` (R358). -/
def vBarWait (_a : BitVec 5) : VEntry → State → VRes := barWaitOp
/-- Dispatch of `bar.wait`. -/
def execBarWait (a : BitVec 5) (s : State) : Res := issue 0 (packWord 1#4 0#3 0#5 a 3#3 0#5 0x77#7) (opX s a) (vBarWait a) s

/-- `bar.sync` (R358). -/
def vBarSync (_a : BitVec 5) : VEntry → State → VRes := barSyncOp
/-- Dispatch of `bar.sync`. -/
def execBarSync (a : BitVec 5) (s : State) : Res := issue 0 (packWord 2#4 0#3 0#5 a 3#3 0#5 0x77#7) (opX s a) (vBarSync a) s

/-- `bar.init` (R358). -/
def vBarInit (_b : BitVec 5) (_a : BitVec 5) : VEntry → State → VRes := barInitOp
/-- Dispatch of `bar.init`. -/
def execBarInit (b : BitVec 5) (a : BitVec 5) (s : State) : Res := issue 0 (packWord 3#4 0#3 b a 3#3 0#5 0x77#7) (opXX s a b) (vBarInit b a) s

/-- `wait.mem` (R359). -/
def vWaitMem (_b : BitVec 5) (_a : BitVec 5) (d : BitVec 5) : VEntry → State → VRes := waitMemOp d
/-- Dispatch of `wait.mem`. -/
def execWaitMem (b : BitVec 5) (a : BitVec 5) (d : BitVec 5) (s : State) : Res := issue 0 (packWord 4#4 0#3 b a 3#3 d 0x77#7) ⟨some (s.hart.getX a), some (s.hart.getX b), some (s.hart.getX d)⟩ (vWaitMem b a d) s

/-- `wait.time` (R360). -/
def vWaitTime (_a : BitVec 5) : VEntry → State → VRes := waitTimeOp
/-- Dispatch of `wait.time`. -/
def execWaitTime (a : BitVec 5) (s : State) : Res := issue 0 (packWord 5#4 0#3 0#5 a 3#3 0#5 0x77#7) (opX s a) (vWaitTime a) s

/-- `yield` (R361). -/
def vYield : VEntry → State → VRes := yieldOp
/-- Dispatch of `yield`. -/
def execYield (s : State) : Res := issue 0 (packWord 6#4 0#3 0#5 0#5 3#3 0#5 0x77#7) noOps vYield s

/-- `halt` (R362). -/
def vHalt : VEntry → State → VRes := haltOp
/-- Dispatch of `halt`. -/
def execHalt (s : State) : Res := issue 0 (packWord 7#4 0#3 0#5 0#5 3#3 0#5 0x77#7) noOps vHalt s

/-- `qpush` (R354). -/
def vQpush (_b : BitVec 5) (_a : BitVec 5) : VEntry → State → VRes := qpushOp
/-- Dispatch of `qpush`. -/
def execQpush (b : BitVec 5) (a : BitVec 5) (s : State) : Res := issue 0 (packWord 0#4 0#3 b a 4#3 0#5 0x77#7) (opXX s a b) (vQpush b a) s

/-- `qpop` (R355). -/
def vQpop (_a : BitVec 5) (d : BitVec 5) : VEntry → State → VRes := qpopOp false d
/-- Dispatch of `qpop`. -/
def execQpop (a : BitVec 5) (d : BitVec 5) (s : State) : Res := issue 0 (packWord 1#4 0#3 0#5 a 4#3 d 0x77#7) (opX s a) (vQpop a d) s

/-- `qpop.t` (R355). -/
def vQpopT (_a : BitVec 5) (d : BitVec 5) : VEntry → State → VRes := qpopOp true d
/-- Dispatch of `qpop.t`. -/
def execQpopT (a : BitVec 5) (d : BitVec 5) (s : State) : Res := issue 0 (packWord 1#4 1#3 0#5 a 4#3 d 0x77#7) (opX s a) (vQpopT a d) s

/-- `qany` (R356). -/
def vQany (m : MaskNo) : VEntry → State → VRes := qmaskOp false m
/-- Dispatch of `qany`. -/
def execQany (m : MaskNo) (s : State) : Res := issue 0 (packWord 2#4 m 0#5 0#5 4#3 0#5 0x77#7) noOps (vQany m) s

/-- `qall` (R356). -/
def vQall (m : MaskNo) : VEntry → State → VRes := qmaskOp true m
/-- Dispatch of `qall`. -/
def execQall (m : MaskNo) (s : State) : Res := issue 0 (packWord 3#4 m 0#5 0#5 4#3 0#5 0x77#7) noOps (vQall m) s

/-- `launch` (R351). -/
def vLaunch (_b : BitVec 5) (_a : BitVec 5) (d : BitVec 5) : VEntry → State → VRes := launchOp d
/-- Dispatch of `launch`. -/
def execLaunch (b : BitVec 5) (a : BitVec 5) (d : BitVec 5) (s : State) : Res := issue 0 (packWord 4#4 0#3 b a 4#3 d 0x77#7) (opXX s a b) (vLaunch b a d) s

/-- `qlen` (R353). -/
def vQlen (_a : BitVec 5) (d : BitVec 5) : VEntry → State → VRes := qlenOp d
/-- Dispatch of `qlen`. -/
def execQlen (a : BitVec 5) (d : BitVec 5) (s : State) : Res := issue 0 (packWord 5#4 0#3 0#5 a 4#3 d 0x77#7) (opX s a) (vQlen a d) s

/-- `vsave` (R412). -/
def vVsave (_a : BitVec 5) : VEntry → State → VRes := vsaveOp
/-- Dispatch of `vsave`. -/
def execVsave (a : BitVec 5) (s : State) : Res := issueS false (packWord 0#4 0#3 0#5 a 5#3 0#5 0x77#7) (opX s a) (vVsave a) s

/-- `vrest` (R412). -/
def vVrest (_a : BitVec 5) : VEntry → State → VRes := vrestOp
/-- Dispatch of `vrest`. -/
def execVrest (a : BitVec 5) (s : State) : Res := issueS false (packWord 1#4 0#3 0#5 a 5#3 0#5 0x77#7) (opX s a) (vVrest a) s

/-- `reclaim` (R414). -/
def vReclaim (_b : BitVec 5) (_a : BitVec 5) : VEntry → State → VRes := reclaimOp
/-- Dispatch of `reclaim`. -/
def execReclaim (b : BitVec 5) (a : BitVec 5) (s : State) : Res := issueS true (packWord 4#4 0#3 b a 5#3 0#5 0x77#7) (opXX s a b) (vReclaim b a) s

/-- `vprobe` (R415). -/
def vVprobe (_b : BitVec 5) (_a : BitVec 5) (d : BitVec 5) : VEntry → State → VRes := vprobeOp d
/-- Dispatch of `vprobe`. -/
def execVprobe (b : BitVec 5) (a : BitVec 5) (d : BitVec 5) (s : State) : Res := issueS true (packWord 5#4 0#3 b a 5#3 d 0x77#7) (opXX s a b) (vVprobe b a d) s

/-- `kend` (R362). -/
def vKend : VEntry → State → VRes := haltOp
/-- Dispatch of `kend`. -/
def execKend (s : State) : Res := issue 0 (packWord 6#4 0#3 0#5 0#5 5#3 0#5 0x77#7) noOps vKend s

end Sys2Proof.Machine
end

