-- ==== Sys2Proof/Machine/Csr.lean ====
section
/-! DEFINITION. The control and status registers: which exist, who may use them, what they read and what a write changes
(R115, R161 to R183, R385, R430 to R434; the RV64 base, log 7), and the Zicsr instructions. -/

namespace Sys2Proof.Machine

/-! Access (R115). -/

/-- The base CSRs of M mode (log 7). -/
def machineCsrs : List Nat :=
  [0xF11, 0xF12, 0xF13, 0xF14, 0x300, 0x301, 0x302, 0x303, 0x304, 0x305, 0x306, 0x320, 0x340, 0x341, 0x342, 0x343, 0x344,
   0xB00, 0xB02, 0x7C0, 0x7C1, 0x7C2]

/-- The CSRs of S mode (R161, R385; log 7). -/
def supervisorCsrs : List Nat :=
  [0x100, 0x104, 0x105, 0x106, 0x140, 0x141, 0x142, 0x143, 0x144, 0x180, 0x5C0, 0x5C1, 0x5C2, 0x5C3, 0x5C4, 0x5C5, 0x5C6,
   0x5C7, 0x5C8]

/-- The CSRs of U mode (R161; the base) but for the counters. -/
def userCsrs : List Nat :=
  [0x001, 0x002, 0x003, 0x800, 0x801, 0x802, 0x803, 0x804, 0x805, 0x806, 0x807, 0x808, 0x809, 0xCC0, 0xCC1, 0xCC2, 0xCC3,
   0xCC4, 0xCC5, 0xCC6, 0xCC7, 0xCC8, 0xCC9, 0xCCA, 0xCCB]

/-- Whether a CSR is one of the counters `cycle` to `hpmcounter18` (R430, R431). -/
def isCounterCsr (csr : Nat) : Bool := decide (0xC00 ≤ csr) && decide (csr ≤ 0xC12)

/-- Whether a CSR is implemented. -/
def csrExists (csr : Nat) : Bool :=
  machineCsrs.contains csr || supervisorCsrs.contains csr || userCsrs.contains csr || isCounterCsr csr ||
  (decide (0xB03 ≤ csr) && decide (csr ≤ 0xB12)) || (decide (0x323 ≤ csr) && decide (csr ≤ 0x332))

/-- Whether a CSR only reads: by its address, or as R161 says. -/
def csrReadOnly (csr : Nat) : Bool := decide (0xC00 ≤ csr) || csr == 0x5C5 || csr == 0x5C6 || csr == 0x5C8

/-- The least mode that may name a CSR: bits [9:8] of its number. -/
def csrModeOk (csr : Nat) (mode : Mode) : Bool := decide (csr / 256 % 4 ≤ mode.bits)

/-- Whether `mcounteren` and `scounteren` let a mode read a counter (R428, R431). -/
def counterEnabled (h : Hart) (csr : Nat) : Bool :=
  let i := csr - 0xC00
  match h.mode with
  | .machine => true
  | .supervisor => h.mcounteren.getLsbD i
  | .user => h.mcounteren.getLsbD i && h.scounteren.getLsbD i

/-- Whether the F and D state is on: `mstatus`.FS is not 0 (the base). -/
def Hart.fpOn (h : Hart) : Bool := wordField h.mstatus 13 2 != 0

/-- Whether the current hart may read, and where `write` write, a CSR (R115). -/
def csrAllowed (h : Hart) (csr : Nat) (write : Bool) : Bool :=
  csrExists csr && csrModeOk csr h.mode && !(write && csrReadOnly csr) &&
  (!(isCounterCsr csr) || counterEnabled h csr) && (decide (3 < csr) || h.fpOn) &&
  !(csr == 0x180 && h.mode == .supervisor && h.mstatus.getLsbD 20)

/-- CSRs ordered against the vector stream (R163). -/
def csrOrdered (csr : Nat) : Bool :=
  (decide (0x800 ≤ csr) && decide (csr ≤ 0x809)) || [0xCC0, 0xCC1, 0xCC2, 0xCC3, 0xCC4, 0xCC5, 0xCC7, 0xCCB].contains csr

/-! Reading. -/

/-- The `mstatus` bits that `sstatus` shows: SIE, SPIE, SPP, FS, SUM, UXL, SD. -/
def sstatusMask : Word := 0x8000000300046122#64

/-- SD: whether FS is dirty (the base). -/
def withSd (m : Word) : Word := setWordField m 63 1 (if wordField m 13 2 = 3 then 1 else 0)

/-- `vlanes` (R176). -/
def readVlanes (s : State) : Nat :=
  let h := s.hart
  s.ceiling * 2 ^ 24 + (s.quadsOf h).toNat * 2 ^ 16 + s.lanes h * 2 ^ 8 + h.lgrant.toNat

/-- `vtile` (R177). -/
def readVtile (s : State) : Nat :=
  let h := s.hart
  let vt := wordField h.vtype 0 10
  let kb := if h.vtype.getLsbD 63 then 0 else kBlock (getBits vt 0 3) (getBits vt 6 3)
  let cap := if h.vtype.getLsbD 63 then 0 else rowCap vt h.lgrant.toNat
  kb * 2 ^ 32 + cap * 2 ^ 24 + 0x80 * 2 ^ 16 + 0x80 * 2 ^ 8 + (2 ^ h.ownTiles - 1)

/-- `vshape` (R178). -/
def readVshape (h : Hart) : Nat := (h.v.toList).foldr (fun r acc => tagBits r.tag + 4 * acc) 0

/-- `vdeskuse` (R179): between steps a hart holds one slot for each G register. -/
def readVdeskuse (h : Hart) : Nat :=
  (h.general - h.size.toNat) * 2 ^ 24 + h.general * 2 ^ 16 + h.general * 2 ^ 8 + h.size.toNat

/-- `gangid` (R180). -/
def readGangid (s : State) : Word :=
  match s.gangOf s.hart with
  | some g => gangIdWord g.number s.hart.rank g.harts.length
  | none => 0#64

/-- `coreid` (R180). -/
def readCoreid (s : State) : Nat :=
  let c := coreOfHart s.hart.hid
  s.device % 2048 * 2 ^ 24 + c / 32 * 2 ^ 22 + c / 4 * 2 ^ 17 + c * 2 ^ 10 + s.hart.hid

/-- The gang's `vgrantmax` (R174). -/
def readVgrantmax (s : State) : Nat := ((s.gangOf s.hart).map (fun g => g.vgrantmax.toNat)).getD 0xF

/-- The string of the current hart's core (R181, R183). -/
def State.ownString (s : State) : SeriesString := (s.strings[coreOfHart s.hart.hid / 4]?).getD SeriesString.reset

/-- `busyctl` (R183). -/
def readBusyctl (s : State) : Nat := s.ownString.limit.toNat * 2 ^ 8 + s.ownString.pol.toNat

/-- `misa`: RV64 with A, D, F, I, M, S and U (R111; log 7). -/
def misaValue : Word := 0x8000000000141129#64

/-- A number as a register value. -/
def w64 (n : Nat) : Word := BitVec.ofNat 64 n

/-- `cycle` as read: it goes on by a free number of cycles, unless CY stops it, and keeps what was read (R430; log 11, 62). -/
def readCycle (s : State) : Word × State :=
  if s.hart.cyInhibit then (s.hart.cycle, s)
  else
    let (f, s1) := s.takeFree
    (s.hart.cycle + f, s1.onHart (fun h => { h with cycle := h.cycle + f }))

/-- A counter CSR as read by its number from 0xC00 or 0xB00 (R428, R430, R431). -/
def readCounter (s : State) (i : Nat) : Word × State :=
  if i = 0 then readCycle s
  else if i = 1 then (s.time, s.onHart (fun h => { h with largestTime := s.time }))
  else if i = 2 then (s.hart.instret, s)
  else readHpm s (coreOfHart s.hart.hid) (i - 3)

/-- A CSR that is no counter, as read. -/
def csrPlain (s : State) (csr : Nat) : Word :=
  let h := s.hart
  match csr with
  | 0x001 => w64 h.fflags.toNat
  | 0x002 => w64 h.frm.toNat
  | 0x003 => w64 (h.frm.toNat * 32 + h.fflags.toNat)
  | 0x100 => withSd h.mstatus &&& sstatusMask
  | 0x104 => h.mie &&& h.mideleg
  | 0x105 => h.stvec
  | 0x106 => w64 h.scounteren.toNat
  | 0x140 => h.sscratch
  | 0x141 => h.sepc
  | 0x142 => h.scause
  | 0x143 => h.stval
  | 0x144 => h.mip &&& h.mideleg
  | 0x180 => h.satp
  | 0x300 => withSd h.mstatus
  | 0x301 => misaValue
  | 0x302 => h.medeleg
  | 0x303 => h.mideleg
  | 0x304 => h.mie
  | 0x305 => h.mtvec
  | 0x306 => w64 h.mcounteren.toNat
  | 0x320 => w64 ((s.core (coreOfHart h.hid)).inhibit.toNat * 8 + (if h.irInhibit then 4 else 0) + (if h.cyInhibit then 1 else 0))
  | 0x340 => h.mscratch
  | 0x341 => h.mepc
  | 0x342 => h.mcause
  | 0x343 => h.mtval
  | 0x344 => h.mip
  | 0x5C0 => h.vepc
  | 0x5C1 => h.vcause
  | 0x5C2 => h.vtval
  | 0x5C3 => h.vqsave
  | 0x5C4 => w64 (h.gencap.toNat * 256 + h.size.toNat)
  | 0x5C5 => w64 (s.quadsOf h).toNat
  | 0x5C6 => w64 (readVgrantmax s)
  | 0x5C7 => h.vmissrec
  | 0x5C8 => h.vmisscnt
  | 0x7C0 => w64 (s.core (coreOfHart h.hid)).ceilq.toNat
  | 0x7C1 => w64 (s.core (coreOfHart h.hid)).chainperm.toNat
  | 0x7C2 => w64 (readBusyctl s)
  | 0x800 => w64 h.vflags.toNat
  | 0x801 => w64 h.vfrm.toNat
  | 0x802 => h.vband
  | 0x803 => h.avec
  | 0x804 => h.aepc
  | 0x805 => h.acause
  | 0x806 => h.vobm0
  | 0x807 => h.vobm1
  | 0x808 => w64 h.voutcnt.toNat
  | 0x809 => h.aqsave
  | 0xCC0 => w64 h.vl.toNat
  | 0xCC1 => w64 h.vrow.toNat
  | 0xCC2 => h.vtype
  | 0xCC3 => w64 (readVlanes s)
  | 0xCC4 => w64 (readVtile s)
  | 0xCC5 => w64 (readVshape h)
  | 0xCC6 => w64 (s.core (coreOfHart h.hid)).chainperm.toNat
  | 0xCC7 => w64 (contextSize h (s.lanes h))
  | 0xCC8 => readGangid s
  | 0xCC9 => w64 (readCoreid s)
  | 0xCCA => s.ownString.strbal
  | 0xCCB => w64 (readVdeskuse h)
  | 0xF14 => w64 h.hid
  | c => if 0x323 ≤ c ∧ c ≤ 0x332 then w64 (((s.core (coreOfHart h.hid)).event[c - 0x323]?).getD 0#27).toNat else 0#64

/-- A CSR as read, and the state after the read. -/
def csrValue (s : State) (csr : Nat) : Word × State :=
  if isCounterCsr csr then readCounter s (csr - 0xC00)
  else if csr = 0xB00 ∨ csr = 0xB02 ∨ (0xB03 ≤ csr ∧ csr ≤ 0xB12) then readCounter s (csr - 0xB00)
  else (csrPlain s csr, s)

/-! Writing. -/

/-- Bits of a word replaced under a mask. -/
def maskedWrite (old new mask : Word) : Word := (old &&& ~~~mask) ||| (new &&& mask)

/-- `mstatus` written: SIE, MIE, SPIE, MPIE, SPP, MPP, FS, MPRV, SUM, TVM, TW and TSR; MPP keeps its value where 2 is written
(the base; log 7). -/
def writeMstatus (old new : Word) : Word :=
  let m := maskedWrite old new 0x7661AA#64
  if wordField new 11 2 = 2 then m else setWordField m 11 2 (wordField new 11 2)

/-- `sstatus` written. -/
def writeSstatus (old new : Word) : Word := maskedWrite old new 0x46122#64

/-- A trap vector written: mode 0 or 1 (the base). -/
def writeTvec (v : Word) : Word := setWordField v 1 1 0

/-- A saved pc written: instructions lie at multiples of 4. -/
def writeEpc (v : Word) : Word := setWordField v 0 2 0

/-- The interrupt bits that `mie` holds. -/
def mieMask : Word := 0xAAA#64

/-- The exceptions and interrupts that may be delegated (log 6). -/
def medelegMask : Word := 0xB3FF#64

/-- `satp` written: another MODE than 0 and 15 leaves the field unchanged (R385). -/
def writeSatp (old new : Word) : Word :=
  if wordField new 60 4 = 0 ∨ wordField new 60 4 = 15 then new else setWordField new 60 4 (wordField old 60 4)

/-- GENCAP written: 33 to 254 are ignored (R179). -/
def writeGencap (old : BitVec 8) (v : Word) : BitVec 8 :=
  let n := wordField v 8 8
  if n ≤ 32 ∨ n = 255 then BitVec.ofNat 8 n else old

/-- F and D state marked dirty (the base). -/
def Hart.dirtyFp (h : Hart) : Hart := { h with mstatus := setWordField h.mstatus 13 2 3 }

/-- The core CSR CEILQ written: 0 and 5 to 7 leave it unchanged (R175). -/
def writeCeilq (s : State) (core n : Nat) : State :=
  if 1 ≤ n ∧ n ≤ 4 then s.setCore core { s.core core with ceilq := BitVec.ofNat 3 n } else s

/-- The policy of a string written: POL 3 leaves POL unchanged (R183). -/
def writeBusyctl (s : State) (string : Nat) (v : Word) : State :=
  let x := (s.strings[string]?).getD SeriesString.reset
  let pol := wordField v 0 2
  let y := { x with limit := BitVec.ofNat 8 (wordField v 8 8), pol := if pol = 3 then x.pol else BitVec.ofNat 2 pol }
  { s with strings := s.strings.setIfInBounds string y }

/-- A counter written (R434). -/
def writeHpm (s : State) (core i : Nat) (v : Word) : State := s.setHpm core i v

/-- A counter's selector written (R432). -/
def writeHpmEvent (s : State) (core i : Nat) (v : Word) : State :=
  let s1 := settleHpm s core i
  let c := s1.core core
  s1.setCore core { c with event := c.event.setIfInBounds i (v.truncate 27) }

/-- `mcountinhibit` written (R431). -/
def writeInhibit (s : State) (v : Word) : State :=
  let core := coreOfHart s.hart.hid
  let s1 := settleCounters (readCycle s).2 core
  (s1.setCore core { s1.core core with inhibit := BitVec.ofNat 16 (wordField v 3 16) }).onHart
    (fun h => { h with cyInhibit := v.getLsbD 0, irInhibit := v.getLsbD 2 })

/-- A CSR of the current hart written: reserved bits are ignored (R162). -/
def writeHartCsr (h : Hart) (csr : Nat) (v : Word) : Hart :=
  match csr with
  | 0x001 => { h with fflags := v.truncate 5 }.dirtyFp
  | 0x002 => { h with frm := v.truncate 3 }.dirtyFp
  | 0x003 => { h with fflags := v.truncate 5, frm := BitVec.ofNat 3 (wordField v 5 3) }.dirtyFp
  | 0x100 => { h with mstatus := writeSstatus h.mstatus v }
  | 0x104 => { h with mie := maskedWrite h.mie v (h.mideleg &&& mieMask) }
  | 0x105 => { h with stvec := writeTvec v }
  | 0x106 => { h with scounteren := BitVec.ofNat 32 (wordField v 0 19) }
  | 0x140 => { h with sscratch := v }
  | 0x141 => { h with sepc := writeEpc v }
  | 0x142 => { h with scause := v }
  | 0x143 => { h with stval := v }
  | 0x144 => { h with mip := maskedWrite h.mip v (h.mideleg &&& 0x2#64) }
  | 0x180 => { h with satp := writeSatp h.satp v }
  | 0x300 => { h with mstatus := writeMstatus h.mstatus v }
  | 0x302 => { h with medeleg := v &&& medelegMask }
  | 0x303 => { h with mideleg := v &&& 0x222#64 }
  | 0x304 => { h with mie := v &&& mieMask }
  | 0x305 => { h with mtvec := writeTvec v }
  | 0x306 => { h with mcounteren := BitVec.ofNat 32 (wordField v 0 19) }
  | 0x340 => { h with mscratch := v }
  | 0x341 => { h with mepc := writeEpc v }
  | 0x342 => { h with mcause := v }
  | 0x343 => { h with mtval := v }
  | 0x344 => { h with mip := maskedWrite h.mip v 0x222#64 }
  | 0x5C0 => { h with vepc := v }
  | 0x5C1 => { h with vcause := w64 (wordField v 0 8) }
  | 0x5C2 => { h with vtval := v }
  | 0x5C3 => { h with vqsave := setWordField v 0 6 0 }
  | 0x5C4 => { h with gencap := writeGencap h.gencap v }
  | 0x5C7 => { h with vmissrec := setWordField v 0 6 0 }
  | 0x800 => { h with vflags := v.truncate 9 }
  | 0x801 => { h with vfrm := v.truncate 3 }
  | 0x802 => { h with vband := v }
  | 0x803 => { h with avec := setWordField v 0 2 0 }
  | 0x804 => { h with aepc := v }
  | 0x805 => { h with acause := w64 (wordField v 0 8) }
  | 0x806 => { h with vobm0 := v }
  | 0x807 => { h with vobm1 := v }
  | 0x808 => { h with voutcnt := v.truncate 32 }
  | 0x809 => { h with aqsave := setWordField v 0 6 0 }
  | 0xB00 => { h with cycle := v }
  | 0xB02 => { h with instret := v }
  | _ => h

/-- A CSR written. -/
def csrPut (s : State) (csr : Nat) (v : Word) : State :=
  let core := coreOfHart s.hart.hid
  if csr = 0x7C0 then writeCeilq s core (wordField v 0 3)
  else if csr = 0x7C1 then writeChainperm s core (wordField v 0 6)
  else if csr = 0x7C2 then writeBusyctl s (core / 4) v
  else if csr = 0x320 then writeInhibit s v
  else if 0xB03 ≤ csr ∧ csr ≤ 0xB12 then writeHpm s core (csr - 0xB03) v
  else if 0x323 ≤ csr ∧ csr ≤ 0x332 then writeHpmEvent s core (csr - 0x323) v
  else s.onHart (fun h => writeHartCsr h csr v)

/-! The Zicsr instructions. -/

/-- The operand of a Zicsr form. -/
def csrOperand (op : CsrOp) (src : BitVec 5) (s : State) : Word :=
  match op with
  | .rw | .rs | .rc => s.hart.getX src
  | .rwi | .rsi | .rci => w64 src.toNat

/-- The value a Zicsr form writes. -/
def csrNew (op : CsrOp) (old v : Word) : Word :=
  match op with
  | .rw | .rwi => v
  | .rs | .rsi => old ||| v
  | .rc | .rci => old &&& ~~~v

/-- The PC past a CSR instruction; a write of `minstret` is not followed by its own count (the base). -/
def csrAdvance (csr : Nat) (s : State) : State := if csr = 0xB02 then s.setPc (s.hart.pc + 4#64) else s.advance

/-- A Zicsr write of a CSR (R115, R161 to R164). -/
def csrWriteOp (op : CsrOp) (rd : XReg) (csr : BitVec 12) (src : BitVec 5) (s : State) : Res :=
  let n := csr.toNat
  if !(csrAllowed s.hart n true) then .next (s.raiseIllegal (encodeCsr op rd csr src))
  else if csrOrdered n = true ∧ s.hart.hasVectorWork = true then .next s.drainFirst
  else
    let v := csrOperand op src s
    if rd = 0#5 ∧ (op = .rw ∨ op = .rwi) then .next (csrAdvance n (csrPut s n v))
    else
      let (old, s1) := csrValue s n
      .next (csrAdvance n ((csrPut s1 n (csrNew op old v)).setX rd old))

/-- A Zicsr form that only reads. -/
def csrReadOp (word : InstrWord) (rd : XReg) (csr : BitVec 12) (s : State) : Res :=
  let n := csr.toNat
  if !(csrAllowed s.hart n false) then .next (s.raiseIllegal word)
  else if csrOrdered n = true ∧ s.hart.hasVectorWork = true then .next s.drainFirst
  else
    let (v, s1) := csrValue s n
    .next ((s1.setX rd v).advance)

/-- PWRGRANT_WRITE (R175). -/
def execPwrgrantWrite (op : CsrOp) (rd : XReg) (src : BitVec 5) (s : State) : Res := csrWriteOp op rd 0x7C0#12 src s

/-- CHAINPERM_WRITE (R182). -/
def execChainpermWrite (op : CsrOp) (rd : XReg) (src : BitVec 5) (s : State) : Res := csrWriteOp op rd 0x7C1#12 src s

/-- BUSYCTL_WRITE (R183). -/
def execBusyctlWrite (op : CsrOp) (rd : XReg) (src : BitVec 5) (s : State) : Res := csrWriteOp op rd 0x7C2#12 src s

/-- VDESK_WRITE (R179). -/
def execVdeskWrite (op : CsrOp) (rd : XReg) (src : BitVec 5) (s : State) : Res := csrWriteOp op rd 0x5C4#12 src s

/-- SATP_WRITE (R385). -/
def execSatpWrite (op : CsrOp) (rd : XReg) (src : BitVec 5) (s : State) : Res := csrWriteOp op rd 0x180#12 src s

/-- MHPMCOUNTER_WRITE (R434). -/
def execMhpmcounterWrite (op : CsrOp) (rd : XReg) (n : BitVec 4) (src : BitVec 5) (s : State) : Res :=
  csrWriteOp op rd (0xB03#12 + n.setWidth 12) src s

/-- MHPMEVENT_WRITE (R432). -/
def execMhpmeventWrite (op : CsrOp) (rd : XReg) (n : BitVec 4) (src : BitVec 5) (s : State) : Res :=
  csrWriteOp op rd (0x323#12 + n.setWidth 12) src s

/-- CSR_WRITE (R163). -/
def execCsrWrite (op : CsrOp) (rd : XReg) (csr : BitVec 12) (src : BitVec 5) (s : State) : Res := csrWriteOp op rd csr src s

end Sys2Proof.Machine
end

