-- ==== Sys2Proof/Machine/Effect.lean ====
section
/-! DEFINITION. The vector effect of a word: what the head of a VIQ runs when a step of the device retries it, and what `vret` and
`aret` check of the entries they read back (R405, R408, R254). Lean's compiler cannot build an `Instr` beyond the 244th
constructor; so `entryRow`, which decodes a word, has beside it a form that reads the same pages without building one, and
a proof that the two agree. -/

namespace Sys2Proof.Machine

/-- Who may dispatch an ALV word (R134): anyone, S mode, S or M mode. -/
inductive Level where
  | any | supervisor | system
deriving DecidableEq, Repr

/-- What the VIQ needs of an ALV word: the word, its profile (R123), who may dispatch it, the operands it captures (R252) and its
effect. -/
structure VRow where
  word : InstrWord
  profile : Nat
  level : Level
  ops : State → Captured
  eff : VEntry → State → VRes

/-- An ALV word as it runs: through the VIQ, or `vret` and `aret`, which run at dispatch. -/
inductive VRun where
  | row (r : VRow)
  | vret
  | aret

/-- Dispatch of a row. -/
def VRow.dispatch (r : VRow) (s : State) : Res :=
  match r.level with
  | .any => issue r.profile r.word (r.ops s) r.eff s
  | .supervisor => issueS false r.word (r.ops s) r.eff s
  | .system => issueS true r.word (r.ops s) r.eff s

/-- The row of `addVv`. -/
def rowAddVv (m : MaskNo) (b : BitVec 5) (a : BitVec 5) (d : BitVec 5) : VRow := ⟨(packWord 0#4 m b a 0#3 d 0x0B#7), 0, .any, fun _ => noOps, (vAddVv m b a d)⟩
/-- The row of `addVx`. -/
def rowAddVx (m : MaskNo) (b : BitVec 5) (a : BitVec 5) (d : BitVec 5) : VRow := ⟨(packWord 0#4 m b a 1#3 d 0x0B#7), 0, .any, fun s => (opX s a), (vAddVx m b a d)⟩
/-- The row of `addVi`. -/
def rowAddVi (m : MaskNo) (b : BitVec 5) (a : BitVec 5) (d : BitVec 5) : VRow := ⟨(packWord 0#4 m b a 2#3 d 0x0B#7), 0, .any, fun _ => noOps, (vAddVi m b a d)⟩
/-- The row of `addVq`. -/
def rowAddVq (m : MaskNo) (b : BitVec 5) (q : QueueNo) (d : BitVec 5) : VRow := ⟨(packWord 0#4 m b (0#3 ++ q) 3#3 d 0x0B#7), 0, .any, fun _ => noOps, (vAddVq m b q d)⟩
/-- The row of `addVn`. -/
def rowAddVn (m : MaskNo) (b : BitVec 5) (a : BitVec 5) (d : BitVec 5) : VRow := ⟨(packWord 0#4 m b a 4#3 d 0x0B#7), 0, .any, fun s => (opX s a), (vAddVn m b a d)⟩
/-- The row of `subVv`. -/
def rowSubVv (m : MaskNo) (b : BitVec 5) (a : BitVec 5) (d : BitVec 5) : VRow := ⟨(packWord 1#4 m b a 0#3 d 0x0B#7), 0, .any, fun _ => noOps, (vSubVv m b a d)⟩
/-- The row of `subVx`. -/
def rowSubVx (m : MaskNo) (b : BitVec 5) (a : BitVec 5) (d : BitVec 5) : VRow := ⟨(packWord 1#4 m b a 1#3 d 0x0B#7), 0, .any, fun s => (opX s a), (vSubVx m b a d)⟩
/-- The row of `subVi`. -/
def rowSubVi (m : MaskNo) (b : BitVec 5) (a : BitVec 5) (d : BitVec 5) : VRow := ⟨(packWord 1#4 m b a 2#3 d 0x0B#7), 0, .any, fun _ => noOps, (vSubVi m b a d)⟩
/-- The row of `subVq`. -/
def rowSubVq (m : MaskNo) (b : BitVec 5) (q : QueueNo) (d : BitVec 5) : VRow := ⟨(packWord 1#4 m b (0#3 ++ q) 3#3 d 0x0B#7), 0, .any, fun _ => noOps, (vSubVq m b q d)⟩
/-- The row of `subVn`. -/
def rowSubVn (m : MaskNo) (b : BitVec 5) (a : BitVec 5) (d : BitVec 5) : VRow := ⟨(packWord 1#4 m b a 4#3 d 0x0B#7), 0, .any, fun s => (opX s a), (vSubVn m b a d)⟩
/-- The row of `rsubVv`. -/
def rowRsubVv (m : MaskNo) (b : BitVec 5) (a : BitVec 5) (d : BitVec 5) : VRow := ⟨(packWord 2#4 m b a 0#3 d 0x0B#7), 0, .any, fun _ => noOps, (vRsubVv m b a d)⟩
/-- The row of `rsubVx`. -/
def rowRsubVx (m : MaskNo) (b : BitVec 5) (a : BitVec 5) (d : BitVec 5) : VRow := ⟨(packWord 2#4 m b a 1#3 d 0x0B#7), 0, .any, fun s => (opX s a), (vRsubVx m b a d)⟩
/-- The row of `rsubVi`. -/
def rowRsubVi (m : MaskNo) (b : BitVec 5) (a : BitVec 5) (d : BitVec 5) : VRow := ⟨(packWord 2#4 m b a 2#3 d 0x0B#7), 0, .any, fun _ => noOps, (vRsubVi m b a d)⟩
/-- The row of `rsubVq`. -/
def rowRsubVq (m : MaskNo) (b : BitVec 5) (q : QueueNo) (d : BitVec 5) : VRow := ⟨(packWord 2#4 m b (0#3 ++ q) 3#3 d 0x0B#7), 0, .any, fun _ => noOps, (vRsubVq m b q d)⟩
/-- The row of `rsubVn`. -/
def rowRsubVn (m : MaskNo) (b : BitVec 5) (a : BitVec 5) (d : BitVec 5) : VRow := ⟨(packWord 2#4 m b a 4#3 d 0x0B#7), 0, .any, fun s => (opX s a), (vRsubVn m b a d)⟩
/-- The row of `mulVv`. -/
def rowMulVv (m : MaskNo) (b : BitVec 5) (a : BitVec 5) (d : BitVec 5) : VRow := ⟨(packWord 3#4 m b a 0#3 d 0x0B#7), 0, .any, fun _ => noOps, (vMulVv m b a d)⟩
/-- The row of `mulVx`. -/
def rowMulVx (m : MaskNo) (b : BitVec 5) (a : BitVec 5) (d : BitVec 5) : VRow := ⟨(packWord 3#4 m b a 1#3 d 0x0B#7), 0, .any, fun s => (opX s a), (vMulVx m b a d)⟩
/-- The row of `mulVi`. -/
def rowMulVi (m : MaskNo) (b : BitVec 5) (a : BitVec 5) (d : BitVec 5) : VRow := ⟨(packWord 3#4 m b a 2#3 d 0x0B#7), 0, .any, fun _ => noOps, (vMulVi m b a d)⟩
/-- The row of `mulVq`. -/
def rowMulVq (m : MaskNo) (b : BitVec 5) (q : QueueNo) (d : BitVec 5) : VRow := ⟨(packWord 3#4 m b (0#3 ++ q) 3#3 d 0x0B#7), 0, .any, fun _ => noOps, (vMulVq m b q d)⟩
/-- The row of `mulVn`. -/
def rowMulVn (m : MaskNo) (b : BitVec 5) (a : BitVec 5) (d : BitVec 5) : VRow := ⟨(packWord 3#4 m b a 4#3 d 0x0B#7), 0, .any, fun s => (opX s a), (vMulVn m b a d)⟩
/-- The row of `mulhVv`. -/
def rowMulhVv (m : MaskNo) (b : BitVec 5) (a : BitVec 5) (d : BitVec 5) : VRow := ⟨(packWord 4#4 m b a 0#3 d 0x0B#7), 0, .any, fun _ => noOps, (vMulhVv m b a d)⟩
/-- The row of `mulhVx`. -/
def rowMulhVx (m : MaskNo) (b : BitVec 5) (a : BitVec 5) (d : BitVec 5) : VRow := ⟨(packWord 4#4 m b a 1#3 d 0x0B#7), 0, .any, fun s => (opX s a), (vMulhVx m b a d)⟩
/-- The row of `mulhVi`. -/
def rowMulhVi (m : MaskNo) (b : BitVec 5) (a : BitVec 5) (d : BitVec 5) : VRow := ⟨(packWord 4#4 m b a 2#3 d 0x0B#7), 0, .any, fun _ => noOps, (vMulhVi m b a d)⟩
/-- The row of `mulhVq`. -/
def rowMulhVq (m : MaskNo) (b : BitVec 5) (q : QueueNo) (d : BitVec 5) : VRow := ⟨(packWord 4#4 m b (0#3 ++ q) 3#3 d 0x0B#7), 0, .any, fun _ => noOps, (vMulhVq m b q d)⟩
/-- The row of `mulhVn`. -/
def rowMulhVn (m : MaskNo) (b : BitVec 5) (a : BitVec 5) (d : BitVec 5) : VRow := ⟨(packWord 4#4 m b a 4#3 d 0x0B#7), 0, .any, fun s => (opX s a), (vMulhVn m b a d)⟩
/-- The row of `minVv`. -/
def rowMinVv (m : MaskNo) (b : BitVec 5) (a : BitVec 5) (d : BitVec 5) : VRow := ⟨(packWord 5#4 m b a 0#3 d 0x0B#7), 0, .any, fun _ => noOps, (vMinVv m b a d)⟩
/-- The row of `minVx`. -/
def rowMinVx (m : MaskNo) (b : BitVec 5) (a : BitVec 5) (d : BitVec 5) : VRow := ⟨(packWord 5#4 m b a 1#3 d 0x0B#7), 0, .any, fun s => (opX s a), (vMinVx m b a d)⟩
/-- The row of `minVi`. -/
def rowMinVi (m : MaskNo) (b : BitVec 5) (a : BitVec 5) (d : BitVec 5) : VRow := ⟨(packWord 5#4 m b a 2#3 d 0x0B#7), 0, .any, fun _ => noOps, (vMinVi m b a d)⟩
/-- The row of `minVq`. -/
def rowMinVq (m : MaskNo) (b : BitVec 5) (q : QueueNo) (d : BitVec 5) : VRow := ⟨(packWord 5#4 m b (0#3 ++ q) 3#3 d 0x0B#7), 0, .any, fun _ => noOps, (vMinVq m b q d)⟩
/-- The row of `minVn`. -/
def rowMinVn (m : MaskNo) (b : BitVec 5) (a : BitVec 5) (d : BitVec 5) : VRow := ⟨(packWord 5#4 m b a 4#3 d 0x0B#7), 0, .any, fun s => (opX s a), (vMinVn m b a d)⟩
/-- The row of `maxVv`. -/
def rowMaxVv (m : MaskNo) (b : BitVec 5) (a : BitVec 5) (d : BitVec 5) : VRow := ⟨(packWord 6#4 m b a 0#3 d 0x0B#7), 0, .any, fun _ => noOps, (vMaxVv m b a d)⟩
/-- The row of `maxVx`. -/
def rowMaxVx (m : MaskNo) (b : BitVec 5) (a : BitVec 5) (d : BitVec 5) : VRow := ⟨(packWord 6#4 m b a 1#3 d 0x0B#7), 0, .any, fun s => (opX s a), (vMaxVx m b a d)⟩
/-- The row of `maxVi`. -/
def rowMaxVi (m : MaskNo) (b : BitVec 5) (a : BitVec 5) (d : BitVec 5) : VRow := ⟨(packWord 6#4 m b a 2#3 d 0x0B#7), 0, .any, fun _ => noOps, (vMaxVi m b a d)⟩
/-- The row of `maxVq`. -/
def rowMaxVq (m : MaskNo) (b : BitVec 5) (q : QueueNo) (d : BitVec 5) : VRow := ⟨(packWord 6#4 m b (0#3 ++ q) 3#3 d 0x0B#7), 0, .any, fun _ => noOps, (vMaxVq m b q d)⟩
/-- The row of `maxVn`. -/
def rowMaxVn (m : MaskNo) (b : BitVec 5) (a : BitVec 5) (d : BitVec 5) : VRow := ⟨(packWord 6#4 m b a 4#3 d 0x0B#7), 0, .any, fun s => (opX s a), (vMaxVn m b a d)⟩
/-- The row of `andVv`. -/
def rowAndVv (m : MaskNo) (b : BitVec 5) (a : BitVec 5) (d : BitVec 5) : VRow := ⟨(packWord 7#4 m b a 0#3 d 0x0B#7), 0, .any, fun _ => noOps, (vAndVv m b a d)⟩
/-- The row of `andVx`. -/
def rowAndVx (m : MaskNo) (b : BitVec 5) (a : BitVec 5) (d : BitVec 5) : VRow := ⟨(packWord 7#4 m b a 1#3 d 0x0B#7), 0, .any, fun s => (opX s a), (vAndVx m b a d)⟩
/-- The row of `andVi`. -/
def rowAndVi (m : MaskNo) (b : BitVec 5) (a : BitVec 5) (d : BitVec 5) : VRow := ⟨(packWord 7#4 m b a 2#3 d 0x0B#7), 0, .any, fun _ => noOps, (vAndVi m b a d)⟩
/-- The row of `andVq`. -/
def rowAndVq (m : MaskNo) (b : BitVec 5) (q : QueueNo) (d : BitVec 5) : VRow := ⟨(packWord 7#4 m b (0#3 ++ q) 3#3 d 0x0B#7), 0, .any, fun _ => noOps, (vAndVq m b q d)⟩
/-- The row of `andVn`. -/
def rowAndVn (m : MaskNo) (b : BitVec 5) (a : BitVec 5) (d : BitVec 5) : VRow := ⟨(packWord 7#4 m b a 4#3 d 0x0B#7), 0, .any, fun s => (opX s a), (vAndVn m b a d)⟩
/-- The row of `orVv`. -/
def rowOrVv (m : MaskNo) (b : BitVec 5) (a : BitVec 5) (d : BitVec 5) : VRow := ⟨(packWord 8#4 m b a 0#3 d 0x0B#7), 0, .any, fun _ => noOps, (vOrVv m b a d)⟩
/-- The row of `orVx`. -/
def rowOrVx (m : MaskNo) (b : BitVec 5) (a : BitVec 5) (d : BitVec 5) : VRow := ⟨(packWord 8#4 m b a 1#3 d 0x0B#7), 0, .any, fun s => (opX s a), (vOrVx m b a d)⟩
/-- The row of `orVi`. -/
def rowOrVi (m : MaskNo) (b : BitVec 5) (a : BitVec 5) (d : BitVec 5) : VRow := ⟨(packWord 8#4 m b a 2#3 d 0x0B#7), 0, .any, fun _ => noOps, (vOrVi m b a d)⟩
/-- The row of `orVq`. -/
def rowOrVq (m : MaskNo) (b : BitVec 5) (q : QueueNo) (d : BitVec 5) : VRow := ⟨(packWord 8#4 m b (0#3 ++ q) 3#3 d 0x0B#7), 0, .any, fun _ => noOps, (vOrVq m b q d)⟩
/-- The row of `orVn`. -/
def rowOrVn (m : MaskNo) (b : BitVec 5) (a : BitVec 5) (d : BitVec 5) : VRow := ⟨(packWord 8#4 m b a 4#3 d 0x0B#7), 0, .any, fun s => (opX s a), (vOrVn m b a d)⟩
/-- The row of `xorVv`. -/
def rowXorVv (m : MaskNo) (b : BitVec 5) (a : BitVec 5) (d : BitVec 5) : VRow := ⟨(packWord 9#4 m b a 0#3 d 0x0B#7), 0, .any, fun _ => noOps, (vXorVv m b a d)⟩
/-- The row of `xorVx`. -/
def rowXorVx (m : MaskNo) (b : BitVec 5) (a : BitVec 5) (d : BitVec 5) : VRow := ⟨(packWord 9#4 m b a 1#3 d 0x0B#7), 0, .any, fun s => (opX s a), (vXorVx m b a d)⟩
/-- The row of `xorVi`. -/
def rowXorVi (m : MaskNo) (b : BitVec 5) (a : BitVec 5) (d : BitVec 5) : VRow := ⟨(packWord 9#4 m b a 2#3 d 0x0B#7), 0, .any, fun _ => noOps, (vXorVi m b a d)⟩
/-- The row of `xorVq`. -/
def rowXorVq (m : MaskNo) (b : BitVec 5) (q : QueueNo) (d : BitVec 5) : VRow := ⟨(packWord 9#4 m b (0#3 ++ q) 3#3 d 0x0B#7), 0, .any, fun _ => noOps, (vXorVq m b q d)⟩
/-- The row of `xorVn`. -/
def rowXorVn (m : MaskNo) (b : BitVec 5) (a : BitVec 5) (d : BitVec 5) : VRow := ⟨(packWord 9#4 m b a 4#3 d 0x0B#7), 0, .any, fun s => (opX s a), (vXorVn m b a d)⟩
/-- The row of `sllVv`. -/
def rowSllVv (m : MaskNo) (b : BitVec 5) (a : BitVec 5) (d : BitVec 5) : VRow := ⟨(packWord 10#4 m b a 0#3 d 0x0B#7), 0, .any, fun _ => noOps, (vSllVv m b a d)⟩
/-- The row of `sllVx`. -/
def rowSllVx (m : MaskNo) (b : BitVec 5) (a : BitVec 5) (d : BitVec 5) : VRow := ⟨(packWord 10#4 m b a 1#3 d 0x0B#7), 0, .any, fun s => (opX s a), (vSllVx m b a d)⟩
/-- The row of `sllVi`. -/
def rowSllVi (m : MaskNo) (b : BitVec 5) (a : BitVec 5) (d : BitVec 5) : VRow := ⟨(packWord 10#4 m b a 2#3 d 0x0B#7), 0, .any, fun _ => noOps, (vSllVi m b a d)⟩
/-- The row of `sllVq`. -/
def rowSllVq (m : MaskNo) (b : BitVec 5) (q : QueueNo) (d : BitVec 5) : VRow := ⟨(packWord 10#4 m b (0#3 ++ q) 3#3 d 0x0B#7), 0, .any, fun _ => noOps, (vSllVq m b q d)⟩
/-- The row of `sllVn`. -/
def rowSllVn (m : MaskNo) (b : BitVec 5) (a : BitVec 5) (d : BitVec 5) : VRow := ⟨(packWord 10#4 m b a 4#3 d 0x0B#7), 0, .any, fun s => (opX s a), (vSllVn m b a d)⟩
/-- The row of `srlVv`. -/
def rowSrlVv (m : MaskNo) (b : BitVec 5) (a : BitVec 5) (d : BitVec 5) : VRow := ⟨(packWord 11#4 m b a 0#3 d 0x0B#7), 0, .any, fun _ => noOps, (vSrlVv m b a d)⟩
/-- The row of `srlVx`. -/
def rowSrlVx (m : MaskNo) (b : BitVec 5) (a : BitVec 5) (d : BitVec 5) : VRow := ⟨(packWord 11#4 m b a 1#3 d 0x0B#7), 0, .any, fun s => (opX s a), (vSrlVx m b a d)⟩
/-- The row of `srlVi`. -/
def rowSrlVi (m : MaskNo) (b : BitVec 5) (a : BitVec 5) (d : BitVec 5) : VRow := ⟨(packWord 11#4 m b a 2#3 d 0x0B#7), 0, .any, fun _ => noOps, (vSrlVi m b a d)⟩
/-- The row of `srlVq`. -/
def rowSrlVq (m : MaskNo) (b : BitVec 5) (q : QueueNo) (d : BitVec 5) : VRow := ⟨(packWord 11#4 m b (0#3 ++ q) 3#3 d 0x0B#7), 0, .any, fun _ => noOps, (vSrlVq m b q d)⟩
/-- The row of `srlVn`. -/
def rowSrlVn (m : MaskNo) (b : BitVec 5) (a : BitVec 5) (d : BitVec 5) : VRow := ⟨(packWord 11#4 m b a 4#3 d 0x0B#7), 0, .any, fun s => (opX s a), (vSrlVn m b a d)⟩
/-- The row of `sraVv`. -/
def rowSraVv (m : MaskNo) (b : BitVec 5) (a : BitVec 5) (d : BitVec 5) : VRow := ⟨(packWord 12#4 m b a 0#3 d 0x0B#7), 0, .any, fun _ => noOps, (vSraVv m b a d)⟩
/-- The row of `sraVx`. -/
def rowSraVx (m : MaskNo) (b : BitVec 5) (a : BitVec 5) (d : BitVec 5) : VRow := ⟨(packWord 12#4 m b a 1#3 d 0x0B#7), 0, .any, fun s => (opX s a), (vSraVx m b a d)⟩
/-- The row of `sraVi`. -/
def rowSraVi (m : MaskNo) (b : BitVec 5) (a : BitVec 5) (d : BitVec 5) : VRow := ⟨(packWord 12#4 m b a 2#3 d 0x0B#7), 0, .any, fun _ => noOps, (vSraVi m b a d)⟩
/-- The row of `sraVq`. -/
def rowSraVq (m : MaskNo) (b : BitVec 5) (q : QueueNo) (d : BitVec 5) : VRow := ⟨(packWord 12#4 m b (0#3 ++ q) 3#3 d 0x0B#7), 0, .any, fun _ => noOps, (vSraVq m b q d)⟩
/-- The row of `sraVn`. -/
def rowSraVn (m : MaskNo) (b : BitVec 5) (a : BitVec 5) (d : BitVec 5) : VRow := ⟨(packWord 12#4 m b a 4#3 d 0x0B#7), 0, .any, fun s => (opX s a), (vSraVn m b a d)⟩
/-- The row of `macVv`. -/
def rowMacVv (m : MaskNo) (b : BitVec 5) (a : BitVec 5) (d : BitVec 5) : VRow := ⟨(packWord 13#4 m b a 0#3 d 0x0B#7), 0, .any, fun _ => noOps, (vMacVv m b a d)⟩
/-- The row of `macVx`. -/
def rowMacVx (m : MaskNo) (b : BitVec 5) (a : BitVec 5) (d : BitVec 5) : VRow := ⟨(packWord 13#4 m b a 1#3 d 0x0B#7), 0, .any, fun s => (opX s a), (vMacVx m b a d)⟩
/-- The row of `macVi`. -/
def rowMacVi (m : MaskNo) (b : BitVec 5) (a : BitVec 5) (d : BitVec 5) : VRow := ⟨(packWord 13#4 m b a 2#3 d 0x0B#7), 0, .any, fun _ => noOps, (vMacVi m b a d)⟩
/-- The row of `macVq`. -/
def rowMacVq (m : MaskNo) (b : BitVec 5) (q : QueueNo) (d : BitVec 5) : VRow := ⟨(packWord 13#4 m b (0#3 ++ q) 3#3 d 0x0B#7), 0, .any, fun _ => noOps, (vMacVq m b q d)⟩
/-- The row of `macVn`. -/
def rowMacVn (m : MaskNo) (b : BitVec 5) (a : BitVec 5) (d : BitVec 5) : VRow := ⟨(packWord 13#4 m b a 4#3 d 0x0B#7), 0, .any, fun s => (opX s a), (vMacVn m b a d)⟩
/-- The row of `cmpVv`. -/
def rowCmpVv (m : MaskNo) (b : BitVec 5) (a : BitVec 5) (c : Cond) (e : MaskNo) : VRow := ⟨(packWord 14#4 m b a 0#3 (c.bits ++ e) 0x0B#7), 0, .any, fun _ => noOps, (vCmpVv m b a c e)⟩
/-- The row of `cmpVx`. -/
def rowCmpVx (m : MaskNo) (b : BitVec 5) (a : BitVec 5) (c : Cond) (e : MaskNo) : VRow := ⟨(packWord 14#4 m b a 1#3 (c.bits ++ e) 0x0B#7), 0, .any, fun s => (opX s a), (vCmpVx m b a c e)⟩
/-- The row of `cmpVi`. -/
def rowCmpVi (m : MaskNo) (b : BitVec 5) (a : BitVec 5) (c : Cond) (e : MaskNo) : VRow := ⟨(packWord 14#4 m b a 2#3 (c.bits ++ e) 0x0B#7), 0, .any, fun _ => noOps, (vCmpVi m b a c e)⟩
/-- The row of `cmpVq`. -/
def rowCmpVq (m : MaskNo) (b : BitVec 5) (q : QueueNo) (c : Cond) (e : MaskNo) : VRow := ⟨(packWord 14#4 m b (0#3 ++ q) 3#3 (c.bits ++ e) 0x0B#7), 0, .any, fun _ => noOps, (vCmpVq m b q c e)⟩
/-- The row of `cmpVn`. -/
def rowCmpVn (m : MaskNo) (b : BitVec 5) (a : BitVec 5) (c : Cond) (e : MaskNo) : VRow := ⟨(packWord 14#4 m b a 4#3 (c.bits ++ e) 0x0B#7), 0, .any, fun s => (opX s a), (vCmpVn m b a c e)⟩
/-- The row of `cmpzVv`. -/
def rowCmpzVv (m : MaskNo) (b : BitVec 5) (a : BitVec 5) (c : Cond) (e : MaskNo) : VRow := ⟨(packWord 15#4 m b a 0#3 (c.bits ++ e) 0x0B#7), 0, .any, fun _ => noOps, (vCmpzVv m b a c e)⟩
/-- The row of `cmpzVx`. -/
def rowCmpzVx (m : MaskNo) (b : BitVec 5) (a : BitVec 5) (c : Cond) (e : MaskNo) : VRow := ⟨(packWord 15#4 m b a 1#3 (c.bits ++ e) 0x0B#7), 0, .any, fun s => (opX s a), (vCmpzVx m b a c e)⟩
/-- The row of `cmpzVi`. -/
def rowCmpzVi (m : MaskNo) (b : BitVec 5) (a : BitVec 5) (c : Cond) (e : MaskNo) : VRow := ⟨(packWord 15#4 m b a 2#3 (c.bits ++ e) 0x0B#7), 0, .any, fun _ => noOps, (vCmpzVi m b a c e)⟩
/-- The row of `cmpzVq`. -/
def rowCmpzVq (m : MaskNo) (b : BitVec 5) (q : QueueNo) (c : Cond) (e : MaskNo) : VRow := ⟨(packWord 15#4 m b (0#3 ++ q) 3#3 (c.bits ++ e) 0x0B#7), 0, .any, fun _ => noOps, (vCmpzVq m b q c e)⟩
/-- The row of `cmpzVn`. -/
def rowCmpzVn (m : MaskNo) (b : BitVec 5) (a : BitVec 5) (c : Cond) (e : MaskNo) : VRow := ⟨(packWord 15#4 m b a 4#3 (c.bits ++ e) 0x0B#7), 0, .any, fun s => (opX s a), (vCmpzVn m b a c e)⟩
/-- The row of `minzXv`. -/
def rowMinzXv (m : MaskNo) (b : BitVec 5) (a : BitVec 5) (d : BitVec 5) : VRow := ⟨(packWord 0#4 m b a 6#3 d 0x0B#7), 0, .any, fun _ => noOps, (vMinzXv m b a d)⟩
/-- The row of `minzXx`. -/
def rowMinzXx (m : MaskNo) (b : BitVec 5) (a : BitVec 5) (d : BitVec 5) : VRow := ⟨(packWord 0#4 m b a 7#3 d 0x0B#7), 0, .any, fun s => (opX s a), (vMinzXx m b a d)⟩
/-- The row of `maxzXv`. -/
def rowMaxzXv (m : MaskNo) (b : BitVec 5) (a : BitVec 5) (d : BitVec 5) : VRow := ⟨(packWord 1#4 m b a 6#3 d 0x0B#7), 0, .any, fun _ => noOps, (vMaxzXv m b a d)⟩
/-- The row of `maxzXx`. -/
def rowMaxzXx (m : MaskNo) (b : BitVec 5) (a : BitVec 5) (d : BitVec 5) : VRow := ⟨(packWord 1#4 m b a 7#3 d 0x0B#7), 0, .any, fun s => (opX s a), (vMaxzXx m b a d)⟩
/-- The row of `mulhzXv`. -/
def rowMulhzXv (m : MaskNo) (b : BitVec 5) (a : BitVec 5) (d : BitVec 5) : VRow := ⟨(packWord 2#4 m b a 6#3 d 0x0B#7), 0, .any, fun _ => noOps, (vMulhzXv m b a d)⟩
/-- The row of `mulhzXx`. -/
def rowMulhzXx (m : MaskNo) (b : BitVec 5) (a : BitVec 5) (d : BitVec 5) : VRow := ⟨(packWord 2#4 m b a 7#3 d 0x0B#7), 0, .any, fun s => (opX s a), (vMulhzXx m b a d)⟩
/-- The row of `divXv`. -/
def rowDivXv (m : MaskNo) (b : BitVec 5) (a : BitVec 5) (d : BitVec 5) : VRow := ⟨(packWord 3#4 m b a 6#3 d 0x0B#7), 0, .any, fun _ => noOps, (vDivXv m b a d)⟩
/-- The row of `divXx`. -/
def rowDivXx (m : MaskNo) (b : BitVec 5) (a : BitVec 5) (d : BitVec 5) : VRow := ⟨(packWord 3#4 m b a 7#3 d 0x0B#7), 0, .any, fun s => (opX s a), (vDivXx m b a d)⟩
/-- The row of `divzXv`. -/
def rowDivzXv (m : MaskNo) (b : BitVec 5) (a : BitVec 5) (d : BitVec 5) : VRow := ⟨(packWord 4#4 m b a 6#3 d 0x0B#7), 0, .any, fun _ => noOps, (vDivzXv m b a d)⟩
/-- The row of `divzXx`. -/
def rowDivzXx (m : MaskNo) (b : BitVec 5) (a : BitVec 5) (d : BitVec 5) : VRow := ⟨(packWord 4#4 m b a 7#3 d 0x0B#7), 0, .any, fun s => (opX s a), (vDivzXx m b a d)⟩
/-- The row of `remXv`. -/
def rowRemXv (m : MaskNo) (b : BitVec 5) (a : BitVec 5) (d : BitVec 5) : VRow := ⟨(packWord 5#4 m b a 6#3 d 0x0B#7), 0, .any, fun _ => noOps, (vRemXv m b a d)⟩
/-- The row of `remXx`. -/
def rowRemXx (m : MaskNo) (b : BitVec 5) (a : BitVec 5) (d : BitVec 5) : VRow := ⟨(packWord 5#4 m b a 7#3 d 0x0B#7), 0, .any, fun s => (opX s a), (vRemXx m b a d)⟩
/-- The row of `remzXv`. -/
def rowRemzXv (m : MaskNo) (b : BitVec 5) (a : BitVec 5) (d : BitVec 5) : VRow := ⟨(packWord 6#4 m b a 6#3 d 0x0B#7), 0, .any, fun _ => noOps, (vRemzXv m b a d)⟩
/-- The row of `remzXx`. -/
def rowRemzXx (m : MaskNo) (b : BitVec 5) (a : BitVec 5) (d : BitVec 5) : VRow := ⟨(packWord 6#4 m b a 7#3 d 0x0B#7), 0, .any, fun s => (opX s a), (vRemzXx m b a d)⟩
/-- The row of `saddXv`. -/
def rowSaddXv (m : MaskNo) (b : BitVec 5) (a : BitVec 5) (d : BitVec 5) : VRow := ⟨(packWord 7#4 m b a 6#3 d 0x0B#7), 0, .any, fun _ => noOps, (vSaddXv m b a d)⟩
/-- The row of `saddXx`. -/
def rowSaddXx (m : MaskNo) (b : BitVec 5) (a : BitVec 5) (d : BitVec 5) : VRow := ⟨(packWord 7#4 m b a 7#3 d 0x0B#7), 0, .any, fun s => (opX s a), (vSaddXx m b a d)⟩
/-- The row of `ssubXv`. -/
def rowSsubXv (m : MaskNo) (b : BitVec 5) (a : BitVec 5) (d : BitVec 5) : VRow := ⟨(packWord 8#4 m b a 6#3 d 0x0B#7), 0, .any, fun _ => noOps, (vSsubXv m b a d)⟩
/-- The row of `ssubXx`. -/
def rowSsubXx (m : MaskNo) (b : BitVec 5) (a : BitVec 5) (d : BitVec 5) : VRow := ⟨(packWord 8#4 m b a 7#3 d 0x0B#7), 0, .any, fun s => (opX s a), (vSsubXx m b a d)⟩
/-- The row of `waddXv`. -/
def rowWaddXv (m : MaskNo) (b : BitVec 5) (a : BitVec 5) (d : BitVec 5) : VRow := ⟨(packWord 9#4 m b a 6#3 d 0x0B#7), 0, .any, fun _ => noOps, (vWaddXv m b a d)⟩
/-- The row of `waddXx`. -/
def rowWaddXx (m : MaskNo) (b : BitVec 5) (a : BitVec 5) (d : BitVec 5) : VRow := ⟨(packWord 9#4 m b a 7#3 d 0x0B#7), 0, .any, fun s => (opX s a), (vWaddXx m b a d)⟩
/-- The row of `wmulXv`. -/
def rowWmulXv (m : MaskNo) (b : BitVec 5) (a : BitVec 5) (d : BitVec 5) : VRow := ⟨(packWord 10#4 m b a 6#3 d 0x0B#7), 0, .any, fun _ => noOps, (vWmulXv m b a d)⟩
/-- The row of `wmulXx`. -/
def rowWmulXx (m : MaskNo) (b : BitVec 5) (a : BitVec 5) (d : BitVec 5) : VRow := ⟨(packWord 10#4 m b a 7#3 d 0x0B#7), 0, .any, fun s => (opX s a), (vWmulXx m b a d)⟩
/-- The row of `sext`. -/
def rowSext (m : MaskNo) (b : BitVec 5) (f : Factor) (d : BitVec 5) : VRow := ⟨(packWord 11#4 m b (0#3 ++ f.bits) 6#3 d 0x0B#7), 0, .any, fun _ => noOps, (vSext m b f d)⟩
/-- The row of `zext`. -/
def rowZext (m : MaskNo) (b : BitVec 5) (f : Factor) (d : BitVec 5) : VRow := ⟨(packWord 12#4 m b (0#3 ++ f.bits) 6#3 d 0x0B#7), 0, .any, fun _ => noOps, (vZext m b f d)⟩
/-- The row of `narrow`. -/
def rowNarrow (m : MaskNo) (b : BitVec 5) (f : Factor) (d : BitVec 5) : VRow := ⟨(packWord 13#4 m b (0#3 ++ f.bits) 6#3 d 0x0B#7), 0, .any, fun _ => noOps, (vNarrow m b f d)⟩
/-- The row of `narrowz`. -/
def rowNarrowz (m : MaskNo) (b : BitVec 5) (f : Factor) (d : BitVec 5) : VRow := ⟨(packWord 13#4 m b (1#3 ++ f.bits) 6#3 d 0x0B#7), 0, .any, fun _ => noOps, (vNarrowz m b f d)⟩
/-- The row of `absdXv`. -/
def rowAbsdXv (m : MaskNo) (b : BitVec 5) (a : BitVec 5) (d : BitVec 5) : VRow := ⟨(packWord 14#4 m b a 6#3 d 0x0B#7), 0, .any, fun _ => noOps, (vAbsdXv m b a d)⟩
/-- The row of `absdXx`. -/
def rowAbsdXx (m : MaskNo) (b : BitVec 5) (a : BitVec 5) (d : BitVec 5) : VRow := ⟨(packWord 14#4 m b a 7#3 d 0x0B#7), 0, .any, fun s => (opX s a), (vAbsdXx m b a d)⟩
/-- The row of `bitc`. -/
def rowBitc (m : MaskNo) (b : BitVec 5) (o : BitCount) (d : BitVec 5) : VRow := ⟨(packWord 15#4 m b o.bits 6#3 d 0x0B#7), 0, .any, fun _ => noOps, (vBitc m b o d)⟩
/-- The row of `faddVv`. -/
def rowFaddVv (m : MaskNo) (b : BitVec 5) (a : BitVec 5) (d : BitVec 5) : VRow := ⟨(packWord 0#4 m b a 0#3 d 0x2B#7), 0, .any, fun _ => noOps, (vFaddVv m b a d)⟩
/-- The row of `faddVx`. -/
def rowFaddVx (m : MaskNo) (b : BitVec 5) (a : BitVec 5) (d : BitVec 5) : VRow := ⟨(packWord 0#4 m b a 1#3 d 0x2B#7), 0, .any, fun s => (opF s a), (vFaddVx m b a d)⟩
/-- The row of `faddVq`. -/
def rowFaddVq (m : MaskNo) (b : BitVec 5) (q : QueueNo) (d : BitVec 5) : VRow := ⟨(packWord 0#4 m b (0#3 ++ q) 3#3 d 0x2B#7), 0, .any, fun _ => noOps, (vFaddVq m b q d)⟩
/-- The row of `faddVn`. -/
def rowFaddVn (m : MaskNo) (b : BitVec 5) (a : BitVec 5) (d : BitVec 5) : VRow := ⟨(packWord 0#4 m b a 4#3 d 0x2B#7), 0, .any, fun s => (opX s a), (vFaddVn m b a d)⟩
/-- The row of `fsubVv`. -/
def rowFsubVv (m : MaskNo) (b : BitVec 5) (a : BitVec 5) (d : BitVec 5) : VRow := ⟨(packWord 1#4 m b a 0#3 d 0x2B#7), 0, .any, fun _ => noOps, (vFsubVv m b a d)⟩
/-- The row of `fsubVx`. -/
def rowFsubVx (m : MaskNo) (b : BitVec 5) (a : BitVec 5) (d : BitVec 5) : VRow := ⟨(packWord 1#4 m b a 1#3 d 0x2B#7), 0, .any, fun s => (opF s a), (vFsubVx m b a d)⟩
/-- The row of `fsubVq`. -/
def rowFsubVq (m : MaskNo) (b : BitVec 5) (q : QueueNo) (d : BitVec 5) : VRow := ⟨(packWord 1#4 m b (0#3 ++ q) 3#3 d 0x2B#7), 0, .any, fun _ => noOps, (vFsubVq m b q d)⟩
/-- The row of `fsubVn`. -/
def rowFsubVn (m : MaskNo) (b : BitVec 5) (a : BitVec 5) (d : BitVec 5) : VRow := ⟨(packWord 1#4 m b a 4#3 d 0x2B#7), 0, .any, fun s => (opX s a), (vFsubVn m b a d)⟩
/-- The row of `fmulVv`. -/
def rowFmulVv (m : MaskNo) (b : BitVec 5) (a : BitVec 5) (d : BitVec 5) : VRow := ⟨(packWord 2#4 m b a 0#3 d 0x2B#7), 0, .any, fun _ => noOps, (vFmulVv m b a d)⟩
/-- The row of `fmulVx`. -/
def rowFmulVx (m : MaskNo) (b : BitVec 5) (a : BitVec 5) (d : BitVec 5) : VRow := ⟨(packWord 2#4 m b a 1#3 d 0x2B#7), 0, .any, fun s => (opF s a), (vFmulVx m b a d)⟩
/-- The row of `fmulVq`. -/
def rowFmulVq (m : MaskNo) (b : BitVec 5) (q : QueueNo) (d : BitVec 5) : VRow := ⟨(packWord 2#4 m b (0#3 ++ q) 3#3 d 0x2B#7), 0, .any, fun _ => noOps, (vFmulVq m b q d)⟩
/-- The row of `fmulVn`. -/
def rowFmulVn (m : MaskNo) (b : BitVec 5) (a : BitVec 5) (d : BitVec 5) : VRow := ⟨(packWord 2#4 m b a 4#3 d 0x2B#7), 0, .any, fun s => (opX s a), (vFmulVn m b a d)⟩
/-- The row of `fdivVv`. -/
def rowFdivVv (m : MaskNo) (b : BitVec 5) (a : BitVec 5) (d : BitVec 5) : VRow := ⟨(packWord 3#4 m b a 0#3 d 0x2B#7), 0, .any, fun _ => noOps, (vFdivVv m b a d)⟩
/-- The row of `fdivVx`. -/
def rowFdivVx (m : MaskNo) (b : BitVec 5) (a : BitVec 5) (d : BitVec 5) : VRow := ⟨(packWord 3#4 m b a 1#3 d 0x2B#7), 0, .any, fun s => (opF s a), (vFdivVx m b a d)⟩
/-- The row of `fdivVq`. -/
def rowFdivVq (m : MaskNo) (b : BitVec 5) (q : QueueNo) (d : BitVec 5) : VRow := ⟨(packWord 3#4 m b (0#3 ++ q) 3#3 d 0x2B#7), 0, .any, fun _ => noOps, (vFdivVq m b q d)⟩
/-- The row of `fdivVn`. -/
def rowFdivVn (m : MaskNo) (b : BitVec 5) (a : BitVec 5) (d : BitVec 5) : VRow := ⟨(packWord 3#4 m b a 4#3 d 0x2B#7), 0, .any, fun s => (opX s a), (vFdivVn m b a d)⟩
/-- The row of `fminVv`. -/
def rowFminVv (m : MaskNo) (b : BitVec 5) (a : BitVec 5) (d : BitVec 5) : VRow := ⟨(packWord 4#4 m b a 0#3 d 0x2B#7), 0, .any, fun _ => noOps, (vFminVv m b a d)⟩
/-- The row of `fminVx`. -/
def rowFminVx (m : MaskNo) (b : BitVec 5) (a : BitVec 5) (d : BitVec 5) : VRow := ⟨(packWord 4#4 m b a 1#3 d 0x2B#7), 0, .any, fun s => (opF s a), (vFminVx m b a d)⟩
/-- The row of `fminVq`. -/
def rowFminVq (m : MaskNo) (b : BitVec 5) (q : QueueNo) (d : BitVec 5) : VRow := ⟨(packWord 4#4 m b (0#3 ++ q) 3#3 d 0x2B#7), 0, .any, fun _ => noOps, (vFminVq m b q d)⟩
/-- The row of `fminVn`. -/
def rowFminVn (m : MaskNo) (b : BitVec 5) (a : BitVec 5) (d : BitVec 5) : VRow := ⟨(packWord 4#4 m b a 4#3 d 0x2B#7), 0, .any, fun s => (opX s a), (vFminVn m b a d)⟩
/-- The row of `fmaxVv`. -/
def rowFmaxVv (m : MaskNo) (b : BitVec 5) (a : BitVec 5) (d : BitVec 5) : VRow := ⟨(packWord 5#4 m b a 0#3 d 0x2B#7), 0, .any, fun _ => noOps, (vFmaxVv m b a d)⟩
/-- The row of `fmaxVx`. -/
def rowFmaxVx (m : MaskNo) (b : BitVec 5) (a : BitVec 5) (d : BitVec 5) : VRow := ⟨(packWord 5#4 m b a 1#3 d 0x2B#7), 0, .any, fun s => (opF s a), (vFmaxVx m b a d)⟩
/-- The row of `fmaxVq`. -/
def rowFmaxVq (m : MaskNo) (b : BitVec 5) (q : QueueNo) (d : BitVec 5) : VRow := ⟨(packWord 5#4 m b (0#3 ++ q) 3#3 d 0x2B#7), 0, .any, fun _ => noOps, (vFmaxVq m b q d)⟩
/-- The row of `fmaxVn`. -/
def rowFmaxVn (m : MaskNo) (b : BitVec 5) (a : BitVec 5) (d : BitVec 5) : VRow := ⟨(packWord 5#4 m b a 4#3 d 0x2B#7), 0, .any, fun s => (opX s a), (vFmaxVn m b a d)⟩
/-- The row of `fmaddVv`. -/
def rowFmaddVv (m : MaskNo) (b : BitVec 5) (a : BitVec 5) (d : BitVec 5) : VRow := ⟨(packWord 6#4 m b a 0#3 d 0x2B#7), 0, .any, fun _ => noOps, (vFmaddVv m b a d)⟩
/-- The row of `fmaddVx`. -/
def rowFmaddVx (m : MaskNo) (b : BitVec 5) (a : BitVec 5) (d : BitVec 5) : VRow := ⟨(packWord 6#4 m b a 1#3 d 0x2B#7), 0, .any, fun s => (opF s a), (vFmaddVx m b a d)⟩
/-- The row of `fmaddVq`. -/
def rowFmaddVq (m : MaskNo) (b : BitVec 5) (q : QueueNo) (d : BitVec 5) : VRow := ⟨(packWord 6#4 m b (0#3 ++ q) 3#3 d 0x2B#7), 0, .any, fun _ => noOps, (vFmaddVq m b q d)⟩
/-- The row of `fmaddVn`. -/
def rowFmaddVn (m : MaskNo) (b : BitVec 5) (a : BitVec 5) (d : BitVec 5) : VRow := ⟨(packWord 6#4 m b a 4#3 d 0x2B#7), 0, .any, fun s => (opX s a), (vFmaddVn m b a d)⟩
/-- The row of `fnmsubVv`. -/
def rowFnmsubVv (m : MaskNo) (b : BitVec 5) (a : BitVec 5) (d : BitVec 5) : VRow := ⟨(packWord 7#4 m b a 0#3 d 0x2B#7), 0, .any, fun _ => noOps, (vFnmsubVv m b a d)⟩
/-- The row of `fnmsubVx`. -/
def rowFnmsubVx (m : MaskNo) (b : BitVec 5) (a : BitVec 5) (d : BitVec 5) : VRow := ⟨(packWord 7#4 m b a 1#3 d 0x2B#7), 0, .any, fun s => (opF s a), (vFnmsubVx m b a d)⟩
/-- The row of `fnmsubVq`. -/
def rowFnmsubVq (m : MaskNo) (b : BitVec 5) (q : QueueNo) (d : BitVec 5) : VRow := ⟨(packWord 7#4 m b (0#3 ++ q) 3#3 d 0x2B#7), 0, .any, fun _ => noOps, (vFnmsubVq m b q d)⟩
/-- The row of `fnmsubVn`. -/
def rowFnmsubVn (m : MaskNo) (b : BitVec 5) (a : BitVec 5) (d : BitVec 5) : VRow := ⟨(packWord 7#4 m b a 4#3 d 0x2B#7), 0, .any, fun s => (opX s a), (vFnmsubVn m b a d)⟩
/-- The row of `fcmpVv`. -/
def rowFcmpVv (m : MaskNo) (b : BitVec 5) (a : BitVec 5) (c : FCond) (e : MaskNo) : VRow := ⟨(packWord 8#4 m b a 0#3 (c.bits ++ e) 0x2B#7), 0, .any, fun _ => noOps, (vFcmpVv m b a c e)⟩
/-- The row of `fcmpVx`. -/
def rowFcmpVx (m : MaskNo) (b : BitVec 5) (a : BitVec 5) (c : FCond) (e : MaskNo) : VRow := ⟨(packWord 8#4 m b a 1#3 (c.bits ++ e) 0x2B#7), 0, .any, fun s => (opF s a), (vFcmpVx m b a c e)⟩
/-- The row of `fcmpVq`. -/
def rowFcmpVq (m : MaskNo) (b : BitVec 5) (q : QueueNo) (c : FCond) (e : MaskNo) : VRow := ⟨(packWord 8#4 m b (0#3 ++ q) 3#3 (c.bits ++ e) 0x2B#7), 0, .any, fun _ => noOps, (vFcmpVq m b q c e)⟩
/-- The row of `fcmpVn`. -/
def rowFcmpVn (m : MaskNo) (b : BitVec 5) (a : BitVec 5) (c : FCond) (e : MaskNo) : VRow := ⟨(packWord 8#4 m b a 4#3 (c.bits ++ e) 0x2B#7), 0, .any, fun s => (opX s a), (vFcmpVn m b a c e)⟩
/-- The row of `fsqrt`. -/
def rowFsqrt (m : MaskNo) (b : BitVec 5) (d : BitVec 5) : VRow := ⟨(packWord 9#4 m b 0#5 0#3 d 0x2B#7), 0, .any, fun _ => noOps, (vFsqrt m b d)⟩
/-- The row of `frec`. -/
def rowFrec (m : MaskNo) (b : BitVec 5) (d : BitVec 5) : VRow := ⟨(packWord 10#4 m b 0#5 0#3 d 0x2B#7), 0, .any, fun _ => noOps, (vFrec m b d)⟩
/-- The row of `frsq`. -/
def rowFrsq (m : MaskNo) (b : BitVec 5) (d : BitVec 5) : VRow := ⟨(packWord 11#4 m b 0#5 0#3 d 0x2B#7), 0, .any, fun _ => noOps, (vFrsq m b d)⟩
/-- The row of `fexp2`. -/
def rowFexp2 (m : MaskNo) (b : BitVec 5) (d : BitVec 5) : VRow := ⟨(packWord 12#4 m b 0#5 0#3 d 0x2B#7), 0, .any, fun _ => noOps, (vFexp2 m b d)⟩
/-- The row of `fcvt`. -/
def rowFcvt (m : MaskNo) (b : BitVec 5) (c : CvtCode) (d : BitVec 5) : VRow := ⟨(packWord 13#4 m b c.bits 0#3 d 0x2B#7), 0, .any, fun _ => noOps, (vFcvt m b c d)⟩
/-- The row of `fclass`. -/
def rowFclass (m : MaskNo) (b : BitVec 5) (d : BitVec 5) : VRow := ⟨(packWord 14#4 m b 0#5 0#3 d 0x2B#7), 0, .any, fun _ => noOps, (vFclass m b d)⟩
/-- The row of `fround`. -/
def rowFround (m : MaskNo) (b : BitVec 5) (d : BitVec 5) : VRow := ⟨(packWord 15#4 m b 0#5 0#3 d 0x2B#7), 0, .any, fun _ => noOps, (vFround m b d)⟩
/-- The row of `fsgnjXv`. -/
def rowFsgnjXv (m : MaskNo) (b : BitVec 5) (a : BitVec 5) (d : BitVec 5) : VRow := ⟨(packWord 0#4 m b a 6#3 d 0x2B#7), 0, .any, fun _ => noOps, (vFsgnjXv m b a d)⟩
/-- The row of `fsgnjXx`. -/
def rowFsgnjXx (m : MaskNo) (b : BitVec 5) (a : BitVec 5) (d : BitVec 5) : VRow := ⟨(packWord 0#4 m b a 7#3 d 0x2B#7), 0, .any, fun s => (opF s a), (vFsgnjXx m b a d)⟩
/-- The row of `fsgnjnXv`. -/
def rowFsgnjnXv (m : MaskNo) (b : BitVec 5) (a : BitVec 5) (d : BitVec 5) : VRow := ⟨(packWord 1#4 m b a 6#3 d 0x2B#7), 0, .any, fun _ => noOps, (vFsgnjnXv m b a d)⟩
/-- The row of `fsgnjnXx`. -/
def rowFsgnjnXx (m : MaskNo) (b : BitVec 5) (a : BitVec 5) (d : BitVec 5) : VRow := ⟨(packWord 1#4 m b a 7#3 d 0x2B#7), 0, .any, fun s => (opF s a), (vFsgnjnXx m b a d)⟩
/-- The row of `fsgnjxXv`. -/
def rowFsgnjxXv (m : MaskNo) (b : BitVec 5) (a : BitVec 5) (d : BitVec 5) : VRow := ⟨(packWord 2#4 m b a 6#3 d 0x2B#7), 0, .any, fun _ => noOps, (vFsgnjxXv m b a d)⟩
/-- The row of `fsgnjxXx`. -/
def rowFsgnjxXx (m : MaskNo) (b : BitVec 5) (a : BitVec 5) (d : BitVec 5) : VRow := ⟨(packWord 2#4 m b a 7#3 d 0x2B#7), 0, .any, fun s => (opF s a), (vFsgnjxXx m b a d)⟩
/-- The row of `fwaddXv`. -/
def rowFwaddXv (m : MaskNo) (b : BitVec 5) (a : BitVec 5) (d : BitVec 5) : VRow := ⟨(packWord 3#4 m b a 6#3 d 0x2B#7), 0, .any, fun _ => noOps, (vFwaddXv m b a d)⟩
/-- The row of `fwaddXx`. -/
def rowFwaddXx (m : MaskNo) (b : BitVec 5) (a : BitVec 5) (d : BitVec 5) : VRow := ⟨(packWord 3#4 m b a 7#3 d 0x2B#7), 0, .any, fun s => (opF s a), (vFwaddXx m b a d)⟩
/-- The row of `fwmulXv`. -/
def rowFwmulXv (m : MaskNo) (b : BitVec 5) (a : BitVec 5) (d : BitVec 5) : VRow := ⟨(packWord 4#4 m b a 6#3 d 0x2B#7), 0, .any, fun _ => noOps, (vFwmulXv m b a d)⟩
/-- The row of `fwmulXx`. -/
def rowFwmulXx (m : MaskNo) (b : BitVec 5) (a : BitVec 5) (d : BitVec 5) : VRow := ⟨(packWord 4#4 m b a 7#3 d 0x2B#7), 0, .any, fun s => (opF s a), (vFwmulXx m b a d)⟩
/-- The row of `fwmacXv`. -/
def rowFwmacXv (m : MaskNo) (b : BitVec 5) (a : BitVec 5) (d : BitVec 5) : VRow := ⟨(packWord 5#4 m b a 6#3 d 0x2B#7), 0, .any, fun _ => noOps, (vFwmacXv m b a d)⟩
/-- The row of `fwmacXx`. -/
def rowFwmacXx (m : MaskNo) (b : BitVec 5) (a : BitVec 5) (d : BitVec 5) : VRow := ⟨(packWord 5#4 m b a 7#3 d 0x2B#7), 0, .any, fun s => (opF s a), (vFwmacXx m b a d)⟩
/-- The row of `vquant`. -/
def rowVquant (m : MaskNo) (b : BitVec 5) (a : BitVec 5) (d : BitVec 5) : VRow := ⟨(packWord 6#4 m b a 6#3 d 0x2B#7), 1, .any, fun _ => noOps, (vVquant m b a d)⟩
/-- The row of `vdequant`. -/
def rowVdequant (m : MaskNo) (b : BitVec 5) (a : BitVec 5) (d : BitVec 5) : VRow := ⟨(packWord 7#4 m b a 6#3 d 0x2B#7), 1, .any, fun _ => noOps, (vVdequant m b a d)⟩
/-- The row of `vqef`. -/
def rowVqef (m : MaskNo) (b : BitVec 5) (a : BitVec 5) (d : BitVec 5) : VRow := ⟨(packWord 8#4 m b a 6#3 d 0x2B#7), 1, .any, fun _ => noOps, (vVqef m b a d)⟩
/-- The row of `vbscale`. -/
def rowVbscale (m : MaskNo) (b : BitVec 5) (a : BitVec 5) (d : BitVec 5) : VRow := ⟨(packWord 9#4 m b a 6#3 d 0x2B#7), 1, .any, fun _ => noOps, (vVbscale m b a d)⟩
/-- The row of `vouts`. -/
def rowVouts (m : MaskNo) (b : BitVec 5) (a : BitVec 5) (d : BitVec 5) : VRow := ⟨(packWord 10#4 m b a 7#3 d 0x2B#7), 1, .any, fun s => (opF s a), (vVouts m b a d)⟩
/-- The row of `mand`. -/
def rowMand (b : MaskNo) (a : MaskNo) (d : MaskNo) : VRow := ⟨(packWord 0#4 0#3 (0#2 ++ b) (0#2 ++ a) 0#3 (0#2 ++ d) 0x5B#7), 0, .any, fun _ => noOps, (vMand b a d)⟩
/-- The row of `mor`. -/
def rowMor (b : MaskNo) (a : MaskNo) (d : MaskNo) : VRow := ⟨(packWord 1#4 0#3 (0#2 ++ b) (0#2 ++ a) 0#3 (0#2 ++ d) 0x5B#7), 0, .any, fun _ => noOps, (vMor b a d)⟩
/-- The row of `mxor`. -/
def rowMxor (b : MaskNo) (a : MaskNo) (d : MaskNo) : VRow := ⟨(packWord 2#4 0#3 (0#2 ++ b) (0#2 ++ a) 0#3 (0#2 ++ d) 0x5B#7), 0, .any, fun _ => noOps, (vMxor b a d)⟩
/-- The row of `mandn`. -/
def rowMandn (b : MaskNo) (a : MaskNo) (d : MaskNo) : VRow := ⟨(packWord 3#4 0#3 (0#2 ++ b) (0#2 ++ a) 0#3 (0#2 ++ d) 0x5B#7), 0, .any, fun _ => noOps, (vMandn b a d)⟩
/-- The row of `mpop`. -/
def rowMpop (m : MaskNo) (b : MaskNo) (d : BitVec 5) : VRow := ⟨(packWord 4#4 m (0#2 ++ b) 0#5 0#3 d 0x5B#7), 0, .any, fun _ => noOps, (vMpop m b d)⟩
/-- The row of `mfirst`. -/
def rowMfirst (m : MaskNo) (b : MaskNo) (d : BitVec 5) : VRow := ⟨(packWord 5#4 m (0#2 ++ b) 0#5 0#3 d 0x5B#7), 0, .any, fun _ => noOps, (vMfirst m b d)⟩
/-- The row of `iota`. -/
def rowIota (m : MaskNo) (b : MaskNo) (d : BitVec 5) : VRow := ⟨(packWord 6#4 m (0#2 ++ b) 0#5 0#3 d 0x5B#7), 0, .any, fun _ => noOps, (vIota m b d)⟩
/-- The row of `vid`. -/
def rowVid (m : MaskNo) (d : BitVec 5) : VRow := ⟨(packWord 7#4 m 0#5 0#5 0#3 d 0x5B#7), 0, .any, fun _ => noOps, (vVid m d)⟩
/-- The row of `slideupVx`. -/
def rowSlideupVx (m : MaskNo) (b : BitVec 5) (a : BitVec 5) (d : BitVec 5) : VRow := ⟨(packWord 8#4 m b a 1#3 d 0x5B#7), 0, .any, fun s => (opX s a), (vSlideupVx m b a d)⟩
/-- The row of `slideupVi`. -/
def rowSlideupVi (m : MaskNo) (b : BitVec 5) (a : BitVec 5) (d : BitVec 5) : VRow := ⟨(packWord 8#4 m b a 2#3 d 0x5B#7), 0, .any, fun _ => noOps, (vSlideupVi m b a d)⟩
/-- The row of `slideupVn`. -/
def rowSlideupVn (m : MaskNo) (b : BitVec 5) (a : BitVec 5) (d : BitVec 5) : VRow := ⟨(packWord 8#4 m b a 4#3 d 0x5B#7), 0, .any, fun s => (opX s a), (vSlideupVn m b a d)⟩
/-- The row of `slidednVx`. -/
def rowSlidednVx (m : MaskNo) (b : BitVec 5) (a : BitVec 5) (d : BitVec 5) : VRow := ⟨(packWord 9#4 m b a 1#3 d 0x5B#7), 0, .any, fun s => (opX s a), (vSlidednVx m b a d)⟩
/-- The row of `slidednVi`. -/
def rowSlidednVi (m : MaskNo) (b : BitVec 5) (a : BitVec 5) (d : BitVec 5) : VRow := ⟨(packWord 9#4 m b a 2#3 d 0x5B#7), 0, .any, fun _ => noOps, (vSlidednVi m b a d)⟩
/-- The row of `slidednVn`. -/
def rowSlidednVn (m : MaskNo) (b : BitVec 5) (a : BitVec 5) (d : BitVec 5) : VRow := ⟨(packWord 9#4 m b a 4#3 d 0x5B#7), 0, .any, fun s => (opX s a), (vSlidednVn m b a d)⟩
/-- The row of `vgatherVv`. -/
def rowVgatherVv (m : MaskNo) (b : BitVec 5) (a : BitVec 5) (d : BitVec 5) : VRow := ⟨(packWord 10#4 m b a 0#3 d 0x5B#7), 0, .any, fun _ => noOps, (vVgatherVv m b a d)⟩
/-- The row of `vgatherVx`. -/
def rowVgatherVx (m : MaskNo) (b : BitVec 5) (a : BitVec 5) (d : BitVec 5) : VRow := ⟨(packWord 10#4 m b a 1#3 d 0x5B#7), 0, .any, fun s => (opX s a), (vVgatherVx m b a d)⟩
/-- The row of `vcompress`. -/
def rowVcompress (m : MaskNo) (b : BitVec 5) (d : BitVec 5) : VRow := ⟨(packWord 11#4 m b 0#5 0#3 d 0x5B#7), 0, .any, fun _ => noOps, (vVcompress m b d)⟩
/-- The row of `vexpand`. -/
def rowVexpand (m : MaskNo) (b : BitVec 5) (d : BitVec 5) : VRow := ⟨(packWord 12#4 m b 0#5 0#3 d 0x5B#7), 0, .any, fun _ => noOps, (vVexpand m b d)⟩
/-- The row of `vlut`. -/
def rowVlut (m : MaskNo) (b : BitVec 5) (a : BitVec 5) (d : BitVec 5) : VRow := ⟨(packWord 13#4 m b a 0#3 d 0x5B#7), 0, .any, fun _ => noOps, (vVlut m b a d)⟩
/-- The row of `vunpack`. -/
def rowVunpack (m : MaskNo) (b : BitVec 5) (a : BitVec 5) (d : BitVec 5) : VRow := ⟨(packWord 14#4 m b a 1#3 d 0x5B#7), 0, .any, fun s => (opX s a), (vVunpack m b a d)⟩
/-- The row of `vpack`. -/
def rowVpack (m : MaskNo) (b : BitVec 5) (a : BitVec 5) (d : BitVec 5) : VRow := ⟨(packWord 15#4 m b a 1#3 d 0x5B#7), 0, .any, fun s => (opX s a), (vVpack m b a d)⟩
/-- The row of `redsum`. -/
def rowRedsum (m : MaskNo) (b : BitVec 5) (a : BitVec 5) (d : BitVec 5) : VRow := ⟨(packWord 0#4 m b a 6#3 d 0x5B#7), 0, .any, fun _ => noOps, (vRedsum m b a d)⟩
/-- The row of `redmin`. -/
def rowRedmin (m : MaskNo) (b : BitVec 5) (a : BitVec 5) (d : BitVec 5) : VRow := ⟨(packWord 1#4 m b a 6#3 d 0x5B#7), 0, .any, fun _ => noOps, (vRedmin m b a d)⟩
/-- The row of `redmax`. -/
def rowRedmax (m : MaskNo) (b : BitVec 5) (a : BitVec 5) (d : BitVec 5) : VRow := ⟨(packWord 2#4 m b a 6#3 d 0x5B#7), 0, .any, fun _ => noOps, (vRedmax m b a d)⟩
/-- The row of `redminz`. -/
def rowRedminz (m : MaskNo) (b : BitVec 5) (a : BitVec 5) (d : BitVec 5) : VRow := ⟨(packWord 3#4 m b a 6#3 d 0x5B#7), 0, .any, fun _ => noOps, (vRedminz m b a d)⟩
/-- The row of `redmaxz`. -/
def rowRedmaxz (m : MaskNo) (b : BitVec 5) (a : BitVec 5) (d : BitVec 5) : VRow := ⟨(packWord 4#4 m b a 6#3 d 0x5B#7), 0, .any, fun _ => noOps, (vRedmaxz m b a d)⟩
/-- The row of `redand`. -/
def rowRedand (m : MaskNo) (b : BitVec 5) (a : BitVec 5) (d : BitVec 5) : VRow := ⟨(packWord 5#4 m b a 6#3 d 0x5B#7), 0, .any, fun _ => noOps, (vRedand m b a d)⟩
/-- The row of `redor`. -/
def rowRedor (m : MaskNo) (b : BitVec 5) (a : BitVec 5) (d : BitVec 5) : VRow := ⟨(packWord 6#4 m b a 6#3 d 0x5B#7), 0, .any, fun _ => noOps, (vRedor m b a d)⟩
/-- The row of `redxor`. -/
def rowRedxor (m : MaskNo) (b : BitVec 5) (a : BitVec 5) (d : BitVec 5) : VRow := ⟨(packWord 7#4 m b a 6#3 d 0x5B#7), 0, .any, fun _ => noOps, (vRedxor m b a d)⟩
/-- The row of `fredo`. -/
def rowFredo (m : MaskNo) (b : BitVec 5) (a : BitVec 5) (d : BitVec 5) : VRow := ⟨(packWord 8#4 m b a 6#3 d 0x5B#7), 0, .any, fun _ => noOps, (vFredo m b a d)⟩
/-- The row of `fredt`. -/
def rowFredt (m : MaskNo) (b : BitVec 5) (a : BitVec 5) (d : BitVec 5) : VRow := ⟨(packWord 9#4 m b a 6#3 d 0x5B#7), 0, .any, fun _ => noOps, (vFredt m b a d)⟩
/-- The row of `fredmax`. -/
def rowFredmax (m : MaskNo) (b : BitVec 5) (a : BitVec 5) (d : BitVec 5) : VRow := ⟨(packWord 10#4 m b a 6#3 d 0x5B#7), 0, .any, fun _ => noOps, (vFredmax m b a d)⟩
/-- The row of `fredmin`. -/
def rowFredmin (m : MaskNo) (b : BitVec 5) (a : BitVec 5) (d : BitVec 5) : VRow := ⟨(packWord 11#4 m b a 6#3 d 0x5B#7), 0, .any, fun _ => noOps, (vFredmin m b a d)⟩
/-- The row of `mvxs`. -/
def rowMvxs (b : BitVec 5) (a : BitVec 5) (d : BitVec 5) : VRow := ⟨(packWord 12#4 0#3 b a 7#3 d 0x5B#7), 0, .any, fun s => (opX s a), (vMvxs b a d)⟩
/-- The row of `mvsx`. -/
def rowMvsx (a : BitVec 5) (d : BitVec 5) : VRow := ⟨(packWord 13#4 0#3 0#5 a 7#3 d 0x5B#7), 0, .any, fun s => (opX s a), (vMvsx a d)⟩
/-- The row of `vbcast`. -/
def rowVbcast (a : BitVec 5) (d : BitVec 5) : VRow := ⟨(packWord 14#4 0#3 0#5 a 7#3 d 0x5B#7), 0, .any, fun s => (opX s a), (vVbcast a d)⟩
/-- The row of `vrev`. -/
def rowVrev (m : MaskNo) (b : BitVec 5) (d : BitVec 5) : VRow := ⟨(packWord 15#4 m b 0#5 6#3 d 0x5B#7), 0, .any, fun _ => noOps, (vVrev m b d)⟩
/-- The row of `aaddVv`. -/
def rowAaddVv (b : BitVec 5) (a : BitVec 5) (d : BitVec 5) : VRow := ⟨(packWord 0#4 0#3 b a 0#3 d 0x7B#7), 2, .any, fun _ => noOps, (vAaddVv b a d)⟩
/-- The row of `aaddVx`. -/
def rowAaddVx (b : BitVec 5) (a : BitVec 5) (d : BitVec 5) : VRow := ⟨(packWord 0#4 0#3 b a 1#3 d 0x7B#7), 2, .any, fun s => (opF s a), (vAaddVx b a d)⟩
/-- The row of `aaddVi`. -/
def rowAaddVi (b : BitVec 5) (a : BitVec 5) (d : BitVec 5) : VRow := ⟨(packWord 0#4 0#3 b a 2#3 d 0x7B#7), 2, .any, fun _ => noOps, (vAaddVi b a d)⟩
/-- The row of `asubVv`. -/
def rowAsubVv (b : BitVec 5) (a : BitVec 5) (d : BitVec 5) : VRow := ⟨(packWord 1#4 0#3 b a 0#3 d 0x7B#7), 2, .any, fun _ => noOps, (vAsubVv b a d)⟩
/-- The row of `asubVx`. -/
def rowAsubVx (b : BitVec 5) (a : BitVec 5) (d : BitVec 5) : VRow := ⟨(packWord 1#4 0#3 b a 1#3 d 0x7B#7), 2, .any, fun s => (opF s a), (vAsubVx b a d)⟩
/-- The row of `asubVi`. -/
def rowAsubVi (b : BitVec 5) (a : BitVec 5) (d : BitVec 5) : VRow := ⟨(packWord 1#4 0#3 b a 2#3 d 0x7B#7), 2, .any, fun _ => noOps, (vAsubVi b a d)⟩
/-- The row of `adiffVx`. -/
def rowAdiffVx (b : BitVec 5) (a : BitVec 5) (d : BitVec 5) : VRow := ⟨(packWord 2#4 0#3 b a 1#3 d 0x7B#7), 2, .any, fun s => (opX s a), (vAdiffVx b a d)⟩
/-- The row of `adiffVi`. -/
def rowAdiffVi (b : BitVec 5) (a : BitVec 5) (d : BitVec 5) : VRow := ⟨(packWord 2#4 0#3 b a 2#3 d 0x7B#7), 2, .any, fun _ => noOps, (vAdiffVi b a d)⟩
/-- The row of `amulVx`. -/
def rowAmulVx (b : BitVec 5) (a : BitVec 5) (d : BitVec 5) : VRow := ⟨(packWord 3#4 0#3 b a 1#3 d 0x7B#7), 2, .any, fun s => (opX s a), (vAmulVx b a d)⟩
/-- The row of `amulVi`. -/
def rowAmulVi (b : BitVec 5) (a : BitVec 5) (d : BitVec 5) : VRow := ⟨(packWord 3#4 0#3 b a 2#3 d 0x7B#7), 2, .any, fun _ => noOps, (vAmulVi b a d)⟩
/-- The row of `ascaleVx`. -/
def rowAscaleVx (b : BitVec 5) (a : BitVec 5) (d : BitVec 5) : VRow := ⟨(packWord 4#4 0#3 b a 1#3 d 0x7B#7), 2, .any, fun s => (opF s a), (vAscaleVx b a d)⟩
/-- The row of `ascaleVi`. -/
def rowAscaleVi (b : BitVec 5) (a : BitVec 5) (d : BitVec 5) : VRow := ⟨(packWord 4#4 0#3 b a 2#3 d 0x7B#7), 2, .any, fun _ => noOps, (vAscaleVi b a d)⟩
/-- The row of `aconv`. -/
def rowAconv (b : BitVec 5) (c : AnchorFloat) (d : BitVec 5) : VRow := ⟨(packWord 5#4 0#3 b c.bits 0#3 d 0x7B#7), 2, .any, fun _ => noOps, (vAconv b c d)⟩
/-- The row of `afrom`. -/
def rowAfrom (b : BitVec 5) (c : AnchorFloat) (d : BitVec 5) : VRow := ⟨(packWord 6#4 0#3 b c.bits 0#3 d 0x7B#7), 2, .any, fun _ => noOps, (vAfrom b c d)⟩
/-- The row of `areanchorVx`. -/
def rowAreanchorVx (b : BitVec 5) (a : BitVec 5) (d : BitVec 5) : VRow := ⟨(packWord 7#4 0#3 b a 1#3 d 0x7B#7), 2, .any, fun s => (opX s a), (vAreanchorVx b a d)⟩
/-- The row of `areanchorVi`. -/
def rowAreanchorVi (b : BitVec 5) (o : BitVec 2) (d : BitVec 5) : VRow := ⟨(packWord 7#4 0#3 b (0#3 ++ o) 2#3 d 0x7B#7), 2, .any, fun _ => noOps, (vAreanchorVi b o d)⟩
/-- The row of `ared`. -/
def rowAred (b : BitVec 5) (d : BitVec 5) : VRow := ⟨(packWord 8#4 0#3 b 0#5 0#3 d 0x7B#7), 2, .any, fun _ => noOps, (vAred b d)⟩
/-- The row of `aget`. -/
def rowAget (b : BitVec 5) (d : BitVec 5) : VRow := ⟨(packWord 9#4 0#3 b 0#5 0#3 d 0x7B#7), 2, .any, fun _ => noOps, (vAget b d)⟩
/-- The row of `aput`. -/
def rowAput (b : BitVec 5) (d : BitVec 5) : VRow := ⟨(packWord 10#4 0#3 b 0#5 0#3 d 0x7B#7), 2, .any, fun _ => noOps, (vAput b d)⟩
/-- The row of `aqset`. -/
def rowAqset (b : BitVec 5) (d : BitVec 5) : VRow := ⟨(packWord 11#4 0#3 b 0#5 0#3 d 0x7B#7), 2, .any, fun _ => noOps, (vAqset b d)⟩
/-- The row of `mzero`. -/
def rowMzero (t : TileNo) : VRow := ⟨(packWord 12#4 0#3 0#5 0#5 0#3 (0#3 ++ t) 0x7B#7), 1, .any, fun _ => noOps, (vMzero t)⟩
/-- The row of `mpa`. -/
def rowMpa (b : BitVec 5) (a : BitVec 5) (t : TileNo) : VRow := ⟨(packWord 13#4 0#3 b a 0#3 (0#3 ++ t) 0x7B#7), 1, .any, fun _ => noOps, (vMpa b a t)⟩
/-- The row of `mmvTv`. -/
def rowMmvTv (b : BitVec 5) (a : BitVec 5) (t : TileNo) : VRow := ⟨(packWord 14#4 0#3 b a 1#3 (0#3 ++ t) 0x7B#7), 1, .any, fun s => (opX s a), (vMmvTv b a t)⟩
/-- The row of `mmvVt`. -/
def rowMmvVt (b : BitVec 5) (a : BitVec 5) (t : TileNo) : VRow := ⟨(packWord 14#4 0#3 b a 1#3 (4#3 ++ t) 0x7B#7), 1, .any, fun s => (opX s a), (vMmvVt b a t)⟩
/-- The row of `mscale`. -/
def rowMscale (b : BitVec 5) (a : BitVec 5) : VRow := ⟨(packWord 15#4 0#3 b a 0#3 0#5 0x7B#7), 1, .any, fun _ => noOps, (vMscale b a)⟩
/-- The row of `mpaI`. -/
def rowMpaI (b : BitVec 5) (a : BitVec 5) (t : TileNo) : VRow := ⟨(packWord 0#4 0#3 b a 6#3 (0#3 ++ t) 0x7B#7), 1, .any, fun _ => noOps, (vMpaI b a t)⟩
/-- The row of `mpaH`. -/
def rowMpaH (b : BitVec 5) (a : BitVec 5) (t : TileNo) : VRow := ⟨(packWord 1#4 0#3 b a 6#3 (0#3 ++ t) 0x7B#7), 1, .any, fun _ => noOps, (vMpaH b a t)⟩
/-- The row of `mlra`. -/
def rowMlra (b : BitVec 5) (a : BitVec 5) (t : TileNo) : VRow := ⟨(packWord 2#4 0#3 b a 6#3 (0#3 ++ t) 0x7B#7), 4, .any, fun _ => noOps, (vMlra b a t)⟩
/-- The row of `mcvt`. -/
def rowMcvt (t : TileNo) (a : BitVec 5) (d : BitVec 5) : VRow := ⟨(packWord 3#4 0#3 (0#3 ++ t) a 7#3 d 0x7B#7), 1, .any, fun s => (opX s a), (vMcvt t a d)⟩
/-- The row of `acmp`. -/
def rowAcmp (b : BitVec 5) (a : BitVec 5) (c : Cond) (e : MaskNo) : VRow := ⟨(packWord 4#4 0#3 b a 6#3 (c.bits ++ e) 0x7B#7), 2, .any, fun _ => noOps, (vAcmp b a c e)⟩
/-- The row of `vld`. -/
def rowVld (m : MaskNo) (a : BitVec 5) (d : BitVec 5) : VRow := ⟨(packWord 0#4 m 0#5 a 0#3 d 0x57#7), 0, .any, fun s => (opX s a), (vVld m a d)⟩
/-- The row of `vldS`. -/
def rowVldS (m : MaskNo) (b : BitVec 5) (a : BitVec 5) (d : BitVec 5) : VRow := ⟨(packWord 0#4 m b a 1#3 d 0x57#7), 0, .any, fun s => (opXX s a b), (vVldS m b a d)⟩
/-- The row of `vldX`. -/
def rowVldX (m : MaskNo) (b : BitVec 5) (a : BitVec 5) (d : BitVec 5) : VRow := ⟨(packWord 0#4 m b a 2#3 d 0x57#7), 0, .any, fun s => (opX s a), (vVldX m b a d)⟩
/-- The row of `vldB`. -/
def rowVldB (m : MaskNo) (b : BitVec 5) (a : BitVec 5) (d : BitVec 5) : VRow := ⟨(packWord 0#4 m b a 3#3 d 0x57#7), 0, .any, fun s => (opXX s a b), (vVldB m b a d)⟩
/-- The row of `vldW`. -/
def rowVldW (m : MaskNo) (a : BitVec 5) (d : BitVec 5) : VRow := ⟨(packWord 0#4 m 0#5 a 5#3 d 0x57#7), 0, .any, fun s => (opX s a), (vVldW m a d)⟩
/-- The row of `vst`. -/
def rowVst (m : MaskNo) (a : BitVec 5) (sc : VRegNo) : VRow := ⟨(packWord 1#4 m 0#5 a 0#3 sc 0x57#7), 0, .any, fun s => (opX s a), (vVst m a sc)⟩
/-- The row of `vstS`. -/
def rowVstS (m : MaskNo) (b : BitVec 5) (a : BitVec 5) (sc : VRegNo) : VRow := ⟨(packWord 1#4 m b a 1#3 sc 0x57#7), 0, .any, fun s => (opXX s a b), (vVstS m b a sc)⟩
/-- The row of `vstX`. -/
def rowVstX (m : MaskNo) (b : BitVec 5) (a : BitVec 5) (sc : VRegNo) : VRow := ⟨(packWord 1#4 m b a 2#3 sc 0x57#7), 0, .any, fun s => (opX s a), (vVstX m b a sc)⟩
/-- The row of `vstB`. -/
def rowVstB (m : MaskNo) (b : BitVec 5) (a : BitVec 5) (sc : VRegNo) : VRow := ⟨(packWord 1#4 m b a 3#3 sc 0x57#7), 0, .any, fun s => (opXX s a b), (vVstB m b a sc)⟩
/-- The row of `vldQ`. -/
def rowVldQ (m : MaskNo) (a : BitVec 5) (q : QueueNo) : VRow := ⟨(packWord 2#4 m 0#5 a 0#3 (0#3 ++ q) 0x57#7), 0, .any, fun s => (opX s a), (vVldQ m a q)⟩
/-- The row of `vldQS`. -/
def rowVldQS (m : MaskNo) (b : BitVec 5) (a : BitVec 5) (q : QueueNo) : VRow := ⟨(packWord 2#4 m b a 1#3 (0#3 ++ q) 0x57#7), 0, .any, fun s => (opXX s a b), (vVldQS m b a q)⟩
/-- The row of `vldQX`. -/
def rowVldQX (m : MaskNo) (b : BitVec 5) (a : BitVec 5) (q : QueueNo) : VRow := ⟨(packWord 2#4 m b a 2#3 (0#3 ++ q) 0x57#7), 0, .any, fun s => (opX s a), (vVldQX m b a q)⟩
/-- The row of `vldoS`. -/
def rowVldoS (m : MaskNo) (b : BitVec 5) (a : BitVec 5) (d : BitVec 5) : VRow := ⟨(packWord 3#4 m b a 1#3 d 0x57#7), 0, .any, fun s => (opXX s a b), (vVldoS m b a d)⟩
/-- The row of `vldoX`. -/
def rowVldoX (m : MaskNo) (b : BitVec 5) (a : BitVec 5) (d : BitVec 5) : VRow := ⟨(packWord 3#4 m b a 2#3 d 0x57#7), 0, .any, fun s => (opX s a), (vVldoX m b a d)⟩
/-- The row of `vstoS`. -/
def rowVstoS (m : MaskNo) (b : BitVec 5) (a : BitVec 5) (sc : VRegNo) : VRow := ⟨(packWord 4#4 m b a 1#3 sc 0x57#7), 0, .any, fun s => (opXX s a b), (vVstoS m b a sc)⟩
/-- The row of `vstoX`. -/
def rowVstoX (m : MaskNo) (b : BitVec 5) (a : BitVec 5) (sc : VRegNo) : VRow := ⟨(packWord 4#4 m b a 2#3 sc 0x57#7), 0, .any, fun s => (opX s a), (vVstoX m b a sc)⟩
/-- The row of `vamo`. -/
def rowVamo (m : MaskNo) (b : BitVec 5) (a : BitVec 5) (o : AtomicOp) (d : BitVec 5) : VRow := ⟨(packWord 5#4 m b a o.bits d 0x57#7), 0, .any, fun s => (opX s a), (vVamo m b a o d)⟩
/-- The row of `vupdO`. -/
def rowVupdO (m : MaskNo) (b : BitVec 5) (a : BitVec 5) (o : AtomicOp) (sc : VRegNo) : VRow := ⟨(packWord 6#4 m b a o.bits sc 0x57#7), 0, .any, fun s => (opX s a), (vVupdO m b a o sc)⟩
/-- The row of `vpf`. -/
def rowVpf (m : MaskNo) (a : BitVec 5) : VRow := ⟨(packWord 7#4 m 0#5 a 0#3 0#5 0x57#7), 0, .any, fun s => (opX s a), (vVpf m a)⟩
/-- The row of `vpfS`. -/
def rowVpfS (m : MaskNo) (b : BitVec 5) (a : BitVec 5) : VRow := ⟨(packWord 7#4 m b a 1#3 0#5 0x57#7), 0, .any, fun s => (opXX s a b), (vVpfS m b a)⟩
/-- The row of `vpfX`. -/
def rowVpfX (m : MaskNo) (b : BitVec 5) (a : BitVec 5) : VRow := ⟨(packWord 7#4 m b a 2#3 0#5 0x57#7), 0, .any, fun s => (opX s a), (vVpfX m b a)⟩
/-- The row of `ald`. -/
def rowAld (b : BitVec 5) (a : BitVec 5) (d : BitVec 5) : VRow := ⟨(packWord 8#4 0#3 b a 0#3 d 0x57#7), 2, .any, fun s => (opXX s a b), (vAld b a d)⟩
/-- The row of `aldC`. -/
def rowAldC (b : BitVec 5) (a : BitVec 5) (d : BitVec 5) : VRow := ⟨(packWord 9#4 0#3 b a 0#3 d 0x57#7), 2, .any, fun s => (opXX s a b), (vAldC b a d)⟩
/-- The row of `ast`. -/
def rowAst (b : BitVec 5) (a : BitVec 5) (sc : VRegNo) : VRow := ⟨(packWord 10#4 0#3 b a 0#3 sc 0x57#7), 2, .any, fun s => (opXX s a b), (vAst b a sc)⟩
/-- The row of `mld`. -/
def rowMld (b : BitVec 5) (a : BitVec 5) (t : TileNo) : VRow := ⟨(packWord 11#4 0#3 b a 0#3 (0#3 ++ t) 0x57#7), 1, .any, fun s => (opXX s a b), (vMld b a t)⟩
/-- The row of `mst`. -/
def rowMst (b : BitVec 5) (a : BitVec 5) (t : TileNo) : VRow := ⟨(packWord 12#4 0#3 b a 0#3 (0#3 ++ t) 0x57#7), 1, .any, fun s => (opXX s a b), (vMst b a t)⟩
/-- The row of `vcpy`. -/
def rowVcpy (b : BitVec 5) (a : BitVec 5) (p : BitVec 1) (z : BitVec 1) : VRow := ⟨(packWord 13#4 0#3 b a 0#3 (0#3 ++ p ++ z) 0x57#7), 0, .any, fun s => (opXX s a b), (vVcpy b a p z)⟩
/-- The row of `vfill`. -/
def rowVfill (b : BitVec 5) (a : BitVec 5) : VRow := ⟨(packWord 14#4 0#3 b a 0#3 0#5 0x57#7), 0, .any, fun s => (opXX s a b), (vVfill b a)⟩
/-- The row of `nm`. -/
def rowNm (b : BitVec 5) (a : BitVec 5) (k : BitVec 5) : VRow := ⟨(packWord 15#4 0#3 b a 0#3 k 0x57#7), 3, .any, fun s => ⟨some (s.hart.getX a), some (s.hart.getX b), some (s.hart.getX k)⟩, (vNm b a k)⟩
/-- The row of `setl`. -/
def rowSetl (v : BitVec 10) (a : BitVec 5) (d : BitVec 5) : VRow := ⟨(packWord (0#2 ++ v.extractLsb' 8 2) (v.extractLsb' 5 3) (v.extractLsb' 0 5) a 0#3 d 0x77#7), 0, .any, fun s => (opSetl s a), (vSetl v a d)⟩
/-- The row of `setlR`. -/
def rowSetlR (b : BitVec 5) (a : BitVec 5) (d : BitVec 5) : VRow := ⟨(packWord 0#4 0#3 b a 1#3 d 0x77#7), 0, .any, fun s => (opSetlR s a b), (vSetlR b a d)⟩
/-- The row of `fenceSv`. -/
def rowFenceSv (sc : Scope) : VRow := ⟨(packWord 0#4 sc.bits 0#5 0#5 2#3 0#5 0x77#7), 0, .any, fun _ => noOps, (vFenceSv sc)⟩
/-- The row of `fenceVs`. -/
def rowFenceVs (sc : Scope) : VRow := ⟨(packWord 1#4 sc.bits 0#5 0#5 2#3 0#5 0x77#7), 0, .any, fun _ => noOps, (vFenceVs sc)⟩
/-- The row of `fenceVv`. -/
def rowFenceVv (sc : Scope) : VRow := ⟨(packWord 2#4 sc.bits 0#5 0#5 2#3 0#5 0x77#7), 0, .any, fun _ => noOps, (vFenceVv sc)⟩
/-- The row of `fenceNm`. -/
def rowFenceNm (sc : Scope) : VRow := ⟨(packWord 3#4 sc.bits 0#5 0#5 2#3 0#5 0x77#7), 0, .any, fun _ => noOps, (vFenceNm sc)⟩
/-- The row of `fenceAlias`. -/
def rowFenceAlias (sc : Scope) : VRow := ⟨(packWord 4#4 sc.bits 0#5 0#5 2#3 0#5 0x77#7), 0, .any, fun _ => noOps, (vFenceAlias sc)⟩
/-- The row of `fenceRel`. -/
def rowFenceRel (sc : Scope) : VRow := ⟨(packWord 5#4 sc.bits 0#5 0#5 2#3 0#5 0x77#7), 0, .any, fun _ => noOps, (vFenceRel sc)⟩
/-- The row of `fenceAcq`. -/
def rowFenceAcq (sc : Scope) : VRow := ⟨(packWord 6#4 sc.bits 0#5 0#5 2#3 0#5 0x77#7), 0, .any, fun _ => noOps, (vFenceAcq sc)⟩
/-- The row of `fenceAr`. -/
def rowFenceAr (sc : Scope) : VRow := ⟨(packWord 7#4 sc.bits 0#5 0#5 2#3 0#5 0x77#7), 0, .any, fun _ => noOps, (vFenceAr sc)⟩
/-- The row of `drain`. -/
def rowDrain (q : BitVec 6) : VRow := ⟨(packWord 8#4 (0#2 ++ q.extractLsb' 5 1) (q.extractLsb' 0 5) 0#5 2#3 0#5 0x77#7), 0, .any, fun _ => noOps, (vDrain q)⟩
/-- The row of `barArrive`. -/
def rowBarArrive (a : BitVec 5) : VRow := ⟨(packWord 0#4 0#3 0#5 a 3#3 0#5 0x77#7), 0, .any, fun s => (opX s a), (vBarArrive a)⟩
/-- The row of `barWait`. -/
def rowBarWait (a : BitVec 5) : VRow := ⟨(packWord 1#4 0#3 0#5 a 3#3 0#5 0x77#7), 0, .any, fun s => (opX s a), (vBarWait a)⟩
/-- The row of `barSync`. -/
def rowBarSync (a : BitVec 5) : VRow := ⟨(packWord 2#4 0#3 0#5 a 3#3 0#5 0x77#7), 0, .any, fun s => (opX s a), (vBarSync a)⟩
/-- The row of `barInit`. -/
def rowBarInit (b : BitVec 5) (a : BitVec 5) : VRow := ⟨(packWord 3#4 0#3 b a 3#3 0#5 0x77#7), 0, .any, fun s => (opXX s a b), (vBarInit b a)⟩
/-- The row of `waitMem`. -/
def rowWaitMem (b : BitVec 5) (a : BitVec 5) (d : BitVec 5) : VRow := ⟨(packWord 4#4 0#3 b a 3#3 d 0x77#7), 0, .any, fun s => ⟨some (s.hart.getX a), some (s.hart.getX b), some (s.hart.getX d)⟩, (vWaitMem b a d)⟩
/-- The row of `waitTime`. -/
def rowWaitTime (a : BitVec 5) : VRow := ⟨(packWord 5#4 0#3 0#5 a 3#3 0#5 0x77#7), 0, .any, fun s => (opX s a), (vWaitTime a)⟩
/-- The row of `yield`. -/
def rowYield : VRow := ⟨(packWord 6#4 0#3 0#5 0#5 3#3 0#5 0x77#7), 0, .any, fun _ => noOps, vYield⟩
/-- The row of `halt`. -/
def rowHalt : VRow := ⟨(packWord 7#4 0#3 0#5 0#5 3#3 0#5 0x77#7), 0, .any, fun _ => noOps, vHalt⟩
/-- The row of `qpush`. -/
def rowQpush (b : BitVec 5) (a : BitVec 5) : VRow := ⟨(packWord 0#4 0#3 b a 4#3 0#5 0x77#7), 0, .any, fun s => (opXX s a b), (vQpush b a)⟩
/-- The row of `qpop`. -/
def rowQpop (a : BitVec 5) (d : BitVec 5) : VRow := ⟨(packWord 1#4 0#3 0#5 a 4#3 d 0x77#7), 0, .any, fun s => (opX s a), (vQpop a d)⟩
/-- The row of `qpopT`. -/
def rowQpopT (a : BitVec 5) (d : BitVec 5) : VRow := ⟨(packWord 1#4 1#3 0#5 a 4#3 d 0x77#7), 0, .any, fun s => (opX s a), (vQpopT a d)⟩
/-- The row of `qany`. -/
def rowQany (m : MaskNo) : VRow := ⟨(packWord 2#4 m 0#5 0#5 4#3 0#5 0x77#7), 0, .any, fun _ => noOps, (vQany m)⟩
/-- The row of `qall`. -/
def rowQall (m : MaskNo) : VRow := ⟨(packWord 3#4 m 0#5 0#5 4#3 0#5 0x77#7), 0, .any, fun _ => noOps, (vQall m)⟩
/-- The row of `launch`. -/
def rowLaunch (b : BitVec 5) (a : BitVec 5) (d : BitVec 5) : VRow := ⟨(packWord 4#4 0#3 b a 4#3 d 0x77#7), 0, .any, fun s => (opXX s a b), (vLaunch b a d)⟩
/-- The row of `qlen`. -/
def rowQlen (a : BitVec 5) (d : BitVec 5) : VRow := ⟨(packWord 5#4 0#3 0#5 a 4#3 d 0x77#7), 0, .any, fun s => (opX s a), (vQlen a d)⟩
/-- The row of `vsave`. -/
def rowVsave (a : BitVec 5) : VRow := ⟨(packWord 0#4 0#3 0#5 a 5#3 0#5 0x77#7), 0, .supervisor, fun s => (opX s a), (vVsave a)⟩
/-- The row of `vrest`. -/
def rowVrest (a : BitVec 5) : VRow := ⟨(packWord 1#4 0#3 0#5 a 5#3 0#5 0x77#7), 0, .supervisor, fun s => (opX s a), (vVrest a)⟩
/-- The row of `reclaim`. -/
def rowReclaim (b : BitVec 5) (a : BitVec 5) : VRow := ⟨(packWord 4#4 0#3 b a 5#3 0#5 0x77#7), 0, .system, fun s => (opXX s a b), (vReclaim b a)⟩
/-- The row of `vprobe`. -/
def rowVprobe (b : BitVec 5) (a : BitVec 5) (d : BitVec 5) : VRow := ⟨(packWord 5#4 0#3 b a 5#3 d 0x77#7), 0, .system, fun s => (opXX s a b), (vVprobe b a d)⟩
/-- The row of `kend`. -/
def rowKend : VRow := ⟨(packWord 6#4 0#3 0#5 0#5 5#3 0#5 0x77#7), 0, .any, fun _ => noOps, vKend⟩

/-- An instruction as a vector run, none where it is no ALV word. -/
def instrRun : Instr → Option VRun
  | .addVv m b a d => some (.row (rowAddVv m b a d))
  | .addVx m b a d => some (.row (rowAddVx m b a d))
  | .addVi m b a d => some (.row (rowAddVi m b a d))
  | .addVq m b q d => some (.row (rowAddVq m b q d))
  | .addVn m b a d => some (.row (rowAddVn m b a d))
  | .subVv m b a d => some (.row (rowSubVv m b a d))
  | .subVx m b a d => some (.row (rowSubVx m b a d))
  | .subVi m b a d => some (.row (rowSubVi m b a d))
  | .subVq m b q d => some (.row (rowSubVq m b q d))
  | .subVn m b a d => some (.row (rowSubVn m b a d))
  | .rsubVv m b a d => some (.row (rowRsubVv m b a d))
  | .rsubVx m b a d => some (.row (rowRsubVx m b a d))
  | .rsubVi m b a d => some (.row (rowRsubVi m b a d))
  | .rsubVq m b q d => some (.row (rowRsubVq m b q d))
  | .rsubVn m b a d => some (.row (rowRsubVn m b a d))
  | .mulVv m b a d => some (.row (rowMulVv m b a d))
  | .mulVx m b a d => some (.row (rowMulVx m b a d))
  | .mulVi m b a d => some (.row (rowMulVi m b a d))
  | .mulVq m b q d => some (.row (rowMulVq m b q d))
  | .mulVn m b a d => some (.row (rowMulVn m b a d))
  | .mulhVv m b a d => some (.row (rowMulhVv m b a d))
  | .mulhVx m b a d => some (.row (rowMulhVx m b a d))
  | .mulhVi m b a d => some (.row (rowMulhVi m b a d))
  | .mulhVq m b q d => some (.row (rowMulhVq m b q d))
  | .mulhVn m b a d => some (.row (rowMulhVn m b a d))
  | .minVv m b a d => some (.row (rowMinVv m b a d))
  | .minVx m b a d => some (.row (rowMinVx m b a d))
  | .minVi m b a d => some (.row (rowMinVi m b a d))
  | .minVq m b q d => some (.row (rowMinVq m b q d))
  | .minVn m b a d => some (.row (rowMinVn m b a d))
  | .maxVv m b a d => some (.row (rowMaxVv m b a d))
  | .maxVx m b a d => some (.row (rowMaxVx m b a d))
  | .maxVi m b a d => some (.row (rowMaxVi m b a d))
  | .maxVq m b q d => some (.row (rowMaxVq m b q d))
  | .maxVn m b a d => some (.row (rowMaxVn m b a d))
  | .andVv m b a d => some (.row (rowAndVv m b a d))
  | .andVx m b a d => some (.row (rowAndVx m b a d))
  | .andVi m b a d => some (.row (rowAndVi m b a d))
  | .andVq m b q d => some (.row (rowAndVq m b q d))
  | .andVn m b a d => some (.row (rowAndVn m b a d))
  | .orVv m b a d => some (.row (rowOrVv m b a d))
  | .orVx m b a d => some (.row (rowOrVx m b a d))
  | .orVi m b a d => some (.row (rowOrVi m b a d))
  | .orVq m b q d => some (.row (rowOrVq m b q d))
  | .orVn m b a d => some (.row (rowOrVn m b a d))
  | .xorVv m b a d => some (.row (rowXorVv m b a d))
  | .xorVx m b a d => some (.row (rowXorVx m b a d))
  | .xorVi m b a d => some (.row (rowXorVi m b a d))
  | .xorVq m b q d => some (.row (rowXorVq m b q d))
  | .xorVn m b a d => some (.row (rowXorVn m b a d))
  | .sllVv m b a d => some (.row (rowSllVv m b a d))
  | .sllVx m b a d => some (.row (rowSllVx m b a d))
  | .sllVi m b a d => some (.row (rowSllVi m b a d))
  | .sllVq m b q d => some (.row (rowSllVq m b q d))
  | .sllVn m b a d => some (.row (rowSllVn m b a d))
  | .srlVv m b a d => some (.row (rowSrlVv m b a d))
  | .srlVx m b a d => some (.row (rowSrlVx m b a d))
  | .srlVi m b a d => some (.row (rowSrlVi m b a d))
  | .srlVq m b q d => some (.row (rowSrlVq m b q d))
  | .srlVn m b a d => some (.row (rowSrlVn m b a d))
  | .sraVv m b a d => some (.row (rowSraVv m b a d))
  | .sraVx m b a d => some (.row (rowSraVx m b a d))
  | .sraVi m b a d => some (.row (rowSraVi m b a d))
  | .sraVq m b q d => some (.row (rowSraVq m b q d))
  | .sraVn m b a d => some (.row (rowSraVn m b a d))
  | .macVv m b a d => some (.row (rowMacVv m b a d))
  | .macVx m b a d => some (.row (rowMacVx m b a d))
  | .macVi m b a d => some (.row (rowMacVi m b a d))
  | .macVq m b q d => some (.row (rowMacVq m b q d))
  | .macVn m b a d => some (.row (rowMacVn m b a d))
  | .cmpVv m b a c e => some (.row (rowCmpVv m b a c e))
  | .cmpVx m b a c e => some (.row (rowCmpVx m b a c e))
  | .cmpVi m b a c e => some (.row (rowCmpVi m b a c e))
  | .cmpVq m b q c e => some (.row (rowCmpVq m b q c e))
  | .cmpVn m b a c e => some (.row (rowCmpVn m b a c e))
  | .cmpzVv m b a c e => some (.row (rowCmpzVv m b a c e))
  | .cmpzVx m b a c e => some (.row (rowCmpzVx m b a c e))
  | .cmpzVi m b a c e => some (.row (rowCmpzVi m b a c e))
  | .cmpzVq m b q c e => some (.row (rowCmpzVq m b q c e))
  | .cmpzVn m b a c e => some (.row (rowCmpzVn m b a c e))
  | .minzXv m b a d => some (.row (rowMinzXv m b a d))
  | .minzXx m b a d => some (.row (rowMinzXx m b a d))
  | .maxzXv m b a d => some (.row (rowMaxzXv m b a d))
  | .maxzXx m b a d => some (.row (rowMaxzXx m b a d))
  | .mulhzXv m b a d => some (.row (rowMulhzXv m b a d))
  | .mulhzXx m b a d => some (.row (rowMulhzXx m b a d))
  | .divXv m b a d => some (.row (rowDivXv m b a d))
  | .divXx m b a d => some (.row (rowDivXx m b a d))
  | .divzXv m b a d => some (.row (rowDivzXv m b a d))
  | .divzXx m b a d => some (.row (rowDivzXx m b a d))
  | .remXv m b a d => some (.row (rowRemXv m b a d))
  | .remXx m b a d => some (.row (rowRemXx m b a d))
  | .remzXv m b a d => some (.row (rowRemzXv m b a d))
  | .remzXx m b a d => some (.row (rowRemzXx m b a d))
  | .saddXv m b a d => some (.row (rowSaddXv m b a d))
  | .saddXx m b a d => some (.row (rowSaddXx m b a d))
  | .ssubXv m b a d => some (.row (rowSsubXv m b a d))
  | .ssubXx m b a d => some (.row (rowSsubXx m b a d))
  | .waddXv m b a d => some (.row (rowWaddXv m b a d))
  | .waddXx m b a d => some (.row (rowWaddXx m b a d))
  | .wmulXv m b a d => some (.row (rowWmulXv m b a d))
  | .wmulXx m b a d => some (.row (rowWmulXx m b a d))
  | .sext m b f d => some (.row (rowSext m b f d))
  | .zext m b f d => some (.row (rowZext m b f d))
  | .narrow m b f d => some (.row (rowNarrow m b f d))
  | .narrowz m b f d => some (.row (rowNarrowz m b f d))
  | .absdXv m b a d => some (.row (rowAbsdXv m b a d))
  | .absdXx m b a d => some (.row (rowAbsdXx m b a d))
  | .bitc m b o d => some (.row (rowBitc m b o d))
  | .faddVv m b a d => some (.row (rowFaddVv m b a d))
  | .faddVx m b a d => some (.row (rowFaddVx m b a d))
  | .faddVq m b q d => some (.row (rowFaddVq m b q d))
  | .faddVn m b a d => some (.row (rowFaddVn m b a d))
  | .fsubVv m b a d => some (.row (rowFsubVv m b a d))
  | .fsubVx m b a d => some (.row (rowFsubVx m b a d))
  | .fsubVq m b q d => some (.row (rowFsubVq m b q d))
  | .fsubVn m b a d => some (.row (rowFsubVn m b a d))
  | .fmulVv m b a d => some (.row (rowFmulVv m b a d))
  | .fmulVx m b a d => some (.row (rowFmulVx m b a d))
  | .fmulVq m b q d => some (.row (rowFmulVq m b q d))
  | .fmulVn m b a d => some (.row (rowFmulVn m b a d))
  | .fdivVv m b a d => some (.row (rowFdivVv m b a d))
  | .fdivVx m b a d => some (.row (rowFdivVx m b a d))
  | .fdivVq m b q d => some (.row (rowFdivVq m b q d))
  | .fdivVn m b a d => some (.row (rowFdivVn m b a d))
  | .fminVv m b a d => some (.row (rowFminVv m b a d))
  | .fminVx m b a d => some (.row (rowFminVx m b a d))
  | .fminVq m b q d => some (.row (rowFminVq m b q d))
  | .fminVn m b a d => some (.row (rowFminVn m b a d))
  | .fmaxVv m b a d => some (.row (rowFmaxVv m b a d))
  | .fmaxVx m b a d => some (.row (rowFmaxVx m b a d))
  | .fmaxVq m b q d => some (.row (rowFmaxVq m b q d))
  | .fmaxVn m b a d => some (.row (rowFmaxVn m b a d))
  | .fmaddVv m b a d => some (.row (rowFmaddVv m b a d))
  | .fmaddVx m b a d => some (.row (rowFmaddVx m b a d))
  | .fmaddVq m b q d => some (.row (rowFmaddVq m b q d))
  | .fmaddVn m b a d => some (.row (rowFmaddVn m b a d))
  | .fnmsubVv m b a d => some (.row (rowFnmsubVv m b a d))
  | .fnmsubVx m b a d => some (.row (rowFnmsubVx m b a d))
  | .fnmsubVq m b q d => some (.row (rowFnmsubVq m b q d))
  | .fnmsubVn m b a d => some (.row (rowFnmsubVn m b a d))
  | .fcmpVv m b a c e => some (.row (rowFcmpVv m b a c e))
  | .fcmpVx m b a c e => some (.row (rowFcmpVx m b a c e))
  | .fcmpVq m b q c e => some (.row (rowFcmpVq m b q c e))
  | .fcmpVn m b a c e => some (.row (rowFcmpVn m b a c e))
  | .fsqrt m b d => some (.row (rowFsqrt m b d))
  | .frec m b d => some (.row (rowFrec m b d))
  | .frsq m b d => some (.row (rowFrsq m b d))
  | .fexp2 m b d => some (.row (rowFexp2 m b d))
  | .fcvt m b c d => some (.row (rowFcvt m b c d))
  | .fclass m b d => some (.row (rowFclass m b d))
  | .fround m b d => some (.row (rowFround m b d))
  | .fsgnjXv m b a d => some (.row (rowFsgnjXv m b a d))
  | .fsgnjXx m b a d => some (.row (rowFsgnjXx m b a d))
  | .fsgnjnXv m b a d => some (.row (rowFsgnjnXv m b a d))
  | .fsgnjnXx m b a d => some (.row (rowFsgnjnXx m b a d))
  | .fsgnjxXv m b a d => some (.row (rowFsgnjxXv m b a d))
  | .fsgnjxXx m b a d => some (.row (rowFsgnjxXx m b a d))
  | .fwaddXv m b a d => some (.row (rowFwaddXv m b a d))
  | .fwaddXx m b a d => some (.row (rowFwaddXx m b a d))
  | .fwmulXv m b a d => some (.row (rowFwmulXv m b a d))
  | .fwmulXx m b a d => some (.row (rowFwmulXx m b a d))
  | .fwmacXv m b a d => some (.row (rowFwmacXv m b a d))
  | .fwmacXx m b a d => some (.row (rowFwmacXx m b a d))
  | .vquant m b a d => some (.row (rowVquant m b a d))
  | .vdequant m b a d => some (.row (rowVdequant m b a d))
  | .vqef m b a d => some (.row (rowVqef m b a d))
  | .vbscale m b a d => some (.row (rowVbscale m b a d))
  | .vouts m b a d => some (.row (rowVouts m b a d))
  | .mand b a d => some (.row (rowMand b a d))
  | .mor b a d => some (.row (rowMor b a d))
  | .mxor b a d => some (.row (rowMxor b a d))
  | .mandn b a d => some (.row (rowMandn b a d))
  | .mpop m b d => some (.row (rowMpop m b d))
  | .mfirst m b d => some (.row (rowMfirst m b d))
  | .iota m b d => some (.row (rowIota m b d))
  | .vid m d => some (.row (rowVid m d))
  | .slideupVx m b a d => some (.row (rowSlideupVx m b a d))
  | .slideupVi m b a d => some (.row (rowSlideupVi m b a d))
  | .slideupVn m b a d => some (.row (rowSlideupVn m b a d))
  | .slidednVx m b a d => some (.row (rowSlidednVx m b a d))
  | .slidednVi m b a d => some (.row (rowSlidednVi m b a d))
  | .slidednVn m b a d => some (.row (rowSlidednVn m b a d))
  | .vgatherVv m b a d => some (.row (rowVgatherVv m b a d))
  | .vgatherVx m b a d => some (.row (rowVgatherVx m b a d))
  | .vcompress m b d => some (.row (rowVcompress m b d))
  | .vexpand m b d => some (.row (rowVexpand m b d))
  | .vlut m b a d => some (.row (rowVlut m b a d))
  | .vunpack m b a d => some (.row (rowVunpack m b a d))
  | .vpack m b a d => some (.row (rowVpack m b a d))
  | .redsum m b a d => some (.row (rowRedsum m b a d))
  | .redmin m b a d => some (.row (rowRedmin m b a d))
  | .redmax m b a d => some (.row (rowRedmax m b a d))
  | .redminz m b a d => some (.row (rowRedminz m b a d))
  | .redmaxz m b a d => some (.row (rowRedmaxz m b a d))
  | .redand m b a d => some (.row (rowRedand m b a d))
  | .redor m b a d => some (.row (rowRedor m b a d))
  | .redxor m b a d => some (.row (rowRedxor m b a d))
  | .fredo m b a d => some (.row (rowFredo m b a d))
  | .fredt m b a d => some (.row (rowFredt m b a d))
  | .fredmax m b a d => some (.row (rowFredmax m b a d))
  | .fredmin m b a d => some (.row (rowFredmin m b a d))
  | .mvxs b a d => some (.row (rowMvxs b a d))
  | .mvsx a d => some (.row (rowMvsx a d))
  | .vbcast a d => some (.row (rowVbcast a d))
  | .vrev m b d => some (.row (rowVrev m b d))
  | .aaddVv b a d => some (.row (rowAaddVv b a d))
  | .aaddVx b a d => some (.row (rowAaddVx b a d))
  | .aaddVi b a d => some (.row (rowAaddVi b a d))
  | .asubVv b a d => some (.row (rowAsubVv b a d))
  | .asubVx b a d => some (.row (rowAsubVx b a d))
  | .asubVi b a d => some (.row (rowAsubVi b a d))
  | .adiffVx b a d => some (.row (rowAdiffVx b a d))
  | .adiffVi b a d => some (.row (rowAdiffVi b a d))
  | .amulVx b a d => some (.row (rowAmulVx b a d))
  | .amulVi b a d => some (.row (rowAmulVi b a d))
  | .ascaleVx b a d => some (.row (rowAscaleVx b a d))
  | .ascaleVi b a d => some (.row (rowAscaleVi b a d))
  | .aconv b c d => some (.row (rowAconv b c d))
  | .afrom b c d => some (.row (rowAfrom b c d))
  | .areanchorVx b a d => some (.row (rowAreanchorVx b a d))
  | .areanchorVi b o d => some (.row (rowAreanchorVi b o d))
  | .ared b d => some (.row (rowAred b d))
  | .aget b d => some (.row (rowAget b d))
  | .aput b d => some (.row (rowAput b d))
  | .aqset b d => some (.row (rowAqset b d))
  | .mzero t => some (.row (rowMzero t))
  | .mpa b a t => some (.row (rowMpa b a t))
  | .mmvTv b a t => some (.row (rowMmvTv b a t))
  | .mmvVt b a t => some (.row (rowMmvVt b a t))
  | .mscale b a => some (.row (rowMscale b a))
  | .mpaI b a t => some (.row (rowMpaI b a t))
  | .mpaH b a t => some (.row (rowMpaH b a t))
  | .mlra b a t => some (.row (rowMlra b a t))
  | .mcvt t a d => some (.row (rowMcvt t a d))
  | .acmp b a c e => some (.row (rowAcmp b a c e))
  | .vld m a d => some (.row (rowVld m a d))
  | .vldS m b a d => some (.row (rowVldS m b a d))
  | .vldX m b a d => some (.row (rowVldX m b a d))
  | .vldB m b a d => some (.row (rowVldB m b a d))
  | .vldW m a d => some (.row (rowVldW m a d))
  | .vst m a sc => some (.row (rowVst m a sc))
  | .vstS m b a sc => some (.row (rowVstS m b a sc))
  | .vstX m b a sc => some (.row (rowVstX m b a sc))
  | .vstB m b a sc => some (.row (rowVstB m b a sc))
  | .vldQ m a q => some (.row (rowVldQ m a q))
  | .vldQS m b a q => some (.row (rowVldQS m b a q))
  | .vldQX m b a q => some (.row (rowVldQX m b a q))
  | .vldoS m b a d => some (.row (rowVldoS m b a d))
  | .vldoX m b a d => some (.row (rowVldoX m b a d))
  | .vstoS m b a sc => some (.row (rowVstoS m b a sc))
  | .vstoX m b a sc => some (.row (rowVstoX m b a sc))
  | .vamo m b a o d => some (.row (rowVamo m b a o d))
  | .vupdO m b a o sc => some (.row (rowVupdO m b a o sc))
  | .vpf m a => some (.row (rowVpf m a))
  | .vpfS m b a => some (.row (rowVpfS m b a))
  | .vpfX m b a => some (.row (rowVpfX m b a))
  | .ald b a d => some (.row (rowAld b a d))
  | .aldC b a d => some (.row (rowAldC b a d))
  | .ast b a sc => some (.row (rowAst b a sc))
  | .mld b a t => some (.row (rowMld b a t))
  | .mst b a t => some (.row (rowMst b a t))
  | .vcpy b a p z => some (.row (rowVcpy b a p z))
  | .vfill b a => some (.row (rowVfill b a))
  | .nm b a k => some (.row (rowNm b a k))
  | .setl v a d => some (.row (rowSetl v a d))
  | .setlR b a d => some (.row (rowSetlR b a d))
  | .fenceSv sc => some (.row (rowFenceSv sc))
  | .fenceVs sc => some (.row (rowFenceVs sc))
  | .fenceVv sc => some (.row (rowFenceVv sc))
  | .fenceNm sc => some (.row (rowFenceNm sc))
  | .fenceAlias sc => some (.row (rowFenceAlias sc))
  | .fenceRel sc => some (.row (rowFenceRel sc))
  | .fenceAcq sc => some (.row (rowFenceAcq sc))
  | .fenceAr sc => some (.row (rowFenceAr sc))
  | .drain q => some (.row (rowDrain q))
  | .barArrive a => some (.row (rowBarArrive a))
  | .barWait a => some (.row (rowBarWait a))
  | .barSync a => some (.row (rowBarSync a))
  | .barInit b a => some (.row (rowBarInit b a))
  | .waitMem b a d => some (.row (rowWaitMem b a d))
  | .waitTime a => some (.row (rowWaitTime a))
  | .yield => some (.row rowYield)
  | .halt => some (.row rowHalt)
  | .qpush b a => some (.row (rowQpush b a))
  | .qpop a d => some (.row (rowQpop a d))
  | .qpopT a d => some (.row (rowQpopT a d))
  | .qany m => some (.row (rowQany m))
  | .qall m => some (.row (rowQall m))
  | .launch b a d => some (.row (rowLaunch b a d))
  | .qlen a d => some (.row (rowQlen a d))
  | .vsave a => some (.row (rowVsave a))
  | .vrest a => some (.row (rowVrest a))
  | .vret => some .vret
  | .aret => some .aret
  | .reclaim b a => some (.row (rowReclaim b a))
  | .vprobe b a d => some (.row (rowVprobe b a d))
  | .kend => some (.row rowKend)
  | .scalarBaseInstruction .. | .fence .. | .fenceI .. | .sfenceVma .. | .wfi | .ecall | .ebreak | .lrSc ..
  | .grantWindow .. | .revokeWindow .. | .assignGranules .. | .releaseGranules .. | .setQueueOwner ..
  | .illegalInstruction .. | .viqAdmission .. | .viqHeadAged .. | .microOpIssue .. | .vectorInstructionComplete ..
  | .pinEntriesFree .. | .storePerformed .. | .arrivalPointerAdvance .. | .aldCAttempt .. | .lineLockRelease ..
  | .nmLineApply .. | .nmCompletionRecord .. | .cxlRequestIssue .. | .rowActivation .. | .callGraphPrefetch ..
  | .sequentialPrefetch .. | .vectorTrap .. | .userAnchorDelivery .. | .interrupt .. | .hartFatalError ..
  | .supervisorTerminate .. | .launchCheck .. | .queueHeadAging .. | .gangPlacement .. | .reclaimTakesEffect ..
  | .reclaimAbandon .. | .fullContextSwitch .. | .timeSliceExpiry .. | .gangRestore .. | .gangRetire ..
  | .launchComplete .. | .heldSuccessorEntersQueue .. | .lqRecordEntersQueue .. | .barrierPhaseComplete ..
  | .pigeonholeValueArrives .. | .waitMemReread .. | .waitTimeDeadline .. | .pwrgrantWrite .. | .chainpermWrite ..
  | .busyctlWrite .. | .vdeskWrite .. | .satpWrite .. | .mhpmcounterWrite .. | .mhpmeventWrite .. | .csrWrite ..
  | .lqctlWrite .. | .lqDoorbell .. | .launchFrameReceive .. | .pcieInboundRequest .. | .shofinRemoteRequest ..
  | .routeDownTimeout .. | .timestampExchange .. | .timebaseTick | .stringWindow .. | .stringStepUp ..
  | .powerManagerPeriod .. | .lanePowerGate .. | .laneWake .. | .uncorrectableError .. | .correctableError ..
  | .l1dParityError .. | .layerMapOut .. | .mapOutVacated .. | .mapOutLineMove .. | .coldReset .. | .warmReset
  | .memready | .attestationRequest .. | .reportCardWrite | .fatalDump .. | .shofinRouteLost ..
  | .shofinRouteRetrained .. | .phyTrainingComplete .. | .systemCoreMemoryAccess .. => none

/-! The pages of `decodeWord` with each instruction replaced by its run. -/

/-- `decodeVi0` with each instruction replaced by its run. -/
def runVi0 (f4 : BitVec 4) (mk : BitVec 3) (b : BitVec 5) (a : BitVec 5) (d : BitVec 5) : Option VRun :=
  match f4.toNat with
  | 0 => some (.row (rowAddVv mk b a d))
  | 1 => some (.row (rowSubVv mk b a d))
  | 2 => some (.row (rowRsubVv mk b a d))
  | 3 => some (.row (rowMulVv mk b a d))
  | 4 => some (.row (rowMulhVv mk b a d))
  | 5 => some (.row (rowMinVv mk b a d))
  | 6 => some (.row (rowMaxVv mk b a d))
  | 7 => some (.row (rowAndVv mk b a d))
  | 8 => some (.row (rowOrVv mk b a d))
  | 9 => some (.row (rowXorVv mk b a d))
  | 10 => some (.row (rowSllVv mk b a d))
  | 11 => some (.row (rowSrlVv mk b a d))
  | 12 => some (.row (rowSraVv mk b a d))
  | 13 => some (.row (rowMacVv mk b a d))
  | 14 => some (.row (rowCmpVv mk b a (Cond.ofBits (d.extractLsb' 3 2)) (d.extractLsb' 0 3)))
  | _ => some (.row (rowCmpzVv mk b a (Cond.ofBits (d.extractLsb' 3 2)) (d.extractLsb' 0 3)))

/-- `decodeVi1` with each instruction replaced by its run. -/
def runVi1 (f4 : BitVec 4) (mk : BitVec 3) (b : BitVec 5) (a : BitVec 5) (d : BitVec 5) : Option VRun :=
  match f4.toNat with
  | 0 => some (.row (rowAddVx mk b a d))
  | 1 => some (.row (rowSubVx mk b a d))
  | 2 => some (.row (rowRsubVx mk b a d))
  | 3 => some (.row (rowMulVx mk b a d))
  | 4 => some (.row (rowMulhVx mk b a d))
  | 5 => some (.row (rowMinVx mk b a d))
  | 6 => some (.row (rowMaxVx mk b a d))
  | 7 => some (.row (rowAndVx mk b a d))
  | 8 => some (.row (rowOrVx mk b a d))
  | 9 => some (.row (rowXorVx mk b a d))
  | 10 => some (.row (rowSllVx mk b a d))
  | 11 => some (.row (rowSrlVx mk b a d))
  | 12 => some (.row (rowSraVx mk b a d))
  | 13 => some (.row (rowMacVx mk b a d))
  | 14 => some (.row (rowCmpVx mk b a (Cond.ofBits (d.extractLsb' 3 2)) (d.extractLsb' 0 3)))
  | _ => some (.row (rowCmpzVx mk b a (Cond.ofBits (d.extractLsb' 3 2)) (d.extractLsb' 0 3)))

/-- `decodeVi2` with each instruction replaced by its run. -/
def runVi2 (f4 : BitVec 4) (mk : BitVec 3) (b : BitVec 5) (a : BitVec 5) (d : BitVec 5) : Option VRun :=
  match f4.toNat with
  | 0 => some (.row (rowAddVi mk b a d))
  | 1 => some (.row (rowSubVi mk b a d))
  | 2 => some (.row (rowRsubVi mk b a d))
  | 3 => some (.row (rowMulVi mk b a d))
  | 4 => some (.row (rowMulhVi mk b a d))
  | 5 => some (.row (rowMinVi mk b a d))
  | 6 => some (.row (rowMaxVi mk b a d))
  | 7 => some (.row (rowAndVi mk b a d))
  | 8 => some (.row (rowOrVi mk b a d))
  | 9 => some (.row (rowXorVi mk b a d))
  | 10 => some (.row (rowSllVi mk b a d))
  | 11 => some (.row (rowSrlVi mk b a d))
  | 12 => some (.row (rowSraVi mk b a d))
  | 13 => some (.row (rowMacVi mk b a d))
  | 14 => some (.row (rowCmpVi mk b a (Cond.ofBits (d.extractLsb' 3 2)) (d.extractLsb' 0 3)))
  | _ => some (.row (rowCmpzVi mk b a (Cond.ofBits (d.extractLsb' 3 2)) (d.extractLsb' 0 3)))

/-- `decodeVi3` with each instruction replaced by its run. -/
def runVi3 (f4 : BitVec 4) (mk : BitVec 3) (b : BitVec 5) (a : BitVec 5) (d : BitVec 5) : Option VRun :=
  match f4.toNat with
  | 0 => if (a.extractLsb' 2 3) = 0#3 then some (.row (rowAddVq mk b (a.extractLsb' 0 2) d)) else none
  | 1 => if (a.extractLsb' 2 3) = 0#3 then some (.row (rowSubVq mk b (a.extractLsb' 0 2) d)) else none
  | 2 => if (a.extractLsb' 2 3) = 0#3 then some (.row (rowRsubVq mk b (a.extractLsb' 0 2) d)) else none
  | 3 => if (a.extractLsb' 2 3) = 0#3 then some (.row (rowMulVq mk b (a.extractLsb' 0 2) d)) else none
  | 4 => if (a.extractLsb' 2 3) = 0#3 then some (.row (rowMulhVq mk b (a.extractLsb' 0 2) d)) else none
  | 5 => if (a.extractLsb' 2 3) = 0#3 then some (.row (rowMinVq mk b (a.extractLsb' 0 2) d)) else none
  | 6 => if (a.extractLsb' 2 3) = 0#3 then some (.row (rowMaxVq mk b (a.extractLsb' 0 2) d)) else none
  | 7 => if (a.extractLsb' 2 3) = 0#3 then some (.row (rowAndVq mk b (a.extractLsb' 0 2) d)) else none
  | 8 => if (a.extractLsb' 2 3) = 0#3 then some (.row (rowOrVq mk b (a.extractLsb' 0 2) d)) else none
  | 9 => if (a.extractLsb' 2 3) = 0#3 then some (.row (rowXorVq mk b (a.extractLsb' 0 2) d)) else none
  | 10 => if (a.extractLsb' 2 3) = 0#3 then some (.row (rowSllVq mk b (a.extractLsb' 0 2) d)) else none
  | 11 => if (a.extractLsb' 2 3) = 0#3 then some (.row (rowSrlVq mk b (a.extractLsb' 0 2) d)) else none
  | 12 => if (a.extractLsb' 2 3) = 0#3 then some (.row (rowSraVq mk b (a.extractLsb' 0 2) d)) else none
  | 13 => if (a.extractLsb' 2 3) = 0#3 then some (.row (rowMacVq mk b (a.extractLsb' 0 2) d)) else none
  | 14 => if (a.extractLsb' 2 3) = 0#3 then some (.row (rowCmpVq mk b (a.extractLsb' 0 2) (Cond.ofBits (d.extractLsb' 3 2)) (d.extractLsb' 0 3))) else none
  | _ => if (a.extractLsb' 2 3) = 0#3 then some (.row (rowCmpzVq mk b (a.extractLsb' 0 2) (Cond.ofBits (d.extractLsb' 3 2)) (d.extractLsb' 0 3))) else none

/-- `decodeVi4` with each instruction replaced by its run. -/
def runVi4 (f4 : BitVec 4) (mk : BitVec 3) (b : BitVec 5) (a : BitVec 5) (d : BitVec 5) : Option VRun :=
  match f4.toNat with
  | 0 => some (.row (rowAddVn mk b a d))
  | 1 => some (.row (rowSubVn mk b a d))
  | 2 => some (.row (rowRsubVn mk b a d))
  | 3 => some (.row (rowMulVn mk b a d))
  | 4 => some (.row (rowMulhVn mk b a d))
  | 5 => some (.row (rowMinVn mk b a d))
  | 6 => some (.row (rowMaxVn mk b a d))
  | 7 => some (.row (rowAndVn mk b a d))
  | 8 => some (.row (rowOrVn mk b a d))
  | 9 => some (.row (rowXorVn mk b a d))
  | 10 => some (.row (rowSllVn mk b a d))
  | 11 => some (.row (rowSrlVn mk b a d))
  | 12 => some (.row (rowSraVn mk b a d))
  | 13 => some (.row (rowMacVn mk b a d))
  | 14 => some (.row (rowCmpVn mk b a (Cond.ofBits (d.extractLsb' 3 2)) (d.extractLsb' 0 3)))
  | _ => some (.row (rowCmpzVn mk b a (Cond.ofBits (d.extractLsb' 3 2)) (d.extractLsb' 0 3)))

/-- `decodeVi6` with each instruction replaced by its run. -/
def runVi6 (f4 : BitVec 4) (mk : BitVec 3) (b : BitVec 5) (a : BitVec 5) (d : BitVec 5) : Option VRun :=
  match f4.toNat with
  | 0 => some (.row (rowMinzXv mk b a d))
  | 1 => some (.row (rowMaxzXv mk b a d))
  | 2 => some (.row (rowMulhzXv mk b a d))
  | 3 => some (.row (rowDivXv mk b a d))
  | 4 => some (.row (rowDivzXv mk b a d))
  | 5 => some (.row (rowRemXv mk b a d))
  | 6 => some (.row (rowRemzXv mk b a d))
  | 7 => some (.row (rowSaddXv mk b a d))
  | 8 => some (.row (rowSsubXv mk b a d))
  | 9 => some (.row (rowWaddXv mk b a d))
  | 10 => some (.row (rowWmulXv mk b a d))
  | 11 => if (a.extractLsb' 2 3) = 0#3 then (match Factor.ofBits (a.extractLsb' 0 2) with | some x2 => some (.row (rowSext mk b x2 d)) | none => none) else none
  | 12 => if (a.extractLsb' 2 3) = 0#3 then (match Factor.ofBits (a.extractLsb' 0 2) with | some x2 => some (.row (rowZext mk b x2 d)) | none => none) else none
  | 13 => if (a.extractLsb' 2 3) = 0#3 then (match Factor.ofBits (a.extractLsb' 0 2) with | some x2 => some (.row (rowNarrow mk b x2 d)) | none => none) else if (a.extractLsb' 2 3) = 1#3 then (match Factor.ofBits (a.extractLsb' 0 2) with | some x2 => some (.row (rowNarrowz mk b x2 d)) | none => none) else none
  | 14 => some (.row (rowAbsdXv mk b a d))
  | _ => (match BitCount.ofBits a with | some x2 => some (.row (rowBitc mk b x2 d)) | none => none)

/-- `decodeVi7` with each instruction replaced by its run. -/
def runVi7 (f4 : BitVec 4) (mk : BitVec 3) (b : BitVec 5) (a : BitVec 5) (d : BitVec 5) : Option VRun :=
  match f4.toNat with
  | 0 => some (.row (rowMinzXx mk b a d))
  | 1 => some (.row (rowMaxzXx mk b a d))
  | 2 => some (.row (rowMulhzXx mk b a d))
  | 3 => some (.row (rowDivXx mk b a d))
  | 4 => some (.row (rowDivzXx mk b a d))
  | 5 => some (.row (rowRemXx mk b a d))
  | 6 => some (.row (rowRemzXx mk b a d))
  | 7 => some (.row (rowSaddXx mk b a d))
  | 8 => some (.row (rowSsubXx mk b a d))
  | 9 => some (.row (rowWaddXx mk b a d))
  | 10 => some (.row (rowWmulXx mk b a d))
  | 14 => some (.row (rowAbsdXx mk b a d))
  | _ => none

/-- `decodeVf0` with each instruction replaced by its run. -/
def runVf0 (f4 : BitVec 4) (mk : BitVec 3) (b : BitVec 5) (a : BitVec 5) (d : BitVec 5) : Option VRun :=
  match f4.toNat with
  | 0 => some (.row (rowFaddVv mk b a d))
  | 1 => some (.row (rowFsubVv mk b a d))
  | 2 => some (.row (rowFmulVv mk b a d))
  | 3 => some (.row (rowFdivVv mk b a d))
  | 4 => some (.row (rowFminVv mk b a d))
  | 5 => some (.row (rowFmaxVv mk b a d))
  | 6 => some (.row (rowFmaddVv mk b a d))
  | 7 => some (.row (rowFnmsubVv mk b a d))
  | 8 => some (.row (rowFcmpVv mk b a (FCond.ofBits (d.extractLsb' 3 2)) (d.extractLsb' 0 3)))
  | 9 => if a = 0#5 then some (.row (rowFsqrt mk b d)) else none
  | 10 => if a = 0#5 then some (.row (rowFrec mk b d)) else none
  | 11 => if a = 0#5 then some (.row (rowFrsq mk b d)) else none
  | 12 => if a = 0#5 then some (.row (rowFexp2 mk b d)) else none
  | 13 => (match CvtCode.ofBits a with | some x2 => some (.row (rowFcvt mk b x2 d)) | none => none)
  | 14 => if a = 0#5 then some (.row (rowFclass mk b d)) else none
  | _ => if a = 0#5 then some (.row (rowFround mk b d)) else none

/-- `decodeVf1` with each instruction replaced by its run. -/
def runVf1 (f4 : BitVec 4) (mk : BitVec 3) (b : BitVec 5) (a : BitVec 5) (d : BitVec 5) : Option VRun :=
  match f4.toNat with
  | 0 => some (.row (rowFaddVx mk b a d))
  | 1 => some (.row (rowFsubVx mk b a d))
  | 2 => some (.row (rowFmulVx mk b a d))
  | 3 => some (.row (rowFdivVx mk b a d))
  | 4 => some (.row (rowFminVx mk b a d))
  | 5 => some (.row (rowFmaxVx mk b a d))
  | 6 => some (.row (rowFmaddVx mk b a d))
  | 7 => some (.row (rowFnmsubVx mk b a d))
  | 8 => some (.row (rowFcmpVx mk b a (FCond.ofBits (d.extractLsb' 3 2)) (d.extractLsb' 0 3)))
  | _ => none

/-- `decodeVf3` with each instruction replaced by its run. -/
def runVf3 (f4 : BitVec 4) (mk : BitVec 3) (b : BitVec 5) (a : BitVec 5) (d : BitVec 5) : Option VRun :=
  match f4.toNat with
  | 0 => if (a.extractLsb' 2 3) = 0#3 then some (.row (rowFaddVq mk b (a.extractLsb' 0 2) d)) else none
  | 1 => if (a.extractLsb' 2 3) = 0#3 then some (.row (rowFsubVq mk b (a.extractLsb' 0 2) d)) else none
  | 2 => if (a.extractLsb' 2 3) = 0#3 then some (.row (rowFmulVq mk b (a.extractLsb' 0 2) d)) else none
  | 3 => if (a.extractLsb' 2 3) = 0#3 then some (.row (rowFdivVq mk b (a.extractLsb' 0 2) d)) else none
  | 4 => if (a.extractLsb' 2 3) = 0#3 then some (.row (rowFminVq mk b (a.extractLsb' 0 2) d)) else none
  | 5 => if (a.extractLsb' 2 3) = 0#3 then some (.row (rowFmaxVq mk b (a.extractLsb' 0 2) d)) else none
  | 6 => if (a.extractLsb' 2 3) = 0#3 then some (.row (rowFmaddVq mk b (a.extractLsb' 0 2) d)) else none
  | 7 => if (a.extractLsb' 2 3) = 0#3 then some (.row (rowFnmsubVq mk b (a.extractLsb' 0 2) d)) else none
  | 8 => if (a.extractLsb' 2 3) = 0#3 then some (.row (rowFcmpVq mk b (a.extractLsb' 0 2) (FCond.ofBits (d.extractLsb' 3 2)) (d.extractLsb' 0 3))) else none
  | _ => none

/-- `decodeVf4` with each instruction replaced by its run. -/
def runVf4 (f4 : BitVec 4) (mk : BitVec 3) (b : BitVec 5) (a : BitVec 5) (d : BitVec 5) : Option VRun :=
  match f4.toNat with
  | 0 => some (.row (rowFaddVn mk b a d))
  | 1 => some (.row (rowFsubVn mk b a d))
  | 2 => some (.row (rowFmulVn mk b a d))
  | 3 => some (.row (rowFdivVn mk b a d))
  | 4 => some (.row (rowFminVn mk b a d))
  | 5 => some (.row (rowFmaxVn mk b a d))
  | 6 => some (.row (rowFmaddVn mk b a d))
  | 7 => some (.row (rowFnmsubVn mk b a d))
  | 8 => some (.row (rowFcmpVn mk b a (FCond.ofBits (d.extractLsb' 3 2)) (d.extractLsb' 0 3)))
  | _ => none

/-- `decodeVf6` with each instruction replaced by its run. -/
def runVf6 (f4 : BitVec 4) (mk : BitVec 3) (b : BitVec 5) (a : BitVec 5) (d : BitVec 5) : Option VRun :=
  match f4.toNat with
  | 0 => some (.row (rowFsgnjXv mk b a d))
  | 1 => some (.row (rowFsgnjnXv mk b a d))
  | 2 => some (.row (rowFsgnjxXv mk b a d))
  | 3 => some (.row (rowFwaddXv mk b a d))
  | 4 => some (.row (rowFwmulXv mk b a d))
  | 5 => some (.row (rowFwmacXv mk b a d))
  | 6 => some (.row (rowVquant mk b a d))
  | 7 => some (.row (rowVdequant mk b a d))
  | 8 => some (.row (rowVqef mk b a d))
  | 9 => some (.row (rowVbscale mk b a d))
  | _ => none

/-- `decodeVf7` with each instruction replaced by its run. -/
def runVf7 (f4 : BitVec 4) (mk : BitVec 3) (b : BitVec 5) (a : BitVec 5) (d : BitVec 5) : Option VRun :=
  match f4.toNat with
  | 0 => some (.row (rowFsgnjXx mk b a d))
  | 1 => some (.row (rowFsgnjnXx mk b a d))
  | 2 => some (.row (rowFsgnjxXx mk b a d))
  | 3 => some (.row (rowFwaddXx mk b a d))
  | 4 => some (.row (rowFwmulXx mk b a d))
  | 5 => some (.row (rowFwmacXx mk b a d))
  | 10 => some (.row (rowVouts mk b a d))
  | _ => none

/-- `decodeVm0` with each instruction replaced by its run. -/
def runVm0 (f4 : BitVec 4) (mk : BitVec 3) (b : BitVec 5) (a : BitVec 5) (k : BitVec 3) (d : BitVec 5) : Option VRun :=
  match f4.toNat with
  | 0 => if b = 0#5 then some (.row (rowVld mk a d)) else none
  | 1 => if b = 0#5 then some (.row (rowVst mk a d)) else none
  | 2 => if b = 0#5 ∧ (d.extractLsb' 2 3) = 0#3 then some (.row (rowVldQ mk a (d.extractLsb' 0 2))) else none
  | 5 => some (.row (rowVamo mk b a (AtomicOp.ofBits k) d))
  | 6 => some (.row (rowVupdO mk b a (AtomicOp.ofBits k) d))
  | 7 => if b = 0#5 ∧ d = 0#5 then some (.row (rowVpf mk a)) else none
  | 8 => if mk = 0#3 then some (.row (rowAld b a d)) else none
  | 9 => if mk = 0#3 then some (.row (rowAldC b a d)) else none
  | 10 => if mk = 0#3 then some (.row (rowAst b a d)) else none
  | 11 => if mk = 0#3 ∧ (d.extractLsb' 2 3) = 0#3 then some (.row (rowMld b a (d.extractLsb' 0 2))) else none
  | 12 => if mk = 0#3 ∧ (d.extractLsb' 2 3) = 0#3 then some (.row (rowMst b a (d.extractLsb' 0 2))) else none
  | 13 => if mk = 0#3 ∧ (d.extractLsb' 2 3) = 0#3 then some (.row (rowVcpy b a (d.extractLsb' 1 1) (d.extractLsb' 0 1))) else none
  | 14 => if mk = 0#3 ∧ d = 0#5 then some (.row (rowVfill b a)) else none
  | 15 => if mk = 0#3 then some (.row (rowNm b a d)) else none
  | _ => none

/-- `decodeVm1` with each instruction replaced by its run. -/
def runVm1 (f4 : BitVec 4) (mk : BitVec 3) (b : BitVec 5) (a : BitVec 5) (k : BitVec 3) (d : BitVec 5) : Option VRun :=
  match f4.toNat with
  | 0 => some (.row (rowVldS mk b a d))
  | 1 => some (.row (rowVstS mk b a d))
  | 2 => if (d.extractLsb' 2 3) = 0#3 then some (.row (rowVldQS mk b a (d.extractLsb' 0 2))) else none
  | 3 => some (.row (rowVldoS mk b a d))
  | 4 => some (.row (rowVstoS mk b a d))
  | 5 => some (.row (rowVamo mk b a (AtomicOp.ofBits k) d))
  | 6 => some (.row (rowVupdO mk b a (AtomicOp.ofBits k) d))
  | 7 => if d = 0#5 then some (.row (rowVpfS mk b a)) else none
  | _ => none

/-- `decodeVm2` with each instruction replaced by its run. -/
def runVm2 (f4 : BitVec 4) (mk : BitVec 3) (b : BitVec 5) (a : BitVec 5) (k : BitVec 3) (d : BitVec 5) : Option VRun :=
  match f4.toNat with
  | 0 => some (.row (rowVldX mk b a d))
  | 1 => some (.row (rowVstX mk b a d))
  | 2 => if (d.extractLsb' 2 3) = 0#3 then some (.row (rowVldQX mk b a (d.extractLsb' 0 2))) else none
  | 3 => some (.row (rowVldoX mk b a d))
  | 4 => some (.row (rowVstoX mk b a d))
  | 5 => some (.row (rowVamo mk b a (AtomicOp.ofBits k) d))
  | 6 => some (.row (rowVupdO mk b a (AtomicOp.ofBits k) d))
  | 7 => if d = 0#5 then some (.row (rowVpfX mk b a)) else none
  | _ => none

/-- `decodeVm3` with each instruction replaced by its run. -/
def runVm3 (f4 : BitVec 4) (mk : BitVec 3) (b : BitVec 5) (a : BitVec 5) (k : BitVec 3) (d : BitVec 5) : Option VRun :=
  match f4.toNat with
  | 0 => some (.row (rowVldB mk b a d))
  | 1 => some (.row (rowVstB mk b a d))
  | 5 => some (.row (rowVamo mk b a (AtomicOp.ofBits k) d))
  | 6 => some (.row (rowVupdO mk b a (AtomicOp.ofBits k) d))
  | _ => none

/-- `decodeVm4` with each instruction replaced by its run. -/
def runVm4 (f4 : BitVec 4) (mk : BitVec 3) (b : BitVec 5) (a : BitVec 5) (k : BitVec 3) (d : BitVec 5) : Option VRun :=
  match f4.toNat with
  | 5 => some (.row (rowVamo mk b a (AtomicOp.ofBits k) d))
  | 6 => some (.row (rowVupdO mk b a (AtomicOp.ofBits k) d))
  | _ => none

/-- `decodeVm5` with each instruction replaced by its run. -/
def runVm5 (f4 : BitVec 4) (mk : BitVec 3) (b : BitVec 5) (a : BitVec 5) (k : BitVec 3) (d : BitVec 5) : Option VRun :=
  match f4.toNat with
  | 0 => if b = 0#5 then some (.row (rowVldW mk a d)) else none
  | 5 => some (.row (rowVamo mk b a (AtomicOp.ofBits k) d))
  | 6 => some (.row (rowVupdO mk b a (AtomicOp.ofBits k) d))
  | _ => none

/-- `decodeVm6` with each instruction replaced by its run. -/
def runVm6 (f4 : BitVec 4) (mk : BitVec 3) (b : BitVec 5) (a : BitVec 5) (k : BitVec 3) (d : BitVec 5) : Option VRun :=
  match f4.toNat with
  | 5 => some (.row (rowVamo mk b a (AtomicOp.ofBits k) d))
  | 6 => some (.row (rowVupdO mk b a (AtomicOp.ofBits k) d))
  | _ => none

/-- `decodeVm7` with each instruction replaced by its run. -/
def runVm7 (f4 : BitVec 4) (mk : BitVec 3) (b : BitVec 5) (a : BitVec 5) (k : BitVec 3) (d : BitVec 5) : Option VRun :=
  match f4.toNat with
  | 5 => some (.row (rowVamo mk b a (AtomicOp.ofBits k) d))
  | 6 => some (.row (rowVupdO mk b a (AtomicOp.ofBits k) d))
  | _ => none

/-- `decodeVp0` with each instruction replaced by its run. -/
def runVp0 (f4 : BitVec 4) (mk : BitVec 3) (b : BitVec 5) (a : BitVec 5) (d : BitVec 5) : Option VRun :=
  match f4.toNat with
  | 0 => if mk = 0#3 ∧ (b.extractLsb' 3 2) = 0#2 ∧ (a.extractLsb' 3 2) = 0#2 ∧ (d.extractLsb' 3 2) = 0#2 then some (.row (rowMand (b.extractLsb' 0 3) (a.extractLsb' 0 3) (d.extractLsb' 0 3))) else none
  | 1 => if mk = 0#3 ∧ (b.extractLsb' 3 2) = 0#2 ∧ (a.extractLsb' 3 2) = 0#2 ∧ (d.extractLsb' 3 2) = 0#2 then some (.row (rowMor (b.extractLsb' 0 3) (a.extractLsb' 0 3) (d.extractLsb' 0 3))) else none
  | 2 => if mk = 0#3 ∧ (b.extractLsb' 3 2) = 0#2 ∧ (a.extractLsb' 3 2) = 0#2 ∧ (d.extractLsb' 3 2) = 0#2 then some (.row (rowMxor (b.extractLsb' 0 3) (a.extractLsb' 0 3) (d.extractLsb' 0 3))) else none
  | 3 => if mk = 0#3 ∧ (b.extractLsb' 3 2) = 0#2 ∧ (a.extractLsb' 3 2) = 0#2 ∧ (d.extractLsb' 3 2) = 0#2 then some (.row (rowMandn (b.extractLsb' 0 3) (a.extractLsb' 0 3) (d.extractLsb' 0 3))) else none
  | 4 => if (b.extractLsb' 3 2) = 0#2 ∧ a = 0#5 then some (.row (rowMpop mk (b.extractLsb' 0 3) d)) else none
  | 5 => if (b.extractLsb' 3 2) = 0#2 ∧ a = 0#5 then some (.row (rowMfirst mk (b.extractLsb' 0 3) d)) else none
  | 6 => if (b.extractLsb' 3 2) = 0#2 ∧ a = 0#5 then some (.row (rowIota mk (b.extractLsb' 0 3) d)) else none
  | 7 => if b = 0#5 ∧ a = 0#5 then some (.row (rowVid mk d)) else none
  | 10 => some (.row (rowVgatherVv mk b a d))
  | 11 => if a = 0#5 then some (.row (rowVcompress mk b d)) else none
  | 12 => if a = 0#5 then some (.row (rowVexpand mk b d)) else none
  | 13 => some (.row (rowVlut mk b a d))
  | _ => none

/-- `decodeVp1` with each instruction replaced by its run. -/
def runVp1 (f4 : BitVec 4) (mk : BitVec 3) (b : BitVec 5) (a : BitVec 5) (d : BitVec 5) : Option VRun :=
  match f4.toNat with
  | 8 => some (.row (rowSlideupVx mk b a d))
  | 9 => some (.row (rowSlidednVx mk b a d))
  | 10 => some (.row (rowVgatherVx mk b a d))
  | 14 => some (.row (rowVunpack mk b a d))
  | 15 => some (.row (rowVpack mk b a d))
  | _ => none

/-- `decodeVp2` with each instruction replaced by its run. -/
def runVp2 (f4 : BitVec 4) (mk : BitVec 3) (b : BitVec 5) (a : BitVec 5) (d : BitVec 5) : Option VRun :=
  match f4.toNat with
  | 8 => if immNonNegative a then some (.row (rowSlideupVi mk b a d)) else none
  | 9 => if immNonNegative a then some (.row (rowSlidednVi mk b a d)) else none
  | _ => none

/-- `decodeVp4` with each instruction replaced by its run. -/
def runVp4 (f4 : BitVec 4) (mk : BitVec 3) (b : BitVec 5) (a : BitVec 5) (d : BitVec 5) : Option VRun :=
  match f4.toNat with
  | 8 => some (.row (rowSlideupVn mk b a d))
  | 9 => some (.row (rowSlidednVn mk b a d))
  | _ => none

/-- `decodeVp6` with each instruction replaced by its run. -/
def runVp6 (f4 : BitVec 4) (mk : BitVec 3) (b : BitVec 5) (a : BitVec 5) (d : BitVec 5) : Option VRun :=
  match f4.toNat with
  | 0 => some (.row (rowRedsum mk b a d))
  | 1 => some (.row (rowRedmin mk b a d))
  | 2 => some (.row (rowRedmax mk b a d))
  | 3 => some (.row (rowRedminz mk b a d))
  | 4 => some (.row (rowRedmaxz mk b a d))
  | 5 => some (.row (rowRedand mk b a d))
  | 6 => some (.row (rowRedor mk b a d))
  | 7 => some (.row (rowRedxor mk b a d))
  | 8 => some (.row (rowFredo mk b a d))
  | 9 => some (.row (rowFredt mk b a d))
  | 10 => some (.row (rowFredmax mk b a d))
  | 11 => some (.row (rowFredmin mk b a d))
  | 15 => if a = 0#5 then some (.row (rowVrev mk b d)) else none
  | _ => none

/-- `decodeVp7` with each instruction replaced by its run. -/
def runVp7 (f4 : BitVec 4) (mk : BitVec 3) (b : BitVec 5) (a : BitVec 5) (d : BitVec 5) : Option VRun :=
  match f4.toNat with
  | 12 => if mk = 0#3 then some (.row (rowMvxs b a d)) else none
  | 13 => if mk = 0#3 ∧ b = 0#5 then some (.row (rowMvsx a d)) else none
  | 14 => if mk = 0#3 ∧ b = 0#5 then some (.row (rowVbcast a d)) else none
  | _ => none

/-- `decodeVc0` with each instruction replaced by its run. -/
def runVc0 (f4 : BitVec 4) (mk : BitVec 3) (b : BitVec 5) (a : BitVec 5) (d : BitVec 5) : Option VRun :=
  if (f4.extractLsb' 2 2) = 0#2 then some (.row (rowSetl (f4.extractLsb' 0 2 ++ mk ++ b) a d)) else none

/-- `decodeVc1` with each instruction replaced by its run. -/
def runVc1 (f4 : BitVec 4) (mk : BitVec 3) (b : BitVec 5) (a : BitVec 5) (d : BitVec 5) : Option VRun :=
  match f4.toNat with
  | 0 => if mk = 0#3 then some (.row (rowSetlR b a d)) else none
  | _ => none

/-- `decodeVc2` with each instruction replaced by its run. -/
def runVc2 (f4 : BitVec 4) (mk : BitVec 3) (b : BitVec 5) (a : BitVec 5) (d : BitVec 5) : Option VRun :=
  match f4.toNat with
  | 0 => if b = 0#5 ∧ a = 0#5 ∧ d = 0#5 then (match Scope.ofBits mk with | some x0 => some (.row (rowFenceSv x0)) | none => none) else none
  | 1 => if b = 0#5 ∧ a = 0#5 ∧ d = 0#5 then (match Scope.ofBits mk with | some x0 => some (.row (rowFenceVs x0)) | none => none) else none
  | 2 => if b = 0#5 ∧ a = 0#5 ∧ d = 0#5 then (match Scope.ofBits mk with | some x0 => some (.row (rowFenceVv x0)) | none => none) else none
  | 3 => if b = 0#5 ∧ a = 0#5 ∧ d = 0#5 then (match Scope.ofBits mk with | some x0 => some (.row (rowFenceNm x0)) | none => none) else none
  | 4 => if b = 0#5 ∧ a = 0#5 ∧ d = 0#5 then (match Scope.ofBits mk with | some x0 => some (.row (rowFenceAlias x0)) | none => none) else none
  | 5 => if b = 0#5 ∧ a = 0#5 ∧ d = 0#5 then (match Scope.ofBits mk with | some x0 => some (.row (rowFenceRel x0)) | none => none) else none
  | 6 => if b = 0#5 ∧ a = 0#5 ∧ d = 0#5 then (match Scope.ofBits mk with | some x0 => some (.row (rowFenceAcq x0)) | none => none) else none
  | 7 => if b = 0#5 ∧ a = 0#5 ∧ d = 0#5 then (match Scope.ofBits mk with | some x0 => some (.row (rowFenceAr x0)) | none => none) else none
  | 8 => if (mk.extractLsb' 1 2) = 0#2 ∧ a = 0#5 ∧ d = 0#5 ∧ (mk.extractLsb' 0 1 ++ b) ≠ 0#6 then some (.row (rowDrain (mk.extractLsb' 0 1 ++ b))) else none
  | _ => none

/-- `decodeVc3` with each instruction replaced by its run. -/
def runVc3 (f4 : BitVec 4) (mk : BitVec 3) (b : BitVec 5) (a : BitVec 5) (d : BitVec 5) : Option VRun :=
  match f4.toNat with
  | 0 => if mk = 0#3 ∧ b = 0#5 ∧ d = 0#5 then some (.row (rowBarArrive a)) else none
  | 1 => if mk = 0#3 ∧ b = 0#5 ∧ d = 0#5 then some (.row (rowBarWait a)) else none
  | 2 => if mk = 0#3 ∧ b = 0#5 ∧ d = 0#5 then some (.row (rowBarSync a)) else none
  | 3 => if mk = 0#3 ∧ d = 0#5 then some (.row (rowBarInit b a)) else none
  | 4 => if mk = 0#3 then some (.row (rowWaitMem b a d)) else none
  | 5 => if mk = 0#3 ∧ b = 0#5 ∧ d = 0#5 then some (.row (rowWaitTime a)) else none
  | 6 => if mk = 0#3 ∧ b = 0#5 ∧ a = 0#5 ∧ d = 0#5 then some (.row rowYield) else none
  | 7 => if mk = 0#3 ∧ b = 0#5 ∧ a = 0#5 ∧ d = 0#5 then some (.row rowHalt) else none
  | _ => none

/-- `decodeVc4` with each instruction replaced by its run. -/
def runVc4 (f4 : BitVec 4) (mk : BitVec 3) (b : BitVec 5) (a : BitVec 5) (d : BitVec 5) : Option VRun :=
  match f4.toNat with
  | 0 => if mk = 0#3 ∧ d = 0#5 then some (.row (rowQpush b a)) else none
  | 1 => if mk = 0#3 ∧ b = 0#5 then some (.row (rowQpop a d)) else if mk = 1#3 ∧ b = 0#5 then some (.row (rowQpopT a d)) else none
  | 2 => if b = 0#5 ∧ a = 0#5 ∧ d = 0#5 then some (.row (rowQany mk)) else none
  | 3 => if b = 0#5 ∧ a = 0#5 ∧ d = 0#5 then some (.row (rowQall mk)) else none
  | 4 => if mk = 0#3 then some (.row (rowLaunch b a d)) else none
  | 5 => if mk = 0#3 ∧ b = 0#5 then some (.row (rowQlen a d)) else none
  | _ => none

/-- `decodeVc5` with each instruction replaced by its run. -/
def runVc5 (f4 : BitVec 4) (mk : BitVec 3) (b : BitVec 5) (a : BitVec 5) (d : BitVec 5) : Option VRun :=
  match f4.toNat with
  | 0 => if mk = 0#3 ∧ b = 0#5 ∧ d = 0#5 then some (.row (rowVsave a)) else none
  | 1 => if mk = 0#3 ∧ b = 0#5 ∧ d = 0#5 then some (.row (rowVrest a)) else none
  | 2 => if mk = 0#3 ∧ b = 0#5 ∧ a = 0#5 ∧ d = 0#5 then some .vret else none
  | 3 => if mk = 0#3 ∧ b = 0#5 ∧ a = 0#5 ∧ d = 0#5 then some .aret else none
  | 4 => if mk = 0#3 ∧ d = 0#5 then some (.row (rowReclaim b a)) else none
  | 5 => if mk = 0#3 then some (.row (rowVprobe b a d)) else none
  | 6 => if mk = 0#3 ∧ b = 0#5 ∧ a = 0#5 ∧ d = 0#5 then some (.row rowKend) else none
  | _ => none

/-- `decodeVa0` with each instruction replaced by its run. -/
def runVa0 (f4 : BitVec 4) (mk : BitVec 3) (b : BitVec 5) (a : BitVec 5) (d : BitVec 5) : Option VRun :=
  match f4.toNat with
  | 0 => if mk = 0#3 then some (.row (rowAaddVv b a d)) else none
  | 1 => if mk = 0#3 then some (.row (rowAsubVv b a d)) else none
  | 5 => if mk = 0#3 then (match AnchorFloat.ofBits a with | some x1 => some (.row (rowAconv b x1 d)) | none => none) else none
  | 6 => if mk = 0#3 then (match AnchorFloat.ofBits a with | some x1 => some (.row (rowAfrom b x1 d)) | none => none) else none
  | 8 => if mk = 0#3 ∧ a = 0#5 then some (.row (rowAred b d)) else none
  | 9 => if mk = 0#3 ∧ a = 0#5 then some (.row (rowAget b d)) else none
  | 10 => if mk = 0#3 ∧ a = 0#5 then some (.row (rowAput b d)) else none
  | 11 => if mk = 0#3 ∧ a = 0#5 then some (.row (rowAqset b d)) else none
  | 12 => if mk = 0#3 ∧ b = 0#5 ∧ a = 0#5 ∧ (d.extractLsb' 2 3) = 0#3 then some (.row (rowMzero (d.extractLsb' 0 2))) else none
  | 13 => if mk = 0#3 ∧ (d.extractLsb' 2 3) = 0#3 then some (.row (rowMpa b a (d.extractLsb' 0 2))) else none
  | 15 => if mk = 0#3 ∧ d = 0#5 then some (.row (rowMscale b a)) else none
  | _ => none

/-- `decodeVa1` with each instruction replaced by its run. -/
def runVa1 (f4 : BitVec 4) (mk : BitVec 3) (b : BitVec 5) (a : BitVec 5) (d : BitVec 5) : Option VRun :=
  match f4.toNat with
  | 0 => if mk = 0#3 then some (.row (rowAaddVx b a d)) else none
  | 1 => if mk = 0#3 then some (.row (rowAsubVx b a d)) else none
  | 2 => if mk = 0#3 then some (.row (rowAdiffVx b a d)) else none
  | 3 => if mk = 0#3 then some (.row (rowAmulVx b a d)) else none
  | 4 => if mk = 0#3 then some (.row (rowAscaleVx b a d)) else none
  | 7 => if mk = 0#3 then some (.row (rowAreanchorVx b a d)) else none
  | 14 => if mk = 0#3 ∧ (d.extractLsb' 2 3) = 0#3 then some (.row (rowMmvTv b a (d.extractLsb' 0 2))) else if mk = 0#3 ∧ (d.extractLsb' 2 3) = 4#3 then some (.row (rowMmvVt b a (d.extractLsb' 0 2))) else none
  | _ => none

/-- `decodeVa2` with each instruction replaced by its run. -/
def runVa2 (f4 : BitVec 4) (mk : BitVec 3) (b : BitVec 5) (a : BitVec 5) (d : BitVec 5) : Option VRun :=
  match f4.toNat with
  | 0 => if mk = 0#3 then some (.row (rowAaddVi b a d)) else none
  | 1 => if mk = 0#3 then some (.row (rowAsubVi b a d)) else none
  | 2 => if mk = 0#3 ∧ immNonNegative a then some (.row (rowAdiffVi b a d)) else none
  | 3 => if mk = 0#3 then some (.row (rowAmulVi b a d)) else none
  | 4 => if mk = 0#3 then some (.row (rowAscaleVi b a d)) else none
  | 7 => if mk = 0#3 ∧ (a.extractLsb' 2 3) = 0#3 then some (.row (rowAreanchorVi b (a.extractLsb' 0 2) d)) else none
  | _ => none

/-- `decodeVa6` with each instruction replaced by its run. -/
def runVa6 (f4 : BitVec 4) (mk : BitVec 3) (b : BitVec 5) (a : BitVec 5) (d : BitVec 5) : Option VRun :=
  match f4.toNat with
  | 0 => if mk = 0#3 ∧ (d.extractLsb' 2 3) = 0#3 then some (.row (rowMpaI b a (d.extractLsb' 0 2))) else none
  | 1 => if mk = 0#3 ∧ (d.extractLsb' 2 3) = 0#3 then some (.row (rowMpaH b a (d.extractLsb' 0 2))) else none
  | 2 => if mk = 0#3 ∧ (d.extractLsb' 2 3) = 0#3 then some (.row (rowMlra b a (d.extractLsb' 0 2))) else none
  | 4 => if mk = 0#3 then some (.row (rowAcmp b a (Cond.ofBits (d.extractLsb' 3 2)) (d.extractLsb' 0 3))) else none
  | _ => none

/-- `decodeVa7` with each instruction replaced by its run. -/
def runVa7 (f4 : BitVec 4) (mk : BitVec 3) (b : BitVec 5) (a : BitVec 5) (d : BitVec 5) : Option VRun :=
  match f4.toNat with
  | 3 => if mk = 0#3 ∧ (b.extractLsb' 2 3) = 0#3 then some (.row (rowMcvt (b.extractLsb' 0 2) a d)) else none
  | _ => none

/-- `decodeVi` with each instruction replaced by its run. -/
def runVi (f4 : BitVec 4) (mk : BitVec 3) (b a : BitVec 5) (k : BitVec 3) (d : BitVec 5) : Option VRun :=
  match k.toNat with
  | 0 => runVi0 f4 mk b a d
  | 1 => runVi1 f4 mk b a d
  | 2 => runVi2 f4 mk b a d
  | 3 => runVi3 f4 mk b a d
  | 4 => runVi4 f4 mk b a d
  | 6 => runVi6 f4 mk b a d
  | 7 => runVi7 f4 mk b a d
  | _ => none

/-- `decodeVf` with each instruction replaced by its run. -/
def runVf (f4 : BitVec 4) (mk : BitVec 3) (b a : BitVec 5) (k : BitVec 3) (d : BitVec 5) : Option VRun :=
  match k.toNat with
  | 0 => runVf0 f4 mk b a d
  | 1 => runVf1 f4 mk b a d
  | 3 => runVf3 f4 mk b a d
  | 4 => runVf4 f4 mk b a d
  | 6 => runVf6 f4 mk b a d
  | 7 => runVf7 f4 mk b a d
  | _ => none

/-- `decodeVp` with each instruction replaced by its run. -/
def runVp (f4 : BitVec 4) (mk : BitVec 3) (b a : BitVec 5) (k : BitVec 3) (d : BitVec 5) : Option VRun :=
  match k.toNat with
  | 0 => runVp0 f4 mk b a d
  | 1 => runVp1 f4 mk b a d
  | 2 => runVp2 f4 mk b a d
  | 4 => runVp4 f4 mk b a d
  | 6 => runVp6 f4 mk b a d
  | 7 => runVp7 f4 mk b a d
  | _ => none

/-- `decodeVa` with each instruction replaced by its run. -/
def runVa (f4 : BitVec 4) (mk : BitVec 3) (b a : BitVec 5) (k : BitVec 3) (d : BitVec 5) : Option VRun :=
  match k.toNat with
  | 0 => runVa0 f4 mk b a d
  | 1 => runVa1 f4 mk b a d
  | 2 => runVa2 f4 mk b a d
  | 6 => runVa6 f4 mk b a d
  | 7 => runVa7 f4 mk b a d
  | _ => none

/-- `decodeVm` with each instruction replaced by its run. -/
def runVm (f4 : BitVec 4) (mk : BitVec 3) (b a : BitVec 5) (k : BitVec 3) (d : BitVec 5) : Option VRun :=
  match k.toNat with
  | 0 => runVm0 f4 mk b a k d
  | 1 => runVm1 f4 mk b a k d
  | 2 => runVm2 f4 mk b a k d
  | 3 => runVm3 f4 mk b a k d
  | 4 => runVm4 f4 mk b a k d
  | 5 => runVm5 f4 mk b a k d
  | 6 => runVm6 f4 mk b a k d
  | _ => runVm7 f4 mk b a k d

/-- `decodeVc` with each instruction replaced by its run. -/
def runVc (f4 : BitVec 4) (mk : BitVec 3) (b a : BitVec 5) (k : BitVec 3) (d : BitVec 5) : Option VRun :=
  match k.toNat with
  | 0 => runVc0 f4 mk b a d
  | 1 => runVc1 f4 mk b a d
  | 2 => runVc2 f4 mk b a d
  | 3 => runVc3 f4 mk b a d
  | 4 => runVc4 f4 mk b a d
  | 5 => runVc5 f4 mk b a d
  | _ => none

/-- A number of three bits. -/
theorem below8 {n : Nat} (h : n < 2 ^ 3) : n = 0 ∨ n = 1 ∨ n = 2 ∨ n = 3 ∨ n = 4 ∨ n = 5 ∨ n = 6 ∨ n = 7 := by omega

/-- A number of four bits. -/
theorem below16 {n : Nat} (h : n < 2 ^ 4) : n = 0 ∨ n = 1 ∨ n = 2 ∨ n = 3 ∨ n = 4 ∨ n = 5 ∨ n = 6 ∨ n = 7 ∨ n = 8 ∨ n = 9 ∨
    n = 10 ∨ n = 11 ∨ n = 12 ∨ n = 13 ∨ n = 14 ∨ n = 15 := by
  omega

/-- The run of a decoded word: none where the word is refused. -/
def runOf : Except DecodeError Instr → Option (Option VRun)
  | .ok i => some (instrRun i)
  | .error _ => none

/-- The two pages agree. -/
theorem runOf_decodeVi0 (f4 : BitVec 4) (mk : BitVec 3) (b : BitVec 5) (a : BitVec 5) (d : BitVec 5) :
    runOf (decodeVi0 f4 mk b a d) = (runVi0 f4 mk b a d).map some := by
  unfold decodeVi0 runVi0
  have h16 := f4.isLt
  generalize f4.toNat = n at h16 ⊢
  rcases below16 h16 with rfl | rfl | rfl | rfl | rfl | rfl | rfl | rfl | rfl | rfl | rfl | rfl | rfl | rfl | rfl | rfl
  all_goals first | rfl | (simp only; split <;> (rename_i h; (try simp only [h, ↓reduceIte]); first | rfl | (split <;> (rename_i h2; (try simp only [h2, ↓reduceIte]); first | rfl | (split <;> (rename_i h3; (try simp only [h3, ↓reduceIte]); rfl))))))

/-- The two pages agree. -/
theorem runOf_decodeVi1 (f4 : BitVec 4) (mk : BitVec 3) (b : BitVec 5) (a : BitVec 5) (d : BitVec 5) :
    runOf (decodeVi1 f4 mk b a d) = (runVi1 f4 mk b a d).map some := by
  unfold decodeVi1 runVi1
  have h16 := f4.isLt
  generalize f4.toNat = n at h16 ⊢
  rcases below16 h16 with rfl | rfl | rfl | rfl | rfl | rfl | rfl | rfl | rfl | rfl | rfl | rfl | rfl | rfl | rfl | rfl
  all_goals first | rfl | (simp only; split <;> (rename_i h; (try simp only [h, ↓reduceIte]); first | rfl | (split <;> (rename_i h2; (try simp only [h2, ↓reduceIte]); first | rfl | (split <;> (rename_i h3; (try simp only [h3, ↓reduceIte]); rfl))))))

/-- The two pages agree. -/
theorem runOf_decodeVi2 (f4 : BitVec 4) (mk : BitVec 3) (b : BitVec 5) (a : BitVec 5) (d : BitVec 5) :
    runOf (decodeVi2 f4 mk b a d) = (runVi2 f4 mk b a d).map some := by
  unfold decodeVi2 runVi2
  have h16 := f4.isLt
  generalize f4.toNat = n at h16 ⊢
  rcases below16 h16 with rfl | rfl | rfl | rfl | rfl | rfl | rfl | rfl | rfl | rfl | rfl | rfl | rfl | rfl | rfl | rfl
  all_goals first | rfl | (simp only; split <;> (rename_i h; (try simp only [h, ↓reduceIte]); first | rfl | (split <;> (rename_i h2; (try simp only [h2, ↓reduceIte]); first | rfl | (split <;> (rename_i h3; (try simp only [h3, ↓reduceIte]); rfl))))))

/-- The two pages agree. -/
theorem runOf_decodeVi3 (f4 : BitVec 4) (mk : BitVec 3) (b : BitVec 5) (a : BitVec 5) (d : BitVec 5) :
    runOf (decodeVi3 f4 mk b a d) = (runVi3 f4 mk b a d).map some := by
  unfold decodeVi3 runVi3
  have h16 := f4.isLt
  generalize f4.toNat = n at h16 ⊢
  rcases below16 h16 with rfl | rfl | rfl | rfl | rfl | rfl | rfl | rfl | rfl | rfl | rfl | rfl | rfl | rfl | rfl | rfl
  all_goals first | rfl | (simp only; split <;> (rename_i h; (try simp only [h, ↓reduceIte]); first | rfl | (split <;> (rename_i h2; (try simp only [h2, ↓reduceIte]); first | rfl | (split <;> (rename_i h3; (try simp only [h3, ↓reduceIte]); rfl))))))

/-- The two pages agree. -/
theorem runOf_decodeVi4 (f4 : BitVec 4) (mk : BitVec 3) (b : BitVec 5) (a : BitVec 5) (d : BitVec 5) :
    runOf (decodeVi4 f4 mk b a d) = (runVi4 f4 mk b a d).map some := by
  unfold decodeVi4 runVi4
  have h16 := f4.isLt
  generalize f4.toNat = n at h16 ⊢
  rcases below16 h16 with rfl | rfl | rfl | rfl | rfl | rfl | rfl | rfl | rfl | rfl | rfl | rfl | rfl | rfl | rfl | rfl
  all_goals first | rfl | (simp only; split <;> (rename_i h; (try simp only [h, ↓reduceIte]); first | rfl | (split <;> (rename_i h2; (try simp only [h2, ↓reduceIte]); first | rfl | (split <;> (rename_i h3; (try simp only [h3, ↓reduceIte]); rfl))))))

/-- The two pages agree. -/
theorem runOf_decodeVi6 (f4 : BitVec 4) (mk : BitVec 3) (b : BitVec 5) (a : BitVec 5) (d : BitVec 5) :
    runOf (decodeVi6 f4 mk b a d) = (runVi6 f4 mk b a d).map some := by
  unfold decodeVi6 runVi6
  have h16 := f4.isLt
  generalize f4.toNat = n at h16 ⊢
  rcases below16 h16 with rfl | rfl | rfl | rfl | rfl | rfl | rfl | rfl | rfl | rfl | rfl | rfl | rfl | rfl | rfl | rfl
  all_goals first | rfl | (simp only; split <;> (rename_i h; (try simp only [h, ↓reduceIte]); first | rfl | (split <;> (rename_i h2; (try simp only [h2, ↓reduceIte]); first | rfl | (split <;> (rename_i h3; (try simp only [h3, ↓reduceIte]); rfl))))))

/-- The two pages agree. -/
theorem runOf_decodeVi7 (f4 : BitVec 4) (mk : BitVec 3) (b : BitVec 5) (a : BitVec 5) (d : BitVec 5) :
    runOf (decodeVi7 f4 mk b a d) = (runVi7 f4 mk b a d).map some := by
  unfold decodeVi7 runVi7
  have h16 := f4.isLt
  generalize f4.toNat = n at h16 ⊢
  rcases below16 h16 with rfl | rfl | rfl | rfl | rfl | rfl | rfl | rfl | rfl | rfl | rfl | rfl | rfl | rfl | rfl | rfl
  all_goals first | rfl | (simp only; split <;> (rename_i h; (try simp only [h, ↓reduceIte]); first | rfl | (split <;> (rename_i h2; (try simp only [h2, ↓reduceIte]); first | rfl | (split <;> (rename_i h3; (try simp only [h3, ↓reduceIte]); rfl))))))

/-- The two pages agree. -/
theorem runOf_decodeVf0 (f4 : BitVec 4) (mk : BitVec 3) (b : BitVec 5) (a : BitVec 5) (d : BitVec 5) :
    runOf (decodeVf0 f4 mk b a d) = (runVf0 f4 mk b a d).map some := by
  unfold decodeVf0 runVf0
  have h16 := f4.isLt
  generalize f4.toNat = n at h16 ⊢
  rcases below16 h16 with rfl | rfl | rfl | rfl | rfl | rfl | rfl | rfl | rfl | rfl | rfl | rfl | rfl | rfl | rfl | rfl
  all_goals first | rfl | (simp only; split <;> (rename_i h; (try simp only [h, ↓reduceIte]); first | rfl | (split <;> (rename_i h2; (try simp only [h2, ↓reduceIte]); first | rfl | (split <;> (rename_i h3; (try simp only [h3, ↓reduceIte]); rfl))))))

/-- The two pages agree. -/
theorem runOf_decodeVf1 (f4 : BitVec 4) (mk : BitVec 3) (b : BitVec 5) (a : BitVec 5) (d : BitVec 5) :
    runOf (decodeVf1 f4 mk b a d) = (runVf1 f4 mk b a d).map some := by
  unfold decodeVf1 runVf1
  have h16 := f4.isLt
  generalize f4.toNat = n at h16 ⊢
  rcases below16 h16 with rfl | rfl | rfl | rfl | rfl | rfl | rfl | rfl | rfl | rfl | rfl | rfl | rfl | rfl | rfl | rfl
  all_goals first | rfl | (simp only; split <;> (rename_i h; (try simp only [h, ↓reduceIte]); first | rfl | (split <;> (rename_i h2; (try simp only [h2, ↓reduceIte]); first | rfl | (split <;> (rename_i h3; (try simp only [h3, ↓reduceIte]); rfl))))))

/-- The two pages agree. -/
theorem runOf_decodeVf3 (f4 : BitVec 4) (mk : BitVec 3) (b : BitVec 5) (a : BitVec 5) (d : BitVec 5) :
    runOf (decodeVf3 f4 mk b a d) = (runVf3 f4 mk b a d).map some := by
  unfold decodeVf3 runVf3
  have h16 := f4.isLt
  generalize f4.toNat = n at h16 ⊢
  rcases below16 h16 with rfl | rfl | rfl | rfl | rfl | rfl | rfl | rfl | rfl | rfl | rfl | rfl | rfl | rfl | rfl | rfl
  all_goals first | rfl | (simp only; split <;> (rename_i h; (try simp only [h, ↓reduceIte]); first | rfl | (split <;> (rename_i h2; (try simp only [h2, ↓reduceIte]); first | rfl | (split <;> (rename_i h3; (try simp only [h3, ↓reduceIte]); rfl))))))

/-- The two pages agree. -/
theorem runOf_decodeVf4 (f4 : BitVec 4) (mk : BitVec 3) (b : BitVec 5) (a : BitVec 5) (d : BitVec 5) :
    runOf (decodeVf4 f4 mk b a d) = (runVf4 f4 mk b a d).map some := by
  unfold decodeVf4 runVf4
  have h16 := f4.isLt
  generalize f4.toNat = n at h16 ⊢
  rcases below16 h16 with rfl | rfl | rfl | rfl | rfl | rfl | rfl | rfl | rfl | rfl | rfl | rfl | rfl | rfl | rfl | rfl
  all_goals first | rfl | (simp only; split <;> (rename_i h; (try simp only [h, ↓reduceIte]); first | rfl | (split <;> (rename_i h2; (try simp only [h2, ↓reduceIte]); first | rfl | (split <;> (rename_i h3; (try simp only [h3, ↓reduceIte]); rfl))))))

/-- The two pages agree. -/
theorem runOf_decodeVf6 (f4 : BitVec 4) (mk : BitVec 3) (b : BitVec 5) (a : BitVec 5) (d : BitVec 5) :
    runOf (decodeVf6 f4 mk b a d) = (runVf6 f4 mk b a d).map some := by
  unfold decodeVf6 runVf6
  have h16 := f4.isLt
  generalize f4.toNat = n at h16 ⊢
  rcases below16 h16 with rfl | rfl | rfl | rfl | rfl | rfl | rfl | rfl | rfl | rfl | rfl | rfl | rfl | rfl | rfl | rfl
  all_goals first | rfl | (simp only; split <;> (rename_i h; (try simp only [h, ↓reduceIte]); first | rfl | (split <;> (rename_i h2; (try simp only [h2, ↓reduceIte]); first | rfl | (split <;> (rename_i h3; (try simp only [h3, ↓reduceIte]); rfl))))))

/-- The two pages agree. -/
theorem runOf_decodeVf7 (f4 : BitVec 4) (mk : BitVec 3) (b : BitVec 5) (a : BitVec 5) (d : BitVec 5) :
    runOf (decodeVf7 f4 mk b a d) = (runVf7 f4 mk b a d).map some := by
  unfold decodeVf7 runVf7
  have h16 := f4.isLt
  generalize f4.toNat = n at h16 ⊢
  rcases below16 h16 with rfl | rfl | rfl | rfl | rfl | rfl | rfl | rfl | rfl | rfl | rfl | rfl | rfl | rfl | rfl | rfl
  all_goals first | rfl | (simp only; split <;> (rename_i h; (try simp only [h, ↓reduceIte]); first | rfl | (split <;> (rename_i h2; (try simp only [h2, ↓reduceIte]); first | rfl | (split <;> (rename_i h3; (try simp only [h3, ↓reduceIte]); rfl))))))

/-- The two pages agree. -/
theorem runOf_decodeVm0 (f4 : BitVec 4) (mk : BitVec 3) (b : BitVec 5) (a : BitVec 5) (k : BitVec 3) (d : BitVec 5) :
    runOf (decodeVm0 f4 mk b a k d) = (runVm0 f4 mk b a k d).map some := by
  unfold decodeVm0 runVm0
  have h16 := f4.isLt
  generalize f4.toNat = n at h16 ⊢
  rcases below16 h16 with rfl | rfl | rfl | rfl | rfl | rfl | rfl | rfl | rfl | rfl | rfl | rfl | rfl | rfl | rfl | rfl
  all_goals first | rfl | (simp only; split <;> (rename_i h; (try simp only [h, ↓reduceIte]); first | rfl | (split <;> (rename_i h2; (try simp only [h2, ↓reduceIte]); first | rfl | (split <;> (rename_i h3; (try simp only [h3, ↓reduceIte]); rfl))))))

/-- The two pages agree. -/
theorem runOf_decodeVm1 (f4 : BitVec 4) (mk : BitVec 3) (b : BitVec 5) (a : BitVec 5) (k : BitVec 3) (d : BitVec 5) :
    runOf (decodeVm1 f4 mk b a k d) = (runVm1 f4 mk b a k d).map some := by
  unfold decodeVm1 runVm1
  have h16 := f4.isLt
  generalize f4.toNat = n at h16 ⊢
  rcases below16 h16 with rfl | rfl | rfl | rfl | rfl | rfl | rfl | rfl | rfl | rfl | rfl | rfl | rfl | rfl | rfl | rfl
  all_goals first | rfl | (simp only; split <;> (rename_i h; (try simp only [h, ↓reduceIte]); first | rfl | (split <;> (rename_i h2; (try simp only [h2, ↓reduceIte]); first | rfl | (split <;> (rename_i h3; (try simp only [h3, ↓reduceIte]); rfl))))))

/-- The two pages agree. -/
theorem runOf_decodeVm2 (f4 : BitVec 4) (mk : BitVec 3) (b : BitVec 5) (a : BitVec 5) (k : BitVec 3) (d : BitVec 5) :
    runOf (decodeVm2 f4 mk b a k d) = (runVm2 f4 mk b a k d).map some := by
  unfold decodeVm2 runVm2
  have h16 := f4.isLt
  generalize f4.toNat = n at h16 ⊢
  rcases below16 h16 with rfl | rfl | rfl | rfl | rfl | rfl | rfl | rfl | rfl | rfl | rfl | rfl | rfl | rfl | rfl | rfl
  all_goals first | rfl | (simp only; split <;> (rename_i h; (try simp only [h, ↓reduceIte]); first | rfl | (split <;> (rename_i h2; (try simp only [h2, ↓reduceIte]); first | rfl | (split <;> (rename_i h3; (try simp only [h3, ↓reduceIte]); rfl))))))

/-- The two pages agree. -/
theorem runOf_decodeVm3 (f4 : BitVec 4) (mk : BitVec 3) (b : BitVec 5) (a : BitVec 5) (k : BitVec 3) (d : BitVec 5) :
    runOf (decodeVm3 f4 mk b a k d) = (runVm3 f4 mk b a k d).map some := by
  unfold decodeVm3 runVm3
  have h16 := f4.isLt
  generalize f4.toNat = n at h16 ⊢
  rcases below16 h16 with rfl | rfl | rfl | rfl | rfl | rfl | rfl | rfl | rfl | rfl | rfl | rfl | rfl | rfl | rfl | rfl
  all_goals first | rfl | (simp only; split <;> (rename_i h; (try simp only [h, ↓reduceIte]); first | rfl | (split <;> (rename_i h2; (try simp only [h2, ↓reduceIte]); first | rfl | (split <;> (rename_i h3; (try simp only [h3, ↓reduceIte]); rfl))))))

/-- The two pages agree. -/
theorem runOf_decodeVm4 (f4 : BitVec 4) (mk : BitVec 3) (b : BitVec 5) (a : BitVec 5) (k : BitVec 3) (d : BitVec 5) :
    runOf (decodeVm4 f4 mk b a k d) = (runVm4 f4 mk b a k d).map some := by
  unfold decodeVm4 runVm4
  have h16 := f4.isLt
  generalize f4.toNat = n at h16 ⊢
  rcases below16 h16 with rfl | rfl | rfl | rfl | rfl | rfl | rfl | rfl | rfl | rfl | rfl | rfl | rfl | rfl | rfl | rfl
  all_goals first | rfl | (simp only; split <;> (rename_i h; (try simp only [h, ↓reduceIte]); first | rfl | (split <;> (rename_i h2; (try simp only [h2, ↓reduceIte]); first | rfl | (split <;> (rename_i h3; (try simp only [h3, ↓reduceIte]); rfl))))))

/-- The two pages agree. -/
theorem runOf_decodeVm5 (f4 : BitVec 4) (mk : BitVec 3) (b : BitVec 5) (a : BitVec 5) (k : BitVec 3) (d : BitVec 5) :
    runOf (decodeVm5 f4 mk b a k d) = (runVm5 f4 mk b a k d).map some := by
  unfold decodeVm5 runVm5
  have h16 := f4.isLt
  generalize f4.toNat = n at h16 ⊢
  rcases below16 h16 with rfl | rfl | rfl | rfl | rfl | rfl | rfl | rfl | rfl | rfl | rfl | rfl | rfl | rfl | rfl | rfl
  all_goals first | rfl | (simp only; split <;> (rename_i h; (try simp only [h, ↓reduceIte]); first | rfl | (split <;> (rename_i h2; (try simp only [h2, ↓reduceIte]); first | rfl | (split <;> (rename_i h3; (try simp only [h3, ↓reduceIte]); rfl))))))

/-- The two pages agree. -/
theorem runOf_decodeVm6 (f4 : BitVec 4) (mk : BitVec 3) (b : BitVec 5) (a : BitVec 5) (k : BitVec 3) (d : BitVec 5) :
    runOf (decodeVm6 f4 mk b a k d) = (runVm6 f4 mk b a k d).map some := by
  unfold decodeVm6 runVm6
  have h16 := f4.isLt
  generalize f4.toNat = n at h16 ⊢
  rcases below16 h16 with rfl | rfl | rfl | rfl | rfl | rfl | rfl | rfl | rfl | rfl | rfl | rfl | rfl | rfl | rfl | rfl
  all_goals first | rfl | (simp only; split <;> (rename_i h; (try simp only [h, ↓reduceIte]); first | rfl | (split <;> (rename_i h2; (try simp only [h2, ↓reduceIte]); first | rfl | (split <;> (rename_i h3; (try simp only [h3, ↓reduceIte]); rfl))))))

/-- The two pages agree. -/
theorem runOf_decodeVm7 (f4 : BitVec 4) (mk : BitVec 3) (b : BitVec 5) (a : BitVec 5) (k : BitVec 3) (d : BitVec 5) :
    runOf (decodeVm7 f4 mk b a k d) = (runVm7 f4 mk b a k d).map some := by
  unfold decodeVm7 runVm7
  have h16 := f4.isLt
  generalize f4.toNat = n at h16 ⊢
  rcases below16 h16 with rfl | rfl | rfl | rfl | rfl | rfl | rfl | rfl | rfl | rfl | rfl | rfl | rfl | rfl | rfl | rfl
  all_goals first | rfl | (simp only; split <;> (rename_i h; (try simp only [h, ↓reduceIte]); first | rfl | (split <;> (rename_i h2; (try simp only [h2, ↓reduceIte]); first | rfl | (split <;> (rename_i h3; (try simp only [h3, ↓reduceIte]); rfl))))))

/-- The two pages agree. -/
theorem runOf_decodeVp0 (f4 : BitVec 4) (mk : BitVec 3) (b : BitVec 5) (a : BitVec 5) (d : BitVec 5) :
    runOf (decodeVp0 f4 mk b a d) = (runVp0 f4 mk b a d).map some := by
  unfold decodeVp0 runVp0
  have h16 := f4.isLt
  generalize f4.toNat = n at h16 ⊢
  rcases below16 h16 with rfl | rfl | rfl | rfl | rfl | rfl | rfl | rfl | rfl | rfl | rfl | rfl | rfl | rfl | rfl | rfl
  all_goals first | rfl | (simp only; split <;> (rename_i h; (try simp only [h, ↓reduceIte]); first | rfl | (split <;> (rename_i h2; (try simp only [h2, ↓reduceIte]); first | rfl | (split <;> (rename_i h3; (try simp only [h3, ↓reduceIte]); rfl))))))

/-- The two pages agree. -/
theorem runOf_decodeVp1 (f4 : BitVec 4) (mk : BitVec 3) (b : BitVec 5) (a : BitVec 5) (d : BitVec 5) :
    runOf (decodeVp1 f4 mk b a d) = (runVp1 f4 mk b a d).map some := by
  unfold decodeVp1 runVp1
  have h16 := f4.isLt
  generalize f4.toNat = n at h16 ⊢
  rcases below16 h16 with rfl | rfl | rfl | rfl | rfl | rfl | rfl | rfl | rfl | rfl | rfl | rfl | rfl | rfl | rfl | rfl
  all_goals first | rfl | (simp only; split <;> (rename_i h; (try simp only [h, ↓reduceIte]); first | rfl | (split <;> (rename_i h2; (try simp only [h2, ↓reduceIte]); first | rfl | (split <;> (rename_i h3; (try simp only [h3, ↓reduceIte]); rfl))))))

/-- The two pages agree. -/
theorem runOf_decodeVp2 (f4 : BitVec 4) (mk : BitVec 3) (b : BitVec 5) (a : BitVec 5) (d : BitVec 5) :
    runOf (decodeVp2 f4 mk b a d) = (runVp2 f4 mk b a d).map some := by
  unfold decodeVp2 runVp2
  have h16 := f4.isLt
  generalize f4.toNat = n at h16 ⊢
  rcases below16 h16 with rfl | rfl | rfl | rfl | rfl | rfl | rfl | rfl | rfl | rfl | rfl | rfl | rfl | rfl | rfl | rfl
  all_goals first | rfl | (simp only; split <;> (rename_i h; (try simp only [h, ↓reduceIte]); first | rfl | (split <;> (rename_i h2; (try simp only [h2, ↓reduceIte]); first | rfl | (split <;> (rename_i h3; (try simp only [h3, ↓reduceIte]); rfl))))))

/-- The two pages agree. -/
theorem runOf_decodeVp4 (f4 : BitVec 4) (mk : BitVec 3) (b : BitVec 5) (a : BitVec 5) (d : BitVec 5) :
    runOf (decodeVp4 f4 mk b a d) = (runVp4 f4 mk b a d).map some := by
  unfold decodeVp4 runVp4
  have h16 := f4.isLt
  generalize f4.toNat = n at h16 ⊢
  rcases below16 h16 with rfl | rfl | rfl | rfl | rfl | rfl | rfl | rfl | rfl | rfl | rfl | rfl | rfl | rfl | rfl | rfl
  all_goals first | rfl | (simp only; split <;> (rename_i h; (try simp only [h, ↓reduceIte]); first | rfl | (split <;> (rename_i h2; (try simp only [h2, ↓reduceIte]); first | rfl | (split <;> (rename_i h3; (try simp only [h3, ↓reduceIte]); rfl))))))

/-- The two pages agree. -/
theorem runOf_decodeVp6 (f4 : BitVec 4) (mk : BitVec 3) (b : BitVec 5) (a : BitVec 5) (d : BitVec 5) :
    runOf (decodeVp6 f4 mk b a d) = (runVp6 f4 mk b a d).map some := by
  unfold decodeVp6 runVp6
  have h16 := f4.isLt
  generalize f4.toNat = n at h16 ⊢
  rcases below16 h16 with rfl | rfl | rfl | rfl | rfl | rfl | rfl | rfl | rfl | rfl | rfl | rfl | rfl | rfl | rfl | rfl
  all_goals first | rfl | (simp only; split <;> (rename_i h; (try simp only [h, ↓reduceIte]); first | rfl | (split <;> (rename_i h2; (try simp only [h2, ↓reduceIte]); first | rfl | (split <;> (rename_i h3; (try simp only [h3, ↓reduceIte]); rfl))))))

/-- The two pages agree. -/
theorem runOf_decodeVp7 (f4 : BitVec 4) (mk : BitVec 3) (b : BitVec 5) (a : BitVec 5) (d : BitVec 5) :
    runOf (decodeVp7 f4 mk b a d) = (runVp7 f4 mk b a d).map some := by
  unfold decodeVp7 runVp7
  have h16 := f4.isLt
  generalize f4.toNat = n at h16 ⊢
  rcases below16 h16 with rfl | rfl | rfl | rfl | rfl | rfl | rfl | rfl | rfl | rfl | rfl | rfl | rfl | rfl | rfl | rfl
  all_goals first | rfl | (simp only; split <;> (rename_i h; (try simp only [h, ↓reduceIte]); first | rfl | (split <;> (rename_i h2; (try simp only [h2, ↓reduceIte]); first | rfl | (split <;> (rename_i h3; (try simp only [h3, ↓reduceIte]); rfl))))))

/-- The two pages agree. -/
theorem runOf_decodeVc0 (f4 : BitVec 4) (mk : BitVec 3) (b : BitVec 5) (a : BitVec 5) (d : BitVec 5) :
    runOf (decodeVc0 f4 mk b a d) = (runVc0 f4 mk b a d).map some := by
  unfold decodeVc0 runVc0
  first | rfl | ((try simp only); split <;> (rename_i h; (try simp only [h, ↓reduceIte]); first | rfl | (split <;> (rename_i h2; (try simp only [h2, ↓reduceIte]); first | rfl | (split <;> (rename_i h3; (try simp only [h3, ↓reduceIte]); rfl))))))

/-- The two pages agree. -/
theorem runOf_decodeVc1 (f4 : BitVec 4) (mk : BitVec 3) (b : BitVec 5) (a : BitVec 5) (d : BitVec 5) :
    runOf (decodeVc1 f4 mk b a d) = (runVc1 f4 mk b a d).map some := by
  unfold decodeVc1 runVc1
  have h16 := f4.isLt
  generalize f4.toNat = n at h16 ⊢
  rcases below16 h16 with rfl | rfl | rfl | rfl | rfl | rfl | rfl | rfl | rfl | rfl | rfl | rfl | rfl | rfl | rfl | rfl
  all_goals first | rfl | (simp only; split <;> (rename_i h; (try simp only [h, ↓reduceIte]); first | rfl | (split <;> (rename_i h2; (try simp only [h2, ↓reduceIte]); first | rfl | (split <;> (rename_i h3; (try simp only [h3, ↓reduceIte]); rfl))))))

/-- The two pages agree. -/
theorem runOf_decodeVc2 (f4 : BitVec 4) (mk : BitVec 3) (b : BitVec 5) (a : BitVec 5) (d : BitVec 5) :
    runOf (decodeVc2 f4 mk b a d) = (runVc2 f4 mk b a d).map some := by
  unfold decodeVc2 runVc2
  have h16 := f4.isLt
  generalize f4.toNat = n at h16 ⊢
  rcases below16 h16 with rfl | rfl | rfl | rfl | rfl | rfl | rfl | rfl | rfl | rfl | rfl | rfl | rfl | rfl | rfl | rfl
  all_goals first | rfl | (simp only; split <;> (rename_i h; (try simp only [h, ↓reduceIte]); first | rfl | (split <;> (rename_i h2; (try simp only [h2, ↓reduceIte]); first | rfl | (split <;> (rename_i h3; (try simp only [h3, ↓reduceIte]); rfl))))))

/-- The two pages agree. -/
theorem runOf_decodeVc3 (f4 : BitVec 4) (mk : BitVec 3) (b : BitVec 5) (a : BitVec 5) (d : BitVec 5) :
    runOf (decodeVc3 f4 mk b a d) = (runVc3 f4 mk b a d).map some := by
  unfold decodeVc3 runVc3
  have h16 := f4.isLt
  generalize f4.toNat = n at h16 ⊢
  rcases below16 h16 with rfl | rfl | rfl | rfl | rfl | rfl | rfl | rfl | rfl | rfl | rfl | rfl | rfl | rfl | rfl | rfl
  all_goals first | rfl | (simp only; split <;> (rename_i h; (try simp only [h, ↓reduceIte]); first | rfl | (split <;> (rename_i h2; (try simp only [h2, ↓reduceIte]); first | rfl | (split <;> (rename_i h3; (try simp only [h3, ↓reduceIte]); rfl))))))

/-- The two pages agree. -/
theorem runOf_decodeVc4 (f4 : BitVec 4) (mk : BitVec 3) (b : BitVec 5) (a : BitVec 5) (d : BitVec 5) :
    runOf (decodeVc4 f4 mk b a d) = (runVc4 f4 mk b a d).map some := by
  unfold decodeVc4 runVc4
  have h16 := f4.isLt
  generalize f4.toNat = n at h16 ⊢
  rcases below16 h16 with rfl | rfl | rfl | rfl | rfl | rfl | rfl | rfl | rfl | rfl | rfl | rfl | rfl | rfl | rfl | rfl
  all_goals first | rfl | (simp only; split <;> (rename_i h; (try simp only [h, ↓reduceIte]); first | rfl | (split <;> (rename_i h2; (try simp only [h2, ↓reduceIte]); first | rfl | (split <;> (rename_i h3; (try simp only [h3, ↓reduceIte]); rfl))))))

/-- The two pages agree. -/
theorem runOf_decodeVc5 (f4 : BitVec 4) (mk : BitVec 3) (b : BitVec 5) (a : BitVec 5) (d : BitVec 5) :
    runOf (decodeVc5 f4 mk b a d) = (runVc5 f4 mk b a d).map some := by
  unfold decodeVc5 runVc5
  have h16 := f4.isLt
  generalize f4.toNat = n at h16 ⊢
  rcases below16 h16 with rfl | rfl | rfl | rfl | rfl | rfl | rfl | rfl | rfl | rfl | rfl | rfl | rfl | rfl | rfl | rfl
  all_goals first | rfl | (simp only; split <;> (rename_i h; (try simp only [h, ↓reduceIte]); first | rfl | (split <;> (rename_i h2; (try simp only [h2, ↓reduceIte]); first | rfl | (split <;> (rename_i h3; (try simp only [h3, ↓reduceIte]); rfl))))))

/-- The two pages agree. -/
theorem runOf_decodeVa0 (f4 : BitVec 4) (mk : BitVec 3) (b : BitVec 5) (a : BitVec 5) (d : BitVec 5) :
    runOf (decodeVa0 f4 mk b a d) = (runVa0 f4 mk b a d).map some := by
  unfold decodeVa0 runVa0
  have h16 := f4.isLt
  generalize f4.toNat = n at h16 ⊢
  rcases below16 h16 with rfl | rfl | rfl | rfl | rfl | rfl | rfl | rfl | rfl | rfl | rfl | rfl | rfl | rfl | rfl | rfl
  all_goals first | rfl | (simp only; split <;> (rename_i h; (try simp only [h, ↓reduceIte]); first | rfl | (split <;> (rename_i h2; (try simp only [h2, ↓reduceIte]); first | rfl | (split <;> (rename_i h3; (try simp only [h3, ↓reduceIte]); rfl))))))

/-- The two pages agree. -/
theorem runOf_decodeVa1 (f4 : BitVec 4) (mk : BitVec 3) (b : BitVec 5) (a : BitVec 5) (d : BitVec 5) :
    runOf (decodeVa1 f4 mk b a d) = (runVa1 f4 mk b a d).map some := by
  unfold decodeVa1 runVa1
  have h16 := f4.isLt
  generalize f4.toNat = n at h16 ⊢
  rcases below16 h16 with rfl | rfl | rfl | rfl | rfl | rfl | rfl | rfl | rfl | rfl | rfl | rfl | rfl | rfl | rfl | rfl
  all_goals first | rfl | (simp only; split <;> (rename_i h; (try simp only [h, ↓reduceIte]); first | rfl | (split <;> (rename_i h2; (try simp only [h2, ↓reduceIte]); first | rfl | (split <;> (rename_i h3; (try simp only [h3, ↓reduceIte]); rfl))))))

/-- The two pages agree. -/
theorem runOf_decodeVa2 (f4 : BitVec 4) (mk : BitVec 3) (b : BitVec 5) (a : BitVec 5) (d : BitVec 5) :
    runOf (decodeVa2 f4 mk b a d) = (runVa2 f4 mk b a d).map some := by
  unfold decodeVa2 runVa2
  have h16 := f4.isLt
  generalize f4.toNat = n at h16 ⊢
  rcases below16 h16 with rfl | rfl | rfl | rfl | rfl | rfl | rfl | rfl | rfl | rfl | rfl | rfl | rfl | rfl | rfl | rfl
  all_goals first | rfl | (simp only; split <;> (rename_i h; (try simp only [h, ↓reduceIte]); first | rfl | (split <;> (rename_i h2; (try simp only [h2, ↓reduceIte]); first | rfl | (split <;> (rename_i h3; (try simp only [h3, ↓reduceIte]); rfl))))))

/-- The two pages agree. -/
theorem runOf_decodeVa6 (f4 : BitVec 4) (mk : BitVec 3) (b : BitVec 5) (a : BitVec 5) (d : BitVec 5) :
    runOf (decodeVa6 f4 mk b a d) = (runVa6 f4 mk b a d).map some := by
  unfold decodeVa6 runVa6
  have h16 := f4.isLt
  generalize f4.toNat = n at h16 ⊢
  rcases below16 h16 with rfl | rfl | rfl | rfl | rfl | rfl | rfl | rfl | rfl | rfl | rfl | rfl | rfl | rfl | rfl | rfl
  all_goals first | rfl | (simp only; split <;> (rename_i h; (try simp only [h, ↓reduceIte]); first | rfl | (split <;> (rename_i h2; (try simp only [h2, ↓reduceIte]); first | rfl | (split <;> (rename_i h3; (try simp only [h3, ↓reduceIte]); rfl))))))

/-- The two pages agree. -/
theorem runOf_decodeVa7 (f4 : BitVec 4) (mk : BitVec 3) (b : BitVec 5) (a : BitVec 5) (d : BitVec 5) :
    runOf (decodeVa7 f4 mk b a d) = (runVa7 f4 mk b a d).map some := by
  unfold decodeVa7 runVa7
  have h16 := f4.isLt
  generalize f4.toNat = n at h16 ⊢
  rcases below16 h16 with rfl | rfl | rfl | rfl | rfl | rfl | rfl | rfl | rfl | rfl | rfl | rfl | rfl | rfl | rfl | rfl
  all_goals first | rfl | (simp only; split <;> (rename_i h; (try simp only [h, ↓reduceIte]); first | rfl | (split <;> (rename_i h2; (try simp only [h2, ↓reduceIte]); first | rfl | (split <;> (rename_i h3; (try simp only [h3, ↓reduceIte]); rfl))))))

/-- The two pages agree. -/
theorem runOf_decodeVi (f4 : BitVec 4) (mk : BitVec 3) (b a : BitVec 5) (k : BitVec 3) (d : BitVec 5) :
    runOf (decodeVi f4 mk b a k d) = (runVi f4 mk b a k d).map some := by
  unfold decodeVi runVi
  have h8 := k.isLt
  generalize k.toNat = n at h8 ⊢
  rcases below8 h8 with rfl | rfl | rfl | rfl | rfl | rfl | rfl | rfl
  · exact runOf_decodeVi0 ..
  · exact runOf_decodeVi1 ..
  · exact runOf_decodeVi2 ..
  · exact runOf_decodeVi3 ..
  · exact runOf_decodeVi4 ..
  · rfl
  · exact runOf_decodeVi6 ..
  · exact runOf_decodeVi7 ..

/-- The two pages agree. -/
theorem runOf_decodeVf (f4 : BitVec 4) (mk : BitVec 3) (b a : BitVec 5) (k : BitVec 3) (d : BitVec 5) :
    runOf (decodeVf f4 mk b a k d) = (runVf f4 mk b a k d).map some := by
  unfold decodeVf runVf
  have h8 := k.isLt
  generalize k.toNat = n at h8 ⊢
  rcases below8 h8 with rfl | rfl | rfl | rfl | rfl | rfl | rfl | rfl
  · exact runOf_decodeVf0 ..
  · exact runOf_decodeVf1 ..
  · rfl
  · exact runOf_decodeVf3 ..
  · exact runOf_decodeVf4 ..
  · rfl
  · exact runOf_decodeVf6 ..
  · exact runOf_decodeVf7 ..

/-- The two pages agree. -/
theorem runOf_decodeVp (f4 : BitVec 4) (mk : BitVec 3) (b a : BitVec 5) (k : BitVec 3) (d : BitVec 5) :
    runOf (decodeVp f4 mk b a k d) = (runVp f4 mk b a k d).map some := by
  unfold decodeVp runVp
  have h8 := k.isLt
  generalize k.toNat = n at h8 ⊢
  rcases below8 h8 with rfl | rfl | rfl | rfl | rfl | rfl | rfl | rfl
  · exact runOf_decodeVp0 ..
  · exact runOf_decodeVp1 ..
  · exact runOf_decodeVp2 ..
  · rfl
  · exact runOf_decodeVp4 ..
  · rfl
  · exact runOf_decodeVp6 ..
  · exact runOf_decodeVp7 ..

/-- The two pages agree. -/
theorem runOf_decodeVa (f4 : BitVec 4) (mk : BitVec 3) (b a : BitVec 5) (k : BitVec 3) (d : BitVec 5) :
    runOf (decodeVa f4 mk b a k d) = (runVa f4 mk b a k d).map some := by
  unfold decodeVa runVa
  have h8 := k.isLt
  generalize k.toNat = n at h8 ⊢
  rcases below8 h8 with rfl | rfl | rfl | rfl | rfl | rfl | rfl | rfl
  · exact runOf_decodeVa0 ..
  · exact runOf_decodeVa1 ..
  · exact runOf_decodeVa2 ..
  · rfl
  · rfl
  · rfl
  · exact runOf_decodeVa6 ..
  · exact runOf_decodeVa7 ..

/-- The two pages agree. -/
theorem runOf_decodeVm (f4 : BitVec 4) (mk : BitVec 3) (b a : BitVec 5) (k : BitVec 3) (d : BitVec 5) :
    runOf (decodeVm f4 mk b a k d) = (runVm f4 mk b a k d).map some := by
  unfold decodeVm runVm
  have h8 := k.isLt
  generalize k.toNat = n at h8 ⊢
  rcases below8 h8 with rfl | rfl | rfl | rfl | rfl | rfl | rfl | rfl
  · exact runOf_decodeVm0 ..
  · exact runOf_decodeVm1 ..
  · exact runOf_decodeVm2 ..
  · exact runOf_decodeVm3 ..
  · exact runOf_decodeVm4 ..
  · exact runOf_decodeVm5 ..
  · exact runOf_decodeVm6 ..
  · exact runOf_decodeVm7 ..

/-- The two pages agree. -/
theorem runOf_decodeVc (f4 : BitVec 4) (mk : BitVec 3) (b a : BitVec 5) (k : BitVec 3) (d : BitVec 5) :
    runOf (decodeVc f4 mk b a k d) = (runVc f4 mk b a k d).map some := by
  unfold decodeVc runVc
  have h8 := k.isLt
  generalize k.toNat = n at h8 ⊢
  rcases below8 h8 with rfl | rfl | rfl | rfl | rfl | rfl | rfl | rfl
  · exact runOf_decodeVc0 ..
  · exact runOf_decodeVc1 ..
  · exact runOf_decodeVc2 ..
  · exact runOf_decodeVc3 ..
  · exact runOf_decodeVc4 ..
  · exact runOf_decodeVc5 ..
  · rfl
  · rfl

/-- Whether a major is one of the six of ALV (R109). -/
def isAlvMajor (major : Nat) : Bool := [0x0B, 0x2B, 0x57, 0x5B, 0x77, 0x7B].contains major

/-- The run of a word, none where it is no ALV instruction. -/
noncomputable def wordRun (w : InstrWord) : Option VRun :=
  if isAlvMajor (w.extractLsb' 0 7).toNat then (runOf (decodeWord w)).join else none

/-- `wordRun` by the pages that build no instruction. -/
def wordRunPages (w : InstrWord) : Option VRun :=
  let f4 := w.extractLsb' 28 4
  let mk := w.extractLsb' 25 3
  let b := w.extractLsb' 20 5
  let a := w.extractLsb' 15 5
  let k := w.extractLsb' 12 3
  let d := w.extractLsb' 7 5
  match (w.extractLsb' 0 7).toNat with
  | 0x0B => runVi f4 mk b a k d
  | 0x2B => runVf f4 mk b a k d
  | 0x57 => runVm f4 mk b a k d
  | 0x5B => runVp f4 mk b a k d
  | 0x77 => runVc f4 mk b a k d
  | 0x7B => runVa f4 mk b a k d
  | _ => none

/-- The guard of `decodeFields` holds for every major of ALV. -/
theorem isAlvMajor_low (m : BitVec 7) (h : isAlvMajor m.toNat = true) :
    ¬ (m.extractLsb' 0 2 ≠ 3#2 ∨ m.extractLsb' 2 3 = 7#3) := by
  revert m
  decide

/-- A word of ALV decodes to an instruction with a run, or is refused. -/
theorem runOf_alv (w : InstrWord) (h : isAlvMajor (w.extractLsb' 0 7).toNat = true) :
    runOf (decodeWord w) = (wordRunPages w).map some := by
    unfold decodeWord decodeFields wordRunPages
    rw [if_neg (isAlvMajor_low _ h)]
    generalize w.extractLsb' 0 7 = m at h
    dsimp only
    generalize m.toNat = n at h
    simp only [isAlvMajor, List.contains_eq_mem, List.mem_cons, List.not_mem_nil, or_false, decide_eq_true_eq] at h
    rcases h with rfl | rfl | rfl | rfl | rfl | rfl
    · exact runOf_decodeVi ..
    · exact runOf_decodeVf ..
    · exact runOf_decodeVm ..
    · exact runOf_decodeVp ..
    · exact runOf_decodeVc ..
    · exact runOf_decodeVa ..

/-- The two forms of `wordRun` agree. -/
@[csimp] theorem wordRun_eq_pages : @wordRun = @wordRunPages := by
  funext w
  unfold wordRun
  by_cases h : isAlvMajor (w.extractLsb' 0 7).toNat = true
  · rw [if_pos h, runOf_alv w h]
    cases wordRunPages w <;> rfl
  · rw [if_neg h]
    unfold wordRunPages
    dsimp only
    split <;> first | rfl | (simp_all [isAlvMajor])

/-- The row of a word, none where it does not enter the VIQ. -/
def entryRow (w : InstrWord) : Option VRow :=
  match wordRun w with
  | some (.row r) => some r
  | _ => none

/-- Whether a mode may have dispatched a word that a level allows. -/
def Level.allows (l : Level) (mode : Mode) : Bool :=
  match l with
  | .any => true
  | .supervisor => mode == .supervisor
  | .system => mode != .user

/-- The effect of a VIQ entry: that of its word, or the illegal-vtype-or-word trap where the word has none (R405). -/
def entryEffect (e : VEntry) (s : State) : VRes :=
  match entryRow e.word with
  | some r => r.eff e s
  | none => .error (trapWord 1 e)

end Sys2Proof.Machine
end

