-- ==== Sys2Proof/Machine/MemEvents.lean ====
section
/-! DEFINITION. Events of the memories: uncorrectable and corrected errors (R295, R304, R397, R398), layer map-out (R305, R306), training
and MEMREADY (R308), the CXL queue (R302), row activation (R443) and the prefetchers (R50, R151). An event whose condition does
not hold changes nothing. -/

namespace Sys2Proof.Machine

/-! The error record table (R397, R398). -/

/-- The number of a source in an entry. -/
def sourceCode : ErrorSource → Nat
  | .hbm => 1 | .sidecar => 2 | .l2 => 3 | .scratchpad => 4 | .l1d => 5 | .cxl => 6 | .nearMemory => 7

/-- The stack and layer of a home-region offset (R290), as the place of an entry. -/
def placeOf (off : Nat) : Nat := getBits off 10 1 * 16 + getBits off 11 4

/-- The place an entry records (R398). -/
def errorPlace (source : ErrorSource) (address : Nat) : Nat :=
  match source with
  | .hbm => placeOf (address % regionSpan)
  | .sidecar => placeOf (address % regionSpan)
  | .nearMemory => placeOf (address % regionSpan)
  | _ => 0

/-- The index of the newest entry. -/
def State.newestError (s : State) : Nat := (s.errHead.toNat + 63) % 64

/-- A new entry at HEAD, which advances. -/
def State.appendError (s : State) (e : ErrorEntry) : State :=
  let i := s.errHead.toNat % 64
  { s with errors := if i < s.errors.length then s.errors.set i e else s.errors ++ [e], errHead := s.errHead + 1#32 }

/-- The newest entry; none while no detection is listed. -/
def State.lastError (s : State) : Option ErrorEntry := if s.errors.isEmpty then none else s.errors[s.newestError]?

/-- An entry with one detection more. -/
def ErrorEntry.again (e : ErrorEntry) (flags : Nat) : ErrorEntry :=
  { e with count := min 65535 (e.count + 1), flags := e.flags ||| BitVec.ofNat 4 flags }

/-- A detection entered in the error record table: merged into the newest entry where source and address are its own (R398). -/
def recordError (s : State) (source : ErrorSource) (address flags : Nat) : State :=
  let fresh : ErrorEntry := ⟨s.time, address, sourceCode source, errorPlace source address, 1, BitVec.ofNat 4 flags⟩
  match s.lastError with
  | some e =>
    if e.source = sourceCode source ∧ e.address = address then
      { s with errors := s.errors.set s.newestError (e.again flags) }
    else s.appendError fresh
  | none => s.appendError fresh

/-- A flag set in the entries of an address while one is listed (R398). -/
def flagError (s : State) (address flags : Nat) : State :=
  { s with errors := s.errors.map (fun e =>
      if e.address = address then { e with flags := e.flags ||| BitVec.ofNat 4 flags } else e) }

/-! Uncorrectable and corrected errors (R304, R295). -/

/-- The home-region offset of a device-local address below its region's capacity (R291). -/
def homeOffset (s : State) (a : Nat) : Option Nat := if a < 0x10000000000 then homeKey s engineAgent a else none

/-- The poison of some units, with what it reaches (R304), and their error entry. -/
def poisonUnits (s : State) (source : ErrorSource) (address : Nat) (us : List PoisonUnit) : State :=
  recordError { s with poison := us.foldl addPoison s.poison } source address 1

/-- The units of a line an L1D held: 8 bytes each in scratchpad (R304). -/
def lineUnits (key : Nat) : List PoisonUnit :=
  let line := key / 64 * 64
  if isScratchKey key then (List.range 8).map (fun i => ⟨line + 8 * i, 8⟩) else [⟨line, 64⟩]

/-- UNCORRECTABLE_ERROR (R304, R398) at a device-local address. -/
def uncorrectable (s : State) (source : ErrorSource) (a : Nat) : State :=
  let line := a / 64 * 64
  match source with
  | .hbm => match homeOffset s a with | some _ => poisonUnits s .hbm line [⟨line, 64⟩] | none => s
  | .nearMemory => match homeOffset s a with | some _ => poisonUnits s .nearMemory line [⟨line, 64⟩] | none => s
  | .sidecar =>
    match homeOffset s a with
    | some o => if isSidecarKey o then poisonUnits s .sidecar line [⟨line, 64⟩] else s
    | none => s
  | .l2 => match homeOffset s a with | some _ => poisonUnits s .l2 (a / 8 * 8) [⟨a / 8 * 8, 8⟩] | none => s
  | .scratchpad =>
    match localKey s engineAgent a with
    | some (.absoluteScratchpad, k) => poisonUnits s .scratchpad (k / 8 * 8) [⟨k / 8 * 8, 8⟩]
    | _ => s
  | .l1d =>
    match localKey s engineAgent a with
    | some (.cached, k) => poisonUnits s .l1d line (lineUnits k)
    | some (.absoluteScratchpad, k) => poisonUnits s .l1d line (lineUnits k)
    | some (.cxl, k) => poisonUnits s .l1d line (lineUnits k)
    | _ => s
  | .cxl =>
    match localKey s engineAgent a with
    | some (.cxl, k) => poisonUnits s .cxl line (lineUnits k)
    | _ => s

/-- UNCORRECTABLE_ERROR. -/
def execUncorrectableError (source : ErrorSource) (addr : Word) (s : State) : Res := .next (uncorrectable s source (localOf addr.toNat))

/-- A count that saturates at 2^32 − 1 (R444). -/
def bump32 (n : Nat) : Nat := min (2 ^ 32 - 1) (n + 1)

/-- The report card written to flash (R445). -/
def writeCard (s : State) : State :=
  let r := { s.report with sequence := min (2 ^ 64 - 1) (s.report.sequence + 1), written := s.time }
  { s with report := r, flashReport := r }

/-- A fatal error counted, and the card written (R444, R445). -/
def countFatal (s : State) : State := writeCard { s with report := { s.report with fatal := bump32 s.report.fatal } }

/-- CORRECTABLE_ERROR: counted for its layer in the report card (R304, R444). -/
def execCorrectableError (stack layer : Nat) (s : State) : Res :=
  if stack < 8 ∧ layer < 16 then
    let i := 16 * stack + layer
    let r := s.report
    .next { s with report := { r with corrected := r.corrected.setIfInBounds i (bump32 ((r.corrected[i]?).getD 0)) } }
  else .next s

/-- L1D_PARITY_ERROR: a clean line is fetched again, a dirty one is poisoned (R295). -/
def execL1dParityError (addr : Word) (dirty : Bool) (s : State) : Res :=
  .next (if dirty then uncorrectable s .l1d (localOf addr.toNat) else s)

/-! Layer map-out (R305, R306, R396). -/

/-- Whether the boot chain has passed, so that firmware and the host's system run (R463). -/
def State.booted (s : State) : Bool := s.boot == .running

/-- A region replaced. -/
def State.setRegion (s : State) (n : Nat) (r : Region) : State := { s with regions := s.regions.setIfInBounds n r }

/-- A map-out of a region that has begun and is not done. -/
def Region.moving (r : Region) : Option Redirect := r.redirects.find? (fun e => !e.done)

/-- LAYER_MAP_OUT: the hot-remove event of the region's top 8 GiB, or, for a fifth layer, the report that the region is degraded
(R305). -/
def beginMapOut (s : State) (n stack layer : Nat) : State :=
  match (if s.booted then s.regions[n]? else none) with
  | some r =>
    if 2 ≤ stack ∨ 16 ≤ layer ∨ r.vacating.isSome ∨ r.moving.isSome ∨
        r.redirects.any (fun e => e.stack == stack && e.layer == layer) = true then s
    else if r.redirects.length < 4 then
      let s1 := s.setRegion n { r with vacating := some (stack, layer) }
      { s1 with systemEvents := s1.systemEvents ++ [.hotRemove n ((r.cap - 1) * 2 ^ 33) (r.cap * 2 ^ 33 - 1)] }
    else { s with systemEvents := s.systemEvents ++ [.degraded n] }
  | none => s

/-- LAYER_MAP_OUT. -/
def execLayerMapOut (region stack layer : Nat) (s : State) : Res := .next (beginMapOut s region stack layer)

/-- A region's redirect table written to flash, as it is after each step of a map-out (R396). -/
def Region.mirror (r : Region) : Region := { r with flash := r.redirects }

/-- MAP_OUT_VACATED: MAPOUT set and the entry written VALID (R305 step 2, R396). -/
def vacated (s : State) (n : Nat) : State :=
  match s.regions[n]? with
  | some r =>
    match r.vacating with
    | some (stack, layer) =>
      let e : Redirect := ⟨false, r.cap, stack, layer, 0⟩
      let s1 := s.setRegion n (Region.mirror { r with vacating := none, redirects := r.redirects ++ [e] })
      { s1 with mapOut := s1.mapOut ||| BitVec.ofNat 4 (2 ^ n) }
    | none => s
  | none => s

/-- MAP_OUT_VACATED. -/
def execMapOutVacated (region : Nat) (s : State) : Res := .next (vacated s region)

/-- The home-region address of line `cursor` of a layer (R290). -/
def layerLine (region stack layer cursor : Nat) : Nat :=
  region * regionSpan + cursor / 16 * 32768 + layer * 2048 + stack * 1024 + cursor % 16 * 64

/-- Lines a map-out moves (R396). -/
def Redirect.lines (e : Redirect) : Nat := (e.top - 1) * 4194304

/-- A line met unreadable by a move: its entry gets POISONED and MOVED (R305, R399). -/
def moveUnreadable (s : State) (line : Nat) : State :=
  if anyPoison s line 64 then
    if s.errors.any (fun e => e.address == line) then flagError s line 5 else recordError s .hbm line 5
  else s

/-- The layers of a region's two stacks in service, by their place in a 32 KiB span (R290). -/
def Region.inService (r : Region) : List Nat :=
  (List.range 32).filter (fun i => !(r.redirects.any (fun e => 2 * e.layer + e.stack == i)))

/-- The slot a moved line takes: the freed range's slots in the layers in service, in rising order (R305, R396; log 63). -/
def moveSlot (n : Nat) (r : Region) (e : Redirect) : Nat :=
  let layers := r.inService
  let k := e.cursor / 16
  n * regionSpan + (e.top - 1) * 2 ^ 33 + k / layers.length * 32768 + layers.getD (k % layers.length) 0 * 1024 + e.cursor % 16 * 64

/-- The entry after one line more, the line's slot in the slot map; the last line ends the map-out, and flash mirrors the entry (R305
step 4, R396). -/
def advanceEntry (s : State) (n : Nat) (r : Region) (e : Redirect) : State :=
  let e1 := { e with cursor := e.cursor + 1, done := decide (e.lines ≤ e.cursor + 1) }
  let r1 : Region :=
    { r with redirects := r.redirects.map (fun o => if o.done then o else e1), slots := BitVec.ofNat 64 (moveSlot n r e) :: r.slots }
  let s1 := s.setRegion n (if e1.done then r1.mirror else r1)
  if e1.done then
    { s1 with
      mapOut := s1.mapOut &&& ~~~(BitVec.ofNat 4 (2 ^ n)),
      report := { s1.report with mapOuts := s1.report.mapOuts.setIfInBounds n (bump32 ((s1.report.mapOuts[n]?).getD 0)) } }
  else s1

/-- MAP_OUT_LINE_MOVE: one line of the failing layer moved by firmware (R305, R463); no byte below the new top changes (R306). -/
def moveLine (s : State) (n : Nat) : State :=
  match (if s.memReady && s.booted then s.regions[n]? else none) with
  | some r =>
    match r.moving with
    | some e => advanceEntry (moveUnreadable s (layerLine n e.stack e.layer e.cursor)) n r e
    | none => s
  | none => s

/-- MAP_OUT_LINE_MOVE. -/
def execMapOutLineMove (region : Nat) (s : State) : Res := .next (moveLine s region)

/-! Training (R308). -/

/-- PHY_TRAINING_COMPLETE: the die's PHY or D2D bit of MEMSTAT rises. -/
def execPhyTrainingComplete (d2d : Bool) (die : Nat) (s : State) : Res :=
  let bit : BitVec 4 := if die < 4 then BitVec.ofNat 4 (2 ^ die) else 0#4
  .next (if d2d then { s with d2d := s.d2d ||| bit } else { s with phy := s.phy ||| bit })

/-- The MAPOUT bits of the regions whose map-out has begun and is not done (R305, R396). -/
def movingBits (s : State) : BitVec 4 :=
  BitVec.ofNat 4 ((List.range 4).foldl (fun m n => if (s.regions[n]?).any (fun r => r.moving.isSome) then m + 2 ^ n else m) 0)

/-- A route whose port begins to retrain after MEMREADY (R308). -/
def RouteStatus.train (now : Word) : RouteStatus → RouteStatus
  | .untrained => .retraining now
  | x => x

/-- MEMREADY: every PHY and die-to-die link trained, so that memory accesses are accepted; the held ones go on, so does a map-out that
a reset interrupted (R306), and the Shofin ports begin to retrain (R308). -/
def execMemready (s : State) : Res :=
  let s1 : State :=
    { s with memReady := true, mapOut := movingBits s, routes := s.routes.map (fun r => { r with status := r.status.train s.time }) }
  .next (if s.phy = 0xF#4 ∧ s.d2d = 0xF#4 then s1.wake .memory else s)

/-- Whether the last step of a reset may run: the boot chain has passed, memory is accepted and every port has retrained or is given
up (R463, R465). -/
def restartDue (s : State) : Bool := !s.restarted && s.booted && s.memReady && !(s.routes.any (fun r => r.status.waits))

/-! Queues whose timing the model leaves out: an access is whole in its own step. -/

/-- A request sent on to an expander. -/
def State.sendCxl (s : State) (expander : Nat) (e : Expander) : State :=
  { s with expanders := s.expanders.setIfInBounds expander { e with outstanding := e.outstanding + 1 } }

/-- CXL_REQUEST_ISSUE: the oldest request in the die's CXL queue for an expander issues when fewer than 512 are outstanding there (R302). -/
def execCxlRequestIssue (expander : Nat) (s : State) : Res :=
  match s.expanders[expander]? with
  | some e =>
    if s.cxlQueue.contains expander = true ∧ e.outstanding < 512 then
      .next ({ s with cxlQueue := s.cxlQueue.erase expander }.sendCxl expander e)
    else .next s
  | none => .next s

/-- Row activations allowed in one window, ACTS (R443). -/
def actsPerWindow : Nat := 4

/-- A row activated, where fewer than ACTS began within the last WINDOW ns (R443). -/
def RowQueue.activate (now window : Nat) (q : RowQueue) : RowQueue :=
  let recent := q.recent.filter (fun t => decide (now < t + window))
  if q.waiting ≠ 0 ∧ recent.length < actsPerWindow then { q with waiting := q.waiting - 1, recent := now :: recent } else q

/-- The pseudo-channel of an offset in a home region: bits [9:6] number it within a layer, bits [14:10] the stack and the layer (R19,
R290). -/
def channelOf (off : Nat) : Nat := getBits off 6 4 + 16 * (getBits off 11 4 + 16 * getBits off 10 1)

/-- A request that needs a row, at a device-local address of a home region: it waits in its pseudo-channel (R443). -/
def rowRequest (s : State) (a : Nat) : State :=
  if a < 0x10000000000 then
    let region := a / regionSpan
    let channel := channelOf (a % regionSpan)
    if s.rows.any (fun q => q.region == region && q.channel == channel) then
      { s with rows := s.rows.map (fun q => if q.region = region ∧ q.channel = channel then { q with waiting := q.waiting + 1 } else q) }
    else { s with rows := s.rows ++ [⟨region, channel, 1, []⟩] }
  else s

/-- ROW_ACTIVATION (R443). -/
def execRowActivation (region channel : Nat) (s : State) : Res :=
  match s.regions[region]? with
  | some r =>
    .next { s with rows := s.rows.map (fun q =>
      if q.region = region ∧ q.channel = channel then q.activate s.time.toNat r.window else q) }
  | none => .next s

/-- A request to an expander: it issues at once where the expander is not full and no earlier one waits for it, else it waits at the end
of the die's CXL queue, which holds 1024 for all the expanders; a full queue does not take it (R302). -/
def cxlRequest (s : State) (expander : Nat) : State :=
  match s.expanders[expander]? with
  | some e =>
    if e.present = false then s
    else if e.outstanding < 512 ∧ s.cxlQueue.contains expander = false then s.sendCxl expander e
    else if s.cxlQueue.length < 1024 then { s with cxlQueue := s.cxlQueue ++ [expander] }
    else s
  | none => s

/-- An outstanding request of an expander served (R302). -/
def cxlServed (s : State) (expander : Nat) : State :=
  match s.expanders[expander]? with
  | some e => { s with expanders := s.expanders.setIfInBounds expander { e with outstanding := e.outstanding - 1 } }
  | none => s

/-- CALL_GRAPH_PREFETCH changes no state that programs can see (R50, R151). -/
def execCallGraphPrefetch (_hid : Nat) (s : State) : Res := .next s

/-- SEQUENTIAL_PREFETCH changes no state that programs can see (R50). -/
def execSequentialPrefetch (_hid : Nat) (s : State) : Res := .next s

end Sys2Proof.Machine
end

