-- ==== Sys2Proof/Machine/VecEvents.lean ====
section
/-! DEFINITION. Events of the vector unit: admission, issue and completion (R32, R35), what a waiting head waits for (R105, R298, R317,
R334, R355, R357 to R360), trap delivery (R250, R401), performed stores (R318) and near-memory commands (R339 to R341). An
event whose condition does not hold changes nothing. -/

namespace Sys2Proof.Machine

/-- A step of one running hart; nothing where it does not run. -/
def onRunning (hid : Nat) (f : State → State) (s : State) : Res :=
  s.withHart hid (fun t => .next (if t.hart.run = .running then f t else t))

/-! The head of a VIQ. -/

/-- The state the instruction of the window runs in: it does not wait for its own line locks, its accesses use the translations it
pins, under the translation registers of its probe (R393, R399), and what it waited for before its admission stands (R358). -/
def windowState (w : InFlight) (s : State) : State :=
  { (s.alone.underPins w.satp w.sum).onHart (fun h => { h with wait := h.wait.or w.waited }) with
    locks := s.locks.filter (fun l => l.hid != s.hart.hid) }

/-- The next instruction in the window becomes the oldest; how long the head of the VIQ has waited stays (R32). -/
def Hart.promote (aged : Option Nat) (h : Hart) : Hart := { h with window := h.next.head?, next := h.next.drop 1, headAged := aged }

/-- The instruction of the window completed: it is architectural, what it wrote is noted, and the next one in the window is the oldest
(R35, R442). -/
def windowDone (w : InFlight) (s t : State) : State :=
  ((({ keepRegisters s t with locks := s.locks }).noteWritten w.entry.word w.uses).complete (s.hart.viq ++ t.hart.viq)).onHart
    (Hart.promote s.hart.headAged)

/-- The vector instructions of a hart behind its oldest. -/
def Hart.younger (h : Hart) : List VEntry := if h.window.isSome then h.next.map InFlight.entry ++ h.viq else h.viq.drop 1

/-- The oldest instruction of the window run to its end: completed, trapped, or left in the window to wait with its pins and locks, and
with a barrier that it has arrived at (R35, R358). -/
def windowRun (w : InFlight) (s : State) : State :=
  match entryEffect w.entry (windowState w s) with
  | .ok t => windowDone w s t
  | .error (.trap cause tval side) =>
    match trapEntry s w.entry cause tval side s.hart.younger with
    | .ok t => t
    | .error r => s.onHart (fun h => { h with wait := some r })
  | .error (.wait r t) =>
    { (keepRegisters s t).onHart (fun h =>
        { h with viq := s.hart.viq, window := some { w with waited := if r = .barrier then some r else w.waited }, wait := some r }) with
      locks := s.locks, pins := s.pins, tlb := s.tlb }

/-- The oldest vector instruction of the current hart run. -/
def headRun (s : State) : State :=
  match s.hart.window, s.hart.viq with
  | some w, _ => windowRun w s
  | none, e :: younger => runEntry entryEffect e younger s
  | none, [] => s

/-- How the oldest vector instruction would end now. -/
def headEnd (s : State) : Option (VEntry × VRes) :=
  match s.hart.window, s.hart.viq with
  | some w, _ => some (w.entry, entryEffect w.entry (windowState w s))
  | none, e :: _ => some (e, entryEffect e s.headState)
  | none, [] => none

/-- Whether the oldest vector instruction would end in a wait again. -/
def headWaits (s : State) : Bool :=
  match headEnd s with
  | some (_, .error (.wait _ _)) => true
  | _ => false

/-- The head run again where it waits for one of some reasons. -/
def retryHead (reason : WaitReason → Bool) (s : State) : State :=
  match s.hart.wait with
  | some r => if reason r then headRun s else s
  | none => s

/-! VIQ_ADMISSION (R32). -/

/-- A state in which a run measures an instruction: the counters of the core count its micro-ops, the slots it obtains and the
registers it expands, from 0, no slot of the desk goes uncounted, and what its probe marks and what it reads and writes is noted apart. -/
def State.metering (s : State) : State :=
  let c := coreOfHart s.hart.hid
  { s with hart := { s.hart with size := 0#8 }, pins := s.pins.map (fun (p : Pin) => { p with bits := 0#64 }) }.setCore c { s.core c with
    hpm := Vector.replicate 16 0#64, inhibit := 0#16, uses := ⟨[], [], 0⟩,
    event := ((Vector.replicate 16 0x7000000#27).set 0 0x7000008#27 |>.set 1 0x7000004#27).set 2 0x7000011#27 }

/-- What counter `i` of a metering run measured: micro-ops, slots, expansions. -/
def State.metered (s : State) (i : Nat) : Nat := (((s.core (coreOfHart s.hart.hid)).hpm[i]?).getD 0#64).toNat

/-- The A and D bits that the probe of an admission has set in the leaves it pins, set as its step ends (R388). -/
def markPinned (hid : Nat) (pins : List Pin) (s : State) : State :=
  (pins.filter (fun p => p.users.contains hid && p.bits != 0#64)).foldl (fun t p => t.applyMark ⟨p.entry, p.bits⟩) s

/-- The youngest instruction of a list that writes a register. -/
def writerIn (ws : List InFlight) (r : Nat) : Option Nat := (ws.reverse.find? (fun w => w.uses.writes.contains r)).map InFlight.age

/-- The head put into the window: its micro-ops, its age, the slots it obtains, the ceiling and the translation registers it sees, the
instructions of the window whose results it reads, and the pins, locks, ARIT entries and arrival pointers its run takes (R35, R196,
R298, R317, R321, R334). `t` is what the run that measured it left. -/
def enterWindow (s : State) (e : VEntry) (younger : List VEntry) (t : State) : State :=
  let mine := t.locks.filter (fun l => l.hid == s.hart.hid)
  let h := s.hart
  let arit := engineArit e s
  let uses := (t.core (coreOfHart h.hid)).uses
  let w : InFlight :=
    { entry := e, total := t.metered 0, microOps := t.metered 0, age := s.nextKey, slots := t.metered 1,
      ceiling := (s.core (coreOfHart h.hid)).ceilq, waited := if h.window.isSome then none else h.wait, satp := h.satp,
      sum := h.mstatus.getLsbD 18, arit := arit, unit := wordUnit e.word, uses := uses,
      producers := risingOf (uses.reads.filterMap (writerIn h.windowed)), withheld := 0, descs := aheadDescs e s }
  let s1 := ((s.countHart 7 1 e.mode).countHart 4 (borrowed h.size.toNat h.held w.slots) e.mode).countHart 0x11 (t.metered 2) e.mode
  let s2 := s1.addSlack (if s.withdrawn w.unit uses then w.total else 0) e.mode
  let s3 := { s2 with
    hart := { s2.hart with
      viq := younger, window := s2.hart.window.or (some w), next := if h.window.isSome then h.next ++ [w] else [],
      wait := if h.window.isSome then h.wait else none, headAged := none },
    nextKey := s.nextKey + 1, pins := t.pins, locks := s2.locks ++ mine }
  (startArrival ((arit.filter (fun a => a.copy)).flatMap (fun a => a.bytes.map (fun b => b.2.1)))
    (dropReservations (mine.map LineLock.line) (markPinned h.hid t.pins s3))).admitted h e.mode

/-- Whether an instruction may enter the window behind others of its hart: one of the VI, VF, VP and VA pages that makes no access and is
joint with nothing (log 2). -/
def followsInWindow (w : InstrWord) : Bool := [0x0B, 0x2B, 0x5B, 0x7B].contains (w.extractLsb' 0 7).toNat && !(bqRegister w)

/-- What the older instruction of a window leaves where it completes; none where it would trap or wait. -/
def foresee (s : Option State) (w : InFlight) : Option State :=
  match s with
  | none => none
  | some s =>
    match entryEffect w.entry (windowState w (s.onHart (fun h => { h with window := some w }))) with
    | .ok t => some { keepRegisters s t with locks := s.locks }
    | .error _ => none

/-- The head of the current hart admitted behind the instructions of its window: measured as it finds the registers once they have
completed; none where it must wait until they have (R32, R35; log 2). -/
def admitBehind (s : State) (e : VEntry) (younger : List VEntry) : Option State :=
  if followsInWindow e.word = false then none
  else
    match s.hart.windowed.foldl foresee (some s) with
    | none => none
    | some t0 =>
      match entryEffect e (t0.alone.onHart (fun h => { h with window := none, next := [] })).metering with
      | .error _ => none
      | .ok t =>
        if borrowed s.hart.size.toNat s.hart.held (t.metered 1) ≤ s.unreserved (coreOfHart s.hart.hid) then
          some (enterWindow s e younger { t with pins := s.pins, locks := [] })
        else none

/-- Whether the head is an `ald.c` whose next attempt is not due yet: it has been admitted (R105). -/
def State.attemptLater (s : State) : Bool := s.hart.wait == some .aldc && s.hart.aldc.any (fun a => decide (s.time.toNat < a.earliest))

/-- The head of the current hart admitted: into the window where the schedule holds it there or others of its hart are there, to its end
otherwise (log 2); none where it is not admissible. -/
def admitHead (s : State) : Option State :=
  match s.hart.viq with
  | e :: younger =>
    if s.hart.run ≠ .running ∨ Config.windowDepth ≤ windowLoad s (coreOfHart s.hart.hid) ∨ s.attemptLater = true then none
    else if s.hart.window.isSome then admitBehind s e younger
    else
      match entryEffect e s.headState.metering with
      | .error (.wait _ _) => none
      | .error (.trap _ _ _) => some (headRun s)
      | .ok t => if s.hart.holdWindow then some (enterWindow s e younger t) else if s.lanesBusy then none else some (headRun s)
  | [] => none

/-- The head of a hart admitted. -/
def admitOn (s : State) (hid : Nat) : Option State :=
  if (s.findHart hid).isSome then (admitHead (s.switchTo hid)).map (fun t => t.switchTo s.hart.hid) else none

/-- The harts of a core with a head, in the order of R32: aged heads by age, then round-robin after the hart admitted last. -/
def admissionOrder (s : State) (core : Nat) : List Nat :=
  let hs := s.harts.filter (fun h => coreOfHart h.hid == core && !h.viq.isEmpty)
  let aged := (risingOf (hs.filterMap Hart.headAged)).flatMap (fun k =>
    (hs.filter (fun h => h.headAged == some k)).map Hart.hid)
  aged ++ ((List.range Config.hartsPerCore).map (fun i =>
    core * Config.hartsPerCore + ((s.core core).lastAdmitted + 1 + i) % Config.hartsPerCore)).filter
      (fun hid => hs.any (fun h => h.hid == hid && h.headAged.isNone))

/-- VIQ_ADMISSION. -/
def execViqAdmission (core : Nat) (s : State) : Res := .next (((admissionOrder s core).findSome? (admitOn s)).getD s)

/-- VIQ_HEAD_AGED: the head becomes aged; the order of these events is the order of the waits (R32). -/
def ageHead (s : State) : State :=
  if s.hart.viq ≠ [] ∧ s.hart.headAged = none then
    let s1 := s.onHart (fun h => { h with headAged := some s.nextKey })
    { s1 with nextKey := s.nextKey + 1 }
  else s

/-- VIQ_HEAD_AGED. -/
def execViqHeadAged (hid : Nat) (s : State) : Res := onRunning hid ageHead s

/-! Issue and completion (R35). -/

/-- Whether a producer lets the next micro-op of a consumer issue: it has issued its micro-op for the same element group and the chaining
mask enables the pair, or it has issued all of its own (R35, R182). -/
def feeds (c : CoreState) (p w : InFlight) : Bool :=
  p.microOps == 0 || (c.chains p.unit w.unit && decide (w.total - w.microOps < p.total - p.microOps))

/-- The next instruction of a hart to issue a micro-op: its oldest in the window that has one left whose operands are ready; its youngest
where the schedule has those of the older ones come late, so that a consumer overlaps its producer (R35; log 2). -/
def State.issuer (s : State) (h : Hart) : Option InFlight :=
  (if h.holdOldest then h.windowed.reverse else h.windowed).find? (fun w => w.microOps != 0 &&
    h.windowed.all (fun p => !(w.producers.contains p.age) || feeds (s.core (coreOfHart h.hid)) p w))

/-- Whether an instruction in the window of another hart of the core goes before a micro-op of the current hart: it is older, it has
a micro-op that is ready, and its gang shares a lane (R31). -/
def olderShares (s : State) (w : InFlight) (h : Hart) : Bool :=
  coreOfHart h.hid == coreOfHart s.hart.hid && (s.quadsOf h &&& s.quadsOf s.hart) != 0#4 &&
  (s.issuer h).any (fun x => decide (x.age < w.age))

/-- Whether the lanes of the current hart's gang take a micro-op of an instruction now (R31). -/
def State.laneTurn (s : State) (w : InFlight) : Bool := !(s.others.any (olderShares s w))

/-- The instruction of the current hart whose micro-op issues now, none where none is ready or an older one takes the lanes. -/
def State.issuing (s : State) : Option InFlight := (s.issuer s.hart).filter s.laneTurn

/-- The instructions of a window after a micro-op of one: when it was the last, those that could have chained on it but for the mask have
waited for all of it (R442). -/
def issuedIn (c : CoreState) (w x : InFlight) : InFlight :=
  if x.age = w.age then { x with microOps := x.microOps - 1, withheld := x.withheld - 1 }
  else if w.microOps = 1 ∧ x.producers.contains w.age = true ∧ c.withdraws w.unit x.unit = true then { x with withheld := x.microOps }
  else x

/-- MICRO_OP_ISSUE: one micro-op of the window issued and counted, on the lanes of its element group, which wake; one that a disabled pair
has made wait is counted as withdrawn (R31, R433, R441, R442). -/
def issueMicroOp (s : State) : State :=
  match s.issuing with
  | some w =>
    let f := issuedIn (s.core (coreOfHart s.hart.hid)) w
    ((s.onHart (fun h => { h with window := h.window.map f, next := h.next.map f })).issued 1 w.entry.mode
      (s.issueLanes w.total w.uses.extent (w.total - w.microOps))).countHart 3 (if w.withheld = 0 then 0 else 1) w.entry.mode
  | none => s

/-- MICRO_OP_ISSUE. -/
def execMicroOpIssue (hid : Nat) (s : State) : Res := onRunning hid issueMicroOp s

/-- The oldest instruction of the window made architectural once its micro-ops have issued. -/
def completeWindow (s : State) : State :=
  match s.hart.window with
  | some w => if w.microOps = 0 then windowRun w s else s
  | none => s

/-- VECTOR_INSTRUCTION_COMPLETE. -/
def execVectorInstructionComplete (hid : Nat) (s : State) : Res := onRunning hid completeWindow s

/-- LINE_LOCK_RELEASE: the locks of an instruction go with its completion (R104, R334). -/
def execLineLockRelease (hid : Nat) (s : State) : Res :=
  onRunning hid (fun t => if t.locks.any (fun l => l.hid == hid) then completeWindow t else t) s

/-! What a waiting head waits for. -/

/-- The place of a hart's probe among those of its core that wait for pin entries. -/
def Hart.pinPlace (h : Hart) : Option Nat :=
  match h.wait with
  | some (.pins n) => some n
  | _ => none

/-- The hart of a core whose probe has waited longest for pin entries (R317). -/
def pinWaiter (s : State) (core : Nat) : Option Nat :=
  let hs := s.harts.filter (fun h => coreOfHart h.hid == core)
  (leastOf (hs.filterMap Hart.pinPlace)).bind (fun n => (hs.find? (fun h => h.pinPlace == some n)).map Hart.hid)

/-- PIN_ENTRIES_FREE (R317). -/
def execPinEntriesFree (core : Nat) (s : State) : Res :=
  match pinWaiter s core with
  | some hid => onRunning hid headRun s
  | none => .next s

/-- ALD_C_ATTEMPT: a further attempt once its gap has passed (R105). -/
def execAldCAttempt (hid : Nat) (s : State) : Res :=
  onRunning hid (fun t => if t.hart.aldc.any (fun a => decide (a.earliest ≤ t.time.toNat)) then retryHead (· == .aldc) t else t) s

/-- PIGEONHOLE_VALUE_ARRIVES: a waiting `qpop` or `qpush` tried again (R354, R355). -/
def execPigeonholeValueArrives (hid : Nat) (s : State) : Res := onRunning hid (retryHead (fun r => r == .qpop || r == .qpush)) s

/-- Whether a hart waits in `wait.mem`. -/
def isWaitMem : WaitReason → Bool
  | .waitMem _ _ => true
  | _ => false

/-- WAIT_MEM_REREAD (R359). -/
def execWaitMemReread (hid : Nat) (s : State) : Res := onRunning hid (retryHead isWaitMem) s

/-- Whether a hart waits in `wait.time`. -/
def isWaitTime : WaitReason → Bool
  | .waitTime _ => true
  | _ => false

/-- WAIT_TIME_DEADLINE (R360). -/
def execWaitTimeDeadline (hid : Nat) (s : State) : Res := onRunning hid (retryHead isWaitTime) s

/-- BARRIER_PHASE_COMPLETE: a phase with enough arrived or halted harts ends (R357); its waiters go on when they next run. -/
def settleBarrier (s : State) (key barrier : Nat) : State :=
  match s.findGang key with
  | some g =>
    match g.barriers[barrier]? with
    | some b => s.putGang { g with barriers := g.barriers.set barrier (b.settle (haltedRanks s g)) }
    | none => s
  | none => s

/-- BARRIER_PHASE_COMPLETE. -/
def execBarrierPhaseComplete (gang barrier : Nat) (s : State) : Res := .next (settleBarrier s gang barrier)

/-! Traps (R250, R251, R401). -/

/-- Whether a trap is delivered to the user handler. -/
def deliversToUser (s : State) (e : VEntry) (cause : Nat) (younger : List VEntry) : Bool :=
  userHandles s.hart cause && (userArea s.dropWork e (areaSize younger)).isSome

/-- The vector trap of the oldest instruction delivered, where it takes one of the kind asked for. -/
def deliverHead (user : Bool) (s : State) : State :=
  match headEnd s with
  | some (e, .error (.trap cause tval side)) =>
    let younger := s.hart.younger
    if deliversToUser s e cause younger = user then (match trapEntry s e cause tval side younger with | .ok t => t | .error _ => s)
    else s
  | _ => s

/-- VECTOR_TRAP (R401). -/
def execVectorTrap (hid : Nat) (s : State) : Res := onRunning hid (deliverHead false) s

/-- USER_ANCHOR_DELIVERY (R251). -/
def execUserAnchorDelivery (hid : Nat) (s : State) : Res := onRunning hid (deliverHead true) s

/-! Performed stores (R318). -/

/-- The barriers of a hart's gang settled where the last store of a halted hart has been performed (R357, R382). -/
def State.settleIfDone (s : State) : State := if s.hart.isDone then s.settleOwn else s

/-- The oldest entry of the current hart's VSQ performed, unless it must wait. -/
def performOldest (s : State) : State :=
  match s.hart.vsq with
  | x :: rest =>
    if (entryWait s x).isSome then s else ((s.performAll [x] rest).settleIfDone.wake .storeRoom).wake .memory
  | [] => s

/-- The oldest store of the current hart's scalar stream performed, unless it must wait (R370; log 54). -/
def performScalar (s : State) : State :=
  match s.hart.ssq with
  | x :: rest => if (entryWait s x).isSome then s else ((performEntry x s).onHart (fun h => { h with ssq := rest })).settleIfDone
  | [] => s

/-- The vector loads of a hart read the oldest of the old values of a byte no longer (R340; log 8). -/
def Hart.forgetByte (key : Nat) (h : Hart) : Hart := { h with oldLines := h.oldLines.eraseP (fun o => o.key == key) }

/-- Whether a store that a switched-out gang left must wait. -/
def passedWaits (s : State) (x : VsqEntry) : Bool := (entryWait s x).isSome

/-- The oldest store a switched-out gang left performed (R318, R46). -/
def performPassed (s : State) (gang : Nat) : State :=
  match s.passed.findIdx? (fun p => p.gang == gang) with
  | some i =>
    match s.passed[i]? with
    | some p =>
      if passedWaits s p.entry then s
      else
        let s1 := { s with passed := s.passed.eraseIdx i }
        performEntry p.entry s1
    | none => s
  | none => s

/-- STORE_PERFORMED. -/
def execStorePerformed (source : StoreSource) (s : State) : Res :=
  match source with
  | .hart hid => s.withHart hid (fun t => .next (performOldest t))
  | .passed gang => .next (performPassed s gang)

/-! ARRIVAL_POINTER_ADVANCE (R298). -/

/-- The offset of a byte in a bank, none where it lies elsewhere. -/
def offsetIn (core bank key : Nat) : Option Nat :=
  match bankOfKey key with
  | some (c, b, o) => if c = core ∧ b = bank then some o else none
  | none => none

/-- Whether a write lies in a bank below an offset. -/
def landsBelow (core bank limit : Nat) (w : ByteWrite) : Bool := (offsetIn core bank w.key).any (fun o => decide (o < limit))

/-- The end of an entry's bytes in a bank, rounded up to a multiple of 8. -/
def bankEnd (core bank : Nat) (x : VsqEntry) : Nat :=
  ceilDiv ((x.writes.filterMap (fun w => offsetIn core bank w.key)).foldl (fun m o => max m (o + 1)) 0) 8 * 8

/-- The barriers of a hart's gang settled where the hart has halted and its last store has been performed (R357, R382). -/
def settleHart (s : State) (hid : Nat) : State :=
  match s.findHart hid with
  | some h => if h.isDone then (s.gangOf h).elim s (settleBarriers s) else s
  | none => s

/-- The bytes of an arrival copy below an offset of a bank performed; what has landed keeps an empty mask, and a copy of which every
byte has landed is done. -/
def landBytes (s : State) (hid i core bank limit : Nat) (x : VsqEntry) : State :=
  let s1 := storeBytes (x.pending.filter (landsBelow core bank limit)) s
  let x1 := { x with writes := x.writes.map (fun w =>
    if landsBelow core bank limit w then { w with mask := 0#8, poison := false } else w) }
  match s1.findHart hid with
  | some h =>
    if x1.pending.isEmpty then settleHart (performEntry x1 (s1.putHart { h with vsq := h.vsq.eraseIdx i })) hid
    else setArrival (s1.putHart { h with vsq := h.vsq.set i x1 }) core bank (some limit)
  | none => s1

/-- The arrival copy in flight to a bank: its hart, its place in the VSQ and its entry. -/
def copyInFlight (s : State) (core bank : Nat) : Option (Nat × Nat × VsqEntry) :=
  s.harts.findSome? (fun h => ((h.vsq.zipIdx).find? (fun x =>
    x.1.arrival && x.1.writes.any (fun w => (offsetIn core bank w.key).isSome))).map (fun x => (h.hid, x.2, x.1)))

/-- The pointer of a bank advanced by some bytes, in steps of 8, over what the copy in flight has brought. -/
def advanceArrival (s : State) (core bank bytes : Nat) : State :=
  match copyInFlight s core bank with
  | some (hid, i, x) =>
    let ap := arrivalPointer s core bank
    let limit := min (ap + bytes / 8 * 8) (bankEnd core bank x)
    if ap < limit ∧ passedWaits s x = false then (landBytes s hid i core bank limit x).wake .memory else s
  | none => s

/-- ARRIVAL_POINTER_ADVANCE. -/
def execArrivalPointerAdvance (core bank bytes : Nat) (s : State) : Res := .next (advanceArrival s core bank bytes)

/-! Near-memory commands (R339 to R341). -/

/-- An element of a line by its operation, in the command's format: RNE, canonical NaN, no flag (R339). -/
def nmElement (c : NmCommand) (d x : Nat) : Nat :=
  let f : FFmt := if c.fmt = 0 then .fp32 else .bf16
  let a := decodeFloat .fp32 c.a.toNat
  let b := decodeFloat .fp32 c.b.toNat
  let dv := decodeFloat f d
  let sv := decodeFloat f x
  match c.op with
  | 0 => 0
  | 1 => x
  | 2 => (fAdd f .rne dv sv).1
  | 3 => (fMul f .rne a dv).1
  | 4 => (fAdd f .rne (fMulExact a sv) (fMulExact b dv)).1
  | _ => (fAdd f .rne (fMulExact a dv) (fMulExact b sv).negate).1

/-- The 64 bytes a command gives a line. -/
def nmLineBytes (c : NmCommand) (d x : List Byte) : List Byte :=
  let w := if c.fmt = 0 then 4 else 2
  (List.range (64 / w)).flatMap (fun i =>
    toBytes w (nmElement c (ofBytes ((d.drop (w * i)).take w)) (ofBytes ((x.drop (w * i)).take w))))

/-- A command replaced by its place. -/
def State.setCommand (s : State) (i : Nat) (c : NmCommand) : State := { s with nq := s.nq.set i c }

/-- Some bytes written by a base die: every aperture class sees them (R340 step 4, R377). -/
def storeLine (key : Nat) (bs : List Byte) (s : State) : State :=
  let t := storeRun key bs s
  { t with stale := t.stale.filter (fun x => !(decide (key ≤ x.key) && decide (x.key < key + bs.length))) }

/-- The bytes of a line as they are, kept for the vector loads of the command's hart where the schedule lets them read them still
(R340; log 8). -/
def Hart.keepOld (c : NmCommand) (old : List (Nat × Byte)) (h : Hart) : Hart :=
  if h.holdLines && h.gang == some c.gang && h.rank == c.rank then
    let n := h.oldLines.foldl (fun m o => max m o.event) 0 + 1
    { h with
      oldLines := h.oldLines ++ old.map (fun o => ⟨o.1, o.2, n⟩), taint := if h.oldLines.isEmpty then 0#33 else h.taint,
      vectorTaint := !h.oldLines.isEmpty && h.vectorTaint }
  else h

/-- The old bytes of a line kept for the command's hart. -/
def State.keepOld (s : State) (c : NmCommand) (key : Nat) : State :=
  let old := (keysFrom (key / 64 * 64) 64).map (fun k => (k, readKey s k))
  { s with hart := s.hart.keepOld c old, others := s.others.map (Hart.keepOld c old) }

/-- A line skipped: its destination poisoned and unchanged, the error entered (R341, R398). -/
def skipLine (s : State) (i : Nat) (c : NmCommand) (line key : Nat) : State :=
  let s1 := s.setCommand i { c with skipped := line :: c.skipped, lastTime := s.time }
  recordError { s1 with poison := addPoison s1.poison ⟨key / 64 * 64, 64⟩ } .nearMemory (key / 64 * 64) 9

/-- NM_LINE_APPLY: one line of a command, as one event, its pages stored as kind 0 when it reaches them (R301, R339, R341). -/
def applyLine (s : State) (i line : Nat) : State :=
  match s.nq[i]? with
  | some c =>
    match c.dst[line]? with
    | some key =>
      let source := c.src[line]?
      if c.done.contains line || c.skipped.contains line || lineLocked s key || source.any (lineLocked s) then s
      else
        let s1 := (key :: source.toList).foldl (fun t k => setPageKind t (k / 4096) 0) s
        if anyPoison s key 64 || source.any (fun k => anyPoison s k 64) then skipLine s1 i c line key
        else
          let bs := nmLineBytes c (readKeys s key 64) ((source.map (fun k => readKeys s k 64)).getD [])
          storeLine key bs ((s1.keepOld c key).setCommand i { c with done := line :: c.done, lastTime := s.time })
    | none => s
  | none => s

/-- NM_LINE_APPLY. -/
def execNmLineApply (cmd line : Nat) (s : State) : Res := .next ((applyLine s cmd line).wake .nmDrain)

/-- A completion record (R341). -/
def recordBytes (c : NmCommand) : List Byte :=
  toBytes 4 (if c.skipped = [] then 1 else 2) ++ toBytes 4 c.tag.toNat ++ wordBytes c.lastTime ++ toBytes 4 c.done.length ++
  toBytes 4 ((leastOf c.skipped).getD 0xFFFFFFFF) ++ toBytes 8 0 ++
  toBytes 32 (c.done.foldl (fun m l => m ||| 2 ^ l) 0)

/-- A near-memory error made pending on a hart that has not halted, unless one is (R341, R364). -/
def Hart.noteNmError (c : NmCommand) (h : Hart) : Hart :=
  if h.gang = some c.gang ∧ h.rank = c.rank ∧ h.isHalted = false ∧ h.nmError = none then { h with nmError := some c.recordAddr } else h

/-- The error made pending on the command's hart, wherever its gang is. -/
def State.noteNmError (s : State) (c : NmCommand) : State :=
  { s with
    hart := s.hart.noteNmError c, others := s.others.map (Hart.noteNmError c),
    gangs := s.gangs.map (fun g => { g with saved := g.saved.map (fun v => { v with harts := v.harts.map (Hart.noteNmError c) }) }) }

/-- Bytes of a completion record written: the translated access that the command made for it stores its page with its kinds (R301). -/
def writeRecord (c : NmCommand) (off : Nat) (bs : List Byte) (s : State) : State :=
  c.kinds.foldl (fun t k => setPageKind t k.1 k.2) (storeLine (c.record + off) bs s)

/-- NM_COMPLETION_RECORD: after every line, bytes 0x08 to 0x3F of the record; then the status and the tag, and the NQ entry is freed
(R340, R341, R423). -/
def recordCommand (s : State) (i : Nat) : State :=
  match s.nq[i]? with
  | some c =>
    if c.linesDone = true ∧ lineLocked s c.record = false then
      if c.half then
        let s1 := writeRecord c 0 ((recordBytes c).take 8) { s with nq := s.nq.eraseIdx i }
        let s2 := if c.skipped = [] then s1 else s1.noteNmError c
        (s2.wake .nmDrain).wake .nmRoom
      else writeRecord c 8 ((recordBytes c).drop 8) (s.setCommand i { c with half := true })
    else s
  | none => s

/-- NM_COMPLETION_RECORD. -/
def execNmCompletionRecord (cmd : Nat) (s : State) : Res := .next (recordCommand s cmd)

end Sys2Proof.Machine
end

