-- ==== Sys2Proof/Machine/DispEvents.lean ====
section
/-! DEFINITION. Events of the dispatchers (R24 to R49, R350, R351, R468) and what comes to a hart from outside its streams: an
interrupt (R403), a fatal error (R409), termination by the supervisor (R48). An event whose condition does not hold changes
nothing. -/

namespace Sys2Proof.Machine

/-- A step of a gang that is in use. -/
def onGang (key : Nat) (f : State → Gang → State) (s : State) : Res :=
  .next (match s.findGang key with | some g => f s g | none => s)

/-! Queues and placement. -/

/-- LAUNCH_CHECK (R24). -/
def execLaunchCheck (queue : Nat) (s : State) : Res := .next (checkHead s queue)

/-- QUEUE_HEAD_AGING (R25). -/
def execQueueHeadAging (queue : Nat) (s : State) : Res := .next (ageQueue s queue)

/-- GANG_PLACEMENT (R27, R40). -/
def execGangPlacement (die : Nat) (s : State) : Res := .next (placeNext s die)

/-- GANG_RESTORE (R468). -/
def execGangRestore (die : Nat) (s : State) : Res := .next (restoreNext s die)

/-- A change made by another hart of the device where it runs, the current hart kept. -/
def State.asHart (s : State) (hid : Nat) (f : State → State) : State :=
  if (s.findHart hid).isSome then
    let t := s.switchTo hid
    (if t.hart.run = .running then f t else t).switchTo s.hart.hid
  else s

/-- The harts of a core that wait for desk, by number. -/
def deskWaiters (s : State) (core : Nat) : List Nat :=
  risingOf ((s.harts.filter (fun h => coreOfHart h.hid == core && h.wait == some .desk)).map Hart.hid)

/-- Freed registers given to the harts of a core that wait for desk, in ascending hart order (R39). -/
def deskHandOut (s : State) (core : Nat) : State :=
  (deskWaiters s core).foldl (fun t hid => t.asHart hid (retryHead (· == .desk))) s

/-- A gang that gives way switched out; where it gives way to harts that wait for desk, they get its registers (R39). -/
def switchGiving (s : State) (g : Gang) : State :=
  if givesWay s g then
    if (deskVictim s g.core).any (fun v => v.key == g.key) then deskHandOut (switchOut s g) g.core else switchOut s g
  else s

/-- FULL_CONTEXT_SWITCH (R38, R39, R46). -/
def execFullContextSwitch (gang : Nat) (s : State) : Res := onGang gang switchGiving s

/-- TIME_SLICE_EXPIRY (R45, R361). A gang whose instructions hold line locks completes them first (R47). -/
def execTimeSliceExpiry (gang : Nat) (s : State) : Res :=
  onGang gang (fun t g => if gangLocks t g then t else expireSlice t g) s

/-- HELD_SUCCESSOR_ENTERS_QUEUE (R350). -/
def execHeldSuccessorEntersQueue (queue : Nat) (s : State) : Res := .next (heldEnters s queue)

/-- LQ_RECORD_ENTERS_QUEUE (R351). -/
def execLqRecordEntersQueue (hid : Nat) (s : State) : Res := s.withHart hid (fun t => .next (lqEnters t))

/-! Reclaims (R41, R43). -/

/-- The stopped `setl` of a hart completed. -/
def completeStopped (s : State) (hid : Nat) : State := s.asHart hid headRun

/-- A reclaim taking effect: lanes and desks, then every stopped `setl`, in one step (R41). -/
def takeReclaim (s : State) (g : Gang) : State :=
  match g.reclaim with
  | some r => if allStopped s g then g.harts.foldl completeStopped (applyReclaim s g r) else s
  | none => s

/-- RECLAIM_TAKES_EFFECT (R41). -/
def execReclaimTakesEffect (gang : Nat) (s : State) : Res := onGang gang takeReclaim s

/-- RECLAIM_ABANDON (R43). -/
def execReclaimAbandon (gang : Nat) (s : State) : Res := onGang gang abandonReclaim s

/-! Retirement (R48, R49). -/

/-- GANG_RETIRE (R48). -/
def execGangRetire (gang : Nat) (s : State) : Res := onGang gang (fun t g => if gangFinished t g then retireGang t g else t) s

/-- LAUNCH_COMPLETE (R49). -/
def execLaunchComplete (launch : Nat) (s : State) : Res :=
  .next (match s.findLaunch launch with
    | some l => if launchDone s l then completeLaunch s l else s
    | none => s)

/-! What comes to a hart. -/

/-- The current hart terminated: its work discarded, its launch marked, the barriers of its gang settled (R48, R357). -/
def terminateNow (s : State) : State := (s.dropWork.terminateHart.settleOwn).wake .lineLock

/-- SUPERVISOR_TERMINATE (R48). -/
def execSupervisorTerminate (hid : Nat) (s : State) : Res := onRunning hid terminateNow s

/-- HART_FATAL_ERROR (R409): the hart terminated, the error counted and the report card written to flash (R444, R445). -/
def execHartFatalError (hid : Nat) (s : State) : Res := onRunning hid (fun t => countFatal (terminateNow t)) s

/-- Causes of interrupts in the base's order of priority. -/
def interruptOrder : List Nat := [11, 3, 7, 9, 1, 5]

/-- Whether an interrupt of a cause may be taken in the hart's mode, as the base has it. -/
def Hart.takesInterrupt (h : Hart) (cause : Nat) : Bool :=
  (h.mip &&& h.mie).getLsbD cause &&
  (if h.mideleg.getLsbD cause then
     (match h.mode with | .user => true | .supervisor => h.mstatus.getLsbD 1 | .machine => false)
   else (match h.mode with | .machine => h.mstatus.getLsbD 3 | _ => true))

/-- The pending interrupt a hart takes next: those for M mode before those for S mode. -/
def Hart.nextInterrupt (h : Hart) : Option Nat :=
  (interruptOrder.find? (fun c => !(h.mideleg.getLsbD c) && h.takesInterrupt c)).or
    (interruptOrder.find? (fun c => h.takesInterrupt c))

/-- INTERRUPT (R403): taken at a scalar boundary with no vector work; until then the hart only drains its vector stream. -/
def takeInterrupt (s : State) : State :=
  match s.hart.nextInterrupt with
  | some cause => if s.hart.hasVectorWork then s.drainFirst else s.takeTrap cause true s.hart.pc 0#64
  | none => s

/-- INTERRUPT (R403). -/
def execInterrupt (hid : Nat) (s : State) : Res := onRunning hid takeInterrupt s

end Sys2Proof.Machine
end

