-- ==== Sys2Proof/Machine/Power.lean ====
section
/-! DEFINITION. The timebase (R428, R429), the string arbiter (R435 to R439), the power manager (R440) and lane gating (R441). An
event whose condition does not hold changes nothing. -/

namespace Sys2Proof.Machine

/-! The timebase. -/

/-- Whether a step of a correction may be made: none was made within the last microsecond (R429). -/
def slewDue (s : State) : Bool := s.slew != 0 && s.slewed.all (fun t => decide (1000 ≤ (s.time - t).toNat))

/-- What one edge of the reference adds: 4 ns, one more or one less where a step of a correction is made (R428, R429). -/
def tickStep (s : State) : Nat × Int :=
  if slewDue s = false then (4, s.slew)
  else if 0 < s.slew then (5, s.slew - 1)
  else (3, s.slew + 1)

/-- Every head aged by the time that has passed (R25). -/
def ageHeads (s : State) : State := { s with queues := s.queues.map (agedHead s.time) }

/-- TIMEBASE_TICK (R428). -/
def tick (s : State) : State :=
  let (d, slew) := tickStep s
  let now := s.time + BitVec.ofNat 64 d
  ageHeads { s with time := now, slew := slew, slewed := if slewDue s then some now else s.slewed }

/-- TIMEBASE_TICK (R428). -/
def execTimebaseTick (s : State) : Res := .next (tick s)

/-- TIMESTAMP_EXCHANGE: a correction, to be slewed by at most 1 ns per µs (R429, R462); the Shofin ports of a device whose boot stopped are
untrained and exchange nothing (R463). -/
def execTimestampExchange (correction : Int) (s : State) : Res := .next (if s.booted then { s with slew := correction } else s)

/-! Plans, in units of 1/512 of a unit of R435, so that every quantity is whole. -/

/-- The current class that a micro-op's opcode fixes (R435): VI and VF by the operation's page and f4, VM and VP whole, VA by its
matrix and anchored operations, VC and scalar work none. -/
def currentClass (w : InstrWord) : Nat :=
  let f4 := (w.extractLsb' 28 4).toNat
  let extended := decide (6 ≤ (w.extractLsb' 12 3).toNat)
  match (w.extractLsb' 0 7).toNat with
  | 0x0B => if (if extended then [2, 3, 4, 5, 6, 10] else [3, 4, 13]).contains f4 then 2 else 1
  | 0x2B => 2
  | 0x57 => 1
  | 0x5B => 1
  | 0x7B => if extended then (if f4 < 4 then 3 else 1) else if f4 = 13 then 3 else if f4 = 3 then 2 else 1
  | _ => 0

/-- Whether a micro-op holds no element group: `mzero` and `mscale`, which count as 16 lanes (R435). -/
def holdsNoGroup (w : InstrWord) : Bool :=
  let f4 := (w.extractLsb' 28 4).toNat
  (w.extractLsb' 0 7).toNat == 0x7B && decide ((w.extractLsb' 12 3).toNat < 6) && (f4 == 12 || f4 == 15)

/-- The lanes of a micro-op: those of its gang's mask in which its element group holds an element below `vl`; 16 where it holds no element
group (R435). -/
def microLanes (m : MicroOp) : Nat :=
  if holdsNoGroup m.word then 16 else popCount 16 (liveLanes m.quads (m.vl * m.width) m.index).toNat

/-- The weight of a micro-op in halves of a unit: 24 or 56 by 16ths of its lanes; class 3 weighs by the cycles of the matrix unit
(R435). -/
def microWeight (m : MicroOp) : Nat :=
  let lanes := microLanes m
  match currentClass m.word with
  | 1 => 3 * lanes
  | 2 => 7 * lanes
  | _ => 0

/-- The weights of a window's micro-ops in halves of a unit, and 160 for each cycle the matrix unit is occupied (R435). -/
def planWeight (c : CorePlan) : Nat := (c.ops.map microWeight).foldl (· + ·) 0 + 320 * (16 - c.idleMatrix)

/-- The plan of a core at a step with some busywork cycles (R435, R438, R439). -/
def planAt (step n : Nat) (c : CorePlan) : Nat := 8192 + (planWeight c + 320 * n) * (16 - step)

/-- The four plans of a string's window. -/
def planList (p : WindowPlans) : List CorePlan := [p.c0, p.c1, p.c2, p.c3]

/-- The largest of some numbers. -/
def maxOf (l : List Nat) : Nat := l.foldl max 0

/-- The smallest of some numbers, 0 for none. -/
def minOf (l : List Nat) : Nat := (leastOf l).getD 0

/-- The largest spread a window may have: 60 units (R436). -/
def spreadLimit : Nat := 30720

/-- Whether some plans fit. -/
def spreadFits (ps : List Nat) : Bool := decide (maxOf ps ≤ minOf ps + spreadLimit)

/-- Busywork cycles of a core that must reach a plan: the smallest number that does, or every idle cycle (R439). -/
def busyCycles (step target : Nat) (c : CorePlan) : Nat :=
  ((List.range (c.idleMatrix + 1)).find? (fun n => decide (target ≤ planAt step n c))).getD c.idleMatrix

/-- The busywork of the four cores at a step (R437, R439). -/
def busyworkAt (step : Nat) (cs : List CorePlan) : List Nat :=
  let ps := cs.map (planAt step 0)
  if spreadFits ps then cs.map (fun _ => 0)
  else cs.map (fun c => if maxOf ps ≤ planAt step 0 c + spreadLimit then 0 else busyCycles step (maxOf ps - spreadLimit) c)

/-- The plans at a step with some busywork. -/
def plansWith (step : Nat) (cs : List CorePlan) (ns : List Nat) : List Nat := (List.zip cs ns).map (fun x => planAt step x.2 x.1)

/-- The busywork a remedy uses at a step. -/
def remedyWork (throttle : Bool) (step : Nat) (cs : List CorePlan) : List Nat :=
  if throttle then cs.map (fun _ => 0) else busyworkAt step cs

/-- Whether a window fits at a step under a remedy. -/
def fitsAt (throttle : Bool) (step : Nat) (cs : List CorePlan) : Bool :=
  spreadFits (plansWith step cs (remedyWork throttle step cs))

/-- The smallest step from `least` at which a window fits (R437). -/
def neededStep (throttle : Bool) (least : Nat) (cs : List CorePlan) : Nat :=
  (((List.range 13).drop least).find? (fun k => fitsAt throttle k cs)).getD 12

/-- Busywork cycles of the last 4096 cycles (R437). -/
def shareOf (l : List Nat) : Nat := (l.take 256).foldl (· + ·) 0

/-- Whether policy 10 throttles in the next window (R437). -/
def SeriesString.tenThrottles (x : SeriesString) : Bool :=
  let shares := x.shares.toList.map shareOf
  if x.throttling then !(shares.all (fun n => decide (n ≤ 8 * x.limit.toNat)))
  else shares.any (fun n => decide (16 * x.limit.toNat < n))

/-- Whether the policy of a string throttles in the next window. -/
def SeriesString.throttles (x : SeriesString) : Bool :=
  x.pol == 1#2 || (x.pol == 2#2 && x.tenThrottles)

/-- A core's deviation from the series current, the midpoint of the largest and the smallest plan, rounded to the nearest unit (R181,
R436); the measured current is the plan (log 15). -/
def deviation (ps : List Nat) (p : Nat) : Int := rneDiv (2 * (p : Int) - ((maxOf ps + minOf ps : Nat) : Int)) 1024

/-- `strbal` from four plans (R181). -/
def strbalOf (ps : List Nat) : Word :=
  BitVec.ofNat 64 (ps.foldr (fun p acc => ofSigned 16 (deviation ps p) + 2 ^ 16 * acc) 0)

/-- The state of a string after a window (R437, R438): its step, its counts and what `strbal` shows. -/
def SeriesString.window (x : SeriesString) (plans : WindowPlans) : SeriesString :=
  let cs := (planList plans)
  let throttle := x.throttles
  let need := neededStep throttle x.minStep cs
  let step := max x.step need
  let ns := remedyWork throttle step cs
  { x with
    step := step, throttling := x.pol == 2#2 && throttle, strbal := strbalOf (plansWith step cs ns),
    fits := if need < step then x.fits + 1 else 0,
    shares := Vector.ofFn (fun (i : Fin 4) => ((ns.getD i.val 0) :: x.shares[i]).take 256) }

/-- Gated lanes of a core. -/
def CoreState.gatedLanes (c : CoreState) : Nat := popCount 16 c.gated.toNat

/-- The core events of one window of one core (R433). -/
def countWindow (s : State) (core step busy : Nat) (c : CorePlan) : State :=
  ((((s.countCore core 1 busy).countCore core 2 (if step = 0 then 0 else 16)).countCore core 6 16).countCore core 9
    (16 - c.idleMatrix)).countCore core 0x19 (16 * (s.core core).gatedLanes)

/-- A string replaced. -/
def State.setString (s : State) (n : Nat) (x : SeriesString) : State := { s with strings := s.strings.setIfInBounds n x }

/-- A move from step 0 counted in the report card (R444). -/
def countThrottle (s : State) (n : Nat) : State :=
  { s with report := { s.report with throttles := s.report.throttles.setIfInBounds n (bump32 ((s.report.throttles[n]?).getD 0)) } }

/-- STRING_WINDOW (R437). -/
def runWindow (s : State) (n : Nat) (plans : WindowPlans) : State :=
  match s.strings[n]? with
  | some x =>
    let y := x.window plans
    let s1 := s.setString n y
    let s2 := if x.step = 0 ∧ y.step ≠ 0 then countThrottle s1 n else s1
    (List.range 4).foldl (fun t i =>
      countWindow t (4 * n + i) y.step (((y.shares.toList.getD i []).head?).getD 0) ((planList plans).getD i ⟨[], 16⟩)) s2
  | none => s

/-- STRING_WINDOW (R437). -/
def execStringWindow (string : Nat) (plans : WindowPlans) (s : State) : Res := .next (runWindow s string plans)

/-- STRING_STEP_UP: one step up after 16 windows in a row that would have fitted there (R438). -/
def execStringStepUp (string : Nat) (s : State) : Res :=
  match s.strings[string]? with
  | some x =>
    .next (if 16 ≤ x.fits ∧ x.minStep < x.step then s.setString string { x with step := x.step - 1, fits := 0 } else s)
  | none => .next s

/-! The power manager (R440). -/

/-- The highest set bit of the chaining-permission mask. -/
def highestBit (m : BitVec 6) : Option Nat := [5, 4, 3, 2, 1, 0].find? (fun b => m.getLsbD b)

/-- The region whose row-activation window can still be lengthened: the one named, else the first. -/
def regionToCut (s : State) (region : Nat) : Option Nat :=
  ([region, 0, 1, 2, 3]).find? (fun n => (s.regions[n]?).any (fun r => decide (r.window + 8 ≤ 64)))

/-- The limit on sustained module power, in mW (R17, R440). -/
def powerLimit : Nat := 2400000

/-- Whether a period's reading asks for a cut: the mean power over the last 10 ms is above its limit, or a die is too hot (R440). -/
def mustCut (r : PowerReading) : Bool := decide (powerLimit < r.milliwatts) || r.hot

/-- A power action noted, so that it can be undone. -/
def State.noteAction (s : State) (a : PowerAction) : State := { s with powerActions := a :: s.powerActions }

/-- The first action that is not exhausted taken (R440). -/
def cutPower (s : State) (r : PowerReading) : State :=
  let c := s.core r.largestPlanCore
  let n := r.largestPlanCore / 4
  match regionToCut s r.region with
  | some k =>
    match s.regions[k]? with
    | some x => (s.setRegion k { x with window := x.window + 8 }).noteAction (.lengthenWindow k)
    | none => s
  | none =>
    match highestBit c.chainperm with
    | some b =>
      (writeChainperm s r.largestPlanCore (c.chainperm &&& ~~~(BitVec.ofNat 6 (2 ^ b))).toNat).noteAction
        (.narrowChain r.largestPlanCore b)
    | none =>
      if 1 < c.ceilq.toNat then
        (s.setCore r.largestPlanCore { c with ceilq := c.ceilq - 1#3 }).noteAction (.lowerCeiling r.largestPlanCore)
      else
        match s.strings[n]? with
        | some x =>
          if x.minStep < 12 then
            let s1 := s.setString n { x with minStep := x.minStep + 1, step := max x.step (x.minStep + 1) }
            (if x.step = 0 then countThrottle s1 n else s1).noteAction (.raiseStep n)
          else s
        | none => s

/-- The latest action undone. -/
def undoAction (s : State) (a : PowerAction) : State :=
  match a with
  | .lengthenWindow k =>
    match s.regions[k]? with
    | some x => s.setRegion k { x with window := max 16 (x.window - 8) }
    | none => s
  | .narrowChain core b => writeChainperm s core ((s.core core).chainperm ||| BitVec.ofNat 6 (2 ^ b)).toNat
  | .lowerCeiling core =>
    s.setCore core { s.core core with ceilq := if (s.core core).ceilq.toNat < 4 then (s.core core).ceilq + 1#3 else (s.core core).ceilq }
  | .raiseStep n =>
    match s.strings[n]? with
    | some x => s.setString n { x with minStep := x.minStep - 1 }
    | none => s

/-- POWER_MANAGER_PERIOD (R440). -/
def powerPeriod (s : State) (r : PowerReading) : State :=
  if mustCut r then cutPower s r
  else if r.restore then
    match s.powerActions with
    | a :: rest => { undoAction s a with powerActions := rest }
    | [] => s
  else s

/-- POWER_MANAGER_PERIOD (R440). -/
def execPowerManagerPeriod (reading : PowerReading) (s : State) : Res := .next (powerPeriod s reading)

/-! Lane gating (R441). -/

/-- A lane of a core gated or awake; a lane in no gang's mask stays gated (R441). -/
def setGate (s : State) (core lane : Nat) (gated : Bool) : State :=
  if lane < 16 ∧ (gated = true ∨ (quadUnion (placedOn s core [])).testBit (lane / 4) = true) then
    let c := s.core core
    let bit := BitVec.ofNat 16 (2 ^ lane)
    s.setCore core { c with gated := if gated then c.gated ||| bit else c.gated &&& ~~~bit }
  else s

/-- LANE_POWER_GATE (R441). -/
def execLanePowerGate (core lane : Nat) (s : State) : Res := .next (setGate s core lane true)

/-- LANE_WAKE (R441). -/
def execLaneWake (core lane : Nat) (s : State) : Res := .next (setGate s core lane false)

end Sys2Proof.Machine
end

