-- ==== Sys2Proof/Machine/ScalarBase.lean ====
section
/-! DEFINITION. The RV64 scalar base (R111 to R117): integer, multiply, bit-manipulation, load, store, atomic, floating-point
and system instructions, and the illegal-instruction exception of R123. -/

namespace Sys2Proof.Machine

/-! Integer operations on 64-bit values. -/

/-- The low 32 bits of a word, sign-extended. -/
def sext32 (x : Word) : Word := (x.truncate 32 : BitVec 32).signExtend 64

/-- The low 32 bits of a word, zero-extended. -/
def zext32 (x : Word) : Word := (x.truncate 32 : BitVec 32).setWidth 64

/-- A truth value as a register value. -/
def boolWord (b : Bool) : Word := if b then 1#64 else 0#64

/-- Signed division of the base at a width: −1 for a zero divisor; the most negative value divided by −1 is itself. -/
def divSigned (w : Nat) (a b : Int) : Int := if b = 0 then -1 else if a = -(2 ^ (w - 1) : Nat) ∧ b = -1 then a else Int.tdiv a b

/-- Signed remainder of the base at a width. -/
def remSigned (w : Nat) (a b : Int) : Int := if b = 0 then a else if a = -(2 ^ (w - 1) : Nat) ∧ b = -1 then 0 else Int.tmod a b

/-- Unsigned division of the base: all ones for a zero divisor. -/
def divUnsigned (w a b : Nat) : Nat := if b = 0 then 2 ^ w - 1 else a / b

/-- Unsigned remainder of the base. -/
def remUnsigned (a b : Nat) : Nat := if b = 0 then a else a % b

/-- Leading zeros of the low `w` bits. -/
def leadingZeros (w x : Nat) : Nat := w - bitLen (x % 2 ^ w)

/-- An integer as a register value. -/
def ofInt64 (i : Int) : Word := BitVec.ofInt 64 i

/-- Rotation of a `w`-bit number left by `k`. -/
def rotlNat (w x k : Nat) : Nat := (x * 2 ^ (k % w) + x / 2 ^ (w - k % w)) % 2 ^ w

/-- OP operations. -/
def regOp (op : RegOp) (a b : Word) : Word :=
  let sh := b.toNat % 64
  match op with
  | .add => a + b
  | .sub => a - b
  | .sll => a <<< sh
  | .slt => boolWord (decide (a.toInt < b.toInt))
  | .sltu => boolWord (decide (a < b))
  | .xor => a ^^^ b
  | .srl => a >>> sh
  | .sra => a.sshiftRight sh
  | .or => a ||| b
  | .and => a &&& b
  | .mul => a * b
  | .mulh => ofInt64 (a.toInt * b.toInt / (2 ^ 64 : Nat))
  | .mulhsu => ofInt64 (a.toInt * (b.toNat : Int) / (2 ^ 64 : Nat))
  | .mulhu => w64 (a.toNat * b.toNat / 2 ^ 64)
  | .div => ofInt64 (divSigned 64 a.toInt b.toInt)
  | .divu => w64 (divUnsigned 64 a.toNat b.toNat)
  | .rem => ofInt64 (remSigned 64 a.toInt b.toInt)
  | .remu => w64 (remUnsigned a.toNat b.toNat)
  | .sh1add => (a <<< 1) + b
  | .sh2add => (a <<< 2) + b
  | .sh3add => (a <<< 3) + b
  | .andn => a &&& ~~~b
  | .orn => a ||| ~~~b
  | .xnor => ~~~(a ^^^ b)
  | .max => if a.toInt < b.toInt then b else a
  | .maxu => if a < b then b else a
  | .min => if a.toInt < b.toInt then a else b
  | .minu => if a < b then a else b
  | .rol => w64 (rotlNat 64 a.toNat sh)
  | .ror => w64 (rotlNat 64 a.toNat (64 - sh))
  | .czeroEqz => if b = 0#64 then 0#64 else a
  | .czeroNez => if b = 0#64 then a else 0#64

/-- OP-32 operations. -/
def regWOp (op : RegWOp) (a b : Word) : Word :=
  let sh := b.toNat % 32
  let x : BitVec 32 := a.truncate 32
  let y : BitVec 32 := b.truncate 32
  let s (r : BitVec 32) : Word := r.signExtend 64
  match op with
  | .addw => s (x + y)
  | .subw => s (x - y)
  | .sllw => s (x <<< sh)
  | .srlw => s (x >>> sh)
  | .sraw => s (x.sshiftRight sh)
  | .mulw => s (x * y)
  | .divw => s (BitVec.ofInt 32 (divSigned 32 x.toInt y.toInt))
  | .divuw => s (BitVec.ofNat 32 (divUnsigned 32 x.toNat y.toNat))
  | .remw => s (BitVec.ofInt 32 (remSigned 32 x.toInt y.toInt))
  | .remuw => s (BitVec.ofNat 32 (remUnsigned x.toNat y.toNat))
  | .addUw => zext32 a + b
  | .sh1addUw => (zext32 a <<< 1) + b
  | .sh2addUw => (zext32 a <<< 2) + b
  | .sh3addUw => (zext32 a <<< 3) + b
  | .rolw => s (BitVec.ofNat 32 (rotlNat 32 x.toNat sh))
  | .rorw => s (BitVec.ofNat 32 (rotlNat 32 x.toNat (32 - sh)))

/-- OP-IMM operations. -/
def immOp (op : ImmOp) (a i : Word) : Word :=
  match op with
  | .addi => a + i
  | .slti => boolWord (decide (a.toInt < i.toInt))
  | .sltiu => boolWord (decide (a < i))
  | .xori => a ^^^ i
  | .ori => a ||| i
  | .andi => a &&& i

/-- Shifts by an immediate. -/
def shiftOp (op : ShiftOp) (a : Word) (sh : Nat) : Word :=
  match op with
  | .slli => a <<< sh
  | .srli => a >>> sh
  | .srai => a.sshiftRight sh
  | .rori => w64 (rotlNat 64 a.toNat (64 - sh))
  | .slliUw => zext32 a <<< sh

/-- 32-bit shifts by an immediate. -/
def shiftWOp (op : ShiftWOp) (a : Word) (sh : Nat) : Word :=
  let x : BitVec 32 := a.truncate 32
  match op with
  | .slliw => (x <<< sh).signExtend 64
  | .srliw => (x >>> sh).signExtend 64
  | .sraiw => (x.sshiftRight sh).signExtend 64
  | .roriw => (BitVec.ofNat 32 (rotlNat 32 x.toNat (32 - sh))).signExtend 64

/-- One-operand operations of Zbb. -/
def zbbOp (op : UnaryOp) (a : Word) : Word :=
  match op with
  | .clz => w64 (leadingZeros 64 a.toNat)
  | .ctz => w64 (trailingZeros 64 a.toNat)
  | .cpop => w64 (popCount 64 a.toNat)
  | .sextB => (a.truncate 8 : BitVec 8).signExtend 64
  | .sextH => (a.truncate 16 : BitVec 16).signExtend 64
  | .orcB => wordOfBytes ((wordBytes a).map (fun b => if b = 0#8 then 0#8 else 0xFF#8))
  | .rev8 => wordOfBytes (wordBytes a).reverse
  | .clzw => w64 (leadingZeros 32 a.toNat)
  | .ctzw => w64 (trailingZeros 32 a.toNat)
  | .cpopw => w64 (popCount 32 a.toNat)
  | .zextH => (a.truncate 16 : BitVec 16).setWidth 64

/-- Whether a branch is taken. -/
def branchTaken (op : BranchOp) (a b : Word) : Bool :=
  match op with
  | .eq => a == b
  | .ne => a != b
  | .lt => decide (a.toInt < b.toInt)
  | .ge => decide (b.toInt ≤ a.toInt)
  | .ltu => decide (a < b)
  | .geu => decide (b ≤ a)

/-- x[rd] := v, and past the instruction. -/
def writeAdvance (s : State) (rd : XReg) (v : Word) : Res := .next ((s.setX rd v).advance)

/-- A jump to a target, x[rd] written first; a target that is not a multiple of 4 raises the misaligned-address exception with
nothing written (the base). -/
def jumpTo (s : State) (rd : XReg) (target : Word) : Res :=
  if wordField target 0 2 ≠ 0 then .next (s.raise 0 target)
  else .next (((s.setX rd (s.hart.pc + 4#64)).setPc target).retire)

/-- A 12-bit immediate. -/
def imm12 (i : BitVec 12) : Word := i.signExtend 64

/-! Loads, stores and atomics. -/

/-- Bytes of a load. -/
def loadBytes : LoadOp → Nat
  | .lb => 1 | .lh => 2 | .lw => 4 | .ld => 8 | .lbu => 1 | .lhu => 2 | .lwu => 4

/-- The register value of a loaded number. -/
def loadExtend (op : LoadOp) (n : Nat) : Word :=
  match op with
  | .lb => (BitVec.ofNat 8 n).signExtend 64
  | .lh => (BitVec.ofNat 16 n).signExtend 64
  | .lw => (BitVec.ofNat 32 n).signExtend 64
  | .ld | .lbu | .lhu | .lwu => w64 n

/-- Bytes of a store. -/
def storeBytesOf : StoreOp → Nat
  | .sb => 1 | .sh => 2 | .sw => 4 | .sd => 8

/-- The byte that a scalar store still in the queue of the current hart has for a key through an aperture: the latest (R367). -/
def forwarded (s : State) (ap : Aperture) (key : Nat) : Option Byte :=
  ((s.hart.ssq.flatMap VsqEntry.pending).reverse.find? (fun w => w.ap == ap && w.key == key)).map (fun w => w.value)

/-- The poisoned units as the scalar stores still in the queue of the current hart will leave them: a store to a part of a poisoned unit
leaves it poisoned (R304). -/
def queuedPoison (s : State) : List PoisonUnit :=
  s.hart.ssq.foldl (fun us x => poisonAfter (x.pending.filter (lands s)) us) s.poison

/-- A byte as the scalar stream of the current hart reads it, with whether it is poisoned: the value of its own stores, else memory
(R304, R367, R377). -/
def scalarByte (s : State) (ap : Aperture) (key : Nat) : Byte × Bool :=
  ((forwarded s ap key).getD (readThrough s ap key), keyPoisoned { s with poison := queuedPoison s } key)

/-- The bytes of a piece as the scalar stream reads them. -/
def scalarBytes (s : State) (c : Piece) : List (Byte × Bool) := (keysFrom c.key c.len).map (scalarByte s c.ap)

/-- An atomic operation at a width. -/
def amoNew (op : AmoOp) (w old v : Nat) : Nat :=
  match op with
  | .swap => v
  | .add => (old + v) % 2 ^ w
  | .xor => old ^^^ v
  | .and => old &&& v
  | .or => old ||| v
  | .min => if toSigned w old ≤ toSigned w v then old else v
  | .max => if toSigned w old ≤ toSigned w v then v else old
  | .minu => min old v
  | .maxu => max old v

/-- The value an atomic of `n` bytes writes to rd. -/
def amoResult (n old : Nat) : Word := if n = 4 then (BitVec.ofNat 32 old).signExtend 64 else w64 old

/-- The format of an F or D instruction. -/
def fdFormat (dbl : Bool) : FFmt := if dbl then .fp64 else .fp32

/-- f[r] := a code of a format, NaN-boxed. -/
def Hart.setFd (h : Hart) (dbl : Bool) (r : XReg) (code : Nat) : Hart :=
  (h.setF r (if dbl then w64 code else box32 code)).dirtyFp

/-- The writes of a scalar store to a piece, with the mark of its access. -/
def scalarEntry (c : Piece) (bs : List Byte) (mark : Option LeafMark) : VsqEntry :=
  ⟨throughPieces [c] (runWrites c.key bs), pieceKinds [c], false, [], mark.toList⟩

/-- What a hart's registers become once a scalar access of `n` bytes has read a number. -/
def ScalarRead.put (r : ScalarRead) (n v : Nat) (h : Hart) : Hart :=
  match r with
  | .load op rd => h.setX rd (loadExtend op v)
  | .fload dbl rd => h.setFd dbl rd v
  | .amo _ rd _ => h.setX rd (amoResult n v)

/-- The piece a scalar access that is still to be performed reads. -/
def ScalarLoad.piece (l : ScalarLoad) : Piece := ⟨l.va.toNat, l.len, l.ap, l.key, l.kind⟩

/-- What an access that reads leaves in memory once it has read a number: an atomic its store; a load its mark (R388), and kind 0 through
the near-memory aperture (R301). -/
def ScalarLoad.leave (l : ScalarLoad) (v : Nat) (s : State) : State :=
  match l.read with
  | .amo op _ operand => performEntry (scalarEntry l.piece (toBytes l.len (amoNew op (8 * l.len) v operand)) l.mark) s
  | _ =>
    let s1 := l.mark.elim s s.applyMark
    if l.ap = .nearMemory then setPageKind s1 (l.key / 4096) 0 else s1

/-- A scalar load or atomic of the current hart performed with the number its bytes hold (R112). -/
def State.finishLoad (s : State) (l : ScalarLoad) (v : Nat) : State := (l.leave v s).onHart (l.read.put l.len v)

/-- A scalar load or atomic performed after the step that issued it: with the number its bytes hold now, or with the one they held then
where a byte has been poisoned since (log 54). -/
def State.performLoad (s : State) (l : ScalarLoad) : State :=
  let v := valueOf (scalarBytes s l.piece)
  if v.2 then s.onHart (l.read.put l.len l.value) else s.finishLoad l v.1

/-- A scalar load or atomic performed now, or left to be performed later where the schedule lets it or an older one is left (R370;
log 54). -/
def State.issueLoad (s : State) (l : ScalarLoad) : State :=
  if s.hart.holdSlq || !s.hart.slq.isEmpty then s.onHart (fun h => { h with slq := h.slq ++ [l] }) else s.finishLoad l l.value

/-- The scalar loads and atomics of the current hart that are still to be performed performed. -/
def drainSlq (s : State) : Except WaitReason State :=
  match s.hart.slq.findSome? (fun l => pieceWait s l.piece) with
  | some r => .error r
  | none => .ok (s.hart.slq.foldl State.performLoad (s.onHart (fun h => { h with slq := [] })))

/-- A scalar load of `n` bytes with what it does with the number, or the state of its stop (R112, R304). -/
def scalarLoad (s : State) (va : Word) (n : Nat) (read : ScalarRead) : Except State ScalarLoad :=
  let g := s.dataAgent
  match scalarPiece s g .read va.toNat n with
  | .error st => .error (s.scalarStop st va.toNat)
  | .ok (leaf, c) =>
    let v := valueOf (scalarBytes s c)
    if v.2 then .error (s.raise 5 va)
    else .ok ⟨read, va, n, c.ap, c.key, c.kind, v.1, leafMark g .read c.va leaf⟩

/-- A scalar store performed, or held in the queue of its stream where the schedule holds stores back or an older one is held there
(R370; log 54). -/
def State.pushScalar (s : State) (x : VsqEntry) : State :=
  if s.hart.holdSsq || !s.hart.ssq.isEmpty then s.onHart (fun h => { h with ssq := h.ssq ++ [x] }) else performEntry x s

/-- A scalar store of `n` bytes: the state after it, or the state of its stop, with whether it was executed. -/
def scalarStore (s : State) (va : Word) (n : Nat) (v : Word) : State × Bool :=
  let g := s.dataAgent
  match scalarPiece s g .write va.toNat n with
  | .error st => (s.scalarStop st va.toNat, false)
  | .ok (leaf, c) => (s.pushScalar (scalarEntry c (toBytes n v.toNat) (leafMark g .write c.va leaf)), true)

/-- A load, and past the instruction where it was executed. -/
def loadInto (s : State) (va : Word) (n : Nat) (read : ScalarRead) : Res :=
  match scalarLoad s va n read with
  | .error t => .next t
  | .ok l => .next (s.issueLoad l).advance

/-- What an instruction does once the scalar stores before it are performed; it waits where they cannot be. -/
def afterStores (s : State) (k : State → Res) : Res :=
  match drainSsq s with
  | .ok t => k t
  | .error (.wait r _) => .next (s.waitFor r)
  | .error (.trap _ _ _) => .next s

/-- A store, and past the instruction where it was executed. -/
def storeFrom (s : State) (va : Word) (n : Nat) (v : Word) : Res :=
  match scalarStore s va n v with
  | (t, true) => .next t.advance
  | (t, false) => .next t

/-- An atomic memory operation (R112, R304), after the stores before it. To a device whose route is given up it is dropped, and rd gets
a free value (R462; log 13). -/
def amoOp (op : AmoOp) (n : Nat) (rd rs1 rs2 : XReg) (s : State) : Res :=
  let va := s.hart.getX rs1
  let g := s.dataAgent
  match scalarPiece s g .write va.toNat n with
  | .error st => .next (s.scalarStop st va.toNat)
  | .ok (leaf, c) =>
    if routeDown s c.key then
      let (f, t) := (markScalar s g .write leaf c).takeFree
      writeAdvance t rd (amoResult n (f.toNat % 2 ^ (8 * n)))
    else
      afterStores s (fun t =>
        let old := valueOf (scalarBytes t c)
        if old.2 then .next (s.raise 7 va)
        else
          .next (t.issueLoad
            ⟨.amo op rd ((s.hart.getX rs2).toNat % 2 ^ (8 * n)), va, n, c.ap, c.key, c.kind, old.1, leafMark g .write c.va leaf⟩).advance)

/-- Load-reserved and store-conditional, after the stores before them (R113): a misaligned address raises the store/AMO exception
(R112). -/
def lrScOp (i : LrScInstr) (s : State) : Res :=
  match i with
  | .lr dbl _ _ rd rs1 =>
    let n := if dbl then 8 else 4
    let va := s.hart.getX rs1
    if va.toNat % n ≠ 0 then .next (s.raise 6 va)
    else
      match scalarPiece s s.dataAgent .read va.toNat n with
      | .error st => .next (s.scalarStop st va.toNat)
      | .ok (leaf, c) =>
        afterStores s (fun t =>
          let v := valueOf (scalarBytes t c)
          if v.2 then .next (s.raise 5 va)
          else
            writeAdvance ((markScalar t t.dataAgent .read leaf c).onHart (fun h => { h with reservation := some (c.key / 64) })) rd
              (amoResult n v.1))
  | .sc dbl _ _ rd rs1 rs2 =>
    let n := if dbl then 8 else 4
    let va := s.hart.getX rs1
    match scalarPiece s s.dataAgent .write va.toNat n with
    | .error st => .next (s.scalarStop st va.toNat)
    | .ok (leaf, c) =>
      let none' (t : State) : State := t.onHart (fun h => { h with reservation := none })
      let holds := s.hart.reservation = some (c.key / 64)
      afterStores s (fun t =>
        if holds ∧ t.hart.reservation = some (c.key / 64) then
          writeAdvance (none' (performEntry (scalarEntry c (toBytes n (s.hart.getX rs2).toNat) (leafMark t.dataAgent .write c.va leaf)) t))
            rd 0#64
        else writeAdvance (none' t) rd 1#64)

/-! F and D (R117). -/

/-- The code an f register holds in a format: a value that is not NaN-boxed reads as the canonical NaN (the base). -/
def Hart.getFd (h : Hart) (dbl : Bool) (r : XReg) : Nat := if dbl then (h.getF r).toNat else unbox32 (h.getF r)

/-- The value an f register holds in a format. -/
def Hart.valFd (h : Hart) (dbl : Bool) (r : XReg) : FVal := decodeFloat (fdFormat dbl) (h.getFd dbl r)

/-- An F or D result with its flags, and past the instruction. -/
def fdResult (s : State) (dbl : Bool) (rd : XReg) (r : Nat × Nat) : Res :=
  .next ((s.onHart (fun h => (h.setFd dbl rd r.1).orScalarFlags r.2)).advance)

/-- An integer result of an F or D instruction with its flags. -/
def fdToX (s : State) (rd : XReg) (v : Word) (fl : Nat) : Res :=
  writeAdvance (if fl = 0 then s else s.onHart (fun h => (h.orScalarFlags fl).dirtyFp)) rd v

/-- An F or D instruction: illegal while FS is 0 (the base). -/
def withFp (i : RvInstr) (s : State) (k : Res) : Res := if s.hart.fpOn then k else .next (s.raiseIllegal (encodeRv i))

/-- An F or D instruction that rounds: illegal also where its rounding mode is reserved (the base). -/
def withFpRound (i : RvInstr) (rm : Rm) (s : State) (k : Rnd → Res) : Res :=
  match scalarRounding rm s.hart.frm with
  | some r => withFp i s (k r)
  | none => .next (s.raiseIllegal (encodeRv i))

/-- Two-operand arithmetic that rounds. -/
def fArith (op : FArithOp) (f : FFmt) (r : Rnd) (a b : FVal) : Nat × Nat :=
  match op with
  | .fadd => fAdd f r a b
  | .fsub => fAdd f r a b.negate
  | .fmul => fMul f r a b
  | .fdiv => fDiv f r a b

/-- Fused operations. -/
def fFused (op : FmaOp) (f : FFmt) (r : Rnd) (a b c : FVal) : Nat × Nat :=
  match op with
  | .fmadd => fMulAdd f r a b c
  | .fmsub => fMulAdd f r a b c.negate
  | .fnmsub => fMulAdd f r a.negate b c
  | .fnmadd => fMulAdd f r a.negate b c.negate

/-- Two-operand operations that do not round. -/
def fPair (op : FPairOp) (f : FFmt) (a b : Nat) : Nat × Nat :=
  let sa := a.testBit (fmtBitsOf f - 1)
  let sb := b.testBit (fmtBitsOf f - 1)
  match op with
  | .fsgnj => (withSign f a sb, 0)
  | .fsgnjn => (withSign f a (!sb), 0)
  | .fsgnjx => (withSign f a (sa != sb), 0)
  | .fmin => fMinMax f false a b
  | .fmax => fMinMax f true a b

/-- Comparisons: `feq` is quiet, the others set NV for any NaN. -/
def fCompare (op : FCmpOp) (a b : FVal) : Bool × Nat :=
  let loud := if a.isNan || b.isNan then flagNV else 0
  match op with
  | .feq => (fEq a b, nanFlags a b)
  | .flt => (fLt a b, loud)
  | .fle => (fLt a b || fEq a b, loud)

/-- The range of an integer kind. -/
def intRange : IntKind → Int × Int
  | .w => (-(2 ^ 31 : Nat), (2 ^ 31 - 1 : Nat))
  | .wu => (0, (2 ^ 32 - 1 : Nat))
  | .l => (-(2 ^ 63 : Nat), (2 ^ 63 - 1 : Nat))
  | .lu => (0, (2 ^ 64 - 1 : Nat))

/-- The register value of a converted integer: 32-bit results are sign-extended. -/
def intToReg (k : IntKind) (i : Int) : Word :=
  match k with
  | .w | .wu => (BitVec.ofInt 32 i).signExtend 64
  | .l | .lu => ofInt64 i

/-- The integer a register holds for a conversion. -/
def intOfReg (k : IntKind) (x : Word) : Int :=
  match k with
  | .w => (x.truncate 32 : BitVec 32).toInt
  | .wu => (x.toNat % 2 ^ 32 : Nat)
  | .l => x.toInt
  | .lu => (x.toNat : Nat)

/-! Returns (the base). -/

/-- `mret`: M mode only. -/
def mretOp (s : State) : Res :=
  if s.hart.mode = .machine then .next ((s.onHart Hart.mret).retire) else .next (s.raiseIllegal (encodeRv .mret))

/-- `sret`: not in U mode, and not in S mode while TSR is set. -/
def sretOp (s : State) : Res :=
  if s.hart.mode = .user ∨ (s.hart.mode = .supervisor ∧ s.hart.mstatus.getLsbD 22 = true) then
    .next (s.raiseIllegal (encodeRv .sret))
  else .next ((s.onHart Hart.sret).retire)

/-- SCALAR_BASE_INSTRUCTION (R111). -/
def execScalarBaseInstruction (i : RvInstr) (s : State) : Res :=
  let h := s.hart
  match i with
  | .lui rd imm => writeAdvance s rd ((imm ++ 0#12 : BitVec 32).signExtend 64)
  | .auipc rd imm => writeAdvance s rd (h.pc + (imm ++ 0#12 : BitVec 32).signExtend 64)
  | .jal rd imm => jumpTo s rd (h.pc + (imm ++ 0#1 : BitVec 21).signExtend 64)
  | .jalr rd rs1 imm => jumpTo s rd (setWordField (h.getX rs1 + imm12 imm) 0 1 0)
  | .branch op rs1 rs2 imm =>
    if branchTaken op (h.getX rs1) (h.getX rs2) then
      let target := h.pc + (imm ++ 0#1 : BitVec 13).signExtend 64
      if wordField target 0 2 ≠ 0 then .next (s.raise 0 target) else .next ((s.setPc target).retire)
    else .next s.advance
  | .load op rd rs1 imm => loadInto s (h.getX rs1 + imm12 imm) (loadBytes op) (.load op rd)
  | .store op rs1 rs2 imm => storeFrom s (h.getX rs1 + imm12 imm) (storeBytesOf op) (h.getX rs2)
  | .opImm op rd rs1 imm => writeAdvance s rd (immOp op (h.getX rs1) (imm12 imm))
  | .addiw rd rs1 imm => writeAdvance s rd (sext32 (h.getX rs1 + imm12 imm))
  | .shiftImm op rd rs1 sh => writeAdvance s rd (shiftOp op (h.getX rs1) sh.toNat)
  | .shiftImmW op rd rs1 sh => writeAdvance s rd (shiftWOp op (h.getX rs1) sh.toNat)
  | .op op rd rs1 rs2 => writeAdvance s rd (regOp op (h.getX rs1) (h.getX rs2))
  | .opW op rd rs1 rs2 => writeAdvance s rd (regWOp op (h.getX rs1) (h.getX rs2))
  | .unary op rd rs1 => writeAdvance s rd (zbbOp op (h.getX rs1))
  | .amo op dbl _ _ rd rs1 rs2 => amoOp op (if dbl then 8 else 4) rd rs1 rs2 s
  | .fload dbl rd rs1 imm => withFp i s (loadInto s (h.getX rs1 + imm12 imm) (if dbl then 8 else 4) (.fload dbl rd))
  | .fstore dbl rs1 rs2 imm => withFp i s (storeFrom s (h.getX rs1 + imm12 imm) (if dbl then 8 else 4) (h.getF rs2))
  | .farith op dbl rm rd rs1 rs2 =>
    withFpRound i rm s (fun r => fdResult s dbl rd (fArith op (fdFormat dbl) r (h.valFd dbl rs1) (h.valFd dbl rs2)))
  | .fsqrt dbl rm rd rs1 => withFpRound i rm s (fun r => fdResult s dbl rd (fSqrt (fdFormat dbl) r (h.valFd dbl rs1)))
  | .fma op dbl rm rd rs1 rs2 rs3 =>
    withFpRound i rm s (fun r =>
      fdResult s dbl rd (fFused op (fdFormat dbl) r (h.valFd dbl rs1) (h.valFd dbl rs2) (h.valFd dbl rs3)))
  | .fpair op dbl rd rs1 rs2 => withFp i s (fdResult s dbl rd (fPair op (fdFormat dbl) (h.getFd dbl rs1) (h.getFd dbl rs2)))
  | .fcmp op dbl rd rs1 rs2 =>
    let r := fCompare op (h.valFd dbl rs1) (h.valFd dbl rs2)
    withFp i s (fdToX s rd (boolWord r.1) r.2)
  | .fclass dbl rd rs1 => withFp i s (fdToX s rd (w64 (fClass (fdFormat dbl) (h.getFd dbl rs1))) 0)
  | .fcvtToInt k dbl rm rd rs1 =>
    withFpRound i rm s (fun r =>
      let x := fToInt r (intRange k).1 (intRange k).2 (h.valFd dbl rs1)
      fdToX s rd (intToReg k x.1) x.2)
  | .fcvtFromInt k dbl rm rd rs1 =>
    withFpRound i rm s (fun r => fdResult s dbl rd (toFormat (fdFormat dbl) r (.ofInt (intOfReg k (h.getX rs1)))))
  | .fcvtSD rm rd rs1 => withFpRound i rm s (fun r => fdResult s false rd (toFormat .fp32 r (h.valFd true rs1)))
  | .fcvtDS rm rd rs1 => withFpRound i rm s (fun r => fdResult s true rd (toFormat .fp64 r (h.valFd false rs1)))
  | .fmvToX dbl rd rs1 => withFp i s (fdToX s rd (if dbl then h.getF rs1 else sext32 (h.getF rs1)) 0)
  | .fmvFromX dbl rd rs1 => withFp i s (fdResult s dbl rd ((h.getX rs1).toNat, 0))
  | .csrRead _ _ rd csr => csrReadOp (encodeRv i) rd csr s
  | .mret => mretOp s
  | .sret => sretOp s

/-- FENCE (R116): the scalar stores before it are performed where its predecessor set names writes or output; its loads have been before
it runs (log 54). A non-zero fm, rs1 or rd changes nothing (log 57). -/
def execFence (_fm : BitVec 4) (pred _succ : BitVec 4) (_rs1 _rd : XReg) (s : State) : Res :=
  if pred.getLsbD 0 || pred.getLsbD 2 then afterStores s (fun t => .next t.advance) else .next s.advance

/-- FENCE_I (R116): later fetches see earlier scalar stores. A non-zero immediate, rs1 or rd changes nothing (log 57). -/
def execFenceI (_imm : BitVec 12) (_rs1 _rd : XReg) (s : State) : Res := afterStores s (fun t => .next t.advance)

/-- Whether a translation matches an `sfence.vma` of a realm (R391, the base): by address, superpages included, and by ASID,
which never matches a global entry. -/
def TlbEntry.fenced (t : TlbEntry) (realm : Nat) (page asid : Option Nat) : Bool :=
  t.realm == realm && page.all (fun p => p / 2 ^ (9 * t.level) == t.vpage / 2 ^ (9 * t.level)) &&
  asid.all (fun a => a == t.asid && !(t.leaf.getLsbD 5))

/-- SFENCE_VMA: after the scalar stores before it, and once no matching translation is pinned (R391, R393). -/
def execSfenceVma (rs1 rs2 : XReg) (s : State) : Res :=
  let h := s.hart
  if h.mode = .user ∨ (h.mode = .supervisor ∧ h.mstatus.getLsbD 20 = true) then
    .next (s.raiseIllegal (packWord 1#4 1#3 rs2 rs1 0#3 0#5 0x73#7))
  else if h.hasVectorWork then .next s.drainFirst
  else
    let page := if rs1 = 0#5 then none else some ((h.getX rs1).toNat / 4096)
    let asid := if rs2 = 0#5 then none else some (wordField (h.getX rs2) 0 16)
    let realm := s.realmOf h
    if s.pins.any (fun p => p.entry.fenced realm page asid) then .next (s.waitFor .memory)
    else afterStores s (fun u => .next ({ u with tlb := u.tlb.filter (fun t => !(t.fenced realm page asid)) }).advance)

/-- WFI (R114): illegal in U mode; in S and M mode it waits until an interrupt is pending, whatever TW holds. -/
def execWfi (s : State) : Res :=
  let h := s.hart
  if h.mode = .user then .next (s.raiseIllegal (packWord 1#4 0#3 5#5 0#5 0#3 0#5 0x73#7))
  else if h.mip &&& h.mie = 0#64 then .next (s.waitFor .interrupt)
  else .next s.advance

/-- The cause of an environment call in a mode (the base). -/
def ecallCause : Mode → Nat
  | .user => 8 | .supervisor => 9 | .machine => 11

/-- ECALL (R117). -/
def execEcall (s : State) : Res := .next (s.raise (ecallCause s.hart.mode) 0#64)

/-- EBREAK (R117): the trap value is the instruction's address (log 7). -/
def execEbreak (s : State) : Res := .next (s.raise 3 s.hart.pc)

/-- LR_SC (R113). -/
def execLrSc (i : LrScInstr) (s : State) : Res := lrScOp i s

/-- ILLEGAL_INSTRUCTION (R123): taken once older vector work has completed (R404). -/
def execIllegalInstruction (word : InstrWord) (s : State) : Res := .next (s.raiseIllegal word)

end Sys2Proof.Machine
end

