-- ==== Sys2Proof/Machine/Return.lean ====
section
/-! DEFINITION. `vret` and `aret`: the suspended-queue area read back, checked and placed at the tail of the VIQ (R252, R254, R408).
Neither enters the VIQ; each waits for every earlier vector instruction of its hart. -/

namespace Sys2Proof.Machine

/-- Bytes read, with a number read from them. -/
def bytesAt (bs : List Byte) (off n : Nat) : Nat := ofBytes ((bs.drop off).take n)

/-- Whether a reserved byte or bit of an area is not 0: header bytes 0x18 on, the valid bits above bit 2 of an entry, its last 24
bytes (R252). -/
def areaReserved (bs : List Byte) (count : Nat) : Bool :=
  bytesAt bs 0x18 40 != 0 ||
  (List.range count).any (fun i => decide (8 ≤ bytesAt bs (0x4C + 64 * i) 4) || bytesAt bs (0x68 + 64 * i) 24 != 0)

/-- The entries of an area as entries dispatched in a mode. -/
def areaEntries (bs : List Byte) (count : Nat) (mode : Mode) : List VEntry :=
  (List.range count).map (fun i => entryAt (bytesAt bs) (64 + 64 * i) mode)

/-- Whether the word of an entry passes R123 for a launch's profiles at a mode and enters the VIQ. -/
def wordReturns (profiles : Nat) (e : VEntry) : Bool :=
  match entryRow e.word with
  | some r => profiles.testBit r.profile && r.level.allows e.mode
  | none => false

/-- What an area gives back: its entries, or the trap value of the illegal-instruction exception: 0 for the count and the reserved
bytes, else the first word that fails. -/
def checkArea (s : State) (bs : List Byte) (least : Nat) (mode : Mode) : Except Word (List VEntry) :=
  let count := bytesAt bs 0x10 4
  if count < least ∨ 64 < count ∨ areaReserved bs count = true then .error 0#64
  else
    let es := areaEntries bs count mode
    match es.find? (fun e => !(wordReturns (s.profiles s.hart) e)) with
    | some e => .error (wordVal e.word)
    | none => .ok es

/-- Bytes of an area whose header gives a count: the area holds 64 entries at most, so a larger count reads no more (R252; log 60). -/
def areaLength (header : List Byte) : Nat := 64 + 64 * min 64 (bytesAt header 0x10 4)

/-! `vret` (R408). -/

/-- `n` bytes of the area of `vqsave`, none where the read faults. -/
def readSaved (s : State) (base n : Nat) : Option (List Byte) :=
  match areaKey s base n with
  | some key => if anyPoison s key n then none else some (readThroughs s .cached key n)
  | none => none

/-- The area of `vqsave`, none where a read of it faults. -/
def savedArea (s : State) (base : Nat) : Option (List Byte) :=
  (readSaved s base 64).bind (fun h => readSaved s base (areaLength h))

/-- Why the area of `vqsave` cannot be read now: a line held locked (R104, R334). -/
def savedWait (s : State) (base : Nat) : Option WaitReason :=
  if s.locks.isEmpty then none else (areaKey s base 64).bind (fun k => recordWait s k 4160)

/-- `vret` once every earlier vector instruction is done. Where a read of the area faults, `stval` is the base of the area, whichever byte
fails: R408 names no value (DESIGN CHOICE, log 41). -/
def vretNow (s : State) : State :=
  let base := wordField s.hart.vqsave 6 58 * 64
  match savedArea s base with
  | none => s.takeTrap 5 false s.hart.pc (BitVec.ofNat 64 base)
  | some bs =>
    match checkArea s bs 0 s.hart.spp with
    | .error v => s.takeTrap 2 false s.hart.pc v
    | .ok es => (s.onHart (fun h => { h.sret with viq := es })).retire

/-- The word of `vret`. -/
def vretWord : InstrWord := 0x20005077#32

/-- `vret`: of alv1.0, S mode only (R123, R134, R408). -/
def execVret (s : State) : Res :=
  if s.hart.mode ≠ .supervisor ∨ (s.profiles s.hart).testBit 0 = false then .next (s.raiseIllegal vretWord)
  else if s.hart.hasVectorWork then .next s.drainFirst
  else
    afterStores s (fun t =>
      match savedWait t (wordField t.hart.vqsave 6 58 * 64) with
      | some r => .next (t.waitFor r)
      | none => .next (vretNow t))

/-! `aret` (R254). -/

/-- The pieces of an ordinary load of some line-bounded runs: their bytes in order and what each access leaves, or the stop with
its address. -/
def loadRuns (g : Agent) : List (Nat × Nat) → State → Except (ScalarStop × Nat) (List Byte × State)
  | [], s => .ok ([], s)
  | (va, len) :: rest, s =>
    match translate s g .read va with
    | .error .missing => .error (.fault 13, va)
    | .error .denied => .error (.fault 13, va)
    | .error .locked => .error (.wait .lineLock, va)
    | .error _ => .error (.fault 5, va)
    | .ok leaf =>
      match physKey s g (leaf.page + va % 4096) with
      | none => .error (.fault 5, va)
      | some (ap, key) =>
        let c : Piece := ⟨va, len, ap, key, leaf.kind⟩
        match pieceWait s c with
        | some r => .error (.wait r, va)
        | none =>
          if anyPoison s key len then .error (.fault 5, va)
          else
            match loadRuns g rest (markScalar s g .read leaf c) with
            | .error x => .error x
            | .ok (bs, t) => .ok (readThroughs s ap key len ++ bs, t)

/-- The area of `aqsave`, or how its read stops. -/
def userSavedArea (s : State) (base : Nat) : Except (ScalarStop × Nat) (List Byte × State) := do
  let g := s.agent s.hart .user
  let (h, _) ← loadRuns g (linesOf (base, 64)) s
  loadRuns g (linesOf (base, areaLength h)) s

/-- `aret` once every earlier vector instruction is done. -/
def aretNow (s : State) : State :=
  match userSavedArea s (wordField s.hart.aqsave 6 58 * 64) with
  | .error (.fault cause, va) => s.takeTrap cause false s.hart.pc (BitVec.ofNat 64 va)
  | .error (.wait r, _) => s.waitFor r
  | .ok (bs, t) =>
    match checkArea t bs 1 .user with
    | .error v => s.takeTrap 2 false s.hart.pc v
    | .ok es =>
      (t.onHart (fun h => { h with viq := es, anchorHandler := false, pc := BitVec.ofNat 64 (bytesAt bs 0 8) })).retire

/-- The word of `aret`. -/
def aretWord : InstrWord := 0x30005077#32

/-- `aret` (R254). -/
def execAret (s : State) : Res :=
  if s.hart.mode ≠ .user ∨ s.hart.anchorHandler = false ∨ (s.profiles s.hart).testBit 2 = false then
    .next (s.raiseIllegal aretWord)
  else if s.hart.hasVectorWork then .next s.drainFirst
  else afterStores s (fun t => .next (aretNow t))

end Sys2Proof.Machine
end

