-- ==== Sys2Proof/Machine/SysEvents.lean ====
section
/-! DEFINITION. System integration: realms and firmware calls (R453 to R455, R467), launch queue registers and doorbells (R456, R457), the
Ethernet feed (R458, R459), accesses from outside the compute harts (R287, R454, R460), routes (R461, R462), boot, resets and
attestation (R463 to R465), the report card and the fatal dump (R444, R445, R466). An event whose condition does not hold
changes nothing. -/

namespace Sys2Proof.Machine

/-! Realm windows (R455). -/

/-- Bytes of a granule. -/
def granuleBytes : Nat := 2 ^ 21

/-- A range of whole granules. -/
def wholeGranules (base size : Nat) : Bool := base % granuleBytes == 0 && size % granuleBytes == 0

/-- The granules of a range. -/
def granulesOf (base size : Nat) : List Nat := (List.range (size / granuleBytes)).map (fun i => base / granuleBytes + i)

/-- Whether a granule lies in the usable part of a home region (R291). -/
def granuleUsable (s : State) (n : Nat) : Bool :=
  let a := n * granuleBytes
  decide (a < 0x10000000000) && (homeKey s engineAgent a).isSome && decide (usableFrom (a / regionSpan) ≤ a % regionSpan)

/-- Whether every granule of a range is usable and of a realm. -/
def rangeOfRealm (s : State) (base size realm : Nat) : Bool :=
  wholeGranules base size && decide (base + size ≤ 0x10000000000) &&
  (granulesOf base size).all (fun n => granuleUsable s n && granuleRealm s n == realm)

/-- Windows a realm may hold. -/
def maxWindows : Nat := 8

/-- System core `n` (R452). -/
def State.sysCore (s : State) (n : Nat) : SysCore := (s.sysCores[n]?).getD SysCore.reset

/-- System core `n` replaced. -/
def State.setSysCore (s : State) (n : Nat) (c : SysCore) : State := { s with sysCores := s.sysCores.setIfInBounds n c }

/-- The translations of the system cores dropped (R455, R467). -/
def State.dropSysTlbs (s : State) : State := { s with sysCores := s.sysCores.map (fun c => { c with tlb := [] }) }

/-- The call that an M-mode hart at the entry of an `ecall` from S mode makes, where it is of a function: a0 to a2. -/
def callArgs (h : Hart) (function : Nat) : Option (Word × Word × Word) :=
  if h.mode = .machine ∧ h.mcause = 9#64 ∧ (h.getX 17#5).toNat = function then
    some (h.getX 10#5, h.getX 11#5, h.getX 12#5)
  else none

/-- A call answered: the result in a0, and the return past the `ecall`. -/
def Hart.answer (h : Hart) (code : Nat) : Hart :=
  let h1 := h.setX 10#5 (BitVec.ofNat 64 code)
  Hart.mret { h1 with mepc := h1.mepc + 4#64 }

/-- The result of a grant, and the window it adds. -/
def grantResult (s : State) (a0 a1 a2 : Word) : Nat × Option RealmWindow :=
  let realm := s.realmOf s.hart
  if (a2 ≠ 1#64 ∧ a2 ≠ 3#64) ∨ a1 = 0#64 ∨ rangeOfRealm s a0.toNat a1.toNat realm = false then (1, none)
  else if maxWindows ≤ (s.windows.filter (fun w => w.realm == realm)).length then (2, none)
  else (0, some ⟨realm, a0.toNat, a1.toNat, decide (a2 = 3#64)⟩)

/-- GRANT_WINDOW (R455). -/
def grantNow (s : State) : State :=
  match callArgs s.hart 0x04140001 with
  | some (a0, a1, a2) =>
    let (code, w) := grantResult s a0 a1 a2
    let s1 := { s with windows := s.windows ++ w.toList }
    s1.onHart (fun h => h.answer code)
  | none => s

/-- GRANT_WINDOW (R455). -/
def execGrantWindow (hid : Nat) (s : State) : Res := onRunning hid grantNow s

/-- REVOKE_WINDOW (R455). -/
def revokeNow (s : State) : State :=
  match callArgs s.hart 0x04140002 with
  | some (a0, a1, a2) =>
    let mine (w : RealmWindow) : Bool := w.realm == s.realmOf s.hart && w.base == a0.toNat
    if a1 = 0#64 ∧ a2 = 0#64 ∧ s.windows.any mine then
      let s1 := State.dropSysTlbs { s with windows := s.windows.filter (fun w => !(mine w)) }
      s1.onHart (fun h => h.answer 0)
    else s.onHart (fun h => h.answer 1)
  | none => s

/-- REVOKE_WINDOW (R455). -/
def execRevokeWindow (hid : Nat) (s : State) : Res := onRunning hid revokeNow s

/-! Granules and queue owners (R467). -/

/-- A firmware call as it reaches M mode: whether its caller may make it, and a0 to a2. -/
structure Call where
  may : Bool
  a0 : Word
  a1 : Word
  a2 : Word
deriving DecidableEq, Repr

/-- The call of a function that stands in a caller's registers (R467): a system core with the function in a7, which may make it in HS mode, where the
host's operating system runs (R452, R453), once firmware's accesses to memory are accepted (R308); or a compute hart at the entry of its `ecall` to M mode, which may not. -/
def callHeld (s : State) (caller : Caller) (function : Nat) : Option Call :=
  match caller with
  | .systemCore n =>
    let c := s.sysCore n
    if s.booted = true ∧ s.memReady = true ∧ c.x[17].toNat = function then some ⟨c.mode == .hypervisor, c.x[10], c.x[11], c.x[12]⟩ else none
  | .computeHart hid =>
    match s.findHart hid with
    | some h =>
      if h.run = .running ∧ h.mode = .machine ∧ [8#64, 9#64, 11#64].contains h.mcause ∧ (h.getX 17#5).toNat = function then
        some ⟨false, h.getX 10#5, h.getX 11#5, h.getX 12#5⟩
      else none
    | none => none

/-- The call of a function with the first arguments given: it is made where the caller's registers hold them (R467). -/
def callOf (s : State) (caller : Caller) (function : Nat) (args : List Word) : Option Call :=
  (callHeld s caller function).filter (fun c => args.isPrefixOf [c.a0, c.a1, c.a2])

/-- What a device answers to a request from outside the compute harts. -/
def State.answer (s : State) (code : Nat) : State := { s with result := .status code }

/-- A call answered: the result in the caller's a0, and the caller past its `ecall` (R455, R467). -/
def answerCall (caller : Caller) (code : Nat) (s : State) : State :=
  match caller with
  | .systemCore n =>
    let c := s.sysCore n
    (s.setSysCore n { c with x := c.x.set 10 (BitVec.ofNat 64 code), pc := c.pc + 4#64 }).answer code
  | .computeHart hid =>
    match s.findHart hid with
    | some h => s.putHart (h.answer code)
    | none => s

/-- Whether a key lies in a range. -/
def keyInRange (base size key : Nat) : Bool := decide (base ≤ key) && decide (key < base + size)

/-- Whether a translation reaches a range of the home regions. -/
def TlbEntry.reaches (t : TlbEntry) (base size : Nat) : Bool :=
  let page := leafPage t.leaf.toNat t.level 0
  let a := page % 0x10000000000
  decide (page < 0x30000000000) && decide (a < base + size) && decide (base < a + 2 ^ (12 + 9 * t.level))

/-- Whether an access to a range has begun and is not complete: a pinned page, a store still queued, a near-memory command (R467). -/
def accessBegun (s : State) (base size : Nat) : Bool :=
  let pending (x : VsqEntry) : Bool := x.pending.any (fun w => keyInRange base size w.key)
  s.pins.any (fun p => p.entry.reaches base size) || s.harts.any (fun h => (h.ssq ++ h.vsq).any pending) ||
  s.passed.any (fun p => pending p.entry) || s.nq.any (fun c => (c.dst ++ c.src ++ [c.record]).any (keyInRange base size))

/-- A hart without a reservation on a line of a range (R113). -/
def Hart.dropRange (base size : Nat) (h : Hart) : Hart :=
  if h.reservation.any (fun l => keyInRange base size (64 * l)) then { h with reservation := none } else h

/-- A range given to a realm: its bytes zero and clean, every translation and reservation on it dropped (R398, R467). -/
def giveRange (s : State) (base size realm : Nat) : State :=
  let gs := granulesOf base size
  let rest := s.granules.filter (fun g => !(gs.contains g.1))
  let s1 := (zeroRange base size s).dropSysTlbs
  { s1 with
    hart := s.hart.dropRange base size,
    others := s.others.map (Hart.dropRange base size),
    granules := rest ++ (if realm = 0 then [] else gs.map (fun n => (n, realm))),
    tlb := [] }

/-- ASSIGN_GRANULES (R467): while an access begun under the old owner is not complete, the call does not return. -/
def assign (caller : Caller) (a0 a1 a2 : Word) (s : State) : State :=
  match callOf s caller 0x04140010 [a0, a1, a2] with
  | some c =>
    let base := c.a0.toNat
    let size := c.a1.toNat
    if c.may = false ∨ rangeOfRealm s base size 0 = false ∨ c.a2 = 0#64 ∨ 255 < c.a2.toNat then answerCall caller 1 s
    else if accessBegun s base size then s
    else answerCall caller 0 (giveRange s base size c.a2.toNat)
  | none => s

/-- ASSIGN_GRANULES (R467). -/
def execAssignGranules (caller : Caller) (a0 a1 a2 : Word) (s : State) : Res := .next (assign caller a0 a1 a2 s)

/-- Whether a launch of a realm has a gang placed, switched out or queued (R467). -/
def realmBusy (s : State) (realm : Nat) : Bool :=
  s.launches.any (fun l => recRealm l.record == realm && decide (l.retired < recCount l.record)) ||
  s.queues.toList.any (fun q => (q.records ++ q.held).any (fun r => recRealm r == realm)) ||
  s.harts.any (fun h => h.lq.any (fun e => recRealm e.record == realm))

/-- Whether a window reaches into a range. -/
def windowIn (s : State) (base size : Nat) : Bool :=
  s.windows.any (fun w => decide (w.base < base + size) && decide (base < w.base + w.size))

/-- RELEASE_GRANULES (R467). -/
def release (caller : Caller) (a0 a1 : Word) (s : State) : State :=
  match callOf s caller 0x04140011 [a0, a1] with
  | some c =>
    let base := c.a0.toNat
    let size := c.a1.toNat
    let realm := granuleRealm s (base / granuleBytes)
    if c.may = false ∨ realm = 0 ∨ size = 0 ∨ rangeOfRealm s base size realm = false ∨ c.a2 ≠ 0#64 then answerCall caller 1 s
    else if windowIn s base size = true ∨ realmBusy s realm = true then answerCall caller 3 s
    else if accessBegun s base size then s
    else answerCall caller 0 (giveRange s base size 0)
  | none => s

/-- RELEASE_GRANULES (R467). -/
def execReleaseGranules (caller : Caller) (a0 a1 : Word) (s : State) : Res := .next (release caller a0 a1 s)

/-- SET_QUEUE_OWNER (R467). A submission on its way holds its slot, as a record does. -/
def setOwner (caller : Caller) (a0 a1 : Word) (s : State) : State :=
  match callOf s caller 0x04140012 [a0, a1] with
  | some c =>
    let q := c.a0.toNat
    if c.may = false ∨ 63 < q ∨ 255 < c.a1.toNat ∨ c.a2 ≠ 0#64 then answerCall caller 1 s
    else
      let x := s.queue q
      if x.enable = true ∨ x.records ≠ [] ∨ x.held ≠ [] ∨ s.inFlightTo q ≠ 0 then answerCall caller 3 s
      else answerCall caller 0 (s.setQueue q { x with realm := c.a1.toNat })
  | none => s

/-- SET_QUEUE_OWNER (R467). -/
def execSetQueueOwner (caller : Caller) (a0 a1 : Word) (s : State) : Res := .next (setOwner caller a0 a1 s)

/-! Launch queue registers (R456, R457). -/

/-- LQCTLn as read (R456). -/
def lqctlValue (x : LaunchQueue) : Nat :=
  min 255 x.succLost * 2 ^ 40 + x.records.length * 2 ^ 32 + min 255 x.dropped * 2 ^ 24 + (if x.enable then 2 ^ 16 else 0) + x.realm

/-- LQCTL_WRITE: the ENABLE bit (R456). -/
def writeLqctl (s : State) (q : Nat) (v : Word) : State :=
  if q < 64 ∧ s.booted = true then s.setQueue q { s.queue q with enable := v.getLsbD 16 } else s

/-- LQCTL_WRITE (R456). -/
def execLqctlWrite (queue : Nat) (value : Word) (s : State) : Res := .next (writeLqctl s queue value)

/-- Whether a byte lies in a window, with the right asked for, of the realm that owns its granule (R454, R455). -/
def inWindow (s : State) (write : Bool) (a : Nat) : Bool :=
  s.windows.any (fun w => keyInRange w.base w.size a && (w.write || !write) && w.realm == granuleRealm s (a / granuleBytes))

/-- The aperture and key of a byte for a system core below M mode (R452, R454). -/
def systemKey (s : State) (write : Bool) (pa : Nat) : Option (Aperture × Nat) :=
  let g := realmAgent 0
  match physKey s g pa with
  | some (.cached, k) => some (.cached, k)
  | some (.uncached, k) => some (.uncached, k)
  | some (.cxl, k) => some (.cxl, k)
  | some _ => none
  | none =>
    let a := localOf pa
    if deviceOf pa = s.device ∧ a < 0x20000000000 ∧ inWindow s write (a % 0x10000000000) = true then
      let off := a % 0x10000000000
      match homeKey s (realmAgent (granuleRealm s (off / granuleBytes))) off with
      | some k => some (if a < 0x10000000000 then .cached else .uncached, k)
      | none => none
    else none

/-- The map of a system core in M mode: the apertures of R452 and the memory control block (R303), without realm checks. -/
def firmwareKey (s : State) (pa : Nat) : Option (Aperture × Nat) :=
  match physKey s engineAgent pa with
  | some (.cached, k) => some (.cached, k)
  | some (.uncached, k) => some (.uncached, k)
  | some (.cxl, k) => some (.cxl, k)
  | some (.memoryControl, k) => some (.memoryControl, k)
  | _ => none

/-- The apertures and keys of `n` bytes from an address through a map, none where one faults. -/
def placesBy (f : Nat → Option (Aperture × Nat)) (pa : Nat) : Nat → Option (List (Aperture × Nat))
  | 0 => some []
  | n + 1 =>
    match f pa, placesBy f (pa + 1) n with
    | some p, some ps => some (p :: ps)
    | _, _ => none

/-- The map of a system core: of M mode, or of a mode below it (R452, R454). -/
def coreKey (s : State) (n : Nat) (write : Bool) : Nat → Option (Aperture × Nat) :=
  if (s.sysCore n).mode = .machine then firmwareKey s else systemKey s write

/-- The record a system core's doorbell names, none where the core may not read it (R457 status 3). -/
def doorRecord (s : State) (core addr : Nat) : Option LaunchRecord :=
  let cachedOnly (pa : Nat) : Option (Aperture × Nat) :=
    match coreKey s core false pa with
    | some (.cached, k) => some (.cached, k)
    | _ => none
  if addr % 64 = 0 ∧ deviceOf addr = s.device then
    match placesBy cachedOnly addr 128 with
    | some ps =>
      if ps.any (fun p => keyPoisoned s p.2) then none else some (BitVec.ofNat 1024 (ofBytes (ps.map (fun p => readThrough s p.1 p.2))))
    | none => none
  else none

/-- Whether a byte of the record a doorbell names lies on a locked line, so that its copy waits (R104, R334). -/
def doorLocked (s : State) (core addr : Nat) : Bool := ((placesBy (coreKey s core false) addr 128).getD []).any (fun p => lineLocked s p.2)

/-- LQ_DOORBELL: the status, and the state after (R457); before the system cores have restarted it is 2 (R465). -/
def doorbell (s : State) (core q addr : Nat) : Nat × State :=
  if s.restarted = false then (2, s)
  else
    match doorRecord s core addr with
    | none => (3, s)
    | some r =>
      if (s.queue q).enable = false ∨ (s.queue q).realm ≠ 0 ∨ recField r 0x40 4 ≠ 0 then (2, s)
      else if s.queueHasSlot q = false then (1, s)
      else (0, s.enterQueue q r)

/-- LQ_DOORBELL (R457). -/
def execLqDoorbell (door : Doorbell) (record : Word) (s : State) : Res :=
  if door.queue < 64 ∧ s.booted = true then
    if doorLocked s door.core record.toNat then .next { s with result := .held }
    else
      let (code, t) := doorbell s door.core door.queue record.toNat
      .next (t.answer code)
  else .next s

/-! The Ethernet feed (R458, R459). -/

/-- A field of a frame. -/
def frameField (f : List Byte) (off n : Nat) : Nat := ofBytes ((f.drop off).take n)

/-- The key entry a frame names. -/
def frameKey (s : State) (f : List Byte) : Option EthKey := s.keys.find? (fun k => k.index == frameField f 2 2)

/-- The plaintext of a frame under a key: the nonce is the salt and the sequence, the first 16 bytes are authenticated (R458). -/
def framePlain (k : EthKey) (f : List Byte) : Option (List Byte) :=
  Config.gcmOpen k.key (k.salt ++ (f.drop 8).take 8) (f.take 16) ((f.drop 16).take 128) ((f.drop 0x90).take 16)

/-- What a frame comes to: the reason it is discarded for, or its queue, key and record (R459); one that arrives while a reset is under
way is discarded under reason 5 (R465). -/
def checkFrame (s : State) (f : List Byte) : Except Nat (Nat × EthKey × LaunchRecord) :=
  let q := frameField f 1 1
  if s.restarted = false then .error 5
  else if f.length ≠ 160 ∨ frameField f 0 1 ≠ 1 ∨ frameField f 4 4 ≠ 0 then .error 0
  else
    match frameKey s f with
    | none => .error 1
    | some k =>
      if 64 ≤ q ∨ k.mask.getLsbD q = false then .error 2
      else if frameField f 8 8 ≤ k.last.toNat then .error 3
      else
        match framePlain k f with
        | none => .error 4
        | some p =>
          if (s.queue q).enable = false ∨ (s.queue q).realm ≠ k.realm ∨ s.queueHasSlot q = false then .error 5
          else .ok (q, k, recSetRealm (BitVec.ofNat 1024 (ofBytes p)) k.realm)

/-- A frame discarded and counted. -/
def dropFrame (s : State) (reason : Nat) : State :=
  let n := (s.frameDrops[reason]?).getD 0#32
  { s with frameDrops := s.frameDrops.setIfInBounds reason (if n = 0xFFFFFFFF#32 then n else n + 1#32) }

/-- LAUNCH_FRAME_RECEIVE (R459); the ports of a device whose boot stopped are untrained (R463). -/
def receiveFrame (s : State) (f : List Byte) : State :=
  if s.boot = .stopped then s
  else
    match checkFrame s f with
    | .error reason => dropFrame s reason
    | .ok (q, k, r) =>
      let k1 := { k with last := BitVec.ofNat 64 (frameField f 8 8) }
      { s.enterQueue q r with keys := s.keys.map (fun o => if o.index = k.index then k1 else o) }

/-- LAUNCH_FRAME_RECEIVE (R459). -/
def execLaunchFrameReceive (frame : List Byte) (s : State) : Res := .next (receiveFrame s frame)

/-! Requests from outside the compute harts. -/

/-- Bytes a request touches. -/
def requestBytes : MemAction → Nat
  | .load n => n
  | .store d => d.length
  | .atomic _ dbl _ => if dbl then 8 else 4

/-- Whether a request writes. -/
def requestWrites : MemAction → Bool
  | .load _ => false
  | _ => true

/-- Whether a request is held: memory is not accepted yet (R308), a line is locked (R334), a route retrains (R462). -/
def requestHeld (s : State) (ps : List (Aperture × Nat)) : Bool :=
  !s.memReady || ps.any (fun p => lineLocked s p.2 || routeWaits s p.2)

/-- The clean writes of some bytes at their places. -/
def placeWrites (ps : List (Aperture × Nat)) (d : List Byte) : List ByteWrite :=
  (List.zip ps d).map (fun x => ⟨x.1.2, x.2, 0xFF#8, false, x.1.1⟩)

/-- A request served through the home L2 at the places of its bytes: the answer, and the state after. A poisoned byte read by an atomic
leaves memory as it is; an atomic to a device whose route is given up is dropped, and its answer is a free value (R462; log 13). -/
def serve (s : State) (r : MemAction) (ps : List (Aperture × Nat)) : ExternalResult × State :=
  let bytes := ps.map (fun p => readThrough s p.1 p.2)
  let bad := ps.any (fun p => keyPoisoned s p.2)
  match r with
  | .load _ => (.data bytes bad, s)
  | .store d => (.stored, storeBytes (placeWrites ps d) s)
  | .atomic op dbl v =>
    let n := if dbl then 8 else 4
    if ps.any (fun p => routeDown s p.2) then
      let (f, t) := s.takeFree
      (.data (toBytes n f.toNat) false, t)
    else if bad then (.data bytes true, s)
    else
      let new := amoNew op (8 * n) (ofBytes bytes) (v.toNat % 2 ^ (8 * n))
      (.data bytes false, storeBytes (placeWrites ps (toBytes n new)) s)

/-- A request answered by way of a map of addresses, with an answer of its own where it is refused. -/
def request (s : State) (f : Nat → Option (Aperture × Nat)) (refused : ExternalResult) (r : MemRequest) : State :=
  match placesBy f r.addr.toNat (requestBytes r.action) with
  | none => { s with result := refused }
  | some ps =>
    if requestHeld s ps then { s with result := .held }
    else
      let (x, t) := serve s r.action ps
      { t with result := x }

/-- An address of the PCI Express BAR: the cached aperture of the home regions, as realm 0 (R454, R460). -/
def pcieKey (s : State) (a : Nat) : Option (Aperture × Nat) :=
  if a < 0x10000000000 then localKey s (realmAgent 0) a else none

/-- PCIE_INBOUND_REQUEST (R460). -/
def execPcieInboundRequest (req : MemRequest) (s : State) : Res :=
  .next (if s.boot = .stopped then s else request s (pcieKey s) .completerAbort req)

/-- The apertures a remote device may use (R287), as the issuing realm (R454). -/
def shofinKey (s : State) (realm pa : Nat) : Option (Aperture × Nat) :=
  match localKey s (realmAgent realm) (localOf pa) with
  | some (.cached, k) => some (.cached, k)
  | some (.uncached, k) => some (.uncached, k)
  | some (.cxl, k) => some (.cxl, k)
  | _ => none

/-- Whether the route to a device retrains (R462). -/
def deviceWaits (s : State) (device : Nat) : Bool :=
  s.routes.any (fun r => r.device == device && r.status.waits)

/-- SHOFIN_REMOTE_REQUEST (R287, R454): held while the route retrains. -/
def execShofinRemoteRequest (device realm : Nat) (req : MemRequest) (s : State) : Res :=
  .next (if s.boot = .stopped then s
    else if deviceWaits s device then { s with result := .held }
    else request s (shofinKey s realm) .accessFault req)

/-! System cores (R303, R452, R454, R456). -/

/-- The offset of an address in the I/O register space (R452). -/
def ioOffset (s : State) (pa : Nat) : Option Nat :=
  let a := localOf pa
  if deviceOf pa = s.device ∧ 0x50000000000 ≤ a ∧ a < 0x50001000000 then some (a - 0x50000000000) else none

/-- The byte of an I/O register as read: LQCTLn, LQDOORn as 0, the drop counters (R456, R457, R459); any other byte is 0. -/
def ioByte (s : State) (off : Nat) : Byte :=
  if 0x10000 ≤ off ∧ off < 0x10400 then
    let o := off - 0x10000
    if o % 16 < 8 then byteOf (lqctlValue (s.queue (o / 16)) / 256 ^ (o % 8)) else 0#8
  else if 0x20000 ≤ off ∧ off < 0x20018 then
    let o := off - 0x20000
    byteOf (((s.frameDrops[o / 4]?).getD 0#32).toNat / 256 ^ (o % 4))
  else 0#8

/-- An access to the I/O register space: a doubleword store to LQCTLn writes ENABLE, an `amoswap.d` on LQDOORn is a doorbell, and any
other write does nothing (R456, R457). -/
def ioAccess (s : State) (core off : Nat) (r : MemAction) : State :=
  let door := decide (0x10000 ≤ off) && decide (off < 0x10400)
  let q := (off - 0x10000) / 16
  match r with
  | .load n => { s with result := .data ((List.range n).map (fun i => ioByte s (off + i))) false }
  | .store d =>
    let s1 := if door && off % 16 == 0 && d.length == 8 then writeLqctl s q (wordOfBytes d) else s
    { s1 with result := .stored }
  | .atomic op dbl v =>
    if door && off % 16 == 8 && dbl && op == .swap then
      if doorLocked s core v.toNat then { s with result := .held }
      else
        let (code, t) := doorbell s core q v.toNat
        { t with result := .data (toBytes 8 code) false }
    else { s with result := .data ((List.range (if dbl then 8 else 4)).map (fun i => ioByte s (off + i))) false }

/-- A poisoned load or atomic of a system core is the base access fault (R304). -/
def faultOnPoison (s : State) : State :=
  match s.result with
  | .data _ true => { s with result := .accessFault }
  | _ => s

/-! The system cores' own translation (R452): Sv48 and its two-stage form as the RISC-V base has them (PRESUMED, log 53). -/

/-- A CSR of a system core, by its number; one never written holds 0. -/
def SysCore.csr (c : SysCore) (n : Nat) : Nat := ((c.csrs.find? (fun x => x.1 == n)).map (fun x => x.2.toNat)).getD 0

/-- The mode a system core's loads and stores use: that of MPP and MPV in M mode with MPRV. -/
def SysCore.dataMode (c : SysCore) : SysMode :=
  let m := c.csr 0x300
  if c.mode = .machine ∧ m.testBit 17 = true then
    match getBits m 11 2, m.testBit 39 with
    | 3, _ => .machine
    | 0, false => .user
    | 0, true => .virtualUser
    | _, false => .hypervisor
    | _, true => .virtualSupervisor
  else c.mode

/-- What a stage of translation asks of a leaf: whether the access writes, whether it is one of a user, SUM and MXR. -/
structure SysAsk where
  write : Bool
  user : Bool
  sum : Bool
  mxr : Bool
deriving DecidableEq, Repr

/-- Whether a leaf gives an access; its A bit, and for a write its D bit, must be set already. -/
def SysAsk.given (a : SysAsk) (pte : Nat) : Bool :=
  (if a.write then pte.testBit 2 else pte.testBit 1 || (a.mxr && pte.testBit 3)) &&
  (if a.user then pte.testBit 4 else !(pte.testBit 4) || a.sum) && pte.testBit 6 && (!a.write || pte.testBit 7)

/-- Whether an entry is valid and none of its encodings is reserved. -/
def sysEntryOk (pte : Nat) : Bool := pte.testBit 0 && (pte.testBit 1 || !(pte.testBit 2)) && getBits pte 54 7 == 0

/-- The page a leaf at a level gives for a page number; a leaf with N set names 64 KiB. -/
def sysPage (pte level vpage : Nat) : Nat :=
  let ppn := getBits pte 10 44
  if pte.testBit 63 then ppn / 16 * 16 + vpage % 16 else ppn / 2 ^ (9 * level) * 2 ^ (9 * level) + vpage % 2 ^ (9 * level)

/-- Whether a leaf at a level is aligned to its size. -/
def sysAligned (pte level : Nat) : Bool :=
  getBits pte 10 (9 * level) == 0 && (!(pte.testBit 63) || (level == 0 && getBits pte 10 4 == 8))

/-- A walk from a table page, `n` levels left, the first index `width` bits wide: the leaf and its level, or the fault. -/
def sysWalk (read : Nat → Except ExternalResult Nat) (vpage : Nat) : Nat → Nat → Nat → Except ExternalResult (Nat × Nat)
  | 0, _, _ => .error .pageFault
  | level + 1, width, table =>
    match read (table * 4096 + 8 * (getBits vpage (9 * level) width)) with
    | .error r => .error r
    | .ok pte =>
      if sysEntryOk pte = false then .error .pageFault
      else if getBits pte 1 3 = 0 then
        if pte.testBit 4 || pte.testBit 6 || pte.testBit 7 || pte.testBit 63 then .error .pageFault
        else sysWalk read vpage level 9 (getBits pte 10 44)
      else if sysAligned pte level then .ok (pte, level)
      else .error .pageFault

/-- A table entry read by a system core's walk at a physical address, as an access below M mode (R454). -/
def readSysEntry (s : State) (pa : Nat) : Except ExternalResult Nat :=
  match placesBy (systemKey s false) pa 8 with
  | none => .error .accessFault
  | some ps =>
    if requestHeld s ps then .error .held
    else if ps.any (fun p => keyPoisoned s p.2) then .error .accessFault
    else .ok (ofBytes (ps.map (fun p => readThrough s p.1 p.2)))

/-- The second stage: the page of a guest-physical page under `hgatp`, Sv48x4 or none. -/
def guestPage (s : State) (c : SysCore) (write : Bool) (gpage : Nat) : Except ExternalResult Nat :=
  if wordField c.hgatp 60 4 = 0 then .ok gpage
  else if 2 ^ 38 ≤ gpage then .error .pageFault
  else
    match sysWalk (readSysEntry s) gpage 4 11 (wordField c.hgatp 0 44 / 4 * 4) with
    | .error r => .error r
    | .ok (pte, level) =>
      if (SysAsk.mk write true false ((c.csr 0x300).testBit 19)).given pte then .ok (sysPage pte level gpage) else .error .pageFault

/-- A first-stage table entry of a guest, at a guest-physical address. -/
def readGuestEntry (s : State) (c : SysCore) (gpa : Nat) : Except ExternalResult Nat :=
  match guestPage s c false (gpa / 4096) with
  | .error r => .error r
  | .ok page => readSysEntry s (page * 4096 + gpa % 4096)

/-- Whether a 48-bit virtual page is canonical. -/
def sysCanonical (vpage : Nat) : Bool := getBits vpage 35 17 == 0 || getBits vpage 35 17 == 2 ^ 17 - 1

/-- The translation a system core makes for a page: the leaf of its first stage and the page it gives. -/
def sysTranslation (s : State) (c : SysCore) (guest : Bool) (ask : SysAsk) (vpage : Nat) : Except ExternalResult SysTlbEntry :=
  let satp := if guest then c.vsatp else c.satp
  let bare := wordField satp 60 4 == 0
  let leaf : Except ExternalResult (Nat × Nat) :=
    if bare then .ok (0, 0)
    else if sysCanonical vpage = false then .error .pageFault
    else sysWalk (if guest then readGuestEntry s c else readSysEntry s) vpage 4 9 (wordField satp 0 44)
  match leaf with
  | .error r => .error r
  | .ok (pte, level) =>
    if !bare && !(ask.given pte) then .error .pageFault
    else
      let page := if bare then vpage else sysPage pte level vpage
      match (if guest then guestPage s c ask.write page else .ok page) with
      | .error r => .error r
      | .ok p =>
        .ok ⟨guest, if guest then wordField c.hgatp 44 14 else 0, wordField satp 44 16, vpage, BitVec.ofNat 64 pte, level, p⟩

/-- Whether a translation of a system core's TLB answers for a page. -/
def SysTlbEntry.hits (t : SysTlbEntry) (c : SysCore) (guest : Bool) (vpage : Nat) : Bool :=
  t.guest == guest && (!guest || t.vmid == wordField c.hgatp 44 14) &&
  (t.asid == wordField (if guest then c.vsatp else c.satp) 44 16 || t.leaf.getLsbD 5) && t.vpage == vpage

/-- The physical page of a virtual page for a system core's access, with the core's TLB after: what the TLB holds, or what a walk gives. A
first stage that is off is not held, and a guest's write asks its second stage again. -/
def sysTranslate (s : State) (core : Nat) (write : Bool) (vpage : Nat) : Except ExternalResult (Nat × State) :=
  let c := s.sysCore core
  let mode := c.dataMode
  let guest := mode == .virtualSupervisor || mode == .virtualUser
  let user := mode == .user || mode == .virtualUser
  let m := c.csr (if guest then 0x200 else 0x300)
  let ask : SysAsk := ⟨write, user, m.testBit 18, m.testBit 19 || (guest && (c.csr 0x300).testBit 19)⟩
  let bare := wordField (if guest then c.vsatp else c.satp) 60 4 == 0
  if mode = .machine ∨ (bare = true ∧ guest = false) then .ok (vpage, s)
  else
    match (if bare then none else c.tlb.find? (fun t => t.hits c guest vpage)).filter (fun t => ask.given t.leaf.toNat && (!guest || !write)) with
    | some t => .ok (t.page, s)
    | none =>
      match sysTranslation s c guest ask vpage with
      | .error r => .error r
      | .ok t =>
        .ok (t.page, if bare then s else s.setSysCore core { c with tlb := t :: c.tlb.filter (fun o => !(o.hits c guest vpage)) })

/-- The physical addresses of the pages that an access touches, from the first on, and the state its translation leaves. -/
def sysPages (core : Nat) (write : Bool) : List Nat → State → Except ExternalResult (List (Nat × Nat) × State)
  | [], s => .ok ([], s)
  | v :: vs, s =>
    match sysTranslate s core write v with
    | .error r => .error r
    | .ok (p, s1) =>
      match sysPages core write vs s1 with
      | .error r => .error r
      | .ok (ps, s2) => .ok ((v, p) :: ps, s2)

/-- The physical address of a virtual one among translated pages. -/
def sysAddress (ps : List (Nat × Nat)) (va : Nat) : Nat :=
  ((ps.find? (fun p => p.1 == wrap va / 4096)).map (fun p => p.2)).getD 0 * 4096 + va % 4096

/-- SYSTEM_CORE_MEMORY_ACCESS (R452, R454): an access of a system core in its mode, translated by its own tables and TLB. -/
def systemAccess (s : State) (core : Nat) (req : MemRequest) : State :=
  if s.booted = false then s
  else
    let va := req.addr.toNat
    let write := requestWrites req.action
    match sysPages core write ((List.range ((va % 4096 + requestBytes req.action - 1) / 4096 + 1)).map (fun i => wrap (va + 4096 * i) / 4096)) s with
    | .error r => { s with result := r }
    | .ok (ps, t) =>
      match ioOffset t (sysAddress ps va) with
      | some off => ioAccess t core off req.action
      | none => faultOnPoison (request t (fun a => coreKey t core write (sysAddress ps a)) .accessFault req)

/-- SYSTEM_CORE_MEMORY_ACCESS (R454). -/
def execSystemCoreMemoryAccess (core : Nat) (req : MemRequest) (s : State) : Res := .next (systemAccess s core req)

/-! Routes (R461, R462). -/

/-- The routes to a device replaced. -/
def State.mapRoute (s : State) (device : Nat) (f : RouteStatus → RouteStatus) : State :=
  { s with routes := s.routes.map (fun r => if r.device = device then { r with status := f r.status } else r) }

/-- A route that loses its link. -/
def RouteStatus.lose (now : Word) : RouteStatus → RouteStatus
  | .up => .retraining now
  | x => x

/-- SHOFIN_ROUTE_LOST (R462). -/
def execShofinRouteLost (device : Nat) (s : State) : Res := .next (s.mapRoute device (RouteStatus.lose s.time))

/-- SHOFIN_ROUTE_RETRAINED: the route up, its waiting accesses go on, and the port's retrain counted (R462, R444); no port retrains before
MEMREADY (R308), nor on a device whose boot stopped (R463). -/
def retrained (s : State) (device port : Nat) : State :=
  if s.memReady = false ∨ s.booted = false then s
  else
    let s1 := s.mapRoute device (fun _ => .up)
    let r := s1.report
    let n := r.retrains.setIfInBounds port (bump32 ((r.retrains[port]?).getD 0))
    { s1 with report := { r with retrains := n } }.wake .memory

/-- SHOFIN_ROUTE_RETRAINED (R462). -/
def execShofinRouteRetrained (device port : Nat) (s : State) : Res := .next (retrained s device port)

/-- Whether a route to a device has retrained for 10 ms (R462). -/
def routeExpired (s : State) (device : Nat) : Bool :=
  s.routes.any (fun r => r.device == device && (match r.status with | .retraining t => decide (t + 10000000#64 ≤ s.time) | _ => false))

/-- ROUTE_DOWN_TIMEOUT (R462). -/
def routeTimeout (s : State) (device : Nat) : State :=
  if routeExpired s device then
    let s1 := s.mapRoute device (fun _ => .down)
    let s2 := { s1 with systemEvents := s1.systemEvents ++ [SystemEvent.routeDown device] }
    s2.wake .memory
  else s

/-- ROUTE_DOWN_TIMEOUT (R462). -/
def execRouteDownTimeout (device : Nat) (s : State) : Res := .next (routeTimeout s device)

/-! The report card (R444, R445). -/

/-- A list of counts as little-endian fields. -/
def countBytes (n : Nat) (l : List Nat) (count : Nat) : List Byte :=
  (List.range count).flatMap (fun i => toBytes n (min (2 ^ (8 * n) - 1) (l.getD i 0)))

/-- The 3328 bytes of a report card (R444). -/
def reportBytes (r : ReportCard) : List Byte :=
  toBytes 4 0x44435052 ++ toBytes 2 1 ++ toBytes 2 0 ++ toBytes 8 r.sequence ++ wordBytes r.written ++ toBytes 8 r.powerOn ++
  countBytes 4 r.temperature.toList 64 ++ countBytes 4 r.supply.toList 512 ++ countBytes 4 r.corrected.toList 128 ++
  countBytes 4 r.mapOuts.toList 4 ++ countBytes 4 r.retrains.toList 32 ++ countBytes 8 r.powerBands.toList 8 ++
  countBytes 8 r.busywork.toList 16 ++ countBytes 4 r.throttles.toList 32 ++ toBytes 4 r.fatal ++ toBytes 12 0

/-- REPORT_CARD_WRITE (R445). -/
def execReportCardWrite (s : State) : Res := .next (if s.booted then writeCard s else s)

/-! The fatal dump (R466). -/

/-- The error record table as bytes (R398). -/
def errorTableBytes (s : State) : List Byte :=
  (List.range 64).flatMap (fun i =>
    match s.errors[i]? with
    | some e => (List.range 4).flatMap (fun j => toBytes 8 (errorWord e j))
    | none => toBytes 32 0)

/-- The record of one hart (R466). -/
def hartDump (s : State) (h : Hart) : List Byte :=
  let t := { s with hart := h }
  wordBytes h.vepc ++ wordBytes h.vcause ++ wordBytes h.vtval ++ wordBytes h.sepc ++ wordBytes h.scause ++
  toBytes 8 (readCoreid t) ++ wordBytes (readGangid t) ++ toBytes 8 0

/-- The head of every launch queue, zero where it is empty. -/
def headBytes (s : State) : List Byte :=
  s.queues.toList.flatMap (fun q => toBytes 128 ((q.records.head?.map BitVec.toNat).getD 0))

/-- The four sections of a dump: type and bytes. -/
def dumpSections (s : State) : List (Nat × List Byte) :=
  [(1, reportBytes s.report), (2, errorTableBytes s), (3, s.harts.flatMap (hartDump s)), (4, headBytes s)]

/-- The descriptors of some sections from an offset. -/
def sectionTable : Nat → List (Nat × List Byte) → List Byte
  | _, [] => []
  | off, (t, bs) :: rest => toBytes 4 t ++ toBytes 4 0 ++ toBytes 4 off ++ toBytes 4 bs.length ++ sectionTable (off + bs.length) rest

/-- The bytes of a dump (R466). -/
def dumpBytes (s : State) (reason : Nat) : List Byte :=
  let ss := dumpSections s
  toBytes 4 0x504D5544 ++ toBytes 4 1 ++ wordBytes s.time ++ toBytes 4 reason ++ toBytes 4 ss.length ++
  toBytes 8 s.report.sequence ++ toBytes 32 0 ++ sectionTable (64 + 16 * ss.length) ss ++ ss.flatMap (fun x => x.2)

/-- FATAL_DUMP: the error counted, the card written, then the dump at the start of its region (R445, R466, R291). -/
def dump (s : State) (reason : Nat) : State :=
  let s1 := countFatal s
  storeRun 0x100000000 (dumpBytes s1 reason) s1

/-- FATAL_DUMP (R466), for a reason the spec lists; firmware's stores are held until MEMREADY (R308). -/
def execFatalDump (reason : Nat) (s : State) : Res :=
  .next (if 1 ≤ reason ∧ reason ≤ 4 ∧ s.booted = true ∧ s.memReady = true then dump s reason else s)

/-! Attestation (R464). -/

/-- A digest as bytes. -/
def digestBytes (d : BitVec 384) : List Byte := toBytes 48 d.toNat

/-- A realm's measurement. -/
def measured (s : State) (realm : Nat) : BitVec 384 := ((s.measurements.find? (fun m => m.1 == realm)).map (fun m => m.2)).getD 0#384

/-- The signed part of a report (R464). -/
def reportBody (s : State) (realm : Nat) (nonce : List Byte) : List Byte :=
  toBytes 4 0x54414B41 ++ toBytes 4 1 ++ wordBytes s.time ++ nonce ++ digestBytes (Config.sha384 Config.identityPublicKey) ++
  (List.range 3).flatMap (fun i => digestBytes (s.images.getD i 0#384)) ++ toBytes 4 realm ++ toBytes 4 0 ++
  digestBytes (measured s realm)

/-- ATTESTATION_REQUEST (R464): a nonce of 32 bytes is answered with a report of 392 bytes. -/
def execAttestationRequest (realm : Nat) (nonce : List Byte) (s : State) : Res :=
  if nonce.length = 32 ∧ s.booted = true then
    let body := reportBody s realm nonce
    .next { s with attestation := body ++ toBytes 96 (Config.identitySign body).toNat }
  else .next s

/-! Resets (R307, R463, R465). -/

/-- The check of one boot image by the stage before it (R463). -/
def imagePasses (i : BootImage) : Bool :=
  Config.ecdsaVerify i.verifyingKey i.body i.signature && decide (Config.fusedRollback ≤ i.version)

/-- Whether the boot chain passes: the key of stage 1 hashes to the fused value, and each stage passes (R463). -/
def chainPasses (b : BootImages) : Bool :=
  decide (Config.sha384 b.stage1.verifyingKey = Config.fusedKeyHash) && imagePasses b.stage1 && imagePasses b.firmware &&
  imagePasses b.supervisor

/-- A home region after a cold reset: the redirect table as flash mirrors it (R396). -/
def Region.cold (r : Region) : Region := { Region.reset with redirects := r.flash, flash := r.flash, slots := r.slots }

/-- An expander as enumeration finds it (R460). -/
def enumerated (units : List Nat) (i : Nat) : Expander :=
  match units[i]? with
  | some n => ⟨n != 0, n, 0⟩
  | none => ⟨false, 0, 0⟩

/-- COLD_RESET (R463): the reset state, with what module flash holds. -/
def coldState (b : BootImages) (s : State) : State :=
  { State.reset with
    freeCounter := s.freeCounter, regions := s.regions.map Region.cold, report := s.flashReport, flashReport := s.flashReport,
    boot := if chainPasses b then .running else .stopped,
    images := if chainPasses b then [Config.sha384 b.stage1.body, Config.sha384 b.firmware.body, Config.sha384 b.supervisor.body] else [],
    device := if chainPasses b then b.device else 0,
    expanders := if chainPasses b then Vector.ofFn (fun (i : Fin 4) => enumerated b.expanderUnits i.val)
      else Vector.replicate 4 ⟨false, 0, 0⟩ }

/-- COLD_RESET (R463). -/
def execColdReset (boot : BootImages) (s : State) : Res := .next (coldState boot s)

/-- A home region after a warm reset (R307). -/
def Region.warm (r : Region) : Region := { r with window := 16, vacating := none }

/-- An expander after a warm reset: nothing is outstanding (R307). -/
def Expander.warm (e : Expander) : Expander := { e with outstanding := 0 }

/-- WARM_RESET (R465, R307): what survives is HBM with its sidecars and the poison of its lines, the redirect table, the error records, the
granule table, the expanders' contents, the report card, `time` and what boot fixed; L2 and the scratchpads are scrubbed, and the poison
of their 8-byte units with them; the rest is as after reset. The error entries stay as they are: R398 gives CLEARED to a store of the
whole unit, and R307 does not say that a scrub sets it (DESIGN CHOICE, log 44). -/
def warmState (s : State) : State :=
  { State.reset with
    mem := memErase s.mem 0x30000000000 0x10000000,
    poison := s.poison.filter (fun u => !(isScratchKey u.base) && u.size == 64),
    kinds := s.kinds, regions := s.regions.map Region.warm, expanders := s.expanders.map Expander.warm,
    errHead := s.errHead, errors := s.errors, time := s.time, slew := s.slew, slewed := s.slewed, device := s.device,
    routes := s.routes.map (fun r => { r with status := .untrained }), granules := s.granules, report := s.report,
    flashReport := s.flashReport, measurements := s.measurements, images := s.images, boot := s.boot,
    freeCounter := s.freeCounter, nextKey := s.nextKey }

/-- WARM_RESET (R465). -/
def execWarmReset (s : State) : Res := .next (warmState s)

/-! What firmware, the fabric manager and the system cores' own programs do (log 61). -/

/-- A key entry loaded at its index (R458). -/
def loadKey (s : State) (k : EthKey) : State :=
  if k.index < 1024 then { s with keys := k :: s.keys.filter (fun o => o.index != k.index) } else s

/-- The table entry of a realm written (R453). -/
def setRealm (s : State) (e : RealmEntry) : State := { s with realms := e :: s.realms.filter (fun o => o.realm != e.realm) }

/-- A code object registered for a realm: its measurement extended with the object's SHA-384 (R464; log 61). -/
def registerCode (s : State) (realm : Nat) (object : List Byte) : State :=
  let m := Config.sha384 (digestBytes (measured s realm) ++ digestBytes (Config.sha384 object))
  { s with measurements := (realm, m) :: s.measurements.filter (fun o => o.1 != realm) }

/-- A row of the routing table added or taken out (R461). -/
def setRoute (s : State) (device : Nat) (up : Bool) : State :=
  let rest := s.routes.filter (fun r => r.device != device)
  { s with routes := if up then rest ++ [⟨device, if s.memReady then .up else .untrained⟩] else rest }

/-- A count of 64 bits, saturating (R444). -/
def bump64 (n : Nat) : Nat := min (2 ^ 64 - 1) (n + 1)

/-- The temperature bin of a die: bin 0 below 30 °C, bin k from 25 + 5k °C for 5 °C, bin 15 from 100 °C (R444). -/
def temperatureBin (millidegrees : Int) : Nat := min 15 ((millidegrees - 25000).toNat / 5000)

/-- The voltage bin of a string, in units of 0.1 mV: bin 0 below 1.7125 V, bin k from 1.7125 + 0.0125(k − 1) V, bin 15 from 1.8875 V (R444). -/
def voltageBin (tenths : Nat) : Nat := if tenths < 17125 then 0 else min 15 ((tenths - 17125) / 125 + 1)

/-- The band of a module power: 300 W each, band 7 from 2100 W (R444). -/
def powerBand (milliwatts : Nat) : Nat := min 7 (milliwatts / 300000)

/-- The bin of a busywork share: sixteenths, bin 15 with 1 (R444). -/
def busyBin (busy cycles : Nat) : Nat := min 15 (16 * busy / cycles)

/-- A sample added to the report card (R444). -/
def addSample (r : ReportCard) (c : CardSample) : ReportCard :=
  match c with
  | .powered => { r with powerOn := bump64 r.powerOn }
  | .temperature die t =>
    let i := 16 * die + temperatureBin t
    { r with temperature := r.temperature.setIfInBounds i (bump32 ((r.temperature[i]?).getD 0)) }
  | .supply string v =>
    let i := 16 * string + voltageBin v
    { r with supply := r.supply.setIfInBounds i (bump32 ((r.supply[i]?).getD 0)) }
  | .power p => { r with powerBands := r.powerBands.setIfInBounds (powerBand p) (bump64 ((r.powerBands[powerBand p]?).getD 0)) }
  | .busywork n total => { r with busywork := r.busywork.setIfInBounds (busyBin n total) (bump64 ((r.busywork[busyBin n total]?).getD 0)) }

/-- The system cores restarted from the boot ROM: the end of a reset (R465). -/
def restart (s : State) : State :=
  if restartDue s then { s with restarted := true, sysCores := Vector.replicate 16 SysCore.reset } else s

/-- An act of firmware, the fabric manager or a system core's own program, on a device whose boot has not stopped (R463; log 61). -/
def firmwareAct (a : FirmwareAct) (s : State) : State :=
  if s.booted = false then s
  else
    match a with
    | .loadKey k => loadKey s k
    | .setRealm e => setRealm s e
    | .registerCode realm object => registerCode s realm object
    | .setRoute device up => setRoute s device up
    | .setDevice device => if device < 2048 then { s with device := device } else s
    | .sample c => { s with report := addSample s.report c }
    | .rowRequest addr => rowRequest s (localOf addr.toNat)
    | .cxlRequest expander => cxlRequest s expander
    | .cxlServed expander => cxlServed s expander
    | .restart => restart s
    | .systemCore n c => s.setSysCore n c

end Sys2Proof.Machine
end

