-- ==== Sys2Proof/Machine/Dispatch.lean ====
section
/-! DEFINITION. The one place that gives each instruction and event its meaning: one arm per constructor. -/

namespace Sys2Proof.Machine

/-- The meaning of an instruction or event. -/
def exec (i : Instr) (s : State) : Host.Outcome State Fault Refusal :=
  match i with
  | .scalarBaseInstruction imm => Sys2Proof.Machine.execScalarBaseInstruction imm s
  | .fence fm pred succ rs1 rd => Sys2Proof.Machine.execFence fm pred succ rs1 rd s
  | .fenceI imm rs1 rd => Sys2Proof.Machine.execFenceI imm rs1 rd s
  | .sfenceVma rs1 rs2 => Sys2Proof.Machine.execSfenceVma rs1 rs2 s
  | .wfi => Sys2Proof.Machine.execWfi s
  | .ecall => Sys2Proof.Machine.execEcall s
  | .ebreak => Sys2Proof.Machine.execEbreak s
  | .lrSc imm => Sys2Proof.Machine.execLrSc imm s
  | .grantWindow hid => Sys2Proof.Machine.execGrantWindow hid s
  | .revokeWindow hid => Sys2Proof.Machine.execRevokeWindow hid s
  | .assignGranules caller a0 a1 a2 => Sys2Proof.Machine.execAssignGranules caller a0 a1 a2 s
  | .releaseGranules caller a0 a1 => Sys2Proof.Machine.execReleaseGranules caller a0 a1 s
  | .setQueueOwner caller a0 a1 => Sys2Proof.Machine.execSetQueueOwner caller a0 a1 s
  | .illegalInstruction word => Sys2Proof.Machine.execIllegalInstruction word s
  | .viqAdmission core => Sys2Proof.Machine.execViqAdmission core s
  | .viqHeadAged hid => Sys2Proof.Machine.execViqHeadAged hid s
  | .microOpIssue hid => Sys2Proof.Machine.execMicroOpIssue hid s
  | .vectorInstructionComplete hid => Sys2Proof.Machine.execVectorInstructionComplete hid s
  | .pinEntriesFree core => Sys2Proof.Machine.execPinEntriesFree core s
  | .storePerformed source => Sys2Proof.Machine.execStorePerformed source s
  | .arrivalPointerAdvance core bank bytes => Sys2Proof.Machine.execArrivalPointerAdvance core bank bytes s
  | .aldCAttempt hid => Sys2Proof.Machine.execAldCAttempt hid s
  | .lineLockRelease hid => Sys2Proof.Machine.execLineLockRelease hid s
  | .nmLineApply cmd line => Sys2Proof.Machine.execNmLineApply cmd line s
  | .nmCompletionRecord cmd => Sys2Proof.Machine.execNmCompletionRecord cmd s
  | .cxlRequestIssue expander => Sys2Proof.Machine.execCxlRequestIssue expander s
  | .rowActivation region channel => Sys2Proof.Machine.execRowActivation region channel s
  | .callGraphPrefetch hid => Sys2Proof.Machine.execCallGraphPrefetch hid s
  | .sequentialPrefetch hid => Sys2Proof.Machine.execSequentialPrefetch hid s
  | .vectorTrap hid => Sys2Proof.Machine.execVectorTrap hid s
  | .userAnchorDelivery hid => Sys2Proof.Machine.execUserAnchorDelivery hid s
  | .interrupt hid => Sys2Proof.Machine.execInterrupt hid s
  | .hartFatalError hid => Sys2Proof.Machine.execHartFatalError hid s
  | .supervisorTerminate hid => Sys2Proof.Machine.execSupervisorTerminate hid s
  | .launchCheck queue => Sys2Proof.Machine.execLaunchCheck queue s
  | .queueHeadAging queue => Sys2Proof.Machine.execQueueHeadAging queue s
  | .gangPlacement die => Sys2Proof.Machine.execGangPlacement die s
  | .reclaimTakesEffect gang => Sys2Proof.Machine.execReclaimTakesEffect gang s
  | .reclaimAbandon gang => Sys2Proof.Machine.execReclaimAbandon gang s
  | .fullContextSwitch gang => Sys2Proof.Machine.execFullContextSwitch gang s
  | .timeSliceExpiry gang => Sys2Proof.Machine.execTimeSliceExpiry gang s
  | .gangRestore die => Sys2Proof.Machine.execGangRestore die s
  | .gangRetire gang => Sys2Proof.Machine.execGangRetire gang s
  | .launchComplete launch => Sys2Proof.Machine.execLaunchComplete launch s
  | .heldSuccessorEntersQueue queue => Sys2Proof.Machine.execHeldSuccessorEntersQueue queue s
  | .lqRecordEntersQueue hid => Sys2Proof.Machine.execLqRecordEntersQueue hid s
  | .barrierPhaseComplete gang barrier => Sys2Proof.Machine.execBarrierPhaseComplete gang barrier s
  | .pigeonholeValueArrives hid => Sys2Proof.Machine.execPigeonholeValueArrives hid s
  | .waitMemReread hid => Sys2Proof.Machine.execWaitMemReread hid s
  | .waitTimeDeadline hid => Sys2Proof.Machine.execWaitTimeDeadline hid s
  | .pwrgrantWrite op rd src => Sys2Proof.Machine.execPwrgrantWrite op rd src s
  | .chainpermWrite op rd src => Sys2Proof.Machine.execChainpermWrite op rd src s
  | .busyctlWrite op rd src => Sys2Proof.Machine.execBusyctlWrite op rd src s
  | .vdeskWrite op rd src => Sys2Proof.Machine.execVdeskWrite op rd src s
  | .satpWrite op rd src => Sys2Proof.Machine.execSatpWrite op rd src s
  | .mhpmcounterWrite op rd n src => Sys2Proof.Machine.execMhpmcounterWrite op rd n src s
  | .mhpmeventWrite op rd n src => Sys2Proof.Machine.execMhpmeventWrite op rd n src s
  | .csrWrite op rd csr src => Sys2Proof.Machine.execCsrWrite op rd csr src s
  | .lqctlWrite queue value => Sys2Proof.Machine.execLqctlWrite queue value s
  | .lqDoorbell door record => Sys2Proof.Machine.execLqDoorbell door record s
  | .launchFrameReceive frame => Sys2Proof.Machine.execLaunchFrameReceive frame s
  | .pcieInboundRequest req => Sys2Proof.Machine.execPcieInboundRequest req s
  | .shofinRemoteRequest device realm req => Sys2Proof.Machine.execShofinRemoteRequest device realm req s
  | .routeDownTimeout device => Sys2Proof.Machine.execRouteDownTimeout device s
  | .timestampExchange correction => Sys2Proof.Machine.execTimestampExchange correction s
  | .timebaseTick => Sys2Proof.Machine.execTimebaseTick s
  | .stringWindow string plans => Sys2Proof.Machine.execStringWindow string plans s
  | .stringStepUp string => Sys2Proof.Machine.execStringStepUp string s
  | .powerManagerPeriod reading => Sys2Proof.Machine.execPowerManagerPeriod reading s
  | .lanePowerGate core lane => Sys2Proof.Machine.execLanePowerGate core lane s
  | .laneWake core lane => Sys2Proof.Machine.execLaneWake core lane s
  | .uncorrectableError source addr => Sys2Proof.Machine.execUncorrectableError source addr s
  | .correctableError stack layer => Sys2Proof.Machine.execCorrectableError stack layer s
  | .l1dParityError addr dirty => Sys2Proof.Machine.execL1dParityError addr dirty s
  | .layerMapOut region stack layer => Sys2Proof.Machine.execLayerMapOut region stack layer s
  | .mapOutVacated region => Sys2Proof.Machine.execMapOutVacated region s
  | .mapOutLineMove region => Sys2Proof.Machine.execMapOutLineMove region s
  | .coldReset boot => Sys2Proof.Machine.execColdReset boot s
  | .warmReset => Sys2Proof.Machine.execWarmReset s
  | .memready => Sys2Proof.Machine.execMemready s
  | .attestationRequest realm nonce => Sys2Proof.Machine.execAttestationRequest realm nonce s
  | .reportCardWrite => Sys2Proof.Machine.execReportCardWrite s
  | .fatalDump reason => Sys2Proof.Machine.execFatalDump reason s
  | .shofinRouteLost device => Sys2Proof.Machine.execShofinRouteLost device s
  | .shofinRouteRetrained device port => Sys2Proof.Machine.execShofinRouteRetrained device port s
  | .phyTrainingComplete d2d die => Sys2Proof.Machine.execPhyTrainingComplete d2d die s
  | .systemCoreMemoryAccess core req => Sys2Proof.Machine.execSystemCoreMemoryAccess core req s
  | .addVv m b a d => Sys2Proof.Machine.execAddVv m b a d s
  | .addVx m b a d => Sys2Proof.Machine.execAddVx m b a d s
  | .addVi m b a d => Sys2Proof.Machine.execAddVi m b a d s
  | .addVq m b q d => Sys2Proof.Machine.execAddVq m b q d s
  | .addVn m b a d => Sys2Proof.Machine.execAddVn m b a d s
  | .subVv m b a d => Sys2Proof.Machine.execSubVv m b a d s
  | .subVx m b a d => Sys2Proof.Machine.execSubVx m b a d s
  | .subVi m b a d => Sys2Proof.Machine.execSubVi m b a d s
  | .subVq m b q d => Sys2Proof.Machine.execSubVq m b q d s
  | .subVn m b a d => Sys2Proof.Machine.execSubVn m b a d s
  | .rsubVv m b a d => Sys2Proof.Machine.execRsubVv m b a d s
  | .rsubVx m b a d => Sys2Proof.Machine.execRsubVx m b a d s
  | .rsubVi m b a d => Sys2Proof.Machine.execRsubVi m b a d s
  | .rsubVq m b q d => Sys2Proof.Machine.execRsubVq m b q d s
  | .rsubVn m b a d => Sys2Proof.Machine.execRsubVn m b a d s
  | .mulVv m b a d => Sys2Proof.Machine.execMulVv m b a d s
  | .mulVx m b a d => Sys2Proof.Machine.execMulVx m b a d s
  | .mulVi m b a d => Sys2Proof.Machine.execMulVi m b a d s
  | .mulVq m b q d => Sys2Proof.Machine.execMulVq m b q d s
  | .mulVn m b a d => Sys2Proof.Machine.execMulVn m b a d s
  | .mulhVv m b a d => Sys2Proof.Machine.execMulhVv m b a d s
  | .mulhVx m b a d => Sys2Proof.Machine.execMulhVx m b a d s
  | .mulhVi m b a d => Sys2Proof.Machine.execMulhVi m b a d s
  | .mulhVq m b q d => Sys2Proof.Machine.execMulhVq m b q d s
  | .mulhVn m b a d => Sys2Proof.Machine.execMulhVn m b a d s
  | .minVv m b a d => Sys2Proof.Machine.execMinVv m b a d s
  | .minVx m b a d => Sys2Proof.Machine.execMinVx m b a d s
  | .minVi m b a d => Sys2Proof.Machine.execMinVi m b a d s
  | .minVq m b q d => Sys2Proof.Machine.execMinVq m b q d s
  | .minVn m b a d => Sys2Proof.Machine.execMinVn m b a d s
  | .maxVv m b a d => Sys2Proof.Machine.execMaxVv m b a d s
  | .maxVx m b a d => Sys2Proof.Machine.execMaxVx m b a d s
  | .maxVi m b a d => Sys2Proof.Machine.execMaxVi m b a d s
  | .maxVq m b q d => Sys2Proof.Machine.execMaxVq m b q d s
  | .maxVn m b a d => Sys2Proof.Machine.execMaxVn m b a d s
  | .andVv m b a d => Sys2Proof.Machine.execAndVv m b a d s
  | .andVx m b a d => Sys2Proof.Machine.execAndVx m b a d s
  | .andVi m b a d => Sys2Proof.Machine.execAndVi m b a d s
  | .andVq m b q d => Sys2Proof.Machine.execAndVq m b q d s
  | .andVn m b a d => Sys2Proof.Machine.execAndVn m b a d s
  | .orVv m b a d => Sys2Proof.Machine.execOrVv m b a d s
  | .orVx m b a d => Sys2Proof.Machine.execOrVx m b a d s
  | .orVi m b a d => Sys2Proof.Machine.execOrVi m b a d s
  | .orVq m b q d => Sys2Proof.Machine.execOrVq m b q d s
  | .orVn m b a d => Sys2Proof.Machine.execOrVn m b a d s
  | .xorVv m b a d => Sys2Proof.Machine.execXorVv m b a d s
  | .xorVx m b a d => Sys2Proof.Machine.execXorVx m b a d s
  | .xorVi m b a d => Sys2Proof.Machine.execXorVi m b a d s
  | .xorVq m b q d => Sys2Proof.Machine.execXorVq m b q d s
  | .xorVn m b a d => Sys2Proof.Machine.execXorVn m b a d s
  | .sllVv m b a d => Sys2Proof.Machine.execSllVv m b a d s
  | .sllVx m b a d => Sys2Proof.Machine.execSllVx m b a d s
  | .sllVi m b a d => Sys2Proof.Machine.execSllVi m b a d s
  | .sllVq m b q d => Sys2Proof.Machine.execSllVq m b q d s
  | .sllVn m b a d => Sys2Proof.Machine.execSllVn m b a d s
  | .srlVv m b a d => Sys2Proof.Machine.execSrlVv m b a d s
  | .srlVx m b a d => Sys2Proof.Machine.execSrlVx m b a d s
  | .srlVi m b a d => Sys2Proof.Machine.execSrlVi m b a d s
  | .srlVq m b q d => Sys2Proof.Machine.execSrlVq m b q d s
  | .srlVn m b a d => Sys2Proof.Machine.execSrlVn m b a d s
  | .sraVv m b a d => Sys2Proof.Machine.execSraVv m b a d s
  | .sraVx m b a d => Sys2Proof.Machine.execSraVx m b a d s
  | .sraVi m b a d => Sys2Proof.Machine.execSraVi m b a d s
  | .sraVq m b q d => Sys2Proof.Machine.execSraVq m b q d s
  | .sraVn m b a d => Sys2Proof.Machine.execSraVn m b a d s
  | .macVv m b a d => Sys2Proof.Machine.execMacVv m b a d s
  | .macVx m b a d => Sys2Proof.Machine.execMacVx m b a d s
  | .macVi m b a d => Sys2Proof.Machine.execMacVi m b a d s
  | .macVq m b q d => Sys2Proof.Machine.execMacVq m b q d s
  | .macVn m b a d => Sys2Proof.Machine.execMacVn m b a d s
  | .cmpVv m b a c e => Sys2Proof.Machine.execCmpVv m b a c e s
  | .cmpVx m b a c e => Sys2Proof.Machine.execCmpVx m b a c e s
  | .cmpVi m b a c e => Sys2Proof.Machine.execCmpVi m b a c e s
  | .cmpVq m b q c e => Sys2Proof.Machine.execCmpVq m b q c e s
  | .cmpVn m b a c e => Sys2Proof.Machine.execCmpVn m b a c e s
  | .cmpzVv m b a c e => Sys2Proof.Machine.execCmpzVv m b a c e s
  | .cmpzVx m b a c e => Sys2Proof.Machine.execCmpzVx m b a c e s
  | .cmpzVi m b a c e => Sys2Proof.Machine.execCmpzVi m b a c e s
  | .cmpzVq m b q c e => Sys2Proof.Machine.execCmpzVq m b q c e s
  | .cmpzVn m b a c e => Sys2Proof.Machine.execCmpzVn m b a c e s
  | .minzXv m b a d => Sys2Proof.Machine.execMinzXv m b a d s
  | .minzXx m b a d => Sys2Proof.Machine.execMinzXx m b a d s
  | .maxzXv m b a d => Sys2Proof.Machine.execMaxzXv m b a d s
  | .maxzXx m b a d => Sys2Proof.Machine.execMaxzXx m b a d s
  | .mulhzXv m b a d => Sys2Proof.Machine.execMulhzXv m b a d s
  | .mulhzXx m b a d => Sys2Proof.Machine.execMulhzXx m b a d s
  | .divXv m b a d => Sys2Proof.Machine.execDivXv m b a d s
  | .divXx m b a d => Sys2Proof.Machine.execDivXx m b a d s
  | .divzXv m b a d => Sys2Proof.Machine.execDivzXv m b a d s
  | .divzXx m b a d => Sys2Proof.Machine.execDivzXx m b a d s
  | .remXv m b a d => Sys2Proof.Machine.execRemXv m b a d s
  | .remXx m b a d => Sys2Proof.Machine.execRemXx m b a d s
  | .remzXv m b a d => Sys2Proof.Machine.execRemzXv m b a d s
  | .remzXx m b a d => Sys2Proof.Machine.execRemzXx m b a d s
  | .saddXv m b a d => Sys2Proof.Machine.execSaddXv m b a d s
  | .saddXx m b a d => Sys2Proof.Machine.execSaddXx m b a d s
  | .ssubXv m b a d => Sys2Proof.Machine.execSsubXv m b a d s
  | .ssubXx m b a d => Sys2Proof.Machine.execSsubXx m b a d s
  | .waddXv m b a d => Sys2Proof.Machine.execWaddXv m b a d s
  | .waddXx m b a d => Sys2Proof.Machine.execWaddXx m b a d s
  | .wmulXv m b a d => Sys2Proof.Machine.execWmulXv m b a d s
  | .wmulXx m b a d => Sys2Proof.Machine.execWmulXx m b a d s
  | .sext m b f d => Sys2Proof.Machine.execSext m b f d s
  | .zext m b f d => Sys2Proof.Machine.execZext m b f d s
  | .narrow m b f d => Sys2Proof.Machine.execNarrow m b f d s
  | .narrowz m b f d => Sys2Proof.Machine.execNarrowz m b f d s
  | .absdXv m b a d => Sys2Proof.Machine.execAbsdXv m b a d s
  | .absdXx m b a d => Sys2Proof.Machine.execAbsdXx m b a d s
  | .bitc m b o d => Sys2Proof.Machine.execBitc m b o d s
  | .faddVv m b a d => Sys2Proof.Machine.execFaddVv m b a d s
  | .faddVx m b a d => Sys2Proof.Machine.execFaddVx m b a d s
  | .faddVq m b q d => Sys2Proof.Machine.execFaddVq m b q d s
  | .faddVn m b a d => Sys2Proof.Machine.execFaddVn m b a d s
  | .fsubVv m b a d => Sys2Proof.Machine.execFsubVv m b a d s
  | .fsubVx m b a d => Sys2Proof.Machine.execFsubVx m b a d s
  | .fsubVq m b q d => Sys2Proof.Machine.execFsubVq m b q d s
  | .fsubVn m b a d => Sys2Proof.Machine.execFsubVn m b a d s
  | .fmulVv m b a d => Sys2Proof.Machine.execFmulVv m b a d s
  | .fmulVx m b a d => Sys2Proof.Machine.execFmulVx m b a d s
  | .fmulVq m b q d => Sys2Proof.Machine.execFmulVq m b q d s
  | .fmulVn m b a d => Sys2Proof.Machine.execFmulVn m b a d s
  | .fdivVv m b a d => Sys2Proof.Machine.execFdivVv m b a d s
  | .fdivVx m b a d => Sys2Proof.Machine.execFdivVx m b a d s
  | .fdivVq m b q d => Sys2Proof.Machine.execFdivVq m b q d s
  | .fdivVn m b a d => Sys2Proof.Machine.execFdivVn m b a d s
  | .fminVv m b a d => Sys2Proof.Machine.execFminVv m b a d s
  | .fminVx m b a d => Sys2Proof.Machine.execFminVx m b a d s
  | .fminVq m b q d => Sys2Proof.Machine.execFminVq m b q d s
  | .fminVn m b a d => Sys2Proof.Machine.execFminVn m b a d s
  | .fmaxVv m b a d => Sys2Proof.Machine.execFmaxVv m b a d s
  | .fmaxVx m b a d => Sys2Proof.Machine.execFmaxVx m b a d s
  | .fmaxVq m b q d => Sys2Proof.Machine.execFmaxVq m b q d s
  | .fmaxVn m b a d => Sys2Proof.Machine.execFmaxVn m b a d s
  | .fmaddVv m b a d => Sys2Proof.Machine.execFmaddVv m b a d s
  | .fmaddVx m b a d => Sys2Proof.Machine.execFmaddVx m b a d s
  | .fmaddVq m b q d => Sys2Proof.Machine.execFmaddVq m b q d s
  | .fmaddVn m b a d => Sys2Proof.Machine.execFmaddVn m b a d s
  | .fnmsubVv m b a d => Sys2Proof.Machine.execFnmsubVv m b a d s
  | .fnmsubVx m b a d => Sys2Proof.Machine.execFnmsubVx m b a d s
  | .fnmsubVq m b q d => Sys2Proof.Machine.execFnmsubVq m b q d s
  | .fnmsubVn m b a d => Sys2Proof.Machine.execFnmsubVn m b a d s
  | .fcmpVv m b a c e => Sys2Proof.Machine.execFcmpVv m b a c e s
  | .fcmpVx m b a c e => Sys2Proof.Machine.execFcmpVx m b a c e s
  | .fcmpVq m b q c e => Sys2Proof.Machine.execFcmpVq m b q c e s
  | .fcmpVn m b a c e => Sys2Proof.Machine.execFcmpVn m b a c e s
  | .fsqrt m b d => Sys2Proof.Machine.execFsqrt m b d s
  | .frec m b d => Sys2Proof.Machine.execFrec m b d s
  | .frsq m b d => Sys2Proof.Machine.execFrsq m b d s
  | .fexp2 m b d => Sys2Proof.Machine.execFexp2 m b d s
  | .fcvt m b c d => Sys2Proof.Machine.execFcvt m b c d s
  | .fclass m b d => Sys2Proof.Machine.execFclass m b d s
  | .fround m b d => Sys2Proof.Machine.execFround m b d s
  | .fsgnjXv m b a d => Sys2Proof.Machine.execFsgnjXv m b a d s
  | .fsgnjXx m b a d => Sys2Proof.Machine.execFsgnjXx m b a d s
  | .fsgnjnXv m b a d => Sys2Proof.Machine.execFsgnjnXv m b a d s
  | .fsgnjnXx m b a d => Sys2Proof.Machine.execFsgnjnXx m b a d s
  | .fsgnjxXv m b a d => Sys2Proof.Machine.execFsgnjxXv m b a d s
  | .fsgnjxXx m b a d => Sys2Proof.Machine.execFsgnjxXx m b a d s
  | .fwaddXv m b a d => Sys2Proof.Machine.execFwaddXv m b a d s
  | .fwaddXx m b a d => Sys2Proof.Machine.execFwaddXx m b a d s
  | .fwmulXv m b a d => Sys2Proof.Machine.execFwmulXv m b a d s
  | .fwmulXx m b a d => Sys2Proof.Machine.execFwmulXx m b a d s
  | .fwmacXv m b a d => Sys2Proof.Machine.execFwmacXv m b a d s
  | .fwmacXx m b a d => Sys2Proof.Machine.execFwmacXx m b a d s
  | .vquant m b a d => Sys2Proof.Machine.execVquant m b a d s
  | .vdequant m b a d => Sys2Proof.Machine.execVdequant m b a d s
  | .vqef m b a d => Sys2Proof.Machine.execVqef m b a d s
  | .vbscale m b a d => Sys2Proof.Machine.execVbscale m b a d s
  | .vouts m b a d => Sys2Proof.Machine.execVouts m b a d s
  | .mand b a d => Sys2Proof.Machine.execMand b a d s
  | .mor b a d => Sys2Proof.Machine.execMor b a d s
  | .mxor b a d => Sys2Proof.Machine.execMxor b a d s
  | .mandn b a d => Sys2Proof.Machine.execMandn b a d s
  | .mpop m b d => Sys2Proof.Machine.execMpop m b d s
  | .mfirst m b d => Sys2Proof.Machine.execMfirst m b d s
  | .iota m b d => Sys2Proof.Machine.execIota m b d s
  | .vid m d => Sys2Proof.Machine.execVid m d s
  | .slideupVx m b a d => Sys2Proof.Machine.execSlideupVx m b a d s
  | .slideupVi m b a d => Sys2Proof.Machine.execSlideupVi m b a d s
  | .slideupVn m b a d => Sys2Proof.Machine.execSlideupVn m b a d s
  | .slidednVx m b a d => Sys2Proof.Machine.execSlidednVx m b a d s
  | .slidednVi m b a d => Sys2Proof.Machine.execSlidednVi m b a d s
  | .slidednVn m b a d => Sys2Proof.Machine.execSlidednVn m b a d s
  | .vgatherVv m b a d => Sys2Proof.Machine.execVgatherVv m b a d s
  | .vgatherVx m b a d => Sys2Proof.Machine.execVgatherVx m b a d s
  | .vcompress m b d => Sys2Proof.Machine.execVcompress m b d s
  | .vexpand m b d => Sys2Proof.Machine.execVexpand m b d s
  | .vlut m b a d => Sys2Proof.Machine.execVlut m b a d s
  | .vunpack m b a d => Sys2Proof.Machine.execVunpack m b a d s
  | .vpack m b a d => Sys2Proof.Machine.execVpack m b a d s
  | .redsum m b a d => Sys2Proof.Machine.execRedsum m b a d s
  | .redmin m b a d => Sys2Proof.Machine.execRedmin m b a d s
  | .redmax m b a d => Sys2Proof.Machine.execRedmax m b a d s
  | .redminz m b a d => Sys2Proof.Machine.execRedminz m b a d s
  | .redmaxz m b a d => Sys2Proof.Machine.execRedmaxz m b a d s
  | .redand m b a d => Sys2Proof.Machine.execRedand m b a d s
  | .redor m b a d => Sys2Proof.Machine.execRedor m b a d s
  | .redxor m b a d => Sys2Proof.Machine.execRedxor m b a d s
  | .fredo m b a d => Sys2Proof.Machine.execFredo m b a d s
  | .fredt m b a d => Sys2Proof.Machine.execFredt m b a d s
  | .fredmax m b a d => Sys2Proof.Machine.execFredmax m b a d s
  | .fredmin m b a d => Sys2Proof.Machine.execFredmin m b a d s
  | .mvxs b a d => Sys2Proof.Machine.execMvxs b a d s
  | .mvsx a d => Sys2Proof.Machine.execMvsx a d s
  | .vbcast a d => Sys2Proof.Machine.execVbcast a d s
  | .vrev m b d => Sys2Proof.Machine.execVrev m b d s
  | .aaddVv b a d => Sys2Proof.Machine.execAaddVv b a d s
  | .aaddVx b a d => Sys2Proof.Machine.execAaddVx b a d s
  | .aaddVi b a d => Sys2Proof.Machine.execAaddVi b a d s
  | .asubVv b a d => Sys2Proof.Machine.execAsubVv b a d s
  | .asubVx b a d => Sys2Proof.Machine.execAsubVx b a d s
  | .asubVi b a d => Sys2Proof.Machine.execAsubVi b a d s
  | .adiffVx b a d => Sys2Proof.Machine.execAdiffVx b a d s
  | .adiffVi b a d => Sys2Proof.Machine.execAdiffVi b a d s
  | .amulVx b a d => Sys2Proof.Machine.execAmulVx b a d s
  | .amulVi b a d => Sys2Proof.Machine.execAmulVi b a d s
  | .ascaleVx b a d => Sys2Proof.Machine.execAscaleVx b a d s
  | .ascaleVi b a d => Sys2Proof.Machine.execAscaleVi b a d s
  | .aconv b c d => Sys2Proof.Machine.execAconv b c d s
  | .afrom b c d => Sys2Proof.Machine.execAfrom b c d s
  | .areanchorVx b a d => Sys2Proof.Machine.execAreanchorVx b a d s
  | .areanchorVi b o d => Sys2Proof.Machine.execAreanchorVi b o d s
  | .ared b d => Sys2Proof.Machine.execAred b d s
  | .aget b d => Sys2Proof.Machine.execAget b d s
  | .aput b d => Sys2Proof.Machine.execAput b d s
  | .aqset b d => Sys2Proof.Machine.execAqset b d s
  | .mzero t => Sys2Proof.Machine.execMzero t s
  | .mpa b a t => Sys2Proof.Machine.execMpa b a t s
  | .mmvTv b a t => Sys2Proof.Machine.execMmvTv b a t s
  | .mmvVt b a t => Sys2Proof.Machine.execMmvVt b a t s
  | .mscale b a => Sys2Proof.Machine.execMscale b a s
  | .mpaI b a t => Sys2Proof.Machine.execMpaI b a t s
  | .mpaH b a t => Sys2Proof.Machine.execMpaH b a t s
  | .mlra b a t => Sys2Proof.Machine.execMlra b a t s
  | .mcvt t a d => Sys2Proof.Machine.execMcvt t a d s
  | .acmp b a c e => Sys2Proof.Machine.execAcmp b a c e s
  | .vld m a d => Sys2Proof.Machine.execVld m a d s
  | .vldS m b a d => Sys2Proof.Machine.execVldS m b a d s
  | .vldX m b a d => Sys2Proof.Machine.execVldX m b a d s
  | .vldB m b a d => Sys2Proof.Machine.execVldB m b a d s
  | .vldW m a d => Sys2Proof.Machine.execVldW m a d s
  | .vst m a src => Sys2Proof.Machine.execVst m a src s
  | .vstS m b a src => Sys2Proof.Machine.execVstS m b a src s
  | .vstX m b a src => Sys2Proof.Machine.execVstX m b a src s
  | .vstB m b a src => Sys2Proof.Machine.execVstB m b a src s
  | .vldQ m a q => Sys2Proof.Machine.execVldQ m a q s
  | .vldQS m b a q => Sys2Proof.Machine.execVldQS m b a q s
  | .vldQX m b a q => Sys2Proof.Machine.execVldQX m b a q s
  | .vldoS m b a d => Sys2Proof.Machine.execVldoS m b a d s
  | .vldoX m b a d => Sys2Proof.Machine.execVldoX m b a d s
  | .vstoS m b a src => Sys2Proof.Machine.execVstoS m b a src s
  | .vstoX m b a src => Sys2Proof.Machine.execVstoX m b a src s
  | .vamo m b a o d => Sys2Proof.Machine.execVamo m b a o d s
  | .vupdO m b a o src => Sys2Proof.Machine.execVupdO m b a o src s
  | .vpf m a => Sys2Proof.Machine.execVpf m a s
  | .vpfS m b a => Sys2Proof.Machine.execVpfS m b a s
  | .vpfX m b a => Sys2Proof.Machine.execVpfX m b a s
  | .ald b a d => Sys2Proof.Machine.execAld b a d s
  | .aldC b a d => Sys2Proof.Machine.execAldC b a d s
  | .ast b a src => Sys2Proof.Machine.execAst b a src s
  | .mld b a t => Sys2Proof.Machine.execMld b a t s
  | .mst b a t => Sys2Proof.Machine.execMst b a t s
  | .vcpy b a p z => Sys2Proof.Machine.execVcpy b a p z s
  | .vfill b a => Sys2Proof.Machine.execVfill b a s
  | .nm b a k => Sys2Proof.Machine.execNm b a k s
  | .setl v a d => Sys2Proof.Machine.execSetl v a d s
  | .setlR b a d => Sys2Proof.Machine.execSetlR b a d s
  | .fenceSv src => Sys2Proof.Machine.execFenceSv src s
  | .fenceVs src => Sys2Proof.Machine.execFenceVs src s
  | .fenceVv src => Sys2Proof.Machine.execFenceVv src s
  | .fenceNm src => Sys2Proof.Machine.execFenceNm src s
  | .fenceAlias src => Sys2Proof.Machine.execFenceAlias src s
  | .fenceRel src => Sys2Proof.Machine.execFenceRel src s
  | .fenceAcq src => Sys2Proof.Machine.execFenceAcq src s
  | .fenceAr src => Sys2Proof.Machine.execFenceAr src s
  | .drain q => Sys2Proof.Machine.execDrain q s
  | .barArrive a => Sys2Proof.Machine.execBarArrive a s
  | .barWait a => Sys2Proof.Machine.execBarWait a s
  | .barSync a => Sys2Proof.Machine.execBarSync a s
  | .barInit b a => Sys2Proof.Machine.execBarInit b a s
  | .waitMem b a d => Sys2Proof.Machine.execWaitMem b a d s
  | .waitTime a => Sys2Proof.Machine.execWaitTime a s
  | .yield => Sys2Proof.Machine.execYield s
  | .halt => Sys2Proof.Machine.execHalt s
  | .qpush b a => Sys2Proof.Machine.execQpush b a s
  | .qpop a d => Sys2Proof.Machine.execQpop a d s
  | .qpopT a d => Sys2Proof.Machine.execQpopT a d s
  | .qany m => Sys2Proof.Machine.execQany m s
  | .qall m => Sys2Proof.Machine.execQall m s
  | .launch b a d => Sys2Proof.Machine.execLaunch b a d s
  | .qlen a d => Sys2Proof.Machine.execQlen a d s
  | .vsave a => Sys2Proof.Machine.execVsave a s
  | .vrest a => Sys2Proof.Machine.execVrest a s
  | .vret => Sys2Proof.Machine.execVret s
  | .aret => Sys2Proof.Machine.execAret s
  | .reclaim b a => Sys2Proof.Machine.execReclaim b a s
  | .vprobe b a d => Sys2Proof.Machine.execVprobe b a d s
  | .kend => Sys2Proof.Machine.execKend s

end Sys2Proof.Machine
end

