-- ==== Sys2Proof/Machine/Fetch.lean ====
section
/-! DEFINITION. Fetching an instruction (R51, R304, R385), what the scalar stream waits for in the vector stream (R170, R204, R348,
R404), and the work the device finds by itself (log 1). -/

namespace Sys2Proof.Machine

/-! Fetch. -/

/-- Whether the PC of a U-mode hart lies outside the code object of its launch (R51; log 23). -/
def outsideCode (s : State) : Bool :=
  match s.hart.mode, s.launchOf s.hart with
  | .user, some l => decide (s.hart.pc.toNat < recBase l.record) || decide (recBound l.record ≤ s.hart.pc.toNat)
  | _, _ => false

/-- The page and the key of the instruction at the PC, or the exception or wait of its fetch. -/
def fetchPlace (s : State) : Except ScalarStop (Leaf × Piece) :=
  let pc := s.hart.pc.toNat
  let g := s.agent s.hart s.hart.mode
  if pc % 4 ≠ 0 then .error (.fault 0)
  else if outsideCode s then .error (.fault 1)
  else
    match translate s g .exec pc with
    | .error .missing => .error (.fault 12)
    | .error .denied => .error (.fault 12)
    | .error .locked => .error (.wait .lineLock)
    | .error _ => .error (.fault 1)
    | .ok leaf =>
      match physKey s g (leaf.page + pc % 4096) with
      | none => .error (.fault 1)
      | some (ap, key) =>
        let c : Piece := ⟨pc, 4, ap, key, leaf.kind⟩
        match pieceWait s c with
        | some r => .error (.wait r)
        | none => if anyPoison s key 4 then .error (.fault 1) else .ok (leaf, c)

/-- The word at a key, read through an aperture: four bytes, little-endian (R1, R108, R377). -/
def wordAt (s : State) (ap : Aperture) (key : Nat) : InstrWord :=
  readThrough s ap (key + 3) ++ readThrough s ap (key + 2) ++ readThrough s ap (key + 1) ++ readThrough s ap key

/-- The instruction word at the PC and the state its fetch leaves (R388), or how the fetch stops. -/
def fetch (s : State) : Except ScalarStop (InstrWord × State) :=
  match fetchPlace s with
  | .error x => .error x
  | .ok (leaf, c) => .ok (wordAt s c.ap c.key, markScalar s (s.agent s.hart s.hart.mode) .exec leaf c)

/-! What the scalar stream waits for. -/

/-- Whether a word is a joint instruction: no later instruction of its hart dispatches until it completes (R348, R412 to R415). -/
def jointWord (w : InstrWord) : Bool :=
  let f4 := (w.extractLsb' 28 4).toNat
  (w.extractLsb' 0 7).toNat == 0x77 &&
  (match (w.extractLsb' 12 3).toNat with
   | 2 => f4 != 0 && f4 != 2
   | 3 => true
   | 4 => f4 != 2 && f4 != 3
   | 5 => true
   | _ => false)

/-- The x register a word in the VIQ will write (R170, R204, R246); 0 for none. -/
def pendingReg (w : InstrWord) : Nat :=
  let d := (w.extractLsb' 7 5).toNat
  if bqRegister w then d
  else
    match (w.extractLsb' 0 7).toNat, (w.extractLsb' 12 3).toNat with
    | 0x77, 0 => d
    | 0x77, 1 => d
    | _, _ => 0

/-- The x registers that a word of the base reads or writes, by its format. -/
def scalarRegs (w : InstrWord) : List Nat :=
  let d := (w.extractLsb' 7 5).toNat
  let a := (w.extractLsb' 15 5).toNat
  let b := (w.extractLsb' 20 5).toNat
  match (w.extractLsb' 0 7).toNat with
  | 0x37 | 0x17 | 0x6F => [d]
  | 0x67 | 0x03 | 0x13 | 0x1B => [d, a]
  | 0x33 | 0x3B | 0x2F => [d, a, b]
  | 0x63 | 0x23 => [a, b]
  | 0x07 | 0x27 => [a]
  | 0x53 =>
    match (w.extractLsb' 27 5).toNat with
    | 0x14 | 0x18 | 0x1C => [d]
    | 0x1A | 0x1E => [a]
    | _ => []
  | 0x73 =>
    match (w.extractLsb' 12 3).toNat with
    | 0 => if (w.extractLsb' 25 7).toNat = 9 then [a, b] else []
    | 1 | 2 | 3 => [d, a]
    | _ => [d]
  | _ => []

/-- Whether a word reads or writes an x register other than as a vector instruction that waits in the VIQ: a word of the base by its
format, an ALV word by the operands it captures at dispatch and the register it writes. -/
def namesX (s : State) (w : InstrWord) (r : Nat) : Bool :=
  match entryRow w with
  | some row =>
    let x := BitVec.ofNat 5 r
    pendingReg w == r || decide (row.ops s ≠ row.ops (s.setX x (~~~(s.hart.getX x))))
  | none => (scalarRegs w).contains r

/-- Whether a word reads or writes an f register: a word of F or D, or an ALV word that captures it. -/
def namesF (s : State) (w : InstrWord) (r : XReg) : Bool :=
  match entryRow w with
  | some row => decide (row.ops s ≠ row.ops (s.onHart (fun h => h.setF r (~~~(h.getF r)))))
  | none => [0x07, 0x27, 0x43, 0x47, 0x4B, 0x4F, 0x53].contains (w.extractLsb' 0 7).toNat

/-- Whether a word needs a scalar load or atomic that is still to be performed: it names its register. -/
def ScalarLoad.neededBy (s : State) (w : InstrWord) (l : ScalarLoad) : Bool :=
  match l.read with
  | .load _ rd => rd != 0#5 && namesX s w rd.toNat
  | .amo _ rd _ => rd != 0#5 && namesX s w rd.toNat
  | .fload _ rd => namesF s w rd

/-- Whether the loads and atomics of the scalar stream that are still to be performed go before a word: one that names one of their
registers, a store, an atomic, a fence, a system instruction or one of VC (R370, R373, R374; log 54). -/
def loadsFirst (s : State) (w : InstrWord) : Bool :=
  [0x0F, 0x23, 0x27, 0x2F, 0x73, 0x77].contains (w.extractLsb' 0 7).toNat || s.hart.slq.any (ScalarLoad.neededBy s w)

/-- The state in which a word runs: the loads and atomics that go before it performed, or why one of them waits. -/
def withLoads (s : State) (w : InstrWord) : Except WaitReason State :=
  if s.hart.slq.isEmpty || !(loadsFirst s w) then .ok s else drainSlq s

/-! What the scalar stream has read since a near-memory command replaced bytes that the vector stream still reads (R370; log 8). -/

/-- Which x registers, and at bit 32 whether the f registers, may hold what was read since, after a word. -/
def taintAfter (w : InstrWord) (t : BitVec 33) : BitVec 33 :=
  let d := (w.extractLsb' 7 5).toNat
  let a := t.getLsbD (w.extractLsb' 15 5).toNat
  let b := t.getLsbD (w.extractLsb' 20 5).toNat
  let set (n : Nat) (v : Bool) : BitVec 33 := if n = 0 then t else BitVec.ofNat 33 (setBit t.toNat n v)
  match (w.extractLsb' 0 7).toNat with
  | 0x37 | 0x17 | 0x6F | 0x67 => set d false
  | 0x13 | 0x1B => set d a
  | 0x33 | 0x3B => set d (a || b)
  | 0x07 => set 32 true
  | 0x53 =>
    match (w.extractLsb' 27 5).toNat with
    | 0x14 | 0x18 | 0x1C => set d (t.getLsbD 32)
    | 0x1A | 0x1E => set 32 (t.getLsbD 32 || a)
    | _ => t
  | 0x63 | 0x23 | 0x27 | 0x43 | 0x47 | 0x4B | 0x4F | 0x0F => t
  | _ => if isAlvMajor (w.extractLsb' 0 7).toNat && pendingReg w == 0 && !(jointWord w) then t else set d true

/-- Whether an ALV word captures a register that may hold what was read since: then its accesses follow that read (R370). -/
def capturesTaint (s : State) (w : InstrWord) : Bool :=
  (entryRow w).isSome &&
  ((List.range 32).any (fun r => s.hart.taint.getLsbD r && namesX s w r) ||
    (s.hart.taint.getLsbD 32 && (List.range 32).any (fun r => namesF s w (BitVec.ofNat 5 r))))

/-- The taint of the current hart as a word leaves it, and its old bytes gone where the word's accesses follow a read since. -/
def State.noteTaint (s : State) (w : InstrWord) : State :=
  if s.hart.oldLines.isEmpty then s
  else
    s.onHart (fun h =>
      { h with taint := taintAfter w h.taint, oldLines := if capturesTaint s w then [] else h.oldLines })

/-- Whether the scalar stream waits for a joint instruction, for everything older, or for an `nm` (R289, R348, R404). -/
def Hart.mustDrain (h : Hart) : Bool :=
  h.drainViq || h.inFlight.any (fun e => jointWord e.word) || (h.stall == some .nmDrain && h.nmQueued)

/-- Whether a word waits for a register that an older vector instruction has still to write: a word that reads or writes it (R164, R170,
R204; log 24). -/
def State.scoreboard (s : State) (w : InstrWord) : Bool :=
  s.hart.inFlight.any (fun e => pendingReg e.word != 0 && namesX s w (pendingReg e.word))

/-- Whether what the oldest vector instruction waits for has come: for an `ald.c` the time of its next attempt (R105). -/
def waitOver (s : State) : Bool :=
  match s.hart.wait with
  | none => true
  | some .aldc => !s.attemptLater
  | some _ => !(headWaits s)

/-- Whether the head of another hart could be admitted now (R32). -/
def admissible (s : State) (h : Hart) : Bool := waitOver (s.switchTo h.hid) && (admitOn s h.hid).isSome

/-- Whether the oldest instruction of a window can complete now. -/
def completes (s : State) (w : InFlight) : Bool := w.microOps == 0 && waitOver s

/-- Whether the vector stream of the current hart does something now: the window's oldest instruction can complete, a micro-op of the window
is next on its lanes (R31), or the vector unit admits the head (R32). -/
def headReady (s : State) : Bool :=
  match s.hart.window with
  | some w => completes s w || s.issuing.isSome
  | none => s.admitsBefore (admissible s) && waitOver s

/-- The vector stream goes on: the completion of the window's oldest instruction, a micro-op of the window, or the head of the VIQ. -/
def headMove (s : State) : State :=
  match s.hart.window with
  | some w => if completes s w then completeWindow s else issueMicroOp s
  | none => headRun s

/-- The oldest load or atomic of the current hart's scalar stream performed, unless it must wait (R370; log 54). -/
def performFirst (s : State) : State :=
  match s.hart.slq with
  | l :: rest =>
    if (pieceWait s l.piece).isSome then s else ((s.onHart (fun h => { h with slq := rest })).performLoad l).settleIfDone
  | [] => s

/-! Work the device finds by itself: one event at a time (log 1). -/

/-- The first number below `n` that a test passes. -/
def firstBelow (n : Nat) (p : Nat → Bool) : Option Nat := (List.range n).find? p

/-- Training of the memories (R308). -/
def trainingWork (s : State) : Option Instr :=
  if s.memReady then none
  else
    ((firstBelow 4 (fun n => !(s.phy.getLsbD n))).map (fun n => Instr.phyTrainingComplete false n)).or
      (((firstBelow 4 (fun n => !(s.d2d.getLsbD n))).map (fun n => Instr.phyTrainingComplete true n)).or (some .memready))

/-- Retirement and completion (R48, R49). -/
def retireWork (s : State) : Option Instr :=
  ((s.gangs.find? (gangFinished s)).map (fun g => Instr.gangRetire g.key)).or
    ((s.launches.find? (launchDone s)).map (fun l => Instr.launchComplete l.key))

/-- Records on their way (R24, R350, R351). -/
def queueWork (s : State) : Option Instr :=
  ((s.harts.find? (fun h => !h.lq.isEmpty)).map (fun h => Instr.lqRecordEntersQueue h.hid)).or
    (((firstBelow 64 (fun q => let x := s.queue q
        !x.held.isEmpty && x.enable && decide (x.records.length + s.inFlightTo q < Config.launchQueueDepth))).map
          (fun q => Instr.heldSuccessorEntersQueue q)).or
      ((firstBelow 64 (fun q => (s.queue q).head.any (fun h => h.launch.isNone) && !(checkLocked s q))).map (fun q => Instr.launchCheck q)))

/-- Whether a line of a command is still to be applied and no lock holds it or its source. -/
def lineOpen (s : State) (c : NmCommand) (l : Nat) : Bool :=
  !(c.done.contains l) && !(c.skipped.contains l) && !(c.dst[l]?.any (lineLocked s)) && !(c.src[l]?.any (lineLocked s))

/-- A command of the near-memory queues: its record, or its first line to apply (R339, R340). -/
def commandWork (s : State) : Option Instr :=
  (s.nq.zipIdx).findSome? (fun c =>
    if c.1.linesDone then (if lineLocked s c.1.record then none else some (Instr.nmCompletionRecord c.2))
    else (firstBelow c.1.dst.length (lineOpen s c.1)).map (fun l => Instr.nmLineApply c.2 l))

/-- Stores to perform (R318). -/
def storeWork (s : State) : Option Instr :=
  ((s.harts.find? (fun h => h.vsq.head?.any (fun x => (entryWait s x).isNone))).map
    (fun h => Instr.storePerformed (.hart h.hid))).or
    ((s.passed.find? (fun p => !(passedWaits s p.entry))).map (fun p => Instr.storePerformed (.passed p.gang)))

/-- A store, or a load or atomic, of a scalar stream to perform (R370; log 54). -/
def scalarWork (s : State) : Option AgendaItem :=
  ((s.harts.find? (fun h => h.ssq.head?.any (fun x => (entryWait s x).isNone))).map (fun h => AgendaItem.scalarStore h.hid)).or
    ((s.harts.find? (fun h => h.slq.head?.any (fun l => (pieceWait (s.switchTo h.hid) l.piece).isNone))).map (fun h => AgendaItem.scalarLoad h.hid))

/-- Reclaims and time slices (R41, R43, R45). -/
def gangWork (s : State) : Option Instr :=
  ((s.gangs.find? (fun g => g.reclaim.isSome && allStopped s g)).map (fun g => Instr.reclaimTakesEffect g.key)).or
    (((s.gangs.find? (fun g => g.reclaim.any (fun r => decide (r.deadline ≤ s.time)) && !(gangLocks s g))).map
        (fun g => Instr.reclaimAbandon g.key)).or
      ((s.gangs.find? (fun g => g.placed && (g.sliceExhausted || g.sliceEnd.any (fun t => decide (t ≤ s.time))) && !(gangLocks s g))).map
        (fun g => Instr.timeSliceExpiry g.key)))

/-- A dispatcher's work: a gang that gives way, a gang restored, a gang placed or room asked for (R27, R38 to R40, R46). -/
def dispatchWork (s : State) : Option Instr :=
  ((s.gangs.find? (givesWay s)).map (fun g => Instr.fullContextSwitch g.key)).or
    ((firstBelow 4 (fun d => (firstFit s d).isSome || (match firstRoom s d with | some (.hallPass _ _ _) => true | _ => false))).map
      (fun d => if (firstFit s d).any (fun x => x.1.2.saved.isSome) then Instr.gangRestore d else Instr.gangPlacement d))

/-- A route that has retrained for too long (R462). -/
def routeWork (s : State) : Option Instr :=
  (s.routes.find? (fun r => match r.status with | .retraining t => decide (t + 10000000#64 ≤ s.time) | _ => false)).map
    (fun r => Instr.routeDownTimeout r.device)

/-- The next event of the device, none where nothing is to be done. -/
def nextEvent (s : State) : Option Instr :=
  (trainingWork s).or ((retireWork s).or ((queueWork s).or ((commandWork s).or ((storeWork s).or ((gangWork s).or
    ((dispatchWork s).or (routeWork s)))))))

/-- The oldest of the old values of a byte that a hart's vector loads read no longer: the elements of a load are unordered among themselves
(R340, R369; log 8). -/
def forgetWork (s : State) : Option AgendaItem :=
  s.harts.findSome? (fun h => h.oldLines.head?.map (fun o => AgendaItem.forget h.hid o.key))

/-- What the device does next by itself: the end of a reset, a store of a scalar stream, an event, old bytes that go (log 1). -/
def nextWork (s : State) : Option AgendaItem :=
  if restartDue s then some (.firmware .restart)
  else (scalarWork s).or (((nextEvent s).map AgendaItem.event).or (forgetWork s))

end Sys2Proof.Machine
end

