-- ==== Sys2Proof/Machine/Run.lean ====
section
/-! DEFINITION. What a hart does in one move: the instruction at its PC, the head of its vector stream, or an interrupt (R170, R204,
R348, R403, R404), and whose turn it is (log 1). `runWord` builds an `Instr`; beside it stands a form that builds none above the
constructor Lean's compiler can build, with a proof that the two agree. -/

namespace Sys2Proof.Machine

/-! Running a word. -/

/-- A word run: the meaning of the instruction it decodes to, or the illegal-instruction exception (R123). -/
noncomputable def runWord (w : InstrWord) (s : State) : Res :=
  match decodeWord w with
  | .ok i => exec i s
  | .error _ => execIllegalInstruction w s

/-- The run of an ALV word. -/
def VRun.dispatch (r : VRun) (s : State) : Res :=
  match r with
  | .row x => x.dispatch s
  | .vret => execVret s
  | .aret => execAret s

/-- A base word by its fields: the checks that `decodeFields` makes before `decodeBase`. -/
def decodePlain (w : InstrWord) : Except DecodeError Instr :=
  if (w.extractLsb' 0 7).extractLsb' 0 2 ≠ 3#2 ∨ (w.extractLsb' 0 7).extractLsb' 2 3 = 7#3 then .error .notThirtyTwoBit
  else
    decodeBase (w.extractLsb' 28 4) (w.extractLsb' 25 3) (w.extractLsb' 20 5) (w.extractLsb' 15 5) (w.extractLsb' 12 3)
      (w.extractLsb' 7 5) (w.extractLsb' 0 7)

/-- `runWord` by pages. -/
def runWordPages (w : InstrWord) (s : State) : Res :=
  if isAlvMajor (w.extractLsb' 0 7).toNat then
    match wordRun w with
    | some r => r.dispatch s
    | none => execIllegalInstruction w s
  else
    match decodePlain w with
    | .ok i => exec i s
    | .error _ => execIllegalInstruction w s

/-- An ALV instruction's meaning is the dispatch of its run. -/
theorem exec_run (i : Instr) (s : State) (r : VRun) (h : instrRun i = some r) : exec i s = r.dispatch s := by
  cases i <;> (cases h <;> rfl)

/-- A word outside ALV decodes as a base word. -/
theorem decodeWord_plain (w : InstrWord) (h : ¬ isAlvMajor (w.extractLsb' 0 7).toNat = true) : decodeWord w = decodePlain w := by
  unfold decodeWord decodePlain decodeFields
  generalize w.extractLsb' 0 7 = m at h ⊢
  split
  · rfl
  · generalize hn : m.toNat = n at h
    split <;> first | rfl | (simp_all [isAlvMajor])

/-- The two forms of `runWord` agree. -/
@[csimp] theorem runWord_eq_pages : @runWord = @runWordPages := by
  funext w s
  unfold runWord runWordPages
  by_cases h : isAlvMajor (w.extractLsb' 0 7).toNat = true
  · have hr := runOf_alv w h
    rw [if_pos h, wordRun_eq_pages]
    cases hd : decodeWord w with
    | ok i =>
      rw [hd] at hr
      cases hp : wordRunPages w with
      | none => rw [hp] at hr; simp [runOf] at hr
      | some r => rw [hp] at hr; exact exec_run i s r (by simpa [runOf] using hr)
    | error e =>
      rw [hd] at hr
      cases hp : wordRunPages w with
      | none => rfl
      | some r => rw [hp] at hr; simp [runOf] at hr
  · rw [if_neg h, decodeWord_plain w h]

/-! The scalar stream. -/

/-- A fetched word run, the loads and atomics of its stream that go before it performed first (R370). -/
def runFetched (w : InstrWord) (s : State) : Res :=
  match withLoads s w with
  | .error r => .next (s.waitFor r)
  | .ok t => runWord w (t.noteTaint w)

/-- The instruction at the PC run: fetched and executed, or the exception or wait of its fetch (R51, R385). -/
def runScalar (s : State) : Res :=
  match fetch s with
  | .error (.fault cause) => .next (s.raise cause s.hart.pc)
  | .error (.wait r) => .next (s.waitFor r)
  | .ok (w, t) => runFetched w t

/-- A hart that does not wait in its scalar stream. -/
def Hart.unstalled (h : Hart) : Hart := { h with stall := none }

/-- Whether the instruction at the PC would wait again. -/
def stillStalled (s : State) : Bool :=
  match runScalar (s.onHart Hart.unstalled) with
  | .next t => t.hart.stall.isSome
  | _ => false

/-! A move of a hart. -/

/-- What a hart does next. -/
inductive HartMove where
  | interrupt | head | scalar
deriving DecidableEq, Repr

/-- The move of the scalar stream, none where it waits: for a register an older vector instruction writes (R170, R204), for its
fetch, or for what its instruction waits for. -/
def scalarMove (s : State) : Option HartMove :=
  match fetch s with
  | .error (.wait _) => none
  | .error (.fault _) => some .scalar
  | .ok (w, _) =>
    if s.scoreboard w then (if headReady s then some .head else none)
    else if s.hart.stall.isSome && stillStalled s then none
    else some .scalar

/-- The next move of the current hart: an interrupt once no vector work is left (R403); the vector stream where it is not held back
or where the scalar stream must wait for it (R348, R404; log 2); neither stream while the desk waits for a register (R37); else the
scalar stream. -/
def nextMove (s : State) : Option HartMove :=
  let h := s.hart
  if h.run ≠ .running then none
  else if h.hasVectorWork then
    if h.nextInterrupt.isSome || h.mustDrain then (if headReady s then some .head else none)
    else if !h.holdViq && headReady s then some .head
    else if h.wait == some .desk && !(headReady s) then none
    else scalarMove s
  else if h.nextInterrupt.isSome then some .interrupt
  else scalarMove s

/-- A move made. -/
def makeMove (m : HartMove) (s : State) : Res :=
  match m with
  | .interrupt => .next (takeInterrupt s)
  | .head => .next (headMove s)
  | .scalar => runScalar (s.onHart Hart.unstalled)

/-! Whose turn it is (log 1). -/

/-- The moves a hart makes before the device has its turn (log 1). -/
def turnLength : Nat := 8

/-- The least number above `hid` of a running hart other than the current one, or the least of all. -/
def nextRunning (s : State) : Option Nat :=
  let ids := risingOf ((s.others.filter (fun h => h.run == .running)).map Hart.hid)
  (ids.find? (fun n => decide (s.hart.hid < n))).or ids.head?

/-- The next running hart made the current one, where there is one. -/
def rotate (s : State) : State :=
  match nextRunning s with
  | some hid => s.switchTo hid
  | none => s

/-- The device's turn: one tick of the timebase (R428), the next hart, and the next event of the device (log 1). -/
def deviceTurn (s : State) : State :=
  let s1 := rotate (tick s)
  { s1 with turn := 0, agenda := (nextWork s1).toList }

end Sys2Proof.Machine
end

