-- ==== Sys2Proof/Machine/Step.lean ====
section
/-! DEFINITION. One step of the device (log 1), and a state with an instruction placed where its next step fetches (log 14). -/

namespace Sys2Proof.Machine

/-- One step: the agenda first; then a move of the current hart while its turn lasts and it can move; else the device's turn
(log 1). -/
def step (s : State) : Host.Outcome State Fault Refusal :=
  match s.agenda with
  | .event i :: rest => exec i { s with agenda := rest }
  | .switch hid :: rest => .next ({ s with agenda := rest }.switchTo hid)
  | .firmware a :: rest => .next (firmwareAct a { s with agenda := rest })
  | .scalarStore hid :: rest => { s with agenda := rest }.withHart hid (fun t => .next (performScalar t))
  | .scalarLoad hid :: rest => { s with agenda := rest }.withHart hid (fun t => .next (performFirst t))
  | .forget hid key :: rest => { s with agenda := rest }.withHart hid (fun t => .next (t.onHart (Hart.forgetByte key)))
  | .stale ap key shown :: rest => .next ({ s with agenda := rest }.showStale ap key shown)
  | [] =>
    if s.turn < turnLength then
      match nextMove s with
      | some m => makeMove m { s with turn := s.turn + 1 }
      | none => .next (deviceTurn s)
    else .next (deviceTurn s)

/-- The current hart with nothing before its next instruction: no vector work, no interrupt that can be taken, no wait. -/
def Hart.quiet (h : Hart) : Hart :=
  { h with viq := [], window := none, next := [], slq := [], drainViq := false, wait := none, stall := none, mie := 0#64 }

/-- A device whose next step is the next instruction of the current hart. -/
def State.quiet (s : State) : State :=
  { s with
    hart := s.hart.quiet, agenda := [], turn := 0, memReady := true, restarted := true, phy := 0xF#4, d2d := 0xF#4, locks := [] }

/-- Where a program is placed on a device whose current hart runs none: the first usable byte of region 0 (R291). -/
def programBase : Nat := 0x180000000

/-- The launch record of that program: one gang of one hart in realm `realm` with every profile, its code the 64 KiB from
`programBase` (R349). -/
def programRecord (realm : Nat) : LaunchRecord :=
  BitVec.ofNat 1024
    (programBase + programBase * 2 ^ 64 + (programBase + 0x10000) * 2 ^ 128 + 1 * 2 ^ (8 * 0x30) + 1 * 2 ^ (8 * 0x34) +
      32 * 2 ^ (8 * 0x36) + 4 * 2 ^ (8 * 0x37) + realm * 2 ^ (8 * 0x40) + 0x1F * 2 ^ (8 * 0x44) + 1 * 2 ^ (8 * 0x54))

/-- The current hart started as rank 0 of a gang: in U mode at `programBase`, its gang identity in x11, with sixteen lanes, a desk of
32 registers and four tiles (R29, R161). -/
def programHart (hid key : Nat) : Hart :=
  { Hart.reset hid with
    run := .running, gang := some key, mode := .user, pc := BitVec.ofNat 64 programBase,
    x := (Hart.reset hid).x.set 11 (gangIdWord 0 0 1), lgrant := 16#5, size := 32#8, ownTiles := 4 }

/-- A device that runs a program placed from outside: the gang of one hart on the current hart's slot (log 14). -/
def State.withProgram (s : State) : State :=
  let key := s.nextKey
  let realm := granuleRealm s (programBase / 2 ^ 21)
  { s with
    hart := programHart s.hart.hid key,
    gangs := s.gangs ++ [⟨key, key, 0, coreOfHart s.hart.hid, [s.hart.hid], 0xF#4, false, 0xF#4, none,
      newBarriers (programRecord realm), [], key, none, false, none⟩],
    launches := s.launches ++ [⟨key, 0, programRecord realm, 1, 0, 0, false⟩],
    nextKey := key + 1 }

/-- The bytes of an instruction word, little-endian. -/
def instrBytes (nbits w : Nat) : List Byte := toBytes 4 (w % 2 ^ nbits)

/-- An instruction placed at a key, its bytes clean and seen through every aperture. -/
def State.placeWord (s : State) (key nbits w : Nat) : State :=
  { s with
    mem := memWriteBytes s.mem key (instrBytes nbits w),
    poison := s.poison.filter (fun u => decide (u.base + u.size ≤ key) || decide (key + 4 ≤ u.base)),
    stale := s.stale.filter (fun x => decide (x.key < key) || decide (key + 4 ≤ x.key)) }

/-- The state with an instruction stored where `step` fetches its next instruction: at the PC of the current hart where it runs and
its fetch reaches memory, else as the first instruction of a program placed from outside (log 14). -/
def State.withFetchWord (s : State) (nbits w : Nat) : State :=
  let s1 := s.quiet
  match (if s1.hart.run = .running then fetchPlace s1 else .error (.wait .memory)) with
  | .ok (_, c) => s1.placeWord c.key nbits w
  | .error _ => { s1.withProgram with poison := [] }.placeWord programBase nbits w

end Sys2Proof.Machine
end

