-- ==== Sys2Proof/Safety.lean ====
section
/-! DEFINITION. The terms claims are stated in: a hart ready to run an instruction, elements of registers, and what an instruction
may change. -/

namespace Sys2Proof.Machine

/-! Elements. -/

/-- Element `i` of the group of `g` registers from `n`, read at a sew code (R185). -/
def State.elem (s : State) (n g sew i : Nat) : Nat := (groupSrc s n g sew i).1

/-- Whether that element is poisoned (R205). -/
def State.elemPoisoned (s : State) (n g sew i : Nat) : Bool := (groupSrc s n g sew i).2

/-- Whether a group of `g` registers holds an element `i` at a sew code (R185). -/
def State.holds (s : State) (g sew i : Nat) : Prop := sewBits sew * (i + 1) ≤ 512 * s.lanes s.hart * g

/-- A register none of whose bits is left open: a U or A register recorded at e6 leaves the bits beyond its last whole element to
no element (log 20). -/
def VReg.tidy (r : VReg) : Bool := r.tag == .g || r.sew != 1#3

/-- A hart all of whose vector registers are tidy. -/
def Hart.tidy (h : Hart) : Bool := (List.range 32).all (fun n => (h.getV n).tidy)

/-- Forty more physical registers can be had: more than any one instruction needs (R196). -/
def State.room (s : State) : Bool :=
  decide (borrowed s.hart.size.toNat s.hart.general 40 ≤ s.unreserved (coreOfHart s.hart.hid))

/-! A hart ready to run. -/

/-- A hart with no vector work, none of it held back and nothing waited for. -/
def Hart.atRest (h : Hart) : Bool :=
  h.viq.isEmpty && h.window.isNone && h.next.isEmpty && h.wait.isNone && h.headAged.isNone && !h.drainViq && !h.holdViq

/-- The current hart at rest, with no pin and no lock, and the next that its core's vector unit admits (R32). -/
def State.atRest (s : State) : Bool :=
  s.hart.atRest && !(s.pinsSome s.hart.hid) && s.locks.all (fun l => l.hid != s.hart.hid) && s.admits

/-- The current hart ready for a vector instruction of a profile bit (R10, R123): at rest, its launch of that profile, a legal
`vtype`, its registers tidy and physical registers to be had. -/
def State.ready (s : State) (profile : Nat) : Bool :=
  s.atRest && (s.profiles s.hart).testBit profile && !s.cfg.vill && s.hart.tidy && s.room

/-! What an instruction changes. -/

/-- A group of registers after an instruction that writes it under a mask (R34, R192, R202, R205): the active elements below `vl`
have the values and the poison given, every other element of the group and every other register keeps its own. Poison is
stated at widths of whole bytes: a byte written in part keeps its poison. -/
structure GroupWritten (s t : State) (d g sew : Nat) (m : MaskNo) (val : Nat → Nat × Bool) : Prop where
  active : ∀ i, i < s.hart.vl.toNat → s.holds g sew i → s.hart.maskBit m i = true → t.elem d g sew i = (val i).1
  kept : ∀ i, s.holds g sew i → (s.hart.vl.toNat ≤ i ∨ s.hart.maskBit m i = false) → t.elem d g sew i = s.elem d g sew i
  bad : sewBits sew % 8 = 0 → ∀ i, i < s.hart.vl.toNat → s.holds g sew i → s.hart.maskBit m i = true →
    t.elemPoisoned d g sew i = (val i).2
  keptBad : sewBits sew % 8 = 0 → ∀ i, s.holds g sew i → (s.hart.vl.toNat ≤ i ∨ s.hart.maskBit m i = false) →
    t.elemPoisoned d g sew i = s.elemPoisoned d g sew i
  others : ∀ n g' sew', n + g' ≤ d ∨ d + g ≤ n → groupSrc t n g' sew' = groupSrc s n g' sew'

/-- The flags of some results ORed (R86). -/
def orAll (l : List Nat) : Nat := l.foldr (fun a acc => a ||| acc) 0

/-- `vflags` with the flags of every active element ORed in (R84, R86). -/
def State.flagsWith (s : State) (m : MaskNo) (fl : Nat → Nat) : BitVec 9 :=
  s.hart.vflags ||| BitVec.ofNat 9 (orAll ((s.actives m).map fl))

/-- A mask register after an instruction that writes the bits of its active elements (R199, R200): m0 discards them, every other bit
and mask stays, and every vector register keeps its elements. -/
structure MaskSet (s t : State) (m md : MaskNo) (val : Nat → Bool) : Prop where
  zero : md = 0#3 → t.hart.m = s.hart.m
  others : ∀ k, k ≠ md → ∀ j, t.hart.maskBit k j = s.hart.maskBit k j
  active : md ≠ 0#3 → ∀ i, i < s.hart.vl.toNat → i < 16384 → s.hart.maskBit m i = true → t.hart.maskBit md i = val i
  kept : md ≠ 0#3 → ∀ i, i < 16384 → (s.hart.vl.toNat ≤ i ∨ s.hart.maskBit m i = false) →
    t.hart.maskBit md i = s.hart.maskBit md i
  elems : ∀ n g sew, groupSrc t n g sew = groupSrc s n g sew

/-- The values of operand a of an integer or permute instruction (R201): a group, a scalar register, an immediate, the oldest
delivery of a load queue, or the group a scalar register names. `x` is the captured scalar. -/
def State.operand (s : State) (a : AOp) (x : Word) : Src :=
  match a with
  | .vec n => groupSrc s n s.cfg.g s.cfg.sew
  | .scalar => fun _ => (x.toNat % 2 ^ s.cfg.w, false)
  | .imm i => fun _ => ((BitVec.ofInt 64 i).toNat % 2 ^ s.cfg.w, false)
  | .queue q =>
    match s.hart.loadq[q.toNat] with
    | p :: _ => imageSrc p.image.toNat p.poison.toNat s.cfg.w
    | [] => fun _ => (0, false)
  | .named => groupSrc s (x.toNat % 32) s.cfg.g s.cfg.sew

/-- Whether operand a can be read: its group aligned, a delivery in its queue (R125, R201). -/
def State.operandOk (s : State) (a : AOp) (x : Word) : Bool :=
  match a with
  | .vec n => groupOk n s.cfg.g
  | .queue q => !(s.hart.loadq[q.toNat]).isEmpty
  | .named => groupOk (x.toNat % 32) s.cfg.g
  | _ => true

/-- The current hart past a vector instruction that has completed: PC + 4, and one more in `instret` (R430). -/
def Hart.past (h : Hart) : Hart :=
  { h with pc := h.pc + 4#64, instret := if h.irInhibit then h.instret else h.instret + 1#64 }

/-- The cores after a vector instruction of the current hart that goes on from `z`: of its core, counters may count, with what they may
count of chaining withdrawals and the notes this goes by (R433, R442; log 11), lanes may wake, and it is the hart admitted last (R32,
R441). Nothing else of a core changes. -/
def State.coresAs (z t : State) : Vector CoreState 128 :=
  let n := z.hart.hid / 8
  z.cores.setIfInBounds n { z.core n with
    hpm := (t.core n).hpm, slack := (t.core n).slack, uses := (t.core n).uses, writers := (t.core n).writers,
    gated := (z.core n).gated &&& (t.core n).gated, lastAdmitted := z.hart.hid % 8 }

/-- The cores after something of the current hart that may only count (R433). -/
def State.coresCounted (s t : State) : Vector CoreState 128 :=
  s.cores.setIfInBounds (s.hart.hid / 8) { s.core (s.hart.hid / 8) with hpm := (t.core (s.hart.hid / 8)).hpm }

/-! The integer instructions of VI as a table (R208, R210). -/

/-- An integer operation on elements of any width: operand a, operand b and the old vd. -/
abbrev ElemFn := (w : Nat) → BitVec w → BitVec w → BitVec w → BitVec w

/-- An instruction with its operand a, whether vd is a source (R203), and its element. -/
structure ElemRow where
  instr : Instr
  a : AOp
  old : Bool
  fn : ElemFn

/-- The five forms of an instruction (R119). -/
def fiveForms (vv vx vi : MaskNo → BitVec 5 → BitVec 5 → BitVec 5 → Instr) (vq : MaskNo → BitVec 5 → QueueNo → BitVec 5 → Instr)
    (vn : MaskNo → BitVec 5 → BitVec 5 → BitVec 5 → Instr) (m : MaskNo) (b a d : BitVec 5) (q : QueueNo) (old : Bool)
    (fn : ElemFn) : List ElemRow :=
  [⟨vv m b a d, .vec a.toNat, old, fn⟩, ⟨vx m b a d, .scalar, old, fn⟩, ⟨vi m b a d, .imm a.toInt, old, fn⟩,
   ⟨vq m b q d, .queue q, old, fn⟩, ⟨vn m b a d, .named, old, fn⟩]

/-- The two forms of an extended instruction (R119). -/
def twoForms (xv xx : MaskNo → BitVec 5 → BitVec 5 → BitVec 5 → Instr) (m : MaskNo) (b a d : BitVec 5) (fn : ElemFn) :
    List ElemRow :=
  [⟨xv m b a d, .vec a.toNat, false, fn⟩, ⟨xx m b a d, .scalar, false, fn⟩]

/-- The integer instructions whose result has the width of its sources (R208, R210). -/
def integerRows (m : MaskNo) (b a d : BitVec 5) (q : QueueNo) : List ElemRow :=
  fiveForms .addVv .addVx .addVi .addVq .addVn m b a d q false (fun _ a b _ => b + a) ++
  fiveForms .subVv .subVx .subVi .subVq .subVn m b a d q false (fun _ a b _ => b - a) ++
  fiveForms .rsubVv .rsubVx .rsubVi .rsubVq .rsubVn m b a d q false (fun _ a b _ => a - b) ++
  fiveForms .mulVv .mulVx .mulVi .mulVq .mulVn m b a d q false (fun _ a b _ => b * a) ++
  fiveForms .mulhVv .mulhVx .mulhVi .mulhVq .mulhVn m b a d q false (fun w a b _ => BitVec.ofInt w (b.toInt * a.toInt / (2 ^ w : Nat))) ++
  fiveForms .minVv .minVx .minVi .minVq .minVn m b a d q false (fun _ a b _ => if b.sle a then b else a) ++
  fiveForms .maxVv .maxVx .maxVi .maxVq .maxVn m b a d q false (fun _ a b _ => if a.sle b then b else a) ++
  fiveForms .andVv .andVx .andVi .andVq .andVn m b a d q false (fun _ a b _ => b &&& a) ++
  fiveForms .orVv .orVx .orVi .orVq .orVn m b a d q false (fun _ a b _ => b ||| a) ++
  fiveForms .xorVv .xorVx .xorVi .xorVq .xorVn m b a d q false (fun _ a b _ => b ^^^ a) ++
  fiveForms .sllVv .sllVx .sllVi .sllVq .sllVn m b a d q false (fun w a b _ => b <<< (a.toNat % w)) ++
  fiveForms .srlVv .srlVx .srlVi .srlVq .srlVn m b a d q false (fun w a b _ => b >>> (a.toNat % w)) ++
  fiveForms .sraVv .sraVx .sraVi .sraVq .sraVn m b a d q false (fun w a b _ => b.sshiftRight (a.toNat % w)) ++
  fiveForms .macVv .macVx .macVi .macVq .macVn m b a d q true (fun _ a b v => v + b * a) ++
  twoForms .minzXv .minzXx m b a d (fun _ a b _ => if b ≤ a then b else a) ++
  twoForms .maxzXv .maxzXx m b a d (fun _ a b _ => if a ≤ b then b else a) ++
  twoForms .mulhzXv .mulhzXx m b a d (fun w a b _ => BitVec.ofNat w (b.toNat * a.toNat / 2 ^ w)) ++
  twoForms .divXv .divXx m b a d (fun w a b _ => if a = 0#w then BitVec.allOnes w else b.sdiv a) ++
  twoForms .divzXv .divzXx m b a d (fun w a b _ => if a = 0#w then BitVec.allOnes w else b / a) ++
  twoForms .remXv .remXx m b a d (fun w a b _ => if a = 0#w then b else b.srem a) ++
  twoForms .remzXv .remzXx m b a d (fun w a b _ => if a = 0#w then b else b % a) ++
  twoForms .saddXv .saddXx m b a d (fun w a b _ => BitVec.ofInt w (satSigned w (b.toInt + a.toInt))) ++
  twoForms .ssubXv .ssubXx m b a d (fun w a b _ => BitVec.ofInt w (satSigned w (b.toInt - a.toInt))) ++
  twoForms .absdXv .absdXx m b a d (fun w a b _ => BitVec.ofNat w (b.toInt - a.toInt).natAbs)

/-- The value and the poison of element `i` of the result of a row: from operand a, from b, and from the old vd where it is a
source (R205, R208). -/
def State.rowElem (s : State) (r : ElemRow) (x : Word) (b d : BitVec 5) (i : Nat) : Nat × Bool :=
  let ea := s.operand r.a x i
  let eb := groupSrc s b.toNat s.cfg.g s.cfg.sew i
  let ev := groupSrc s d.toNat s.cfg.g s.cfg.sew i
  let w := s.cfg.w
  ((r.fn w (BitVec.ofNat w ea.1) (BitVec.ofNat w eb.1) (BitVec.ofNat w ev.1)).toNat, ea.2 || eb.2 || (r.old && ev.2))

/-- The widening additions and products (R211): operand a, and the exact result. -/
def widenRows (m : MaskNo) (b a d : BitVec 5) : List (Instr × AOp × (Int → Int → Int)) :=
  [(.waddXv m b a d, .vec a.toNat, fun x y => y + x), (.waddXx m b a d, .scalar, fun x y => y + x),
   (.wmulXv m b a d, .vec a.toNat, fun x y => y * x), (.wmulXx m b a d, .scalar, fun x y => y * x)]

/-- The truth of b cc a on signed values (R209). -/
def signedHolds (w : Nat) (c : Cond) (a b : BitVec w) : Bool :=
  match c with
  | .eq => b == a
  | .ne => b != a
  | .lt => b.slt a
  | .le => b.sle a

/-- The truth of b cc a on unsigned values (R209). -/
def unsignedHolds (w : Nat) (c : Cond) (a b : BitVec w) : Bool :=
  match c with
  | .eq => b == a
  | .ne => b != a
  | .lt => b.ult a
  | .le => b.ule a

/-- The comparisons (R209): operand a, and when the bit is set. -/
def compareRows (m : MaskNo) (b a : BitVec 5) (q : QueueNo) (md : MaskNo) (c : Cond) :
    List (Instr × AOp × ((w : Nat) → BitVec w → BitVec w → Bool)) :=
  let signed : (w : Nat) → BitVec w → BitVec w → Bool := fun w => signedHolds w c
  let unsigned : (w : Nat) → BitVec w → BitVec w → Bool := fun w => unsignedHolds w c
  [(.cmpVv m b a c md, .vec a.toNat, signed), (.cmpVx m b a c md, .scalar, signed), (.cmpVi m b a c md, .imm a.toInt, signed),
   (.cmpVq m b q c md, .queue q, signed), (.cmpVn m b a c md, .named, signed),
   (.cmpzVv m b a c md, .vec a.toNat, unsigned), (.cmpzVx m b a c md, .scalar, unsigned),
   (.cmpzVi m b a c md, .imm a.toInt, unsigned), (.cmpzVq m b q c md, .queue q, unsigned), (.cmpzVn m b a c md, .named, unsigned)]

/-- An instruction with one vector source of its own width and register count: whether it is defined, that width and count, and
the result at width `w`. -/
structure WidthRow where
  instr : Instr
  ok : Bool
  width : Nat
  count : Nat
  fn : Nat → Nat

/-- The instructions that change the width of elements or count their bits (R212, R213). -/
def widthRows (c : VCfg) (m : MaskNo) (b d : BitVec 5) (f : Factor) : List WidthRow :=
  let k := factorNum f
  let below := c.w / k
  let above := c.w * k
  [⟨.sext m b f d, decide (4 ≤ below), below, max 1 (c.g / k), fun x => ((BitVec.ofNat below x).signExtend c.w).toNat⟩,
   ⟨.zext m b f d, decide (4 ≤ below), below, max 1 (c.g / k), fun x => x⟩,
   ⟨.narrow m b f d, decide (above ≤ 64), above, c.g * k, fun x =>
      (BitVec.ofInt c.w (satSigned c.w (BitVec.ofNat above x).toInt)).toNat⟩,
   ⟨.narrowz m b f d, decide (above ≤ 64), above, c.g * k, fun x =>
      (clampInt 0 ((2 ^ c.w : Nat) - 1) (BitVec.ofNat above x).toInt).toNat⟩,
   ⟨.bitc m b .popc d, true, c.w, c.g, fun x => ((List.range c.w).filter x.testBit).length % 2 ^ c.w⟩,
   ⟨.bitc m b .clz d, true, c.w, c.g, fun x =>
      ((List.range c.w).reverse.takeWhile (fun k => !x.testBit k)).length % 2 ^ c.w⟩,
   ⟨.bitc m b .ctz d, true, c.w, c.g, fun x => ((List.range c.w).takeWhile (fun k => !x.testBit k)).length % 2 ^ c.w⟩]

/-! The floating-point instructions of VF as a table (R214, R219). -/

/-- The values of operand a of a floating-point instruction: a scalar comes from an f register, NaN-boxed at FP32 (R201). -/
def State.floatOperand (s : State) (a : AOp) (f : FFmt) (x : Word) : Src :=
  match a with
  | .scalar => fun _ => (floatScalar f x % 2 ^ s.cfg.w, false)
  | _ => s.operand a x

/-- A floating-point instruction: operand a, whether it rounds as `vfrm` says (R81), whether vd is a source, and the element: its
result and flags from the format, the mode, and the codes of a, b and the old vd. -/
structure FloatRow where
  instr : Instr
  a : AOp
  rounds : Bool
  old : Bool
  fn : FFmt → Rnd → Nat → Nat → Nat → Nat × Nat

/-- The four forms of a floating-point instruction (R119). -/
def fourForms (vv vx : MaskNo → BitVec 5 → BitVec 5 → BitVec 5 → Instr) (vq : MaskNo → BitVec 5 → QueueNo → BitVec 5 → Instr)
    (vn : MaskNo → BitVec 5 → BitVec 5 → BitVec 5 → Instr) (m : MaskNo) (b a d : BitVec 5) (q : QueueNo) (rounds old : Bool)
    (fn : FFmt → Rnd → Nat → Nat → Nat → Nat × Nat) : List FloatRow :=
  [⟨vv m b a d, .vec a.toNat, rounds, old, fn⟩, ⟨vx m b a d, .scalar, rounds, old, fn⟩, ⟨vq m b q d, .queue q, rounds, old, fn⟩,
   ⟨vn m b a d, .named, rounds, old, fn⟩]

/-- The code of b with the sign that an operation makes of the signs of a and b (R219). -/
def signedAs (op : Bool → Bool → Bool) (f : FFmt) (a b : Nat) : Nat :=
  let k := fmtBitsOf f - 1
  b % 2 ^ k + (if op (a.testBit k) (b.testBit k) then 2 ^ k else 0)

/-- `fadd` to `fnmsub` (R214) and `fsgnj` to `fsgnjx` (R219). -/
noncomputable def floatRows (m : MaskNo) (b a d : BitVec 5) (q : QueueNo) : List FloatRow :=
  let val := decodeFloat
  fourForms .faddVv .faddVx .faddVq .faddVn m b a d q true false (fun f r a b _ => fAdd f r (val f b) (val f a)) ++
  fourForms .fsubVv .fsubVx .fsubVq .fsubVn m b a d q true false (fun f r a b _ => fAdd f r (val f b) (val f a).negate) ++
  fourForms .fmulVv .fmulVx .fmulVq .fmulVn m b a d q true false (fun f r a b _ => fMul f r (val f b) (val f a)) ++
  fourForms .fdivVv .fdivVx .fdivVq .fdivVn m b a d q true false (fun f r a b _ => fDiv f r (val f b) (val f a)) ++
  fourForms .fminVv .fminVx .fminVq .fminVn m b a d q false false (fun f _ a b _ => fMinMax f false b a) ++
  fourForms .fmaxVv .fmaxVx .fmaxVq .fmaxVn m b a d q false false (fun f _ a b _ => fMinMax f true b a) ++
  fourForms .fmaddVv .fmaddVx .fmaddVq .fmaddVn m b a d q true true (fun f r a b v => fMulAdd f r (val f a) (val f b) (val f v)) ++
  fourForms .fnmsubVv .fnmsubVx .fnmsubVq .fnmsubVn m b a d q true true (fun f r a b v =>
    fAdd f r (fMulExact (val f a) (val f b)).negate (val f v)) ++
  [⟨.fsgnjXv m b a d, .vec a.toNat, false, false, fun f _ a b _ => (signedAs (fun x _ => x) f a b, 0)⟩,
   ⟨.fsgnjXx m b a d, .scalar, false, false, fun f _ a b _ => (signedAs (fun x _ => x) f a b, 0)⟩,
   ⟨.fsgnjnXv m b a d, .vec a.toNat, false, false, fun f _ a b _ => (signedAs (fun x _ => !x) f a b, 0)⟩,
   ⟨.fsgnjnXx m b a d, .scalar, false, false, fun f _ a b _ => (signedAs (fun x _ => !x) f a b, 0)⟩,
   ⟨.fsgnjxXv m b a d, .vec a.toNat, false, false, fun f _ a b _ => (signedAs (fun x y => x != y) f a b, 0)⟩,
   ⟨.fsgnjxXx m b a d, .scalar, false, false, fun f _ a b _ => (signedAs (fun x y => x != y) f a b, 0)⟩]

/-- The result, the flags and the poison of element `i` of a floating-point row. -/
def State.floatElem (s : State) (r : FloatRow) (f : FFmt) (rm : Rnd) (x : Word) (b d : BitVec 5) (i : Nat) : Nat × Nat × Bool :=
  let ea := s.floatOperand r.a f x i
  let eb := groupSrc s b.toNat s.cfg.g s.cfg.sew i
  let ev := groupSrc s d.toNat s.cfg.g s.cfg.sew i
  let y := r.fn f rm ea.1 eb.1 ev.1
  (y.1 % 2 ^ s.cfg.w, y.2, ea.2 || eb.2 || (r.old && ev.2))

/-- The captured scalar of a floating-point instruction: an f register, or the x register that names a group (R201, R252). -/
def Hart.floatCaptured (h : Hart) (a : AOp) (r : BitVec 5) : Word :=
  match a with
  | .scalar => h.getF r
  | _ => h.getX r

/-! Groups of which some elements are written (R34, R202). -/

/-- A register group after an instruction that writes some of its elements: `val i` is the new value and poison of element `i`, or
none where it keeps its own. Poison is stated at widths of whole bytes. -/
structure GroupPut (s t : State) (d g sew : Nat) (val : Nat → Option (Nat × Bool)) : Prop where
  put : ∀ i x, s.holds g sew i → val i = some x → t.elem d g sew i = x.1
  putBad : sewBits sew % 8 = 0 → ∀ i x, s.holds g sew i → val i = some x → t.elemPoisoned d g sew i = x.2
  kept : ∀ i, s.holds g sew i → val i = none → t.elem d g sew i = s.elem d g sew i
  keptBad : sewBits sew % 8 = 0 → ∀ i, s.holds g sew i → val i = none → t.elemPoisoned d g sew i = s.elemPoisoned d g sew i
  others : ∀ n g' sew', n + g' ≤ d ∨ d + g ≤ n → groupSrc t n g' sew' = groupSrc s n g' sew'

/-- Element `i` of an instruction's result where it is active and below `vl` (R202). -/
def State.masked {α : Type} (s : State) (m : MaskNo) (f : Nat → Option α) (i : Nat) : Option α :=
  if i < s.hart.vl.toNat ∧ s.hart.maskBit m i = true then f i else none

/-- An instruction that moves elements of a group: whether its operands are in order, and what it writes. -/
structure PermuteRow where
  instr : Instr
  ok : Bool
  val : Nat → Option (Nat × Bool)

/-- Slides, gathers, compression, expansion and reversal (R223 to R225, R229): `b` is the group they move, `a` the operand. -/
noncomputable def State.permuteRows (s : State) (m : MaskNo) (b a d : BitVec 5) : List PermuteRow :=
  let c := s.cfg
  let src := groupSrc s b.toNat c.g c.sew
  let x := s.hart.getX a
  let idx := groupSrc s a.toNat c.g c.sew
  let named := groupSrc s (x.toNat % 32) c.g c.sew 0
  let up := fun (o : Nat × Bool) => s.masked m (fun i => if o.1 ≤ i then some ((src (i - o.1)).1, (src (i - o.1)).2 || o.2) else none)
  let down := fun (o : Nat × Bool) => s.masked m (fun i =>
    if i + o.1 < c.vlmax then some ((src (i + o.1)).1, (src (i + o.1)).2 || o.2) else some (0, o.2))
  let take := fun (n : Nat → Nat) => s.masked m (fun i => if n i < c.vlmax then some (src (n i)) else some (0, false))
  let clean := (s.actives m).all (fun i => !(idx i).2)
  [⟨.slideupVx m b a d, true, up (x.toNat, false)⟩,
   ⟨.slideupVi m b a d, immNonNegative a, up (a.toNat, false)⟩,
   ⟨.slideupVn m b a d, groupOk (x.toNat % 32) c.g, up named⟩,
   ⟨.slidednVx m b a d, true, down (x.toNat, false)⟩,
   ⟨.slidednVi m b a d, immNonNegative a, down (a.toNat, false)⟩,
   ⟨.slidednVn m b a d, groupOk (x.toNat % 32) c.g, down named⟩,
   ⟨.vgatherVv m b a d, groupOk a.toNat c.g && clean, take (fun i => (idx i).1)⟩,
   ⟨.vgatherVx m b a d, true, take (fun _ => x.toNat % 2 ^ c.w)⟩,
   ⟨.vlut m b a d, groupOk a.toNat c.g && clean, take (fun i => (idx i).1 % 2 ^ min c.w 8)⟩,
   ⟨.vcompress m b d, true, fun k => ((s.actives m)[k]?).map src⟩,
   ⟨.vexpand m b d, true, s.masked m (fun i => some (src ((List.range i).filter (fun j => s.hart.maskBit m j)).length))⟩,
   ⟨.vrev m b d, true, s.masked m (fun i => some (src (s.hart.vl.toNat - 1 - i)))⟩]

/-- The integer reductions (R227) as operations on two values of `w` bits. -/
noncomputable def reduceRows (m : MaskNo) (b a d : BitVec 5) : List (Instr × ((w : Nat) → BitVec w → BitVec w → BitVec w)) :=
  [(.redsum m b a d, fun _ x y => x + y), (.redmin m b a d, fun _ x y => if x.sle y then x else y),
   (.redmax m b a d, fun _ x y => if x.sle y then y else x), (.redminz m b a d, fun _ x y => if x ≤ y then x else y),
   (.redmaxz m b a d, fun _ x y => if x ≤ y then y else x), (.redand m b a d, fun _ x y => x &&& y),
   (.redor m b a d, fun _ x y => x ||| y), (.redxor m b a d, fun _ x y => x ^^^ y)]

/-- Two partial sums joined, each with its flags: the rounded sum where both are present, else whichever is (R228). -/
def joinSum (f : FFmt) (r : Rnd) : Option (Nat × Nat) → Option (Nat × Nat) → Option (Nat × Nat)
  | some x, some y =>
    let z := fAdd f r (decodeFloat f x.1) (decodeFloat f y.1)
    some (z.1, x.2 ||| z.2 ||| y.2)
  | some x, none => some x
  | none, y => y

/-- Position `j` of level `n` of the tree of `fredt` over the leaves (R228). -/
def sumTree (f : FFmt) (r : Rnd) (leaf : Nat → Option (Nat × Nat)) : Nat → Nat → Option (Nat × Nat)
  | 0, j => leaf j
  | n + 1, j => joinSum f r (sumTree f r leaf n (2 * j)) (sumTree f r leaf n (2 * j + 1))

/-- The result and the flags of the floating-point reductions (R228), from vs1[0] and the values of the active elements: `fredo`,
`fredt`, `fredmax`, `fredmin`. -/
noncomputable def State.floatReduceRows (s : State) (m : MaskNo) (b a d : BitVec 5) (f : FFmt) (r : Rnd) : List (Instr × Bool × (Nat × Nat)) :=
  let init := (groupSrc s a.toNat 1 s.cfg.sew 0).1
  let src := fun i => (groupSrc s b.toNat s.cfg.g s.cfg.sew i).1
  let inOrder := fun (op : Nat → Nat → Nat × Nat) =>
    (s.actives m).foldl (fun acc i => ((op acc.1 (src i)).1, acc.2 ||| (op acc.1 (src i)).2)) (init, 0)
  let add := fun x y => fAdd f r (decodeFloat f x) (decodeFloat f y)
  let tree := sumTree f r (s.masked m (fun i => some (src i, 0))) 32 0
  [(.fredo m b a d, true, inOrder add),
   (.fredt m b a d, true, (joinSum f r (some (init, 0)) tree).getD (init, 0)),
   (.fredmax m b a d, false, inOrder (fMinMax f true)),
   (.fredmin m b a d, false, inOrder (fMinMax f false))]

/-- The bits of a group as one number (R226). -/
def State.groupBits (s : State) (n g sew : Nat) : Nat := groupImage s.hart (512 * s.lanes s.hart) n g sew (grpOfCount g)

/-! Anchored fields (R98 to R102, R239 to R245). -/

/-- The current hart ready for an anchored instruction: profile `an1.0`, a block size, and a deviation width of R89. -/
def State.anchorReady (s : State) : Bool :=
  s.ready 2 && s.cfg.block != 0 && (s.cfg.w == 4 || s.cfg.w == 8 || s.cfg.w == 16 || s.cfg.w == 32)

/-- Block `k` of the octet of a register. -/
def State.blk (s : State) (n : BitVec 5) (k : Nat) : Block := s.hart.block (octetOf n.toNat) k

/-- The anchor of a block, 0 where it is invalid. -/
def Block.value (b : Block) : Dy := b.anchor.getD ⟨0, 0⟩

/-- The deviation of cell `i` of the field at a register. -/
def State.dev (s : State) (n : BitVec 5) (i : Nat) : Int := toSigned s.cfg.w (groupSrc s n.toNat s.cfg.g s.cfg.sew i).1

/-- The deviation times its quantum. -/
def State.devQ (s : State) (n : BitVec 5) (i : Nat) : Dy := Dy.ofInt (s.dev n i) (s.blk n (i / s.cfg.block)).qexp

/-- The exact value of cell `i` of the field at a register, its block valid (R91). -/
def State.cellValue (s : State) (n : BitVec 5) (i : Nat) : Dy := (s.blk n (i / s.cfg.block)).value.add (s.devQ n i)

/-- Whether cell `i` of the field at a register is poisoned. -/
def State.cellBad (s : State) (n : BitVec 5) (i : Nat) : Bool := (groupSrc s n.toNat s.cfg.g s.cfg.sew i).2

/-- No cell of the field at a register is poisoned. -/
def State.cellsClean (s : State) (n : BitVec 5) : Bool := (List.range s.cfg.cells).all (fun i => !s.cellBad n i)

/-- RNE64 of an exact value, none where it would be infinite (R98), and that anchor's exact value. -/
def rne64 (x : Dy) : Option Nat := (anchorOf x).map (fun r => r.1)
/-- The exact value of RNE64 of an exact value. -/
def rne64Value (x : Dy) : Dy := ((anchorOf x).map (fun r => r.2)).getD ⟨0, 0⟩

/-- An anchored instruction: whether its operands are in order, whether its result is twice as wide, and by block the quantum
exponent of the result, whether it is invalid (R92) and, where it writes descriptors, its anchor (none: not representable);
by cell, what is rounded to that quantum, its poison, and whether it raises NV. -/
structure AnchorRow where
  instr : Instr
  ok : Bool
  wide : Bool
  qexp : Nat → Int
  invalid : Nat → Bool
  anchor : Option (Nat → Option Nat)
  cell : Nat → Dy
  bad : Nat → Bool
  nv : Nat → Bool

/-- The width of a row's result. -/
def AnchorRow.width (r : AnchorRow) (s : State) : Nat := if r.wide then 2 * s.cfg.w else s.cfg.w

/-- The registers of a row's result. -/
def AnchorRow.count (r : AnchorRow) (s : State) : Nat := if r.wide then 2 * s.cfg.g else s.cfg.g

/-- The rounded deviation of cell `i`, and whether rounding was inexact (R98). -/
def AnchorRow.result (r : AnchorRow) (s : State) (i : Nat) : Int × Bool := (r.cell i).quantum (r.qexp (i / s.cfg.block))

/-- Whether block `k` of the result can be represented (R98). -/
def AnchorRow.fits (r : AnchorRow) (s : State) (k : Nat) : Bool :=
  qexpFits (r.qexp k) && (r.invalid k ||
    ((match r.anchor with | some f => (f k).isSome | none => true) &&
      (List.range s.cfg.block).all (fun j => devFits (r.width s) (r.result s (k * s.cfg.block + j)).1)))

/-- The descriptor that block `k` of the octet of vd holds afterwards (R92, R233). -/
def AnchorRow.desc (r : AnchorRow) (s : State) (d : BitVec 5) (k : Nat) : BitVec 128 :=
  let old := s.hart.desc (octetOf d.toNat) k
  let new := fun a => makeDesc a (r.qexp k) (geomByte s.cfg.block (r.width s)) (descVersion old + 2)
  if r.invalid k then new nanAnchor
  else match r.anchor with
    | some f => new ((f k).getD 0)
    | none => old

/-- The flags of a row (R98, R92): NX where a cell of a valid block is inexact, NV where a block is invalid or a cell raises it. -/
def AnchorRow.flags (r : AnchorRow) (s : State) : Nat :=
  let cells := List.range s.cfg.cells
  (if cells.any (fun i => !r.invalid (i / s.cfg.block) && (r.result s i).2) then flagNX else 0) |||
  (if (List.range s.cfg.blocks).any r.invalid || cells.any (fun i => !r.invalid (i / s.cfg.block) && r.nv i) then flagNV else 0)

/-- `aadd`, `asub`, `amul`, `ascale`, `areanchor`, `adiff` and `afrom`, every form (R239 to R243, R245). `code` is the float code of
`afrom`, `mode` the mode of `areanchor.vi`. -/
noncomputable def State.anchorRows (s : State) (b a d : BitVec 5) (code : AnchorFloat) (mode : BitVec 2) : List AnchorRow :=
  let c := s.cfg
  let k := fun i => i / c.block
  let no := fun (_ : Nat) => false
  let aligned := groupOk b.toNat c.g && groupOk d.toNat c.g
  let same := aligned && octetOf b.toNat == octetOf d.toNat
  let inv := fun n j => (s.blk n j).anchor.isNone
  let x := finiteOf .fp64 (s.hart.getF a).toNat
  let xv := x.getD ⟨0, 0⟩
  let xr := s.hart.getX a
  let keep := fun i ok (cell : Nat → Dy) => (⟨i, ok, false, fun j => (s.blk d j).qexp, inv d, none, cell, s.cellBad b, no⟩ : AnchorRow)
  let both := fun i (cell : Nat → Dy) => (⟨i, aligned && groupOk a.toNat c.g, false, fun j => (s.blk d j).qexp,
    fun j => inv a j || inv b j || inv d j, none, cell, fun j => s.cellBad a j || s.cellBad b j, no⟩ : AnchorRow)
  let mul := fun i (q : Int) =>
    let r := fun j => (s.blk d j).value.mul (s.blk b j).value
    (⟨i, aligned, false, fun _ => q, fun j => inv d j || inv b j, some (fun j => rne64 (r j)), fun j =>
      let da := s.devQ d j
      let db := s.devQ b j
      ((((r (k j)).sub (rne64Value (r (k j)))).add ((s.blk d (k j)).value.mul db)).add ((s.blk b (k j)).value.mul da)).add (da.mul db),
      fun j => s.cellBad d j || s.cellBad b j, no⟩ : AnchorRow)
  let move := fun i ok (m : Nat) (change : Int) =>
    let r := fun j => (s.blk b j).value.add (Dy.ofInt (anchorShift m ((List.range c.block).map (fun t => s.dev b (j * c.block + t)))) (s.blk b j).qexp)
    (⟨i, same && ok && m != 3 && s.cellsClean b, false, fun j => (s.blk b j).qexp + change, inv b, some (fun j => rne64 (r j)),
      fun j => (s.cellValue b j).sub (rne64Value (r (k j))), s.cellBad b, no⟩ : AnchorRow)
  let diff := fun i ok (t : Nat) =>
    let edge := fun j => decide (j < t) || decide (c.cells ≤ j + t)
    let cross := fun j => k (j + t) != k (j - t)
    (⟨i, groupOk b.toNat c.g && groupOk d.toNat (2 * c.g) && decide (c.w ≤ 16) && ok, true, fun j => (s.blk b j).qexp,
      fun j => inv b j || (List.range c.block).any (fun u =>
        let z := j * c.block + u
        !edge z && cross z && (inv b (k (z + t)) || inv b (k (z - t)))),
      some (fun _ => some 0),
      fun j => if edge j then ⟨0, (s.blk b (k j)).qexp⟩
        else if cross j then (s.cellValue b (j + t)).sub (s.cellValue b (j - t))
        else Dy.ofInt (s.dev b (j + t) - s.dev b (j - t)) (s.blk b (k j)).qexp,
      fun j => !edge j && (s.cellBad b (j + t) || s.cellBad b (j - t)), no⟩ : AnchorRow)
  let f := anchorFormat code
  let fsrc := groupSrc s b.toNat (floatGroup c f) (sewOfBits (fmtBitsOf f))
  [keep (.aaddVi b a d) same (fun j => Dy.ofInt (s.dev b j + a.toInt) (s.blk d (k j)).qexp),
   keep (.asubVi b a d) same (fun j => Dy.ofInt (s.dev b j - a.toInt) (s.blk d (k j)).qexp),
   keep (.aaddVx b a d) (same && x.isSome) (fun j => (s.devQ b j).add xv),
   keep (.asubVx b a d) (same && x.isSome) (fun j => (s.devQ b j).sub xv),
   both (.aaddVv b a d) (fun j => ((s.cellValue b j).add (s.cellValue a j)).sub (s.blk d (k j)).value),
   both (.asubVv b a d) (fun j => ((s.cellValue b j).sub (s.cellValue a j)).sub (s.blk d (k j)).value),
   mul (.amulVi b a d) a.toInt, mul (.amulVx b a d) (toSigned 8 (xr.toNat % 256)),
   ⟨.ascaleVi b a d, same, false, fun j => (s.blk b j).qexp + a.toInt, inv b,
    some (fun j =>
      let r := ((s.blk b j).value.mul ⟨1, a.toInt⟩).toFloat .fp64
      if r.2.1 = 0 then some r.1 else none),
    fun j => Dy.ofInt (s.dev b j) ((s.blk b (k j)).qexp + a.toInt), s.cellBad b, no⟩,
   ⟨.ascaleVx b a d, same && x.isSome, false, fun j => (s.blk b j).qexp, inv b,
    some (fun j => rne64 ((s.blk b j).value.mul xv)),
    fun j =>
      let r := (s.blk b (k j)).value.mul xv
      (r.sub (rne64Value r)).add ((s.devQ b j).mul xv), s.cellBad b, no⟩,
   move (.areanchorVi b mode d) true mode.toNat 0,
   move (.areanchorVx b a d) true (xr.toNat / 256 % 4) (toSigned 8 (xr.toNat % 256)),
   diff (.adiffVi b a d) (immNonNegative a) a.toNat, diff (.adiffVx b a d) true xr.toNat,
   ⟨.afrom b code d, groupOk d.toNat c.g && groupOk b.toNat (floatGroup c f) && (List.range c.cells).all (fun j => !(fsrc j).2), false,
    fun j => (s.blk d j).qexp, inv d, none,
    fun j => match finiteOf f (fsrc j).1 with | some v => v.sub (s.blk d (k j)).value | none => ⟨0, (s.blk d (k j)).qexp⟩,
    no, fun j => (finiteOf f (fsrc j).1).isNone⟩]

/-! Quantising and matrix instructions (R66 to R79, R256 to R283). -/

/-- A register group of which some elements are written, as `GroupPut`, where an instruction writes several groups. -/
structure GroupElems (s t : State) (d g sew : Nat) (val : Nat → Option (Nat × Bool)) : Prop where
  put : ∀ i x, s.holds g sew i → val i = some x → t.elem d g sew i = x.1
  putBad : sewBits sew % 8 = 0 → ∀ i x, s.holds g sew i → val i = some x → t.elemPoisoned d g sew i = x.2
  kept : ∀ i, s.holds g sew i → val i = none → t.elem d g sew i = s.elem d g sew i
  keptBad : sewBits sew % 8 = 0 → ∀ i, s.holds g sew i → val i = none → t.elemPoisoned d g sew i = s.elemPoisoned d g sew i

/-- Every vector register but those listed keeps its elements. -/
def State.onlyWrites (s t : State) (l : List (Nat × Nat)) : Prop :=
  ∀ n g sew, (∀ r ∈ l, n + g ≤ r.1 ∨ r.1 + r.2 ≤ n) → groupSrc t n g sew = groupSrc s n g sew

/-- Whether block `k` of `bk` elements holds an active element (R67). -/
def State.liveBlock (s : State) (m : MaskNo) (bk k : Nat) : Bool := (List.range bk).any (fun j => s.isActive m (k * bk + j))

/-- What block `k` quantises: the value of each active element (R67). -/
def State.quantIn (s : State) (m : MaskNo) (bk : Nat) (val : Nat → FVal) (k : Nat) : QIn :=
  (List.range bk).map (fun j => if s.isActive m (k * bk + j) then some (val (k * bk + j)) else none)

/-- The codes a quantising instruction writes: those of the active elements, +0 in the padded positions of a live block (R67). -/
def State.codesPut (s : State) (m : MaskNo) (bk : Nat) (block : Nat → QBlock) (bad : Nat → Bool) (i : Nat) : Option (Nat × Bool) :=
  if s.liveBlock m bk (i / bk) then
    if s.isActive m i then some ((block (i / bk)).codes.getD (i % bk) 0 % 2 ^ s.cfg.w, bad i)
    else if s.hart.vl.toNat ≤ i then some (0, false) else none
  else none

/-- One value for each live block, poisoned when an active element of the block is (R260). -/
def State.blocksPut (s : State) (m : MaskNo) (bk : Nat) (val : Nat → Nat) (bad : Nat → Bool) (k : Nat) : Option (Nat × Bool) :=
  if s.liveBlock m bk k then
    some (val k, (List.range bk).any (fun j => s.isActive m (k * bk + j) && bad (k * bk + j)))
  else none

/-- The flags of the live blocks ORed. -/
def State.blockFlags (s : State) (m : MaskNo) (bk : Nat) (block : Nat → QBlock) : Nat :=
  orAll (((List.range (ceilDiv s.hart.vl.toNat bk)).filter (s.liveBlock m bk)).map (fun k => (block k).flags))

/-- Registers of the FP32 group of a quantising instruction (R276). -/
def VCfg.wideGroup (c : VCfg) : Nat := pow2AtLeast 7 (ceilDiv (c.g * 32) c.w)

/-- The current hart ready for a quantising instruction of a narrow format (R276). -/
def State.quantReady (s : State) (f : FFmt) : Prop :=
  s.ready 1 = true ∧ s.cfg.sew ≤ 2 ∧ s.cfg.block = 0 ∧ s.cfg.fmt = some f ∧ s.cfg.wideGroup ≤ 8

/-- The value of element `i` of an FP32 group. -/
def State.wideVal (s : State) (n : BitVec 5) (i : Nat) : FVal := decodeFloat .fp32 (groupSrc s n.toNat s.cfg.wideGroup 4 i).1

/-- Whether element `i` of an FP32 group is poisoned. -/
def State.wideBad (s : State) (n : BitVec 5) (i : Nat) : Bool := (groupSrc s n.toNat s.cfg.wideGroup 4 i).2

/-- An outer product (R264, R272): its profile bit, its form at the vtype, whether the scales and bands apply. -/
noncomputable def outerRows (b a : BitVec 5) (t : TileNo) : List (Instr × Nat × (VCfg → Option MpaForm) × Bool) :=
  [(.mpa b a t, 1, mpaFormat, true), (.mpaI b a t, 1, mpaIntFormat, true), (.mpaH b a t, 1, mpaHalfFormat, true),
   (.mlra b a t, 4, mlraFormat, false)]

/-- The new value and flags of C[i][j] (R77, R265, R268): the products of row i of A and column j of B, and the scale product. -/
def State.outerElem (s : State) (f : MpaForm) (scaled : Bool) (b a : BitVec 5) (t : TileNo) (i j : Nat) : Nat × Nat :=
  let x := groupSrc s a.toNat s.cfg.g s.cfg.sew
  let y := groupSrc s b.toNat s.cfg.g s.cfg.sew
  let ps := (List.range f.kb).map (fun k =>
    fMulExact (f.val (x (k * s.hart.vrow.toNat + i)).1) (f.val (y (k * s.hart.vl.toNat + j)).1))
  let g := if scaled then scaleProduct s.hart i j else .fin false 1 0
  blockUpdate ((s.hart.getT t).elem i j) ps g

/-- Whether C[i][j] is poisoned after an outer product (R260). -/
def State.outerBad (s : State) (f : MpaForm) (b a : BitVec 5) (t : TileNo) (i j : Nat) : Bool :=
  (s.hart.getT t).bad i j || (List.range f.kb).any (fun k =>
    (groupSrc s a.toNat s.cfg.g s.cfg.sew (k * s.hart.vrow.toNat + i)).2 ||
    (groupSrc s b.toNat s.cfg.g s.cfg.sew (k * s.hart.vl.toNat + j)).2)

/-- A tile of which some elements are written, every other tile as it was. -/
structure TilePut (s t : State) (n : TileNo) (val : Nat → Nat → Option (Nat × Bool)) : Prop where
  put : ∀ i j x, i < 128 → j < 128 → val i j = some x → (t.hart.getT n).elem i j = x.1 ∧ (t.hart.getT n).bad i j = x.2
  kept : ∀ i j, i < 128 → j < 128 → val i j = none →
    (t.hart.getT n).elem i j = (s.hart.getT n).elem i j ∧ (t.hart.getT n).bad i j = (s.hart.getT n).bad i j
  others : ∀ k, k ≠ n → t.hart.getT k = s.hart.getT k

/-! Memory instructions (R309 to R342). -/

/-- The current hart ready to access memory: its stores performed, none held back. -/
def State.accessReady (s : State) (profile : Nat) : Bool := s.ready profile && s.hart.vsq.isEmpty && !s.hart.holdVsq

/-- A request of the current hart. -/
def State.request (s : State) (write : Bool) (ranges : List (Nat × Nat)) (misaligned : List Nat) (accept : Aperture → Bool → Bool) :
    ProbeReq := ⟨s.agent s.hart s.hart.mode, write, ranges, misaligned, accept⟩

/-- The accesses of an instruction can be made: no walk meets a locked line, they pass the probe (R314, R315) with these pieces, their
pages can be pinned (R317), and none of their pieces has to wait. -/
structure Reaches (s : State) (write : Bool) (rs : List ProbeReq) (ps : List Probed) : Prop where
  unlocked : probeLocked (rs.map (viewOf s)) = false
  passes : ∀ w, probe s write rs w = .ok ps
  pinned : pinsLacking s (commitProbe s rs ps) = false
  quiet : ∀ p ∈ ps, ∀ l ∈ p.pieces, ∀ x ∈ l, pieceWait s x = none

/-- Where element `i` of an access lies (R311 to R313, R323): `a` names the base, `b` the stride, the bit offset or the index group. -/
def State.placeOf (s : State) (m : VMode) (b a : BitVec 5) (i : Nat) : Place :=
  let w := s.cfg.w
  let base := (s.hart.getX a).toNat
  let x := (s.hart.getX b).toNat
  let packed := fun bit => (⟨(base + bit / 8) % 2 ^ 64, (bit % 8 + w + 7) / 8, bit % 8⟩ : Place)
  match m with
  | .unit => packed (i * w)
  | .bits => packed (x + i * w)
  | .strided => ⟨(base + i * x) % 2 ^ 64, w / 8, 0⟩
  | .indexed n => ⟨(base + (groupSrc s n (indexCount s.cfg) 5 i).1) % 2 ^ 64, w / 8, 0⟩

/-- Whether an address mode suits the width and its operands are in order (R312, R313, R323, R319). -/
def State.modeOk (s : State) (mask : MaskNo) (m : VMode) (b : BitVec 5) : Bool :=
  match m with
  | .unit => true
  | .strided => decide (8 ≤ s.cfg.w)
  | .bits => decide ((s.hart.getX b).toNat ≤ 7) && (decide (s.cfg.w < 8) || s.hart.getX b == 0#64)
  | .indexed n => decide (8 ≤ s.cfg.w) && groupOk n (indexCount s.cfg) &&
      (s.actives mask).all (fun i => !(groupSrc s n (indexCount s.cfg) 5 i).2)

/-- The places of the active elements. -/
def State.places (s : State) (mask : MaskNo) (m : VMode) (b a : BitVec 5) : List Place := (s.actives mask).map (s.placeOf m b a)

/-- The request for the active elements (R310, R313). -/
def State.accessReq (s : State) (mask : MaskNo) (m : VMode) (b a : BitVec 5) (write : Bool) (accept : Aperture → Bool → Bool) :
    ProbeReq :=
  let l := s.places mask m b a
  s.request write (l.map (fun p => (p.va, p.len)))
    (if s.cfg.w < 8 then [] else (l.map Place.va).filter (fun v => v % (s.cfg.w / 8) != 0)) accept

/-- The active elements with their places and pieces. -/
def State.accessed (s : State) (mask : MaskNo) (m : VMode) (b a : BitVec 5) (p : Probed) : List (Nat × Place × List Piece) :=
  List.zip (s.actives mask) (List.zip (s.places mask m b a) p.pieces)

/-- The pieces of the active elements. -/
def State.piecesOf (s : State) (mask : MaskNo) (m : VMode) (b a : BitVec 5) (p : Probed) : List Piece :=
  (s.accessed mask m b a p).flatMap (fun x => x.2.2)

/-- The value and poison that a load gives element `i`, none where it loads nothing: read in the state `c`, in units of `u` bytes
(R366; log 8). -/
def State.loaded (s : State) (mask : MaskNo) (m : VMode) (b a : BitVec 5) (p : Probed) (u : Nat) (c : State) (i : Nat) :
    Option (Nat × Bool) :=
  ((s.accessed mask m b a p).find? (fun x => x.1 == i)).map (fun x => elementOf s.cfg.w x.2.1 (readPieces u c x.2.2))

/-- The loads: their mode, whether they take the gang scratchpad only, where arrivals hold them back (R298, R325), and whether their
elements are ordered (R324). -/
noncomputable def loadRows (mask : MaskNo) (b a d : BitVec 5) : List (Instr × VMode × Bool × Bool) :=
  [(.vld mask a d, .unit, false, false), (.vldS mask b a d, .strided, false, false), (.vldX mask b a d, .indexed b.toNat, false, false),
   (.vldB mask b a d, .bits, false, false), (.vldoS mask b a d, .strided, false, true), (.vldoX mask b a d, .indexed b.toNat, false, true),
   (.vldW mask a d, .unit, true, false)]

/-- The unit in which a load reads: `vld.w` reads bytes as they are, the others in the units of their atomicity (R366; log 8). -/
def State.readUnit (s : State) (mask : MaskNo) (m : VMode) (b a : BitVec 5) (arrival ordered : Bool) (p : Probed) : Nat :=
  if arrival then 0 else loadUnit s.hart m mask ordered s.cfg.w (s.piecesOf mask m b a p)

/-- The loads into a load queue (R326). -/
noncomputable def queueLoadRows (mask : MaskNo) (b a : BitVec 5) (q : QueueNo) : List (Instr × VMode) :=
  [(.vldQ mask a q, .unit), (.vldQS mask b a q, .strided), (.vldQX mask b a q, .indexed b.toNat)]

/-- The stores. -/
noncomputable def storeRows (mask : MaskNo) (b a v : BitVec 5) : List (Instr × VMode) :=
  [(.vst mask a v, .unit), (.vstS mask b a v, .strided), (.vstX mask b a v, .indexed b.toNat), (.vstB mask b a v, .bits),
   (.vstoS mask b a v, .strided), (.vstoX mask b a v, .indexed b.toNat)]

/-- The prefetches (R327). -/
noncomputable def prefetchRows (mask : MaskNo) (b a : BitVec 5) : List (Instr × VMode) :=
  [(.vpf mask a, .unit), (.vpfS mask b a, .strided), (.vpfX mask b a, .indexed b.toNat)]

/-- A store form's entry performed: the bytes, and the current hart's vector loads read them as they are (R318, R369). -/
def State.storedBy (c : State) (x : VsqEntry) : State := performEntry x (c.onHart (Hart.refresh (x.writes.map ByteWrite.key)))

/-- A hart but for its reservation and what it waits for. -/
def Hart.calm (h : Hart) : Hart := { h with reservation := none, stall := none, wait := none }

/-- The requests of an anchored load or store: the cells at x[a], the descriptors at x[b] (R93, R328). -/
def State.fieldRequests (s : State) (b a : BitVec 5) (write : Bool) : List ProbeReq :=
  let c := s.cfg
  let cell := (s.hart.getX a).toNat
  let desc := (s.hart.getX b).toNat
  if c.blocks = 0 then []
  else
    [s.request write [(cell, c.cells * c.w / 8)] (if c.w < 8 ∨ cell % (c.w / 8) = 0 then [] else [cell]) acceptAll,
     s.request write [(desc, 16 * c.blocks)] (if desc % 16 = 0 then [] else [desc]) acceptAtomic]

/-- The rows of a tile access: row `i` at x[a] + i · x[b], each element of a row that does not start at a multiple of 4 misaligned
(R315, R331). -/
def State.tileRequest (s : State) (b a : BitVec 5) (write : Bool) : ProbeReq :=
  let n := 4 * min s.hart.vl.toNat 128
  let l := if n = 0 then []
    else (List.range s.hart.vrow.toNat).map (fun i => (((s.hart.getX a).toNat + i * (s.hart.getX b).toNat) % 2 ^ 64, n))
  s.request write l ((l.filter (fun r => r.1 % 4 != 0)).flatMap (fun r => (List.range (n / 4)).map (fun j => (r.1 + 4 * j) % 2 ^ 64)))
    acceptAll

/-! Control (R165 to R172, R346 to R373). -/

/-- The current hart ready for a vector instruction that does not depend on `vtype`. -/
def State.idle (s : State) (profile : Nat) : Bool := s.atRest && (s.profiles s.hart).testBit profile

/-- What R168 grants for a legal `vtype` at `l` lanes: `vl` and `vrow`. -/
def grantOf (vt l rows cols : Nat) : Nat × Nat :=
  let sew := vt % 8
  let g := 2 ^ (vt / 16 % 4)
  let b := blockOf (vt / 64 % 8)
  let vlmax := l * 512 * g / sewBits sew
  let kb := if b ≠ 0 then 0 else match sew with | 0 => 8 | 1 => 24 | 2 => 24 | 3 => 8 | _ => 0
  (if b = 0 then min cols vlmax else min (b * ((cols + b - 1) / b)) (min (b * (vlmax / b)) (128 * b)),
   if kb = 0 then 0 else min rows (min 128 (vlmax / kb)))

/-- The vector stores a hart holds back performed in order. -/
def State.storesDone (s : State) : State := s.performAll s.hart.vsq []

/-- None of the vector stores held back has to wait. -/
def State.storesFree (s : State) : Bool := s.hart.vsq.all (fun x => (entryWait s x).isNone)

/-- The scalar stores a hart holds back performed in order (R370). -/
def State.scalarsDone (s : State) : State :=
  (s.hart.ssq.foldl (fun a x => performEntry x a) s).onHart (fun h => { h with ssq := [] })

/-- None of the scalar stores held back has to wait. -/
def State.scalarsFree (s : State) : Bool := s.hart.ssq.all (fun x => (entryWait s x).isNone)

/-- None of the stores a hart holds back has to wait: the scalar ones, then the vector ones. -/
def State.allFree (s : State) : Bool := s.scalarsFree && s.scalarsDone.storesFree

/-- The stores a hart holds back performed, the scalar ones first. -/
def State.allDone (s : State) : State := s.scalarsDone.storesDone

/-- A state past a vector instruction of its current hart that changes nothing else but what admission does to its core. -/
def State.passedOver (s t : State) : Prop := t = { s with hart := s.hart.past, cores := s.coresAs t }

/-- Barrier `id` of the current hart's gang (R357). -/
def State.barrier (s : State) (id : Nat) : Option Barrier := (s.gangOf s.hart).bind (fun g => g.barriers[id]?)

/-- A vector state that an image holds at a lane count (R395, R410, R411): one whose registers keep their reserved bits at 0, whose vector
registers hold no bits that their tag or the lanes leave out, whose elided rows have no poison, and whose queues fit. -/
structure ImageHolds (h : Hart) (lanes : Nat) : Prop where
  laneCount : lanes ∈ [4, 8, 12, 16]
  vtype : h.vtype = 0x8000000000000000#64 ∨ h.vtype.toNat < 2 ^ 10
  handler : h.avec.toNat % 4 = 0
  areas : ∀ w ∈ [h.aqsave, h.vqsave, h.vmissrec], w.toNat % 64 = 0
  small : ∀ w ∈ [h.acause, h.vcause, h.vmisscnt], w.toNat < 256
  error : h.nmError ≠ some 0#64
  regs : ∀ n, n < 32 → let r := h.getV n
    match r.tag with
    | .u => r.stride = 0#64 ∧ r.image = 0#8192 ∧ r.poison = 0#1024
    | .a => r.image = 0#8192 ∧ r.poison = 0#1024
    | .g => r.base = 0#64 ∧ r.stride = 0#64 ∧ r.image.toNat < 2 ^ (512 * lanes) ∧ r.poison.toNat < 2 ^ (64 * lanes)
  mask : h.m[0] = 0#16384
  tiles : h.ownTiles ≤ 4
  absent : ∀ n : TileNo, h.ownTiles ≤ n.toNat → h.getT n = Tile.reset
  elided : ∀ (n : TileNo) (i : Nat), i < 128 → (h.getT n).row i = 0 → (h.getT n).rowPoison i = 0
  queues : h.bq.length ≤ 16 ∧ h.pigeonhole.length ≤ 8
  deliveries : ∀ l ∈ h.loadq.toList, (l.map Delivery.groups).sum ≤ 8 ∧ ∀ d ∈ l, 1 ≤ d.groups ∧
    d.image.toNat < 2 ^ (64 * lanes * d.groups) ∧ d.poison.toNat < 2 ^ (8 * lanes * d.groups)

/-! The scalar base (R111 to R117). -/

/-- The word whose bit `k` is `f k`. -/
def wordOfBits (f : Nat → Bool) : Word :=
  BitVec.ofNat 64 ((List.range 64).foldr (fun k acc => (if f k then 1 else 0) + 2 * acc) 0)

/-- The 64 bits that a 32-bit result writes. -/
def low32 (x : BitVec 32) : Word := x.signExtend 64

/-- Zeros of a word before the first set bit of some positions. -/
def zerosBefore (x : Word) (ks : List Nat) : Word := BitVec.ofNat 64 (ks.takeWhile (fun k => !x.getLsbD k)).length

/-- Set bits of a word among its low `n`. -/
def onesBelow (x : Word) (n : Nat) : Word := BitVec.ofNat 64 ((List.range n).filter (fun k => x.getLsbD k)).length

/-- The instructions of I, M, Zba, Zbb and Zicond that write one register, each with the value written, from the PC, `a` = x[ra] and
`b` = x[rb] (R111; log 7). -/
def scalarRows (pc a b : Word) (d ra rb : XReg) (i : BitVec 12) (u : BitVec 20) (h : BitVec 6) (k : BitVec 5) : List (RvInstr × Word) :=
  let im : Word := i.signExtend 64
  let p : BitVec 32 := a.truncate 32
  let q : BitVec 32 := b.truncate 32
  let ua : Word := p.setWidth 64
  let n := b.toNat % 64
  let m := b.toNat % 32
  let one (c : Bool) : Word := if c then 1#64 else 0#64
  [(.lui d u, (u ++ 0#12 : BitVec 32).signExtend 64), (.auipc d u, pc + (u ++ 0#12 : BitVec 32).signExtend 64)] ++
  [(.opImm .addi d ra i, a + im), (.opImm .slti d ra i, one (a.slt im)), (.opImm .sltiu d ra i, one (a.ult im)),
   (.opImm .xori d ra i, a ^^^ im), (.opImm .ori d ra i, a ||| im), (.opImm .andi d ra i, a &&& im),
   (.addiw d ra i, low32 ((a + im).truncate 32))] ++
  [(.shiftImm .slli d ra h, a <<< h.toNat), (.shiftImm .srli d ra h, a >>> h.toNat), (.shiftImm .srai d ra h, a.sshiftRight h.toNat),
   (.shiftImm .rori d ra h, a.rotateRight h.toNat), (.shiftImm .slliUw d ra h, ua <<< h.toNat)] ++
  [(.shiftImmW .slliw d ra k, low32 (p <<< k.toNat)), (.shiftImmW .srliw d ra k, low32 (p >>> k.toNat)),
   (.shiftImmW .sraiw d ra k, low32 (p.sshiftRight k.toNat)), (.shiftImmW .roriw d ra k, low32 (p.rotateRight k.toNat))] ++
  [(.op .add d ra rb, a + b), (.op .sub d ra rb, a - b), (.op .sll d ra rb, a <<< n), (.op .srl d ra rb, a >>> n),
   (.op .sra d ra rb, a.sshiftRight n), (.op .slt d ra rb, one (a.slt b)), (.op .sltu d ra rb, one (a.ult b)),
   (.op .xor d ra rb, a ^^^ b), (.op .or d ra rb, a ||| b), (.op .and d ra rb, a &&& b)] ++
  [(.op .mul d ra rb, a * b), (.op .mulh d ra rb, (a.signExtend 128 * b.signExtend 128).extractLsb' 64 64),
   (.op .mulhsu d ra rb, (a.signExtend 128 * b.setWidth 128).extractLsb' 64 64),
   (.op .mulhu d ra rb, (a.setWidth 128 * b.setWidth 128).extractLsb' 64 64),
   (.op .div d ra rb, if b = 0#64 then BitVec.allOnes 64 else a.sdiv b), (.op .divu d ra rb, if b = 0#64 then BitVec.allOnes 64 else a / b),
   (.op .rem d ra rb, if b = 0#64 then a else a.srem b), (.op .remu d ra rb, if b = 0#64 then a else a % b)] ++
  [(.op .sh1add d ra rb, 2#64 * a + b), (.op .sh2add d ra rb, 4#64 * a + b), (.op .sh3add d ra rb, 8#64 * a + b),
   (.op .andn d ra rb, a &&& ~~~b), (.op .orn d ra rb, a ||| ~~~b), (.op .xnor d ra rb, ~~~(a ^^^ b)),
   (.op .max d ra rb, if a.slt b then b else a), (.op .maxu d ra rb, if a.ult b then b else a),
   (.op .min d ra rb, if a.slt b then a else b), (.op .minu d ra rb, if a.ult b then a else b),
   (.op .rol d ra rb, a.rotateLeft n), (.op .ror d ra rb, a.rotateRight n),
   (.op .czeroEqz d ra rb, if b = 0#64 then 0#64 else a), (.op .czeroNez d ra rb, if b = 0#64 then a else 0#64)] ++
  [(.opW .addw d ra rb, low32 (p + q)), (.opW .subw d ra rb, low32 (p - q)), (.opW .sllw d ra rb, low32 (p <<< m)),
   (.opW .srlw d ra rb, low32 (p >>> m)), (.opW .sraw d ra rb, low32 (p.sshiftRight m)), (.opW .mulw d ra rb, low32 (p * q)),
   (.opW .divw d ra rb, if q = 0#32 then BitVec.allOnes 64 else low32 (p.sdiv q)),
   (.opW .divuw d ra rb, if q = 0#32 then BitVec.allOnes 64 else low32 (p / q)),
   (.opW .remw d ra rb, low32 (if q = 0#32 then p else p.srem q)), (.opW .remuw d ra rb, low32 (if q = 0#32 then p else p % q)),
   (.opW .addUw d ra rb, ua + b), (.opW .sh1addUw d ra rb, 2#64 * ua + b), (.opW .sh2addUw d ra rb, 4#64 * ua + b),
   (.opW .sh3addUw d ra rb, 8#64 * ua + b), (.opW .rolw d ra rb, low32 (p.rotateLeft m)), (.opW .rorw d ra rb, low32 (p.rotateRight m))] ++
  [(.unary .clz d ra, zerosBefore a (List.range 64).reverse), (.unary .ctz d ra, zerosBefore a (List.range 64)),
   (.unary .cpop d ra, onesBelow a 64), (.unary .clzw d ra, zerosBefore a (List.range 32).reverse),
   (.unary .ctzw d ra, zerosBefore a (List.range 32)), (.unary .cpopw d ra, onesBelow a 32),
   (.unary .sextB d ra, (a.truncate 8 : BitVec 8).signExtend 64), (.unary .sextH d ra, (a.truncate 16 : BitVec 16).signExtend 64),
   (.unary .zextH d ra, a &&& 0xFFFF#64),
   (.unary .orcB d ra, wordOfBits (fun j => (List.range 8).any (fun x => a.getLsbD (j / 8 * 8 + x)))),
   (.unary .rev8 d ra, wordOfBits (fun j => a.getLsbD ((7 - j / 8) * 8 + j % 8)))]

/-- The branches, each with whether it is taken. -/
def branchRows (a b : Word) (ra rb : XReg) (o : BitVec 12) : List (RvInstr × Bool) :=
  [(.branch .eq ra rb o, a == b), (.branch .ne ra rb o, a != b), (.branch .lt ra rb o, a.slt b), (.branch .ge ra rb o, !a.slt b),
   (.branch .ltu ra rb o, a.ult b), (.branch .geu ra rb o, !a.ult b)]

/-- The F and D instructions that write an f register: the rounding mode of the word where it has one, whether the result is FP64, and
the code and flags (R117; log 7). `x` is x[ra]; the f registers are numbered ra, rb, rc. -/
def fpRows (h : Hart) (dbl : Bool) (k : IntKind) (rm : Rm) (d ra rb rc : XReg) : List (RvInstr × Option Rm × Bool × (Rnd → Nat × Nat)) :=
  let f := if dbl then FFmt.fp64 else FFmt.fp32
  let code := fun r => if dbl then (h.getF r).toNat else unbox32 (h.getF r)
  let val := fun r => decodeFloat f (code r)
  let top := fmtBitsOf f - 1
  let x := h.getX ra
  let int : Int := match k with
    | .w => (x.truncate 32 : BitVec 32).toInt | .wu => (x.toNat % 2 ^ 32 : Nat) | .l => x.toInt | .lu => (x.toNat : Nat)
  [(.farith .fadd dbl rm d ra rb, some rm, dbl, fun r => fAdd f r (val ra) (val rb)),
   (.farith .fsub dbl rm d ra rb, some rm, dbl, fun r => fAdd f r (val ra) (val rb).negate),
   (.farith .fmul dbl rm d ra rb, some rm, dbl, fun r => fMul f r (val ra) (val rb)),
   (.farith .fdiv dbl rm d ra rb, some rm, dbl, fun r => fDiv f r (val ra) (val rb)),
   (.fsqrt dbl rm d ra, some rm, dbl, fun r => fSqrt f r (val ra)),
   (.fma .fmadd dbl rm d ra rb rc, some rm, dbl, fun r => fMulAdd f r (val ra) (val rb) (val rc)),
   (.fma .fmsub dbl rm d ra rb rc, some rm, dbl, fun r => fMulAdd f r (val ra) (val rb) (val rc).negate),
   (.fma .fnmsub dbl rm d ra rb rc, some rm, dbl, fun r => fMulAdd f r (val ra).negate (val rb) (val rc)),
   (.fma .fnmadd dbl rm d ra rb rc, some rm, dbl, fun r => fMulAdd f r (val ra).negate (val rb) (val rc).negate),
   (.fpair .fsgnj dbl d ra rb, none, dbl, fun _ => (code ra % 2 ^ top + (if (code rb).testBit top then 2 ^ top else 0), 0)),
   (.fpair .fsgnjn dbl d ra rb, none, dbl, fun _ => (code ra % 2 ^ top + (if (code rb).testBit top then 0 else 2 ^ top), 0)),
   (.fpair .fsgnjx dbl d ra rb, none, dbl, fun _ =>
      (code ra % 2 ^ top + (if (code ra).testBit top != (code rb).testBit top then 2 ^ top else 0), 0)),
   (.fpair .fmin dbl d ra rb, none, dbl, fun _ => fMinMax f false (code ra) (code rb)),
   (.fpair .fmax dbl d ra rb, none, dbl, fun _ => fMinMax f true (code ra) (code rb)),
   (.fcvtFromInt k dbl rm d ra, some rm, dbl, fun r => toFormat f r (.ofInt int)),
   (.fcvtSD rm d ra, some rm, false, fun r => toFormat .fp32 r (decodeFloat .fp64 (h.getF ra).toNat)),
   (.fcvtDS rm d ra, some rm, true, fun r => toFormat .fp64 r (decodeFloat .fp32 (unbox32 (h.getF ra)))),
   (.fmvFromX dbl d ra, none, dbl, fun _ => (x.toNat, 0))]

/-- The F and D instructions that write an x register: the rounding mode where there is one, and the value and flags. -/
def fpIntRows (h : Hart) (dbl : Bool) (k : IntKind) (rm : Rm) (d ra rb : XReg) : List (RvInstr × Option Rm × (Rnd → Word × Nat)) :=
  let f := if dbl then FFmt.fp64 else FFmt.fp32
  let code := fun r => if dbl then (h.getF r).toNat else unbox32 (h.getF r)
  let val := fun r => decodeFloat f (code r)
  let one := fun (c : Bool) => if c then 1#64 else 0#64
  let anyNan := if (val ra).isNan || (val rb).isNan then flagNV else 0
  let lim : Int × Int := match k with
    | .w => (-2147483648, 2147483647) | .wu => (0, 4294967295)
    | .l => (-9223372036854775808, 9223372036854775807) | .lu => (0, 18446744073709551615)
  [(.fcmp .feq dbl d ra rb, none, fun _ => (one (fEq (val ra) (val rb)), nanFlags (val ra) (val rb))),
   (.fcmp .flt dbl d ra rb, none, fun _ => (one (fLt (val ra) (val rb)), anyNan)),
   (.fcmp .fle dbl d ra rb, none, fun _ => (one (fLt (val ra) (val rb) || fEq (val ra) (val rb)), anyNan)),
   (.fclass dbl d ra, none, fun _ => (BitVec.ofNat 64 (fClass f (code ra)), 0)),
   (.fcvtToInt k dbl rm d ra, some rm, fun r =>
      let y := fToInt r lim.1 lim.2 (val ra)
      (match k with | .w | .wu => low32 (BitVec.ofInt 32 y.1) | .l | .lu => BitVec.ofInt 64 y.1, y.2)),
   (.fmvToX dbl d ra, none, fun _ => (if dbl then h.getF ra else low32 ((h.getF ra).truncate 32), 0))]

/-- The rounding mode an F or D word asks for: its own, or that of `frm`; none where that is reserved. -/
def rounding (o : Option Rm) (frm : BitVec 3) : Option Rnd :=
  match o with
  | none => some .rne
  | some .rne => some .rne
  | some .rtz => some .rtz
  | some .rdn => some .rdn
  | some .rup => some .rup
  | some .rmm => some .rmm
  | some .dyn => vectorRounding frm

/-- A hart whose F and D state has been written: `fflags` with some flags ORed in, FS dirty. -/
def Hart.fpWritten (h : Hart) (fl : Nat) : Hart :=
  { h with fflags := h.fflags ||| BitVec.ofNat 5 fl, mstatus := h.mstatus ||| 0x6000#64 }

/-- The loads of a register x or f: the bytes they read, and the hart past the load of a number (R112; log 7). -/
def scalarLoads (d ra : XReg) (i : BitVec 12) : List (RvInstr × Nat × (Hart → Nat → Hart)) :=
  let put (f : Nat → Word) : Hart → Nat → Hart := fun h n => h.setX d (f n)
  [(.load .lb d ra i, 1, put (fun n => (BitVec.ofNat 8 n).signExtend 64)), (.load .lbu d ra i, 1, put (BitVec.ofNat 64)),
   (.load .lh d ra i, 2, put (fun n => (BitVec.ofNat 16 n).signExtend 64)), (.load .lhu d ra i, 2, put (BitVec.ofNat 64)),
   (.load .lw d ra i, 4, put (fun n => low32 (BitVec.ofNat 32 n))), (.load .lwu d ra i, 4, put (BitVec.ofNat 64)),
   (.load .ld d ra i, 8, put (BitVec.ofNat 64)),
   (.fload false d ra i, 4, fun h n => (h.setF d (BitVec.ofNat 64 (0xFFFFFFFF00000000 + n % 2 ^ 32))).fpWritten 0),
   (.fload true d ra i, 8, fun h n => (h.setF d (BitVec.ofNat 64 n)).fpWritten 0)]

/-- The stores: the bytes they write and the value whose low bytes these are. -/
def scalarStores (h : Hart) (ra rb : XReg) (i : BitVec 12) : List (RvInstr × Nat × Word) :=
  [(.store .sb ra rb i, 1, h.getX rb), (.store .sh ra rb i, 2, h.getX rb), (.store .sw ra rb i, 4, h.getX rb),
   (.store .sd ra rb i, 8, h.getX rb), (.fstore false ra rb i, 4, h.getF rb), (.fstore true ra rb i, 8, h.getF rb)]

/-- The atomic operations at a width, each with the value it stores from the old value and the operand. -/
def amoRows (w : Nat) : List (AmoOp × (BitVec w → BitVec w → BitVec w)) :=
  [(.swap, fun _ v => v), (.add, fun o v => o + v), (.xor, fun o v => o ^^^ v), (.and, fun o v => o &&& v), (.or, fun o v => o ||| v),
   (.min, fun o v => if o.sle v then o else v), (.max, fun o v => if o.sle v then v else o),
   (.minu, fun o v => if o ≤ v then o else v), (.maxu, fun o v => if o ≤ v then v else o)]

/-- The low bytes of a word, little-endian. -/
def lowBytes (n : Nat) (v : Word) : List Byte := (List.range n).map (fun j => v.extractLsb' (8 * j) 8)

/-- The `n` bytes of a piece as the scalar stream of the current hart reads them: the latest of its own stores still held back through the
same aperture, else memory, and each with whether it is poisoned as those stores will leave it (R304, R367, R377). -/
def State.scalarSees (s : State) (c : Piece) (n : Nat) : List (Byte × Bool) :=
  (List.range n).map (fun j =>
    let own := (s.hart.ssq.flatMap VsqEntry.pending).reverse.find? (fun w => w.ap == c.ap && w.key == c.key + j)
    ((own.map (fun w => w.value)).getD (readThrough s c.ap (c.key + j)), keyPoisoned { s with poison := queuedPoison s } (c.key + j)))

/-- The number some bytes read make, little-endian. -/
def seenValue (l : List (Byte × Bool)) : Nat := ofBytes (l.map (fun b => b.1))

/-- Whether a byte read is poisoned. -/
def seenBad (l : List (Byte × Bool)) : Bool := l.any (fun b => b.2)

/-- A scalar store of `n` bytes to a piece as its queue holds it, with the A and D bits that its performing sets (R388). -/
def storeOf (c : Piece) (n : Nat) (v : Word) (mark : Option LeafMark) : VsqEntry :=
  ⟨throughPieces [c] (runWrites c.key (lowBytes n v)), pieceKinds [c], false, [], mark.toList⟩

/-- A load or atomic left to be performed later (R370): its address, its bytes and the bits it sets, the number it found when it was issued,
and what the registers of its hart become once it has read one. -/
structure LoadLeft (l : ScalarLoad) (va : Word) (c : Piece) (n v : Nat) (mark : Option LeafMark) (put : Hart → Nat → Hart) : Prop where
  place : l.va = va ∧ l.len = n ∧ l.ap = c.ap ∧ l.key = c.key ∧ l.kind = c.kind
  value : l.value = v
  marked : l.mark = mark
  reads : ∀ h k, l.read.put n k h = put h k

/-- A scalar store of `n` bytes to a piece performed: its A and D bits set, the bytes written, the page given its kind. -/
def State.stored (s : State) (c : Piece) (n : Nat) (v : Word) (mark : Option LeafMark) : State :=
  performEntry (storeOf c n v mark) s

/-- Memory outside `n` bytes from a key reads as before, and each of those bytes holds its byte of a value, but in the memory control
block and at a device whose route is down. -/
def storesOnly (s t : State) (key n : Nat) (v : Word) : Prop :=
  (∀ k, k < key ∨ key + n ≤ k → memRead t.mem k = memRead s.mem k) ∧
  (∀ j, j < n → isControlKey (key + j) = false → routeDown s (key + j) = false → memRead t.mem (key + j) = v.extractLsb' (8 * j) 8)

/-! Taking a base exception or interrupt (the RV64 base; R400, R49). -/

/-- The handler's address: the base of a vector register, plus four times the cause of an interrupt in vectored mode. -/
def handlerAt (tvec : Word) (cause : Nat) (interrupt : Bool) : Word :=
  (tvec &&& ~~~3#64) + (if interrupt && tvec.extractLsb' 0 2 == 1#2 then BitVec.ofNat 64 (4 * cause) else 0#64)

/-- The value of the cause register. -/
def causeIs (cause : Nat) (interrupt : Bool) : Word := BitVec.ofNat 64 cause ||| (if interrupt then 0x8000000000000000#64 else 0#64)

/-- Entry to M mode: the address, cause and trap value saved, MPP, MPIE and MIE, the handler; the reservation is lost (R113). -/
structure EnteredM (s t : State) (cause : Nat) (interrupt : Bool) (epc tval : Word) : Prop where
  frame : t = { s with hart := { s.hart with
    mepc := epc, mcause := causeIs cause interrupt, mtval := tval, mstatus := t.hart.mstatus, mode := .machine,
    pc := handlerAt s.hart.mtvec cause interrupt, reservation := none } }
  mpp : t.hart.mstatus.extractLsb' 11 2 = match s.hart.mode with | .user => 0#2 | .supervisor => 1#2 | .machine => 3#2
  status : ∀ k, k < 64 → k ≠ 11 → k ≠ 12 → t.hart.mstatus.getLsbD k =
    if k = 3 then false else if k = 7 then s.hart.mstatus.getLsbD 3 else s.hart.mstatus.getLsbD k

/-- The launches with one more fault, saturating at 2^32 − 1, for the launch of the current hart, which is also marked as having a
terminated hart where one is stopped (R49). -/
def State.faultsCounted (s : State) (stopped : Bool) : List Launch :=
  match s.launchOf s.hart with
  | some l => s.launches.map (fun o => if o.key = l.key
      then { l with faults := if l.faults < 2 ^ 32 - 1 then l.faults + 1 else l.faults, terminated := l.terminated || stopped } else o)
  | none => s.launches

/-- Entry to S mode: SPP, SPIE and SIE; the trap counts in its launch (R49). -/
structure EnteredS (s t : State) (cause : Nat) (interrupt : Bool) (epc tval : Word) : Prop where
  frame : t = { s with
    launches := t.launches,
    hart := { s.hart with
      sepc := epc, scause := causeIs cause interrupt, stval := tval, mstatus := t.hart.mstatus, mode := .supervisor,
      pc := handlerAt s.hart.stvec cause interrupt, reservation := none } }
  status : ∀ k, k < 64 → t.hart.mstatus.getLsbD k =
    if k = 1 then false else if k = 5 then s.hart.mstatus.getLsbD 1 else if k = 8 then decide (s.hart.mode ≠ .user)
    else s.hart.mstatus.getLsbD k
  counted : t.launches = s.faultsCounted false

/-- Whether an instruction is of F or D, so that FS must be on (the base). -/
def usesFp (i : RvInstr) : Bool :=
  match i with
  | .fload _ _ _ _ | .fstore _ _ _ _ | .farith _ _ _ _ _ _ | .fsqrt _ _ _ _ | .fma _ _ _ _ _ _ _ | .fpair _ _ _ _ _ | .fcmp _ _ _ _ _
  | .fclass _ _ _ | .fcvtToInt _ _ _ _ _ | .fcvtFromInt _ _ _ _ _ | .fcvtSD _ _ _ | .fcvtDS _ _ _ | .fmvToX _ _ _ | .fmvFromX _ _ _ => true
  | _ => false

/-! Control and status registers (R115, R161 to R183, R385, R430 to R434). -/

/-- The instructions that write a CSR, each with the number of the register. -/
def csrWriters (op : CsrOp) (d : XReg) (src : BitVec 5) (n : BitVec 4) (csr : BitVec 12) : List (Instr × BitVec 12) :=
  [(.pwrgrantWrite op d src, 0x7C0#12), (.chainpermWrite op d src, 0x7C1#12), (.busyctlWrite op d src, 0x7C2#12),
   (.vdeskWrite op d src, 0x5C4#12), (.satpWrite op d src, 0x180#12), (.mhpmcounterWrite op d n src, 0xB03#12 + n.setWidth 12),
   (.mhpmeventWrite op d n src, 0x323#12 + n.setWidth 12), (.csrWrite op d csr src, csr)]

/-- The value a Zicsr form writes: its operand, or the old value with the bits of the operand set or cleared. -/
def csrStored (op : CsrOp) (old x : Word) : Word :=
  match op with
  | .rw | .rwi => x
  | .rs | .rsi => old ||| x
  | .rc | .rci => old &&& ~~~x

/-- The state after a write of the CSRs of R174 to R183, R385, R430 to R434 with the read-only and reserved fields kept; any other
register of the hart as `writeHartCsr` has it (R162; log 7). What counters may count by timing is settled before a selector, the
chaining mask or an inhibit bit changes (log 11, 62). -/
def State.csrWritten (s : State) (csr : Nat) (v : Word) : State :=
  let core := s.hart.hid / 8
  let c := s.core core
  if csr = 0x7C0 then
    if 1 ≤ v.toNat % 8 ∧ v.toNat % 8 ≤ 4 then s.setCore core { c with ceilq := v.extractLsb' 0 3 } else s
  else if csr = 0x7C1 then
    let z := settleCounters s core
    z.setCore core { z.core core with chainperm := v.extractLsb' 0 6 }
  else if csr = 0x7C2 then
    let x := (s.strings[core / 4]?).getD SeriesString.reset
    let y := { x with limit := v.extractLsb' 8 8, pol := if v.extractLsb' 0 2 = 3#2 then x.pol else v.extractLsb' 0 2 }
    { s with strings := s.strings.setIfInBounds (core / 4) y }
  else if csr = 0x5C4 then
    let g := v.extractLsb' 8 8
    { s with hart := { s.hart with gencap := if g ≤ 32#8 ∨ g = 255#8 then g else s.hart.gencap } }
  else if csr = 0x180 then
    let mode := v.extractLsb' 60 4
    { s with hart := { s.hart with
      satp := (if mode = 0#4 ∨ mode = 15#4 then mode else s.hart.satp.extractLsb' 60 4) ++ v.extractLsb' 0 60 } }
  else if 0xB03 ≤ csr ∧ csr ≤ 0xB12 then s.setCore core { c with
      hpm := c.hpm.setIfInBounds (csr - 0xB03) v, slack := c.slack.setIfInBounds (csr - 0xB03) 0 }
  else if 0x323 ≤ csr ∧ csr ≤ 0x332 then
    let z := settleHpm s core (csr - 0x323)
    z.setCore core { z.core core with event := (z.core core).event.setIfInBounds (csr - 0x323) (v.extractLsb' 0 27) }
  else if csr = 0x320 then
    let z := settleCounters (readCycle s).2 core
    let u := z.setCore core { z.core core with inhibit := v.extractLsb' 3 16 }
    { u with hart := { u.hart with cyInhibit := v.getLsbD 0, irInhibit := v.getLsbD 2 } }
  else if csr = 0xB00 then { s with hart := { s.hart with cycle := v } }
  else csrPut s csr v

/-- CSRs that only read, with their values (R168, R176, R180, R182, R428, R430; R161). -/
def csrShown (s : State) : List (Nat × Word) :=
  let h := s.hart
  let core := h.hid / 8
  let wide (n : Nat) : Word := BitVec.ofNat 64 n
  [(0xCC0, wide h.vl.toNat), (0xCC1, wide h.vrow.toNat), (0xCC2, h.vtype), (0xC01, s.time), (0xC02, h.instret),
   (0xCC3, wide (h.lgrant.toNat + s.lanes h * 2 ^ 8 + (s.quadsOf h).toNat * 2 ^ 16 + s.ceiling * 2 ^ 24)),
   (0xCC6, wide (s.core core).chainperm.toNat),
   (0xCC9, wide (h.hid + core * 2 ^ 10 + core / 4 * 2 ^ 17 + core / 32 * 2 ^ 22 + s.device % 2048 * 2 ^ 24)),
   (0x5C5, wide (s.quadsOf h).toNat)]

/-- The current hart past a CSR instruction; a write of `minstret` is not followed by its own count (the base). -/
def Hart.pastCsr (h : Hart) (csr : Nat) : Hart := if csr = 0xB02 then { h with pc := h.pc + 4#64 } else h.past

/-- Whether `sfence.vma` drops a translation: of the realm, the page where one is named, and the ASID where one is named and the
translation is not global (R391). -/
def fenceDrops (realm : Nat) (page asid : Option Nat) (t : TlbEntry) : Bool :=
  t.realm == realm && page.all (fun p => p / 512 ^ t.level == t.vpage / 512 ^ t.level) &&
  asid.all (fun a => a == t.asid && !(t.leaf.getLsbD 5))

/-! Events of a hart (R32, R35, R401). -/

/-- The events that do something only on a running hart. -/
noncomputable def runningEvents : List (Nat → Instr) :=
  [.viqHeadAged, .microOpIssue, .vectorInstructionComplete, .lineLockRelease, .aldCAttempt, .pigeonholeValueArrives, .waitMemReread,
   .waitTimeDeadline, .vectorTrap, .userAnchorDelivery, .interrupt, .supervisorTerminate, .hartFatalError, .grantWindow, .revokeWindow]

/-- The events of one hart. -/
noncomputable def hartEvents : List (Nat → Instr) := runningEvents ++ [.lqRecordEntersQueue, fun hid => .storePerformed (.hart hid)]

/-- The events that run a waiting head again, each with the reasons it answers. -/
noncomputable def retries (hid : Nat) : List (Instr × (WaitReason → Bool)) :=
  [(.aldCAttempt hid, fun r => r == .aldc), (.pigeonholeValueArrives hid, fun r => r == .qpop || r == .qpush),
   (.waitMemReread hid, fun r => match r with | .waitMem _ _ => true | _ => false),
   (.waitTimeDeadline hid, fun r => match r with | .waitTime _ => true | _ => false)]

/-- The head of a VIQ run to its end (R35): complete, and the last its core admitted (R32); delivered as a trap (R401), which counts as
an admission where it is found after it, unless a record of the delivery must wait; or waiting at the head of the VIQ. An
instruction that has pins from an earlier attempt keeps its translations (R399). -/
structure Ended (s : State) (e : VEntry) (younger : List VEntry) (t : State) : Prop where
  done : ∀ u, entryEffect e s.clearUses.headState = .ok u →
    t = (((s.headLeaves u).noteRun e.word).complete (younger ++ u.hart.viq)).admitted s.hart e.mode
  trapped : ∀ cause tval side, entryEffect e s.clearUses.headState = .error (.trap cause tval side) →
    match deliveryWait s.dropWork e cause side younger with
    | none =>
      let d := deliver s e cause tval side younger
      t = if countsAdmitted cause side then d.admitted s.hart e.mode else d
    | some r => t = { s with hart := { s.hart with viq := e :: younger, window := none, wait := some r } }
  waits : ∀ r u, entryEffect e s.clearUses.headState = .error (.wait r u) →
    let k := s.headLeaves u
    t = { k with hart := { k.hart with viq := e :: younger, window := none, wait := some r } }

/-- The oldest instruction of the window run to its end (R35), under the translations it pins and the registers of its probe (R393):
complete, and the next of the window the oldest; delivered as a trap; or waiting in the window with its pins and locks, and with a
barrier it has arrived at (R358). -/
structure WindowEnded (s : State) (w : InFlight) (t : State) : Prop where
  done : ∀ u, entryEffect w.entry (windowState w s) = .ok u →
    let z := (State.noteWritten { keepRegisters s u with locks := s.locks } w.entry.word w.uses).complete (s.hart.viq ++ u.hart.viq)
    t = { z with hart := { z.hart with window := z.hart.next.head?, next := z.hart.next.drop 1, headAged := s.hart.headAged } }
  trapped : ∀ cause tval side, entryEffect w.entry (windowState w s) = .error (.trap cause tval side) →
    match deliveryWait s.dropWork w.entry cause side s.hart.younger with
    | none => t = deliver s w.entry cause tval side s.hart.younger
    | some r => t = { s with hart := { s.hart with wait := some r } }
  waits : ∀ r u, entryEffect w.entry (windowState w s) = .error (.wait r u) →
    let k := keepRegisters s u
    let x := { w with waited := if r = .barrier then some .barrier else w.waited }
    t = { k with hart := { k.hart with viq := s.hart.viq, window := some x, wait := some r }, locks := s.locks, pins := s.pins, tlb := s.tlb }

/-- The head of a VIQ put into the window, measured by the state `u` its effect left (R35): with its micro-ops, its age, the registers it
obtained, the ceiling and the translation registers it saw, what it reads and writes and whose results it reads, the ARIT entries
it holds, and the descriptors an `ald` reads ahead; its pins and locks stand, the A and D bits of its pages are set, the pointers of
an arrival copy go back, and its hart is the one its core admitted last (R32). -/
structure WindowEntered (s : State) (e : VEntry) (younger : List VEntry) (u t : State) : Prop where
  frame :
    let h := s.hart
    let uses := (u.core (h.hid / 8)).uses
    let own := u.locks.filter (fun l => l.hid == h.hid)
    let w : InFlight :=
      { entry := e, total := u.metered 0, microOps := u.metered 0, age := s.nextKey, slots := u.metered 1,
        ceiling := (s.core (h.hid / 8)).ceilq, waited := if h.window.isSome then none else h.wait, satp := h.satp,
        sum := h.mstatus.getLsbD 18, arit := engineArit e s, unit := wordUnit e.word, uses := uses,
        producers := risingOf (uses.reads.filterMap (writerIn h.windowed)), withheld := 0, descs := aheadDescs e s }
    let z : State := { s with
      hart := { h with
        viq := younger, window := h.window.or (some w), next := if h.window.isSome then h.next ++ [w] else [],
        wait := if h.window.isSome then h.wait else none, headAged := none },
      nextKey := s.nextKey + 1, pins := u.pins, locks := s.locks ++ own }
    t = { dropReservations (own.map LineLock.line) (markPinned h.hid u.pins z) with cores := t.cores }
  cores : ∀ n, t.core n = { s.core n with
    hpm := (t.core n).hpm, slack := (t.core n).slack, arrival := (t.core n).arrival, lastAdmitted := (t.core n).lastAdmitted }
  arrivals : (∀ x ∈ engineArit e s, x.copy = false) → ∀ n, (t.core n).arrival = (s.core n).arrival
  last : s.hart.hid < 1024 → (t.core (s.hart.hid / 8)).lastAdmitted = s.hart.hid % 8
  others : ∀ n, n ≠ s.hart.hid / 8 → t.core n = s.core n ∨ (t.core n).lastAdmitted = (s.core n).lastAdmitted

/-! Events of the memories (R295, R304, R305, R397, R398). -/

/-- The device-local units an uncorrectable error poisons, with the address its entry records (R304, R398); none where the error lies
outside what its source covers. -/
def State.errorUnits (s : State) (source : ErrorSource) (a : Nat) : Option (Nat × List PoisonUnit) :=
  let line := a / 64 * 64
  let dword := a / 8 * 8
  let home := homeOffset s a
  match source with
  | .hbm | .nearMemory => home.map (fun _ => (line, [⟨line, 64⟩]))
  | .l2 => home.map (fun _ => (dword, [⟨dword, 8⟩]))
  | .sidecar =>
    match home with
    | some o =>
      if o % 0x4000000000 < 2 ^ 32 then some (line, [⟨line, 64⟩]) else none
    | none => none
  | .scratchpad =>
    match localKey s engineAgent a with
    | some (.absoluteScratchpad, k) => some (k / 8 * 8, [⟨k / 8 * 8, 8⟩])
    | _ => none
  | .cxl =>
    match localKey s engineAgent a with
    | some (.cxl, k) => some (line, [⟨k / 64 * 64, 64⟩])
    | _ => none
  | .l1d =>
    match localKey s engineAgent a with
    | some (.absoluteScratchpad, k) => some (line, (List.range 8).map (fun i => ⟨k / 64 * 64 + 8 * i, 8⟩))
    | some (.cached, k) => some (line, [⟨k / 64 * 64, 64⟩])
    | some (.cxl, k) => some (line, [⟨k / 64 * 64, 64⟩])
    | _ => none

/-- The error record table after a detection (R398): the newest entry counts one more where source and address are its own; else a new
entry stands at HEAD modulo 64, and HEAD advances. -/
structure Recorded (s t : State) (source address place flags : Nat) : Prop where
  merged : ∀ e, s.lastError = some e → e.source = source → e.address = address →
    t.errHead = s.errHead ∧
    t.errors = s.errors.set s.newestError { e with count := min 65535 (e.count + 1), flags := e.flags ||| BitVec.ofNat 4 flags }
  fresh : (∀ e, s.lastError = some e → ¬(e.source = source ∧ e.address = address)) →
    t.errHead = s.errHead + 1#32 ∧
    let e : ErrorEntry := ⟨s.time, address, source, place, 1, BitVec.ofNat 4 flags⟩
    let i := s.errHead.toNat % 64
    t.errors = if i < s.errors.length then s.errors.set i e else s.errors ++ [e]

/-- The number of a source in an entry (R398). -/
def sourceIs : ErrorSource → Nat
  | .hbm => 1 | .sidecar => 2 | .l2 => 3 | .scratchpad => 4 | .l1d => 5 | .cxl => 6 | .nearMemory => 7

/-- The stack and layer of a line of HBM as an entry records them (R290, R398). -/
def placeIs (source : ErrorSource) (address : Nat) : Nat :=
  match source with
  | .hbm | .sidecar | .nearMemory => address % 0x4000000000 / 1024 % 2 * 16 + address % 0x4000000000 / 2048 % 16
  | _ => 0

/-- A chunk of the page that a unit in a sidecar array describes: the poison of a sidecar line reaches all 64 (R291, R304). -/
def chunkOf (x u : PoisonUnit) : Prop :=
  x.base < 2 ^ 40 ∧ x.base % 0x4000000000 < 2 ^ 32 ∧ ∃ i, i < 64 ∧
    u = ⟨x.base / 0x4000000000 * 0x4000000000 + x.base % 0x4000000000 / 64 * 4096 + 64 * i, 64⟩

/-- An uncorrectable error: its units poisoned with what they reach, its detection recorded, nothing else (R304, R398). -/
structure Poisoned (s t : State) (source : ErrorSource) (address : Nat) (us : List PoisonUnit) : Prop where
  frame : t = { s with poison := t.poison, errors := t.errors, errHead := t.errHead }
  units : ∀ u, u ∈ t.poison ↔ u ∈ s.poison ∨ ∃ x ∈ us, u = x ∨ chunkOf x u
  recorded : Recorded s t (sourceIs source) address (placeIs source address) 1

/-- A home region replaced. -/
def State.withRegion (s : State) (n : Nat) (r : Region) : State := { s with regions := s.regions.setIfInBounds n r }

/-- One more, saturating at 2^32 − 1 (R444). -/
def oneMore (n : Nat) : Nat := min (2 ^ 32 - 1) (n + 1)

/-! Dispatchers (R24 to R49, R350, R351, R468). -/

/-- The checks of R24 in order, each with the status it rejects with; every profile is implemented, so status 3 does not occur. -/
def recordChecks (r : LaunchRecord) : List (Bool × Nat) :=
  let f := recField r
  let harts := f 0x34 1
  let desk := f 0x36 1
  let flags := f 0x3E 2
  let general := f 0x59 1
  [(harts != 1 && harts != 2 && harts != 4 && harts != 8, 1), (f 0x30 4 == 0, 1), (f 0x54 4 % 16 == 0, 1),
   (decide (desk < 8) || decide (48 < desk), 1), (decide (4 < f 0x37 1), 1), (decide (4 < f 0x58 1 % 8), 1),
   (if flags.testBit 1 then decide (32 < general) || decide (desk < general + 8) else general != 0, 1),
   (f 0x35 1 / 8 != 0 || flags / 8 != 0 || f 0x40 4 / 256 != 0 || f 0x44 4 / 32 != 0 || f 0x54 4 / 16 != 0 || f 0x58 1 / 8 != 0 ||
      f 0x5A 38 != 0, 1),
   (f 0 8 % 4 != 0 || decide (f 0 8 < f 8 8) || decide (f 0x10 8 ≤ f 0 8) || decide (f 0x10 8 < f 8 8), 1),
   (f 0x28 8 % 16 != 0, 1),
   (decide (224 < harts * desk) || decide (4 < harts * f 0x37 1) || decide (64 < ceilDiv (f 0x38 4) 24576) ||
      decide (512 < f 0x3C 2), 2)]

/-- The status of the first check that fails, 0 where none does. -/
def firstFailing (r : LaunchRecord) : Nat := ((recordChecks r).find? (fun c => c.1)).elim 0 (fun c => c.2)

/-- A hart as placement starts it (R29, R161): at the entry in U mode, the argument block and `gangid` in x10 and x11, zero elsewhere. -/
structure Started (h : Hart) (hid key number rank : Nat) (r : LaunchRecord) : Prop where
  who : h.hid = hid ∧ h.gang = some key ∧ h.rank = rank ∧ h.run = .running
  entry : h.pc = BitVec.ofNat 64 (recField r 0 8) ∧ h.mode = .user
  args : h.getX 10#5 = BitVec.ofNat 64 (recField r 0x20 8)
  ident : h.getX 11#5 = BitVec.ofNat 64 (number % 2 ^ 32 + rank % 8 * 2 ^ 32 + recField r 0x34 1 % 16 * 2 ^ 36)
  zeros : ∀ k, k ≠ 10#5 → k ≠ 11#5 → h.getX k = 0#64
  floats : ∀ k, h.getF k = 0#64
  vector : (∀ n, h.getV n = VReg.reset) ∧ h.vtype = 0x8000000000000000#64 ∧ h.vl = 0#32 ∧ h.vrow = 0#32
  masks : ∀ k, k ≠ 0#3 → h.getM k = 0
  tiles : ∀ k, h.getT k = Tile.reset
  desk : h.size = BitVec.ofNat 8 (recField r 0x36 1) ∧ h.ownTiles = recField r 0x37 1

/-- A gang that has left its core: its entry replaced, its harts gone, its banks zero, its holds given back, its stores outside scratchpad
left to run on (R46, R48, R317, R318), the lanes of its core that no gang's mask names gated (R441). -/
structure GangLeft (s t : State) (g g' : Gang) : Prop where
  gangs : t.gangs = s.gangs.map (fun o => if o.key = g.key then g' else o)
  gone : ∀ h ∈ t.harts, h.gang ≠ some g.key
  others : ∀ h ∈ s.harts, h.gang ≠ some g.key → ∃ k ∈ t.harts,
    k.hid = h.hid ∧ k.gang = h.gang ∧ k.pc = h.pc ∧ k.x = h.x ∧ k.v = h.v ∧ k.mode = h.mode ∧ k.viq = h.viq
  banks : ∀ b ∈ g.banks, ∀ o, o < 24576 → memRead t.mem (bankKey g.core b + o) = 0#8
  passed : t.passed = s.passed ++ (s.gangHarts g).flatMap (fun h =>
    (((h.ssq ++ h.vsq).map (fun e => (splitEntry e).2)).filter (fun e => !e.writes.isEmpty)).map (fun e => ⟨g.key, e⟩))
  pins : t.pins = dropPins g.harts s.pins
  gates : g.core < 128 → (t.core g.core).gated =
    (s.core g.core).gated ||| ~~~(laneMask (BitVec.ofNat 4 (quadUnion (placedOn t g.core []))))
  locks : t.locks = s.locks.filter (fun l => !(g.harts.contains l.hid))
  commands : t.nq = s.nq.map (fun c => if c.gang = g.key then { c with held := false } else c)

/-- A placed gang after a full context switch (R46): its harts, its scratchpad and its lane count saved. -/
def SwitchedOut (s t : State) (g : Gang) : Prop :=
  ∃ v : SavedGang, v.harts = (s.gangHarts g).map (suspendHart (quadLanes g.quads)) ∧ v.lanes = quadLanes g.quads ∧ v.since = s.nextKey ∧
    v.time = s.time ∧
    GangLeft s t g { g with
      harts := [], quads := 0#4, banks := [], reclaim := none, vgrantmax := 0xF#4, sliceEnd := none, sliceExhausted := false,
      saved := some v } ∧ t.launches = s.launches

/-! Requests and resets (R307, R454 to R466). -/

/-- Some bytes stored at some places, and nothing else but what a store does: the memory control block and a device whose route is given
up ignore them (R303, R462), poison, reservations and what other aperture classes see follow (R113, R304, R377). -/
def StoredAt (s t : State) (ps : List (Aperture × Nat)) (d : List Byte) : Prop :=
  (∀ k, k ∉ ps.map (fun p => p.2) → memRead t.mem k = memRead s.mem k) ∧
  ((ps.map (fun p => p.2)).Nodup → ∀ j (h : j < ps.length), isControlKey ps[j].2 = false → routeDown s ps[j].2 = false →
    memRead t.mem ps[j].2 = d.getD j 0#8) ∧
  t.others.map Hart.calm = s.others.map Hart.calm ∧
  t = { s with mem := t.mem, poison := t.poison, stale := t.stale, errors := t.errors, result := t.result,
               hart := { s.hart with reservation := t.hart.reservation }, others := t.others }

/-- What a request made through a map of addresses comes to, where `o` is the outcome (R294, R304, R454): `refused` answers it where a byte has no place, and
`strict` says that poisoned data is an access fault. An atomic on a device whose route is given up is dropped, its answer open (R462). -/
def Requested (s : State) (o : Host.Outcome State Fault Refusal) (f : Nat → Option (Aperture × Nat)) (refused : ExternalResult) (strict : Bool)
    (r : MemRequest) : Prop :=
  let n := requestBytes r.action
  let a := r.addr.toNat
  ((∃ j, j < n ∧ f (a + j) = none) → o = .next { s with result := refused }) ∧
  (∀ ps : List (Aperture × Nat), ps.length = n → (∀ j (h : j < ps.length), f (a + j) = some ps[j]) →
    let held := s.memReady = false ∨ ∃ p ∈ ps, (∃ l ∈ s.locks, l.line = p.2 / 64) ∨ routeWaits s p.2 = true
    let bad := ∃ p ∈ ps, keyPoisoned s p.2 = true
    let down := ∃ p ∈ ps, routeDown s p.2 = true
    let old := ps.map (fun p => readThrough s p.1 p.2)
    let spoilt := o = .next { s with result := if strict then .accessFault else .data old true }
    (held → o = .next { s with result := .held }) ∧
    (¬ held →
      (∀ m, r.action = .load m → (bad → spoilt) ∧ (¬ bad → o = .next { s with result := .data old false })) ∧
      (∀ d, r.action = .store d → ∃ t, o = .next t ∧ t.result = .stored ∧ StoredAt s t ps d) ∧
      (∀ op dbl v, r.action = .atomic op dbl v →
        (down → o = .next { s with
          freeCounter := s.freeCounter + 1, result := .data (toBytes n (Config.freeValue s.freeCounter).toNat) false }) ∧
        (¬ down → bad → spoilt) ∧
        (¬ bad → ∀ fn, (op, fn) ∈ amoRows (8 * n) → ∃ t, o = .next t ∧ t.result = .data old false ∧
          StoredAt s t ps (lowBytes n ((fn (BitVec.ofNat (8 * n) (ofBytes old)) (v.setWidth (8 * n))).setWidth 64))))))

/-- Whether a key below the home regions' end is of realm 0 or lies in a window that its own realm granted with the right asked for
(R454, R455). -/
def openToSystem (s : State) (write : Bool) (k : Nat) : Prop :=
  granuleRealm s (k / 2 ^ 21) = 0 ∨ ∃ w ∈ s.windows, w.base ≤ k ∧ k < w.base + w.size ∧ (write = true → w.write = true) ∧
    w.realm = granuleRealm s (k / 2 ^ 21)

/-- The pages that a request touches, from its first byte on (R452). -/
def requestPages (r : MemRequest) : List Nat :=
  (List.range ((r.addr.toNat % 4096 + requestBytes r.action - 1) / 4096 + 1)).map (fun j => (r.addr.toNat + 4096 * j) % 2 ^ 64 / 4096)

/-- LQCTLn as it reads (R456). -/
def lqctlShown (x : LaunchQueue) : Nat :=
  min 255 x.succLost * 2 ^ 40 + x.records.length * 2 ^ 32 + min 255 x.dropped * 2 ^ 24 + (if x.enable then 2 ^ 16 else 0) + x.realm

/-- The checks of a launch frame in their order, each with the reason it is discarded for (R458, R459, R465). -/
noncomputable def frameChecks (s : State) (f : List Byte) : List (Bool × Nat) :=
  let field := fun off n => ofBytes ((f.drop off).take n)
  let key := s.keys.find? (fun k => k.index == field 2 2)
  let x := s.queue (field 1 1)
  [(!s.restarted, 5), (f.length != 160 || field 0 1 != 1 || field 4 4 != 0, 0), (key.isNone, 1),
   (key.any (fun k => decide (64 ≤ field 1 1) || !k.mask.getLsbD (field 1 1)), 2),
   (key.any (fun k => decide (field 8 8 ≤ k.last.toNat)), 3),
   (key.any (fun k => (Config.gcmOpen k.key (k.salt ++ (f.drop 8).take 8) (f.take 16) ((f.drop 16).take 128)
      ((f.drop 0x90).take 16)).isNone), 4),
   (key.any (fun k => x.realm != k.realm) || !x.enable ||
      decide (64 ≤ x.records.length + x.held.length + s.inFlightTo (field 1 1)), 5)]

/-- Whether a term stands for an event of the device, or for what firmware and other agents do, and so for no instruction word. -/
def isEvent (i : Instr) : Bool :=
  match i with
  | .grantWindow .. | .revokeWindow .. | .assignGranules .. | .releaseGranules .. | .setQueueOwner ..
  | .viqAdmission .. | .viqHeadAged .. | .microOpIssue .. | .vectorInstructionComplete .. | .pinEntriesFree ..
  | .storePerformed .. | .arrivalPointerAdvance .. | .aldCAttempt .. | .lineLockRelease .. | .nmLineApply ..
  | .nmCompletionRecord .. | .cxlRequestIssue .. | .rowActivation .. | .callGraphPrefetch ..
  | .sequentialPrefetch .. | .vectorTrap .. | .userAnchorDelivery .. | .interrupt .. | .hartFatalError ..
  | .supervisorTerminate .. | .launchCheck .. | .queueHeadAging .. | .gangPlacement .. | .reclaimTakesEffect ..
  | .reclaimAbandon .. | .fullContextSwitch .. | .timeSliceExpiry .. | .gangRestore .. | .gangRetire ..
  | .launchComplete .. | .heldSuccessorEntersQueue .. | .lqRecordEntersQueue .. | .barrierPhaseComplete ..
  | .pigeonholeValueArrives .. | .waitMemReread .. | .waitTimeDeadline .. | .lqctlWrite .. | .lqDoorbell ..
  | .launchFrameReceive .. | .pcieInboundRequest .. | .shofinRemoteRequest .. | .routeDownTimeout ..
  | .timestampExchange .. | .timebaseTick | .stringWindow .. | .stringStepUp .. | .powerManagerPeriod ..
  | .lanePowerGate .. | .laneWake .. | .uncorrectableError .. | .correctableError .. | .l1dParityError ..
  | .layerMapOut .. | .mapOutVacated .. | .mapOutLineMove .. | .coldReset .. | .warmReset | .memready
  | .attestationRequest .. | .reportCardWrite | .fatalDump .. | .shofinRouteLost .. | .shofinRouteRetrained ..
  | .phyTrainingComplete .. | .systemCoreMemoryAccess .. => true
  | _ => false

end Sys2Proof.Machine
end

