-- ==== Sys2Proof/Certificates/Slice0/Obligations.lean ====
section
/-! DEFINITION. The statements about the AK960 model, from the numbered rules of the spec. -/

open Sys2Proof Sys2Proof.Machine

/-- O1. The integer instructions of R208 and R210, every form: on a hart ready for them, with aligned groups and a readable operand a,
each completes; its active elements hold the operation of a, b and the old vd, and nothing else changes but the PC, `instret`,
what admission does to its core and, for `.vq`, the queue it consumes. -/
def Obligations.IntegerLaneResult : Prop :=
  ∀ (m : MaskNo) (b a d : BitVec 5) (q : QueueNo) (s : State),
    s.ready 0 = true → s.cfg.w ≠ 6 → groupOk b.toNat s.cfg.g = true → groupOk d.toNat s.cfg.g = true →
    ∀ r ∈ integerRows m b a d q, s.operandOk r.a (s.hart.getX a) = true →
      ∃ t, exec r.instr s = .next t ∧
        t = { s with
          hart := { s.hart.past with v := t.hart.v, loadq := (r.a.consume s).hart.loadq }, cores := s.coresAs t } ∧
        GroupWritten s t d.toNat s.cfg.g s.cfg.sew m (s.rowElem r (s.hart.getX a) b d)

/-- O2. `cmp` and `cmpz` (R209), every form and condition, where no active source element is poisoned (R205). -/
def Obligations.IntegerCompareResult : Prop :=
  ∀ (m md : MaskNo) (b a : BitVec 5) (q : QueueNo) (c : Cond) (s : State),
    s.ready 0 = true → s.cfg.w ≠ 6 → groupOk b.toNat s.cfg.g = true →
    ∀ r ∈ compareRows m b a q md c, s.operandOk r.2.1 (s.hart.getX a) = true →
      (∀ i ∈ s.actives m, (s.operand r.2.1 (s.hart.getX a) i).2 = false ∧ (groupSrc s b.toNat s.cfg.g s.cfg.sew i).2 = false) →
      ∃ t, exec r.1 s = .next t ∧
        t = { s with
          hart := { s.hart.past with v := t.hart.v, m := t.hart.m, loadq := (r.2.1.consume s).hart.loadq }, cores := s.coresAs t } ∧
        MaskSet s t m md (fun i =>
          r.2.2 s.cfg.w (BitVec.ofNat s.cfg.w (s.operand r.2.1 (s.hart.getX a) i).1)
            (BitVec.ofNat s.cfg.w (groupSrc s b.toNat s.cfg.g s.cfg.sew i).1))

/-- O3. `wadd` and `wmul` (R211), both forms, at every width but e6 and e64; `sext`, `zext`, `narrow`, `narrowz` (R212) and `bitc` (R213), where the
widths of R128 allow them; the groups are aligned. -/
def Obligations.IntegerWidthResult : Prop :=
  (∀ (m : MaskNo) (b a d : BitVec 5) (s : State),
    s.ready 0 = true → s.cfg.w ≠ 6 → s.cfg.w ≠ 64 → groupOk b.toNat s.cfg.g = true →
    groupOk d.toNat (2 * s.cfg.g) = true →
    ∀ r ∈ widenRows m b a d, s.operandOk r.2.1 (s.hart.getX a) = true →
      ∃ t, exec r.1 s = .next t ∧
        t = { s with hart := { s.hart.past with v := t.hart.v }, cores := s.coresAs t } ∧
        GroupWritten s t d.toNat (2 * s.cfg.g) (sewOfBits (2 * s.cfg.w)) m (fun i =>
          let x := s.operand r.2.1 (s.hart.getX a) i
          let y := groupSrc s b.toNat s.cfg.g s.cfg.sew i
          ((BitVec.ofInt (2 * s.cfg.w) (r.2.2 (BitVec.ofNat s.cfg.w x.1).toInt (BitVec.ofNat s.cfg.w y.1).toInt)).toNat,
            x.2 || y.2))) ∧
  (∀ (m : MaskNo) (b d : BitVec 5) (f : Factor) (s : State),
    s.ready 0 = true → s.cfg.w ≠ 6 → groupOk d.toNat s.cfg.g = true →
    ∀ r ∈ widthRows s.cfg m b d f, r.ok = true → groupOk b.toNat r.count = true →
      ∃ t, exec r.instr s = .next t ∧
        t = { s with hart := { s.hart.past with v := t.hart.v }, cores := s.coresAs t } ∧
        GroupWritten s t d.toNat s.cfg.g s.cfg.sew m (fun i =>
          let y := groupSrc s b.toNat r.count (sewOfBits r.width) i
          (r.fn y.1, y.2)))

/-- O4. `fadd` to `fnmsub` (R214) and the sign injections (R219), every form: results rounded under `vfrm` (R81), the flags of the active
elements ORed into `vflags` (R86). -/
def Obligations.FloatLaneResult : Prop :=
  ∀ (m : MaskNo) (b a d : BitVec 5) (q : QueueNo) (f : FFmt) (rm : Rnd) (s : State),
    s.ready 0 = true → s.cfg.fmt = some f → 16 ≤ s.cfg.w → groupOk b.toNat s.cfg.g = true → groupOk d.toNat s.cfg.g = true →
    ∀ r ∈ floatRows m b a d q, (r.rounds = true → vectorRounding s.hart.vfrm = some rm) →
      s.operandOk r.a (s.hart.floatCaptured r.a a) = true →
      ∃ t, exec r.instr s = .next t ∧
        t = { s with
          hart := { s.hart.past with
            v := t.hart.v, loadq := (r.a.consume s).hart.loadq,
            vflags := s.flagsWith m (fun i => (s.floatElem r f rm (s.hart.floatCaptured r.a a) b d i).2.1) },
          cores := s.coresAs t } ∧
        GroupWritten s t d.toNat s.cfg.g s.cfg.sew m (fun i =>
          let y := s.floatElem r f rm (s.hart.floatCaptured r.a a) b d i
          (y.1, y.2.2))

/-- O5. `fcmp` (R215), every form and condition, where no active source element is poisoned. -/
def Obligations.FloatCompareResult : Prop :=
  ∀ (m md : MaskNo) (b a : BitVec 5) (q : QueueNo) (c : FCond) (f : FFmt) (s : State),
    s.ready 0 = true → s.cfg.fmt = some f → 16 ≤ s.cfg.w → groupOk b.toNat s.cfg.g = true →
    ∀ r ∈ [(Instr.fcmpVv m b a c md, AOp.vec a.toNat), (.fcmpVx m b a c md, .scalar), (.fcmpVq m b q c md, .queue q),
        (.fcmpVn m b a c md, .named)],
      s.operandOk r.2 (s.hart.floatCaptured r.2 a) = true →
      (∀ i ∈ s.actives m, (s.floatOperand r.2 f (s.hart.floatCaptured r.2 a) i).2 = false ∧
        (groupSrc s b.toNat s.cfg.g s.cfg.sew i).2 = false) →
      let va := fun i => decodeFloat f (s.floatOperand r.2 f (s.hart.floatCaptured r.2 a) i).1
      let vb := fun i => decodeFloat f (groupSrc s b.toNat s.cfg.g s.cfg.sew i).1
      let nan := fun i => (va i).isNan || (vb i).isNan
      ∃ t, exec r.1 s = .next t ∧
        t = { s with
          hart := { s.hart.past with
            v := t.hart.v, m := t.hart.m, loadq := (r.2.consume s).hart.loadq,
            vflags := s.flagsWith m (fun i => match c with
              | .eq | .unord => if (va i).isSignalling || (vb i).isSignalling then flagNV else 0
              | .lt | .le => if nan i then flagNV else 0) },
          cores := s.coresAs t } ∧
        MaskSet s t m md (fun i => match c with
          | .eq => fEq (vb i) (va i)
          | .lt => fLt (vb i) (va i)
          | .le => fLt (vb i) (va i) || fEq (vb i) (va i)
          | .unord => nan i) ∧
        (∀ i, nan i = true → fEq (vb i) (va i) = false ∧ fLt (vb i) (va i) = false)

/-- O6. `fsqrt`, `frec`, `frsq`, `fexp2` (R216), `fclass`, `fround` (R218) and every code of `fcvt` (R130, R217). `fwadd`, `fwmul` and `fwmac` (R220), both forms: sources widened exactly, one rounding into the format of twice the width. -/
def Obligations.FloatConvertResult : Prop :=
  (∀ (m : MaskNo) (b d : BitVec 5) (f : FFmt) (rm : Rnd) (s : State),
    s.ready 0 = true → s.cfg.fmt = some f → groupOk b.toNat s.cfg.g = true →
    (16 ≤ s.cfg.w → groupOk d.toNat s.cfg.g = true →
      ∀ r ∈ [(Instr.fsqrt m b d, true, fun x => fSqrt f rm (decodeFloat f x)), (.frec m b d, false, fun x => fRec f (decodeFloat f x)),
          (.frsq m b d, false, fun x => fRsq f (decodeFloat f x)), (.fexp2 m b d, false, fun x => fExp2 f (decodeFloat f x)),
          (.fclass m b d, false, fun x => (fClass f x, 0)), (.fround m b d, true, fun x => fRound f rm x)],
        (r.2.1 = true → vectorRounding s.hart.vfrm = some rm) →
        ∃ t, exec r.1 s = .next t ∧
          t = { s with
            hart := { s.hart.past with
              v := t.hart.v, vflags := s.flagsWith m (fun i => (r.2.2 (groupSrc s b.toNat s.cfg.g s.cfg.sew i).1).2) },
            cores := s.coresAs t } ∧
          GroupWritten s t d.toNat s.cfg.g s.cfg.sew m (fun i =>
            let y := groupSrc s b.toNat s.cfg.g s.cfg.sew i
            ((r.2.2 y.1).1 % 2 ^ s.cfg.w, y.2))) ∧
    (vectorRounding s.hart.vfrm = some rm → ∀ c : CvtCode, cvtOk s.cfg f c = true → groupOk d.toNat (cvtGroup s.cfg c) = true →
      ∃ t, exec (.fcvt m b c d) s = .next t ∧
        t = { s with
          hart := { s.hart.past with
            v := t.hart.v,
            vflags := s.flagsWith m (fun i => (cvtElem s.cfg.w f rm c (groupSrc s b.toNat s.cfg.g s.cfg.sew i).1).2) },
          cores := s.coresAs t } ∧
        GroupWritten s t d.toNat (cvtGroup s.cfg c) (cvtSew s.cfg c) m (fun i =>
          let y := groupSrc s b.toNat s.cfg.g s.cfg.sew i
          ((cvtElem s.cfg.w f rm c y.1).1 % 2 ^ sewBits (cvtSew s.cfg c), y.2)))) ∧
  (∀ (m : MaskNo) (b a d : BitVec 5) (f : FFmt) (rm : Rnd) (s : State),
    s.ready 0 = true → s.cfg.fmt = some f → 16 ≤ s.cfg.w → s.cfg.w ≠ 64 → vectorRounding s.hart.vfrm = some rm →
    groupOk b.toNat s.cfg.g = true → groupOk d.toNat (2 * s.cfg.g) = true →
    let wf := wideFormat f
    let wsew := sewOfBits (2 * s.cfg.w)
    ∀ r ∈ [(Instr.fwaddXv m b a d, AOp.vec a.toNat, false, fun x y _ => fAdd wf rm y x),
        (.fwaddXx m b a d, .scalar, false, fun x y _ => fAdd wf rm y x),
        (.fwmulXv m b a d, .vec a.toNat, false, fun x y _ => fMul wf rm y x),
        (.fwmulXx m b a d, .scalar, false, fun x y _ => fMul wf rm y x),
        (.fwmacXv m b a d, .vec a.toNat, true, fun x y v => fMulAdd wf rm x y v),
        (.fwmacXx m b a d, .scalar, true, fun x y v => fMulAdd wf rm x y v)],
      s.operandOk r.2.1 (s.hart.getF a) = true →
      let ea := s.floatOperand r.2.1 f (s.hart.getF a)
      let eb := groupSrc s b.toNat s.cfg.g s.cfg.sew
      let ev := groupSrc s d.toNat (2 * s.cfg.g) wsew
      let res := fun i => r.2.2.2 (decodeFloat f (ea i).1) (decodeFloat f (eb i).1) (decodeFloat wf (ev i).1)
      ∃ t, exec r.1 s = .next t ∧
        t = { s with
          hart := { s.hart.past with v := t.hart.v, vflags := s.flagsWith m (fun i => (res i).2) }, cores := s.coresAs t } ∧
        GroupWritten s t d.toNat (2 * s.cfg.g) wsew m (fun i =>
          ((res i).1 % 2 ^ (2 * s.cfg.w), (ea i).2 || (eb i).2 || (r.2.2.1 && (ev i).2))))

/-- O7. The slides (R223), gathers (R224), `vcompress`, `vexpand` (R225) and `vrev` (R229). That a poisoned slide offset poisons the
results is the model's reading (log 30). -/
def Obligations.PermuteResult : Prop :=
  ∀ (m : MaskNo) (b a d : BitVec 5) (s : State),
    s.ready 0 = true → groupOk b.toNat s.cfg.g = true → groupOk d.toNat s.cfg.g = true →
    ∀ r ∈ s.permuteRows m b a d, r.ok = true →
      ∃ t, exec r.instr s = .next t ∧ t = { s with hart := { s.hart.past with v := t.hart.v }, cores := s.coresAs t } ∧
        GroupPut s t d.toNat s.cfg.g s.cfg.sew r.val

/-- O8. The mask instructions (R221). -/
def Obligations.MaskLogicResult : Prop :=
  ∀ (b a d : MaskNo) (s : State), s.ready 0 = true →
    ∀ r ∈ [(Instr.mand b a d, fun x y => x && y), (.mor b a d, fun x y => x || y), (.mxor b a d, fun x y => x != y),
        (.mandn b a d, fun (x y : Bool) => x && !y)],
      ∃ t, exec r.1 s = .next t ∧ t = { s with hart := { s.hart.past with v := t.hart.v, m := t.hart.m }, cores := s.coresAs t } ∧
        MaskSet s t 0#3 d (fun i => r.2 (s.hart.maskBit b i) (s.hart.maskBit a i))

/-- O9. `mpop`, `mfirst`, `iota` and `vid` (R222). -/
def Obligations.MaskIndexResult : Prop :=
  (∀ (m b : MaskNo) (d : BitVec 5) (s : State), s.ready 0 = true → s.hart.bq.length < 16 →
      let l := (s.actives m).filter (s.hart.maskBit b)
      ∀ r ∈ [(Instr.mpop m b d, BitVec.ofNat 64 l.length), (.mfirst m b d, (l.head?.map (BitVec.ofNat 64)).getD (BitVec.allOnes 64))],
        ∃ t, exec r.1 s = .next t ∧ t = { s with hart := { s.hart.past with x := (s.hart.setX d r.2).x }, cores := s.coresAs t }) ∧
  (∀ (m b : MaskNo) (d : BitVec 5) (s : State),
      s.ready 0 = true → s.cfg.w ≠ 6 → groupOk d.toNat s.cfg.g = true →
      ∀ r ∈ [(Instr.vid m d, fun i => i),
          (.iota m b d, fun i => ((List.range i).filter (fun j => s.hart.maskBit m j && s.hart.maskBit b j)).length)],
        ∃ t, exec r.1 s = .next t ∧ t = { s with hart := { s.hart.past with v := t.hart.v }, cores := s.coresAs t } ∧
          GroupWritten s t d.toNat s.cfg.g s.cfg.sew m (fun i => (r.2 i % 2 ^ s.cfg.w, false)))

/-- O10. `vunpack` and `vpack` (R226): a field is poisoned when a byte it is read from is (R205). -/
def Obligations.PackUnpackResult : Prop :=
  (∀ (m : MaskNo) (b a d : BitVec 5) (width off : Nat) (sign : Bool) (s : State),
      s.ready 0 = true → groupOk b.toNat s.cfg.g = true → groupOk d.toNat s.cfg.g = true →
      1 ≤ width → width ≤ s.cfg.w → off < 128 →
      s.hart.getX a = BitVec.ofNat 64 (width + off * 2 ^ 16 + (if sign then 2 ^ 32 else 0)) →
      let y := s.groupBits b.toNat s.cfg.g s.cfg.sew
      let p := groupPoison s.hart (512 * s.lanes s.hart) b.toNat s.cfg.g
      ∃ t, exec (.vunpack m b a d) s = .next t ∧ t = { s with hart := { s.hart.past with v := t.hart.v }, cores := s.coresAs t } ∧
        GroupWritten s t d.toNat s.cfg.g s.cfg.sew m (fun i =>
          let lo := off + i * width
          let f := BitVec.ofNat width (y / 2 ^ lo)
          ((if sign then (f.signExtend s.cfg.w).toNat else f.toNat),
            (List.range ((lo + width - 1) / 8 + 1 - lo / 8)).any (fun k => p.testBit (lo / 8 + k))))) ∧
  (∀ (m : MaskNo) (b a d : BitVec 5) (width off : Nat) (s : State),
      s.ready 0 = true → groupOk b.toNat s.cfg.g = true → groupOk d.toNat s.cfg.g = true →
      1 ≤ width → width ≤ s.cfg.w → off < 128 →
      (s.hart.getX a = BitVec.ofNat 64 (width + off * 2 ^ 16) ∨ s.hart.getX a = BitVec.ofNat 64 (width + off * 2 ^ 16 + 2 ^ 32)) →
      let y := groupSrc s b.toNat s.cfg.g s.cfg.sew
      ∃ t, exec (.vpack m b a d) s = .next t ∧ t = { s with hart := { s.hart.past with v := t.hart.v }, cores := s.coresAs t } ∧
        (∀ k, k < 512 * s.lanes s.hart * s.cfg.g →
          (t.groupBits d.toNat s.cfg.g s.cfg.sew).testBit k =
            let i := (k - off) / width
            if off ≤ k ∧ i < s.hart.vl.toNat ∧ s.hart.maskBit m i = true then (y i).1.testBit ((k - off) % width)
            else (s.groupBits d.toNat s.cfg.g s.cfg.sew).testBit k) ∧
        (∀ n g' sew', n + g' ≤ d.toNat ∨ d.toNat + s.cfg.g ≤ n → groupSrc t n g' sew' = groupSrc s n g' sew'))

/-- O11. The integer reductions (R227). -/
def Obligations.IntegerReductionResult : Prop :=
  ∀ (m : MaskNo) (b a d : BitVec 5) (s : State),
    s.ready 0 = true → s.cfg.w ≠ 6 → groupOk b.toNat s.cfg.g = true →
    ∀ r ∈ reduceRows m b a d,
      let y := groupSrc s b.toNat s.cfg.g s.cfg.sew
      let x := groupSrc s a.toNat 1 s.cfg.sew 0
      ∃ t, exec r.1 s = .next t ∧ t = { s with hart := { s.hart.past with v := t.hart.v }, cores := s.coresAs t } ∧
        GroupPut s t d.toNat 1 s.cfg.sew (fun i =>
          if i = 0 ∧ s.hart.vl ≠ 0#32 then
            some (((s.actives m).foldl (fun acc j => r.2 s.cfg.w acc (BitVec.ofNat s.cfg.w (y j).1)) (BitVec.ofNat s.cfg.w x.1)).toNat,
              x.2 || (s.actives m).any (fun j => (y j).2))
          else none)

/-- O12. The floating-point reductions (R228). -/
def Obligations.FloatReductionResult : Prop :=
  ∀ (m : MaskNo) (b a d : BitVec 5) (f : FFmt) (rm : Rnd) (s : State),
    s.ready 0 = true → s.cfg.fmt = some f → 16 ≤ s.cfg.w → groupOk b.toNat s.cfg.g = true →
    ∀ r ∈ s.floatReduceRows m b a d f rm, (r.2.1 = true → vectorRounding s.hart.vfrm = some rm) →
      let y := groupSrc s b.toNat s.cfg.g s.cfg.sew
      ∃ t, exec r.1 s = .next t ∧
        t = { s with
          hart := { s.hart.past with
            v := t.hart.v,
            vflags := if s.hart.vl = 0#32 then s.hart.vflags else s.hart.vflags ||| BitVec.ofNat 9 r.2.2.2 },
          cores := s.coresAs t } ∧
        GroupPut s t d.toNat 1 s.cfg.sew (fun i =>
          if i = 0 ∧ s.hart.vl ≠ 0#32 then
            some (r.2.2.1 % 2 ^ s.cfg.w, (groupSrc s a.toNat 1 s.cfg.sew 0).2 || (s.actives m).any (fun j => (y j).2))
          else none)

/-- O13. The moves (R229). That `mvsx` needs vd aligned is the model's reading (log 31). -/
def Obligations.MoveResult : Prop :=
  ∀ (b a d : BitVec 5) (s : State), s.ready 0 = true →
    let n := (s.hart.getX a).toNat
    (groupOk d.toNat s.cfg.g = true →
      ∀ r ∈ [(Instr.mvsx a d, fun i => decide (i = 0 ∧ s.hart.vl ≠ 0#32)), (.vbcast a d, fun i => decide (i < s.hart.vl.toNat))],
        ∃ t, exec r.1 s = .next t ∧ t = { s with hart := { s.hart.past with v := t.hart.v }, cores := s.coresAs t } ∧
          GroupPut s t d.toNat s.cfg.g s.cfg.sew (fun i => if r.2 i then some (n % 2 ^ s.cfg.w, false) else none)) ∧
    (groupOk b.toNat s.cfg.g = true → s.hart.bq.length < 16 →
      (n < s.cfg.vlmax → s.elemPoisoned b.toNat s.cfg.g s.cfg.sew n = false) →
      ∃ t, exec (.mvxs b a d) s = .next t ∧
        t = { s with
          hart := { s.hart.past with
            v := t.hart.v,
            x := (s.hart.setX d (if n < s.cfg.vlmax then
              (BitVec.ofNat s.cfg.w (s.elem b.toNat s.cfg.g s.cfg.sew n)).signExtend 64 else 0#64)).x },
          cores := s.coresAs t } ∧
        ∀ k g' sew', groupSrc t k g' sew' = groupSrc s k g' sew')

/-- O14. Anchored arithmetic where every result block can be represented (R98). The edge test of `adiff` uses the cells of the whole
blocks below `vl` (R96). That NX comes from the roundings
of deviations alone, and that a quantum exponent out of range makes an invalid block fail too, is the model's reading (log 36). -/
def Obligations.AnchorResult : Prop :=
  ∀ (b a d : BitVec 5) (code : AnchorFloat) (mode : BitVec 2) (s : State), s.anchorReady = true →
    ∀ r ∈ s.anchorRows b a d code mode, r.ok = true → (∀ k, k < s.cfg.blocks → r.fits s k = true) →
      ∃ t, exec r.instr s = .next t ∧
        t = { s with
          hart := { s.hart.past with
            v := t.hart.v, w := t.hart.w, vflags := s.hart.vflags ||| BitVec.ofNat 9 (r.flags s) },
          cores := s.coresAs t } ∧
        (∀ o k, t.hart.desc o k = if o = octetOf d.toNat ∧ k < s.cfg.blocks then r.desc s d k else s.hart.desc o k) ∧
        GroupPut s t d.toNat (r.count s) (sewOfBits (r.width s)) (fun i =>
          if i < s.cfg.cells then
            some (if r.invalid (i / s.cfg.block) then 0 else (BitVec.ofInt (r.width s) (r.result s i).1).toNat, r.bad i)
          else none)

/-- O15. The deviation-overflow trap (R98, R249): `deliver` is the one delivery of vector traps, to the user handler (R250) or to S or M mode (R401). -/
def Obligations.AnchorOverflowTrap : Prop :=
  ∀ (b a d : BitVec 5) (code : AnchorFloat) (mode : BitVec 2) (s : State), s.anchorReady = true →
    ∀ r ∈ s.anchorRows b a d code mode, r.ok = true → (∃ k, k < s.cfg.blocks ∧ r.fits s k = false) →
      let mask := (((List.range s.cfg.blocks).filter (fun k => !r.fits s k)).map (fun k => 2 ^ k)).sum
      let side := TrapSide.overflow (BitVec.ofNat 64 mask) (BitVec.ofNat 64 (mask / 2 ^ 64))
      let u := s.setPc (s.hart.pc + 4#64)
      ∃ e : VEntry, e.pc = s.hart.pc ∧ encode r.instr = some e.word ∧ e.mode = s.hart.mode ∧
        (∀ w, deliveryWait u.dropWork e 7 side [] = some w →
          exec r.instr s = .next { u with hart := { u.hart with viq := [e], window := none, wait := some w } }) ∧
        (deliveryWait u.dropWork e 7 side [] = none → ∃ t, exec r.instr s = .next t ∧ t = deliver u e 7 (wordVal e.word) side [] ∧
          (∀ k, k < 128 → (if k < 64 then t.hart.vobm0.getLsbD k else t.hart.vobm1.getLsbD (k - 64)) =
            (decide (k < s.cfg.blocks) && !(r.fits s k))) ∧
          t.hart.vflags = s.hart.vflags ||| 0x100#9 ∧ t.hart.v = s.hart.v ∧ t.hart.w = s.hart.w ∧ t.hart.m = s.hart.m ∧
          t.hart.t = s.hart.t)

/-- O16. RNE to the quantum (R98), `aconv` (R244) and `acmp` (R248). -/
def Obligations.AnchorConvertResult : Prop :=
  (∀ (n e q : Int),
    (q ≤ e → (Dy.mk n e).quantum q = (n * (2 ^ (e - q).toNat : Nat), false)) ∧
    (e < q →
      let w := ((2 ^ (q - e).toNat : Nat) : Int)
      let r := ((Dy.mk n e).quantum q).1
      2 * (n - r * w) ≤ w ∧ -w ≤ 2 * (n - r * w) ∧
      ((2 * (n - r * w) = w ∨ 2 * (n - r * w) = -w) → r % 2 = 0) ∧ (((Dy.mk n e).quantum q).2 = true ↔ r * w ≠ n))) ∧
  (∀ (b a d : BitVec 5) (code : AnchorFloat) (cc : Cond) (md : MaskNo) (s : State),
    s.anchorReady = true → groupOk b.toNat s.cfg.g = true → s.cellsClean b = true →
    let f := anchorFormat code
    let dead := fun n i => (s.blk n (i / s.cfg.block)).anchor.isNone
    (groupOk d.toNat (floatGroup s.cfg f) = true →
      let y := fun i => if dead b i then (canonicalNan f, flagNV)
        else (((s.cellValue b i).toFloat f).1, ((s.cellValue b i).toFloat f).2.1)
      ∃ t, exec (.aconv b code d) s = .next t ∧
        t = { s with
          hart := { s.hart.past with
            v := t.hart.v,
            vflags := s.hart.vflags ||| BitVec.ofNat 9 (orAll ((List.range s.cfg.cells).map (fun i => (y i).2))) },
          cores := s.coresAs t } ∧
        GroupPut s t d.toNat (floatGroup s.cfg f) (sewOfBits (fmtBitsOf f)) (fun i =>
          if i < s.cfg.cells then some ((y i).1, false) else none)) ∧
    (groupOk a.toNat s.cfg.g = true → s.cellsClean a = true →
      let z := fun i => ((s.cellValue b i).sub (s.cellValue a i)).n
      let ord := fun i => !dead a i && !dead b i
      ∃ t, exec (.acmp b a cc md) s = .next t ∧
        t = { s with
          hart := { s.hart.past with
            v := t.hart.v, m := t.hart.m,
            vflags := s.hart.vflags |||
              BitVec.ofNat 9 (if (List.range s.cfg.cells).any (fun i => !ord i) then flagNV else 0) },
          cores := s.coresAs t } ∧
        (∀ n g sew, groupSrc t n g sew = groupSrc s n g sew) ∧ (md = 0#3 → t.hart.m = s.hart.m) ∧
        (∀ k, k ≠ md → ∀ j, t.hart.maskBit k j = s.hart.maskBit k j) ∧
        (md ≠ 0#3 → ∀ i, i < 16384 → t.hart.maskBit md i =
          if i < s.cfg.cells then
            (match cc with
             | .eq => ord i && decide (z i = 0) | .ne => !ord i || decide (z i ≠ 0)
             | .lt => ord i && decide (z i < 0) | .le => ord i && decide (z i ≤ 0))
          else s.hart.maskBit md i)))

/-- O17. `aget`, `aput`, `aqset` (R247) and `ared` (R246). -/
def Obligations.AnchorMoveResult : Prop :=
  ∀ (b d : BitVec 5) (s : State), s.anchorReady = true →
    (groupOk d.toNat 4 = true →
      ∃ t, exec (.aget b d) s = .next t ∧ t = { s with hart := { s.hart.past with v := t.hart.v }, cores := s.coresAs t } ∧
        GroupPut s t d.toNat 4 5 (fun k =>
          if k < s.cfg.blocks then some (descAnchor (s.hart.desc (octetOf b.toNat) k), false) else none)) ∧
    (∀ r ∈ [(Instr.aput b d, 4, 5, fun (old : BitVec 128) y => makeDesc y (descQexp old) (geomByte s.cfg.block s.cfg.w) (descVersion old + 2)),
        (.aqset b d, 1, 2, fun old y => makeDesc (descAnchor old) (toSigned 8 y) (geomByte s.cfg.block s.cfg.w) (descVersion old + 2))],
      groupOk b.toNat r.2.1 = true →
      (∀ k, k < s.cfg.blocks → (groupSrc s b.toNat r.2.1 r.2.2.1 k).2 = false) →
      ∃ t, exec r.1 s = .next t ∧
        t = { s with hart := { s.hart.past with v := t.hart.v, w := t.hart.w }, cores := s.coresAs t } ∧
        (∀ n g sew, groupSrc t n g sew = groupSrc s n g sew) ∧
        (∀ o k, t.hart.desc o k = if o = octetOf d.toNat ∧ k < s.cfg.blocks then r.2.2.2 (s.hart.desc o k) (groupSrc s b.toNat r.2.1 r.2.2.1 k).1
          else s.hart.desc o k)) ∧
    (groupOk b.toNat s.cfg.g = true → s.hart.bq.length < 16 → s.cellsClean b = true →
      let sum := ((List.range s.cfg.cells).map (s.dev b)).sum
      ∃ t, exec (.ared b d) s = .next t ∧
        t = { s with
          hart := { s.hart.past with
            v := t.hart.v, x := (s.hart.setX d (BitVec.ofInt 64 sum)).x,
            vflags := s.hart.vflags ||| BitVec.ofNat 9 (if -(2 ^ 63 : Int) ≤ sum ∧ sum < 2 ^ 63 then 0 else flagOF) },
          cores := s.coresAs t } ∧
        ∀ n g sew, groupSrc t n g sew = groupSrc s n g sew)

/-- O18. The outer products (R264 to R268, R272); `blockUpdate` is R77 on one element. -/
def Obligations.MatrixProductResult : Prop :=
  ∀ (b a : BitVec 5) (n : TileNo) (f : MpaForm) (s : State),
    ∀ r ∈ outerRows b a n, s.ready r.2.1 = true → s.cfg.block = 0 → r.2.2.1 s.cfg = some f →
      groupOk a.toNat s.cfg.g = true → groupOk b.toNat s.cfg.g = true → n.toNat < s.hart.ownTiles →
      let rows := s.hart.vrow.toNat
      let vl := s.hart.vl.toNat
      let cols := min vl 128
      (rows = 0 ∨ vl = 0 ∨ (f.kb * rows ≤ s.cfg.vlmax ∧ (f.kb - 1) * vl + cols ≤ s.cfg.vlmax)) →
      ∃ t, exec r.1 s = .next t ∧
        t = { s with
          hart := { s.hart.past with
            v := t.hart.v, t := t.hart.t,
            vflags := s.hart.vflags ||| BitVec.ofNat 9 (orAll ((List.range rows).flatMap (fun i =>
              (List.range cols).map (fun j => (s.outerElem f r.2.2.2 b a n i j).2)))) },
          cores := s.coresAs t } ∧
        (∀ k g sew, groupSrc t k g sew = groupSrc s k g sew) ∧
        TilePut s t n (fun i j =>
          if i < rows ∧ j < cols then some ((s.outerElem f r.2.2.2 b a n i j).1 % 2 ^ 32, s.outerBad f b a n i j) else none)

/-- O19. The 28-bit window on the products of `mpa.i` (R77, R268). -/
def Obligations.IntegerWindowExact : Prop :=
  ∀ (ps : List Int), (∀ p ∈ ps, p.natAbs ≤ 16384) →
    match windowSum (ps.map FVal.ofInt) with
    | none => ∀ p ∈ ps, p = 0
    | some (sum, u) => u ≤ 0 ∧ sum = ps.sum * (2 ^ (-u).toNat : Nat)

/-- O20. `mzero` (R267), `mmv` (R270) and `mscale` (R271). That `mscale` loads nothing where `vl` is 0 (R172) is log 58. -/
def Obligations.MatrixMoveResult : Prop :=
  ∀ (b a : BitVec 5) (n : TileNo) (s : State),
    let cols := min s.hart.vl.toNat 128
    (s.atRest = true → (s.profiles s.hart).testBit 1 = true → n.toNat < s.hart.ownTiles →
      ∃ t, exec (.mzero n) s = .next t ∧ t = { s with hart := { s.hart.past with t := t.hart.t }, cores := s.coresAs t } ∧
        TilePut s t n (fun _ _ => some (0, false))) ∧
    (s.ready 1 = true → s.cfg.sew = 4 → s.cfg.alt = false → s.cfg.block = 0 → groupOk b.toNat s.cfg.g = true →
      (s.hart.getX a).toNat < 128 → n.toNat < s.hart.ownTiles →
      let row := (s.hart.getX a).toNat
      (∃ t, exec (.mmvTv b a n) s = .next t ∧ t = { s with hart := { s.hart.past with v := t.hart.v }, cores := s.coresAs t } ∧
        GroupPut s t b.toNat s.cfg.g 4 (fun j =>
          if j < cols then some ((s.hart.getT n).elem row j, (s.hart.getT n).bad row j) else none)) ∧
      (∃ t, exec (.mmvVt b a n) s = .next t ∧
        t = { s with hart := { s.hart.past with v := t.hart.v, t := t.hart.t }, cores := s.coresAs t } ∧
        (∀ k g sew, groupSrc t k g sew = groupSrc s k g sew) ∧
        TilePut s t n (fun i j => if i = row ∧ j < cols then some (groupSrc s b.toNat s.cfg.g 4 j) else none))) ∧
    (s.ready 1 = true →
      let x := groupSrc s a.toNat 1 2
      let y := groupSrc s b.toNat 1 2
      let rows := if s.hart.vl = 0#32 then 0 else s.hart.vrow.toNat
      (∀ i, i < rows → (x i).2 = false) → (∀ j, j < cols → (y j).2 = false) →
      ∃ t, exec (.mscale b a) s = .next t ∧
        t = { s with hart := { s.hart.past with v := t.hart.v, sA := t.hart.sA, sB := t.hart.sB }, cores := s.coresAs t } ∧
        (∀ k g sew, groupSrc t k g sew = groupSrc s k g sew) ∧
        (∀ i, i < 128 → t.hart.sA[i]? = if i < rows then some (BitVec.ofNat 8 (x i).1) else s.hart.sA[i]?) ∧
        (∀ j, j < 128 → t.hart.sB[j]? = if j < cols then some (BitVec.ofNat 8 (y j).1) else s.hart.sB[j]?))

/-- O21. `mcvt` (R273 to R275); `CvtTarget.row` converts one tile row. -/
def Obligations.MatrixReadResult : Prop :=
  ∀ (n : TileNo) (a d : BitVec 5) (k : CvtTarget) (s : State),
    let x := (s.hart.getX a).toNat
    let first := x % 128
    let rows := x / 256 % 256
    let cols := min s.hart.vl.toNat 128
    let size := k.lengths cols
    s.ready 1 = true → x < 2 ^ 17 → x.testBit 7 = false → rows ≠ 0 → mcvtTarget s.cfg (x.testBit 16) = some k →
    groupOk d.toNat s.cfg.g = true → (k.isNarrow = true → d.toNat + s.cfg.g ≤ 31) → n.toNat < s.hart.ownTiles →
    first + rows ≤ 128 → rows * size.1 ≤ s.cfg.vlmax → rows * size.2 ≤ 64 * s.lanes s.hart →
    let row := fun r => k.row (s.hart.band ((first + r) / 64)) cols (fun j =>
      ((s.hart.getT n).elem (first + r) j, (s.hart.getT n).bad (first + r) j))
    ∃ t, exec (.mcvt n a d) s = .next t ∧
      t = { s with
        hart := { s.hart.past with
          v := t.hart.v,
          vflags := s.hart.vflags ||| BitVec.ofNat 9 (orAll ((List.range rows).map (fun r => (row r).flags))) },
        cores := s.coresAs t } ∧
      GroupElems s t d.toNat s.cfg.g s.cfg.sew (fun i =>
        if i < rows * size.1 then ((row (i / size.1)).elems[i % size.1]?).map (fun y => (y.1 % 2 ^ s.cfg.w, y.2)) else none) ∧
      (k.isNarrow = true → GroupElems s t (d.toNat + s.cfg.g) 1 2 (fun i =>
        if i < rows * size.2 then ((row (i / size.2)).scales[i % size.2]?).map (fun y => (y.1 % 2 ^ 8, y.2)) else none)) ∧
      s.onlyWrites t ((d.toNat, s.cfg.g) :: if k.isNarrow then [(d.toNat + s.cfg.g, 1)] else [])

/-- O22. The choice of a block scale (R68 steps 3 and 4; `finLt` compares exact values), and `vquant` (R279), `vbscale` (R280) and `vdequant` (R281); `quantBlock` is R68 to R71 on one block. -/
def Obligations.QuantizeResult : Prop :=
  (∀ (a d : Nat × Int),
    let small := fun k => finLt false ((scaleVal k).1 * d.1) ((scaleVal k).2 + d.2) false a.1 a.2
    match scaleFor a d with
    | some n => n < 256 ∧ small n = false ∧ ∀ k, k < n → small k = true
    | none => ∀ k, k < 256 → small k = true) ∧
  (∀ (m : MaskNo) (b sc d : BitVec 5) (f : FFmt) (s : State), s.quantReady f →
    let c := s.cfg
    let bk := blockSizeOf (some f)
    let band := s.hart.band 0
    let y := groupSrc s sc.toNat 1 2
    (groupOk d.toNat c.g = true → groupOk b.toNat c.wideGroup = true → disjoint d.toNat c.g sc.toNat 1 = true →
      let block := fun k => quantBlock (some f) band (s.quantIn m bk (s.wideVal b) k)
      ∃ t, exec (.vquant m b sc d) s = .next t ∧
        t = { s with
          hart := { s.hart.past with v := t.hart.v, vflags := s.hart.vflags ||| BitVec.ofNat 9 (s.blockFlags m bk block) },
          cores := s.coresAs t } ∧
        GroupElems s t d.toNat c.g c.sew (s.codesPut m bk block (s.wideBad b)) ∧
        GroupElems s t sc.toNat 1 2 (s.blocksPut m bk (fun k => (block k).scale % 2 ^ 8) (s.wideBad b)) ∧
        s.onlyWrites t [(d.toNat, c.g), (sc.toNat, 1)]) ∧
    (groupOk d.toNat c.g = true → groupOk b.toNat c.wideGroup = true →
      let block := fun k => rescaleBlock (some f) band (y k).1 (s.quantIn m bk (s.wideVal b) k)
      ∃ t, exec (.vbscale m b sc d) s = .next t ∧
        t = { s with
          hart := { s.hart.past with v := t.hart.v, vflags := s.hart.vflags ||| BitVec.ofNat 9 (s.blockFlags m bk block) },
          cores := s.coresAs t } ∧
        GroupPut s t d.toNat c.g c.sew (s.codesPut m bk block (fun i => s.wideBad b i || (y (i / bk)).2))) ∧
    (groupOk b.toNat c.g = true → groupOk d.toNat c.wideGroup = true →
      let x := groupSrc s b.toNat c.g c.sew
      let r := fun i => toFormat .fp32 .rne (dequantValue f (x i).1 (y (i / bk)).1 band)
      ∃ t, exec (.vdequant m b sc d) s = .next t ∧
        t = { s with
          hart := { s.hart.past with v := t.hart.v, vflags := s.flagsWith m (fun i => (r i).2) }, cores := s.coresAs t } ∧
        GroupWritten s t d.toNat c.wideGroup 4 m (fun i => ((r i).1 % 2 ^ 32, (x i).2 || (y (i / bk)).2))))

/-- O23. `vqef` (R282) and `vouts` (R283). -/
def Obligations.ErrorFeedbackResult : Prop :=
  ∀ (m : MaskNo) (b a d : BitVec 5) (f : FFmt) (s : State), s.quantReady f →
    let c := s.cfg
    let bk := blockSizeOf (some f)
    let band := s.hart.band 0
    (groupOk d.toNat c.g = true → groupOk b.toNat c.wideGroup = true → groupOk a.toNat c.wideGroup = true →
      d.toNat + c.g ≤ 31 → disjoint d.toNat (c.g + 1) a.toNat c.wideGroup = true →
      let val := fun i => exactAdd (s.wideVal b i) (s.wideVal a i)
      let bad := fun i => s.wideBad b i || s.wideBad a i
      let block := fun k => quantBlock (some f) band (s.quantIn m bk val k)
      let err := fun i => errorOf f (val i) ((block (i / bk)).codes.getD (i % bk) 0) (block (i / bk)).scale band
      ∃ t, exec (.vqef m b a d) s = .next t ∧
        t = { s with
          hart := { s.hart.past with
            v := t.hart.v,
            vflags := s.hart.vflags ||| BitVec.ofNat 9
              (s.blockFlags m bk block ||| (if (s.actives m).any (fun i => (err i).2) then flagNX else 0)) },
          cores := s.coresAs t } ∧
        GroupElems s t d.toNat c.g c.sew (s.codesPut m bk block bad) ∧
        GroupElems s t (d.toNat + c.g) 1 2 (s.blocksPut m bk (fun k => (block k).scale % 2 ^ 8) bad) ∧
        GroupElems s t a.toNat c.wideGroup 4 (s.masked m (fun i => some ((err i).1 % 2 ^ 32, bad i))) ∧
        s.onlyWrites t [(d.toNat, c.g + 1), (a.toNat, c.wideGroup)]) ∧
    (∀ mant e, c.sew = 0 → c.g = 1 → d.toNat ≤ 29 → groupOk b.toNat c.wideGroup = true →
      decodeFloat .fp32 (unbox32 (s.hart.getF a)) = .fin false mant e → mant ≠ 0 →
      let out := fun k => outlierBlock band (mant, e) (s.quantIn m bk (s.wideVal b) k)
      let live := (List.range (ceilDiv s.hart.vl.toNat bk)).filter (s.liveBlock m bk)
      ∃ t, exec (.vouts m b a d) s = .next t ∧
        t = { s with
          hart := { s.hart.past with
            v := t.hart.v, vflags := s.hart.vflags ||| BitVec.ofNat 9 (s.blockFlags m bk (fun k => (out k).1)),
            voutcnt := BitVec.ofNat 32 (min (s.hart.voutcnt.toNat + (live.map (fun k => (out k).2.2)).sum) (2 ^ 32 - 1)) },
          cores := s.coresAs t } ∧
        GroupElems s t d.toNat 1 0 (s.codesPut m bk (fun k => (out k).1) (s.wideBad b)) ∧
        GroupElems s t (d.toNat + 1) 1 2 (s.blocksPut m bk (fun k => (out k).1.scale % 2 ^ 8) (s.wideBad b)) ∧
        GroupElems s t (d.toNat + 2) 1 4 (s.blocksPut m bk (fun k => (out k).2.1 % 2 ^ 32) (s.wideBad b)) ∧
        s.onlyWrites t [(d.toNat, 3)])

/-- O24. The loads (R322 to R325): `placeOf` computes the place of an element, `elementOf` reads it, `commitProbe` is what the passed probe
leaves (A and D bits, the TLB). Which old bytes a load may still read (`readUnit`, `observe`) is the model's reading of R340, R366 and
R369 (log 8). -/
def Obligations.VectorLoadResult : Prop :=
  ∀ (mask : MaskNo) (b a d : BitVec 5) (s : State), s.accessReady 0 = true → groupOk d.toNat s.cfg.g = true →
    ∀ r ∈ loadRows mask b a d, s.modeOk mask r.2.1 b = true →
      let accept : Aperture → Bool → Bool := if r.2.2.1 then fun ap _ => ap == .gangScratchpad else acceptAll
      let req := s.accessReq mask r.2.1 b a false accept
      ∀ p : Probed, Reaches s false [req] [p] →
        let c := commitProbe s [req] [p]
        (r.2.2.1 = true → ∀ l ∈ p.pieces, arrived c l = true) →
        let u := s.readUnit mask r.2.1 b a r.2.2.1 r.2.2.2 p
        ∃ t, exec r.1 s = .next t ∧
          t = { c with
            hart := { (c.hart.observe u (s.piecesOf mask r.2.1 b a p)).past with v := t.hart.v }, pins := dropPins [s.hart.hid] c.pins,
            cores := c.coresAs t } ∧
          GroupPut s t d.toNat s.cfg.g s.cfg.sew (s.loaded mask r.2.1 b a p u c)

/-- O25. The loads into a load queue (R326). That with `vl` = 0 no delivery is made is the model's reading, not the rule's words (log 58); so is
which old bytes a load may still read (log 8). -/
def Obligations.QueueLoadResult : Prop :=
  ∀ (mask : MaskNo) (b a : BitVec 5) (q : QueueNo) (s : State), s.accessReady 0 = true →
    let size := ceilDiv (s.hart.vl.toNat * s.cfg.w) (64 * s.lanes s.hart)
    (((s.hart.loadq[q.toNat]).map Delivery.groups).sum + size ≤ Config.loadQueueGroups) →
    ∀ r ∈ queueLoadRows mask b a q, s.modeOk mask r.2 b = true →
      let req := s.accessReq mask r.2 b a false acceptAll
      ∀ p : Probed, Reaches s false [req] [p] →
        let c := commitProbe s [req] [p]
        let u := s.readUnit mask r.2 b a false false p
        ∃ t, exec r.1 s = .next t ∧
          t = { c with
            hart := { (if s.hart.vl = 0#32 then c.hart else c.hart.observe u (s.piecesOf mask r.2 b a p)).past with
              v := t.hart.v, loadq := t.hart.loadq },
            pins := dropPins [s.hart.hid] c.pins, cores := c.coresAs t } ∧
          (∀ n g sew, groupSrc t n g sew = groupSrc s n g sew) ∧
          (∀ k : QueueNo, k ≠ q ∨ s.hart.vl = 0#32 → t.hart.loadq[k.toNat] = s.hart.loadq[k.toNat]) ∧
          (s.hart.vl ≠ 0#32 → ∃ x : Delivery, t.hart.loadq[q.toNat] = s.hart.loadq[q.toNat] ++ [x] ∧ x.groups = size ∧
            ∀ i, s.cfg.w * (i + 1) ≤ 8192 →
              let y := if i < s.hart.vl.toNat then (s.loaded mask r.2 b a p u c i).getD (0, false) else (0, false)
              (imageSrc x.image.toNat x.poison.toNat s.cfg.w i).1 = y.1 ∧
              (s.cfg.w % 8 = 0 → (imageSrc x.image.toNat x.poison.toNat s.cfg.w i).2 = y.2))

/-- O26. The stores (R322 to R324): `elementWrites` gives the byte writes of an element at its place, `storedBy` performs them. -/
def Obligations.VectorStoreResult : Prop :=
  ∀ (mask : MaskNo) (b a v : BitVec 5) (s : State), s.accessReady 0 = true → groupOk v.toNat s.cfg.g = true →
    let x := groupSrc s v.toNat s.cfg.g s.cfg.sew
    (∀ i ∈ s.actives mask, (x i).2 = false) →
    ∀ r ∈ storeRows mask b a v, s.modeOk mask r.2 b = true →
      let req := s.accessReq mask r.2 b a true acceptAll
      ∀ p : Probed, Reaches s true [req] [p] →
        let c := commitProbe s [req] [p]
        let ws := (s.accessed mask r.2 b a p).flatMap (fun y => elementWrites s.cfg.w y.2.1 y.2.2 (x y.1).1 false)
        let z := if s.actives mask = [] then c
          else c.storedBy ⟨ws, p.pieces.flatMap pieceKinds, false, [], []⟩
        ∃ t, exec r.1 s = .next t ∧
          t = { z with hart := { z.hart.past with v := t.hart.v }, pins := dropPins [s.hart.hid] z.pins, cores := z.coresAs t } ∧
          (∀ n g sew, groupSrc t n g sew = groupSrc s n g sew) ∧ (∀ k, (∀ w ∈ ws, w.key ≠ k) → memRead t.mem k = memRead c.mem k)

/-- O27. A store performed (R313); the memory control block ignores writes (R303), a store on a route that is down is dropped (R462). -/
def Obligations.StoreBytesResult : Prop :=
  ∀ (ws : List ByteWrite) (s : State),
    (∀ k, isControlKey k = false → routeDown s k = false →
      memRead (storeBytes ws s).mem k =
        ws.foldl (fun b w => if w.key = k then (b &&& ~~~w.mask) ||| (w.value &&& w.mask) else b) (memRead s.mem k)) ∧
    (∀ k, (isControlKey k = true ∨ routeDown s k = true ∨ ∀ w ∈ ws, w.key ≠ k) →
      memRead (storeBytes ws s).mem k = memRead s.mem k) ∧
    (storeBytes ws s).hart = s.hart.dropLines (ws.map (fun w => w.key / 64)) ∧
    (storeBytes ws s).others = s.others.map (Hart.dropLines (ws.map (fun w => w.key / 64)))

/-- O28. The vector atomics (R334 to R336): `atomicElem` is one read-modify-write. -/
def Obligations.AtomicResult : Prop :=
  ∀ (mask : MaskNo) (b a d : BitVec 5) (o : AtomicOp) (s : State), s.accessReady 0 = true → groupOk d.toNat s.cfg.g = true →
    s.modeOk mask (.indexed b.toNat) b = true → atomicOk o s.cfg = true →
    let x := groupSrc s d.toNat s.cfg.g s.cfg.sew
    (∀ i ∈ s.actives mask, (x i).2 = false) →
    let req := s.accessReq mask (.indexed b.toNat) b a true acceptAtomic
    ∀ p : Probed, Reaches s true [req] [p] →
      let elems := s.accessed mask (.indexed b.toNat) b a p
      let c := commitProbe s [req] [p]
      ∀ r ∈ [(Instr.vamo mask b a o d, true), (.vupdO mask b a o d, false)],
        let start := if r.2 then c.lockLines (linesTouched p.pieces) else c
        ∃ t order, exec r.1 s = .next t ∧ order.Perm elems ∧
          (if r.2 then order.Pairwise (fun y z => y.2.1.va < z.2.1.va ∨ (y.2.1.va = z.2.1.va ∧ y.1 < z.1)) else order = elems) ∧
          (let run := order.foldl (atomicElem o s.cfg x) ⟨[], 0, start⟩
           t = { run.after with
             hart := { (run.after.hart.observe 0 (elems.flatMap (fun y => y.2.2))).past with
               v := t.hart.v, vflags := s.hart.vflags ||| BitVec.ofNat 9 run.flags, stall := t.hart.stall },
             others := t.others, locks := s.locks, pins := dropPins [s.hart.hid] c.pins, cores := c.coresAs t } ∧
           t.others.map Hart.calm = s.others.map Hart.calm ∧
           (if r.2 then GroupPut s t d.toNat s.cfg.g s.cfg.sew (fun i => (run.res.find? (fun y => y.1 == i)).map (fun y => y.2))
            else (∀ n g sew, groupSrc t n g sew = groupSrc s n g sew))) ∧
          (∀ k, (∀ l ∈ p.pieces, k ∉ pieceKeys l) → memRead t.mem k = memRead c.mem k)

/-- O29. `ald` (R328) and `ald.c` whose first attempt, not held open by the schedule (log 2), reads every version even (R105, R329). `ald` reads cells and
descriptors in their atomic units, `ald.c` as they are (R366; log 8). `ast` (R104, R330): `storedDesc` is the descriptor written. -/
def Obligations.FieldMemoryResult : Prop :=
  (∀ (b a d : BitVec 5) (s : State), s.accessReady 2 = true → s.hart.aldc = none → s.hart.holdWindow = false → s.cfg.block ≠ 0 → groupOk d.toNat s.cfg.g = true →
    let reqs := s.fieldRequests b a false
    ∀ ps, Reaches s false reqs ps →
      let c := commitProbe s reqs ps
      ∀ r ∈ [(Instr.ald b a d, false), (.aldC b a d, true)],
        let cu := if r.2 then 0 else cellUnit s.cfg
        let du := if r.2 then 0 else 8
        let blk := blockRead s.cfg (readPieces cu c (fieldPieces ps).1) (readPieces du c (fieldPieces ps).2)
        (∀ k, k < s.cfg.blocks → (blk k).badDesc = false ∧ descOk s.cfg (blk k).desc = true) →
        (r.2 = true → ∀ k, k < s.cfg.blocks → (blk k).desc.testBit 80 = false) →
        ∃ t, exec r.1 s = .next t ∧
          t = { c with
            hart := { ((c.hart.observe cu (fieldPieces ps).1).observe du (fieldPieces ps).2).past with v := t.hart.v, w := t.hart.w },
            pins := dropPins [s.hart.hid] c.pins, cores := c.coresAs t } ∧
          (∀ o k, t.hart.desc o k = if o = octetOf d.toNat ∧ k < s.cfg.blocks then BitVec.ofNat 128 (blk k).desc
            else s.hart.desc o k) ∧
          GroupPut s t d.toNat s.cfg.g s.cfg.sew (fun i =>
            if i < s.cfg.cells then
              let y := blk (i / s.cfg.block)
              let j := i % s.cfg.block
              let lo := j * s.cfg.w / 8
              some (getBits y.cells (j * s.cfg.w) s.cfg.w, getBits y.badCells lo (ceilDiv ((j + 1) * s.cfg.w) 8 - lo) != 0)
            else none)) ∧
  (∀ (b a v : BitVec 5) (s : State), s.accessReady 2 = true → s.cfg.block ≠ 0 → groupOk v.toNat s.cfg.g = true →
    s.cellsClean v = true →
    let reqs := s.fieldRequests b a true
    ∀ ps, Reaches s true reqs ps →
      let c := commitProbe s reqs ps
      let cp := (fieldPieces ps).1
      let dp := (fieldPieces ps).2
      let cells := (packElems s.cfg.w ((List.range s.cfg.cells).map (fun i => some (groupSrc s v.toNat s.cfg.g s.cfg.sew i)))).1
      let old := pieceBytes c dp
      let descs := (List.range s.cfg.blocks).flatMap (fun k =>
        toBytes 16 (storedDesc s.cfg (s.hart.desc (octetOf v.toNat) k) (ofBytes (((old.drop (16 * k)).drop 10).take 2))))
      let odd := (List.range s.cfg.blocks).flatMap (fun k =>
        let v := ofBytes (((old.drop (16 * k)).drop 10).take 2)
        (List.zip (((pieceWrites dp old).drop (16 * k + 10)).take 2) (toBytes 2 (v / 2 * 2 + 1))).map (fun w => { w.1 with value := w.2 }))
      let ws := odd ++ pieceWrites cp (toBytes (s.cfg.cells * s.cfg.w / 8) cells) ++ pieceWrites dp descs
      let z := if s.cfg.blocks = 0 then c
        else (c.lockLines (linesTouched [dp])).storedBy ⟨ws, pieceKinds (cp ++ dp), false, [], []⟩
      ∃ t, exec (.ast b a v) s = .next t ∧
        t = { z with
          hart := { z.hart.past with v := t.hart.v, stall := t.hart.stall }, others := t.others, locks := s.locks,
          pins := dropPins [s.hart.hid] z.pins, cores := z.coresAs t } ∧
        t.others.map Hart.calm = s.others.map Hart.calm ∧
        (∀ n g sew, groupSrc t n g sew = groupSrc s n g sew) ∧
        (∀ k, s.cfg.blocks = 0 ∨ (∀ w ∈ ws, w.key ≠ k) → memRead t.mem k = memRead c.mem k))

/-- O30. `mld` and `mst` (R331). -/
def Obligations.TileMemoryResult : Prop :=
  ∀ (b a : BitVec 5) (n : TileNo) (s : State), s.accessReady 1 = true → s.cfg.sew = 4 → s.cfg.alt = false →
    n.toNat < s.hart.ownTiles →
    let rows := s.hart.vrow.toNat
    let cols := min s.hart.vl.toNat 128
    (∀ p : Probed, Reaches s false [s.tileRequest b a false] [p] →
      let c := commitProbe s [s.tileRequest b a false] [p]
      ∃ t, exec (.mld b a n) s = .next t ∧
        t = { c with
          hart := { (c.hart.observe 4 (p.pieces.flatMap id)).past with v := t.hart.v, t := t.hart.t },
          pins := dropPins [s.hart.hid] c.pins, cores := c.coresAs t } ∧
        (∀ n g sew, groupSrc t n g sew = groupSrc s n g sew) ∧
        TilePut s t n (fun i j =>
          if i < rows ∧ j < cols then some (valueOf (((readPieces 4 c (p.pieces.getD i [])).drop (4 * j)).take 4)) else none)) ∧
    (∀ p : Probed, Reaches s true [s.tileRequest b a true] [p] →
      (∀ i j, i < rows → j < cols → (s.hart.getT n).bad i j = false) →
      let c := commitProbe s [s.tileRequest b a true] [p]
      let ws := (p.pieces.zipIdx).flatMap (fun l =>
        pieceWrites l.1 ((List.range cols).flatMap (fun j => toBytes 4 ((s.hart.getT n).elem l.2 j))))
      let z := if p.pieces = [] then c else c.storedBy ⟨ws, p.pieces.flatMap pieceKinds, false, [], []⟩
      ∃ t, exec (.mst b a n) s = .next t ∧
        t = { z with hart := { z.hart.past with v := t.hart.v }, pins := dropPins [s.hart.hid] z.pins, cores := z.coresAs t } ∧
        (∀ n g sew, groupSrc t n g sew = groupSrc s n g sew) ∧ (∀ k, (∀ w ∈ ws, w.key ≠ k) → memRead t.mem k = memRead c.mem k))

/-- O31. `vcpy` (R298, R332) and `vfill` (R333). -/
def Obligations.CopyFillResult : Prop :=
  ∀ (b a : BitVec 5) (pf zf : BitVec 1) (s : State), s.accessReady 0 = true → s.hart.vl.toNat * s.cfg.w % 8 = 0 →
    let n := s.hart.vl.toNat * s.cfg.w / 8
    let dst := (s.hart.getX b).toNat
    let src := (s.hart.getX a).toNat
    let toScratch : Aperture → Bool → Bool := fun ap _ => !(pf == 1#1) || ap == .gangScratchpad
    (n = 0 → ∀ i ∈ [Instr.vcpy b a pf zf, .vfill b a],
      ∃ t, exec i s = .next t ∧ t = { s with hart := { s.hart.past with v := t.hart.v }, cores := s.coresAs t } ∧ (∀ n g sew, groupSrc t n g sew = groupSrc s n g sew)) ∧
    (n ≠ 0 → ∀ x y : Probed,
      let reqs := [s.request false [(src, n)] [] acceptAll, s.request true [(dst, n)] [] toScratch]
      Reaches s true reqs [x, y] →
      let c := commitProbe s reqs [x, y]
      let target := y.pieces.flatMap id
      let keys := pieceKeys target
      let ws := throughPieces target ((List.zip keys (readPieces 1 c (x.pieces.flatMap id))).map (fun p =>
        (⟨p.1, p.2.1, 0xFF#8, p.2.2, .cached⟩ : ByteWrite)))
      (pf = 1#1 → ∀ k ∈ banksTouched keys, ∀ h ∈ s.harts, h.copiesTo k.1.1 k.1.2 = false) →
      let z := State.storedBy { c with hart := c.hart.observe 1 (x.pieces.flatMap id) } ⟨ws, y.pieces.flatMap pieceKinds, pf == 1#1, [], []⟩
      ∃ t, exec (.vcpy b a pf zf) s = .next t ∧
        t = { z with hart := { z.hart.past with v := t.hart.v }, pins := dropPins [s.hart.hid] z.pins, cores := z.coresAs t } ∧
        (∀ n g sew, groupSrc t n g sew = groupSrc s n g sew) ∧ (∀ k, (∀ w ∈ ws, w.key ≠ k) → memRead t.mem k = memRead c.mem k)) ∧
    (n ≠ 0 → ∀ x : Probed,
      let reqs := [s.request true [(src, n)] (if s.cfg.w < 8 ∨ src % (s.cfg.w / 8) = 0 then [] else [src]) acceptAll]
      Reaches s true reqs [x] →
      let c := commitProbe s reqs [x]
      let image := (packElems s.cfg.w ((List.range s.hart.vl.toNat).map (fun _ => some (dst, false)))).1
      let ws := pieceWrites (x.pieces.flatMap id) (toBytes n image)
      let z := c.storedBy ⟨ws, x.pieces.flatMap pieceKinds, false, [], []⟩
      ∃ t, exec (.vfill b a) s = .next t ∧
        t = { z with hart := { z.hart.past with v := t.hart.v }, pins := dropPins [s.hart.hid] z.pins, cores := z.coresAs t } ∧
        (∀ n g sew, groupSrc t n g sew = groupSrc s n g sew) ∧ (∀ k, (∀ w ∈ ws, w.key ≠ k) → memRead t.mem k = memRead c.mem k))

/-- O32. The prefetches (R327); `nm` (R337 to R340) when its command is accepted: its lines are applied later, by their own events. -/
def Obligations.PrefetchNearMemoryResult : Prop :=
  (∀ (mask : MaskNo) (b a : BitVec 5) (s : State), s.ready 0 = true →
      ∀ r ∈ prefetchRows mask b a, (8 ≤ s.cfg.w → s.modeOk mask r.2 b = true) →
        ∃ t, exec r.1 s = .next t ∧ t = { s with hart := { s.hart.past with v := t.hart.v }, cores := s.coresAs t } ∧ (∀ n g sew, groupSrc t n g sew = groupSrc s n g sew)) ∧
  (∀ (b a k : BitVec 5) (s : State), s.ready 3 = true → s.hart.vsq = [] → s.ownCommands.length < Config.nqDepth →
      let block := s.request false [((s.hart.getX k).toNat, 64)] [] acceptAll
      ∀ p : Probed, Reaches s true [block] [p] →
        let c := commitProbe s [block] [p]
        let v := valueOf (readPieces 1 c (p.pieces.flatMap id))
        v.2 = false → nmBlockOk v.1 = true →
        let f := nmBlock v.1
        let record := s.hart.getX a
        let reqs := [s.request true [(record.toNat, 64)] (if record.toNat % 64 = 0 then [] else [record.toNat]) acceptAll,
            s.request true (nmRanges f.dst f.n) [] acceptLines] ++
          (if nmUsesSource f.op then [s.request false (nmRanges f.src f.n) [] acceptLines] else [])
        ∀ ps, Reaches c true reqs ps →
          let dst := (ps[1]?).elim [] lineKeys
          let src := (ps[2]?).elim [] lineKeys
          let z := (risingOf ((dst ++ src).map (fun x => x / 4096))).foldl (fun t g => setPageKind t g 0) (commitProbe c reqs ps)
          ∃ t, exec (.nm b a k) s = .next t ∧
            t = { z with
              hart := { (z.hart.observe 1 (p.pieces.flatMap id)).past with v := t.hart.v }, pins := dropPins [s.hart.hid] z.pins,
              cores := z.coresAs t,
              nq := s.nq ++ [
                { gang := s.hart.gang.getD 0, rank := s.hart.rank, held := true, op := f.op, fmt := f.fmt, n := f.n, dst := dst,
                  src := src, a := f.a, b := f.b, record := ((ps[0]?).elim [] lineKeys).headD 0, recordAddr := record,
                  kinds := (ps.head?).elim [] (fun x => pieceKinds (x.pieces.flatMap id)), tag := BitVec.ofNat 32 (s.hart.getX b).toNat, done := [], skipped := [], lastTime := 0#64,
                  half := false }] } ∧
            (∀ n g sew, groupSrc t n g sew = groupSrc s n g sew))

/-- O33. `setl` and `setl.r` (R168, R169); the wait at a reclaim point is R41. -/
def Obligations.SetLengthResult : Prop :=
  ∀ (imm : BitVec 10) (b a d : BitVec 5) (s : State), s.idle 0 = true →
    let x := (s.hart.getX a).toNat
    let rows := if a = 0#5 then 2 ^ 32 - 1 else x / 2 ^ 32
    let cols := if a = 0#5 then 2 ^ 32 - 1 else x % 2 ^ 32
    let l := min (s.lanes s.hart) s.ceiling
    ∀ r ∈ [(Instr.setl imm a d, imm.toNat), (.setlR b a d, (s.hart.getX b).toNat)],
      (vtypeIllegal r.2 = true →
        ∃ t, exec r.1 s = .next t ∧
          t = { s with
            hart := Hart.setX { s.hart.past with vl := 0#32, vrow := 0#32, vtype := 0x8000000000000000#64 } d 0#64,
            cores := s.coresAs t }) ∧
      (vtypeIllegal r.2 = false → ¬(r.2.testBit 9 = true ∧ s.reclaimPending = true) →
        let g := grantOf r.2 l rows cols
        ∃ t, exec r.1 s = .next t ∧
          t = { s with
            hart := Hart.setX
              { s.hart.past with
                vl := BitVec.ofNat 32 g.1, vrow := BitVec.ofNat 32 g.2, vtype := BitVec.ofNat 64 r.2, lgrant := BitVec.ofNat 5 l }
              d (BitVec.ofNat 64 (g.2 * 2 ^ 32 + g.1)),
            cores := s.coresAs t })

/-- O34. The fences (R373) and `drain` (R364): a store is performed at once or held back by the schedule (log 3, 54), and reads of bytes from
before a line event are log 8; the barrier instructions (R357, R358) where they complete. -/
def Obligations.FenceBarrierResult : Prop :=
  (∀ (sc : Scope) (q : BitVec 6) (s : State), s.idle 0 = true →
    let wide := sc = .dev ∨ sc = .dom ∨ sc = .sys
    let cleared := fun (z : State) (c : Prop) [Decidable c] =>
      ({ z with hart := { z.hart with oldLines := if c then [] else z.hart.oldLines } } : State)
    (∀ i ∈ [Instr.fenceVv sc, .fenceAcq sc], ∃ t, exec i s = .next t ∧ (cleared s wide).passedOver t) ∧
    (s.scalarsFree = true → ∃ t, exec (.fenceSv sc) s = .next t ∧ (cleared s.scalarsDone wide).passedOver t) ∧
    (s.storesFree = true → ∃ t, exec (.fenceVs sc) s = .next t ∧ (cleared s.storesDone wide).passedOver t) ∧
    (s.allFree = true →
      (∀ i ∈ [Instr.fenceRel sc, .fenceAr sc], ∃ t, exec i s = .next t ∧ (cleared s.allDone wide).passedOver t) ∧
      (∃ t, exec (.fenceAlias sc) s = .next t ∧ ({ cleared s.allDone wide with stale := [] } : State).passedOver t)) ∧
    ((wide → ∀ c ∈ s.nq, c.ofHart s.hart = true → c.linesDone = true) →
      ∃ t, exec (.fenceNm sc) s = .next t ∧ (cleared s wide).passedOver t) ∧
    (let stores := q.getLsbD 0 = true ∨ q.getLsbD 2 = true
     (stores → s.storesFree = true) → (q.getLsbD 5 = true → s.hart.lq = []) →
      (q.getLsbD 3 = true → s.ownCommands = [] ∧ s.hart.nmError = none) →
      ∃ t, exec (.drain q) s = .next t ∧
        (cleared (if stores then s.storesDone else s) (q.getLsbD 3 = true)).passedOver t)) ∧
  (∀ (b a : BitVec 5) (g : Gang) (x : Barrier) (s : State), s.idle 0 = true → s.gangOf s.hart = some g →
    let id := (s.hart.getX a).toNat
    g.barriers[id]? = some x →
    let arrived := if x.arrived.contains s.hart.rank then x.arrived else s.hart.rank :: x.arrived
    let there := arrived ++ (haltedRanks s g).filter (fun r => !arrived.contains r)
    let done := decide (x.count ≤ there.length)
    let after : Barrier := if done then ⟨x.pending.getD x.count, none, (x.phase + 1) % 2 ^ 16, []⟩ else { x with arrived := arrived }
    let with_ := fun (y : Barrier) => (s.putGang { g with barriers := g.barriers.set id y }).gangs
    (s.hart.ssq = [] → s.hart.vsq = [] →
      (∃ t, exec (.barArrive a) s = .next t ∧
        t = { s with hart := s.hart.past.setPhase id (some x.phase), gangs := with_ after, cores := s.coresAs t }) ∧
      (done = true → ∃ t, exec (.barSync a) s = .next t ∧
        t = { s with
          hart := (s.hart.past.setPhase id (some x.phase)).setPhase id none, gangs := with_ after, cores := s.coresAs t })) ∧
    (∀ p, s.hart.phaseOf id = some p → p ≠ x.phase → ∃ t, exec (.barWait a) s = .next t ∧
      t = { s with hart := s.hart.past.setPhase id none, cores := s.coresAs t }) ∧
    (let c := (s.hart.getX b).toNat
     id ≠ 0 → 1 ≤ c → c ≤ recHarts (s.recordOf g) → ∃ t, exec (.barInit b a) s = .next t ∧
      t = { s with
        hart := s.hart.past,
        gangs := with_ (if x.arrived = [] then { x with count := c, pending := none } else { x with pending := some c }),
        cores := s.coresAs t })) ∧
  (∀ (key id : Nat) (s : State),
    (s.findGang key = none → exec (.barrierPhaseComplete key id) s = .next s) ∧
    (∀ g, s.findGang key = some g →
      (g.barriers[id]? = none → exec (.barrierPhaseComplete key id) s = .next s) ∧
      (∀ x, g.barriers[id]? = some x →
        let there := x.arrived ++ (haltedRanks s g).filter (fun r => !x.arrived.contains r)
        exec (.barrierPhaseComplete key id) s = .next (s.putGang { g with
          barriers := g.barriers.set id (if x.arrived ≠ [] ∧ x.count ≤ there.length
            then ⟨x.pending.getD x.count, none, (x.phase + 1) % 2 ^ 16, []⟩ else x) }))))

/-- O35. The waits (R359, R360), `yield` (R361), `halt` and `kend` (R362). That a marked slice ends as the next thing the machine does is the
agenda of log 1; that `halt` and `kend` perform the stores held back in their own step is log 3. -/
def Obligations.WaitResult : Prop :=
  ∀ (b a d : BitVec 5) (s : State), s.idle 0 = true →
    ((s.hart.getX a) ≤ s.time → ∃ t, exec (.waitTime a) s = .next t ∧ s.passedOver t) ∧
    (s.scalarsFree = true → s.aritHeld = [] →
     let z := s.scalarsDone
     let addr := (s.hart.getX a).toNat
     let req := z.request false [(addr, 8)] (if addr % 8 = 0 then [] else [addr]) acceptWatched
     ∀ p : Probed, Reaches z false [req] [p] →
      let c := commitProbe z [req] [p]
      let v := valueOf (readNow c (p.pieces.flatMap id))
      v.2 = false →
      (BitVec.ofNat 64 v.1 ≠ s.hart.getX d ∨ (s.hart.getX b ≠ 0#64 ∧ s.hart.getX b ≤ s.time)) →
      ∃ t, exec (.waitMem b a d) s = .next t ∧
        t = { c with
          hart := c.hart.past.setX d (BitVec.ofNat 64 v.1), pins := dropPins [s.hart.hid] c.pins, cores := c.coresAs t }) ∧
    (∃ t, exec .yield s = .next t ∧
      match s.gangOf s.hart with
      | some g =>
        if hasRival s g then
          t = { s with
            hart := s.hart.past, gangs := (s.putGang { g with sliceExhausted := true }).gangs,
            agenda := .event (.timeSliceExpiry g.key) :: s.agenda, cores := s.coresAs t }
        else s.passedOver t
      | none => s.passedOver t) ∧
    (s.allFree = true → s.hart.lq = [] → ∀ i ∈ [Instr.halt, .kend],
      ∃ t, exec i s = .next t ∧
        t = { ({ s.allDone with hart := s.allDone.hart.past.halt }).settleOwn with cores := s.allDone.coresAs t })

/-- O36. The queue instructions (R352 to R356) where they complete. -/
def Obligations.QueueResult : Prop :=
  ∀ (b a d : BitVec 5) (m : MaskNo) (s : State), s.idle 0 = true →
    let id := (s.hart.getX a).toNat
    (∀ i ∈ [Instr.qpop a d, .qpopT a d],
      (∀ v rest, id = 0 → s.hart.bq = v :: rest → ∃ t, exec i s = .next t ∧
        t = { s with hart := Hart.setX { s.hart.past with bq := rest } d (if v then 1#64 else 0#64), cores := s.coresAs t }) ∧
      (∀ v rest, id = 0x10 + s.hart.rank → s.hart.rank < s.gangSize → s.hart.pigeonhole = v :: rest →
        ∃ t, exec i s = .next t ∧
          t = { s with hart := Hart.setX { s.hart.past with pigeonhole := rest } d v, cores := s.coresAs t })) ∧
    (id = 0 → s.hart.bq = [] → ∃ t, exec (.qpop a d) s = .next t ∧
      t = { s with hart := s.hart.past.setX d (BitVec.allOnes 64), cores := s.coresAs t }) ∧
    (∀ h, 0x10 ≤ id → id < 0x10 + s.gangSize → s.hart.ssq = [] → s.hart.vsq = [] → (h.hid = s.hart.hid → h = s.hart) →
      s.harts.find? (fun o => o.gang == s.hart.gang && o.rank == id - 0x10 && o.run != .free) = some h →
      (h.isHalted = true → ∃ t, exec (.qpush b a) s = .next t ∧ s.passedOver t) ∧
      (h.isHalted = false → h.pigeonhole.length + earlierPushers s (s.hart.getX a) < Config.pigeonholeDepth →
        ∃ t, exec (.qpush b a) s = .next t ∧
          (s.putHart { h with pigeonhole := h.pigeonhole ++ [s.hart.getX b] }).passedOver t)) ∧
    (s.cfg.vill = false → s.hart.bq.length < 16 →
      ∀ r ∈ [(Instr.qany m, (List.range s.hart.vl.toNat).any (s.hart.maskBit m)),
          (.qall m, (List.range s.hart.vl.toNat).all (s.hart.maskBit m))],
        ∃ t, exec r.1 s = .next t ∧ t = { s with hart := { s.hart.past with bq := s.hart.bq ++ [r.2] }, cores := s.coresAs t }) ∧
    (∀ n, (id = 0 ∧ n = s.hart.bq.length) ∨ (id = 0x200 ∧ n = s.hart.lq.length) ∨
        (∃ h, 0x10 ≤ id ∧ id < 0x10 + s.gangSize ∧ id < 0x100 ∧
          s.harts.find? (fun o => o.gang == s.hart.gang && o.rank == id - 0x10 && o.run != .free) = some h ∧
          n = h.pigeonhole.length) ∨
        (0x100 ≤ id ∧ id < 0x140 ∧ ¬(id < 0x10 + s.gangSize) ∧ (s.queue (id - 0x100)).enable = true ∧
          (s.queue (id - 0x100)).realm = s.realmOf s.hart ∧ n = (s.queue (id - 0x100)).records.length) →
      ∃ t, exec (.qlen a d) s = .next t ∧ t = { s with hart := s.hart.past.setX d (BitVec.ofNat 64 n), cores := s.coresAs t })

/-- O37. `launch` (R351), `reclaim` (R414) and `vprobe` (R415). That `reclaim` and `vprobe` also run in M mode is the model's reading (log 42). -/
def Obligations.LaunchReclaimResult : Prop :=
  ∀ (b a d : BitVec 5) (s : State), s.idle 0 = true →
    let x := (s.hart.getX a).toNat
    let y := (s.hart.getX b).toNat
    (y ≤ 63 → s.hart.ssq = [] → s.hart.vsq = [] → s.hart.lq.length < Config.lqDepth →
      let req := s.request false [(x, 128)] (if x % 64 = 0 then [] else [x]) acceptAll
      ∀ p : Probed, Reaches s false [req] [p] →
        let c := commitProbe s [req] [p]
        let v := valueOf (readNow c (p.pieces.flatMap id))
        v.2 = false →
        let record := recSetRealm (BitVec.ofNat 1024 v.1) (s.realmOf s.hart)
        let code := if (c.queue y).enable = false ∨ (c.queue y).realm ≠ s.realmOf s.hart then 2#64
          else if c.queueHasSlot y = false then 1#64 else 0#64
        ∃ t, exec (.launch b a d) s = .next t ∧
          t = { c with
            hart := Hart.setX { c.hart.past with lq := if code = 0#64 then s.hart.lq ++ [⟨y, record⟩] else s.hart.lq } d code,
            pins := dropPins [s.hart.hid] c.pins, cores := c.coresAs t }) ∧
    (s.hart.mode ≠ .user → y % 2 ^ 8 < 2 ^ 4 → y < 2 ^ 16 →
      let keep := y % 16
      let cut := y / 256 % 256
      match s.gangs.find? (fun g => g.harts.contains (x % 1024)) with
      | none => ∃ t, exec (.reclaim b a) s = .next t ∧ s.passedOver t
      | some g =>
        let mask := g.quads.toNat
        let size := ((s.gangHarts g).map (fun h => h.size.toNat)).headD 0
        if (s.gangHarts g).all Hart.isHalted then ∃ t, exec (.reclaim b a) s = .next t ∧ s.passedOver t
        else
          recReclaimable (s.recordOf g) = true → keep &&& mask ≠ 0 → cut + 8 ≤ size →
          ∃ t, exec (.reclaim b a) s = .next t ∧
            if keep &&& mask = mask ∧ cut = 0 then s.passedOver t
            else
              t = { s with
                hart := s.hart.past,
                gangs := (s.putGang (match g.reclaim with
                  | some r => { g with vgrantmax := g.vgrantmax &&& BitVec.ofNat 4 keep, reclaim := some { r with deskCut := max r.deskCut cut } }
                  | none => { g with vgrantmax := BitVec.ofNat 4 keep, reclaim := some ⟨s.time + 50000#64, cut⟩ })).gangs,
                cores := s.coresAs t }) ∧
    (s.hart.mode ≠ .user → y / 2 ^ 40 % 2 ^ 23 = 0 →
      (∀ key, missRecordKey s = some key → recordWait s key 512 = none) →
      let len := y % 2 ^ 40
      let ps := probedPages s x len (y.testBit 63)
      let missing := (ps.filter (fun p => outcomeMissing p.2)).map (fun p => (p.1, y.testBit 63))
      (len ≠ 0 → ∀ p ∈ ps, outcomeLocked p.2 = false) →
      let z := if len = 0 then s.onHart (fun h => { h with vmisscnt := 0#64 }) else writeMissRecord s missing
      let v := if len = 0 then 0#64
        else BitVec.ofNat 64 (min (2 ^ 32 - 1) missing.length + (if ps.any (fun p => outcomeFails p.2) then 2 ^ 32 else 0))
      ∃ t, exec (.vprobe b a d) s = .next t ∧ t = { z with hart := z.hart.past.setX d v, cores := z.coresAs t })

/-- O38. `vsave` and `vrest` (R411 to R413); `contextImage` and `applyImage` are the image of R410 and R411 written and read, and `ImageHolds` says which
vector states an image holds. -/
def Obligations.ContextResult : Prop :=
  (∀ (a : BitVec 5) (s : State), s.idle 0 = true → s.hart.mode = .supervisor → s.hart.vsq = [] → s.hart.holdVsq = false →
    let base := (s.hart.getX a).toNat
    let bad := if base % 64 = 0 then [] else [base]
    (let image := contextImage s.hart (s.lanes s.hart) []
     let req := s.request true [(base, image.length)] bad acceptAll
     ∀ p : Probed, Reaches s true [req] [p] →
      let c := commitProbe s [req] [p]
      let ws := throughPieces (p.pieces.flatMap id)
        ((List.zip (pieceKeys (p.pieces.flatMap id)) (poisonLines (ceilDiv image.length 64) image)).map (fun w =>
          (⟨w.1, w.2.1, 0xFF#8, w.2.2, .cached⟩ : ByteWrite)))
      let z := c.storedBy ⟨ws, p.pieces.flatMap pieceKinds, false, [], []⟩
      ∃ t, exec (.vsave a) s = .next t ∧
        t = { z with hart := z.hart.past, pins := dropPins [s.hart.hid] z.pins, cores := z.coresAs t } ∧
        (∀ k, (∀ w ∈ ws, w.key ≠ k) → memRead t.mem k = memRead c.mem k)) ∧
    (∀ p q : Probed,
      let r1 := s.request false [(base, 64)] bad acceptAll
      Reaches s false [r1] [p] →
      let c1 := commitProbe s [r1] [p]
      let header := Image.ofBytes (readPieces 0 c1 (p.pieces.flatMap id))
      header.poison = 0 →
      let r2 := c1.request false [(base, max 64 (header.get 8 4))] bad acceptAll
      Reaches c1 false [r2] [q] →
      let c := commitProbe c1 [r2] [q]
      let x := Image.ofBytes (readPieces 0 c (q.pieces.flatMap id))
      let m := imageMap x
      headerFailures x m (s.lanes s.hart) = [] → imagePoisoned x m = false → bodyFailures x m = [] →
      m.tiles &&& (2 ^ s.hart.ownTiles - 1) = m.tiles → m.general ≤ s.hart.size.toNat →
      ∃ t, exec (.vrest a) s = .next t ∧
        t = { c with hart := applyImage (c.hart.observe 0 (q.pieces.flatMap id)).past x, pins := dropPins [s.hart.hid] c.pins, cores := c.coresAs t })) ∧
  (∀ (h o : Hart) (lanes : Nat) (es : List VEntry), ImageHolds h lanes → es.length ≤ 64 → (∀ e ∈ es, e.mode = o.mode) →
    let bs := contextImage h lanes es
    let x := Image.ofBytes bs
    let general := (h.v.toList.filter (fun r => r.tag == .g)).length
    let masks := [1, 2, 3, 4, 5, 6, 7].filter (fun k => (h.m[k]?).getD 0#16384 != 0#16384)
    let anchors := (List.range 4).filter (fun k => (List.range 128).any (fun j => h.desc k j != 0#128))
    let rows := ((List.range h.ownTiles).map (fun n => ((List.range 128).filter (fun i => (((h.t[n]?).getD Tile.reset).row i) != 0)).length))
    let deliveries := h.loadq.toList.flatMap id
    let masksAt := 1024 + 64 * lanes * general
    let anchorsAt := masksAt + 2048 * masks.length
    let tilesAt := anchorsAt + 2048 * anchors.length
    let queuesAt := tilesAt + ceilDiv (256 + (rows.map (fun n => 16 + 512 * n)).sum) 64 * 64
    let viqAt := queuesAt +
      ceilDiv (8 * h.bq.length + 8 * h.pigeonhole.length + (deliveries.map (fun d => 8 + d.groups * 8 * lanes)).sum) 64 * 64
    (∀ r ∈ [(0x00, 4, 0x43564C41), (0x04, 2, 1), (0x06, 2, if h.anchorHandler then 1 else 0), (0x08, 4, viqAt + 64 * es.length),
        (0x0C, 1, lanes), (0x0D, 1, general), (0x0E, 1, (masks.map (fun k => 2 ^ (k - 1))).sum),
        (0x0F, 1, (anchors.map (fun k => 2 ^ k)).sum), (0x10, 1, 2 ^ h.ownTiles - 1), (0x11, 1, es.length), (0x12, 1, h.bq.length),
        (0x13, 1, h.pigeonhole.length), (0x14, 1, deliveries.length), (0x15, 11, 0), (0x20, 4, 64), (0x24, 4, 256),
        (0x28, 4, 1024), (0x2C, 4, masksAt), (0x30, 4, anchorsAt), (0x34, 4, tilesAt), (0x38, 4, queuesAt), (0x3C, 4, viqAt)],
      x.get r.1 r.2.1 = r.2.2) ∧
    bs.length = viqAt + 64 * es.length ∧
    headerFailures x (imageMap x) lanes = [] ∧ bodyFailures x (imageMap x) = [] ∧
    applyImage o x = { o with
      vflags := h.vflags, vfrm := h.vfrm, vband := h.vband, avec := h.avec, aepc := h.aepc, acause := h.acause, vobm0 := h.vobm0,
      vobm1 := h.vobm1, voutcnt := h.voutcnt, aqsave := h.aqsave, vl := h.vl, vrow := h.vrow, vtype := h.vtype, gencap := h.gencap,
      nmError := h.nmError, vepc := h.vepc, vcause := h.vcause, vtval := h.vtval, vqsave := h.vqsave, vmissrec := h.vmissrec,
      vmisscnt := h.vmisscnt, v := h.v, m := h.m, w := h.w, t := h.t, sA := h.sA, sB := h.sB, anchorHandler := h.anchorHandler,
      bq := h.bq, pigeonhole := h.pigeonhole, loadq := h.loadq, viq := es })

/-- O39. `deliver` (R401, R402, R250, R251): the one delivery of vector traps, with what each kind of trap leaves first. `vret` (R408) and `aret` (R254);
`checkArea` is the check of count, reserved bytes and words. -/
def Obligations.VectorTrapReturn : Prop :=
  (∀ (s : State), s.dropWork = { s with
    hart := { s.hart with viq := [], window := none, next := [], wait := none, drainViq := false, aldc := none, headAged := none },
    pins := dropPins [s.hart.hid] s.pins, locks := s.locks.filter (fun l => l.hid != s.hart.hid), cores := s.dropWork.cores } ∧
    (∀ n, s.dropWork.core n = { s.core n with arrival := (s.dropWork.core n).arrival }) ∧
    (s.hart.window = none → s.dropWork.cores = s.cores)) ∧
  (∀ (e : VEntry) (cause : Nat) (tval : Word) (side : TrapSide) (younger : List VEntry) (s : State),
    let u := deliver s e cause tval side younger
    let d := (if countsAdmitted cause side then s.countAdmitted e 0 else s).dropWork
    let c : State := match side with
      | .plain => d
      | .admitted => d
      | .marked ms => ms.foldl State.applyMark d
      | .missing pages => (writeMissRecord d pages).countHart 5 (min 64 pages.length) e.mode
      | .overflow k0 k1 => { d with hart := { d.hart with vflags := d.hart.vflags ||| BitVec.ofNat 9 flagDEVOVF, vobm0 := k0, vobm1 := k1 } }
      | .clearNmError => { d with hart := { d.hart with nmError := none } }
    let size := 64 + 64 * (younger.length + 1)
    let bytes := areaBytes s.hart.pc tval cause (e :: younger)
    ((userHandles s.hart cause = false ∨ userArea c e size = none) →
      let base := wordField s.hart.vqsave 6 58 * 64
      let h := { c.hart with vepc := e.pc, vcause := BitVec.ofNat 64 cause, vtval := tval }
      (∀ key, s.hart.vqsave ≠ 0#64 → areaKey s base bytes.length = some key →
        let w := storeRun key bytes { c with hart := h }
        (e.mode ≠ .machine → u = { w with
          hart := w.hart.enterS 24 false s.hart.pc tval, launches := s.faultsCounted false, cores := w.coresCounted u }) ∧
        (e.mode = .machine → u = { w with hart := w.hart.enterM 24 false s.hart.pc tval, cores := w.coresCounted u })) ∧
      ((s.hart.vqsave = 0#64 ∨ areaKey s base bytes.length = none) →
        u = ({ c with hart := h.terminate, launches := s.faultsCounted true } : State).settleOwn)) ∧
    (∀ r p, userHandles s.hart cause = true → userArea c e size = some (r, p) →
      let pieces := p.pieces.flatMap id
      let w := performEntry ⟨pieceWrites pieces bytes, pieceKinds pieces, false, [], []⟩ (commitProbe c [r] [p])
      let z := { w with hart := { w.hart with oldLines := w.hart.oldLines.filter (fun o => !((pieceKeys pieces).contains o.key)) } }
      u = { z with
        hart := { z.hart with
          aepc := e.pc, acause := BitVec.ofNat 64 cause, anchorHandler := true, reservation := none, pc := s.hart.avec &&& ~~~3#64 },
        pins := c.pins, cores := z.coresCounted u })) ∧
  (∀ (s : State), s.atRest = true → s.hart.ssq = [] →
    let base := wordField s.hart.vqsave 6 58 * 64
    (s.hart.mode = .supervisor → (s.profiles s.hart).testBit 0 = true → savedWait s base = none →
      (∀ bs es, savedArea s base = some bs → checkArea s bs 0 s.hart.spp = .ok es →
        exec .vret s = .next (s.onHart (fun h => { h.sret with viq := es })).retire ∧
        (bytesAt bs 0x10 4 = 0 → exec .vret s = .next (s.onHart Hart.sret).retire)) ∧
      (∀ bs v, savedArea s base = some bs → checkArea s bs 0 s.hart.spp = .error v →
        exec .vret s = .next (s.takeTrap 2 false s.hart.pc v)) ∧
      (savedArea s base = none → exec .vret s = .next (s.takeTrap 5 false s.hart.pc (BitVec.ofNat 64 base)))) ∧
    ((s.hart.mode ≠ .supervisor ∨ (s.profiles s.hart).testBit 0 = false) →
      exec .vret s = .next (s.takeTrap 2 false s.hart.pc 0x20005077#64)) ∧
    (s.hart.mode = .user → s.hart.anchorHandler = true → (s.profiles s.hart).testBit 2 = true →
      ∀ bs c es, userSavedArea s (wordField s.hart.aqsave 6 58 * 64) = .ok (bs, c) → checkArea c bs 1 .user = .ok es →
        exec .aret s = .next (c.onHart (fun h =>
          { h with viq := es, anchorHandler := false, pc := BitVec.ofNat 64 (bytesAt bs 0 8) })).retire) ∧
    ((s.hart.mode ≠ .user ∨ s.hart.anchorHandler = false ∨ (s.profiles s.hart).testBit 2 = false) →
      exec .aret s = .next (s.takeTrap 2 false s.hart.pc 0x30005077#64)))

/-- O40. The checks before an effect (R123 to R125): the profile of a launch for the instructions of each profile (R10, R148), `vtype` and groups for the
integer lane instructions, and the trap of a poisoned compare (R205). -/
def Obligations.VectorChecks : Prop :=
  ∀ (m md : MaskNo) (b a d : BitVec 5) (q : QueueNo) (cc : Cond) (n : TileNo) (code : AnchorFloat) (mode : BitVec 2) (s : State),
    s.atRest = true →
    let traps := fun (i : Instr) (cause : Nat) => ∃ e : VEntry, e.pc = s.hart.pc ∧ e.mode = s.hart.mode ∧ encode i = some e.word ∧
      let t := deliver (s.setPc (s.hart.pc + 4#64)) e cause (wordVal e.word) .plain []
      exec i s = .next (if cause = 9 then t.setAdmitted (s.hart.hid / 8) s.hart.hid else t)
    (∀ r ∈ (integerRows m b a d q).map (fun r => (r.instr, 0)) ++ (s.anchorRows b a d code mode).map (fun r => (r.instr, 2)) ++
        (outerRows b a n).map (fun r => (r.1, r.2.1)) ++
        [(.mzero n, 1), (.mscale b a, 1), (.mcvt n a d, 1), (.mmvTv b a n, 1), (.mmvVt b a n, 1), (.mld b a n, 1), (.mst b a n, 1),
         (.ald b a d, 2), (.aldC b a d, 2), (.ast b a d, 2), (.nm b a d, 3)],
      (s.profiles s.hart).testBit r.2 = false →
        ∃ w, encode r.1 = some w ∧ exec r.1 s = .next (s.takeTrap 2 false s.hart.pc (wordVal w))) ∧
    ((s.profiles s.hart).testBit 0 = true → (∀ e, ∀ c ∈ [1, 2, 9], deliveryWait s.dropWork e c .plain [] = none) →
      (∀ r ∈ integerRows m b a d q,
        (s.cfg.vill = true → traps r.instr 2) ∧
        (s.cfg.vill = false → groupOk d.toNat s.cfg.g = false → traps r.instr 1)) ∧
      (s.ready 0 = true → s.cfg.w ≠ 6 → groupOk b.toNat s.cfg.g = true →
        ∀ r ∈ compareRows m b a q md cc, s.operandOk r.2.1 (s.hart.getX a) = true →
          (∃ i ∈ s.actives m, (s.operand r.2.1 (s.hart.getX a) i).2 = true ∨ (groupSrc s b.toNat s.cfg.g s.cfg.sew i).2 = true) →
          traps r.1 9))

/-- O41. The scalar instructions that access no memory (R111): the values of the RV64 base are presumed (log 7). That FS becomes Dirty exactly when an
f register or a flag is written is the model's choice (log 51). -/
def Obligations.ScalarRegisterResult : Prop :=
  ∀ (d ra rb rc : XReg) (i o : BitVec 12) (u : BitVec 20) (sh : BitVec 6) (k : BitVec 5) (dbl : Bool) (n : IntKind) (rm : Rm) (s : State),
    let a := s.hart.getX ra
    let b := s.hart.getX rb
    (∀ r ∈ scalarRows s.hart.pc a b d ra rb i u sh k,
      exec (.scalarBaseInstruction r.1) s = .next { s with hart := s.hart.past.setX d r.2 }) ∧
    (∀ r ∈ [(RvInstr.jal d u, s.hart.pc + (u ++ 0#1 : BitVec 21).signExtend 64), (.jalr d ra i, (a + i.signExtend 64) &&& ~~~1#64)],
      (r.2.toNat % 4 = 0 → exec (.scalarBaseInstruction r.1) s =
        .next { s with hart := { s.hart.past.setX d (s.hart.pc + 4#64) with pc := r.2 } }) ∧
      (r.2.toNat % 4 ≠ 0 → s.hart.hasVectorWork = false →
        exec (.scalarBaseInstruction r.1) s = .next (s.takeTrap 0 false s.hart.pc r.2))) ∧
    (let target := s.hart.pc + (o ++ 0#1 : BitVec 13).signExtend 64
     ∀ r ∈ branchRows a b ra rb o,
      (r.2 = false → exec (.scalarBaseInstruction r.1) s = .next { s with hart := s.hart.past }) ∧
      (r.2 = true → target.toNat % 4 = 0 → exec (.scalarBaseInstruction r.1) s = .next { s with hart := { s.hart.past with pc := target } }) ∧
      (r.2 = true → target.toNat % 4 ≠ 0 → s.hart.hasVectorWork = false →
        exec (.scalarBaseInstruction r.1) s = .next (s.takeTrap 0 false s.hart.pc target))) ∧
    (∀ r ∈ fpRows s.hart dbl n rm d ra rb rc,
      (∀ m, s.hart.fpOn = true → rounding r.2.1 s.hart.frm = some m →
        let y := r.2.2.2 m
        let code := if r.2.2.1 then BitVec.ofNat 64 y.1 else BitVec.ofNat 64 (0xFFFFFFFF00000000 + y.1 % 2 ^ 32)
        exec (.scalarBaseInstruction r.1) s = .next { s with hart := (s.hart.past.setF d code).fpWritten y.2 }) ∧
      (s.hart.fpOn = false ∨ rounding r.2.1 s.hart.frm = none → s.hart.hasVectorWork = false →
        exec (.scalarBaseInstruction r.1) s = .next (s.takeTrap 2 false s.hart.pc ((encodeRv r.1).setWidth 64)))) ∧
    (∀ r ∈ fpIntRows s.hart dbl n rm d ra rb,
      (∀ m, s.hart.fpOn = true → rounding r.2.1 s.hart.frm = some m →
        let y := r.2.2 m
        exec (.scalarBaseInstruction r.1) s =
          .next { s with hart := (if y.2 = 0 then s.hart.past else s.hart.past.fpWritten y.2).setX d y.1 }) ∧
      (s.hart.fpOn = false ∨ rounding r.2.1 s.hart.frm = none → s.hart.hasVectorWork = false →
        exec (.scalarBaseInstruction r.1) s = .next (s.takeTrap 2 false s.hart.pc ((encodeRv r.1).setWidth 64))))

/-- O42. The scalar accesses of memory (R112, R113, R370): `scalarPiece` translates the address and `markScalar` sets the A and D bits (R388). The values
loaded and stored are those of the RV64 base (log 7); that SC succeeds whenever its reservation stands, and what an AMO to a route that is down
returns, are log 13; when a store, a load or an AMO is performed is log 54; that an F or D load makes FS Dirty is the model's choice (log 51). -/
def Obligations.ScalarMemoryResult : Prop :=
  ∀ (d ra rb : XReg) (i : BitVec 12) (s : State),
    let g := s.dataAgent
    let a := s.hart.getX ra
    let va := a + i.signExtend 64
    let z0 := s.scalarsDone
    let now := s.hart.holdSlq = false ∧ s.hart.slq = []
    let stops := fun (x : Instr) (acc : Access) (at_ : Word) (n : Nat) =>
      (∀ cause, scalarPiece s g acc at_.toNat n = .error (.fault cause) → s.hart.hasVectorWork = false →
        exec x s = .next (s.takeTrap cause false s.hart.pc at_)) ∧
      (∀ w, scalarPiece s g acc at_.toNat n = .error (.wait w) → exec x s = .next { s with hart := { s.hart with stall := some w } })
    let waits := fun (x : Instr) => ∀ w, s.hart.ssq.findSome? (entryWait s) = some w →
      exec x s = .next { s with hart := { s.hart with stall := some w } }
    (∀ x : RvInstr, x ∈ (scalarLoads d ra i).map (fun r => r.1) ++ (scalarStores s.hart ra rb i).map (fun r => r.1) →
      usesFp x = true → s.hart.fpOn = false → s.hart.hasVectorWork = false →
      exec (.scalarBaseInstruction x) s = .next (s.takeTrap 2 false s.hart.pc ((encodeRv x).setWidth 64))) ∧
    (∀ r ∈ scalarLoads d ra i, (usesFp r.1 = true → s.hart.fpOn = true) →
      let x := Instr.scalarBaseInstruction r.1
      stops x .read va r.2.1 ∧
      ∀ leaf c, scalarPiece s g .read va.toNat r.2.1 = .ok (leaf, c) →
        let v := s.scalarSees c r.2.1
        (seenBad v = true → s.hart.hasVectorWork = false → exec x s = .next (s.takeTrap 5 false s.hart.pc va)) ∧
        (seenBad v = false →
          (now → let u := markScalar s g .read leaf c
            exec x s = .next { u with hart := r.2.2 u.hart.past (seenValue v) }) ∧
          (¬now → ∃ l, LoadLeft l va c r.2.1 (seenValue v) (leafMark g .read c.va leaf) r.2.2 ∧
            exec x s = .next { s with hart := { s.hart.past with slq := s.hart.slq ++ [l] } }))) ∧
    (∀ r ∈ scalarStores s.hart ra rb i, (usesFp r.1 = true → s.hart.fpOn = true) →
      let x := Instr.scalarBaseInstruction r.1
      stops x .write va r.2.1 ∧
      ∀ leaf c, scalarPiece s g .write va.toNat r.2.1 = .ok (leaf, c) →
        let mark := leafMark g .write c.va leaf
        (s.hart.holdSsq = false → s.hart.ssq = [] →
          let z := s.stored c r.2.1 r.2.2 mark
          exec x s = .next { z with hart := z.hart.past } ∧ storesOnly (mark.elim s s.applyMark) z c.key r.2.1 r.2.2) ∧
        ((s.hart.holdSsq = true ∨ s.hart.ssq ≠ []) →
          exec x s = .next { s with hart := { s.hart.past with ssq := s.hart.ssq ++ [storeOf c r.2.1 r.2.2 mark] } })) ∧
    (∀ (dbl aq rl : Bool),
      let n := if dbl then 8 else 4
      let lr := Instr.lrSc (.lr dbl aq rl d ra)
      let sc := Instr.lrSc (.sc dbl aq rl d ra rb)
      (∀ r ∈ amoRows (8 * n),
        let x := Instr.scalarBaseInstruction (.amo r.1 dbl aq rl d ra rb)
        stops x .write a n ∧
        ∀ leaf c, scalarPiece s g .write a.toNat n = .ok (leaf, c) →
          (routeDown s c.key = true →
            let u := markScalar s g .write leaf c
            exec x s = .next { u with
              freeCounter := s.freeCounter + 1,
              hart := u.hart.past.setX d (((Config.freeValue s.freeCounter).setWidth (8 * n)).signExtend 64) }) ∧
          (routeDown s c.key = false →
            let v := z0.scalarSees c n
            waits x ∧
            (s.scalarsFree = true → seenBad v = true → s.hart.hasVectorWork = false →
              exec x s = .next (s.takeTrap 7 false s.hart.pc a)) ∧
            (s.scalarsFree = true → seenBad v = false →
              let mark := leafMark g .write c.va leaf
              let old := BitVec.ofNat (8 * n) (seenValue v)
              let new := (r.2 old ((s.hart.getX rb).setWidth (8 * n))).setWidth 64
              let z := z0.stored c n new mark
              (now → exec x s = .next { z with hart := z.hart.past.setX d (old.signExtend 64) } ∧
                storesOnly (mark.elim z0 z0.applyMark) z c.key n new) ∧
              (¬now → ∃ l, LoadLeft l a c n (seenValue v) mark (fun h k => h.setX d ((BitVec.ofNat (8 * n) k).signExtend 64)) ∧
                l.read = .amo r.1 d ((s.hart.getX rb).toNat % 2 ^ (8 * n)) ∧
                exec x s = .next { z0 with hart := { z0.hart.past with slq := s.hart.slq ++ [l] } })))) ∧
      (a.toNat % n ≠ 0 → s.hart.hasVectorWork = false → ∀ x ∈ [lr, sc], exec x s = .next (s.takeTrap 6 false s.hart.pc a)) ∧
      (a.toNat % n = 0 → stops lr .read a n ∧ stops sc .write a n ∧
        (∀ leaf c, scalarPiece s g .read a.toNat n = .ok (leaf, c) →
          let v := z0.scalarSees c n
          waits lr ∧
          (s.scalarsFree = true → seenBad v = true → s.hart.hasVectorWork = false →
            exec lr s = .next (s.takeTrap 5 false s.hart.pc a)) ∧
          (s.scalarsFree = true → seenBad v = false →
            let u := markScalar z0 z0.dataAgent .read leaf c
            exec lr s = .next { u with hart := { u.hart.past.setX d ((BitVec.ofNat (8 * n) (seenValue v)).signExtend 64) with
              reservation := some (c.key / 64) } })) ∧
        (∀ leaf c, scalarPiece s g .write a.toNat n = .ok (leaf, c) →
          let holds := s.hart.reservation = some (c.key / 64) ∧ z0.hart.reservation = some (c.key / 64)
          waits sc ∧
          (s.scalarsFree = true → holds →
            let mark := leafMark z0.dataAgent .write c.va leaf
            let z := z0.stored c n (s.hart.getX rb) mark
            exec sc s = .next { z with hart := { z.hart.past.setX d 0#64 with reservation := none } } ∧
            storesOnly (mark.elim z0 z0.applyMark) z c.key n (s.hart.getX rb)) ∧
          (s.scalarsFree = true → ¬holds →
            exec sc s = .next { z0 with hart := { z0.hart.past.setX d 1#64 with reservation := none } }))))

/-- O43. The one entry of every scalar exception and interrupt (R400), what takes it (R117, R123, R403, R404), and the returns; the layout of `mstatus`
and the order of interrupts are presumed (log 7). -/
def Obligations.TrapEntryReturn : Prop :=
  (∀ (cause : Nat) (interrupt : Bool) (epc tval : Word) (s : State),
    let deleg := if interrupt then s.hart.mideleg else s.hart.medeleg
    (s.hart.mode = .machine ∨ deleg.getLsbD cause = false → cause < 64 →
      EnteredM s (s.takeTrap cause interrupt epc tval) cause interrupt epc tval) ∧
    (s.hart.mode ≠ .machine → deleg.getLsbD cause = true → EnteredS s (s.takeTrap cause interrupt epc tval) cause interrupt epc tval)) ∧
  (∀ (w : InstrWord) (s : State),
    let rows := [(Instr.ecall, (match s.hart.mode with | .user => 8 | .supervisor => 9 | .machine => 11), 0#64),
      (.ebreak, 3, s.hart.pc), (.illegalInstruction w, 2, w.setWidth 64)]
    ∀ r ∈ rows,
      (s.hart.hasVectorWork = false → exec r.1 s = .next (s.takeTrap r.2.1 false s.hart.pc r.2.2)) ∧
      (s.hart.hasVectorWork = true → exec r.1 s = .next { s with hart := { s.hart with drainViq := true } })) ∧
  (∀ s : State,
    let m := s.hart.mstatus
    (s.hart.mode = .machine → ∃ t, exec (.scalarBaseInstruction .mret) s = .next t ∧
      let back := if m.extractLsb' 11 2 = 3#2 then Mode.machine else if m.extractLsb' 11 2 = 1#2 then .supervisor else .user
      t = { s with hart := { s.hart.past with pc := s.hart.mepc, mode := back, mstatus := t.hart.mstatus } } ∧
      ∀ k, k < 64 → t.hart.mstatus.getLsbD k =
        if k = 3 then m.getLsbD 7 else if k = 7 then true else if k = 11 ∨ k = 12 then false
        else if k = 17 ∧ back ≠ .machine then false else m.getLsbD k) ∧
    (s.hart.mode ≠ .machine → s.hart.hasVectorWork = false →
      exec (.scalarBaseInstruction .mret) s = .next (s.takeTrap 2 false s.hart.pc 0x30200073#64)) ∧
    (s.hart.mode = .machine ∨ (s.hart.mode = .supervisor ∧ m.getLsbD 22 = false) →
      ∃ t, exec (.scalarBaseInstruction .sret) s = .next t ∧
        t = { s with hart := { s.hart.past with
          pc := s.hart.sepc, mode := if m.getLsbD 8 then .supervisor else .user, mstatus := t.hart.mstatus } } ∧
        ∀ k, k < 64 → t.hart.mstatus.getLsbD k =
          if k = 1 then m.getLsbD 5 else if k = 5 then true else if k = 8 ∨ k = 17 then false else m.getLsbD k) ∧
    (s.hart.mode = .user ∨ (s.hart.mode = .supervisor ∧ m.getLsbD 22 = true) → s.hart.hasVectorWork = false →
      exec (.scalarBaseInstruction .sret) s = .next (s.takeTrap 2 false s.hart.pc 0x10200073#64))) ∧
  (∀ s : State, s.hart.run = .running →
    (∀ cause, s.hart.nextInterrupt = some cause →
      (s.hart.hasVectorWork = false → exec (.interrupt s.hart.hid) s = .next (s.takeTrap cause true s.hart.pc 0#64)) ∧
      (s.hart.mip &&& s.hart.mie).getLsbD cause = true ∧
      (s.hart.mideleg.getLsbD cause = false → s.hart.mode = .machine → s.hart.mstatus.getLsbD 3 = true) ∧
      (s.hart.mideleg.getLsbD cause = true → s.hart.mode ≠ .machine ∧ (s.hart.mode = .supervisor → s.hart.mstatus.getLsbD 1 = true))) ∧
    (s.hart.nextInterrupt = none → exec (.interrupt s.hart.hid) s = .next s))

/-- O44. The Zicsr instructions (R115, R161 to R183, R385, R432, R434), `fence` and `fence.i` (R116), `sfence.vma` (R391) and `wfi` (R114). Which base
registers exist, and their fields, are presumed (log 7); that loads are performed in order, so that a fence orders only stores, is log 3; what a
counter of timing reads, and when its free counts enter it, are log 11 and log 62; when a scalar store is performed is log 54, reserved fields of fence
and fence.i are log 57. -/
def Obligations.ControlRegisterResult : Prop :=
  (∀ (op : CsrOp) (d : XReg) (src : BitVec 5) (n : BitVec 4) (csr : BitVec 12) (s : State),
    ∀ r ∈ csrWriters op d src n csr,
      let c := r.2.toNat
      let word := (encodeCsr op d r.2 src).setWidth 64
      let x := match op with | .rw | .rs | .rc => s.hart.getX src | _ => src.setWidth 64
      (csrAllowed s.hart c true = false → s.hart.hasVectorWork = false → exec r.1 s = .next (s.takeTrap 2 false s.hart.pc word)) ∧
      ((csrExists c = false ∨ s.hart.mode.bits < c / 256 % 4 ∨ 0xC00 ≤ c) → csrAllowed s.hart c true = false) ∧
      (csrAllowed s.hart c true = true →
        (csrOrdered c = true → s.hart.hasVectorWork = true → exec r.1 s = .next { s with hart := { s.hart with drainViq := true } }) ∧
        ((csrOrdered c = false ∨ s.hart.hasVectorWork = false) →
          (d = 0#5 → (op = .rw ∨ op = .rwi) →
            let z := s.csrWritten c x
            exec r.1 s = .next { z with hart := z.hart.pastCsr c }) ∧
          (¬(d = 0#5 ∧ (op = .rw ∨ op = .rwi)) →
            let old := csrValue s c
            let z := old.2.csrWritten c (csrStored op old.1 x)
            exec r.1 s = .next { z with hart := (z.hart.setX d old.1).pastCsr c })))) ∧
  (∀ (clear imm : Bool) (d : XReg) (csr : BitVec 12) (s : State),
    let c := csr.toNat
    let i := Instr.scalarBaseInstruction (.csrRead clear imm d csr)
    (csrAllowed s.hart c false = false → s.hart.hasVectorWork = false →
      exec i s = .next (s.takeTrap 2 false s.hart.pc ((encodeRv (.csrRead clear imm d csr)).setWidth 64))) ∧
    (csrAllowed s.hart c false = true →
      (csrOrdered c = true → s.hart.hasVectorWork = true → exec i s = .next { s with hart := { s.hart with drainViq := true } }) ∧
      ((csrOrdered c = false ∨ s.hart.hasVectorWork = false) →
        let v := csrValue s c
        exec i s = .next { v.2 with hart := v.2.hart.past.setX d v.1 }))) ∧
  (∀ s : State, ∀ x ∈ csrShown s, (csrValue s x.1).1 = x.2) ∧
  (∀ (fm p q : BitVec 4) (imm : BitVec 12) (a d : XReg) (s : State),
    let z := s.scalarsDone
    (p.getLsbD 0 = false → p.getLsbD 2 = false → exec (.fence fm p q a d) s = .next { s with hart := s.hart.past }) ∧
    (∀ i ∈ (if p.getLsbD 0 || p.getLsbD 2 then [Instr.fence fm p q a d] else []) ++ [.fenceI imm a d],
      (s.scalarsFree = true → exec i s = .next { z with hart := z.hart.past }) ∧
      (∀ w, s.hart.ssq.findSome? (entryWait s) = some w → exec i s = .next { s with hart := { s.hart with stall := some w } }))) ∧
  (∀ (a b : XReg) (s : State),
    let page := if a = 0#5 then none else some ((s.hart.getX a).toNat / 4096)
    let asid := if b = 0#5 then none else some ((s.hart.getX b).toNat % 65536)
    let word := 0x12000073#64 ||| b.setWidth 64 <<< 20 ||| a.setWidth 64 <<< 15
    let legal := s.hart.mode = .machine ∨ (s.hart.mode = .supervisor ∧ s.hart.mstatus.getLsbD 20 = false)
    (¬legal → s.hart.hasVectorWork = false → exec (.sfenceVma a b) s = .next (s.takeTrap 2 false s.hart.pc word)) ∧
    (legal → s.hart.hasVectorWork = true → exec (.sfenceVma a b) s = .next { s with hart := { s.hart with drainViq := true } }) ∧
    (legal → s.hart.hasVectorWork = false →
      let realm := s.realmOf s.hart
      let z := s.scalarsDone
      ((∃ p ∈ s.pins, fenceDrops realm page asid p.entry = true) →
        exec (.sfenceVma a b) s = .next { s with hart := { s.hart with stall := some .memory } }) ∧
      ((∀ p ∈ s.pins, fenceDrops realm page asid p.entry = false) →
        (s.scalarsFree = true → exec (.sfenceVma a b) s = .next { z with
          hart := z.hart.past, tlb := z.tlb.filter (fun t => !(fenceDrops realm page asid t)) }) ∧
        (∀ w, s.hart.ssq.findSome? (entryWait s) = some w →
          exec (.sfenceVma a b) s = .next { s with hart := { s.hart with stall := some w } })))) ∧
  (∀ s : State,
    (s.hart.mode = .user → s.hart.hasVectorWork = false → exec .wfi s = .next (s.takeTrap 2 false s.hart.pc 0x10500073#64)) ∧
    (s.hart.mode ≠ .user → s.hart.mip &&& s.hart.mie ≠ 0#64 → exec .wfi s = .next { s with hart := s.hart.past }) ∧
    (s.hart.mode ≠ .user → s.hart.mip &&& s.hart.mie = 0#64 →
      exec .wfi s = .next { s with hart := { s.hart with stall := some .interrupt } }))

/-- O45. What the events of one hart do (R31, R32, R35, R48, R105, R250, R317, R334, R354, R359, R360, R401, R409, R445); when each comes, is the
model's (log 1, 2). -/
def Obligations.HartEventResult : Prop :=
  (∀ (hid : Nat) (s : State), hid ≠ s.hart.hid → ∀ e ∈ hartEvents,
    (s.others.any (fun h => h.hid == hid) = false → exec (e hid) s = .next s) ∧
    (∀ u, s.others.any (fun h => h.hid == hid) = true → exec (e hid) (s.switchTo hid) = .next u →
      exec (e hid) s = .next (u.switchTo s.hart.hid))) ∧
  (∀ s : State, s.hart.run ≠ .running → ∀ e ∈ runningEvents, exec (e s.hart.hid) s = .next s) ∧
  (∀ s : State, s.hart.run = .running →
    let hid := s.hart.hid
    (exec (.viqHeadAged hid) s = .next (if s.hart.viq ≠ [] ∧ s.hart.headAged = none then
        { s with hart := { s.hart with headAged := some s.nextKey }, nextKey := s.nextKey + 1 } else s)) ∧
    (s.issuing = none → exec (.microOpIssue hid) s = .next s) ∧
    (∀ w, s.issuing = some w →
      let core := hid / 8
      let c := s.core core
      let f := issuedIn c w
      (w ∈ s.hart.windowed ∧ w.microOps ≠ 0 ∧
        (∀ p ∈ s.hart.windowed, w.producers.contains p.age = true → p.microOps = 0 ∨
          (c.chains p.unit w.unit = true ∧ w.total - w.microOps < p.total - p.microOps)) ∧
        (∀ h ∈ s.others, h.hid / 8 = core → s.quadsOf h &&& s.quadsOf s.hart ≠ 0#4 → ∀ x, s.issuer h = some x → w.age ≤ x.age)) ∧
      ∃ t, exec (.microOpIssue hid) s = .next t ∧
        t = { s with
          hart := { s.hart with window := s.hart.window.map f, next := s.hart.next.map f },
          cores := s.cores.setIfInBounds core { c with
            hpm := (t.core core).hpm, gated := c.gated &&& ~~~(s.issueLanes w.total w.uses.extent (w.total - w.microOps)) } }) ∧
    (∀ w, s.hart.window = some w →
      (∀ x, (x = Instr.vectorInstructionComplete hid ∨ (x = .lineLockRelease hid ∧ s.locks.any (fun l => l.hid == hid) = true)) →
        (w.microOps ≠ 0 → exec x s = .next s) ∧ (w.microOps = 0 → ∃ t, exec x s = .next t ∧ WindowEnded s w t))) ∧
    (s.hart.window = none → ∀ x ∈ [Instr.vectorInstructionComplete hid, .lineLockRelease hid], exec x s = .next s) ∧
    (s.locks.any (fun l => l.hid == hid) = false → exec (.lineLockRelease hid) s = .next s) ∧
    (∀ e younger, s.hart.window = none → s.hart.viq = e :: younger →
      (∀ r ∈ retries hid, ∀ why, s.hart.wait = some why → r.2 why = true →
        (why = .aldc → ∃ a, s.hart.aldc = some a ∧ a.earliest ≤ s.time.toNat) →
        ∃ t, exec r.1 s = .next t ∧ Ended s e younger t) ∧
      (∀ n, s.hart.wait = some (.pins n) →
        (∀ h ∈ s.others, h.hid / 8 = hid / 8 → ∀ k, h.wait = some (.pins k) → n ≤ k) →
        ∃ t, exec (.pinEntriesFree (hid / 8)) s = .next t ∧ Ended s e younger t)) ∧
    (∀ e younger r, ((s.hart.window = none ∧ s.hart.viq = e :: younger ∧ r = entryEffect e s.headState) ∨
        (∃ w, s.hart.window = some w ∧ e = w.entry ∧ younger = s.hart.next.map InFlight.entry ++ s.hart.viq ∧ r = entryEffect e (windowState w s))) →
      ∀ cause tval side, r = .error (.trap cause tval side) →
        let user := deliversToUser s e cause younger
        let u := if deliveryWait s.dropWork e cause side younger = none then deliver s e cause tval side younger else s
        exec (.vectorTrap hid) s = .next (if user then s else u) ∧
        exec (.userAnchorDelivery hid) s = .next (if user then u else s)) ∧
    (s.hart.wait = none → ∀ r ∈ retries hid, exec r.1 s = .next s) ∧
    (let u := { s.dropWork with
        hart := s.dropWork.hart.terminate,
        launches := match s.launchOf s.hart with
          | some l => s.launches.map (fun (o : Launch) => if o.key = l.key then { l with terminated := true } else o)
          | none => s.launches }
     let z := u.settleOwn.wake .lineLock
     exec (.supervisorTerminate hid) s = .next z ∧
     let card := { z.report with
       fatal := min (2 ^ 32 - 1) (z.report.fatal + 1), sequence := min (2 ^ 64 - 1) (z.report.sequence + 1), written := z.time }
     exec (.hartFatalError hid) s = .next { z with report := card, flashReport := card })) ∧
  (∀ (core : Nat) (s : State), (∀ h ∈ s.harts, h.hid / 8 = core → ∀ n, h.wait ≠ some (.pins n)) → exec (.pinEntriesFree core) s = .next s)

/-- O46. Admission (R32); that an admitted instruction runs whole, or is held in the window by the schedule, and which instructions enter the window
behind others of their hart, is log 2. -/
def Obligations.AdmissionResult : Prop :=
  (∀ (core : Nat) (s : State), (∀ hid ∈ admissionOrder s core, admitOn s hid = none) → exec (.viqAdmission core) s = .next s) ∧
  (∀ (core hid : Nat) (before after : List Nat) (t s : State), admissionOrder s core = before ++ hid :: after →
    (∀ x ∈ before, admitOn s x = none) → admitOn s hid = some t →
    exec (.viqAdmission core) s = .next t) ∧
  (∀ s : State,
    (s.hart.run ≠ .running ∨ s.hart.viq = [] ∨ s.attemptLater = true ∨ 128 ≤ windowLoad s (coreOfHart s.hart.hid) →
      admitOn s s.hart.hid = none) ∧
    (∀ e younger, s.hart.run = .running → s.hart.viq = e :: younger → s.attemptLater = false →
      windowLoad s (coreOfHart s.hart.hid) < 128 →
      (s.hart.window = none →
        let r := entryEffect e s.headState.metering
        (∀ why u, r = .error (.wait why u) → admitOn s s.hart.hid = none) ∧
        (∀ cause tval side, r = .error (.trap cause tval side) →
          ∃ t, Ended s e younger t ∧ admitOn s s.hart.hid = some (t.switchTo s.hart.hid)) ∧
        (∀ u, r = .ok u →
          (s.hart.holdWindow = false → s.lanesBusy = true → admitOn s s.hart.hid = none) ∧
          (s.hart.holdWindow = false → s.lanesBusy = false →
            ∃ t, Ended s e younger t ∧ admitOn s s.hart.hid = some (t.switchTo s.hart.hid)) ∧
          (s.hart.holdWindow = true → ∃ t, WindowEntered s e younger u t ∧ admitOn s s.hart.hid = some t))) ∧
      (s.hart.window.isSome = true →
        (followsInWindow e.word = false → admitOn s s.hart.hid = none) ∧
        (s.hart.windowed.foldl foresee (some s) = none → admitOn s s.hart.hid = none) ∧
        (∀ v, followsInWindow e.word = true → s.hart.windowed.foldl foresee (some s) = some v →
          let r := entryEffect e (v.alone.onHart (fun h => { h with window := none, next := [] })).metering
          (∀ x, r = .error x → admitOn s s.hart.hid = none) ∧
          (∀ u, r = .ok u →
            let room := borrowed s.hart.size.toNat s.hart.held (u.metered 1) ≤ s.unreserved (coreOfHart s.hart.hid)
            (¬room → admitOn s s.hart.hid = none) ∧
            (room → ∃ t, WindowEntered s e younger { u with pins := s.pins, locks := [] } t ∧ admitOn s s.hart.hid = some t)))))) ∧
  (∀ (core : Nat) (s : State) (h o : Hart), h ∈ s.harts → o ∈ s.harts → (s.harts.map Hart.hid).Nodup →
    coreOfHart h.hid = core → coreOfHart o.hid = core → h.viq ≠ [] → o.viq ≠ [] →
    ∀ k, h.headAged = some k → (o.headAged = none ∨ ∃ j, o.headAged = some j ∧ k < j) →
      ∃ before middle after, admissionOrder s core = before ++ h.hid :: (middle ++ o.hid :: after))

/-- O47. The events of the memories. Firmware raises the map-out events. The units that some errors poison are log 44; accesses are whole in their step, so
nothing waits in the CXL and row queues by itself (log 48); the order of the slots is log 63. -/
def Obligations.MemoryEventResult : Prop :=
  (∀ (source : ErrorSource) (addr : Word) (s : State),
    let a := addr.toNat % 2 ^ 53
    (∀ u, s.errorUnits source a = some u → ∃ t, exec (.uncorrectableError source addr) s = .next t ∧ Poisoned s t source u.1 u.2) ∧
    (s.errorUnits source a = none → exec (.uncorrectableError source addr) s = .next s) ∧
    (exec (.l1dParityError addr false) s = .next s) ∧
    (exec (.l1dParityError addr true) s = exec (.uncorrectableError .l1d addr) s)) ∧
  (∀ (stack layer : Nat) (s : State), stack < 8 → layer < 16 →
    let i := 16 * stack + layer
    exec (.correctableError stack layer) s = .next { s with report := { s.report with
      corrected := s.report.corrected.setIfInBounds i (oneMore (s.report.corrected.toList.getD i 0)) } }) ∧
  (∀ (n stack layer : Nat) (r : Region) (s : State), s.regions[n]? = some r → stack < 2 → layer < 16 →
    let moving := r.redirects.any (fun e => !e.done)
    let known := r.redirects.any (fun e => e.stack == stack && e.layer == layer)
    let cap := 32 - (r.redirects.filter (fun e => e.done)).length
    (s.boot ≠ .running ∨ r.vacating.isSome = true ∨ moving = true ∨ known = true → exec (.layerMapOut n stack layer) s = .next s) ∧
    (s.boot = .running → r.vacating = none → moving = false → known = false →
      (r.redirects.length < 4 → exec (.layerMapOut n stack layer) s = .next { s.withRegion n { r with vacating := some (stack, layer) } with
        systemEvents := s.systemEvents ++ [.hotRemove n ((cap - 1) * 2 ^ 33) (cap * 2 ^ 33 - 1)] }) ∧
      (4 ≤ r.redirects.length →
        exec (.layerMapOut n stack layer) s = .next { s with systemEvents := s.systemEvents ++ [.degraded n] })) ∧
    (r.vacating = none → exec (.mapOutVacated n) s = .next s) ∧
    (r.vacating = some (stack, layer) → exec (.mapOutVacated n) s = .next {
      s.withRegion n { r with
        vacating := none, redirects := r.redirects ++ [⟨false, cap, stack, layer, 0⟩], flash := r.redirects ++ [⟨false, cap, stack, layer, 0⟩] } with
      mapOut := s.mapOut ||| BitVec.ofNat 4 (2 ^ n) }) ∧
    (moving = false ∨ s.memReady = false ∨ s.booted = false → exec (.mapOutLineMove n) s = .next s) ∧
    (∀ e, s.memReady = true → s.booted = true → r.redirects.find? (fun e => !e.done) = some e →
      let line := n * 0x4000000000 + e.cursor / 16 * 32768 + e.layer * 2048 + e.stack * 1024 + e.cursor % 16 * 64
      let last := decide ((e.top - 1) * 4194304 ≤ e.cursor + 1)
      let after := r.redirects.map (fun o => if o.done then o else { e with cursor := e.cursor + 1, done := last })
      let layers := (List.range 32).filter (fun i => r.redirects.all (fun o => 2 * o.layer + o.stack != i))
      let k := e.cursor / 16
      let slot := n * 0x4000000000 + (e.top - 1) * 2 ^ 33 + k / layers.length * 32768 + layers.getD (k % layers.length) 0 * 1024 +
        e.cursor % 16 * 64
      ∃ t, exec (.mapOutLineMove n) s = .next t ∧
        t = { s.withRegion n { r with
              redirects := after, slots := BitVec.ofNat 64 slot :: r.slots, flash := if last then after else r.flash } with
          errors := t.errors, errHead := t.errHead,
          mapOut := if last then s.mapOut &&& ~~~(BitVec.ofNat 4 (2 ^ n)) else s.mapOut,
          report := if last then
            { s.report with mapOuts := s.report.mapOuts.setIfInBounds n (oneMore (s.report.mapOuts.toList.getD n 0)) } else s.report } ∧
        (anyPoison s line 64 = false → t.errors = s.errors ∧ t.errHead = s.errHead) ∧
        (anyPoison s line 64 = true →
          (s.errors.any (fun x => x.address == line) = true → t.errHead = s.errHead ∧
            t.errors = s.errors.map (fun x => if x.address = line then { x with flags := x.flags ||| 5#4 } else x)) ∧
          (s.errors.any (fun x => x.address == line) = false → Recorded s t 1 line (placeIs .hbm line) 5)))) ∧
  (∀ (die : Nat) (s : State), die < 4 →
    exec (.phyTrainingComplete false die) s = .next { s with phy := s.phy ||| BitVec.ofNat 4 (2 ^ die) } ∧
    exec (.phyTrainingComplete true die) s = .next { s with d2d := s.d2d ||| BitVec.ofNat 4 (2 ^ die) }) ∧
  (∀ s : State,
    (s.phy ≠ 0xF#4 ∨ s.d2d ≠ 0xF#4 → exec .memready s = .next s) ∧
    (s.phy = 0xF#4 → s.d2d = 0xF#4 → ∃ t, exec .memready s = .next t ∧
      t = { s with
        memReady := true, mapOut := t.mapOut,
        routes := s.routes.map (fun r => if r.status = .untrained then { r with status := .retraining s.time } else r),
        hart := s.hart.clearStall .memory, others := s.others.map (Hart.clearStall .memory) } ∧
      ∀ n r, s.regions[n]? = some r → t.mapOut.getLsbD n = r.redirects.any (fun e => !e.done))) ∧
  (∀ (n : Nat) (e : Expander) (s : State), s.expanders[n]? = some e →
    (n ∉ s.cxlQueue ∨ 512 ≤ e.outstanding → exec (.cxlRequestIssue n) s = .next s) ∧
    (∀ before after, s.cxlQueue = before ++ n :: after → n ∉ before → e.outstanding < 512 →
      exec (.cxlRequestIssue n) s = .next { s with
        cxlQueue := before ++ after, expanders := s.expanders.setIfInBounds n { e with outstanding := e.outstanding + 1 } })) ∧
  (∀ (n channel : Nat) (r : Region) (s : State), s.regions[n]? = some r →
    exec (.rowActivation n channel) s = .next { s with rows := s.rows.map (fun q =>
      let recent := q.recent.filter (fun x => decide (s.time.toNat < x + r.window))
      if q.region = n ∧ q.channel = channel ∧ q.waiting ≠ 0 ∧ recent.length < 4 then
        { q with waiting := q.waiting - 1, recent := s.time.toNat :: recent } else q) }) ∧
  (∀ (hid : Nat) (s : State), ∀ i ∈ [Instr.callGraphPrefetch hid, .sequentialPrefetch hid], exec i s = .next s)

/-- O48. Stores that a hart holds back (R318), arrival copies (R298) and the lines of near-memory commands (R339 to R341); when each event happens is
left to the device (log 1, 3); which old bytes the vector loads of its hart may still read is log 8 (`State.keepOld`). -/
def Obligations.StoreCommandEventResult : Prop :=
  (∀ s : State,
    let x := Instr.storePerformed (.hart s.hart.hid)
    (s.hart.vsq = [] → exec x s = .next s) ∧
    (∀ e rest, s.hart.vsq = e :: rest →
      ((entryWait s e).isSome = true → exec x s = .next s) ∧
      (entryWait s e = none →
        let u := performEntry e s
        let v : State := { u with hart := Hart.refresh (e.writes.map ByteWrite.key) { u.hart with vsq := rest } }
        let done := v.hart.isHalted && rest.isEmpty && v.hart.ssq.isEmpty && v.hart.slq.isEmpty
        exec x s = .next (((if done then v.settleOwn else v).wake .storeRoom).wake .memory)))) ∧
  (∀ (gang : Nat) (before after : List PassedStore) (p : PassedStore) (s : State),
    s.passed = before ++ p :: after → (∀ q ∈ before, q.gang ≠ gang) → p.gang = gang →
    let waits := p.entry.pending.any (fun w => s.locks.any (fun l => l.line == w.key / 64) || routeWaits s w.key)
    exec (.storePerformed (.passed gang)) s = .next (if waits then s else performEntry p.entry { s with passed := before ++ after })) ∧
  (∀ (gang : Nat) (s : State), (∀ q ∈ s.passed, q.gang ≠ gang) → exec (.storePerformed (.passed gang)) s = .next s) ∧
  (∀ (core bank bytes : Nat) (s : State), core < 128 →
    (copyInFlight s core bank = none → exec (.arrivalPointerAdvance core bank bytes) s = .next s) ∧
    (∀ hid i e, copyInFlight s core bank = some (hid, i, e) →
      let pointer := arrivalPointer s core bank
      let limit := min (pointer + bytes / 8 * 8) (bankEnd core bank e)
      let waits := e.pending.any (fun w => s.locks.any (fun l => l.line == w.key / 64) || routeWaits s w.key)
      (limit ≤ pointer ∨ waits = true → exec (.arrivalPointerAdvance core bank bytes) s = .next s) ∧
      (pointer < limit → waits = false → ∃ t, exec (.arrivalPointerAdvance core bank bytes) s = .next t ∧
        let lands := fun (w : ByteWrite) => (offsetIn core bank w.key).any (fun o => decide (o < limit))
        (e.marks = [] → t.mem = (storeBytes (e.pending.filter lands) s).mem) ∧
        arrivalPointer t core bank =
          if e.pending.all lands then Config.bankBytes else limit))) ∧
  (∀ (cmd line : Nat) (c : NmCommand) (key : Nat) (s : State), s.nq[cmd]? = some c → c.dst[line]? = some key →
    let locked := fun k => s.locks.any (fun l => l.line == k / 64)
    let source := c.src[line]?
    let kinds := (key :: source.toList).foldl (fun t k => setPageKind t (k / 4096) 0) s
    let bad := anyPoison s key 64 || source.any (fun k => anyPoison s k 64)
    (c.done.contains line = true ∨ c.skipped.contains line = true ∨ locked key = true ∨ source.any locked = true →
      exec (.nmLineApply cmd line) s = .next (s.wake .nmDrain)) ∧
    (c.done.contains line = false → c.skipped.contains line = false → locked key = false → source.any locked = false →
      (bad = false →
        let f := if c.fmt = 0 then FFmt.fp32 else .bf16
        let w := if c.fmt = 0 then 4 else 2
        let elem := fun base i => ofBytes (readKeys s (base + w * i) w)
        let val := fun base i => decodeFloat f (elem base i)
        let a := decodeFloat .fp32 c.a.toNat
        let b := decodeFloat .fp32 c.b.toNat
        let new := fun i => match c.op, source with
          | 0, _ => 0
          | 1, some k => elem k i
          | 2, some k => (fAdd f .rne (val key i) (val k i)).1
          | 3, _ => (fMul f .rne a (val key i)).1
          | 4, some k => (fAdd f .rne (fMulExact a (val k i)) (fMulExact b (val key i))).1
          | 5, some k => (fAdd f .rne (fMulExact a (val key i)) (fMulExact b (val k i)).negate).1
          | _, _ => 0
        (c.op ≤ 5 ∧ (source.isSome = true ∨ c.op = 0 ∨ c.op = 3)) →
        let y := storeRun key ((List.range (64 / w)).flatMap (fun i => toBytes w (new i)))
          { kinds.keepOld c key with nq := s.nq.set cmd { c with done := line :: c.done, lastTime := s.time } }
        exec (.nmLineApply cmd line) s = .next (State.wake
          { y with stale := y.stale.filter (fun x => !(decide (key ≤ x.key) && decide (x.key < key + 64))) } .nmDrain)) ∧
      (bad = true → ∃ t, exec (.nmLineApply cmd line) s = .next t ∧
        let at_ := key / 64 * 64
        t = { kinds with
          hart := s.hart.clearStall .nmDrain, others := s.others.map (Hart.clearStall .nmDrain),
          nq := s.nq.set cmd { c with skipped := line :: c.skipped, lastTime := s.time },
          poison := addPoison s.poison ⟨at_, 64⟩, errors := t.errors, errHead := t.errHead } ∧
        Recorded s t 7 at_ (placeIs .nearMemory at_) 9))) ∧
  (∀ (cmd : Nat) (c : NmCommand) (s : State), s.nq[cmd]? = some c →
    let blocked := s.locks.any (fun l => l.line == c.record / 64)
    (c.linesDone = false ∨ blocked = true → exec (.nmCompletionRecord cmd) s = .next s) ∧
    (c.linesDone = true → blocked = false →
      let record := toBytes 4 (if c.skipped = [] then 1 else 2) ++ toBytes 4 c.tag.toNat ++ toBytes 8 c.lastTime.toNat ++
        toBytes 4 c.done.length ++ toBytes 4 ((leastOf c.skipped).getD 0xFFFFFFFF) ++ toBytes 8 0 ++
        toBytes 32 (c.done.foldl (fun m l => m ||| 2 ^ l) 0)
      let put := fun (k : Nat) (bs : List Byte) (z : State) =>
        let y := storeRun k bs z
        c.kinds.foldl (fun t g => setPageKind t g.1 g.2)
          ({ y with stale := y.stale.filter (fun x => !(decide (k ≤ x.key) && decide (x.key < k + bs.length))) } : State)
      (c.half = false → exec (.nmCompletionRecord cmd) s =
        .next (put (c.record + 8) (record.drop 8) { s with nq := s.nq.set cmd { c with half := true } })) ∧
      (c.half = true →
        let u := put c.record (record.take 8) { s with nq := s.nq.eraseIdx cmd }
        exec (.nmCompletionRecord cmd) s = .next (((if c.skipped = [] then u else u.noteNmError c).wake .nmDrain).wake .nmRoom))))

/-- O49. The dispatchers where nothing is switched out (R22 to R29, R49, R296, R350, R351, R468); the orders that the spec leaves open are log 18. That a restored hart has
the desk of its record as SIZE and that the hart of rank r takes the r-th hart number (log 45), that submissions in flight hold back a held
successor (log 46), and that a rejected head waits for a lock on its completion record (log 12) are the model's readings. -/
def Obligations.DispatcherQueueResult : Prop :=
  (∀ (q : Nat) (s : State),
    let x := s.queue q
    (x.head = none → exec (.launchCheck q) s = .next s) ∧
    (∀ h r rest, x.head = some h → x.records = r :: rest →
      (h.launch.isSome = true → exec (.launchCheck q) s = .next s) ∧
      (h.launch = none → firstFailing r ≠ 0 → checkLocked s q = true → exec (.launchCheck q) s = .next s) ∧
      (h.launch = none → checkLocked s q = false →
        (firstFailing r ≠ 0 → exec (.launchCheck q) s = .next ((writeCompletion s q r (firstFailing r) 0).popQueue q)) ∧
        (firstFailing r = 0 → exec (.launchCheck q) s = .next { s with
          nextKey := s.nextKey + 1, launches := s.launches ++ [⟨s.nextKey, q, r, 0, 0, 0, false⟩],
          queues := s.queues.setIfInBounds q { x with head := some { h with launch := some s.nextKey } } }))) ∧
    (∀ h, x.head = some h → exec (.queueHeadAging q) s = .next { s with queues := s.queues.setIfInBounds q { x with
      head := some { h with raised := min 7 ((s.time - h.since).toNat / 1000000) } } }) ∧
    (x.head = none → exec (.queueHeadAging q) s = .next { s with queues := s.queues.setIfInBounds q x }) ∧
    (x.held = [] ∨ x.enable = false ∨ 64 ≤ x.records.length + s.inFlightTo q → exec (.heldSuccessorEntersQueue q) s = .next s) ∧
    (∀ r rest, q < 64 → x.held = r :: rest → x.enable = true → x.records.length + s.inFlightTo q < 64 →
      exec (.heldSuccessorEntersQueue q) s = .next { s with queues := s.queues.setIfInBounds q { x with
        held := rest, records := x.records ++ [r], head := some (x.head.getD ⟨s.time, 0, none⟩) } })) ∧
  (∀ s : State,
    (s.hart.lq = [] → exec (.lqRecordEntersQueue s.hart.hid) s = .next s) ∧
    (∀ e rest, s.hart.lq = e :: rest →
      let x := s.queue e.queue
      exec (.lqRecordEntersQueue s.hart.hid) s = .next (State.wake { s with
        hart := { s.hart with lq := rest },
        queues := s.queues.setIfInBounds e.queue { x with
          records := x.records ++ [e.record], head := some (x.head.getD ⟨s.time, 0, none⟩) } } .queueRoom))) ∧
  (∀ (die core quads : Nat) (q : Option Nat) (w : Want) (s : State), firstFit s die = some ((q, w), (core, quads)) →
    let room := roomOf s core []
    let r := w.record
    (core / 32 = die ∧ recField r 0x34 1 ≤ room.harts.length ∧ w.registers ≤ room.registers ∧
      recField r 0x34 1 * recField r 0x37 1 ≤ room.tiles ∧ ceilDiv (recField r 0x38 4) 24576 ≤ room.banks.length ∧
      recField r 0x3C 2 ≤ room.barriers ∧
      (∀ n, n < 4 → quads.testBit n = true → room.exclusive.testBit n = false ∨ recField r 0x58 1 % 8 ≠ 0) ∧
      (recField r 0x58 1 % 8 ≠ 0 → quads &&& room.held = 0)) ∧
    (∀ l, w.saved = none → s.findLaunch w.launch = some l →
      let hids := room.harts.take (recField l.record 0x34 1)
      exec (.gangRestore die) s = .next s ∧
      ∃ t, exec (.gangPlacement die) s = .next t ∧
        t.gangs = s.gangs ++ [
          { key := s.nextKey, launch := l.key, number := l.placed, core := core, harts := hids, quads := BitVec.ofNat 4 quads,
            exclusive := decide (recField l.record 0x58 1 % 8 ≠ 0), vgrantmax := 0xF#4, reclaim := none,
            barriers := List.replicate (recField l.record 0x3C 2 + 1) ⟨recField l.record 0x34 1, none, 0, []⟩,
            banks := room.banks.take (ceilDiv (recField l.record 0x38 4) 24576), order := s.nextKey,
            sliceEnd := if recField l.record 0x50 4 = 0 then none
              else some (s.time + BitVec.ofNat 64 (1000 * recField l.record 0x50 4)),
            sliceExhausted := false, saved := none }] ∧
        t.launches = s.launches.map (fun o => if o.key = l.key then { l with placed := l.placed + 1 } else o) ∧
        t.roundRobin = s.roundRobin.setIfInBounds die (q.getD 0) ∧ t.nextKey = s.nextKey + 1 ∧
        (let banks := (room.banks.take (ceilDiv (recField l.record 0x38 4) 24576)).map (bankKey core)
         let outside := fun (k : Nat) => banks.all (fun b => !(decide (b ≤ k) && decide (k < b + 24576)))
         t.mem = s.mem.filter (fun c => outside c.1) ∧ t.poison = s.poison.filter (fun u => outside u.base)) ∧
        t.queues = (if l.placed + 1 = recField l.record 0x30 4 then (s.popQueue (q.getD 0)).queues else s.queues) ∧
        (∀ hid rank, (hid, rank) ∈ hids.zipIdx → hid ≠ s.hart.hid ∨ s.hart.run = .free →
          ∃ h, t.findHart hid = some h ∧ Started h hid s.nextKey l.placed rank l.record)) ∧
    (∀ key g v, w.saved = some key → s.findGang key = some g → g.saved = some v →
      let hids := room.harts.take (recField (s.recordOf g) 0x34 1)
      let banks := room.banks.take (ceilDiv (recField (s.recordOf g) 0x38 4) 24576)
      exec (.gangPlacement die) s = .next s ∧
      ∃ t, exec (.gangRestore die) s = .next t ∧
        (∃ g', t.gangs = s.gangs.map (fun o => if o.key = g.key then g' else o) ∧
          g'.key = g.key ∧ g'.core = core ∧ g'.harts = hids ∧ g'.quads = BitVec.ofNat 4 quads ∧ g'.banks = banks ∧ g'.saved = none ∧
          g'.barriers = g.barriers.map (fun b => b.settle (haltedRanks t g'))) ∧
        (let bases := banks.map (bankKey core)
         let outside := fun (k : Nat) => bases.all (fun b => !(decide (b ≤ k) && decide (k < b + 24576)))
         let at_ := fun (o : Nat) => bases.getD (o / 24576) 0 + o % 24576
         t.mem = v.scratchpad.foldl (fun m c => memWrite m (at_ c.1) c.2) (s.mem.filter (fun c => outside c.1)) ∧
         t.poison = v.padPoison.foldl (fun l o => addPoison l ⟨at_ o, 8⟩) (s.poison.filter (fun u => outside u.base))) ∧
        t.launches = s.launches ∧ t.queues = s.queues ∧
        (v.harts.length ≤ 8 →
          (∀ k, (v.harts.filter (fun h => h.rank == k)).length = if k < v.harts.length then 1 else 0) →
          ∀ hid h, hids[h.rank]? = some hid → h ∈ v.harts → (hid ≠ s.hart.hid ∨ s.hart.run = .free) →
          t.findHart hid = some { h with hid := hid, size := BitVec.ofNat 8 (recField (s.recordOf g) 0x36 1) }))) ∧
  (∀ (die : Nat) (s : State), firstFit s die = none →
    exec (.gangRestore die) s = .next s ∧
    exec (.gangPlacement die) s = .next (match firstRoom s die with
      | some (.hallPass g keep cut) => s.putGang (match g.reclaim with
        | some r => { g with vgrantmax := g.vgrantmax &&& BitVec.ofNat 4 keep, reclaim := some { r with deskCut := max r.deskCut cut } }
        | none => { g with vgrantmax := BitVec.ofNat 4 keep, reclaim := some ⟨s.time + 50000#64, cut⟩ })
      | _ => s)) ∧
  (∀ (key : Nat) (s : State),
    (s.findLaunch key = none → exec (.launchComplete key) s = .next s) ∧
    (∀ l, s.findLaunch key = some l →
      (launchDone s l = false → exec (.launchComplete key) s = .next s) ∧
      (launchDone s l = true →
        let u := enqueueSuccessor (writeCompletion s l.queue l.record (if l.terminated then 4 else 0) l.faults) l.queue l.record
        exec (.launchComplete key) s = .next { u with
          launches := u.launches.filter (fun o => o.key != l.key), gangs := u.gangs.filter (fun g => g.launch != l.key) }))) ∧
  (∀ (q status faults : Nat) (r : LaunchRecord) (s : State),
    let x := s.queue q
    let done := recField r 0x28 8
    writeCompletion s q r status faults =
      if done = 0 then s
      else match realmKey s (recField r 0x40 4) done 16 with
        | some key => storeRun key (toBytes 4 status ++ toBytes 4 faults ++ toBytes 8 s.time.toNat) s
        | none => { s with queues := s.queues.setIfInBounds q { x with
            dropped := if x.dropped < 255 then x.dropped + 1 else x.dropped } })

/-- O50. The events that take a gang off its core or narrow it (R38 to R48, R361); `givesWay` and `hasRival` are the choices of R38, R39, R45 and R46,
in the orders of log 18. That a reclaim leaves waiting deliveries as they are (log 45) and that the scalar
stores of a leaving hart run on while its scalar loads hold the switch back (log 54) are the model's choices. -/
def Obligations.GangSwitchResult : Prop :=
  (∀ (key : Nat) (s : State), s.findGang key = none → ∀ i ∈ [Instr.fullContextSwitch key, .timeSliceExpiry key, .reclaimTakesEffect key,
    .reclaimAbandon key, .gangRetire key], exec i s = .next s) ∧
  (∀ (key : Nat) (g : Gang) (s : State), s.findGang key = some g →
    let locked := s.locks.any (fun l => g.harts.contains l.hid) || (s.gangHarts g).any (fun h => !h.slq.isEmpty)
    let spent := g.sliceExhausted || g.sliceEnd.any (fun t => decide (t ≤ s.time))
    (givesWay s g = false → exec (.fullContextSwitch key) s = .next s) ∧
    (givesWay s g = true → g.harts ≠ [] ∧ locked = false ∧ ∃ u, SwitchedOut s u g ∧
      exec (.fullContextSwitch key) s = .next (if (deskVictim s g.core).any (fun v => v.key == g.key) then deskHandOut u g.core else u) ∧
      (deskWaiters u g.core).Pairwise (fun a b => a < b) ∧
      (∀ hid, hid ∈ deskWaiters u g.core ↔ ∃ h ∈ u.harts, h.hid = hid ∧ hid / 8 = g.core ∧ h.wait = some .desk)) ∧
    (locked = true ∨ g.harts = [] ∨ spent = false → exec (.timeSliceExpiry key) s = .next s) ∧
    (locked = false → g.harts ≠ [] → spent = true →
      (hasRival s g = true → ∃ t, exec (.timeSliceExpiry key) s = .next t ∧ SwitchedOut s t g) ∧
      (hasRival s g = false → exec (.timeSliceExpiry key) s = .next (s.putGang { g with
        sliceExhausted := false,
        sliceEnd := let us := recField (s.recordOf g) 0x50 4; if us = 0 then none else some (s.time + BitVec.ofNat 64 (1000 * us)) }))) ∧
    (g.reclaim = none → ∀ i ∈ [Instr.reclaimTakesEffect key, .reclaimAbandon key], exec i s = .next s) ∧
    (∀ r, g.reclaim = some r →
      (s.time < r.deadline ∨ locked = true → exec (.reclaimAbandon key) s = .next s) ∧
      (r.deadline ≤ s.time → locked = false → ∃ t, exec (.reclaimAbandon key) s = .next t ∧ SwitchedOut s t g) ∧
      (allStopped s g = false → exec (.reclaimTakesEffect key) s = .next s) ∧
      (allStopped s g = true →
        let cut := fun (h : Hart) => if h.gang = some g.key then
          { h with v := h.v.map (VReg.shrink g.quads.toNat (g.quads &&& g.vgrantmax).toNat), size := h.size - BitVec.ofNat 8 r.deskCut } else h
        let v := State.putGang { s with hart := cut s.hart, others := s.others.map cut }
          { g with quads := g.quads &&& g.vgrantmax, vgrantmax := 0xF#4, reclaim := none }
        let u : State := { v with cores := v.cores.setIfInBounds g.core { v.core g.core with
          gated := (v.core g.core).gated ||| ~~~(laneMask (BitVec.ofNat 4 (quadUnion (placedOn v g.core [])))) } }
        exec (.reclaimTakesEffect key) s = .next (g.harts.foldl completeStopped u))) ∧
    (gangFinished s g = false → exec (.gangRetire key) s = .next s) ∧
    (gangFinished s g = true → ∃ t, exec (.gangRetire key) s = .next t ∧
      GangLeft s t g { g with harts := [], quads := 0#4, banks := [], barriers := [], reclaim := none, sliceEnd := none } ∧
      t.launches = match s.findLaunch g.launch with
        | some l => s.launches.map (fun (o : Launch) => if o.key = l.key then { l with retired := l.retired + 1 } else o)
        | none => s.launches))

/-- O51. The string arbiter (R16, R436 to R439), in units of 1/512 of a unit of R435, over the micro-ops listed for each core; the measured current is the plan (log 15), so `strbal`
(R181) shows the plan's deviation. -/
def Obligations.SpreadHolds : Prop :=
  ∀ (n : Nat) (p : WindowPlans) (s : State) (x : SeriesString), s.strings[n]? = some x → x.step ≤ 12 → x.minStep ≤ 12 →
    let core := fun (i : Fin 4) => #v[p.c0, p.c1, p.c2, p.c3][i]
    let plan := fun (k b : Nat) (i : Fin 4) => 8192 + (planWeight (core i) + 320 * b) * (16 - k)
    let fits := fun (throttle : Bool) (k : Nat) =>
      ∀ i j, plan k 0 j ≤ plan k (if throttle then 0 else (core i).idleMatrix) i + 60 * 512
    let share := fun (i : Fin 4) => ((x.shares[i]).take 256).sum
    (∀ i, planWeight (core i) ≤ 7680 ∧ (core i).idleMatrix ≤ 16) →
    ∃ t y throttle, ∃ busy : Fin 4 → Nat,
      exec (.stringWindow n p) s = .next t ∧ t.strings = s.strings.setIfInBounds n y ∧
      (∀ i j, plan y.step (busy j) j ≤ plan y.step (busy i) i + 60 * 512) ∧ y.step ≤ 12 ∧
      (throttle = true ↔ x.pol = 1#2 ∨ (x.pol = 2#2 ∧
        if x.throttling then ∃ i, 4096 * x.limit.toNat < 512 * share i else ∃ i, 4096 * x.limit.toNat < 256 * share i)) ∧
      (throttle = true → ∀ i, busy i = 0) ∧
      (throttle = false → ∀ i, busy i ≤ (core i).idleMatrix ∧
        ∀ m, m < busy i → ∃ j, plan y.step m i + 60 * 512 < plan y.step 0 j) ∧
      x.step ≤ y.step ∧ x.minStep ≤ y.step ∧
      (∀ k, x.step ≤ k → x.minStep ≤ k → k < y.step → ¬ fits throttle k) ∧
      ((x.minStep < y.step ∧ fits throttle (y.step - 1)) → y.fits = x.fits + 1) ∧
      (¬ (x.minStep < y.step ∧ fits throttle (y.step - 1)) → y.fits = 0) ∧
      (∀ i : Fin 4, ∃ hi lo, (∃ j, hi = plan y.step (busy j) j) ∧ (∃ j, lo = plan y.step (busy j) j) ∧
        (∀ j, plan y.step (busy j) j ≤ hi ∧ lo ≤ plan y.step (busy j) j) ∧
        let d := (y.strbal.extractLsb' (16 * i.val) 16).toInt
        let exact : Int := 2 * (plan y.step (busy i) i : Int) - hi - lo
        2 * (1024 * d - exact).natAbs ≤ 1024 ∧ (2 * (1024 * d - exact).natAbs = 1024 → d % 2 = 0)) ∧
      (y.limit = x.limit ∧ y.pol = x.pol ∧ y.minStep = x.minStep ∧ y.throttling = (x.pol == 2#2 && throttle)) ∧
      (∀ i : Fin 4, y.shares[i] = (busy i :: x.shares[i]).take 256) ∧
      t = { s with strings := t.strings, cores := t.cores,
                   report := { s.report with throttles := if x.step = 0 ∧ y.step ≠ 0
                     then s.report.throttles.setIfInBounds n (oneMore ((s.report.throttles[n]?).getD 0)) else s.report.throttles } } ∧
      ∀ c, t.core c = { s.core c with hpm := (t.core c).hpm }

/-- O52. What the timebase, the power manager, gating and the routes do (R428, R429, R438, R440, R441, R461, R462); the choice among several
regions and the instants of the slew are the model's (log 18); timing events are counted before a chaining mask changes (log 11, 62). -/
def Obligations.PowerTimeRouteResult : Prop :=
  (∀ s : State,
    let due := s.slew ≠ 0 ∧ ∀ u, s.slewed = some u → 1000 ≤ (s.time - u).toNat
    ∃ t, ∃ d : Int, exec .timebaseTick s = .next t ∧
      t = { s with time := s.time + BitVec.ofInt 64 d, slew := s.slew - (d - 4), slewed := t.slewed, queues := t.queues } ∧
      (¬ due → d = 4 ∧ t.slewed = s.slewed) ∧ (due → d = (if 0 < s.slew then 5 else 3) ∧ t.slewed = some t.time) ∧
      (∀ q : Fin 64, t.queues[q] = { s.queues[q] with
        head := s.queues[q].head.map (fun h => { h with raised := min 7 ((t.time - h.since).toNat / 1000000) }) })) ∧
  (∀ (c : Int) (s : State), (s.boot = .running → exec (.timestampExchange c) s = .next { s with slew := c }) ∧
    (s.boot ≠ .running → exec (.timestampExchange c) s = .next s)) ∧
  (∀ (n : Nat) (x : SeriesString) (s : State), s.strings[n]? = some x →
    (16 ≤ x.fits → x.minStep < x.step → exec (.stringStepUp n) s = .next { s with
      strings := s.strings.setIfInBounds n { x with step := x.step - 1, fits := 0 } }) ∧
    (x.fits < 16 ∨ x.step ≤ x.minStep → exec (.stringStepUp n) s = .next s)) ∧
  (∀ (r : PowerReading) (s : State), 2400000 < r.milliwatts ∨ r.hot = true →
    let c := s.core r.largestPlanCore
    let n := r.largestPlanCore / 4
    let longer := fun k => ∃ x : Region, s.regions[k]? = some x ∧ x.window ≤ 56
    (∀ k x, s.regions[k]? = some x → x.window ≤ 56 → (k = r.region ∨ (¬ longer r.region ∧ ∀ j, j < k → ¬ longer j)) →
      exec (.powerManagerPeriod r) s = .next { s.withRegion k { x with window := x.window + 8 } with
        powerActions := .lengthenWindow k :: s.powerActions }) ∧
    ((∀ k, ¬ longer k) →
      (∀ b, b < 6 → c.chainperm.getLsbD b = true → (∀ j, b < j → c.chainperm.getLsbD j = false) →
        let z := settleCounters s r.largestPlanCore
        exec (.powerManagerPeriod r) s = .next { z with
          cores := z.cores.setIfInBounds r.largestPlanCore
            { z.core r.largestPlanCore with chainperm := c.chainperm - BitVec.ofNat 6 (2 ^ b) },
          powerActions := .narrowChain r.largestPlanCore b :: s.powerActions }) ∧
      (c.chainperm = 0#6 → 1 < c.ceilq.toNat →
        exec (.powerManagerPeriod r) s = .next { s with
          cores := s.cores.setIfInBounds r.largestPlanCore { c with ceilq := c.ceilq - 1#3 },
          powerActions := .lowerCeiling r.largestPlanCore :: s.powerActions }) ∧
      (∀ x, c.chainperm = 0#6 → c.ceilq.toNat ≤ 1 → s.strings[n]? = some x →
        exec (.powerManagerPeriod r) s = .next (if x.minStep < 12 then { s with
          strings := s.strings.setIfInBounds n { x with minStep := x.minStep + 1, step := max x.step (x.minStep + 1) },
          powerActions := .raiseStep n :: s.powerActions,
          report := { s.report with throttles := if x.step = 0
            then s.report.throttles.setIfInBounds n (oneMore ((s.report.throttles[n]?).getD 0)) else s.report.throttles } } else s)))) ∧
  (∀ (r : PowerReading) (s : State), r.milliwatts ≤ 2400000 → r.hot = false →
    (r.restore = false ∨ s.powerActions = [] → exec (.powerManagerPeriod r) s = .next s) ∧
    (r.restore = true → ∀ rest,
      (∀ k x, s.powerActions = .lengthenWindow k :: rest → s.regions[k]? = some x → 24 ≤ x.window →
        exec (.powerManagerPeriod r) s = .next { s.withRegion k { x with window := x.window - 8 } with powerActions := rest }) ∧
      (∀ core b, s.powerActions = .narrowChain core b :: rest →
        let z := settleCounters s core
        exec (.powerManagerPeriod r) s = .next { z with
          cores := z.cores.setIfInBounds core { z.core core with chainperm := (s.core core).chainperm ||| BitVec.ofNat 6 (2 ^ b) },
          powerActions := rest }) ∧
      (∀ core, s.powerActions = .lowerCeiling core :: rest → (s.core core).ceilq.toNat < 4 →
        exec (.powerManagerPeriod r) s = .next { s with
          cores := s.cores.setIfInBounds core { s.core core with ceilq := (s.core core).ceilq + 1#3 }, powerActions := rest }) ∧
      (∀ n x, s.powerActions = .raiseStep n :: rest → s.strings[n]? = some x → exec (.powerManagerPeriod r) s = .next { s with
        strings := s.strings.setIfInBounds n { x with minStep := x.minStep - 1 }, powerActions := rest }))) ∧
  (∀ (core lane : Nat) (s : State), lane < 16 → core < 128 → ∀ gated : Bool,
    ∃ t g, exec (if gated then .lanePowerGate core lane else .laneWake core lane) s = .next t ∧
      t = { s with cores := s.cores.setIfInBounds core { s.core core with gated := g } } ∧
      let used := ∃ y ∈ s.gangs, y.placed = true ∧ y.core = core ∧ y.quads.getLsbD (lane / 4) = true
      ∀ l : Nat, g.getLsbD l = if l = lane ∧ (gated = true ∨ used) then gated else (s.core core).gated.getLsbD l) ∧
  (∀ (device : Nat) (s : State),
    let moved := fun (f : RouteStatus → RouteStatus) => s.routes.map (fun r => if r.device = device then { r with status := f r.status } else r)
    exec (.shofinRouteLost device) s = .next { s with routes := moved (fun x => if x = .up then .retraining s.time else x) } ∧
    (s.memReady = false ∨ s.boot ≠ .running → ∀ port, exec (.shofinRouteRetrained device port) s = .next s) ∧
    (s.memReady = true → s.boot = .running → ∀ port, exec (.shofinRouteRetrained device port) s = .next (State.wake { s with
      routes := moved (fun _ => .up),
      report := { s.report with
        retrains := s.report.retrains.setIfInBounds port (oneMore ((s.report.retrains[port]?).getD 0)) } } .memory)) ∧
    ((∃ r ∈ s.routes, r.device = device ∧ ∃ since, r.status = .retraining since ∧ since + 10000000#64 ≤ s.time) →
      exec (.routeDownTimeout device) s = .next (State.wake { s with
        routes := moved (fun _ => .down), systemEvents := s.systemEvents ++ [.routeDown device] } .memory)) ∧
    ((∀ r ∈ s.routes, r.device = device → ∀ since, r.status = .retraining since → s.time < since + 10000000#64) →
      exec (.routeDownTimeout device) s = .next s))

/-- O53. The calls of R455 and R467 and the launch queue registers (R456, R457). That a grant is answered where the hart stands at the entry of
its ecall, that a call waits by changing nothing (before MEMREADY too, log 28) and a doorbell by the answer held (log 12), and that every translation is dropped, are the model's (log 12, 18); so are the calls of
system cores as events, the unused a2 of RELEASE_GRANULES and SET_QUEUE_OWNER as an argument that must be 0, and status 2 until the
restart (log 26, 27, 53). -/
def Obligations.FirmwareCallResult : Prop :=
  (∀ s : State, s.hart.run = .running →
    let h := s.hart
    let base := (h.getX 10#5).toNat
    let size := (h.getX 11#5).toNat
    let rights := h.getX 12#5
    let realm := s.realmOf h
    let called := fun n => h.mode = .machine ∧ h.mcause = 9#64 ∧ (h.getX 17#5).toNat = n
    let answers := fun (i : Instr) (code : Nat) (ws : List RealmWindow) => ∃ t, exec i s = .next t ∧
      t.hart = { h with x := h.x.set 10 (BitVec.ofNat 64 code), mepc := h.mepc + 4#64, pc := h.mepc + 4#64, mode := t.hart.mode,
                        mstatus := t.hart.mstatus } ∧
      t = { s with windows := ws, sysCores := t.sysCores, hart := t.hart } ∧
      t.hart.mode = Mode.ofBits ((h.mstatus.toNat / 2 ^ 11) % 4) ∧
      t.sysCores = if i = .revokeWindow h.hid ∧ code = 0 then s.sysCores.map (fun k => { k with tlb := [] }) else s.sysCores
    let mine := fun n => granuleUsable s n = true ∧ granuleRealm s n = realm
    let good := (rights = 1#64 ∨ rights = 3#64) ∧ size ≠ 0 ∧ base % 2 ^ 21 = 0 ∧ size % 2 ^ 21 = 0 ∧ base + size ≤ 2 ^ 40 ∧
      ∀ n, base ≤ 2 ^ 21 * n → 2 ^ 21 * n < base + size → mine n
    let owned := s.windows.filter (fun w => w.realm == realm)
    (¬ called 0x04140001 → exec (.grantWindow h.hid) s = .next s) ∧
    (called 0x04140001 →
      (¬ good → answers (.grantWindow h.hid) 1 s.windows) ∧
      (good → 8 ≤ owned.length → answers (.grantWindow h.hid) 2 s.windows) ∧
      (good → owned.length < 8 → answers (.grantWindow h.hid) 0 (s.windows ++ [⟨realm, base, size, rights == 3#64⟩]))) ∧
    (¬ called 0x04140002 → exec (.revokeWindow h.hid) s = .next s) ∧
    (called 0x04140002 →
      let named := fun (w : RealmWindow) => w.realm == realm && w.base == base
      (size = 0 → rights = 0#64 → s.windows.any named = true →
        answers (.revokeWindow h.hid) 0 (s.windows.filter (fun w => !named w))) ∧
      (size ≠ 0 ∨ rights ≠ 0#64 ∨ s.windows.any named = false → answers (.revokeWindow h.hid) 1 s.windows))) ∧
  (∀ (h : Hart) (code : Nat),
    let g := h.answer code
    g = { h with x := h.x.set 10 (BitVec.ofNat 64 code), mepc := h.mepc + 4#64, pc := h.mepc + 4#64, mode := g.mode,
                 mstatus := g.mstatus } ∧
    g.mode = Mode.ofBits ((h.mstatus.toNat / 2 ^ 11) % 4)) ∧
  (∀ (c : Caller) (s : State),
    let makes := fun (f : Nat) (may : Bool) (a0 a1 a2 : Word) => match c with
      | .systemCore n =>
        let k := s.sysCore n
        s.boot = .running ∧ s.memReady = true ∧ k.x[17].toNat = f ∧ may = (k.mode == .hypervisor) ∧ a0 = k.x[10] ∧ a1 = k.x[11] ∧ a2 = k.x[12]
      | .computeHart hid => may = false ∧ ∃ h, s.findHart hid = some h ∧ h.run = .running ∧ h.mode = .machine ∧
        (h.mcause = 8#64 ∨ h.mcause = 9#64 ∨ h.mcause = 11#64) ∧ (h.getX 17#5).toNat = f ∧
        a0 = h.getX 10#5 ∧ a1 = h.getX 11#5 ∧ a2 = h.getX 12#5
    let after := fun (z : State) (code : Nat) => match c with
      | .systemCore n => { z with
          sysCores := z.sysCores.setIfInBounds n
            { z.sysCore n with x := (z.sysCore n).x.set 10 (BitVec.ofNat 64 code), pc := (z.sysCore n).pc + 4#64 },
          result := .status code }
      | .computeHart hid => (z.findHart hid).elim z (fun h => z.putHart (h.answer code))
    let answers := fun (i : Instr) (code : Nat) => exec i s = .next (after s code)
    (∀ a0 a1 a2, (∀ may, ¬ makes 0x04140010 may a0 a1 a2) → exec (.assignGranules c a0 a1 a2) s = .next s) ∧
    (∀ a0 a1, ((∀ may a2, ¬ makes 0x04140011 may a0 a1 a2) → exec (.releaseGranules c a0 a1) s = .next s) ∧
      ((∀ may a2, ¬ makes 0x04140012 may a0 a1 a2) → exec (.setQueueOwner c a0 a1) s = .next s)) ∧
    (∀ (f : Nat) (may : Bool) (a0 a1 a2 : Word), makes f may a0 a1 a2 →
      let base := a0.toNat
      let size := a1.toNat
      let inside := fun (k : Nat) => base ≤ k ∧ k < base + size
      let whole := fun r => base % 2 ^ 21 = 0 ∧ size % 2 ^ 21 = 0 ∧ base + size ≤ 2 ^ 40 ∧
        ∀ n, base ≤ 2 ^ 21 * n → 2 ^ 21 * n < base + size → granuleUsable s n = true ∧ granuleRealm s n = r
      let dropped := fun (h : Hart) =>
        if h.reservation.any (fun l => decide (base ≤ 64 * l ∧ 64 * l < base + size)) then { h with reservation := none } else h
      let given := fun (i : Instr) (r : Nat) => ∃ z : State, exec i s = .next (after z 0) ∧
        (∀ n, granuleRealm z n = if inside (2 ^ 21 * n) then r else granuleRealm s n) ∧
        (∀ k, memRead z.mem k = if inside k then 0#8 else memRead s.mem k) ∧
        (∀ u, u ∈ z.poison ↔ u ∈ s.poison ∧ ¬ inside u.base) ∧ (∀ x, x ∈ z.stale ↔ x ∈ s.stale ∧ ¬ inside x.key) ∧
        z = { s with granules := z.granules, mem := z.mem, poison := z.poison, stale := z.stale,
                     errors := errorsAfter s.poison z.poison s.errors, tlb := [], hart := dropped s.hart, others := s.others.map dropped,
                     sysCores := s.sysCores.map (fun k => { k with tlb := [] }) }
      let r0 := granuleRealm s (base / 2 ^ 21)
      (f = 0x04140010 →
        (may = false ∨ ¬ whole 0 ∨ a2 = 0#64 ∨ 255 < a2.toNat → answers (.assignGranules c a0 a1 a2) 1) ∧
        (may = true → whole 0 → a2 ≠ 0#64 → a2.toNat ≤ 255 →
          (accessBegun s base size = true → exec (.assignGranules c a0 a1 a2) s = .next s) ∧
          (accessBegun s base size = false → given (.assignGranules c a0 a1 a2) a2.toNat))) ∧
      (f = 0x04140011 →
        (may = false ∨ r0 = 0 ∨ size = 0 ∨ ¬ whole r0 ∨ a2 ≠ 0#64 → answers (.releaseGranules c a0 a1) 1) ∧
        (may = true → r0 ≠ 0 → size ≠ 0 → whole r0 → a2 = 0#64 →
          let used := (∃ w ∈ s.windows, w.base < base + size ∧ base < w.base + w.size) ∨ realmBusy s r0 = true
          (used → answers (.releaseGranules c a0 a1) 3) ∧
          (¬ used → accessBegun s base size = true → exec (.releaseGranules c a0 a1) s = .next s) ∧
          (¬ used → accessBegun s base size = false → given (.releaseGranules c a0 a1) 0))) ∧
      (f = 0x04140012 →
        (may = false ∨ 63 < base ∨ 255 < size ∨ a2 ≠ 0#64 → answers (.setQueueOwner c a0 a1) 1) ∧
        (may = true → base ≤ 63 → size ≤ 255 → a2 = 0#64 →
          let x := s.queue base
          let used := x.enable = true ∨ x.records ≠ [] ∨ x.held ≠ [] ∨ s.inFlightTo base ≠ 0
          (used → answers (.setQueueOwner c a0 a1) 3) ∧
          (¬ used → exec (.setQueueOwner c a0 a1) s =
            .next (after { s with queues := s.queues.setIfInBounds base { x with realm := size } } 0)))))) ∧
  (∀ (core q : Nat) (v : Word) (s : State), q < 64 →
    let x := s.queue q
    let told := fun (n : Nat) => exec (.lqDoorbell ⟨core, q⟩ v) s = .next { s with result := .status n }
    (s.boot ≠ .running → exec (.lqctlWrite q v) s = .next s ∧ exec (.lqDoorbell ⟨core, q⟩ v) s = .next s) ∧
    (s.boot = .running →
      (exec (.lqctlWrite q v) s = .next { s with queues := s.queues.setIfInBounds q { x with enable := v.getLsbD 16 } }) ∧
      (doorLocked s core v.toNat = true → exec (.lqDoorbell ⟨core, q⟩ v) s = .next { s with result := .held }) ∧
      (doorLocked s core v.toNat = false → s.restarted = false → told 2) ∧
      (doorLocked s core v.toNat = false → s.restarted = true → doorRecord s core v.toNat = none → told 3) ∧
      (∀ r, doorLocked s core v.toNat = false → s.restarted = true → doorRecord s core v.toNat = some r →
        let off := x.enable = false ∨ x.realm ≠ 0 ∨ recField r 0x40 4 ≠ 0
        let full := 64 ≤ x.records.length + x.held.length + s.inFlightTo q
        (off → told 2) ∧ (¬ off → full → told 1) ∧
        (¬ off → ¬ full → exec (.lqDoorbell ⟨core, q⟩ v) s = .next { s with
          queues := s.queues.setIfInBounds q { x with
            records := x.records ++ [r], head := if x.head.isSome then x.head else some ⟨s.time, 0, none⟩ },
          result := .status 0 }))) ∧
    (v.toNat % 64 ≠ 0 ∨ deviceOf v.toNat ≠ s.device → doorRecord s core v.toNat = none))

/-- O54. Requests from outside the compute harts (R287, R303, R454 to R460, R462); AES-256-GCM is opaque (log 16). That a register of the memory
control block waits for MEMREADY as memory does, that the accesses of system cores are events, and reason 5 until the restart are the
model's (log 26, 27, 53, 59), and so is the translation of a system core's addresses (log 53). -/
def Obligations.RequestResult : Prop :=
  (∀ (r : MemRequest) (s : State),
    (s.boot = .stopped → exec (.pcieInboundRequest r) s = .next s) ∧
    (s.boot ≠ .stopped → Requested s (exec (.pcieInboundRequest r) s) (pcieKey s) .completerAbort false r) ∧
    (∀ a ap k, pcieKey s a = some (ap, k) → ap = .cached ∧ k = a ∧ a < 2 ^ 40 ∧ granuleRealm s (a / 2 ^ 21) = 0)) ∧
  (∀ (device realm : Nat) (r : MemRequest) (s : State),
    let waits := ∃ o ∈ s.routes, o.device = device ∧ (o.status = .untrained ∨ ∃ since, o.status = .retraining since)
    (s.boot = .stopped → exec (.shofinRemoteRequest device realm r) s = .next s) ∧
    (s.boot ≠ .stopped → waits → exec (.shofinRemoteRequest device realm r) s = .next { s with result := .held }) ∧
    (s.boot ≠ .stopped → ¬ waits → Requested s (exec (.shofinRemoteRequest device realm r) s) (shofinKey s realm) .accessFault false r) ∧
    (∀ a ap k, shofinKey s realm a = some (ap, k) →
      ap = .cxl ∨ ((ap = .cached ∨ ap = .uncached) ∧ k < 2 ^ 40 ∧ granuleRealm s (k / 2 ^ 21) = realm))) ∧
  (∀ (core : Nat) (r : MemRequest) (s : State), s.boot ≠ .running → exec (.systemCoreMemoryAccess core r) s = .next s) ∧
  (∀ (write : Bool) pa ap k (s : State), systemKey s write pa = some (ap, k) →
    (ap = .cached ∨ ap = .uncached ∨ ap = .cxl) ∧ (k < 2 ^ 40 → openToSystem s write k)) ∧
  (∀ (core : Nat) (r : MemRequest) (s : State), s.boot = .running →
    let a := r.addr.toNat
    let write := match r.action with | .load _ => false | _ => true
    let c := s.sysCore core
    let i := Instr.systemCoreMemoryAccess core r
    let host := c.dataMode = .hypervisor ∨ c.dataMode = .user
    (c.dataMode = .machine ∨ (host ∧ c.satp.toNat / 2 ^ 60 = 0) → ∃ ps, sysPages core write (requestPages r) s = .ok (ps, s) ∧
      ∀ j, j < requestBytes r.action → sysAddress ps (a + j) = (a + j) % 2 ^ 64) ∧
    (∀ e, sysPages core write (requestPages r) s = .error e → exec i s = .next { s with result := e }) ∧
    (∀ ps t, sysPages core write (requestPages r) s = .ok (ps, t) →
      t = { s with sysCores := t.sysCores } ∧
      let pa := sysAddress ps a
      let io := s.device * 2 ^ 53 + 0x50000000000
      (pa < io ∨ io + 2 ^ 24 ≤ pa →
        Requested t (exec i s) (fun va => (if (t.sysCore core).mode = .machine then firmwareKey t else systemKey t write) (sysAddress ps va))
          .accessFault true r) ∧
      (∀ q, q < 64 → pa = io + 0x10000 + 16 * q →
        (r.action = .load 8 → exec i s = .next { t with result := .data (toBytes 8 (lqctlShown (s.queue q))) false }) ∧
        (∀ d, r.action = .store d → d.length = 8 → exec i s = .next { t with
          queues := s.queues.setIfInBounds q { s.queue q with enable := (wordOfBytes d).getLsbD 16 }, result := .stored })) ∧
      (∀ q, q < 64 → pa = io + 0x10000 + 16 * q + 8 →
        (r.action = .load 8 → exec i s = .next { t with result := .data (List.replicate 8 0#8) false }) ∧
        (∀ d, r.action = .store d → exec i s = .next { t with result := .stored }) ∧
        (∀ v, r.action = .atomic .swap true v →
          (doorLocked t core v.toNat = true → exec i s = .next { t with result := .held }) ∧
          (doorLocked t core v.toNat = false → ∃ u code, exec (.lqDoorbell ⟨core, q⟩ v) t = .next u ∧ u.result = .status code ∧
            exec i s = .next { u with result := .data (toBytes 8 code) false }))) ∧
      (∀ n : Fin 6, pa = io + 0x20000 + 4 * n.val → r.action = .load 4 →
        exec i s = .next { t with result := .data (toBytes 4 s.frameDrops[n].toNat) false }))) ∧
  (∀ (f : List Byte) (s : State),
    let drop := fun (n : Fin 6) => { s with
      frameDrops := s.frameDrops.set n (if s.frameDrops[n] = 0xFFFFFFFF#32 then 0xFFFFFFFF#32 else s.frameDrops[n] + 1#32) }
    (s.boot = .stopped → exec (.launchFrameReceive f) s = .next s) ∧
    (∀ n : Fin 6, s.boot ≠ .stopped → (frameChecks s f).find? (fun c => c.1) = some (true, n.val) →
      exec (.launchFrameReceive f) s = .next (drop n)) ∧
    (s.boot ≠ .stopped → (frameChecks s f).find? (fun c => c.1) = none →
      ∃ k p, s.keys.find? (fun (k : EthKey) => k.index == ofBytes ((f.drop 2).take 2)) = some k ∧
        Config.gcmOpen k.key (k.salt ++ (f.drop 8).take 8) (f.take 16) ((f.drop 16).take 128) ((f.drop 0x90).take 16) = some p ∧
        ∃ r : LaunchRecord, recField r 0x40 4 = k.realm % 2 ^ 32 ∧
          (∀ j, j < 1024 → ¬ (512 ≤ j ∧ j < 544) → r.getLsbD j = (BitVec.ofNat 1024 (ofBytes p)).getLsbD j) ∧
          let q := ofBytes ((f.drop 1).take 1)
          let x := s.queue q
          exec (.launchFrameReceive f) s = .next { s with
            queues := s.queues.setIfInBounds q { x with
              records := x.records ++ [r], head := if x.head.isSome then x.head else some ⟨s.time, 0, none⟩ },
            keys := s.keys.map (fun o => if o.index = k.index then { k with last := wordOfBytes ((f.drop 8).take 8) } else o) }))

/-- O55. Resets (R307, R463, R465), attestation (R464) and the reports (R444, R445, R466). The cryptography is opaque (log 16); the order of the
sections of a dump, what the redirect table is after a cold reset, and that the routes retrain only after MEMREADY are the model's (log 27,
28, 29). -/
def Obligations.ResetReportResult : Prop :=
  (∀ (b : BootImages) (s : State),
    let chain := [b.stage1, b.firmware, b.supervisor]
    let passes := Config.sha384 b.stage1.verifyingKey = Config.fusedKeyHash ∧
      ∀ i ∈ chain, Config.ecdsaVerify i.verifyingKey i.body i.signature = true ∧ Config.fusedRollback ≤ i.version
    ∃ t, exec (.coldReset b) s = .next t ∧
      t = { State.reset with
        freeCounter := s.freeCounter, regions := s.regions.map (fun r => { Region.reset with redirects := r.flash, flash := r.flash, slots := r.slots }), report := s.flashReport,
        flashReport := s.flashReport, boot := t.boot, images := t.images, device := t.device, expanders := t.expanders } ∧
      (passes → t.boot = .running ∧ t.images = chain.map (fun (i : BootImage) => Config.sha384 i.body) ∧ t.device = b.device ∧
        ∀ e : Fin 4, t.expanders[e] = ⟨b.expanderUnits.getD e.val 0 != 0, b.expanderUnits.getD e.val 0, 0⟩) ∧
      (¬ passes → t.boot = .stopped ∧ t.images = [] ∧ t.device = 0 ∧ t.expanders = State.reset.expanders)) ∧
  (∀ s : State, ∃ t, exec .warmReset s = .next t ∧
    (∀ k, memRead t.mem k = if 0x30000000000 ≤ k ∧ k < 0x30010000000 then 0#8 else memRead s.mem k) ∧
    (∀ u, u ∈ t.poison ↔ u ∈ s.poison ∧ isScratchKey u.base = false ∧ u.size = 64) ∧
    t = { State.reset with
      mem := t.mem, poison := t.poison, regions := t.regions, expanders := t.expanders, kinds := s.kinds, errHead := s.errHead,
      errors := s.errors, time := s.time, slew := s.slew, slewed := s.slewed, device := s.device, granules := s.granules,
      routes := s.routes.map (fun r => { r with status := .untrained }), report := s.report, flashReport := s.flashReport,
      measurements := s.measurements, images := s.images, boot := s.boot, freeCounter := s.freeCounter, nextKey := s.nextKey } ∧
    (∀ n : Fin 4, t.regions[n] = { s.regions[n] with window := 16, vacating := none }) ∧
    ∀ n : Fin 4, t.expanders[n] = { s.expanders[n] with outstanding := 0 }) ∧
  (∀ (realm : Nat) (nonce : List Byte) (s : State),
    let field := fun (l : List Byte) off n => ofBytes ((l.drop off).take n)
    (nonce.length ≠ 32 ∨ s.boot ≠ .running → exec (.attestationRequest realm nonce) s = .next s) ∧
    (nonce.length = 32 → s.boot = .running → ∃ a, exec (.attestationRequest realm nonce) s = .next { s with attestation := a } ∧ a.length = 392 ∧
      field a 0 4 = 0x54414B41 ∧ field a 4 4 = 1 ∧ field a 8 8 = s.time.toNat ∧ (a.drop 0x10).take 32 = nonce ∧
      field a 0x30 48 = (Config.sha384 Config.identityPublicKey).toNat ∧
      (∀ j, j < 3 → field a (0x60 + 48 * j) 48 = (s.images.getD j 0#384).toNat) ∧
      field a 0xF0 4 = realm % 2 ^ 32 ∧ field a 0xF4 4 = 0 ∧
      (∀ m, s.measurements.find? (fun m => m.1 == realm) = some m → field a 0xF8 48 = m.2.toNat) ∧
      field a 0x128 96 = (Config.identitySign (a.take 0x128)).toNat)) ∧
  (∀ s : State, let card := { s.report with sequence := min (2 ^ 64 - 1) (s.report.sequence + 1), written := s.time }
    (s.boot = .running → exec .reportCardWrite s = .next { s with report := card, flashReport := card }) ∧
    (s.boot ≠ .running → exec .reportCardWrite s = .next s)) ∧
  (∀ (reason : Nat) (s : State), reason = 0 ∨ 4 < reason ∨ s.boot ≠ .running ∨ s.memReady = false → exec (.fatalDump reason) s = .next s) ∧
  (∀ (reason : Nat) (s : State), 1 ≤ reason → reason ≤ 4 → s.boot = .running → s.memReady = true → ∃ t, exec (.fatalDump reason) s = .next t ∧
    t.report = { s.report with fatal := oneMore s.report.fatal, sequence := min (2 ^ 64 - 1) (s.report.sequence + 1), written := s.time } ∧
    t.flashReport = t.report ∧
    let at' := fun off n => ofBytes (readKeys t (0x100000000 + off) n)
    let last := 0x100000000 + 13696 + 64 * s.harts.length
    at' 0 4 = 0x504D5544 ∧ at' 4 4 = 1 ∧ at' 8 8 = s.time.toNat ∧ at' 0x10 4 = reason ∧ at' 0x14 4 = 4 ∧
    at' 0x18 8 = t.report.sequence ∧ at' 0x20 32 = 0 ∧
    (∀ d ∈ [(0x40, 1, 128, 3328), (0x50, 2, 3456, 2048), (0x60, 3, 5504, 64 * s.harts.length),
        (0x70, 4, 5504 + 64 * s.harts.length, 8192)],
      at' d.1 4 = d.2.1 ∧ at' (d.1 + 4) 4 = 0 ∧ at' (d.1 + 8) 4 = d.2.2.1 % 2 ^ 32 ∧ at' (d.1 + 12) 4 = d.2.2.2 % 2 ^ 32) ∧
    at' 128 4 = 0x44435052 ∧ at' 132 2 = 1 ∧ at' 136 8 = t.report.sequence ∧
    (∀ k, k < 0x100000000 ∨ last ≤ k → memRead t.mem k = memRead s.mem k) ∧
    t = { s with report := t.report, flashReport := t.flashReport, mem := t.mem, poison := t.poison, stale := t.stale, errors := t.errors,
                 hart := { s.hart with reservation := t.hart.reservation }, others := t.others })

/-- O56. A sanity statement about the decoder (R1, R108, R118 to R123). -/
def Obligations.DecodeWords : Prop :=
  decodeWord 0b0000_001_00010_00011_000_00001_0001011#32 = .ok (.addVv 1 2 3 1) ∧
  decodeWord 0b1110_000_00100_11111_010_10101_0001011#32 = .ok (.cmpVi 0 4 31 .lt 5) ∧
  decodeWord 0b0110_000_01000_00010_011_10000_0101011#32 = .ok (.fmaddVq 0 8 2 16) ∧
  decodeWord 0b1101_000_00001_00111_000_00010_0101011#32 = .ok (.fcvt 0 1 (.toFloat .fp32) 2) ∧
  decodeWord 0b1100_000_00111_00101_111_01001_1011011#32 = .ok (.mvxs 7 5 9) ∧
  decodeWord 0b0001_000_10000_01000_000_00000_1111011#32 = .ok (.asubVv 16 8 0) ∧
  decodeWord 0b1101_000_00100_01000_000_00010_1111011#32 = .ok (.mpa 4 8 2) ∧
  decodeWord 0b0000_010_00101_01010_001_00011_1010111#32 = .ok (.vldS 2 5 10 3) ∧
  decodeWord 0b0101_000_00110_01011_111_00100_1010111#32 = .ok (.vamo 0 6 11 .swap 4) ∧
  decodeWord 0b0000_010_00001_00110_000_00111_1110111#32 = .ok (.setl 0x041 6 7) ∧
  decodeWord 0b0101_110_00000_00000_010_00000_1110111#32 = .ok (.fenceRel .sys) ∧
  decodeWord 0b111111111111_00010_000_00001_0010011#32 = .ok (.scalarBaseInstruction (.opImm .addi 1 2 0xFFF)) ∧
  decodeWord 0b00010_10_00000_01010_011_00101_0101111#32 = .ok (.lrSc (.lr true true false 5 10)) ∧
  decodeWord 0b100000000001_00011_001_00100_1110011#32 = .ok (.csrWrite .rw 4 0x801 3) ∧
  decode [0x8B#8, 0x80#8, 0x21#8, 0x02#8, 0x77#8] = .ok (.addVv 1 2 3 1, [0x77#8]) ∧
  decode [0x8B#8, 0x80#8, 0x21#8] = .error .tooShort ∧
  decodeWord 0b0000_000_00010_00011_101_00001_0001011#32 = .error .kindReserved ∧
  (∀ w ∈ [0#32, 0xFFFFFFFF#32, 0b0000_000_00010_00100_011_00001_0001011#32], ∀ i, decodeWord w ≠ .ok i)

/-- O57. No bit of an encoding is dropped, and every word has one meaning (R109, R111, R118 to R123). -/
def Obligations.EncodeDecode : Prop :=
  (∀ (i : Instr) (w : InstrWord), i.wf = true → (∀ x, i ≠ .illegalInstruction x) → encode i = some w → decodeWord w = .ok i) ∧
  (∀ (w : InstrWord) (i : Instr), decodeWord w = .ok i → encode i = some w ∧ i.wf = true) ∧
  (∀ i : Instr, i.wf = true → (∀ x, i ≠ .illegalInstruction x) → ((encode i).isSome = true ↔ isEvent i = false)) ∧
  (∀ (w : InstrWord) (rest : List Byte),
    decode (w.extractLsb' 0 8 :: w.extractLsb' 8 8 :: w.extractLsb' 16 8 :: w.extractLsb' 24 8 :: rest) =
      match decodeWord w with
      | .ok i => .ok (i, rest)
      | .error e => .error e)

/-- O58. The per-instruction statements reach a run through this one. The agenda and the turn are the model's (log 1), and so are the queue of
scalar stores and that of scalar loads (log 54), the old bytes a hart or an aperture class may read (log 8) and the acts of firmware as items of the agenda (log 61). -/
def Obligations.StepRunsDecoded : Prop :=
  (∀ (i : Instr) (rest : List AgendaItem) (s : State), s.agenda = .event i :: rest → step s = exec i { s with agenda := rest }) ∧
  (∀ (hid : Nat) (rest : List AgendaItem) (s : State), s.agenda = .switch hid :: rest →
    step s = .next (State.switchTo { s with agenda := rest } hid)) ∧
  (∀ (x : VsqEntry) (more : List VsqEntry) (rest : List AgendaItem) (s : State),
    s.agenda = .scalarStore s.hart.hid :: rest → s.hart.ssq = x :: more →
      (entryWait s x ≠ none → step s = .next { s with agenda := rest }) ∧
      (entryWait s x = none → ∃ t, step s = .next t ∧ t.hart.ssq = more ∧ t.agenda = rest ∧ t.mem = (performEntry x s).mem ∧
        t.poison = (performEntry x s).poison ∧ t.kinds = (performEntry x s).kinds ∧ t.stale = (performEntry x s).stale)) ∧
  (∀ (x : ScalarLoad) (more : List ScalarLoad) (rest : List AgendaItem) (s : State),
    s.agenda = .scalarLoad s.hart.hid :: rest → s.hart.slq = x :: more →
      (pieceWait s x.piece ≠ none → step s = .next { s with agenda := rest }) ∧
      (pieceWait s x.piece = none →
        let u := State.performLoad { s with agenda := rest, hart := { s.hart with slq := more } } x
        step s = .next { u with gangs := if u.hart.isDone then (State.settleOwn u).gangs else u.gangs })) ∧
  (∀ (key : Nat) (rest : List AgendaItem) (s : State), s.agenda = .forget s.hart.hid key :: rest →
    step s = .next { s with agenda := rest, hart := { s.hart with oldLines := s.hart.oldLines.eraseP (fun o => o.key == key) } }) ∧
  (∀ (ap : Aperture) (key : Nat) (shown : Option Nat) (rest : List AgendaItem) (s : State), s.agenda = .stale ap key shown :: rest →
    step s = .next { s with
      agenda := rest, stale := s.stale.map (fun x => if x.ap = ap ∧ x.key = key then { x with shown := shown } else x) }) ∧
  (∀ (a : FirmwareAct) (rest : List AgendaItem) (s : State), s.agenda = .firmware a :: rest →
    let goes := fun (t : State) => step s = .next { t with agenda := rest }
    (s.boot ≠ .running → goes s) ∧
    (s.boot = .running →
      (∀ k, a = .loadKey k → k.index < 1024 → goes { s with keys := k :: s.keys.filter (fun o => o.index != k.index) }) ∧
      (∀ e, a = .setRealm e → goes { s with realms := e :: s.realms.filter (fun o => o.realm != e.realm) }) ∧
      (∀ realm object, a = .registerCode realm object →
        let old := ((s.measurements.find? (fun m => m.1 == realm)).map (fun m => m.2)).getD 0#384
        let new := Config.sha384 (toBytes 48 old.toNat ++ toBytes 48 (Config.sha384 object).toNat)
        goes { s with measurements := (realm, new) :: s.measurements.filter (fun o => o.1 != realm) }) ∧
      (∀ device, a = .setRoute device false → goes { s with routes := s.routes.filter (fun o => o.device != device) }) ∧
      (∀ device, a = .setRoute device true → goes { s with
        routes := s.routes.filter (fun o => o.device != device) ++ [⟨device, if s.memReady = true then .up else .untrained⟩] }) ∧
      (∀ device, a = .setDevice device → device < 2048 → goes { s with device := device }) ∧
      (a = .restart →
        let due := s.restarted = false ∧ s.memReady = true ∧ ∀ o ∈ s.routes, o.status = .up ∨ o.status = .down
        (¬ due → goes s) ∧
        (due → goes { s with restarted := true, sysCores := Vector.replicate 16 SysCore.reset })))) ∧
  (∀ s : State, s.agenda = [] → s.turn < 8 → s.hart.run = .running → s.hart.hasVectorWork = false → s.hart.nextInterrupt = none →
    s.hart.stall = none →
    (∀ leaf c, fetchPlace s = .ok (leaf, c) →
      let w := readThrough s c.ap (c.key + 3) ++ readThrough s c.ap (c.key + 2) ++ readThrough s c.ap (c.key + 1) ++
        readThrough s c.ap c.key
      let t := markScalar { s with turn := s.turn + 1 } (s.agent s.hart s.hart.mode) .exec leaf c
      (∀ r, withLoads t w = .error r → step s = .next { t with hart := { t.hart with stall := some r } }) ∧
      (∀ u, withLoads t w = .ok u →
        (∀ i, decodeWord w = .ok i → step s = exec i (u.noteTaint w)) ∧
        (∀ e, decodeWord w = .error e → step s = exec (.illegalInstruction w) (u.noteTaint w)) ∧
        (s.hart.slq = [] → u = t) ∧ (s.hart.oldLines = [] → s.hart.slq = [] → u.noteTaint w = t))) ∧
    (∀ cause, fetchPlace s = .error (.fault cause) →
      step s = .next (State.takeTrap { s with turn := s.turn + 1 } cause false s.hart.pc s.hart.pc)))

/-- O59. The canonical form of the model's memory (log 4): equal memories are equal data. -/
def Obligations.MemoryCanonical : Prop :=
  (∀ s t : State, memWf s.mem = true → step s = .next t → memWf t.mem = true) ∧
  (∀ (i : Instr) (s t : State), memWf s.mem = true → exec i s = .next t → memWf t.mem = true)

/-- O60. State.reset. The values of base registers that the spec does not reset are the model's (log 5, 7) and are not stated. -/
def Obligations.ResetValues : Prop :=
  let s := State.reset
  (memWf s.mem = true ∧ s.mem = []) ∧
  (∀ p ∈ [(0x800, 0), (0x801, 0), (0x802, 0x3F803F803F803F80), (0x803, 0), (0x804, 0), (0x805, 0), (0x806, 0), (0x807, 0), (0x808, 0),
      (0x809, 0), (0xC01, 0), (0xCC0, 0), (0xCC1, 0), (0xCC2, 0x8000000000000000), (0xCC5, 0), (0xCC6, 0x3F), (0x5C0, 0), (0x5C1, 0),
      (0x5C2, 0), (0x5C3, 0), (0x5C6, 0xF), (0x5C7, 0), (0x5C8, 0), (0x7C0, 4), (0x7C1, 0x3F), (0x7C2, 0x4000), (0x306, 0x7FFFF),
      (0x106, 0x7FFFF), (0x323, 0x7000001), (0x324, 0x7000002), (0x325, 0x7000003), (0x326, 0x7000004), (0x327, 0x7000005),
      (0x328, 0x7000000), (0x332, 0x7000000), (0xB03, 0), (0xB12, 0)],
    (csrValue s p.1).1 = BitVec.ofNat 64 p.2) ∧
  (s.memReady = false ∧ s.mapOut = 0#4 ∧ s.d2d = 0#4 ∧ s.phy = 0#4 ∧ (∀ r ∈ s.regions.toList, r.window = 16)) ∧
  (∀ q ∈ s.queues.toList, lqctlShown q = 0) ∧ (∀ n : Fin 6, s.frameDrops[n] = 0#32) ∧
  (s.hart.viq = [] ∧ s.hart.window = none ∧ s.hart.bq = [] ∧ s.hart.vsq = [] ∧ s.hart.loadq.toList = [[], [], [], []] ∧
    s.hart.pigeonhole = [] ∧ s.nq = [] ∧ s.locks = [] ∧ s.pins = [] ∧ s.windows = [] ∧ s.granules = [])
end

