-- ==== Sys2Proof/Laws/Bits.lean ====
section
/-! SUPPORT. Bit fields by their bits: fields, packed elements, register images and masks. -/

namespace Sys2Proof.Machine

/-- A bit of a field. -/
theorem testBit_getBits (x lo w k : Nat) : (getBits x lo w).testBit k = (decide (k < w) && x.testBit (lo + k)) := by
  simp [getBits, Nat.testBit_mod_two_pow, Nat.testBit_shiftRight]

/-- A field is below its size. -/
theorem getBits_lt (x lo w : Nat) : getBits x lo w < 2 ^ w := Nat.mod_lt _ (Nat.two_pow_pos w)

/-- Two fields with the same bits are equal. -/
theorem getBits_ext {x y lo lo' w : Nat} (h : ∀ k, k < w → x.testBit (lo + k) = y.testBit (lo' + k)) :
    getBits x lo w = getBits y lo' w := by
  apply Nat.eq_of_testBit_eq
  intro k
  rw [testBit_getBits, testBit_getBits]
  by_cases hk : k < w
  · simp [hk, h k hk]
  · simp [hk]

/-- A bit of `a + 2 ^ n * b` where `a` fits `n` bits. -/
theorem testBit_add_shift {a n : Nat} (ha : a < 2 ^ n) (b k : Nat) :
    (a + 2 ^ n * b).testBit k = if k < n then a.testBit k else b.testBit (k - n) := by
  rw [Nat.add_comm, Nat.testBit_two_pow_mul_add _ ha]

/-- The parts of a number laid out at a fixed size. -/
theorem testBit_layout (f : Nat → Nat) (n : Nat) (hn : 0 < n) (g : Nat) :
    ∀ (a k : Nat), (∀ j, f j < 2 ^ n) →
      ((List.range' a g).foldr (fun j acc => f j + 2 ^ n * acc) 0).testBit k =
        (decide (k < n * g) && (f (a + k / n)).testBit (k % n)) := by
  induction g with
  | zero => intro a k _; simp
  | succ g ih =>
    intro a k hf
    rw [List.range'_succ, List.foldr_cons, testBit_add_shift (hf a)]
    by_cases hk : k < n
    · have h1 : k / n = 0 := Nat.div_eq_of_lt hk
      have h2 : k % n = k := Nat.mod_eq_of_lt hk
      have h3 : k < n * (g + 1) := Nat.lt_of_lt_of_le hk (Nat.le_mul_of_pos_right n (by omega))
      simp [hk, h1, h2, h3]
    · rw [if_neg hk, ih (a + 1) (k - n) hf]
      have hle : n ≤ k := by omega
      have h1 : k / n = (k - n) / n + 1 := by
        rw [← Nat.sub_add_cancel hle, Nat.add_div_right _ hn, Nat.add_sub_cancel]
      have h2 : (k - n) % n = k % n := by
        rw [← Nat.mod_eq_sub_mod hle]
      have h3 : (k - n < n * g) ↔ (k < n * (g + 1)) := by rw [Nat.mul_succ]; omega
      rw [h2, h1, show a + 1 + (k - n) / n = a + ((k - n) / n + 1) by omega]
      simp [h3]

/-- `List.range` as a layout. -/
theorem testBit_layout_range (f : Nat → Nat) (n : Nat) (hn : 0 < n) (g k : Nat) (hf : ∀ j, f j < 2 ^ n) :
    ((List.range g).foldr (fun j acc => f j + 2 ^ n * acc) 0).testBit k =
      (decide (k < n * g) && (f (k / n)).testBit (k % n)) := by
  rw [List.range_eq_range', testBit_layout f n hn g 0 k hf, Nat.zero_add]

/-! Packed elements. -/

/-- The element that holds a bit, where it is written. -/
def writtenAt (w : Nat) (es : List (Option (Nat × Bool))) (k : Nat) : Option (Nat × Bool) := (es[k / w]?).join

/-- `packElems` by its parts. -/
theorem packElems_cons (w : Nat) (x : Option (Nat × Bool)) (xs : List (Option (Nat × Bool))) :
    packElems w (x :: xs) =
      ((match x with | none => 0 | some a => a.1 % 2 ^ w) + 2 ^ w * (packElems w xs).1,
       (match x with | none => 0 | some _ => 2 ^ w - 1) + 2 ^ w * (packElems w xs).2.1,
       (match x with | none => 0 | some a => if a.2 then 2 ^ w - 1 else 0) + 2 ^ w * (packElems w xs).2.2) := by
  cases x <;> simp [packElems]

/-- The place of a bit after the first element. -/
theorem writtenAt_cons {w : Nat} (hw : 0 < w) (x : Option (Nat × Bool)) (xs : List (Option (Nat × Bool))) (k : Nat) :
    writtenAt w (x :: xs) k = if k < w then x else writtenAt w xs (k - w) := by
  unfold writtenAt
  by_cases hk : k < w
  · rw [if_pos hk, Nat.div_eq_of_lt hk]; cases x <;> rfl
  · rw [if_neg hk]
    have hle : w ≤ k := by omega
    rw [show k / w = (k - w) / w + 1 by rw [← Nat.sub_add_cancel hle, Nat.add_div_right _ hw, Nat.add_sub_cancel]]
    rfl

/-- The value bits of packed elements. -/
theorem testBit_packElems_value {w : Nat} (hw : 0 < w) (es : List (Option (Nat × Bool))) (k : Nat) :
    (packElems w es).1.testBit k = (match writtenAt w es k with | none => false | some a => a.1.testBit (k % w)) := by
  induction es generalizing k with
  | nil => simp [packElems, writtenAt]
  | cons x xs ih =>
    rw [packElems_cons, writtenAt_cons hw]
    dsimp only
    rw [testBit_add_shift (by cases x <;> simp [Nat.mod_lt, Nat.two_pow_pos])]
    by_cases hk : k < w
    · rw [if_pos hk, if_pos hk]
      cases x with
      | none => simp
      | some a => simp [Nat.testBit_mod_two_pow, hk, Nat.mod_eq_of_lt hk]
    · rw [if_neg hk, if_neg hk, ih, ← Nat.mod_eq_sub_mod (by omega)]

/-- The mask bits of packed elements. -/
theorem testBit_packElems_mask {w : Nat} (hw : 0 < w) (es : List (Option (Nat × Bool))) (k : Nat) :
    (packElems w es).2.1.testBit k = (writtenAt w es k).isSome := by
  induction es generalizing k with
  | nil => simp [packElems, writtenAt]
  | cons x xs ih =>
    have hp := Nat.two_pow_pos w
    rw [packElems_cons, writtenAt_cons hw]
    dsimp only
    rw [testBit_add_shift (by cases x <;> simp <;> omega)]
    by_cases hk : k < w
    · rw [if_pos hk, if_pos hk]
      cases x with
      | none => simp
      | some a => simp [Nat.testBit_two_pow_sub_one, hk]
    · rw [if_neg hk, if_neg hk, ih]

/-- The poison bits of packed elements. -/
theorem testBit_packElems_bad {w : Nat} (hw : 0 < w) (es : List (Option (Nat × Bool))) (k : Nat) :
    (packElems w es).2.2.testBit k = (match writtenAt w es k with | none => false | some a => a.2) := by
  induction es generalizing k with
  | nil => simp [packElems, writtenAt]
  | cons x xs ih =>
    have hp := Nat.two_pow_pos w
    rw [packElems_cons, writtenAt_cons hw]
    dsimp only
    rw [testBit_add_shift (by rcases x with _ | ⟨a, b⟩ <;> (try cases b) <;> simp <;> omega)]
    by_cases hk : k < w
    · rw [if_pos hk, if_pos hk]
      rcases x with _ | ⟨a, b⟩
      · simp
      · cases b <;> simp [Nat.testBit_two_pow_sub_one, hk]
    · rw [if_neg hk, if_neg hk, ih]

/-! Poison bytes. -/

/-- A number has a bit set exactly when it is not 0. -/
theorem ne_zero_iff_testBit (x : Nat) : x ≠ 0 ↔ ∃ k, x.testBit k = true := by
  constructor
  · intro h
    rcases Classical.em (∃ k, x.testBit k = true) with h' | h'
    · exact h'
    · exact absurd (Nat.eq_of_testBit_eq (fun k => by
        have := fun hk => h' ⟨k, hk⟩
        simpa using this)) h
  · rintro ⟨k, hk⟩ rfl
    simp at hk

/-- A bit of the bytes that some bits touch. -/
theorem testBit_bytesTouched (bits n b : Nat) :
    (bytesTouched bits n).testBit b = (decide (b < n) && decide (getBits bits (8 * b) 8 ≠ 0)) := by
  induction n generalizing bits b with
  | zero => simp [bytesTouched]
  | succ n ih =>
    unfold bytesTouched
    have h2 := testBit_add_shift (a := if bits % 256 = 0 then 0 else 1) (n := 1) (by split <;> omega)
      (bytesTouched (bits / 256) n) b
    rw [Nat.pow_one] at h2
    rw [h2]
    cases b with
    | zero =>
      by_cases hb : bits % 256 = 0 <;> simp [getBits, hb]
    | succ b =>
      rw [if_neg (by omega), Nat.add_sub_cancel, ih]
      have : getBits (bits / 256) (8 * b) 8 = getBits bits (8 * (b + 1)) 8 := by
        apply Nat.eq_of_testBit_eq
        intro k
        rw [testBit_getBits, testBit_getBits, show (256 : Nat) = 2 ^ 8 from rfl, Nat.testBit_div_two_pow]
        congr 2
        omega
      rw [this]
      simp

/-- A bit of the poison a write leaves: that of a byte with a poisoned bit written, or an old one in a byte not written whole. -/
theorem testBit_mergePoison {old mask bad n b : Nat} (hb : b < n) :
    (mergePoison old mask bad n).testBit b =
      (decide (getBits bad (8 * b) 8 ≠ 0) || (old.testBit b && decide (getBits mask (8 * b) 8 ≠ 255))) := by
  have hkept : getBits ((2 ^ (8 * n) - 1) ^^^ (mask % 2 ^ (8 * n))) (8 * b) 8 ≠ 0 ↔ getBits mask (8 * b) 8 ≠ 255 := by
    have : getBits ((2 ^ (8 * n) - 1) ^^^ (mask % 2 ^ (8 * n))) (8 * b) 8 = 255 ^^^ getBits mask (8 * b) 8 := by
      apply Nat.eq_of_testBit_eq
      intro k
      rw [Nat.testBit_xor, testBit_getBits, testBit_getBits, Nat.testBit_xor, show (255 : Nat) = 2 ^ 8 - 1 from rfl,
        Nat.testBit_two_pow_sub_one, Nat.testBit_two_pow_sub_one, Nat.testBit_mod_two_pow]
      by_cases hk : k < 8
      · have : 8 * b + k < 8 * n := by omega
        simp [hk, this]
      · simp [hk]
    rw [this]
    generalize getBits mask (8 * b) 8 = z
    constructor
    · rintro h rfl; exact h (Nat.xor_self _)
    · intro h he
      apply h
      have := Nat.xor_assoc 255 255 z
      rw [Nat.xor_self, Nat.zero_xor, he, Nat.xor_zero] at this
      exact this
  unfold mergePoison
  split
  · rename_i h
    simp [h.1, h.2, getBits]
  · simp only [Nat.testBit_or, Nat.testBit_and, testBit_bytesTouched, hb, decide_true, Bool.true_and, hkept]
    rw [Bool.or_comm]

/-! Register images. -/

/-- An affine image fits its elements. -/
theorem affineImage_lt (w base stride n : Nat) : affineImage w base stride n < 2 ^ (w * n) := by
  have h : ∀ (l : List Nat), l.foldr (fun i acc => (base + i * stride) % 2 ^ w + 2 ^ w * acc) 0 < 2 ^ (w * l.length) := by
    intro l
    induction l with
    | nil => simp
    | cons a l ih =>
      simp only [List.foldr_cons, List.length_cons, Nat.mul_succ, Nat.pow_add]
      have h1 : (base + a * stride) % 2 ^ w < 2 ^ w := Nat.mod_lt _ (Nat.two_pow_pos w)
      calc _ < 2 ^ w + 2 ^ w * (l.foldr (fun i acc => (base + i * stride) % 2 ^ w + 2 ^ w * acc) 0) := by omega
        _ = 2 ^ w * (l.foldr (fun i acc => (base + i * stride) % 2 ^ w + 2 ^ w * acc) 0 + 1) := by
            rw [Nat.mul_add, Nat.mul_one, Nat.add_comm]
        _ ≤ 2 ^ w * 2 ^ (w * l.length) := Nat.mul_le_mul_left _ ih
        _ = 2 ^ (w * l.length) * 2 ^ w := Nat.mul_comm _ _
  simpa [affineImage] using h (List.range n)

/-- The image of a U or A register fits the register. -/
theorem tagImage_lt (r : VReg) (rb free : Nat) : tagImage r rb free < 2 ^ rb := by
  unfold tagImage
  dsimp only
  generalize sewBits r.sew.toNat = w
  have h1 := affineImage_lt w r.base.toNat r.step (rb / w)
  have hle : w * (rb / w) ≤ rb := Nat.mul_div_le rb w
  have h2 : free % 2 ^ (rb - w * (rb / w)) < 2 ^ (rb - w * (rb / w)) := Nat.mod_lt _ (Nat.two_pow_pos _)
  generalize free % 2 ^ (rb - w * (rb / w)) = z at h2
  calc _ < 2 ^ (w * (rb / w)) + 2 ^ (w * (rb / w)) * z := by omega
    _ = 2 ^ (w * (rb / w)) * (z + 1) := by rw [Nat.mul_add, Nat.mul_one, Nat.add_comm]
    _ ≤ 2 ^ (w * (rb / w)) * 2 ^ (rb - w * (rb / w)) := Nat.mul_le_mul_left _ h2
    _ = 2 ^ rb := by rw [← Nat.pow_add, Nat.add_sub_cancel' hle]

/-- What a register supplies to a group fits the register. -/
theorem partImage_lt (r : VReg) (j rb sew grp : Nat) : partImage r j rb sew grp < 2 ^ rb := by
  unfold partImage
  split
  · exact Nat.mod_lt _ (Nat.two_pow_pos rb)
  · split
    · exact getBits_lt _ _ _
    · exact tagImage_lt _ _ _
  · split <;> exact tagImage_lt _ _ _

/-- A bit of a group: the bit of the register that holds it (R185). -/
theorem testBit_groupImage (h : Hart) {rb : Nat} (hrb : 0 < rb) (n g sew grp k : Nat) :
    (groupImage h rb n g sew grp).testBit k =
      (decide (k < rb * g) && (partImage (h.getV (n + k / rb)) (k / rb) rb sew grp).testBit (k % rb)) := by
  unfold groupImage
  exact testBit_layout_range (fun j => partImage (h.getV (n + j)) j rb sew grp) rb hrb g k (fun j => partImage_lt _ _ _ _ _)

/-- The poison of a register fits its bytes. -/
theorem partPoison_lt (r : VReg) (rb : Nat) : partPoison r rb < 2 ^ (rb / 8) := by
  unfold partPoison
  split
  · exact Nat.mod_lt _ (Nat.two_pow_pos _)
  · exact Nat.two_pow_pos _

/-- A poison bit of a group: that of the register that holds the byte. -/
theorem testBit_groupPoison (h : Hart) {rb : Nat} (hrb : 0 < rb / 8) (n g k : Nat) :
    (groupPoison h rb n g).testBit k =
      (decide (k < rb / 8 * g) && (partPoison (h.getV (n + k / (rb / 8))) rb).testBit (k % (rb / 8))) := by
  unfold groupPoison
  exact testBit_layout_range (fun j => partPoison (h.getV (n + j)) rb) (rb / 8) hrb g k (fun j => partPoison_lt _ _)

end Sys2Proof.Machine
end

