-- ==== Sys2Proof/Laws/IntElems.lean ====
section
/-! SUPPORT. The integer element operations of VI as operations on bit vectors (R208, R210, R211). -/

namespace Sys2Proof.Machine

/-- The signed value of a code is that of its bit vector. -/
theorem toSigned_toNat {w : Nat} (hw : 0 < w) (x : BitVec w) : toSigned w x.toNat = x.toInt := by
  have hx := x.isLt
  unfold toSigned
  rw [Nat.mod_eq_of_lt hx, BitVec.toInt_eq_toNat_cond]
  have h2 : 2 ^ w = 2 * 2 ^ (w - 1) := by
    rw [← Nat.pow_succ']; congr 1; omega
  by_cases h : x.toNat < 2 ^ (w - 1)
  · rw [if_pos h, if_pos (by omega)]
  · rw [if_neg h, if_neg (by omega)]
    norm_cast

/-- The code of an integer is that of its bit vector. -/
theorem ofSigned_eq (w : Nat) (i : Int) : ofSigned w i = (BitVec.ofInt w i).toNat := by
  rw [BitVec.toNat_ofInt]; rfl

theorem ofNat_ofSigned (w : Nat) (i : Int) : BitVec.ofNat w (ofSigned w i) = BitVec.ofInt w i := by
  rw [ofSigned_eq, BitVec.ofNat_toNat, BitVec.setWidth_eq]

theorem addElem_eq {w : Nat} (a b v : BitVec w) : BitVec.ofNat w (addElem w a.toNat b.toNat v.toNat) = b + a := by
  apply BitVec.eq_of_toNat_eq; simp [addElem]

theorem subElem_eq {w : Nat} (a b v : BitVec w) : BitVec.ofNat w (subElem w a.toNat b.toNat v.toNat) = b - a := by
  apply BitVec.eq_of_toNat_eq; simp [subElem, BitVec.toNat_sub, Nat.add_comm]

theorem rsubElem_eq {w : Nat} (a b v : BitVec w) : BitVec.ofNat w (rsubElem w a.toNat b.toNat v.toNat) = a - b := by
  apply BitVec.eq_of_toNat_eq; simp [rsubElem, BitVec.toNat_sub, Nat.add_comm]

theorem mulElem_eq {w : Nat} (a b v : BitVec w) : BitVec.ofNat w (mulElem w a.toNat b.toNat v.toNat) = b * a := by
  apply BitVec.eq_of_toNat_eq; simp [mulElem]

theorem mulhElem_eq {w : Nat} (hw : 0 < w) (a b v : BitVec w) :
    BitVec.ofNat w (mulhElem w a.toNat b.toNat v.toNat) = BitVec.ofInt w (b.toInt * a.toInt / (2 ^ w : Nat)) := by
  simp [mulhElem, toSigned_toNat hw, ofNat_ofSigned]

theorem minElem_eq {w : Nat} (hw : 0 < w) (a b v : BitVec w) :
    BitVec.ofNat w (minElem w a.toNat b.toNat v.toNat) = if b.sle a then b else a := by
  simp only [minElem, toSigned_toNat hw, BitVec.sle, decide_eq_true_eq]
  split <;> simp

theorem maxElem_eq {w : Nat} (hw : 0 < w) (a b v : BitVec w) :
    BitVec.ofNat w (maxElem w a.toNat b.toNat v.toNat) = if a.sle b then b else a := by
  simp only [maxElem, toSigned_toNat hw, BitVec.sle, decide_eq_true_eq]
  split <;> simp

theorem andElem_eq {w : Nat} (a b v : BitVec w) : BitVec.ofNat w (andElem w a.toNat b.toNat v.toNat) = b &&& a := by
  apply BitVec.eq_of_toNat_eq
  rw [andElem, BitVec.toNat_ofNat, BitVec.toNat_and, Nat.mod_eq_of_lt (Nat.and_lt_two_pow _ a.isLt)]

theorem orElem_eq {w : Nat} (a b v : BitVec w) : BitVec.ofNat w (orElem w a.toNat b.toNat v.toNat) = b ||| a := by
  apply BitVec.eq_of_toNat_eq
  rw [orElem, BitVec.toNat_ofNat, BitVec.toNat_or, Nat.mod_eq_of_lt (Nat.or_lt_two_pow b.isLt a.isLt)]

theorem xorElem_eq {w : Nat} (a b v : BitVec w) : BitVec.ofNat w (xorElem w a.toNat b.toNat v.toNat) = b ^^^ a := by
  apply BitVec.eq_of_toNat_eq
  rw [xorElem, BitVec.toNat_ofNat, BitVec.toNat_xor, Nat.mod_eq_of_lt (Nat.xor_lt_two_pow b.isLt a.isLt)]

theorem sllElem_eq {w : Nat} (a b v : BitVec w) :
    BitVec.ofNat w (sllElem w a.toNat b.toNat v.toNat) = b <<< (a.toNat % w) := by
  apply BitVec.eq_of_toNat_eq
  simp [sllElem, BitVec.toNat_shiftLeft, Nat.shiftLeft_eq]

theorem srlElem_eq {w : Nat} (a b v : BitVec w) :
    BitVec.ofNat w (srlElem w a.toNat b.toNat v.toNat) = b >>> (a.toNat % w) := by
  apply BitVec.eq_of_toNat_eq
  rw [srlElem, BitVec.toNat_ofNat, BitVec.toNat_ushiftRight, Nat.shiftRight_eq_div_pow,
    Nat.mod_eq_of_lt (Nat.lt_of_le_of_lt (Nat.div_le_self _ _) b.isLt)]

theorem sraElem_eq {w : Nat} (hw : 0 < w) (a b v : BitVec w) :
    BitVec.ofNat w (sraElem w a.toNat b.toNat v.toNat) = b.sshiftRight (a.toNat % w) := by
  rw [sraElem, ofNat_ofSigned, toSigned_toNat hw]
  rw [BitVec.sshiftRight, Int.shiftRight_eq_div_pow]

theorem macElem_eq {w : Nat} (a b v : BitVec w) : BitVec.ofNat w (macElem w a.toNat b.toNat v.toNat) = v + b * a := by
  apply BitVec.eq_of_toNat_eq; simp [macElem]

theorem minzElem_eq {w : Nat} (a b v : BitVec w) :
    BitVec.ofNat w (minzElem w a.toNat b.toNat v.toNat) = if b ≤ a then b else a := by
  simp only [minzElem, BitVec.le_def, Nat.min_def]; split <;> simp

theorem maxzElem_eq {w : Nat} (a b v : BitVec w) :
    BitVec.ofNat w (maxzElem w a.toNat b.toNat v.toNat) = if a ≤ b then b else a := by
  simp only [maxzElem, BitVec.le_def, Nat.max_def]
  have hab : ∀ x y : BitVec w, x.toNat = y.toNat → x = y := fun _ _ => BitVec.eq_of_toNat_eq
  split <;> split <;> simp <;> (apply hab; omega)

theorem mulhzElem_eq {w : Nat} (a b v : BitVec w) :
    BitVec.ofNat w (mulhzElem w a.toNat b.toNat v.toNat) = BitVec.ofNat w (b.toNat * a.toNat / 2 ^ w) := rfl

theorem divzElem_eq {w : Nat} (a b v : BitVec w) :
    BitVec.ofNat w (divzElem w a.toNat b.toNat v.toNat) = if a = 0#w then BitVec.allOnes w else b / a := by
  unfold divzElem
  by_cases h : a = 0#w
  · subst h
    apply BitVec.eq_of_toNat_eq
    simp [Nat.mod_eq_of_lt (Nat.sub_lt (Nat.two_pow_pos w) Nat.one_pos)]
  · have : a.toNat ≠ 0 := fun hz => h (BitVec.eq_of_toNat_eq (by simpa using hz))
    rw [if_neg this, if_neg h]
    apply BitVec.eq_of_toNat_eq
    rw [BitVec.toNat_ofNat, BitVec.toNat_udiv, Nat.mod_eq_of_lt (Nat.lt_of_le_of_lt (Nat.div_le_self _ _) b.isLt)]

/-- The one quotient out of range: the least number over −1. -/
theorem least_over_minus_one {w : Nat} (hw : 0 < w) {a b : BitVec w} (hb : b.toNat = 2 ^ (w - 1)) (ha : a.toNat = 2 ^ w - 1) :
    b.toInt = -(2 ^ (w - 1) : Nat) ∧ a.toInt = -1 := by
  have h2 : 2 ^ w = 2 * 2 ^ (w - 1) := by rw [← Nat.pow_succ']; congr 1; omega
  have hp := Nat.two_pow_pos (w - 1)
  rw [BitVec.toInt_eq_toNat_cond, BitVec.toInt_eq_toNat_cond, hb, ha]
  constructor
  · rw [if_neg (by omega), h2]; omega
  · rw [if_neg (by omega)]; omega

theorem divElem_eq {w : Nat} (hw : 0 < w) (a b v : BitVec w) :
    BitVec.ofNat w (divElem w a.toNat b.toNat v.toNat) = if a = 0#w then BitVec.allOnes w else b.sdiv a := by
  unfold divElem
  by_cases h : a = 0#w
  · subst h
    apply BitVec.eq_of_toNat_eq
    simp [Nat.mod_eq_of_lt (Nat.sub_lt (Nat.two_pow_pos w) Nat.one_pos)]
  · have : a.toNat ≠ 0 := fun hz => h (BitVec.eq_of_toNat_eq (by simpa using hz))
    rw [if_neg this, if_neg h]
    apply BitVec.eq_of_toInt_eq
    rw [BitVec.toInt_sdiv]
    split
    · rename_i hs
      obtain ⟨e1, e2⟩ := least_over_minus_one hw hs.1 hs.2
      have h2 : 2 ^ w = 2 * 2 ^ (w - 1) := by rw [← Nat.pow_succ']; congr 1; omega
      have hp := Nat.two_pow_pos (w - 1)
      rw [BitVec.ofNat_toNat, BitVec.setWidth_eq, e1, e2]
      generalize 2 ^ (w - 1) = n at *
      rw [h2, Int.tdiv_neg, Int.tdiv_one]
      unfold Int.bmod
      have : (-(-(n : Int))) % ((2 * n : Nat) : Int) = n := by
        rw [Int.neg_neg]; exact Int.emod_eq_of_lt (by omega) (by omega)
      rw [this, if_neg (by omega)]
      omega
    · rw [ofNat_ofSigned, toSigned_toNat hw, toSigned_toNat hw, BitVec.toInt_ofInt]

theorem remElem_eq {w : Nat} (hw : 0 < w) (a b v : BitVec w) :
    BitVec.ofNat w (remElem w a.toNat b.toNat v.toNat) = if a = 0#w then b else b.srem a := by
  unfold remElem
  by_cases h : a = 0#w
  · subst h; simp
  · have : a.toNat ≠ 0 := fun hz => h (BitVec.eq_of_toNat_eq (by simpa using hz))
    rw [if_neg this, if_neg h]
    apply BitVec.eq_of_toInt_eq
    rw [BitVec.toInt_srem]
    split
    · rename_i hs
      obtain ⟨e1, e2⟩ := least_over_minus_one hw hs.1 hs.2
      rw [e1, e2, Int.tmod_neg, Int.tmod_one]
      simp
    · rw [ofNat_ofSigned, toSigned_toNat hw, toSigned_toNat hw, BitVec.toInt_ofInt]
      have : b.toInt - a.toInt * b.toInt.tdiv a.toInt = b.toInt.tmod a.toInt := by
        have := Int.mul_tdiv_add_tmod b.toInt a.toInt; omega
      rw [this]
      have h1 := BitVec.toInt_srem b a
      have h3 := BitVec.toInt_lt (x := b.srem a)
      have h4 := BitVec.le_toInt (x := b.srem a)
      rw [h1] at h3 h4
      exact Int.bmod_eq_of_le_mul_two (by
        have h2 : (2 : Int) ^ w = 2 * 2 ^ (w - 1) := by rw [← Int.pow_succ']; congr 1; omega
        have : ((2 ^ w : Nat) : Int) = 2 ^ w := by norm_cast
        omega) (by
        have h2 : (2 : Int) ^ w = 2 * 2 ^ (w - 1) := by rw [← Int.pow_succ']; congr 1; omega
        have : ((2 ^ w : Nat) : Int) = 2 ^ w := by norm_cast
        omega)

theorem remzElem_eq {w : Nat} (a b v : BitVec w) :
    BitVec.ofNat w (remzElem w a.toNat b.toNat v.toNat) = if a = 0#w then b else b % a := by
  unfold remzElem
  by_cases h : a = 0#w
  · subst h; simp
  · have : a.toNat ≠ 0 := fun hz => h (BitVec.eq_of_toNat_eq (by simpa using hz))
    rw [if_neg this, if_neg h]
    apply BitVec.eq_of_toNat_eq
    rw [BitVec.toNat_ofNat, BitVec.toNat_umod, Nat.mod_eq_of_lt (Nat.lt_of_le_of_lt (Nat.mod_le _ _) b.isLt)]

theorem saddElem_eq {w : Nat} (hw : 0 < w) (a b v : BitVec w) :
    BitVec.ofNat w (saddElem w a.toNat b.toNat v.toNat) = BitVec.ofInt w (satSigned w (b.toInt + a.toInt)) := by
  rw [saddElem, ofNat_ofSigned, toSigned_toNat hw, toSigned_toNat hw]

theorem ssubElem_eq {w : Nat} (hw : 0 < w) (a b v : BitVec w) :
    BitVec.ofNat w (ssubElem w a.toNat b.toNat v.toNat) = BitVec.ofInt w (satSigned w (b.toInt - a.toInt)) := by
  rw [ssubElem, ofNat_ofSigned, toSigned_toNat hw, toSigned_toNat hw]

theorem absdElem_eq {w : Nat} (hw : 0 < w) (a b v : BitVec w) :
    BitVec.ofNat w (absdElem w a.toNat b.toNat v.toNat) = BitVec.ofNat w (b.toInt - a.toInt).natAbs := by
  apply BitVec.eq_of_toNat_eq
  simp [absdElem, toSigned_toNat hw]

end Sys2Proof.Machine
end

