-- ==== Sys2Proof/Laws/State.lean ====
section
/-! SUPPORT. What each plain update of `State` and `Hart` leaves: one lemma for each field and update. -/

namespace Sys2Proof.Machine

/-! `State.onHart`. -/

@[simp] theorem State.onHart_hart (s : State) (f : Hart → Hart) : (s.onHart f).hart = f s.hart := rfl
@[simp] theorem State.onHart_others (s : State) (f : Hart → Hart) : (s.onHart f).others = s.others := rfl
@[simp] theorem State.onHart_gangs (s : State) (f : Hart → Hart) : (s.onHart f).gangs = s.gangs := rfl
@[simp] theorem State.onHart_launches (s : State) (f : Hart → Hart) : (s.onHart f).launches = s.launches := rfl
@[simp] theorem State.onHart_cores (s : State) (f : Hart → Hart) : (s.onHart f).cores = s.cores := rfl
@[simp] theorem State.onHart_strings (s : State) (f : Hart → Hart) : (s.onHart f).strings = s.strings := rfl
@[simp] theorem State.onHart_mem (s : State) (f : Hart → Hart) : (s.onHart f).mem = s.mem := rfl
@[simp] theorem State.onHart_poison (s : State) (f : Hart → Hart) : (s.onHart f).poison = s.poison := rfl
@[simp] theorem State.onHart_kinds (s : State) (f : Hart → Hart) : (s.onHart f).kinds = s.kinds := rfl
@[simp] theorem State.onHart_stale (s : State) (f : Hart → Hart) : (s.onHart f).stale = s.stale := rfl
@[simp] theorem State.onHart_tlb (s : State) (f : Hart → Hart) : (s.onHart f).tlb = s.tlb := rfl
@[simp] theorem State.onHart_pins (s : State) (f : Hart → Hart) : (s.onHart f).pins = s.pins := rfl
@[simp] theorem State.onHart_locks (s : State) (f : Hart → Hart) : (s.onHart f).locks = s.locks := rfl
@[simp] theorem State.onHart_passed (s : State) (f : Hart → Hart) : (s.onHart f).passed = s.passed := rfl
@[simp] theorem State.onHart_nq (s : State) (f : Hart → Hart) : (s.onHart f).nq = s.nq := rfl
@[simp] theorem State.onHart_memReady (s : State) (f : Hart → Hart) : (s.onHart f).memReady = s.memReady := rfl
@[simp] theorem State.onHart_restarted (s : State) (f : Hart → Hart) : (s.onHart f).restarted = s.restarted := rfl
@[simp] theorem State.onHart_mapOut (s : State) (f : Hart → Hart) : (s.onHart f).mapOut = s.mapOut := rfl
@[simp] theorem State.onHart_d2d (s : State) (f : Hart → Hart) : (s.onHart f).d2d = s.d2d := rfl
@[simp] theorem State.onHart_phy (s : State) (f : Hart → Hart) : (s.onHart f).phy = s.phy := rfl
@[simp] theorem State.onHart_regions (s : State) (f : Hart → Hart) : (s.onHart f).regions = s.regions := rfl
@[simp] theorem State.onHart_expanders (s : State) (f : Hart → Hart) : (s.onHart f).expanders = s.expanders := rfl
@[simp] theorem State.onHart_cxlQueue (s : State) (f : Hart → Hart) : (s.onHart f).cxlQueue = s.cxlQueue := rfl
@[simp] theorem State.onHart_errHead (s : State) (f : Hart → Hart) : (s.onHart f).errHead = s.errHead := rfl
@[simp] theorem State.onHart_errors (s : State) (f : Hart → Hart) : (s.onHart f).errors = s.errors := rfl
@[simp] theorem State.onHart_time (s : State) (f : Hart → Hart) : (s.onHart f).time = s.time := rfl
@[simp] theorem State.onHart_slew (s : State) (f : Hart → Hart) : (s.onHart f).slew = s.slew := rfl
@[simp] theorem State.onHart_slewed (s : State) (f : Hart → Hart) : (s.onHart f).slewed = s.slewed := rfl
@[simp] theorem State.onHart_device (s : State) (f : Hart → Hart) : (s.onHart f).device = s.device := rfl
@[simp] theorem State.onHart_routes (s : State) (f : Hart → Hart) : (s.onHart f).routes = s.routes := rfl
@[simp] theorem State.onHart_rows (s : State) (f : Hart → Hart) : (s.onHart f).rows = s.rows := rfl
@[simp] theorem State.onHart_queues (s : State) (f : Hart → Hart) : (s.onHart f).queues = s.queues := rfl
@[simp] theorem State.onHart_roundRobin (s : State) (f : Hart → Hart) : (s.onHart f).roundRobin = s.roundRobin := rfl
@[simp] theorem State.onHart_granules (s : State) (f : Hart → Hart) : (s.onHart f).granules = s.granules := rfl
@[simp] theorem State.onHart_windows (s : State) (f : Hart → Hart) : (s.onHart f).windows = s.windows := rfl
@[simp] theorem State.onHart_realms (s : State) (f : Hart → Hart) : (s.onHart f).realms = s.realms := rfl
@[simp] theorem State.onHart_keys (s : State) (f : Hart → Hart) : (s.onHart f).keys = s.keys := rfl
@[simp] theorem State.onHart_frameDrops (s : State) (f : Hart → Hart) : (s.onHart f).frameDrops = s.frameDrops := rfl
@[simp] theorem State.onHart_report (s : State) (f : Hart → Hart) : (s.onHart f).report = s.report := rfl
@[simp] theorem State.onHart_flashReport (s : State) (f : Hart → Hart) : (s.onHart f).flashReport = s.flashReport := rfl
@[simp] theorem State.onHart_attestation (s : State) (f : Hart → Hart) : (s.onHart f).attestation = s.attestation := rfl
@[simp] theorem State.onHart_measurements (s : State) (f : Hart → Hart) : (s.onHart f).measurements = s.measurements := rfl
@[simp] theorem State.onHart_images (s : State) (f : Hart → Hart) : (s.onHart f).images = s.images := rfl
@[simp] theorem State.onHart_systemEvents (s : State) (f : Hart → Hart) : (s.onHart f).systemEvents = s.systemEvents := rfl
@[simp] theorem State.onHart_sysCores (s : State) (f : Hart → Hart) : (s.onHart f).sysCores = s.sysCores := rfl
@[simp] theorem State.onHart_boot (s : State) (f : Hart → Hart) : (s.onHart f).boot = s.boot := rfl
@[simp] theorem State.onHart_result (s : State) (f : Hart → Hart) : (s.onHart f).result = s.result := rfl
@[simp] theorem State.onHart_powerActions (s : State) (f : Hart → Hart) : (s.onHart f).powerActions = s.powerActions := rfl
@[simp] theorem State.onHart_holdAlias (s : State) (f : Hart → Hart) : (s.onHart f).holdAlias = s.holdAlias := rfl
@[simp] theorem State.onHart_agenda (s : State) (f : Hart → Hart) : (s.onHart f).agenda = s.agenda := rfl
@[simp] theorem State.onHart_turn (s : State) (f : Hart → Hart) : (s.onHart f).turn = s.turn := rfl
@[simp] theorem State.onHart_freeCounter (s : State) (f : Hart → Hart) : (s.onHart f).freeCounter = s.freeCounter := rfl
@[simp] theorem State.onHart_nextKey (s : State) (f : Hart → Hart) : (s.onHart f).nextKey = s.nextKey := rfl

/-! `State.setPc`. -/

@[simp] theorem State.setPc_hart (s : State) (pc : Word) : (s.setPc pc).hart = { s.hart with pc := pc } := rfl
@[simp] theorem State.setPc_others (s : State) (pc : Word) : (s.setPc pc).others = s.others := rfl
@[simp] theorem State.setPc_gangs (s : State) (pc : Word) : (s.setPc pc).gangs = s.gangs := rfl
@[simp] theorem State.setPc_launches (s : State) (pc : Word) : (s.setPc pc).launches = s.launches := rfl
@[simp] theorem State.setPc_cores (s : State) (pc : Word) : (s.setPc pc).cores = s.cores := rfl
@[simp] theorem State.setPc_strings (s : State) (pc : Word) : (s.setPc pc).strings = s.strings := rfl
@[simp] theorem State.setPc_mem (s : State) (pc : Word) : (s.setPc pc).mem = s.mem := rfl
@[simp] theorem State.setPc_poison (s : State) (pc : Word) : (s.setPc pc).poison = s.poison := rfl
@[simp] theorem State.setPc_kinds (s : State) (pc : Word) : (s.setPc pc).kinds = s.kinds := rfl
@[simp] theorem State.setPc_stale (s : State) (pc : Word) : (s.setPc pc).stale = s.stale := rfl
@[simp] theorem State.setPc_tlb (s : State) (pc : Word) : (s.setPc pc).tlb = s.tlb := rfl
@[simp] theorem State.setPc_pins (s : State) (pc : Word) : (s.setPc pc).pins = s.pins := rfl
@[simp] theorem State.setPc_locks (s : State) (pc : Word) : (s.setPc pc).locks = s.locks := rfl
@[simp] theorem State.setPc_passed (s : State) (pc : Word) : (s.setPc pc).passed = s.passed := rfl
@[simp] theorem State.setPc_nq (s : State) (pc : Word) : (s.setPc pc).nq = s.nq := rfl
@[simp] theorem State.setPc_memReady (s : State) (pc : Word) : (s.setPc pc).memReady = s.memReady := rfl
@[simp] theorem State.setPc_restarted (s : State) (pc : Word) : (s.setPc pc).restarted = s.restarted := rfl
@[simp] theorem State.setPc_mapOut (s : State) (pc : Word) : (s.setPc pc).mapOut = s.mapOut := rfl
@[simp] theorem State.setPc_d2d (s : State) (pc : Word) : (s.setPc pc).d2d = s.d2d := rfl
@[simp] theorem State.setPc_phy (s : State) (pc : Word) : (s.setPc pc).phy = s.phy := rfl
@[simp] theorem State.setPc_regions (s : State) (pc : Word) : (s.setPc pc).regions = s.regions := rfl
@[simp] theorem State.setPc_expanders (s : State) (pc : Word) : (s.setPc pc).expanders = s.expanders := rfl
@[simp] theorem State.setPc_cxlQueue (s : State) (pc : Word) : (s.setPc pc).cxlQueue = s.cxlQueue := rfl
@[simp] theorem State.setPc_errHead (s : State) (pc : Word) : (s.setPc pc).errHead = s.errHead := rfl
@[simp] theorem State.setPc_errors (s : State) (pc : Word) : (s.setPc pc).errors = s.errors := rfl
@[simp] theorem State.setPc_time (s : State) (pc : Word) : (s.setPc pc).time = s.time := rfl
@[simp] theorem State.setPc_slew (s : State) (pc : Word) : (s.setPc pc).slew = s.slew := rfl
@[simp] theorem State.setPc_slewed (s : State) (pc : Word) : (s.setPc pc).slewed = s.slewed := rfl
@[simp] theorem State.setPc_device (s : State) (pc : Word) : (s.setPc pc).device = s.device := rfl
@[simp] theorem State.setPc_routes (s : State) (pc : Word) : (s.setPc pc).routes = s.routes := rfl
@[simp] theorem State.setPc_rows (s : State) (pc : Word) : (s.setPc pc).rows = s.rows := rfl
@[simp] theorem State.setPc_queues (s : State) (pc : Word) : (s.setPc pc).queues = s.queues := rfl
@[simp] theorem State.setPc_roundRobin (s : State) (pc : Word) : (s.setPc pc).roundRobin = s.roundRobin := rfl
@[simp] theorem State.setPc_granules (s : State) (pc : Word) : (s.setPc pc).granules = s.granules := rfl
@[simp] theorem State.setPc_windows (s : State) (pc : Word) : (s.setPc pc).windows = s.windows := rfl
@[simp] theorem State.setPc_realms (s : State) (pc : Word) : (s.setPc pc).realms = s.realms := rfl
@[simp] theorem State.setPc_keys (s : State) (pc : Word) : (s.setPc pc).keys = s.keys := rfl
@[simp] theorem State.setPc_frameDrops (s : State) (pc : Word) : (s.setPc pc).frameDrops = s.frameDrops := rfl
@[simp] theorem State.setPc_report (s : State) (pc : Word) : (s.setPc pc).report = s.report := rfl
@[simp] theorem State.setPc_flashReport (s : State) (pc : Word) : (s.setPc pc).flashReport = s.flashReport := rfl
@[simp] theorem State.setPc_attestation (s : State) (pc : Word) : (s.setPc pc).attestation = s.attestation := rfl
@[simp] theorem State.setPc_measurements (s : State) (pc : Word) : (s.setPc pc).measurements = s.measurements := rfl
@[simp] theorem State.setPc_images (s : State) (pc : Word) : (s.setPc pc).images = s.images := rfl
@[simp] theorem State.setPc_systemEvents (s : State) (pc : Word) : (s.setPc pc).systemEvents = s.systemEvents := rfl
@[simp] theorem State.setPc_sysCores (s : State) (pc : Word) : (s.setPc pc).sysCores = s.sysCores := rfl
@[simp] theorem State.setPc_boot (s : State) (pc : Word) : (s.setPc pc).boot = s.boot := rfl
@[simp] theorem State.setPc_result (s : State) (pc : Word) : (s.setPc pc).result = s.result := rfl
@[simp] theorem State.setPc_powerActions (s : State) (pc : Word) : (s.setPc pc).powerActions = s.powerActions := rfl
@[simp] theorem State.setPc_holdAlias (s : State) (pc : Word) : (s.setPc pc).holdAlias = s.holdAlias := rfl
@[simp] theorem State.setPc_agenda (s : State) (pc : Word) : (s.setPc pc).agenda = s.agenda := rfl
@[simp] theorem State.setPc_turn (s : State) (pc : Word) : (s.setPc pc).turn = s.turn := rfl
@[simp] theorem State.setPc_freeCounter (s : State) (pc : Word) : (s.setPc pc).freeCounter = s.freeCounter := rfl
@[simp] theorem State.setPc_nextKey (s : State) (pc : Word) : (s.setPc pc).nextKey = s.nextKey := rfl

/-! `State.setX`. -/

@[simp] theorem State.setX_hart (s : State) (r : XReg) (v : Word) : (s.setX r v).hart = s.hart.setX r v := rfl
@[simp] theorem State.setX_others (s : State) (r : XReg) (v : Word) : (s.setX r v).others = s.others := rfl
@[simp] theorem State.setX_gangs (s : State) (r : XReg) (v : Word) : (s.setX r v).gangs = s.gangs := rfl
@[simp] theorem State.setX_launches (s : State) (r : XReg) (v : Word) : (s.setX r v).launches = s.launches := rfl
@[simp] theorem State.setX_cores (s : State) (r : XReg) (v : Word) : (s.setX r v).cores = s.cores := rfl
@[simp] theorem State.setX_strings (s : State) (r : XReg) (v : Word) : (s.setX r v).strings = s.strings := rfl
@[simp] theorem State.setX_mem (s : State) (r : XReg) (v : Word) : (s.setX r v).mem = s.mem := rfl
@[simp] theorem State.setX_poison (s : State) (r : XReg) (v : Word) : (s.setX r v).poison = s.poison := rfl
@[simp] theorem State.setX_kinds (s : State) (r : XReg) (v : Word) : (s.setX r v).kinds = s.kinds := rfl
@[simp] theorem State.setX_stale (s : State) (r : XReg) (v : Word) : (s.setX r v).stale = s.stale := rfl
@[simp] theorem State.setX_tlb (s : State) (r : XReg) (v : Word) : (s.setX r v).tlb = s.tlb := rfl
@[simp] theorem State.setX_pins (s : State) (r : XReg) (v : Word) : (s.setX r v).pins = s.pins := rfl
@[simp] theorem State.setX_locks (s : State) (r : XReg) (v : Word) : (s.setX r v).locks = s.locks := rfl
@[simp] theorem State.setX_passed (s : State) (r : XReg) (v : Word) : (s.setX r v).passed = s.passed := rfl
@[simp] theorem State.setX_nq (s : State) (r : XReg) (v : Word) : (s.setX r v).nq = s.nq := rfl
@[simp] theorem State.setX_memReady (s : State) (r : XReg) (v : Word) : (s.setX r v).memReady = s.memReady := rfl
@[simp] theorem State.setX_restarted (s : State) (r : XReg) (v : Word) : (s.setX r v).restarted = s.restarted := rfl
@[simp] theorem State.setX_mapOut (s : State) (r : XReg) (v : Word) : (s.setX r v).mapOut = s.mapOut := rfl
@[simp] theorem State.setX_d2d (s : State) (r : XReg) (v : Word) : (s.setX r v).d2d = s.d2d := rfl
@[simp] theorem State.setX_phy (s : State) (r : XReg) (v : Word) : (s.setX r v).phy = s.phy := rfl
@[simp] theorem State.setX_regions (s : State) (r : XReg) (v : Word) : (s.setX r v).regions = s.regions := rfl
@[simp] theorem State.setX_expanders (s : State) (r : XReg) (v : Word) : (s.setX r v).expanders = s.expanders := rfl
@[simp] theorem State.setX_cxlQueue (s : State) (r : XReg) (v : Word) : (s.setX r v).cxlQueue = s.cxlQueue := rfl
@[simp] theorem State.setX_errHead (s : State) (r : XReg) (v : Word) : (s.setX r v).errHead = s.errHead := rfl
@[simp] theorem State.setX_errors (s : State) (r : XReg) (v : Word) : (s.setX r v).errors = s.errors := rfl
@[simp] theorem State.setX_time (s : State) (r : XReg) (v : Word) : (s.setX r v).time = s.time := rfl
@[simp] theorem State.setX_slew (s : State) (r : XReg) (v : Word) : (s.setX r v).slew = s.slew := rfl
@[simp] theorem State.setX_slewed (s : State) (r : XReg) (v : Word) : (s.setX r v).slewed = s.slewed := rfl
@[simp] theorem State.setX_device (s : State) (r : XReg) (v : Word) : (s.setX r v).device = s.device := rfl
@[simp] theorem State.setX_routes (s : State) (r : XReg) (v : Word) : (s.setX r v).routes = s.routes := rfl
@[simp] theorem State.setX_rows (s : State) (r : XReg) (v : Word) : (s.setX r v).rows = s.rows := rfl
@[simp] theorem State.setX_queues (s : State) (r : XReg) (v : Word) : (s.setX r v).queues = s.queues := rfl
@[simp] theorem State.setX_roundRobin (s : State) (r : XReg) (v : Word) : (s.setX r v).roundRobin = s.roundRobin := rfl
@[simp] theorem State.setX_granules (s : State) (r : XReg) (v : Word) : (s.setX r v).granules = s.granules := rfl
@[simp] theorem State.setX_windows (s : State) (r : XReg) (v : Word) : (s.setX r v).windows = s.windows := rfl
@[simp] theorem State.setX_realms (s : State) (r : XReg) (v : Word) : (s.setX r v).realms = s.realms := rfl
@[simp] theorem State.setX_keys (s : State) (r : XReg) (v : Word) : (s.setX r v).keys = s.keys := rfl
@[simp] theorem State.setX_frameDrops (s : State) (r : XReg) (v : Word) : (s.setX r v).frameDrops = s.frameDrops := rfl
@[simp] theorem State.setX_report (s : State) (r : XReg) (v : Word) : (s.setX r v).report = s.report := rfl
@[simp] theorem State.setX_flashReport (s : State) (r : XReg) (v : Word) : (s.setX r v).flashReport = s.flashReport := rfl
@[simp] theorem State.setX_attestation (s : State) (r : XReg) (v : Word) : (s.setX r v).attestation = s.attestation := rfl
@[simp] theorem State.setX_measurements (s : State) (r : XReg) (v : Word) : (s.setX r v).measurements = s.measurements := rfl
@[simp] theorem State.setX_images (s : State) (r : XReg) (v : Word) : (s.setX r v).images = s.images := rfl
@[simp] theorem State.setX_systemEvents (s : State) (r : XReg) (v : Word) : (s.setX r v).systemEvents = s.systemEvents := rfl
@[simp] theorem State.setX_sysCores (s : State) (r : XReg) (v : Word) : (s.setX r v).sysCores = s.sysCores := rfl
@[simp] theorem State.setX_boot (s : State) (r : XReg) (v : Word) : (s.setX r v).boot = s.boot := rfl
@[simp] theorem State.setX_result (s : State) (r : XReg) (v : Word) : (s.setX r v).result = s.result := rfl
@[simp] theorem State.setX_powerActions (s : State) (r : XReg) (v : Word) : (s.setX r v).powerActions = s.powerActions := rfl
@[simp] theorem State.setX_holdAlias (s : State) (r : XReg) (v : Word) : (s.setX r v).holdAlias = s.holdAlias := rfl
@[simp] theorem State.setX_agenda (s : State) (r : XReg) (v : Word) : (s.setX r v).agenda = s.agenda := rfl
@[simp] theorem State.setX_turn (s : State) (r : XReg) (v : Word) : (s.setX r v).turn = s.turn := rfl
@[simp] theorem State.setX_freeCounter (s : State) (r : XReg) (v : Word) : (s.setX r v).freeCounter = s.freeCounter := rfl
@[simp] theorem State.setX_nextKey (s : State) (r : XReg) (v : Word) : (s.setX r v).nextKey = s.nextKey := rfl

/-! `State.setCore`. -/

@[simp] theorem State.setCore_hart (s : State) (c : Nat) (x : CoreState) : (s.setCore c x).hart = s.hart := rfl
@[simp] theorem State.setCore_others (s : State) (c : Nat) (x : CoreState) : (s.setCore c x).others = s.others := rfl
@[simp] theorem State.setCore_gangs (s : State) (c : Nat) (x : CoreState) : (s.setCore c x).gangs = s.gangs := rfl
@[simp] theorem State.setCore_launches (s : State) (c : Nat) (x : CoreState) : (s.setCore c x).launches = s.launches := rfl
@[simp] theorem State.setCore_cores (s : State) (c : Nat) (x : CoreState) : (s.setCore c x).cores = s.cores.setIfInBounds c x := rfl
@[simp] theorem State.setCore_strings (s : State) (c : Nat) (x : CoreState) : (s.setCore c x).strings = s.strings := rfl
@[simp] theorem State.setCore_mem (s : State) (c : Nat) (x : CoreState) : (s.setCore c x).mem = s.mem := rfl
@[simp] theorem State.setCore_poison (s : State) (c : Nat) (x : CoreState) : (s.setCore c x).poison = s.poison := rfl
@[simp] theorem State.setCore_kinds (s : State) (c : Nat) (x : CoreState) : (s.setCore c x).kinds = s.kinds := rfl
@[simp] theorem State.setCore_stale (s : State) (c : Nat) (x : CoreState) : (s.setCore c x).stale = s.stale := rfl
@[simp] theorem State.setCore_tlb (s : State) (c : Nat) (x : CoreState) : (s.setCore c x).tlb = s.tlb := rfl
@[simp] theorem State.setCore_pins (s : State) (c : Nat) (x : CoreState) : (s.setCore c x).pins = s.pins := rfl
@[simp] theorem State.setCore_locks (s : State) (c : Nat) (x : CoreState) : (s.setCore c x).locks = s.locks := rfl
@[simp] theorem State.setCore_passed (s : State) (c : Nat) (x : CoreState) : (s.setCore c x).passed = s.passed := rfl
@[simp] theorem State.setCore_nq (s : State) (c : Nat) (x : CoreState) : (s.setCore c x).nq = s.nq := rfl
@[simp] theorem State.setCore_memReady (s : State) (c : Nat) (x : CoreState) : (s.setCore c x).memReady = s.memReady := rfl
@[simp] theorem State.setCore_restarted (s : State) (c : Nat) (x : CoreState) : (s.setCore c x).restarted = s.restarted := rfl
@[simp] theorem State.setCore_mapOut (s : State) (c : Nat) (x : CoreState) : (s.setCore c x).mapOut = s.mapOut := rfl
@[simp] theorem State.setCore_d2d (s : State) (c : Nat) (x : CoreState) : (s.setCore c x).d2d = s.d2d := rfl
@[simp] theorem State.setCore_phy (s : State) (c : Nat) (x : CoreState) : (s.setCore c x).phy = s.phy := rfl
@[simp] theorem State.setCore_regions (s : State) (c : Nat) (x : CoreState) : (s.setCore c x).regions = s.regions := rfl
@[simp] theorem State.setCore_expanders (s : State) (c : Nat) (x : CoreState) : (s.setCore c x).expanders = s.expanders := rfl
@[simp] theorem State.setCore_cxlQueue (s : State) (c : Nat) (x : CoreState) : (s.setCore c x).cxlQueue = s.cxlQueue := rfl
@[simp] theorem State.setCore_errHead (s : State) (c : Nat) (x : CoreState) : (s.setCore c x).errHead = s.errHead := rfl
@[simp] theorem State.setCore_errors (s : State) (c : Nat) (x : CoreState) : (s.setCore c x).errors = s.errors := rfl
@[simp] theorem State.setCore_time (s : State) (c : Nat) (x : CoreState) : (s.setCore c x).time = s.time := rfl
@[simp] theorem State.setCore_slew (s : State) (c : Nat) (x : CoreState) : (s.setCore c x).slew = s.slew := rfl
@[simp] theorem State.setCore_slewed (s : State) (c : Nat) (x : CoreState) : (s.setCore c x).slewed = s.slewed := rfl
@[simp] theorem State.setCore_device (s : State) (c : Nat) (x : CoreState) : (s.setCore c x).device = s.device := rfl
@[simp] theorem State.setCore_routes (s : State) (c : Nat) (x : CoreState) : (s.setCore c x).routes = s.routes := rfl
@[simp] theorem State.setCore_rows (s : State) (c : Nat) (x : CoreState) : (s.setCore c x).rows = s.rows := rfl
@[simp] theorem State.setCore_queues (s : State) (c : Nat) (x : CoreState) : (s.setCore c x).queues = s.queues := rfl
@[simp] theorem State.setCore_roundRobin (s : State) (c : Nat) (x : CoreState) : (s.setCore c x).roundRobin = s.roundRobin := rfl
@[simp] theorem State.setCore_granules (s : State) (c : Nat) (x : CoreState) : (s.setCore c x).granules = s.granules := rfl
@[simp] theorem State.setCore_windows (s : State) (c : Nat) (x : CoreState) : (s.setCore c x).windows = s.windows := rfl
@[simp] theorem State.setCore_realms (s : State) (c : Nat) (x : CoreState) : (s.setCore c x).realms = s.realms := rfl
@[simp] theorem State.setCore_keys (s : State) (c : Nat) (x : CoreState) : (s.setCore c x).keys = s.keys := rfl
@[simp] theorem State.setCore_frameDrops (s : State) (c : Nat) (x : CoreState) : (s.setCore c x).frameDrops = s.frameDrops := rfl
@[simp] theorem State.setCore_report (s : State) (c : Nat) (x : CoreState) : (s.setCore c x).report = s.report := rfl
@[simp] theorem State.setCore_flashReport (s : State) (c : Nat) (x : CoreState) : (s.setCore c x).flashReport = s.flashReport := rfl
@[simp] theorem State.setCore_attestation (s : State) (c : Nat) (x : CoreState) : (s.setCore c x).attestation = s.attestation := rfl
@[simp] theorem State.setCore_measurements (s : State) (c : Nat) (x : CoreState) : (s.setCore c x).measurements = s.measurements := rfl
@[simp] theorem State.setCore_images (s : State) (c : Nat) (x : CoreState) : (s.setCore c x).images = s.images := rfl
@[simp] theorem State.setCore_systemEvents (s : State) (c : Nat) (x : CoreState) : (s.setCore c x).systemEvents = s.systemEvents := rfl
@[simp] theorem State.setCore_sysCores (s : State) (c : Nat) (x : CoreState) : (s.setCore c x).sysCores = s.sysCores := rfl
@[simp] theorem State.setCore_boot (s : State) (c : Nat) (x : CoreState) : (s.setCore c x).boot = s.boot := rfl
@[simp] theorem State.setCore_result (s : State) (c : Nat) (x : CoreState) : (s.setCore c x).result = s.result := rfl
@[simp] theorem State.setCore_powerActions (s : State) (c : Nat) (x : CoreState) : (s.setCore c x).powerActions = s.powerActions := rfl
@[simp] theorem State.setCore_holdAlias (s : State) (c : Nat) (x : CoreState) : (s.setCore c x).holdAlias = s.holdAlias := rfl
@[simp] theorem State.setCore_agenda (s : State) (c : Nat) (x : CoreState) : (s.setCore c x).agenda = s.agenda := rfl
@[simp] theorem State.setCore_turn (s : State) (c : Nat) (x : CoreState) : (s.setCore c x).turn = s.turn := rfl
@[simp] theorem State.setCore_freeCounter (s : State) (c : Nat) (x : CoreState) : (s.setCore c x).freeCounter = s.freeCounter := rfl
@[simp] theorem State.setCore_nextKey (s : State) (c : Nat) (x : CoreState) : (s.setCore c x).nextKey = s.nextKey := rfl

/-! `State.putGang`. -/

@[simp] theorem State.putGang_hart (s : State) (g : Gang) : (s.putGang g).hart = s.hart := rfl
@[simp] theorem State.putGang_others (s : State) (g : Gang) : (s.putGang g).others = s.others := rfl
@[simp] theorem State.putGang_launches (s : State) (g : Gang) : (s.putGang g).launches = s.launches := rfl
@[simp] theorem State.putGang_cores (s : State) (g : Gang) : (s.putGang g).cores = s.cores := rfl
@[simp] theorem State.putGang_strings (s : State) (g : Gang) : (s.putGang g).strings = s.strings := rfl
@[simp] theorem State.putGang_mem (s : State) (g : Gang) : (s.putGang g).mem = s.mem := rfl
@[simp] theorem State.putGang_poison (s : State) (g : Gang) : (s.putGang g).poison = s.poison := rfl
@[simp] theorem State.putGang_kinds (s : State) (g : Gang) : (s.putGang g).kinds = s.kinds := rfl
@[simp] theorem State.putGang_stale (s : State) (g : Gang) : (s.putGang g).stale = s.stale := rfl
@[simp] theorem State.putGang_tlb (s : State) (g : Gang) : (s.putGang g).tlb = s.tlb := rfl
@[simp] theorem State.putGang_pins (s : State) (g : Gang) : (s.putGang g).pins = s.pins := rfl
@[simp] theorem State.putGang_locks (s : State) (g : Gang) : (s.putGang g).locks = s.locks := rfl
@[simp] theorem State.putGang_passed (s : State) (g : Gang) : (s.putGang g).passed = s.passed := rfl
@[simp] theorem State.putGang_nq (s : State) (g : Gang) : (s.putGang g).nq = s.nq := rfl
@[simp] theorem State.putGang_memReady (s : State) (g : Gang) : (s.putGang g).memReady = s.memReady := rfl
@[simp] theorem State.putGang_restarted (s : State) (g : Gang) : (s.putGang g).restarted = s.restarted := rfl
@[simp] theorem State.putGang_mapOut (s : State) (g : Gang) : (s.putGang g).mapOut = s.mapOut := rfl
@[simp] theorem State.putGang_d2d (s : State) (g : Gang) : (s.putGang g).d2d = s.d2d := rfl
@[simp] theorem State.putGang_phy (s : State) (g : Gang) : (s.putGang g).phy = s.phy := rfl
@[simp] theorem State.putGang_regions (s : State) (g : Gang) : (s.putGang g).regions = s.regions := rfl
@[simp] theorem State.putGang_expanders (s : State) (g : Gang) : (s.putGang g).expanders = s.expanders := rfl
@[simp] theorem State.putGang_cxlQueue (s : State) (g : Gang) : (s.putGang g).cxlQueue = s.cxlQueue := rfl
@[simp] theorem State.putGang_errHead (s : State) (g : Gang) : (s.putGang g).errHead = s.errHead := rfl
@[simp] theorem State.putGang_errors (s : State) (g : Gang) : (s.putGang g).errors = s.errors := rfl
@[simp] theorem State.putGang_time (s : State) (g : Gang) : (s.putGang g).time = s.time := rfl
@[simp] theorem State.putGang_slew (s : State) (g : Gang) : (s.putGang g).slew = s.slew := rfl
@[simp] theorem State.putGang_slewed (s : State) (g : Gang) : (s.putGang g).slewed = s.slewed := rfl
@[simp] theorem State.putGang_device (s : State) (g : Gang) : (s.putGang g).device = s.device := rfl
@[simp] theorem State.putGang_routes (s : State) (g : Gang) : (s.putGang g).routes = s.routes := rfl
@[simp] theorem State.putGang_rows (s : State) (g : Gang) : (s.putGang g).rows = s.rows := rfl
@[simp] theorem State.putGang_queues (s : State) (g : Gang) : (s.putGang g).queues = s.queues := rfl
@[simp] theorem State.putGang_roundRobin (s : State) (g : Gang) : (s.putGang g).roundRobin = s.roundRobin := rfl
@[simp] theorem State.putGang_granules (s : State) (g : Gang) : (s.putGang g).granules = s.granules := rfl
@[simp] theorem State.putGang_windows (s : State) (g : Gang) : (s.putGang g).windows = s.windows := rfl
@[simp] theorem State.putGang_realms (s : State) (g : Gang) : (s.putGang g).realms = s.realms := rfl
@[simp] theorem State.putGang_keys (s : State) (g : Gang) : (s.putGang g).keys = s.keys := rfl
@[simp] theorem State.putGang_frameDrops (s : State) (g : Gang) : (s.putGang g).frameDrops = s.frameDrops := rfl
@[simp] theorem State.putGang_report (s : State) (g : Gang) : (s.putGang g).report = s.report := rfl
@[simp] theorem State.putGang_flashReport (s : State) (g : Gang) : (s.putGang g).flashReport = s.flashReport := rfl
@[simp] theorem State.putGang_attestation (s : State) (g : Gang) : (s.putGang g).attestation = s.attestation := rfl
@[simp] theorem State.putGang_measurements (s : State) (g : Gang) : (s.putGang g).measurements = s.measurements := rfl
@[simp] theorem State.putGang_images (s : State) (g : Gang) : (s.putGang g).images = s.images := rfl
@[simp] theorem State.putGang_systemEvents (s : State) (g : Gang) : (s.putGang g).systemEvents = s.systemEvents := rfl
@[simp] theorem State.putGang_sysCores (s : State) (g : Gang) : (s.putGang g).sysCores = s.sysCores := rfl
@[simp] theorem State.putGang_boot (s : State) (g : Gang) : (s.putGang g).boot = s.boot := rfl
@[simp] theorem State.putGang_result (s : State) (g : Gang) : (s.putGang g).result = s.result := rfl
@[simp] theorem State.putGang_powerActions (s : State) (g : Gang) : (s.putGang g).powerActions = s.powerActions := rfl
@[simp] theorem State.putGang_holdAlias (s : State) (g : Gang) : (s.putGang g).holdAlias = s.holdAlias := rfl
@[simp] theorem State.putGang_agenda (s : State) (g : Gang) : (s.putGang g).agenda = s.agenda := rfl
@[simp] theorem State.putGang_turn (s : State) (g : Gang) : (s.putGang g).turn = s.turn := rfl
@[simp] theorem State.putGang_freeCounter (s : State) (g : Gang) : (s.putGang g).freeCounter = s.freeCounter := rfl
@[simp] theorem State.putGang_nextKey (s : State) (g : Gang) : (s.putGang g).nextKey = s.nextKey := rfl

/-! `State.putLaunch`. -/

@[simp] theorem State.putLaunch_hart (s : State) (l : Launch) : (s.putLaunch l).hart = s.hart := rfl
@[simp] theorem State.putLaunch_others (s : State) (l : Launch) : (s.putLaunch l).others = s.others := rfl
@[simp] theorem State.putLaunch_gangs (s : State) (l : Launch) : (s.putLaunch l).gangs = s.gangs := rfl
@[simp] theorem State.putLaunch_cores (s : State) (l : Launch) : (s.putLaunch l).cores = s.cores := rfl
@[simp] theorem State.putLaunch_strings (s : State) (l : Launch) : (s.putLaunch l).strings = s.strings := rfl
@[simp] theorem State.putLaunch_mem (s : State) (l : Launch) : (s.putLaunch l).mem = s.mem := rfl
@[simp] theorem State.putLaunch_poison (s : State) (l : Launch) : (s.putLaunch l).poison = s.poison := rfl
@[simp] theorem State.putLaunch_kinds (s : State) (l : Launch) : (s.putLaunch l).kinds = s.kinds := rfl
@[simp] theorem State.putLaunch_stale (s : State) (l : Launch) : (s.putLaunch l).stale = s.stale := rfl
@[simp] theorem State.putLaunch_tlb (s : State) (l : Launch) : (s.putLaunch l).tlb = s.tlb := rfl
@[simp] theorem State.putLaunch_pins (s : State) (l : Launch) : (s.putLaunch l).pins = s.pins := rfl
@[simp] theorem State.putLaunch_locks (s : State) (l : Launch) : (s.putLaunch l).locks = s.locks := rfl
@[simp] theorem State.putLaunch_passed (s : State) (l : Launch) : (s.putLaunch l).passed = s.passed := rfl
@[simp] theorem State.putLaunch_nq (s : State) (l : Launch) : (s.putLaunch l).nq = s.nq := rfl
@[simp] theorem State.putLaunch_memReady (s : State) (l : Launch) : (s.putLaunch l).memReady = s.memReady := rfl
@[simp] theorem State.putLaunch_restarted (s : State) (l : Launch) : (s.putLaunch l).restarted = s.restarted := rfl
@[simp] theorem State.putLaunch_mapOut (s : State) (l : Launch) : (s.putLaunch l).mapOut = s.mapOut := rfl
@[simp] theorem State.putLaunch_d2d (s : State) (l : Launch) : (s.putLaunch l).d2d = s.d2d := rfl
@[simp] theorem State.putLaunch_phy (s : State) (l : Launch) : (s.putLaunch l).phy = s.phy := rfl
@[simp] theorem State.putLaunch_regions (s : State) (l : Launch) : (s.putLaunch l).regions = s.regions := rfl
@[simp] theorem State.putLaunch_expanders (s : State) (l : Launch) : (s.putLaunch l).expanders = s.expanders := rfl
@[simp] theorem State.putLaunch_cxlQueue (s : State) (l : Launch) : (s.putLaunch l).cxlQueue = s.cxlQueue := rfl
@[simp] theorem State.putLaunch_errHead (s : State) (l : Launch) : (s.putLaunch l).errHead = s.errHead := rfl
@[simp] theorem State.putLaunch_errors (s : State) (l : Launch) : (s.putLaunch l).errors = s.errors := rfl
@[simp] theorem State.putLaunch_time (s : State) (l : Launch) : (s.putLaunch l).time = s.time := rfl
@[simp] theorem State.putLaunch_slew (s : State) (l : Launch) : (s.putLaunch l).slew = s.slew := rfl
@[simp] theorem State.putLaunch_slewed (s : State) (l : Launch) : (s.putLaunch l).slewed = s.slewed := rfl
@[simp] theorem State.putLaunch_device (s : State) (l : Launch) : (s.putLaunch l).device = s.device := rfl
@[simp] theorem State.putLaunch_routes (s : State) (l : Launch) : (s.putLaunch l).routes = s.routes := rfl
@[simp] theorem State.putLaunch_rows (s : State) (l : Launch) : (s.putLaunch l).rows = s.rows := rfl
@[simp] theorem State.putLaunch_queues (s : State) (l : Launch) : (s.putLaunch l).queues = s.queues := rfl
@[simp] theorem State.putLaunch_roundRobin (s : State) (l : Launch) : (s.putLaunch l).roundRobin = s.roundRobin := rfl
@[simp] theorem State.putLaunch_granules (s : State) (l : Launch) : (s.putLaunch l).granules = s.granules := rfl
@[simp] theorem State.putLaunch_windows (s : State) (l : Launch) : (s.putLaunch l).windows = s.windows := rfl
@[simp] theorem State.putLaunch_realms (s : State) (l : Launch) : (s.putLaunch l).realms = s.realms := rfl
@[simp] theorem State.putLaunch_keys (s : State) (l : Launch) : (s.putLaunch l).keys = s.keys := rfl
@[simp] theorem State.putLaunch_frameDrops (s : State) (l : Launch) : (s.putLaunch l).frameDrops = s.frameDrops := rfl
@[simp] theorem State.putLaunch_report (s : State) (l : Launch) : (s.putLaunch l).report = s.report := rfl
@[simp] theorem State.putLaunch_flashReport (s : State) (l : Launch) : (s.putLaunch l).flashReport = s.flashReport := rfl
@[simp] theorem State.putLaunch_attestation (s : State) (l : Launch) : (s.putLaunch l).attestation = s.attestation := rfl
@[simp] theorem State.putLaunch_measurements (s : State) (l : Launch) : (s.putLaunch l).measurements = s.measurements := rfl
@[simp] theorem State.putLaunch_images (s : State) (l : Launch) : (s.putLaunch l).images = s.images := rfl
@[simp] theorem State.putLaunch_systemEvents (s : State) (l : Launch) : (s.putLaunch l).systemEvents = s.systemEvents := rfl
@[simp] theorem State.putLaunch_sysCores (s : State) (l : Launch) : (s.putLaunch l).sysCores = s.sysCores := rfl
@[simp] theorem State.putLaunch_boot (s : State) (l : Launch) : (s.putLaunch l).boot = s.boot := rfl
@[simp] theorem State.putLaunch_result (s : State) (l : Launch) : (s.putLaunch l).result = s.result := rfl
@[simp] theorem State.putLaunch_powerActions (s : State) (l : Launch) : (s.putLaunch l).powerActions = s.powerActions := rfl
@[simp] theorem State.putLaunch_holdAlias (s : State) (l : Launch) : (s.putLaunch l).holdAlias = s.holdAlias := rfl
@[simp] theorem State.putLaunch_agenda (s : State) (l : Launch) : (s.putLaunch l).agenda = s.agenda := rfl
@[simp] theorem State.putLaunch_turn (s : State) (l : Launch) : (s.putLaunch l).turn = s.turn := rfl
@[simp] theorem State.putLaunch_freeCounter (s : State) (l : Launch) : (s.putLaunch l).freeCounter = s.freeCounter := rfl
@[simp] theorem State.putLaunch_nextKey (s : State) (l : Launch) : (s.putLaunch l).nextKey = s.nextKey := rfl

/-! `State.setQueue`. -/

@[simp] theorem State.setQueue_hart (s : State) (q : Nat) (x : LaunchQueue) : (s.setQueue q x).hart = s.hart := rfl
@[simp] theorem State.setQueue_others (s : State) (q : Nat) (x : LaunchQueue) : (s.setQueue q x).others = s.others := rfl
@[simp] theorem State.setQueue_gangs (s : State) (q : Nat) (x : LaunchQueue) : (s.setQueue q x).gangs = s.gangs := rfl
@[simp] theorem State.setQueue_launches (s : State) (q : Nat) (x : LaunchQueue) : (s.setQueue q x).launches = s.launches := rfl
@[simp] theorem State.setQueue_cores (s : State) (q : Nat) (x : LaunchQueue) : (s.setQueue q x).cores = s.cores := rfl
@[simp] theorem State.setQueue_strings (s : State) (q : Nat) (x : LaunchQueue) : (s.setQueue q x).strings = s.strings := rfl
@[simp] theorem State.setQueue_mem (s : State) (q : Nat) (x : LaunchQueue) : (s.setQueue q x).mem = s.mem := rfl
@[simp] theorem State.setQueue_poison (s : State) (q : Nat) (x : LaunchQueue) : (s.setQueue q x).poison = s.poison := rfl
@[simp] theorem State.setQueue_kinds (s : State) (q : Nat) (x : LaunchQueue) : (s.setQueue q x).kinds = s.kinds := rfl
@[simp] theorem State.setQueue_stale (s : State) (q : Nat) (x : LaunchQueue) : (s.setQueue q x).stale = s.stale := rfl
@[simp] theorem State.setQueue_tlb (s : State) (q : Nat) (x : LaunchQueue) : (s.setQueue q x).tlb = s.tlb := rfl
@[simp] theorem State.setQueue_pins (s : State) (q : Nat) (x : LaunchQueue) : (s.setQueue q x).pins = s.pins := rfl
@[simp] theorem State.setQueue_locks (s : State) (q : Nat) (x : LaunchQueue) : (s.setQueue q x).locks = s.locks := rfl
@[simp] theorem State.setQueue_passed (s : State) (q : Nat) (x : LaunchQueue) : (s.setQueue q x).passed = s.passed := rfl
@[simp] theorem State.setQueue_nq (s : State) (q : Nat) (x : LaunchQueue) : (s.setQueue q x).nq = s.nq := rfl
@[simp] theorem State.setQueue_memReady (s : State) (q : Nat) (x : LaunchQueue) : (s.setQueue q x).memReady = s.memReady := rfl
@[simp] theorem State.setQueue_restarted (s : State) (q : Nat) (x : LaunchQueue) : (s.setQueue q x).restarted = s.restarted := rfl
@[simp] theorem State.setQueue_mapOut (s : State) (q : Nat) (x : LaunchQueue) : (s.setQueue q x).mapOut = s.mapOut := rfl
@[simp] theorem State.setQueue_d2d (s : State) (q : Nat) (x : LaunchQueue) : (s.setQueue q x).d2d = s.d2d := rfl
@[simp] theorem State.setQueue_phy (s : State) (q : Nat) (x : LaunchQueue) : (s.setQueue q x).phy = s.phy := rfl
@[simp] theorem State.setQueue_regions (s : State) (q : Nat) (x : LaunchQueue) : (s.setQueue q x).regions = s.regions := rfl
@[simp] theorem State.setQueue_expanders (s : State) (q : Nat) (x : LaunchQueue) : (s.setQueue q x).expanders = s.expanders := rfl
@[simp] theorem State.setQueue_cxlQueue (s : State) (q : Nat) (x : LaunchQueue) : (s.setQueue q x).cxlQueue = s.cxlQueue := rfl
@[simp] theorem State.setQueue_errHead (s : State) (q : Nat) (x : LaunchQueue) : (s.setQueue q x).errHead = s.errHead := rfl
@[simp] theorem State.setQueue_errors (s : State) (q : Nat) (x : LaunchQueue) : (s.setQueue q x).errors = s.errors := rfl
@[simp] theorem State.setQueue_time (s : State) (q : Nat) (x : LaunchQueue) : (s.setQueue q x).time = s.time := rfl
@[simp] theorem State.setQueue_slew (s : State) (q : Nat) (x : LaunchQueue) : (s.setQueue q x).slew = s.slew := rfl
@[simp] theorem State.setQueue_slewed (s : State) (q : Nat) (x : LaunchQueue) : (s.setQueue q x).slewed = s.slewed := rfl
@[simp] theorem State.setQueue_device (s : State) (q : Nat) (x : LaunchQueue) : (s.setQueue q x).device = s.device := rfl
@[simp] theorem State.setQueue_routes (s : State) (q : Nat) (x : LaunchQueue) : (s.setQueue q x).routes = s.routes := rfl
@[simp] theorem State.setQueue_rows (s : State) (q : Nat) (x : LaunchQueue) : (s.setQueue q x).rows = s.rows := rfl
@[simp] theorem State.setQueue_roundRobin (s : State) (q : Nat) (x : LaunchQueue) : (s.setQueue q x).roundRobin = s.roundRobin := rfl
@[simp] theorem State.setQueue_granules (s : State) (q : Nat) (x : LaunchQueue) : (s.setQueue q x).granules = s.granules := rfl
@[simp] theorem State.setQueue_windows (s : State) (q : Nat) (x : LaunchQueue) : (s.setQueue q x).windows = s.windows := rfl
@[simp] theorem State.setQueue_realms (s : State) (q : Nat) (x : LaunchQueue) : (s.setQueue q x).realms = s.realms := rfl
@[simp] theorem State.setQueue_keys (s : State) (q : Nat) (x : LaunchQueue) : (s.setQueue q x).keys = s.keys := rfl
@[simp] theorem State.setQueue_frameDrops (s : State) (q : Nat) (x : LaunchQueue) : (s.setQueue q x).frameDrops = s.frameDrops := rfl
@[simp] theorem State.setQueue_report (s : State) (q : Nat) (x : LaunchQueue) : (s.setQueue q x).report = s.report := rfl
@[simp] theorem State.setQueue_flashReport (s : State) (q : Nat) (x : LaunchQueue) : (s.setQueue q x).flashReport = s.flashReport := rfl
@[simp] theorem State.setQueue_attestation (s : State) (q : Nat) (x : LaunchQueue) : (s.setQueue q x).attestation = s.attestation := rfl
@[simp] theorem State.setQueue_measurements (s : State) (q : Nat) (x : LaunchQueue) : (s.setQueue q x).measurements = s.measurements := rfl
@[simp] theorem State.setQueue_images (s : State) (q : Nat) (x : LaunchQueue) : (s.setQueue q x).images = s.images := rfl
@[simp] theorem State.setQueue_systemEvents (s : State) (q : Nat) (x : LaunchQueue) : (s.setQueue q x).systemEvents = s.systemEvents := rfl
@[simp] theorem State.setQueue_sysCores (s : State) (q : Nat) (x : LaunchQueue) : (s.setQueue q x).sysCores = s.sysCores := rfl
@[simp] theorem State.setQueue_boot (s : State) (q : Nat) (x : LaunchQueue) : (s.setQueue q x).boot = s.boot := rfl
@[simp] theorem State.setQueue_result (s : State) (q : Nat) (x : LaunchQueue) : (s.setQueue q x).result = s.result := rfl
@[simp] theorem State.setQueue_powerActions (s : State) (q : Nat) (x : LaunchQueue) : (s.setQueue q x).powerActions = s.powerActions := rfl
@[simp] theorem State.setQueue_holdAlias (s : State) (q : Nat) (x : LaunchQueue) : (s.setQueue q x).holdAlias = s.holdAlias := rfl
@[simp] theorem State.setQueue_agenda (s : State) (q : Nat) (x : LaunchQueue) : (s.setQueue q x).agenda = s.agenda := rfl
@[simp] theorem State.setQueue_turn (s : State) (q : Nat) (x : LaunchQueue) : (s.setQueue q x).turn = s.turn := rfl
@[simp] theorem State.setQueue_freeCounter (s : State) (q : Nat) (x : LaunchQueue) : (s.setQueue q x).freeCounter = s.freeCounter := rfl
@[simp] theorem State.setQueue_nextKey (s : State) (q : Nat) (x : LaunchQueue) : (s.setQueue q x).nextKey = s.nextKey := rfl

/-! `Hart.setX`. -/

@[simp] theorem Hart.setX_hid (h : Hart) (r : XReg) (v : Word) : (h.setX r v).hid = h.hid := by unfold Hart.setX; split <;> rfl
@[simp] theorem Hart.setX_run (h : Hart) (r : XReg) (v : Word) : (h.setX r v).run = h.run := by unfold Hart.setX; split <;> rfl
@[simp] theorem Hart.setX_gang (h : Hart) (r : XReg) (v : Word) : (h.setX r v).gang = h.gang := by unfold Hart.setX; split <;> rfl
@[simp] theorem Hart.setX_rank (h : Hart) (r : XReg) (v : Word) : (h.setX r v).rank = h.rank := by unfold Hart.setX; split <;> rfl
@[simp] theorem Hart.setX_pc (h : Hart) (r : XReg) (v : Word) : (h.setX r v).pc = h.pc := by unfold Hart.setX; split <;> rfl
@[simp] theorem Hart.setX_f (h : Hart) (r : XReg) (v : Word) : (h.setX r v).f = h.f := by unfold Hart.setX; split <;> rfl
@[simp] theorem Hart.setX_frm (h : Hart) (r : XReg) (v : Word) : (h.setX r v).frm = h.frm := by unfold Hart.setX; split <;> rfl
@[simp] theorem Hart.setX_fflags (h : Hart) (r : XReg) (v : Word) : (h.setX r v).fflags = h.fflags := by unfold Hart.setX; split <;> rfl
@[simp] theorem Hart.setX_mode (h : Hart) (r : XReg) (v : Word) : (h.setX r v).mode = h.mode := by unfold Hart.setX; split <;> rfl
@[simp] theorem Hart.setX_reservation (h : Hart) (r : XReg) (v : Word) : (h.setX r v).reservation = h.reservation := by unfold Hart.setX; split <;> rfl
@[simp] theorem Hart.setX_instret (h : Hart) (r : XReg) (v : Word) : (h.setX r v).instret = h.instret := by unfold Hart.setX; split <;> rfl
@[simp] theorem Hart.setX_cycle (h : Hart) (r : XReg) (v : Word) : (h.setX r v).cycle = h.cycle := by unfold Hart.setX; split <;> rfl
@[simp] theorem Hart.setX_mstatus (h : Hart) (r : XReg) (v : Word) : (h.setX r v).mstatus = h.mstatus := by unfold Hart.setX; split <;> rfl
@[simp] theorem Hart.setX_medeleg (h : Hart) (r : XReg) (v : Word) : (h.setX r v).medeleg = h.medeleg := by unfold Hart.setX; split <;> rfl
@[simp] theorem Hart.setX_mideleg (h : Hart) (r : XReg) (v : Word) : (h.setX r v).mideleg = h.mideleg := by unfold Hart.setX; split <;> rfl
@[simp] theorem Hart.setX_mie (h : Hart) (r : XReg) (v : Word) : (h.setX r v).mie = h.mie := by unfold Hart.setX; split <;> rfl
@[simp] theorem Hart.setX_mip (h : Hart) (r : XReg) (v : Word) : (h.setX r v).mip = h.mip := by unfold Hart.setX; split <;> rfl
@[simp] theorem Hart.setX_mtvec (h : Hart) (r : XReg) (v : Word) : (h.setX r v).mtvec = h.mtvec := by unfold Hart.setX; split <;> rfl
@[simp] theorem Hart.setX_mscratch (h : Hart) (r : XReg) (v : Word) : (h.setX r v).mscratch = h.mscratch := by unfold Hart.setX; split <;> rfl
@[simp] theorem Hart.setX_mepc (h : Hart) (r : XReg) (v : Word) : (h.setX r v).mepc = h.mepc := by unfold Hart.setX; split <;> rfl
@[simp] theorem Hart.setX_mcause (h : Hart) (r : XReg) (v : Word) : (h.setX r v).mcause = h.mcause := by unfold Hart.setX; split <;> rfl
@[simp] theorem Hart.setX_mtval (h : Hart) (r : XReg) (v : Word) : (h.setX r v).mtval = h.mtval := by unfold Hart.setX; split <;> rfl
@[simp] theorem Hart.setX_stvec (h : Hart) (r : XReg) (v : Word) : (h.setX r v).stvec = h.stvec := by unfold Hart.setX; split <;> rfl
@[simp] theorem Hart.setX_sscratch (h : Hart) (r : XReg) (v : Word) : (h.setX r v).sscratch = h.sscratch := by unfold Hart.setX; split <;> rfl
@[simp] theorem Hart.setX_sepc (h : Hart) (r : XReg) (v : Word) : (h.setX r v).sepc = h.sepc := by unfold Hart.setX; split <;> rfl
@[simp] theorem Hart.setX_scause (h : Hart) (r : XReg) (v : Word) : (h.setX r v).scause = h.scause := by unfold Hart.setX; split <;> rfl
@[simp] theorem Hart.setX_stval (h : Hart) (r : XReg) (v : Word) : (h.setX r v).stval = h.stval := by unfold Hart.setX; split <;> rfl
@[simp] theorem Hart.setX_mcounteren (h : Hart) (r : XReg) (v : Word) : (h.setX r v).mcounteren = h.mcounteren := by unfold Hart.setX; split <;> rfl
@[simp] theorem Hart.setX_scounteren (h : Hart) (r : XReg) (v : Word) : (h.setX r v).scounteren = h.scounteren := by unfold Hart.setX; split <;> rfl
@[simp] theorem Hart.setX_cyInhibit (h : Hart) (r : XReg) (v : Word) : (h.setX r v).cyInhibit = h.cyInhibit := by unfold Hart.setX; split <;> rfl
@[simp] theorem Hart.setX_irInhibit (h : Hart) (r : XReg) (v : Word) : (h.setX r v).irInhibit = h.irInhibit := by unfold Hart.setX; split <;> rfl
@[simp] theorem Hart.setX_satp (h : Hart) (r : XReg) (v : Word) : (h.setX r v).satp = h.satp := by unfold Hart.setX; split <;> rfl
@[simp] theorem Hart.setX_vflags (h : Hart) (r : XReg) (v : Word) : (h.setX r v).vflags = h.vflags := by unfold Hart.setX; split <;> rfl
@[simp] theorem Hart.setX_vfrm (h : Hart) (r : XReg) (v : Word) : (h.setX r v).vfrm = h.vfrm := by unfold Hart.setX; split <;> rfl
@[simp] theorem Hart.setX_vband (h : Hart) (r : XReg) (v : Word) : (h.setX r v).vband = h.vband := by unfold Hart.setX; split <;> rfl
@[simp] theorem Hart.setX_avec (h : Hart) (r : XReg) (v : Word) : (h.setX r v).avec = h.avec := by unfold Hart.setX; split <;> rfl
@[simp] theorem Hart.setX_aepc (h : Hart) (r : XReg) (v : Word) : (h.setX r v).aepc = h.aepc := by unfold Hart.setX; split <;> rfl
@[simp] theorem Hart.setX_acause (h : Hart) (r : XReg) (v : Word) : (h.setX r v).acause = h.acause := by unfold Hart.setX; split <;> rfl
@[simp] theorem Hart.setX_aqsave (h : Hart) (r : XReg) (v : Word) : (h.setX r v).aqsave = h.aqsave := by unfold Hart.setX; split <;> rfl
@[simp] theorem Hart.setX_vobm0 (h : Hart) (r : XReg) (v : Word) : (h.setX r v).vobm0 = h.vobm0 := by unfold Hart.setX; split <;> rfl
@[simp] theorem Hart.setX_vobm1 (h : Hart) (r : XReg) (v : Word) : (h.setX r v).vobm1 = h.vobm1 := by unfold Hart.setX; split <;> rfl
@[simp] theorem Hart.setX_voutcnt (h : Hart) (r : XReg) (v : Word) : (h.setX r v).voutcnt = h.voutcnt := by unfold Hart.setX; split <;> rfl
@[simp] theorem Hart.setX_vl (h : Hart) (r : XReg) (v : Word) : (h.setX r v).vl = h.vl := by unfold Hart.setX; split <;> rfl
@[simp] theorem Hart.setX_vrow (h : Hart) (r : XReg) (v : Word) : (h.setX r v).vrow = h.vrow := by unfold Hart.setX; split <;> rfl
@[simp] theorem Hart.setX_vtype (h : Hart) (r : XReg) (v : Word) : (h.setX r v).vtype = h.vtype := by unfold Hart.setX; split <;> rfl
@[simp] theorem Hart.setX_lgrant (h : Hart) (r : XReg) (v : Word) : (h.setX r v).lgrant = h.lgrant := by unfold Hart.setX; split <;> rfl
@[simp] theorem Hart.setX_vepc (h : Hart) (r : XReg) (v : Word) : (h.setX r v).vepc = h.vepc := by unfold Hart.setX; split <;> rfl
@[simp] theorem Hart.setX_vcause (h : Hart) (r : XReg) (v : Word) : (h.setX r v).vcause = h.vcause := by unfold Hart.setX; split <;> rfl
@[simp] theorem Hart.setX_vtval (h : Hart) (r : XReg) (v : Word) : (h.setX r v).vtval = h.vtval := by unfold Hart.setX; split <;> rfl
@[simp] theorem Hart.setX_vqsave (h : Hart) (r : XReg) (v : Word) : (h.setX r v).vqsave = h.vqsave := by unfold Hart.setX; split <;> rfl
@[simp] theorem Hart.setX_vmissrec (h : Hart) (r : XReg) (v : Word) : (h.setX r v).vmissrec = h.vmissrec := by unfold Hart.setX; split <;> rfl
@[simp] theorem Hart.setX_vmisscnt (h : Hart) (r : XReg) (v : Word) : (h.setX r v).vmisscnt = h.vmisscnt := by unfold Hart.setX; split <;> rfl
@[simp] theorem Hart.setX_gencap (h : Hart) (r : XReg) (v : Word) : (h.setX r v).gencap = h.gencap := by unfold Hart.setX; split <;> rfl
@[simp] theorem Hart.setX_size (h : Hart) (r : XReg) (v : Word) : (h.setX r v).size = h.size := by unfold Hart.setX; split <;> rfl
@[simp] theorem Hart.setX_v (h : Hart) (r : XReg) (v : Word) : (h.setX r v).v = h.v := by unfold Hart.setX; split <;> rfl
@[simp] theorem Hart.setX_m (h : Hart) (r : XReg) (v : Word) : (h.setX r v).m = h.m := by unfold Hart.setX; split <;> rfl
@[simp] theorem Hart.setX_w (h : Hart) (r : XReg) (v : Word) : (h.setX r v).w = h.w := by unfold Hart.setX; split <;> rfl
@[simp] theorem Hart.setX_ownTiles (h : Hart) (r : XReg) (v : Word) : (h.setX r v).ownTiles = h.ownTiles := by unfold Hart.setX; split <;> rfl
@[simp] theorem Hart.setX_t (h : Hart) (r : XReg) (v : Word) : (h.setX r v).t = h.t := by unfold Hart.setX; split <;> rfl
@[simp] theorem Hart.setX_sA (h : Hart) (r : XReg) (v : Word) : (h.setX r v).sA = h.sA := by unfold Hart.setX; split <;> rfl
@[simp] theorem Hart.setX_sB (h : Hart) (r : XReg) (v : Word) : (h.setX r v).sB = h.sB := by unfold Hart.setX; split <;> rfl
@[simp] theorem Hart.setX_anchorHandler (h : Hart) (r : XReg) (v : Word) : (h.setX r v).anchorHandler = h.anchorHandler := by unfold Hart.setX; split <;> rfl
@[simp] theorem Hart.setX_viq (h : Hart) (r : XReg) (v : Word) : (h.setX r v).viq = h.viq := by unfold Hart.setX; split <;> rfl
@[simp] theorem Hart.setX_window (h : Hart) (r : XReg) (v : Word) : (h.setX r v).window = h.window := by unfold Hart.setX; split <;> rfl
@[simp] theorem Hart.setX_next (h : Hart) (r : XReg) (v : Word) : (h.setX r v).next = h.next := by unfold Hart.setX; split <;> rfl
@[simp] theorem Hart.setX_loadq (h : Hart) (r : XReg) (v : Word) : (h.setX r v).loadq = h.loadq := by unfold Hart.setX; split <;> rfl
@[simp] theorem Hart.setX_bq (h : Hart) (r : XReg) (v : Word) : (h.setX r v).bq = h.bq := by unfold Hart.setX; split <;> rfl
@[simp] theorem Hart.setX_pigeonhole (h : Hart) (r : XReg) (v : Word) : (h.setX r v).pigeonhole = h.pigeonhole := by unfold Hart.setX; split <;> rfl
@[simp] theorem Hart.setX_lq (h : Hart) (r : XReg) (v : Word) : (h.setX r v).lq = h.lq := by unfold Hart.setX; split <;> rfl
@[simp] theorem Hart.setX_vsq (h : Hart) (r : XReg) (v : Word) : (h.setX r v).vsq = h.vsq := by unfold Hart.setX; split <;> rfl
@[simp] theorem Hart.setX_ssq (h : Hart) (r : XReg) (v : Word) : (h.setX r v).ssq = h.ssq := by unfold Hart.setX; split <;> rfl
@[simp] theorem Hart.setX_slq (h : Hart) (r : XReg) (v : Word) : (h.setX r v).slq = h.slq := by unfold Hart.setX; split <;> rfl
@[simp] theorem Hart.setX_oldLines (h : Hart) (r : XReg) (v : Word) : (h.setX r v).oldLines = h.oldLines := by unfold Hart.setX; split <;> rfl
@[simp] theorem Hart.setX_taint (h : Hart) (r : XReg) (v : Word) : (h.setX r v).taint = h.taint := by unfold Hart.setX; split <;> rfl
@[simp] theorem Hart.setX_vectorTaint (h : Hart) (r : XReg) (v : Word) : (h.setX r v).vectorTaint = h.vectorTaint := by unfold Hart.setX; split <;> rfl
@[simp] theorem Hart.setX_nmError (h : Hart) (r : XReg) (v : Word) : (h.setX r v).nmError = h.nmError := by unfold Hart.setX; split <;> rfl
@[simp] theorem Hart.setX_aldc (h : Hart) (r : XReg) (v : Word) : (h.setX r v).aldc = h.aldc := by unfold Hart.setX; split <;> rfl
@[simp] theorem Hart.setX_wait (h : Hart) (r : XReg) (v : Word) : (h.setX r v).wait = h.wait := by unfold Hart.setX; split <;> rfl
@[simp] theorem Hart.setX_stall (h : Hart) (r : XReg) (v : Word) : (h.setX r v).stall = h.stall := by unfold Hart.setX; split <;> rfl
@[simp] theorem Hart.setX_barPhases (h : Hart) (r : XReg) (v : Word) : (h.setX r v).barPhases = h.barPhases := by unfold Hart.setX; split <;> rfl
@[simp] theorem Hart.setX_largestTime (h : Hart) (r : XReg) (v : Word) : (h.setX r v).largestTime = h.largestTime := by unfold Hart.setX; split <;> rfl
@[simp] theorem Hart.setX_headAged (h : Hart) (r : XReg) (v : Word) : (h.setX r v).headAged = h.headAged := by unfold Hart.setX; split <;> rfl
@[simp] theorem Hart.setX_holdViq (h : Hart) (r : XReg) (v : Word) : (h.setX r v).holdViq = h.holdViq := by unfold Hart.setX; split <;> rfl
@[simp] theorem Hart.setX_holdVsq (h : Hart) (r : XReg) (v : Word) : (h.setX r v).holdVsq = h.holdVsq := by unfold Hart.setX; split <;> rfl
@[simp] theorem Hart.setX_holdSsq (h : Hart) (r : XReg) (v : Word) : (h.setX r v).holdSsq = h.holdSsq := by unfold Hart.setX; split <;> rfl
@[simp] theorem Hart.setX_holdSlq (h : Hart) (r : XReg) (v : Word) : (h.setX r v).holdSlq = h.holdSlq := by unfold Hart.setX; split <;> rfl
@[simp] theorem Hart.setX_holdWindow (h : Hart) (r : XReg) (v : Word) : (h.setX r v).holdWindow = h.holdWindow := by unfold Hart.setX; split <;> rfl
@[simp] theorem Hart.setX_holdOldest (h : Hart) (r : XReg) (v : Word) : (h.setX r v).holdOldest = h.holdOldest := by unfold Hart.setX; split <;> rfl
@[simp] theorem Hart.setX_holdLines (h : Hart) (r : XReg) (v : Word) : (h.setX r v).holdLines = h.holdLines := by unfold Hart.setX; split <;> rfl
@[simp] theorem Hart.setX_drainViq (h : Hart) (r : XReg) (v : Word) : (h.setX r v).drainViq = h.drainViq := by unfold Hart.setX; split <;> rfl

/-! `Hart.setF`. -/

@[simp] theorem Hart.setF_hid (h : Hart) (r : XReg) (v : Word) : (h.setF r v).hid = h.hid := rfl
@[simp] theorem Hart.setF_run (h : Hart) (r : XReg) (v : Word) : (h.setF r v).run = h.run := rfl
@[simp] theorem Hart.setF_gang (h : Hart) (r : XReg) (v : Word) : (h.setF r v).gang = h.gang := rfl
@[simp] theorem Hart.setF_rank (h : Hart) (r : XReg) (v : Word) : (h.setF r v).rank = h.rank := rfl
@[simp] theorem Hart.setF_pc (h : Hart) (r : XReg) (v : Word) : (h.setF r v).pc = h.pc := rfl
@[simp] theorem Hart.setF_x (h : Hart) (r : XReg) (v : Word) : (h.setF r v).x = h.x := rfl
@[simp] theorem Hart.setF_frm (h : Hart) (r : XReg) (v : Word) : (h.setF r v).frm = h.frm := rfl
@[simp] theorem Hart.setF_fflags (h : Hart) (r : XReg) (v : Word) : (h.setF r v).fflags = h.fflags := rfl
@[simp] theorem Hart.setF_mode (h : Hart) (r : XReg) (v : Word) : (h.setF r v).mode = h.mode := rfl
@[simp] theorem Hart.setF_reservation (h : Hart) (r : XReg) (v : Word) : (h.setF r v).reservation = h.reservation := rfl
@[simp] theorem Hart.setF_instret (h : Hart) (r : XReg) (v : Word) : (h.setF r v).instret = h.instret := rfl
@[simp] theorem Hart.setF_cycle (h : Hart) (r : XReg) (v : Word) : (h.setF r v).cycle = h.cycle := rfl
@[simp] theorem Hart.setF_mstatus (h : Hart) (r : XReg) (v : Word) : (h.setF r v).mstatus = h.mstatus := rfl
@[simp] theorem Hart.setF_medeleg (h : Hart) (r : XReg) (v : Word) : (h.setF r v).medeleg = h.medeleg := rfl
@[simp] theorem Hart.setF_mideleg (h : Hart) (r : XReg) (v : Word) : (h.setF r v).mideleg = h.mideleg := rfl
@[simp] theorem Hart.setF_mie (h : Hart) (r : XReg) (v : Word) : (h.setF r v).mie = h.mie := rfl
@[simp] theorem Hart.setF_mip (h : Hart) (r : XReg) (v : Word) : (h.setF r v).mip = h.mip := rfl
@[simp] theorem Hart.setF_mtvec (h : Hart) (r : XReg) (v : Word) : (h.setF r v).mtvec = h.mtvec := rfl
@[simp] theorem Hart.setF_mscratch (h : Hart) (r : XReg) (v : Word) : (h.setF r v).mscratch = h.mscratch := rfl
@[simp] theorem Hart.setF_mepc (h : Hart) (r : XReg) (v : Word) : (h.setF r v).mepc = h.mepc := rfl
@[simp] theorem Hart.setF_mcause (h : Hart) (r : XReg) (v : Word) : (h.setF r v).mcause = h.mcause := rfl
@[simp] theorem Hart.setF_mtval (h : Hart) (r : XReg) (v : Word) : (h.setF r v).mtval = h.mtval := rfl
@[simp] theorem Hart.setF_stvec (h : Hart) (r : XReg) (v : Word) : (h.setF r v).stvec = h.stvec := rfl
@[simp] theorem Hart.setF_sscratch (h : Hart) (r : XReg) (v : Word) : (h.setF r v).sscratch = h.sscratch := rfl
@[simp] theorem Hart.setF_sepc (h : Hart) (r : XReg) (v : Word) : (h.setF r v).sepc = h.sepc := rfl
@[simp] theorem Hart.setF_scause (h : Hart) (r : XReg) (v : Word) : (h.setF r v).scause = h.scause := rfl
@[simp] theorem Hart.setF_stval (h : Hart) (r : XReg) (v : Word) : (h.setF r v).stval = h.stval := rfl
@[simp] theorem Hart.setF_mcounteren (h : Hart) (r : XReg) (v : Word) : (h.setF r v).mcounteren = h.mcounteren := rfl
@[simp] theorem Hart.setF_scounteren (h : Hart) (r : XReg) (v : Word) : (h.setF r v).scounteren = h.scounteren := rfl
@[simp] theorem Hart.setF_cyInhibit (h : Hart) (r : XReg) (v : Word) : (h.setF r v).cyInhibit = h.cyInhibit := rfl
@[simp] theorem Hart.setF_irInhibit (h : Hart) (r : XReg) (v : Word) : (h.setF r v).irInhibit = h.irInhibit := rfl
@[simp] theorem Hart.setF_satp (h : Hart) (r : XReg) (v : Word) : (h.setF r v).satp = h.satp := rfl
@[simp] theorem Hart.setF_vflags (h : Hart) (r : XReg) (v : Word) : (h.setF r v).vflags = h.vflags := rfl
@[simp] theorem Hart.setF_vfrm (h : Hart) (r : XReg) (v : Word) : (h.setF r v).vfrm = h.vfrm := rfl
@[simp] theorem Hart.setF_vband (h : Hart) (r : XReg) (v : Word) : (h.setF r v).vband = h.vband := rfl
@[simp] theorem Hart.setF_avec (h : Hart) (r : XReg) (v : Word) : (h.setF r v).avec = h.avec := rfl
@[simp] theorem Hart.setF_aepc (h : Hart) (r : XReg) (v : Word) : (h.setF r v).aepc = h.aepc := rfl
@[simp] theorem Hart.setF_acause (h : Hart) (r : XReg) (v : Word) : (h.setF r v).acause = h.acause := rfl
@[simp] theorem Hart.setF_aqsave (h : Hart) (r : XReg) (v : Word) : (h.setF r v).aqsave = h.aqsave := rfl
@[simp] theorem Hart.setF_vobm0 (h : Hart) (r : XReg) (v : Word) : (h.setF r v).vobm0 = h.vobm0 := rfl
@[simp] theorem Hart.setF_vobm1 (h : Hart) (r : XReg) (v : Word) : (h.setF r v).vobm1 = h.vobm1 := rfl
@[simp] theorem Hart.setF_voutcnt (h : Hart) (r : XReg) (v : Word) : (h.setF r v).voutcnt = h.voutcnt := rfl
@[simp] theorem Hart.setF_vl (h : Hart) (r : XReg) (v : Word) : (h.setF r v).vl = h.vl := rfl
@[simp] theorem Hart.setF_vrow (h : Hart) (r : XReg) (v : Word) : (h.setF r v).vrow = h.vrow := rfl
@[simp] theorem Hart.setF_vtype (h : Hart) (r : XReg) (v : Word) : (h.setF r v).vtype = h.vtype := rfl
@[simp] theorem Hart.setF_lgrant (h : Hart) (r : XReg) (v : Word) : (h.setF r v).lgrant = h.lgrant := rfl
@[simp] theorem Hart.setF_vepc (h : Hart) (r : XReg) (v : Word) : (h.setF r v).vepc = h.vepc := rfl
@[simp] theorem Hart.setF_vcause (h : Hart) (r : XReg) (v : Word) : (h.setF r v).vcause = h.vcause := rfl
@[simp] theorem Hart.setF_vtval (h : Hart) (r : XReg) (v : Word) : (h.setF r v).vtval = h.vtval := rfl
@[simp] theorem Hart.setF_vqsave (h : Hart) (r : XReg) (v : Word) : (h.setF r v).vqsave = h.vqsave := rfl
@[simp] theorem Hart.setF_vmissrec (h : Hart) (r : XReg) (v : Word) : (h.setF r v).vmissrec = h.vmissrec := rfl
@[simp] theorem Hart.setF_vmisscnt (h : Hart) (r : XReg) (v : Word) : (h.setF r v).vmisscnt = h.vmisscnt := rfl
@[simp] theorem Hart.setF_gencap (h : Hart) (r : XReg) (v : Word) : (h.setF r v).gencap = h.gencap := rfl
@[simp] theorem Hart.setF_size (h : Hart) (r : XReg) (v : Word) : (h.setF r v).size = h.size := rfl
@[simp] theorem Hart.setF_v (h : Hart) (r : XReg) (v : Word) : (h.setF r v).v = h.v := rfl
@[simp] theorem Hart.setF_m (h : Hart) (r : XReg) (v : Word) : (h.setF r v).m = h.m := rfl
@[simp] theorem Hart.setF_w (h : Hart) (r : XReg) (v : Word) : (h.setF r v).w = h.w := rfl
@[simp] theorem Hart.setF_ownTiles (h : Hart) (r : XReg) (v : Word) : (h.setF r v).ownTiles = h.ownTiles := rfl
@[simp] theorem Hart.setF_t (h : Hart) (r : XReg) (v : Word) : (h.setF r v).t = h.t := rfl
@[simp] theorem Hart.setF_sA (h : Hart) (r : XReg) (v : Word) : (h.setF r v).sA = h.sA := rfl
@[simp] theorem Hart.setF_sB (h : Hart) (r : XReg) (v : Word) : (h.setF r v).sB = h.sB := rfl
@[simp] theorem Hart.setF_anchorHandler (h : Hart) (r : XReg) (v : Word) : (h.setF r v).anchorHandler = h.anchorHandler := rfl
@[simp] theorem Hart.setF_viq (h : Hart) (r : XReg) (v : Word) : (h.setF r v).viq = h.viq := rfl
@[simp] theorem Hart.setF_window (h : Hart) (r : XReg) (v : Word) : (h.setF r v).window = h.window := rfl
@[simp] theorem Hart.setF_next (h : Hart) (r : XReg) (v : Word) : (h.setF r v).next = h.next := rfl
@[simp] theorem Hart.setF_loadq (h : Hart) (r : XReg) (v : Word) : (h.setF r v).loadq = h.loadq := rfl
@[simp] theorem Hart.setF_bq (h : Hart) (r : XReg) (v : Word) : (h.setF r v).bq = h.bq := rfl
@[simp] theorem Hart.setF_pigeonhole (h : Hart) (r : XReg) (v : Word) : (h.setF r v).pigeonhole = h.pigeonhole := rfl
@[simp] theorem Hart.setF_lq (h : Hart) (r : XReg) (v : Word) : (h.setF r v).lq = h.lq := rfl
@[simp] theorem Hart.setF_vsq (h : Hart) (r : XReg) (v : Word) : (h.setF r v).vsq = h.vsq := rfl
@[simp] theorem Hart.setF_ssq (h : Hart) (r : XReg) (v : Word) : (h.setF r v).ssq = h.ssq := rfl
@[simp] theorem Hart.setF_slq (h : Hart) (r : XReg) (v : Word) : (h.setF r v).slq = h.slq := rfl
@[simp] theorem Hart.setF_oldLines (h : Hart) (r : XReg) (v : Word) : (h.setF r v).oldLines = h.oldLines := rfl
@[simp] theorem Hart.setF_taint (h : Hart) (r : XReg) (v : Word) : (h.setF r v).taint = h.taint := rfl
@[simp] theorem Hart.setF_vectorTaint (h : Hart) (r : XReg) (v : Word) : (h.setF r v).vectorTaint = h.vectorTaint := rfl
@[simp] theorem Hart.setF_nmError (h : Hart) (r : XReg) (v : Word) : (h.setF r v).nmError = h.nmError := rfl
@[simp] theorem Hart.setF_aldc (h : Hart) (r : XReg) (v : Word) : (h.setF r v).aldc = h.aldc := rfl
@[simp] theorem Hart.setF_wait (h : Hart) (r : XReg) (v : Word) : (h.setF r v).wait = h.wait := rfl
@[simp] theorem Hart.setF_stall (h : Hart) (r : XReg) (v : Word) : (h.setF r v).stall = h.stall := rfl
@[simp] theorem Hart.setF_barPhases (h : Hart) (r : XReg) (v : Word) : (h.setF r v).barPhases = h.barPhases := rfl
@[simp] theorem Hart.setF_largestTime (h : Hart) (r : XReg) (v : Word) : (h.setF r v).largestTime = h.largestTime := rfl
@[simp] theorem Hart.setF_headAged (h : Hart) (r : XReg) (v : Word) : (h.setF r v).headAged = h.headAged := rfl
@[simp] theorem Hart.setF_holdViq (h : Hart) (r : XReg) (v : Word) : (h.setF r v).holdViq = h.holdViq := rfl
@[simp] theorem Hart.setF_holdVsq (h : Hart) (r : XReg) (v : Word) : (h.setF r v).holdVsq = h.holdVsq := rfl
@[simp] theorem Hart.setF_holdSsq (h : Hart) (r : XReg) (v : Word) : (h.setF r v).holdSsq = h.holdSsq := rfl
@[simp] theorem Hart.setF_holdSlq (h : Hart) (r : XReg) (v : Word) : (h.setF r v).holdSlq = h.holdSlq := rfl
@[simp] theorem Hart.setF_holdWindow (h : Hart) (r : XReg) (v : Word) : (h.setF r v).holdWindow = h.holdWindow := rfl
@[simp] theorem Hart.setF_holdOldest (h : Hart) (r : XReg) (v : Word) : (h.setF r v).holdOldest = h.holdOldest := rfl
@[simp] theorem Hart.setF_holdLines (h : Hart) (r : XReg) (v : Word) : (h.setF r v).holdLines = h.holdLines := rfl
@[simp] theorem Hart.setF_drainViq (h : Hart) (r : XReg) (v : Word) : (h.setF r v).drainViq = h.drainViq := rfl

/-! `Hart.setV`. -/

@[simp] theorem Hart.setV_hid (h : Hart) (n : Nat) (v : VReg) : (h.setV n v).hid = h.hid := rfl
@[simp] theorem Hart.setV_run (h : Hart) (n : Nat) (v : VReg) : (h.setV n v).run = h.run := rfl
@[simp] theorem Hart.setV_gang (h : Hart) (n : Nat) (v : VReg) : (h.setV n v).gang = h.gang := rfl
@[simp] theorem Hart.setV_rank (h : Hart) (n : Nat) (v : VReg) : (h.setV n v).rank = h.rank := rfl
@[simp] theorem Hart.setV_pc (h : Hart) (n : Nat) (v : VReg) : (h.setV n v).pc = h.pc := rfl
@[simp] theorem Hart.setV_x (h : Hart) (n : Nat) (v : VReg) : (h.setV n v).x = h.x := rfl
@[simp] theorem Hart.setV_f (h : Hart) (n : Nat) (v : VReg) : (h.setV n v).f = h.f := rfl
@[simp] theorem Hart.setV_frm (h : Hart) (n : Nat) (v : VReg) : (h.setV n v).frm = h.frm := rfl
@[simp] theorem Hart.setV_fflags (h : Hart) (n : Nat) (v : VReg) : (h.setV n v).fflags = h.fflags := rfl
@[simp] theorem Hart.setV_mode (h : Hart) (n : Nat) (v : VReg) : (h.setV n v).mode = h.mode := rfl
@[simp] theorem Hart.setV_reservation (h : Hart) (n : Nat) (v : VReg) : (h.setV n v).reservation = h.reservation := rfl
@[simp] theorem Hart.setV_instret (h : Hart) (n : Nat) (v : VReg) : (h.setV n v).instret = h.instret := rfl
@[simp] theorem Hart.setV_cycle (h : Hart) (n : Nat) (v : VReg) : (h.setV n v).cycle = h.cycle := rfl
@[simp] theorem Hart.setV_mstatus (h : Hart) (n : Nat) (v : VReg) : (h.setV n v).mstatus = h.mstatus := rfl
@[simp] theorem Hart.setV_medeleg (h : Hart) (n : Nat) (v : VReg) : (h.setV n v).medeleg = h.medeleg := rfl
@[simp] theorem Hart.setV_mideleg (h : Hart) (n : Nat) (v : VReg) : (h.setV n v).mideleg = h.mideleg := rfl
@[simp] theorem Hart.setV_mie (h : Hart) (n : Nat) (v : VReg) : (h.setV n v).mie = h.mie := rfl
@[simp] theorem Hart.setV_mip (h : Hart) (n : Nat) (v : VReg) : (h.setV n v).mip = h.mip := rfl
@[simp] theorem Hart.setV_mtvec (h : Hart) (n : Nat) (v : VReg) : (h.setV n v).mtvec = h.mtvec := rfl
@[simp] theorem Hart.setV_mscratch (h : Hart) (n : Nat) (v : VReg) : (h.setV n v).mscratch = h.mscratch := rfl
@[simp] theorem Hart.setV_mepc (h : Hart) (n : Nat) (v : VReg) : (h.setV n v).mepc = h.mepc := rfl
@[simp] theorem Hart.setV_mcause (h : Hart) (n : Nat) (v : VReg) : (h.setV n v).mcause = h.mcause := rfl
@[simp] theorem Hart.setV_mtval (h : Hart) (n : Nat) (v : VReg) : (h.setV n v).mtval = h.mtval := rfl
@[simp] theorem Hart.setV_stvec (h : Hart) (n : Nat) (v : VReg) : (h.setV n v).stvec = h.stvec := rfl
@[simp] theorem Hart.setV_sscratch (h : Hart) (n : Nat) (v : VReg) : (h.setV n v).sscratch = h.sscratch := rfl
@[simp] theorem Hart.setV_sepc (h : Hart) (n : Nat) (v : VReg) : (h.setV n v).sepc = h.sepc := rfl
@[simp] theorem Hart.setV_scause (h : Hart) (n : Nat) (v : VReg) : (h.setV n v).scause = h.scause := rfl
@[simp] theorem Hart.setV_stval (h : Hart) (n : Nat) (v : VReg) : (h.setV n v).stval = h.stval := rfl
@[simp] theorem Hart.setV_mcounteren (h : Hart) (n : Nat) (v : VReg) : (h.setV n v).mcounteren = h.mcounteren := rfl
@[simp] theorem Hart.setV_scounteren (h : Hart) (n : Nat) (v : VReg) : (h.setV n v).scounteren = h.scounteren := rfl
@[simp] theorem Hart.setV_cyInhibit (h : Hart) (n : Nat) (v : VReg) : (h.setV n v).cyInhibit = h.cyInhibit := rfl
@[simp] theorem Hart.setV_irInhibit (h : Hart) (n : Nat) (v : VReg) : (h.setV n v).irInhibit = h.irInhibit := rfl
@[simp] theorem Hart.setV_satp (h : Hart) (n : Nat) (v : VReg) : (h.setV n v).satp = h.satp := rfl
@[simp] theorem Hart.setV_vflags (h : Hart) (n : Nat) (v : VReg) : (h.setV n v).vflags = h.vflags := rfl
@[simp] theorem Hart.setV_vfrm (h : Hart) (n : Nat) (v : VReg) : (h.setV n v).vfrm = h.vfrm := rfl
@[simp] theorem Hart.setV_vband (h : Hart) (n : Nat) (v : VReg) : (h.setV n v).vband = h.vband := rfl
@[simp] theorem Hart.setV_avec (h : Hart) (n : Nat) (v : VReg) : (h.setV n v).avec = h.avec := rfl
@[simp] theorem Hart.setV_aepc (h : Hart) (n : Nat) (v : VReg) : (h.setV n v).aepc = h.aepc := rfl
@[simp] theorem Hart.setV_acause (h : Hart) (n : Nat) (v : VReg) : (h.setV n v).acause = h.acause := rfl
@[simp] theorem Hart.setV_aqsave (h : Hart) (n : Nat) (v : VReg) : (h.setV n v).aqsave = h.aqsave := rfl
@[simp] theorem Hart.setV_vobm0 (h : Hart) (n : Nat) (v : VReg) : (h.setV n v).vobm0 = h.vobm0 := rfl
@[simp] theorem Hart.setV_vobm1 (h : Hart) (n : Nat) (v : VReg) : (h.setV n v).vobm1 = h.vobm1 := rfl
@[simp] theorem Hart.setV_voutcnt (h : Hart) (n : Nat) (v : VReg) : (h.setV n v).voutcnt = h.voutcnt := rfl
@[simp] theorem Hart.setV_vl (h : Hart) (n : Nat) (v : VReg) : (h.setV n v).vl = h.vl := rfl
@[simp] theorem Hart.setV_vrow (h : Hart) (n : Nat) (v : VReg) : (h.setV n v).vrow = h.vrow := rfl
@[simp] theorem Hart.setV_vtype (h : Hart) (n : Nat) (v : VReg) : (h.setV n v).vtype = h.vtype := rfl
@[simp] theorem Hart.setV_lgrant (h : Hart) (n : Nat) (v : VReg) : (h.setV n v).lgrant = h.lgrant := rfl
@[simp] theorem Hart.setV_vepc (h : Hart) (n : Nat) (v : VReg) : (h.setV n v).vepc = h.vepc := rfl
@[simp] theorem Hart.setV_vcause (h : Hart) (n : Nat) (v : VReg) : (h.setV n v).vcause = h.vcause := rfl
@[simp] theorem Hart.setV_vtval (h : Hart) (n : Nat) (v : VReg) : (h.setV n v).vtval = h.vtval := rfl
@[simp] theorem Hart.setV_vqsave (h : Hart) (n : Nat) (v : VReg) : (h.setV n v).vqsave = h.vqsave := rfl
@[simp] theorem Hart.setV_vmissrec (h : Hart) (n : Nat) (v : VReg) : (h.setV n v).vmissrec = h.vmissrec := rfl
@[simp] theorem Hart.setV_vmisscnt (h : Hart) (n : Nat) (v : VReg) : (h.setV n v).vmisscnt = h.vmisscnt := rfl
@[simp] theorem Hart.setV_gencap (h : Hart) (n : Nat) (v : VReg) : (h.setV n v).gencap = h.gencap := rfl
@[simp] theorem Hart.setV_size (h : Hart) (n : Nat) (v : VReg) : (h.setV n v).size = h.size := rfl
@[simp] theorem Hart.setV_m (h : Hart) (n : Nat) (v : VReg) : (h.setV n v).m = h.m := rfl
@[simp] theorem Hart.setV_w (h : Hart) (n : Nat) (v : VReg) : (h.setV n v).w = h.w := rfl
@[simp] theorem Hart.setV_ownTiles (h : Hart) (n : Nat) (v : VReg) : (h.setV n v).ownTiles = h.ownTiles := rfl
@[simp] theorem Hart.setV_t (h : Hart) (n : Nat) (v : VReg) : (h.setV n v).t = h.t := rfl
@[simp] theorem Hart.setV_sA (h : Hart) (n : Nat) (v : VReg) : (h.setV n v).sA = h.sA := rfl
@[simp] theorem Hart.setV_sB (h : Hart) (n : Nat) (v : VReg) : (h.setV n v).sB = h.sB := rfl
@[simp] theorem Hart.setV_anchorHandler (h : Hart) (n : Nat) (v : VReg) : (h.setV n v).anchorHandler = h.anchorHandler := rfl
@[simp] theorem Hart.setV_viq (h : Hart) (n : Nat) (v : VReg) : (h.setV n v).viq = h.viq := rfl
@[simp] theorem Hart.setV_window (h : Hart) (n : Nat) (v : VReg) : (h.setV n v).window = h.window := rfl
@[simp] theorem Hart.setV_next (h : Hart) (n : Nat) (v : VReg) : (h.setV n v).next = h.next := rfl
@[simp] theorem Hart.setV_loadq (h : Hart) (n : Nat) (v : VReg) : (h.setV n v).loadq = h.loadq := rfl
@[simp] theorem Hart.setV_bq (h : Hart) (n : Nat) (v : VReg) : (h.setV n v).bq = h.bq := rfl
@[simp] theorem Hart.setV_pigeonhole (h : Hart) (n : Nat) (v : VReg) : (h.setV n v).pigeonhole = h.pigeonhole := rfl
@[simp] theorem Hart.setV_lq (h : Hart) (n : Nat) (v : VReg) : (h.setV n v).lq = h.lq := rfl
@[simp] theorem Hart.setV_vsq (h : Hart) (n : Nat) (v : VReg) : (h.setV n v).vsq = h.vsq := rfl
@[simp] theorem Hart.setV_ssq (h : Hart) (n : Nat) (v : VReg) : (h.setV n v).ssq = h.ssq := rfl
@[simp] theorem Hart.setV_slq (h : Hart) (n : Nat) (v : VReg) : (h.setV n v).slq = h.slq := rfl
@[simp] theorem Hart.setV_oldLines (h : Hart) (n : Nat) (v : VReg) : (h.setV n v).oldLines = h.oldLines := rfl
@[simp] theorem Hart.setV_taint (h : Hart) (n : Nat) (v : VReg) : (h.setV n v).taint = h.taint := rfl
@[simp] theorem Hart.setV_vectorTaint (h : Hart) (n : Nat) (v : VReg) : (h.setV n v).vectorTaint = h.vectorTaint := rfl
@[simp] theorem Hart.setV_nmError (h : Hart) (n : Nat) (v : VReg) : (h.setV n v).nmError = h.nmError := rfl
@[simp] theorem Hart.setV_aldc (h : Hart) (n : Nat) (v : VReg) : (h.setV n v).aldc = h.aldc := rfl
@[simp] theorem Hart.setV_wait (h : Hart) (n : Nat) (v : VReg) : (h.setV n v).wait = h.wait := rfl
@[simp] theorem Hart.setV_stall (h : Hart) (n : Nat) (v : VReg) : (h.setV n v).stall = h.stall := rfl
@[simp] theorem Hart.setV_barPhases (h : Hart) (n : Nat) (v : VReg) : (h.setV n v).barPhases = h.barPhases := rfl
@[simp] theorem Hart.setV_largestTime (h : Hart) (n : Nat) (v : VReg) : (h.setV n v).largestTime = h.largestTime := rfl
@[simp] theorem Hart.setV_headAged (h : Hart) (n : Nat) (v : VReg) : (h.setV n v).headAged = h.headAged := rfl
@[simp] theorem Hart.setV_holdViq (h : Hart) (n : Nat) (v : VReg) : (h.setV n v).holdViq = h.holdViq := rfl
@[simp] theorem Hart.setV_holdVsq (h : Hart) (n : Nat) (v : VReg) : (h.setV n v).holdVsq = h.holdVsq := rfl
@[simp] theorem Hart.setV_holdSsq (h : Hart) (n : Nat) (v : VReg) : (h.setV n v).holdSsq = h.holdSsq := rfl
@[simp] theorem Hart.setV_holdSlq (h : Hart) (n : Nat) (v : VReg) : (h.setV n v).holdSlq = h.holdSlq := rfl
@[simp] theorem Hart.setV_holdWindow (h : Hart) (n : Nat) (v : VReg) : (h.setV n v).holdWindow = h.holdWindow := rfl
@[simp] theorem Hart.setV_holdOldest (h : Hart) (n : Nat) (v : VReg) : (h.setV n v).holdOldest = h.holdOldest := rfl
@[simp] theorem Hart.setV_holdLines (h : Hart) (n : Nat) (v : VReg) : (h.setV n v).holdLines = h.holdLines := rfl
@[simp] theorem Hart.setV_drainViq (h : Hart) (n : Nat) (v : VReg) : (h.setV n v).drainViq = h.drainViq := rfl

/-! `Hart.setM`. -/

@[simp] theorem Hart.setM_hid (h : Hart) (k : MaskNo) (v : Nat) : (h.setM k v).hid = h.hid := by unfold Hart.setM; split <;> rfl
@[simp] theorem Hart.setM_run (h : Hart) (k : MaskNo) (v : Nat) : (h.setM k v).run = h.run := by unfold Hart.setM; split <;> rfl
@[simp] theorem Hart.setM_gang (h : Hart) (k : MaskNo) (v : Nat) : (h.setM k v).gang = h.gang := by unfold Hart.setM; split <;> rfl
@[simp] theorem Hart.setM_rank (h : Hart) (k : MaskNo) (v : Nat) : (h.setM k v).rank = h.rank := by unfold Hart.setM; split <;> rfl
@[simp] theorem Hart.setM_pc (h : Hart) (k : MaskNo) (v : Nat) : (h.setM k v).pc = h.pc := by unfold Hart.setM; split <;> rfl
@[simp] theorem Hart.setM_x (h : Hart) (k : MaskNo) (v : Nat) : (h.setM k v).x = h.x := by unfold Hart.setM; split <;> rfl
@[simp] theorem Hart.setM_f (h : Hart) (k : MaskNo) (v : Nat) : (h.setM k v).f = h.f := by unfold Hart.setM; split <;> rfl
@[simp] theorem Hart.setM_frm (h : Hart) (k : MaskNo) (v : Nat) : (h.setM k v).frm = h.frm := by unfold Hart.setM; split <;> rfl
@[simp] theorem Hart.setM_fflags (h : Hart) (k : MaskNo) (v : Nat) : (h.setM k v).fflags = h.fflags := by unfold Hart.setM; split <;> rfl
@[simp] theorem Hart.setM_mode (h : Hart) (k : MaskNo) (v : Nat) : (h.setM k v).mode = h.mode := by unfold Hart.setM; split <;> rfl
@[simp] theorem Hart.setM_reservation (h : Hart) (k : MaskNo) (v : Nat) : (h.setM k v).reservation = h.reservation := by unfold Hart.setM; split <;> rfl
@[simp] theorem Hart.setM_instret (h : Hart) (k : MaskNo) (v : Nat) : (h.setM k v).instret = h.instret := by unfold Hart.setM; split <;> rfl
@[simp] theorem Hart.setM_cycle (h : Hart) (k : MaskNo) (v : Nat) : (h.setM k v).cycle = h.cycle := by unfold Hart.setM; split <;> rfl
@[simp] theorem Hart.setM_mstatus (h : Hart) (k : MaskNo) (v : Nat) : (h.setM k v).mstatus = h.mstatus := by unfold Hart.setM; split <;> rfl
@[simp] theorem Hart.setM_medeleg (h : Hart) (k : MaskNo) (v : Nat) : (h.setM k v).medeleg = h.medeleg := by unfold Hart.setM; split <;> rfl
@[simp] theorem Hart.setM_mideleg (h : Hart) (k : MaskNo) (v : Nat) : (h.setM k v).mideleg = h.mideleg := by unfold Hart.setM; split <;> rfl
@[simp] theorem Hart.setM_mie (h : Hart) (k : MaskNo) (v : Nat) : (h.setM k v).mie = h.mie := by unfold Hart.setM; split <;> rfl
@[simp] theorem Hart.setM_mip (h : Hart) (k : MaskNo) (v : Nat) : (h.setM k v).mip = h.mip := by unfold Hart.setM; split <;> rfl
@[simp] theorem Hart.setM_mtvec (h : Hart) (k : MaskNo) (v : Nat) : (h.setM k v).mtvec = h.mtvec := by unfold Hart.setM; split <;> rfl
@[simp] theorem Hart.setM_mscratch (h : Hart) (k : MaskNo) (v : Nat) : (h.setM k v).mscratch = h.mscratch := by unfold Hart.setM; split <;> rfl
@[simp] theorem Hart.setM_mepc (h : Hart) (k : MaskNo) (v : Nat) : (h.setM k v).mepc = h.mepc := by unfold Hart.setM; split <;> rfl
@[simp] theorem Hart.setM_mcause (h : Hart) (k : MaskNo) (v : Nat) : (h.setM k v).mcause = h.mcause := by unfold Hart.setM; split <;> rfl
@[simp] theorem Hart.setM_mtval (h : Hart) (k : MaskNo) (v : Nat) : (h.setM k v).mtval = h.mtval := by unfold Hart.setM; split <;> rfl
@[simp] theorem Hart.setM_stvec (h : Hart) (k : MaskNo) (v : Nat) : (h.setM k v).stvec = h.stvec := by unfold Hart.setM; split <;> rfl
@[simp] theorem Hart.setM_sscratch (h : Hart) (k : MaskNo) (v : Nat) : (h.setM k v).sscratch = h.sscratch := by unfold Hart.setM; split <;> rfl
@[simp] theorem Hart.setM_sepc (h : Hart) (k : MaskNo) (v : Nat) : (h.setM k v).sepc = h.sepc := by unfold Hart.setM; split <;> rfl
@[simp] theorem Hart.setM_scause (h : Hart) (k : MaskNo) (v : Nat) : (h.setM k v).scause = h.scause := by unfold Hart.setM; split <;> rfl
@[simp] theorem Hart.setM_stval (h : Hart) (k : MaskNo) (v : Nat) : (h.setM k v).stval = h.stval := by unfold Hart.setM; split <;> rfl
@[simp] theorem Hart.setM_mcounteren (h : Hart) (k : MaskNo) (v : Nat) : (h.setM k v).mcounteren = h.mcounteren := by unfold Hart.setM; split <;> rfl
@[simp] theorem Hart.setM_scounteren (h : Hart) (k : MaskNo) (v : Nat) : (h.setM k v).scounteren = h.scounteren := by unfold Hart.setM; split <;> rfl
@[simp] theorem Hart.setM_cyInhibit (h : Hart) (k : MaskNo) (v : Nat) : (h.setM k v).cyInhibit = h.cyInhibit := by unfold Hart.setM; split <;> rfl
@[simp] theorem Hart.setM_irInhibit (h : Hart) (k : MaskNo) (v : Nat) : (h.setM k v).irInhibit = h.irInhibit := by unfold Hart.setM; split <;> rfl
@[simp] theorem Hart.setM_satp (h : Hart) (k : MaskNo) (v : Nat) : (h.setM k v).satp = h.satp := by unfold Hart.setM; split <;> rfl
@[simp] theorem Hart.setM_vflags (h : Hart) (k : MaskNo) (v : Nat) : (h.setM k v).vflags = h.vflags := by unfold Hart.setM; split <;> rfl
@[simp] theorem Hart.setM_vfrm (h : Hart) (k : MaskNo) (v : Nat) : (h.setM k v).vfrm = h.vfrm := by unfold Hart.setM; split <;> rfl
@[simp] theorem Hart.setM_vband (h : Hart) (k : MaskNo) (v : Nat) : (h.setM k v).vband = h.vband := by unfold Hart.setM; split <;> rfl
@[simp] theorem Hart.setM_avec (h : Hart) (k : MaskNo) (v : Nat) : (h.setM k v).avec = h.avec := by unfold Hart.setM; split <;> rfl
@[simp] theorem Hart.setM_aepc (h : Hart) (k : MaskNo) (v : Nat) : (h.setM k v).aepc = h.aepc := by unfold Hart.setM; split <;> rfl
@[simp] theorem Hart.setM_acause (h : Hart) (k : MaskNo) (v : Nat) : (h.setM k v).acause = h.acause := by unfold Hart.setM; split <;> rfl
@[simp] theorem Hart.setM_aqsave (h : Hart) (k : MaskNo) (v : Nat) : (h.setM k v).aqsave = h.aqsave := by unfold Hart.setM; split <;> rfl
@[simp] theorem Hart.setM_vobm0 (h : Hart) (k : MaskNo) (v : Nat) : (h.setM k v).vobm0 = h.vobm0 := by unfold Hart.setM; split <;> rfl
@[simp] theorem Hart.setM_vobm1 (h : Hart) (k : MaskNo) (v : Nat) : (h.setM k v).vobm1 = h.vobm1 := by unfold Hart.setM; split <;> rfl
@[simp] theorem Hart.setM_voutcnt (h : Hart) (k : MaskNo) (v : Nat) : (h.setM k v).voutcnt = h.voutcnt := by unfold Hart.setM; split <;> rfl
@[simp] theorem Hart.setM_vl (h : Hart) (k : MaskNo) (v : Nat) : (h.setM k v).vl = h.vl := by unfold Hart.setM; split <;> rfl
@[simp] theorem Hart.setM_vrow (h : Hart) (k : MaskNo) (v : Nat) : (h.setM k v).vrow = h.vrow := by unfold Hart.setM; split <;> rfl
@[simp] theorem Hart.setM_vtype (h : Hart) (k : MaskNo) (v : Nat) : (h.setM k v).vtype = h.vtype := by unfold Hart.setM; split <;> rfl
@[simp] theorem Hart.setM_lgrant (h : Hart) (k : MaskNo) (v : Nat) : (h.setM k v).lgrant = h.lgrant := by unfold Hart.setM; split <;> rfl
@[simp] theorem Hart.setM_vepc (h : Hart) (k : MaskNo) (v : Nat) : (h.setM k v).vepc = h.vepc := by unfold Hart.setM; split <;> rfl
@[simp] theorem Hart.setM_vcause (h : Hart) (k : MaskNo) (v : Nat) : (h.setM k v).vcause = h.vcause := by unfold Hart.setM; split <;> rfl
@[simp] theorem Hart.setM_vtval (h : Hart) (k : MaskNo) (v : Nat) : (h.setM k v).vtval = h.vtval := by unfold Hart.setM; split <;> rfl
@[simp] theorem Hart.setM_vqsave (h : Hart) (k : MaskNo) (v : Nat) : (h.setM k v).vqsave = h.vqsave := by unfold Hart.setM; split <;> rfl
@[simp] theorem Hart.setM_vmissrec (h : Hart) (k : MaskNo) (v : Nat) : (h.setM k v).vmissrec = h.vmissrec := by unfold Hart.setM; split <;> rfl
@[simp] theorem Hart.setM_vmisscnt (h : Hart) (k : MaskNo) (v : Nat) : (h.setM k v).vmisscnt = h.vmisscnt := by unfold Hart.setM; split <;> rfl
@[simp] theorem Hart.setM_gencap (h : Hart) (k : MaskNo) (v : Nat) : (h.setM k v).gencap = h.gencap := by unfold Hart.setM; split <;> rfl
@[simp] theorem Hart.setM_size (h : Hart) (k : MaskNo) (v : Nat) : (h.setM k v).size = h.size := by unfold Hart.setM; split <;> rfl
@[simp] theorem Hart.setM_v (h : Hart) (k : MaskNo) (v : Nat) : (h.setM k v).v = h.v := by unfold Hart.setM; split <;> rfl
@[simp] theorem Hart.setM_w (h : Hart) (k : MaskNo) (v : Nat) : (h.setM k v).w = h.w := by unfold Hart.setM; split <;> rfl
@[simp] theorem Hart.setM_ownTiles (h : Hart) (k : MaskNo) (v : Nat) : (h.setM k v).ownTiles = h.ownTiles := by unfold Hart.setM; split <;> rfl
@[simp] theorem Hart.setM_t (h : Hart) (k : MaskNo) (v : Nat) : (h.setM k v).t = h.t := by unfold Hart.setM; split <;> rfl
@[simp] theorem Hart.setM_sA (h : Hart) (k : MaskNo) (v : Nat) : (h.setM k v).sA = h.sA := by unfold Hart.setM; split <;> rfl
@[simp] theorem Hart.setM_sB (h : Hart) (k : MaskNo) (v : Nat) : (h.setM k v).sB = h.sB := by unfold Hart.setM; split <;> rfl
@[simp] theorem Hart.setM_anchorHandler (h : Hart) (k : MaskNo) (v : Nat) : (h.setM k v).anchorHandler = h.anchorHandler := by unfold Hart.setM; split <;> rfl
@[simp] theorem Hart.setM_viq (h : Hart) (k : MaskNo) (v : Nat) : (h.setM k v).viq = h.viq := by unfold Hart.setM; split <;> rfl
@[simp] theorem Hart.setM_window (h : Hart) (k : MaskNo) (v : Nat) : (h.setM k v).window = h.window := by unfold Hart.setM; split <;> rfl
@[simp] theorem Hart.setM_next (h : Hart) (k : MaskNo) (v : Nat) : (h.setM k v).next = h.next := by unfold Hart.setM; split <;> rfl
@[simp] theorem Hart.setM_loadq (h : Hart) (k : MaskNo) (v : Nat) : (h.setM k v).loadq = h.loadq := by unfold Hart.setM; split <;> rfl
@[simp] theorem Hart.setM_bq (h : Hart) (k : MaskNo) (v : Nat) : (h.setM k v).bq = h.bq := by unfold Hart.setM; split <;> rfl
@[simp] theorem Hart.setM_pigeonhole (h : Hart) (k : MaskNo) (v : Nat) : (h.setM k v).pigeonhole = h.pigeonhole := by unfold Hart.setM; split <;> rfl
@[simp] theorem Hart.setM_lq (h : Hart) (k : MaskNo) (v : Nat) : (h.setM k v).lq = h.lq := by unfold Hart.setM; split <;> rfl
@[simp] theorem Hart.setM_vsq (h : Hart) (k : MaskNo) (v : Nat) : (h.setM k v).vsq = h.vsq := by unfold Hart.setM; split <;> rfl
@[simp] theorem Hart.setM_ssq (h : Hart) (k : MaskNo) (v : Nat) : (h.setM k v).ssq = h.ssq := by unfold Hart.setM; split <;> rfl
@[simp] theorem Hart.setM_slq (h : Hart) (k : MaskNo) (v : Nat) : (h.setM k v).slq = h.slq := by unfold Hart.setM; split <;> rfl
@[simp] theorem Hart.setM_oldLines (h : Hart) (k : MaskNo) (v : Nat) : (h.setM k v).oldLines = h.oldLines := by unfold Hart.setM; split <;> rfl
@[simp] theorem Hart.setM_taint (h : Hart) (k : MaskNo) (v : Nat) : (h.setM k v).taint = h.taint := by unfold Hart.setM; split <;> rfl
@[simp] theorem Hart.setM_vectorTaint (h : Hart) (k : MaskNo) (v : Nat) : (h.setM k v).vectorTaint = h.vectorTaint := by unfold Hart.setM; split <;> rfl
@[simp] theorem Hart.setM_nmError (h : Hart) (k : MaskNo) (v : Nat) : (h.setM k v).nmError = h.nmError := by unfold Hart.setM; split <;> rfl
@[simp] theorem Hart.setM_aldc (h : Hart) (k : MaskNo) (v : Nat) : (h.setM k v).aldc = h.aldc := by unfold Hart.setM; split <;> rfl
@[simp] theorem Hart.setM_wait (h : Hart) (k : MaskNo) (v : Nat) : (h.setM k v).wait = h.wait := by unfold Hart.setM; split <;> rfl
@[simp] theorem Hart.setM_stall (h : Hart) (k : MaskNo) (v : Nat) : (h.setM k v).stall = h.stall := by unfold Hart.setM; split <;> rfl
@[simp] theorem Hart.setM_barPhases (h : Hart) (k : MaskNo) (v : Nat) : (h.setM k v).barPhases = h.barPhases := by unfold Hart.setM; split <;> rfl
@[simp] theorem Hart.setM_largestTime (h : Hart) (k : MaskNo) (v : Nat) : (h.setM k v).largestTime = h.largestTime := by unfold Hart.setM; split <;> rfl
@[simp] theorem Hart.setM_headAged (h : Hart) (k : MaskNo) (v : Nat) : (h.setM k v).headAged = h.headAged := by unfold Hart.setM; split <;> rfl
@[simp] theorem Hart.setM_holdViq (h : Hart) (k : MaskNo) (v : Nat) : (h.setM k v).holdViq = h.holdViq := by unfold Hart.setM; split <;> rfl
@[simp] theorem Hart.setM_holdVsq (h : Hart) (k : MaskNo) (v : Nat) : (h.setM k v).holdVsq = h.holdVsq := by unfold Hart.setM; split <;> rfl
@[simp] theorem Hart.setM_holdSsq (h : Hart) (k : MaskNo) (v : Nat) : (h.setM k v).holdSsq = h.holdSsq := by unfold Hart.setM; split <;> rfl
@[simp] theorem Hart.setM_holdSlq (h : Hart) (k : MaskNo) (v : Nat) : (h.setM k v).holdSlq = h.holdSlq := by unfold Hart.setM; split <;> rfl
@[simp] theorem Hart.setM_holdWindow (h : Hart) (k : MaskNo) (v : Nat) : (h.setM k v).holdWindow = h.holdWindow := by unfold Hart.setM; split <;> rfl
@[simp] theorem Hart.setM_holdOldest (h : Hart) (k : MaskNo) (v : Nat) : (h.setM k v).holdOldest = h.holdOldest := by unfold Hart.setM; split <;> rfl
@[simp] theorem Hart.setM_holdLines (h : Hart) (k : MaskNo) (v : Nat) : (h.setM k v).holdLines = h.holdLines := by unfold Hart.setM; split <;> rfl
@[simp] theorem Hart.setM_drainViq (h : Hart) (k : MaskNo) (v : Nat) : (h.setM k v).drainViq = h.drainViq := by unfold Hart.setM; split <;> rfl

/-! `Hart.setT`. -/

@[simp] theorem Hart.setT_hid (h : Hart) (k : TileNo) (v : Tile) : (h.setT k v).hid = h.hid := rfl
@[simp] theorem Hart.setT_run (h : Hart) (k : TileNo) (v : Tile) : (h.setT k v).run = h.run := rfl
@[simp] theorem Hart.setT_gang (h : Hart) (k : TileNo) (v : Tile) : (h.setT k v).gang = h.gang := rfl
@[simp] theorem Hart.setT_rank (h : Hart) (k : TileNo) (v : Tile) : (h.setT k v).rank = h.rank := rfl
@[simp] theorem Hart.setT_pc (h : Hart) (k : TileNo) (v : Tile) : (h.setT k v).pc = h.pc := rfl
@[simp] theorem Hart.setT_x (h : Hart) (k : TileNo) (v : Tile) : (h.setT k v).x = h.x := rfl
@[simp] theorem Hart.setT_f (h : Hart) (k : TileNo) (v : Tile) : (h.setT k v).f = h.f := rfl
@[simp] theorem Hart.setT_frm (h : Hart) (k : TileNo) (v : Tile) : (h.setT k v).frm = h.frm := rfl
@[simp] theorem Hart.setT_fflags (h : Hart) (k : TileNo) (v : Tile) : (h.setT k v).fflags = h.fflags := rfl
@[simp] theorem Hart.setT_mode (h : Hart) (k : TileNo) (v : Tile) : (h.setT k v).mode = h.mode := rfl
@[simp] theorem Hart.setT_reservation (h : Hart) (k : TileNo) (v : Tile) : (h.setT k v).reservation = h.reservation := rfl
@[simp] theorem Hart.setT_instret (h : Hart) (k : TileNo) (v : Tile) : (h.setT k v).instret = h.instret := rfl
@[simp] theorem Hart.setT_cycle (h : Hart) (k : TileNo) (v : Tile) : (h.setT k v).cycle = h.cycle := rfl
@[simp] theorem Hart.setT_mstatus (h : Hart) (k : TileNo) (v : Tile) : (h.setT k v).mstatus = h.mstatus := rfl
@[simp] theorem Hart.setT_medeleg (h : Hart) (k : TileNo) (v : Tile) : (h.setT k v).medeleg = h.medeleg := rfl
@[simp] theorem Hart.setT_mideleg (h : Hart) (k : TileNo) (v : Tile) : (h.setT k v).mideleg = h.mideleg := rfl
@[simp] theorem Hart.setT_mie (h : Hart) (k : TileNo) (v : Tile) : (h.setT k v).mie = h.mie := rfl
@[simp] theorem Hart.setT_mip (h : Hart) (k : TileNo) (v : Tile) : (h.setT k v).mip = h.mip := rfl
@[simp] theorem Hart.setT_mtvec (h : Hart) (k : TileNo) (v : Tile) : (h.setT k v).mtvec = h.mtvec := rfl
@[simp] theorem Hart.setT_mscratch (h : Hart) (k : TileNo) (v : Tile) : (h.setT k v).mscratch = h.mscratch := rfl
@[simp] theorem Hart.setT_mepc (h : Hart) (k : TileNo) (v : Tile) : (h.setT k v).mepc = h.mepc := rfl
@[simp] theorem Hart.setT_mcause (h : Hart) (k : TileNo) (v : Tile) : (h.setT k v).mcause = h.mcause := rfl
@[simp] theorem Hart.setT_mtval (h : Hart) (k : TileNo) (v : Tile) : (h.setT k v).mtval = h.mtval := rfl
@[simp] theorem Hart.setT_stvec (h : Hart) (k : TileNo) (v : Tile) : (h.setT k v).stvec = h.stvec := rfl
@[simp] theorem Hart.setT_sscratch (h : Hart) (k : TileNo) (v : Tile) : (h.setT k v).sscratch = h.sscratch := rfl
@[simp] theorem Hart.setT_sepc (h : Hart) (k : TileNo) (v : Tile) : (h.setT k v).sepc = h.sepc := rfl
@[simp] theorem Hart.setT_scause (h : Hart) (k : TileNo) (v : Tile) : (h.setT k v).scause = h.scause := rfl
@[simp] theorem Hart.setT_stval (h : Hart) (k : TileNo) (v : Tile) : (h.setT k v).stval = h.stval := rfl
@[simp] theorem Hart.setT_mcounteren (h : Hart) (k : TileNo) (v : Tile) : (h.setT k v).mcounteren = h.mcounteren := rfl
@[simp] theorem Hart.setT_scounteren (h : Hart) (k : TileNo) (v : Tile) : (h.setT k v).scounteren = h.scounteren := rfl
@[simp] theorem Hart.setT_cyInhibit (h : Hart) (k : TileNo) (v : Tile) : (h.setT k v).cyInhibit = h.cyInhibit := rfl
@[simp] theorem Hart.setT_irInhibit (h : Hart) (k : TileNo) (v : Tile) : (h.setT k v).irInhibit = h.irInhibit := rfl
@[simp] theorem Hart.setT_satp (h : Hart) (k : TileNo) (v : Tile) : (h.setT k v).satp = h.satp := rfl
@[simp] theorem Hart.setT_vflags (h : Hart) (k : TileNo) (v : Tile) : (h.setT k v).vflags = h.vflags := rfl
@[simp] theorem Hart.setT_vfrm (h : Hart) (k : TileNo) (v : Tile) : (h.setT k v).vfrm = h.vfrm := rfl
@[simp] theorem Hart.setT_vband (h : Hart) (k : TileNo) (v : Tile) : (h.setT k v).vband = h.vband := rfl
@[simp] theorem Hart.setT_avec (h : Hart) (k : TileNo) (v : Tile) : (h.setT k v).avec = h.avec := rfl
@[simp] theorem Hart.setT_aepc (h : Hart) (k : TileNo) (v : Tile) : (h.setT k v).aepc = h.aepc := rfl
@[simp] theorem Hart.setT_acause (h : Hart) (k : TileNo) (v : Tile) : (h.setT k v).acause = h.acause := rfl
@[simp] theorem Hart.setT_aqsave (h : Hart) (k : TileNo) (v : Tile) : (h.setT k v).aqsave = h.aqsave := rfl
@[simp] theorem Hart.setT_vobm0 (h : Hart) (k : TileNo) (v : Tile) : (h.setT k v).vobm0 = h.vobm0 := rfl
@[simp] theorem Hart.setT_vobm1 (h : Hart) (k : TileNo) (v : Tile) : (h.setT k v).vobm1 = h.vobm1 := rfl
@[simp] theorem Hart.setT_voutcnt (h : Hart) (k : TileNo) (v : Tile) : (h.setT k v).voutcnt = h.voutcnt := rfl
@[simp] theorem Hart.setT_vl (h : Hart) (k : TileNo) (v : Tile) : (h.setT k v).vl = h.vl := rfl
@[simp] theorem Hart.setT_vrow (h : Hart) (k : TileNo) (v : Tile) : (h.setT k v).vrow = h.vrow := rfl
@[simp] theorem Hart.setT_vtype (h : Hart) (k : TileNo) (v : Tile) : (h.setT k v).vtype = h.vtype := rfl
@[simp] theorem Hart.setT_lgrant (h : Hart) (k : TileNo) (v : Tile) : (h.setT k v).lgrant = h.lgrant := rfl
@[simp] theorem Hart.setT_vepc (h : Hart) (k : TileNo) (v : Tile) : (h.setT k v).vepc = h.vepc := rfl
@[simp] theorem Hart.setT_vcause (h : Hart) (k : TileNo) (v : Tile) : (h.setT k v).vcause = h.vcause := rfl
@[simp] theorem Hart.setT_vtval (h : Hart) (k : TileNo) (v : Tile) : (h.setT k v).vtval = h.vtval := rfl
@[simp] theorem Hart.setT_vqsave (h : Hart) (k : TileNo) (v : Tile) : (h.setT k v).vqsave = h.vqsave := rfl
@[simp] theorem Hart.setT_vmissrec (h : Hart) (k : TileNo) (v : Tile) : (h.setT k v).vmissrec = h.vmissrec := rfl
@[simp] theorem Hart.setT_vmisscnt (h : Hart) (k : TileNo) (v : Tile) : (h.setT k v).vmisscnt = h.vmisscnt := rfl
@[simp] theorem Hart.setT_gencap (h : Hart) (k : TileNo) (v : Tile) : (h.setT k v).gencap = h.gencap := rfl
@[simp] theorem Hart.setT_size (h : Hart) (k : TileNo) (v : Tile) : (h.setT k v).size = h.size := rfl
@[simp] theorem Hart.setT_v (h : Hart) (k : TileNo) (v : Tile) : (h.setT k v).v = h.v := rfl
@[simp] theorem Hart.setT_m (h : Hart) (k : TileNo) (v : Tile) : (h.setT k v).m = h.m := rfl
@[simp] theorem Hart.setT_w (h : Hart) (k : TileNo) (v : Tile) : (h.setT k v).w = h.w := rfl
@[simp] theorem Hart.setT_ownTiles (h : Hart) (k : TileNo) (v : Tile) : (h.setT k v).ownTiles = h.ownTiles := rfl
@[simp] theorem Hart.setT_sA (h : Hart) (k : TileNo) (v : Tile) : (h.setT k v).sA = h.sA := rfl
@[simp] theorem Hart.setT_sB (h : Hart) (k : TileNo) (v : Tile) : (h.setT k v).sB = h.sB := rfl
@[simp] theorem Hart.setT_anchorHandler (h : Hart) (k : TileNo) (v : Tile) : (h.setT k v).anchorHandler = h.anchorHandler := rfl
@[simp] theorem Hart.setT_viq (h : Hart) (k : TileNo) (v : Tile) : (h.setT k v).viq = h.viq := rfl
@[simp] theorem Hart.setT_window (h : Hart) (k : TileNo) (v : Tile) : (h.setT k v).window = h.window := rfl
@[simp] theorem Hart.setT_next (h : Hart) (k : TileNo) (v : Tile) : (h.setT k v).next = h.next := rfl
@[simp] theorem Hart.setT_loadq (h : Hart) (k : TileNo) (v : Tile) : (h.setT k v).loadq = h.loadq := rfl
@[simp] theorem Hart.setT_bq (h : Hart) (k : TileNo) (v : Tile) : (h.setT k v).bq = h.bq := rfl
@[simp] theorem Hart.setT_pigeonhole (h : Hart) (k : TileNo) (v : Tile) : (h.setT k v).pigeonhole = h.pigeonhole := rfl
@[simp] theorem Hart.setT_lq (h : Hart) (k : TileNo) (v : Tile) : (h.setT k v).lq = h.lq := rfl
@[simp] theorem Hart.setT_vsq (h : Hart) (k : TileNo) (v : Tile) : (h.setT k v).vsq = h.vsq := rfl
@[simp] theorem Hart.setT_ssq (h : Hart) (k : TileNo) (v : Tile) : (h.setT k v).ssq = h.ssq := rfl
@[simp] theorem Hart.setT_slq (h : Hart) (k : TileNo) (v : Tile) : (h.setT k v).slq = h.slq := rfl
@[simp] theorem Hart.setT_oldLines (h : Hart) (k : TileNo) (v : Tile) : (h.setT k v).oldLines = h.oldLines := rfl
@[simp] theorem Hart.setT_taint (h : Hart) (k : TileNo) (v : Tile) : (h.setT k v).taint = h.taint := rfl
@[simp] theorem Hart.setT_vectorTaint (h : Hart) (k : TileNo) (v : Tile) : (h.setT k v).vectorTaint = h.vectorTaint := rfl
@[simp] theorem Hart.setT_nmError (h : Hart) (k : TileNo) (v : Tile) : (h.setT k v).nmError = h.nmError := rfl
@[simp] theorem Hart.setT_aldc (h : Hart) (k : TileNo) (v : Tile) : (h.setT k v).aldc = h.aldc := rfl
@[simp] theorem Hart.setT_wait (h : Hart) (k : TileNo) (v : Tile) : (h.setT k v).wait = h.wait := rfl
@[simp] theorem Hart.setT_stall (h : Hart) (k : TileNo) (v : Tile) : (h.setT k v).stall = h.stall := rfl
@[simp] theorem Hart.setT_barPhases (h : Hart) (k : TileNo) (v : Tile) : (h.setT k v).barPhases = h.barPhases := rfl
@[simp] theorem Hart.setT_largestTime (h : Hart) (k : TileNo) (v : Tile) : (h.setT k v).largestTime = h.largestTime := rfl
@[simp] theorem Hart.setT_headAged (h : Hart) (k : TileNo) (v : Tile) : (h.setT k v).headAged = h.headAged := rfl
@[simp] theorem Hart.setT_holdViq (h : Hart) (k : TileNo) (v : Tile) : (h.setT k v).holdViq = h.holdViq := rfl
@[simp] theorem Hart.setT_holdVsq (h : Hart) (k : TileNo) (v : Tile) : (h.setT k v).holdVsq = h.holdVsq := rfl
@[simp] theorem Hart.setT_holdSsq (h : Hart) (k : TileNo) (v : Tile) : (h.setT k v).holdSsq = h.holdSsq := rfl
@[simp] theorem Hart.setT_holdSlq (h : Hart) (k : TileNo) (v : Tile) : (h.setT k v).holdSlq = h.holdSlq := rfl
@[simp] theorem Hart.setT_holdWindow (h : Hart) (k : TileNo) (v : Tile) : (h.setT k v).holdWindow = h.holdWindow := rfl
@[simp] theorem Hart.setT_holdOldest (h : Hart) (k : TileNo) (v : Tile) : (h.setT k v).holdOldest = h.holdOldest := rfl
@[simp] theorem Hart.setT_holdLines (h : Hart) (k : TileNo) (v : Tile) : (h.setT k v).holdLines = h.holdLines := rfl
@[simp] theorem Hart.setT_drainViq (h : Hart) (k : TileNo) (v : Tile) : (h.setT k v).drainViq = h.drainViq := rfl

/-! `Hart.orFlags`. -/

@[simp] theorem Hart.orFlags_hid (h : Hart) (fl : Nat) : (h.orFlags fl).hid = h.hid := rfl
@[simp] theorem Hart.orFlags_run (h : Hart) (fl : Nat) : (h.orFlags fl).run = h.run := rfl
@[simp] theorem Hart.orFlags_gang (h : Hart) (fl : Nat) : (h.orFlags fl).gang = h.gang := rfl
@[simp] theorem Hart.orFlags_rank (h : Hart) (fl : Nat) : (h.orFlags fl).rank = h.rank := rfl
@[simp] theorem Hart.orFlags_pc (h : Hart) (fl : Nat) : (h.orFlags fl).pc = h.pc := rfl
@[simp] theorem Hart.orFlags_x (h : Hart) (fl : Nat) : (h.orFlags fl).x = h.x := rfl
@[simp] theorem Hart.orFlags_f (h : Hart) (fl : Nat) : (h.orFlags fl).f = h.f := rfl
@[simp] theorem Hart.orFlags_frm (h : Hart) (fl : Nat) : (h.orFlags fl).frm = h.frm := rfl
@[simp] theorem Hart.orFlags_fflags (h : Hart) (fl : Nat) : (h.orFlags fl).fflags = h.fflags := rfl
@[simp] theorem Hart.orFlags_mode (h : Hart) (fl : Nat) : (h.orFlags fl).mode = h.mode := rfl
@[simp] theorem Hart.orFlags_reservation (h : Hart) (fl : Nat) : (h.orFlags fl).reservation = h.reservation := rfl
@[simp] theorem Hart.orFlags_instret (h : Hart) (fl : Nat) : (h.orFlags fl).instret = h.instret := rfl
@[simp] theorem Hart.orFlags_cycle (h : Hart) (fl : Nat) : (h.orFlags fl).cycle = h.cycle := rfl
@[simp] theorem Hart.orFlags_mstatus (h : Hart) (fl : Nat) : (h.orFlags fl).mstatus = h.mstatus := rfl
@[simp] theorem Hart.orFlags_medeleg (h : Hart) (fl : Nat) : (h.orFlags fl).medeleg = h.medeleg := rfl
@[simp] theorem Hart.orFlags_mideleg (h : Hart) (fl : Nat) : (h.orFlags fl).mideleg = h.mideleg := rfl
@[simp] theorem Hart.orFlags_mie (h : Hart) (fl : Nat) : (h.orFlags fl).mie = h.mie := rfl
@[simp] theorem Hart.orFlags_mip (h : Hart) (fl : Nat) : (h.orFlags fl).mip = h.mip := rfl
@[simp] theorem Hart.orFlags_mtvec (h : Hart) (fl : Nat) : (h.orFlags fl).mtvec = h.mtvec := rfl
@[simp] theorem Hart.orFlags_mscratch (h : Hart) (fl : Nat) : (h.orFlags fl).mscratch = h.mscratch := rfl
@[simp] theorem Hart.orFlags_mepc (h : Hart) (fl : Nat) : (h.orFlags fl).mepc = h.mepc := rfl
@[simp] theorem Hart.orFlags_mcause (h : Hart) (fl : Nat) : (h.orFlags fl).mcause = h.mcause := rfl
@[simp] theorem Hart.orFlags_mtval (h : Hart) (fl : Nat) : (h.orFlags fl).mtval = h.mtval := rfl
@[simp] theorem Hart.orFlags_stvec (h : Hart) (fl : Nat) : (h.orFlags fl).stvec = h.stvec := rfl
@[simp] theorem Hart.orFlags_sscratch (h : Hart) (fl : Nat) : (h.orFlags fl).sscratch = h.sscratch := rfl
@[simp] theorem Hart.orFlags_sepc (h : Hart) (fl : Nat) : (h.orFlags fl).sepc = h.sepc := rfl
@[simp] theorem Hart.orFlags_scause (h : Hart) (fl : Nat) : (h.orFlags fl).scause = h.scause := rfl
@[simp] theorem Hart.orFlags_stval (h : Hart) (fl : Nat) : (h.orFlags fl).stval = h.stval := rfl
@[simp] theorem Hart.orFlags_mcounteren (h : Hart) (fl : Nat) : (h.orFlags fl).mcounteren = h.mcounteren := rfl
@[simp] theorem Hart.orFlags_scounteren (h : Hart) (fl : Nat) : (h.orFlags fl).scounteren = h.scounteren := rfl
@[simp] theorem Hart.orFlags_cyInhibit (h : Hart) (fl : Nat) : (h.orFlags fl).cyInhibit = h.cyInhibit := rfl
@[simp] theorem Hart.orFlags_irInhibit (h : Hart) (fl : Nat) : (h.orFlags fl).irInhibit = h.irInhibit := rfl
@[simp] theorem Hart.orFlags_satp (h : Hart) (fl : Nat) : (h.orFlags fl).satp = h.satp := rfl
@[simp] theorem Hart.orFlags_vfrm (h : Hart) (fl : Nat) : (h.orFlags fl).vfrm = h.vfrm := rfl
@[simp] theorem Hart.orFlags_vband (h : Hart) (fl : Nat) : (h.orFlags fl).vband = h.vband := rfl
@[simp] theorem Hart.orFlags_avec (h : Hart) (fl : Nat) : (h.orFlags fl).avec = h.avec := rfl
@[simp] theorem Hart.orFlags_aepc (h : Hart) (fl : Nat) : (h.orFlags fl).aepc = h.aepc := rfl
@[simp] theorem Hart.orFlags_acause (h : Hart) (fl : Nat) : (h.orFlags fl).acause = h.acause := rfl
@[simp] theorem Hart.orFlags_aqsave (h : Hart) (fl : Nat) : (h.orFlags fl).aqsave = h.aqsave := rfl
@[simp] theorem Hart.orFlags_vobm0 (h : Hart) (fl : Nat) : (h.orFlags fl).vobm0 = h.vobm0 := rfl
@[simp] theorem Hart.orFlags_vobm1 (h : Hart) (fl : Nat) : (h.orFlags fl).vobm1 = h.vobm1 := rfl
@[simp] theorem Hart.orFlags_voutcnt (h : Hart) (fl : Nat) : (h.orFlags fl).voutcnt = h.voutcnt := rfl
@[simp] theorem Hart.orFlags_vl (h : Hart) (fl : Nat) : (h.orFlags fl).vl = h.vl := rfl
@[simp] theorem Hart.orFlags_vrow (h : Hart) (fl : Nat) : (h.orFlags fl).vrow = h.vrow := rfl
@[simp] theorem Hart.orFlags_vtype (h : Hart) (fl : Nat) : (h.orFlags fl).vtype = h.vtype := rfl
@[simp] theorem Hart.orFlags_lgrant (h : Hart) (fl : Nat) : (h.orFlags fl).lgrant = h.lgrant := rfl
@[simp] theorem Hart.orFlags_vepc (h : Hart) (fl : Nat) : (h.orFlags fl).vepc = h.vepc := rfl
@[simp] theorem Hart.orFlags_vcause (h : Hart) (fl : Nat) : (h.orFlags fl).vcause = h.vcause := rfl
@[simp] theorem Hart.orFlags_vtval (h : Hart) (fl : Nat) : (h.orFlags fl).vtval = h.vtval := rfl
@[simp] theorem Hart.orFlags_vqsave (h : Hart) (fl : Nat) : (h.orFlags fl).vqsave = h.vqsave := rfl
@[simp] theorem Hart.orFlags_vmissrec (h : Hart) (fl : Nat) : (h.orFlags fl).vmissrec = h.vmissrec := rfl
@[simp] theorem Hart.orFlags_vmisscnt (h : Hart) (fl : Nat) : (h.orFlags fl).vmisscnt = h.vmisscnt := rfl
@[simp] theorem Hart.orFlags_gencap (h : Hart) (fl : Nat) : (h.orFlags fl).gencap = h.gencap := rfl
@[simp] theorem Hart.orFlags_size (h : Hart) (fl : Nat) : (h.orFlags fl).size = h.size := rfl
@[simp] theorem Hart.orFlags_v (h : Hart) (fl : Nat) : (h.orFlags fl).v = h.v := rfl
@[simp] theorem Hart.orFlags_m (h : Hart) (fl : Nat) : (h.orFlags fl).m = h.m := rfl
@[simp] theorem Hart.orFlags_w (h : Hart) (fl : Nat) : (h.orFlags fl).w = h.w := rfl
@[simp] theorem Hart.orFlags_ownTiles (h : Hart) (fl : Nat) : (h.orFlags fl).ownTiles = h.ownTiles := rfl
@[simp] theorem Hart.orFlags_t (h : Hart) (fl : Nat) : (h.orFlags fl).t = h.t := rfl
@[simp] theorem Hart.orFlags_sA (h : Hart) (fl : Nat) : (h.orFlags fl).sA = h.sA := rfl
@[simp] theorem Hart.orFlags_sB (h : Hart) (fl : Nat) : (h.orFlags fl).sB = h.sB := rfl
@[simp] theorem Hart.orFlags_anchorHandler (h : Hart) (fl : Nat) : (h.orFlags fl).anchorHandler = h.anchorHandler := rfl
@[simp] theorem Hart.orFlags_viq (h : Hart) (fl : Nat) : (h.orFlags fl).viq = h.viq := rfl
@[simp] theorem Hart.orFlags_window (h : Hart) (fl : Nat) : (h.orFlags fl).window = h.window := rfl
@[simp] theorem Hart.orFlags_next (h : Hart) (fl : Nat) : (h.orFlags fl).next = h.next := rfl
@[simp] theorem Hart.orFlags_loadq (h : Hart) (fl : Nat) : (h.orFlags fl).loadq = h.loadq := rfl
@[simp] theorem Hart.orFlags_bq (h : Hart) (fl : Nat) : (h.orFlags fl).bq = h.bq := rfl
@[simp] theorem Hart.orFlags_pigeonhole (h : Hart) (fl : Nat) : (h.orFlags fl).pigeonhole = h.pigeonhole := rfl
@[simp] theorem Hart.orFlags_lq (h : Hart) (fl : Nat) : (h.orFlags fl).lq = h.lq := rfl
@[simp] theorem Hart.orFlags_vsq (h : Hart) (fl : Nat) : (h.orFlags fl).vsq = h.vsq := rfl
@[simp] theorem Hart.orFlags_ssq (h : Hart) (fl : Nat) : (h.orFlags fl).ssq = h.ssq := rfl
@[simp] theorem Hart.orFlags_slq (h : Hart) (fl : Nat) : (h.orFlags fl).slq = h.slq := rfl
@[simp] theorem Hart.orFlags_oldLines (h : Hart) (fl : Nat) : (h.orFlags fl).oldLines = h.oldLines := rfl
@[simp] theorem Hart.orFlags_taint (h : Hart) (fl : Nat) : (h.orFlags fl).taint = h.taint := rfl
@[simp] theorem Hart.orFlags_vectorTaint (h : Hart) (fl : Nat) : (h.orFlags fl).vectorTaint = h.vectorTaint := rfl
@[simp] theorem Hart.orFlags_nmError (h : Hart) (fl : Nat) : (h.orFlags fl).nmError = h.nmError := rfl
@[simp] theorem Hart.orFlags_aldc (h : Hart) (fl : Nat) : (h.orFlags fl).aldc = h.aldc := rfl
@[simp] theorem Hart.orFlags_wait (h : Hart) (fl : Nat) : (h.orFlags fl).wait = h.wait := rfl
@[simp] theorem Hart.orFlags_stall (h : Hart) (fl : Nat) : (h.orFlags fl).stall = h.stall := rfl
@[simp] theorem Hart.orFlags_barPhases (h : Hart) (fl : Nat) : (h.orFlags fl).barPhases = h.barPhases := rfl
@[simp] theorem Hart.orFlags_largestTime (h : Hart) (fl : Nat) : (h.orFlags fl).largestTime = h.largestTime := rfl
@[simp] theorem Hart.orFlags_headAged (h : Hart) (fl : Nat) : (h.orFlags fl).headAged = h.headAged := rfl
@[simp] theorem Hart.orFlags_holdViq (h : Hart) (fl : Nat) : (h.orFlags fl).holdViq = h.holdViq := rfl
@[simp] theorem Hart.orFlags_holdVsq (h : Hart) (fl : Nat) : (h.orFlags fl).holdVsq = h.holdVsq := rfl
@[simp] theorem Hart.orFlags_holdSsq (h : Hart) (fl : Nat) : (h.orFlags fl).holdSsq = h.holdSsq := rfl
@[simp] theorem Hart.orFlags_holdSlq (h : Hart) (fl : Nat) : (h.orFlags fl).holdSlq = h.holdSlq := rfl
@[simp] theorem Hart.orFlags_holdWindow (h : Hart) (fl : Nat) : (h.orFlags fl).holdWindow = h.holdWindow := rfl
@[simp] theorem Hart.orFlags_holdOldest (h : Hart) (fl : Nat) : (h.orFlags fl).holdOldest = h.holdOldest := rfl
@[simp] theorem Hart.orFlags_holdLines (h : Hart) (fl : Nat) : (h.orFlags fl).holdLines = h.holdLines := rfl
@[simp] theorem Hart.orFlags_drainViq (h : Hart) (fl : Nat) : (h.orFlags fl).drainViq = h.drainViq := rfl

end Sys2Proof.Machine
end

