-- ==== Sys2Proof/Laws/Vector.lean ====
section
/-! SUPPORT. Vector registers: reading and writing one register, expansion, admission and a write of a group, each with all
it can do. -/

namespace Sys2Proof.Machine

/-! One register of a hart. -/

/-- A register read after a register written. -/
theorem Hart.getV_setV (h : Hart) (n m : Nat) (r : VReg) :
    (h.setV n r).getV m = if n = m ∧ n < 32 then r else h.getV m := by
  unfold Hart.getV Hart.setV
  by_cases hm : m < 32
  · by_cases hn : n = m
    · subst hn; simp [hm]
    · simp [hn, hm]
  · have h1 : ¬ (n = m ∧ n < 32) := by omega
    simp [h1, hm]

/-- A lane mask has at most 16 lanes (R30). -/
theorem State.lanes_le (s : State) (h : Hart) : s.lanes h ≤ 16 := by
  unfold State.lanes quadLanes
  have : ∀ q : BitVec 4, popCount 4 q.toNat ≤ 4 := by decide
  have := this (s.quadsOf h)
  omega

/-- Lanes depend on the hart's gang alone. -/
theorem State.lanes_congr {s t : State} {h h' : Hart} (hg : t.gangs = s.gangs) (hk : h'.gang = h.gang) :
    t.lanes h' = s.lanes h := by
  unfold State.lanes State.quadsOf State.gangOf State.findGang
  rw [hg, hk]

/-- A sew code names a positive width. -/
theorem sewBits_pos (n : Nat) : 0 < sewBits n := by
  unfold sewBits; split <;> omega

/-- Every width but 6 divides the register size. -/
theorem sewBits_dvd {n : Nat} (h : n ≠ 1) (lanes : Nat) : 512 * lanes % sewBits n = 0 := by
  unfold sewBits
  split <;> first | omega | (exact absurd rfl h)

/-- A tidy register that is U or A fills its register with whole elements. -/
theorem VReg.tidy_whole {r : VReg} (h : r.tidy = true) (hg : r.tag ≠ .g) (lanes : Nat) : 512 * lanes % sewBits r.sew.toNat = 0 := by
  have h1 : r.sew ≠ 1#3 := by
    intro h2; simp [VReg.tidy, h2] at h; exact hg h
  exact sewBits_dvd (fun h2 => h1 (BitVec.eq_of_toNat_eq h2)) lanes

/-- Where elements fill the register no bit is left open. -/
theorem tagImage_free (r : VReg) {rb : Nat} (free : Nat) (h : rb % sewBits r.sew.toNat = 0) : tagImage r rb free = tagImage r rb 0 := by
  have : sewBits r.sew.toNat * (rb / sewBits r.sew.toNat) = rb := Nat.mul_div_cancel' (Nat.dvd_of_mod_eq_zero h)
  simp [tagImage, this, Nat.mod_one]

/-- The part a U or A register supplies where its elements fill it. -/
theorem partImage_tag {r : VReg} (hg : r.tag ≠ .g) {rb : Nat} (h : rb % sewBits r.sew.toNat = 0) (j sew grp : Nat) :
    partImage r j rb sew grp = tagImage r rb 0 := by
  unfold partImage
  cases ht : r.tag with
  | g => exact absurd ht hg
  | a => exact if_pos h
  | u =>
    dsimp only
    split
    · rename_i hp
      have hs : r.sew.toNat = sew := by simp [VReg.readsPlain] at hp; exact hp.1
      subst hs
      have hd := Nat.dvd_of_mod_eq_zero h
      have hm : sewBits r.sew.toNat * (rb / sewBits r.sew.toNat) = rb := Nat.mul_div_cancel' hd
      have hlo : j * rb % sewBits r.sew.toNat = 0 := Nat.mod_eq_zero_of_dvd (Nat.dvd_trans hd (Nat.dvd_mul_left rb j))
      have hc : ceilDiv rb (sewBits r.sew.toNat) = rb / sewBits r.sew.toNat := by
        unfold ceilDiv
        have hp := sewBits_pos r.sew.toNat
        generalize sewBits r.sew.toNat = w at *
        obtain ⟨k, rfl⟩ := hd
        rw [Nat.mul_div_cancel_left _ hp, Nat.add_sub_assoc hp, Nat.mul_add_div hp, Nat.div_eq_of_lt (by omega), Nat.add_zero]
      have hlt := affineImage_lt (sewBits r.sew.toNat) r.base.toNat 0 (rb / sewBits r.sew.toNat)
      rw [hm] at hlt
      simp only [hlo, Nat.add_zero, hc, tagImage, VReg.step, ht, ↓reduceIte, hm, Nat.sub_self, Nat.pow_zero, Nat.mod_one, Nat.mul_zero, Nat.add_zero]
      unfold getBits
      rw [Nat.shiftRight_zero, Nat.mod_eq_of_lt hlt]
    · rfl

/-! The same elements. -/

/-- Two harts whose vector registers hold the same elements and poison, at a register size. -/
def Hart.SameElems (h h' : Hart) (rb : Nat) : Prop :=
  ∀ n, (∀ j sew grp, partImage (h'.getV n) j rb sew grp = partImage (h.getV n) j rb sew grp) ∧
    partPoison (h'.getV n) rb = partPoison (h.getV n) rb

theorem Hart.SameElems.refl (h : Hart) (rb : Nat) : h.SameElems h rb := fun _ => ⟨fun _ _ _ => rfl, rfl⟩

theorem Hart.SameElems.trans {a b c : Hart} {rb : Nat} (h1 : a.SameElems b rb) (h2 : b.SameElems c rb) : a.SameElems c rb :=
  fun n => ⟨fun j sew grp => ((h2 n).1 j sew grp).trans ((h1 n).1 j sew grp), (h2 n).2.trans (h1 n).2⟩

theorem Hart.SameElems.image_eq {a b : Hart} {rb : Nat} (h : a.SameElems b rb) (n g sew grp : Nat) :
    groupImage b rb n g sew grp = groupImage a rb n g sew grp := by
  have : (fun (j acc : Nat) => partImage (b.getV (n + j)) j rb sew grp + 2 ^ rb * acc) =
      fun j acc => partImage (a.getV (n + j)) j rb sew grp + 2 ^ rb * acc := by
    funext j acc; rw [(h (n + j)).1]
  simp only [groupImage, this]

theorem Hart.SameElems.poison_eq {a b : Hart} {rb : Nat} (h : a.SameElems b rb) (n g : Nat) :
    groupPoison b rb n g = groupPoison a rb n g := by
  have : (fun (j acc : Nat) => partPoison (b.getV (n + j)) rb + 2 ^ (rb / 8) * acc) =
      fun j acc => partPoison (a.getV (n + j)) rb + 2 ^ (rb / 8) * acc := by
    funext j acc; rw [(h (n + j)).2]
  simp only [groupPoison, this]

/-- Two states whose current harts hold the same elements give every group the same elements. -/
theorem Hart.SameElems.src_eq {s t : State} (h : s.hart.SameElems t.hart (512 * s.lanes s.hart))
    (hl : t.lanes t.hart = s.lanes s.hart) (n g sew : Nat) : groupSrc t n g sew = groupSrc s n g sew := by
  unfold groupSrc
  dsimp only
  rw [hl, h.image_eq, h.poison_eq]

/-! Counters. -/

/-- A hart event changes the counters of a core alone (R433). -/
theorem State.countHart_frame (s : State) (code amount : Nat) (mode : Mode) :
    s.countHart code amount mode = { s with cores := (s.countHart code amount mode).cores } := by
  unfold State.countHart
  split <;> rfl

/-- Micro-ops issued change the counters and the gated lanes of a core alone (R433, R441). -/
theorem State.issued_frame (s : State) (micro : Nat) (mode : Mode) (lanes : BitVec 16) :
    s.issued micro mode lanes = { s with cores := (s.issued micro mode lanes).cores } := by
  unfold State.issued
  split
  · rfl
  · rw [State.countHart_frame]; rfl

/-- Counting an admission changes a core alone (R433, R441). -/
theorem State.countAdmitted_frame (s : State) (e : VEntry) (micro extent : Nat) :
    s.countAdmitted e micro extent = { s with cores := (s.countAdmitted e micro extent).cores } := by
  unfold State.countAdmitted
  split
  · rfl
  · rw [State.issued_frame, State.countHart_frame s 7 1 e.mode]

/-- Chaining withdrawals that may have happened change the slack of a core alone (R442). -/
theorem State.addSlack_frame (s : State) (amount : Nat) (mode : Mode) :
    s.addSlack amount mode = { s with cores := (s.addSlack amount mode).cores } := by
  unfold State.addSlack
  split <;> rfl

/-- What an instruction reads and writes noted changes a core alone (R442). -/
theorem State.noteUses_frame (s : State) (e : VEntry) (u : Uses) (micro : Nat) :
    s.noteUses e u micro = { s with cores := (s.noteUses e u micro).cores } := by
  unfold State.noteUses
  split
  · rfl
  · rw [State.addSlack_frame]; rfl

/-- What an instruction has written noted changes a core alone (R442). -/
theorem State.noteWritten_frame (s : State) (w : InstrWord) (u : Uses) :
    s.noteWritten w u = { s with cores := (s.noteWritten w u).cores } := by
  unfold State.noteWritten
  dsimp only
  split <;> rfl

/-- A count that an admission makes changes the counters of a core alone (R433). -/
theorem State.countAdmission_frame (s : State) (code amount : Nat) (mode : Mode) :
    s.countAdmission code amount mode = { s with cores := (s.countAdmission code amount mode).cores } := by
  unfold State.countAdmission
  split
  · rfl
  · exact State.countHart_frame s code amount mode

/-! Replacing an entry of a vector. -/

/-- An entry replaced by itself. -/
theorem set_self {α : Type} {n : Nat} (v : Vector α n) (i : Nat) (x : α) : v.setIfInBounds i ((v[i]?).getD x) = v := by
  ext j hj
  by_cases h : i = j
  · subst h; simp [hj]
  · simp [h]

/-- Of two replacements of one entry the second stays. -/
theorem set_set {α : Type} {n : Nat} (v : Vector α n) (i : Nat) (x y : α) :
    (v.setIfInBounds i x).setIfInBounds i y = v.setIfInBounds i y := by
  ext j hj
  by_cases h : i = j
  · subst h; simp
  · simp [h]

/-- The entry replaced. -/
theorem get_set {α : Type} {n : Nat} (v : Vector α n) (i : Nat) (x y : α) (h : i < n) :
    ((v.setIfInBounds i x)[i]?).getD y = x := by simp [h]

/-- No entry is replaced outside a vector. -/
theorem set_out {α : Type} {n : Nat} (v : Vector α n) (i : Nat) (x : α) (h : ¬ i < n) : v.setIfInBounds i x = v := by
  ext j hj
  rw [Vector.getElem_setIfInBounds_ne]
  omega

/-! What admission does to its core. -/

/-- A core whose counters may have counted, with the notes they go by, and of which lanes may have woken (R433, R441, R442). -/
def CoreState.moved (c : CoreState) (hpm : Vector Word 16) (slack : Vector Nat 16) (uses : Uses)
    (writers : Vector (Vector (Option VUnit) 44) 8) (g : BitVec 16) : CoreState :=
  { c with hpm := hpm, slack := slack, uses := uses, writers := writers, gated := c.gated &&& g }

/-- Of the cores, only the current hart's may change from one state to another: counters may count and lanes may wake (R433, R441). -/
def Counted (s t : State) : Prop :=
  ∃ hpm slack uses writers g, t.cores = s.cores.setIfInBounds (coreOfHart s.hart.hid)
    ((s.core (coreOfHart s.hart.hid)).moved hpm slack uses writers g)

/-- Cores that stay count nothing. -/
theorem Counted.of_eq {s t : State} (h : t.cores = s.cores) : Counted s t := by
  let c := s.core (coreOfHart s.hart.hid)
  refine ⟨c.hpm, c.slack, c.uses, c.writers, c.gated, ?_⟩
  rw [h]
  simp only [CoreState.moved, BitVec.and_self, c]
  exact (set_self _ _ CoreState.reset).symm

/-- Counting goes on. -/
theorem Counted.trans {s t u : State} (h : Counted s t) (hh : t.hart.hid = s.hart.hid) (k : Counted t u) : Counted s u := by
  obtain ⟨p, a, b, d, g, h⟩ := h
  obtain ⟨q, a', b', d', f, k⟩ := k
  rw [hh] at k
  by_cases hn : coreOfHart s.hart.hid < 128
  · have hc : t.core (coreOfHart s.hart.hid) = (s.core (coreOfHart s.hart.hid)).moved p a b d g := by
      show (t.cores[_]?).getD _ = _
      rw [h, get_set _ _ _ _ hn]
    refine ⟨q, a', b', d', g &&& f, ?_⟩
    rw [k, hc, h, set_set]
    simp only [CoreState.moved, BitVec.and_assoc]
  · refine ⟨q, a', b', d', f, ?_⟩
    rw [k, h, set_out _ _ _ hn, set_out _ _ _ hn, set_out _ _ _ hn]

/-- A core replaced by one that has only moved. -/
theorem Counted.setCore {s : State} {c : CoreState} {hpm slack uses writers g}
    (h : c = (s.core (coreOfHart s.hart.hid)).moved hpm slack uses writers g) : Counted s (s.setCore (coreOfHart s.hart.hid) c) :=
  ⟨hpm, slack, uses, writers, g, by rw [h]; rfl⟩

/-- A hart event, as it changes the cores. -/
theorem State.countHart_counted (s : State) (code amount : Nat) (mode : Mode) : Counted s (s.countHart code amount mode) := by
  unfold State.countHart
  split
  · exact Counted.of_eq rfl
  · let c := s.core (coreOfHart s.hart.hid)
    exact Counted.setCore (slack := c.slack) (uses := c.uses) (writers := c.writers) (g := c.gated) (by
      simp only [CoreState.moved, bumpCounters, BitVec.and_self, c]; rfl)

/-- Micro-ops issued, as it changes the cores. -/
theorem State.issued_counted (s : State) (micro : Nat) (mode : Mode) (lanes : BitVec 16) : Counted s (s.issued micro mode lanes) := by
  unfold State.issued
  split
  · exact Counted.of_eq rfl
  · exact (s.countHart_counted 8 micro mode).trans (by rw [State.countHart_frame]) (Counted.setCore rfl)

/-- An admission counted, as it changes the cores. -/
theorem State.countAdmitted_counted (s : State) (e : VEntry) (micro extent : Nat) : Counted s (s.countAdmitted e micro extent) := by
  unfold State.countAdmitted
  split
  · exact Counted.of_eq rfl
  · exact (s.countHart_counted 7 1 e.mode).trans (by rw [State.countHart_frame]) (State.issued_counted _ _ _ _)

/-- Chaining withdrawals that may have happened, as they change the cores. -/
theorem State.addSlack_counted (s : State) (amount : Nat) (mode : Mode) : Counted s (s.addSlack amount mode) := by
  unfold State.addSlack
  split
  · exact Counted.of_eq rfl
  · let c := s.core (coreOfHart s.hart.hid)
    exact Counted.setCore (hpm := c.hpm) (uses := c.uses) (writers := c.writers) (g := c.gated) (by
      simp only [CoreState.moved, BitVec.and_self, c]; rfl)

/-- What an instruction reads and writes noted, as it changes the cores. -/
theorem State.noteUses_counted (s : State) (e : VEntry) (u : Uses) (micro : Nat) : Counted s (s.noteUses e u micro) := by
  unfold State.noteUses
  split
  · exact Counted.of_eq rfl
  · let c := s.core (coreOfHart s.hart.hid)
    exact (Counted.setCore (hpm := c.hpm) (slack := c.slack) (writers := c.writers) (g := c.gated) (by
      simp only [CoreState.moved, BitVec.and_self, c]; rfl)).trans rfl (State.addSlack_counted _ _ _)

/-- What an instruction has written noted, as it changes the cores. -/
theorem State.noteWritten_counted (s : State) (w : InstrWord) (u : Uses) : Counted s (s.noteWritten w u) := by
  unfold State.noteWritten
  dsimp only
  split
  · exact Counted.of_eq rfl
  · let c := s.core (coreOfHart s.hart.hid)
    exact Counted.setCore (hpm := c.hpm) (slack := c.slack) (uses := c.uses) (g := c.gated) (by
      simp only [CoreState.moved, BitVec.and_self, c]; rfl)

/-- Nothing noted of the next instruction, as it changes the cores. -/
theorem State.clearUses_counted (s : State) : Counted s s.clearUses := by
  let c := s.core (coreOfHart s.hart.hid)
  exact Counted.setCore (hpm := c.hpm) (slack := c.slack) (writers := c.writers) (g := c.gated) (by
    simp only [CoreState.moved, BitVec.and_self, c]; rfl)

/-- A count that an admission makes, as it changes the cores. -/
theorem State.countAdmission_counted (s : State) (code amount : Nat) (mode : Mode) : Counted s (s.countAdmission code amount mode) := by
  unfold State.countAdmission
  split
  · exact Counted.of_eq rfl
  · exact s.countHart_counted code amount mode

/-! Expansion (R193). -/

/-- A register of a tidy hart is tidy. -/
theorem Hart.tidy_getV {h : Hart} (ht : h.tidy = true) (n : Nat) : (h.getV n).tidy = true := by
  by_cases hn : n < 32
  · simp only [Hart.tidy, List.all_eq_true, List.mem_range] at ht
    exact ht n hn
  · have : h.getV n = VReg.reset := by simp [Hart.getV, hn]
    rw [this]; rfl

/-- A hart is tidy when each of its registers is. -/
theorem Hart.tidy_of {h : Hart} (ht : ∀ n, (h.getV n).tidy = true) : h.tidy = true := by
  simp only [Hart.tidy, List.all_eq_true]
  exact fun n _ => ht n

/-- A register of a tidy hart expanded: only that register changes, and what it holds does not. -/
theorem expandReg_spec (s : State) (n : Nat) (ht : s.hart.tidy = true) :
    expandReg s n = { s with hart := { s.hart with v := (expandReg s n).hart.v } } ∧
    s.hart.SameElems (expandReg s n).hart (512 * s.lanes s.hart) ∧ (expandReg s n).hart.tidy = true := by
  unfold expandReg
  dsimp only
  by_cases hg : (s.hart.getV n).tag = .g
  · rw [if_pos hg]; exact ⟨rfl, Hart.SameElems.refl _ _, ht⟩
  · have hw := VReg.tidy_whole (Hart.tidy_getV ht n) hg (s.lanes s.hart)
    rw [if_neg hg]
    simp only [hw, beq_self_eq_true, ↓reduceIte]
    have hb : 512 * s.lanes s.hart ≤ 8192 := by have := s.lanes_le s.hart; omega
    have hlt := tagImage_lt (s.hart.getV n) (512 * s.lanes s.hart) 0
    have hmod : tagImage (s.hart.getV n) (512 * s.lanes s.hart) 0 % 2 ^ 8192 = tagImage (s.hart.getV n) (512 * s.lanes s.hart) 0 :=
      Nat.mod_eq_of_lt (Nat.lt_of_lt_of_le hlt (Nat.pow_le_pow_right (by omega) hb))
    refine ⟨rfl, ?_, ?_⟩
    · intro m
      simp only [State.onHart]
      rw [Hart.getV_setV]
      split
      · rename_i hm
        obtain ⟨rfl, _⟩ := hm
        refine ⟨fun j sew grp => ?_, ?_⟩
        · rw [partImage_tag hg hw]
          simp only [partImage, BitVec.toNat_ofNat]
          rw [Nat.zero_mod, hmod, Nat.mod_eq_of_lt hlt]
        · have : partPoison (s.hart.getV n) (512 * s.lanes s.hart) = 0 := by
            unfold partPoison; cases ht : (s.hart.getV n).tag <;> simp_all
          rw [this]; simp [partPoison]
      · exact ⟨fun _ _ _ => rfl, rfl⟩
    · apply Hart.tidy_of
      intro m
      simp only [State.onHart]
      rw [Hart.getV_setV]
      split
      · rfl
      · exact Hart.tidy_getV ht m

/-- A list of registers expanded. -/
theorem expand_spec (l : List Nat) (s : State) (ht : s.hart.tidy = true) :
    l.foldl expandReg s = { s with hart := { s.hart with v := (l.foldl expandReg s).hart.v } } ∧
    s.hart.SameElems (l.foldl expandReg s).hart (512 * s.lanes s.hart) ∧ (l.foldl expandReg s).hart.tidy = true := by
  induction l generalizing s with
  | nil => exact ⟨rfl, Hart.SameElems.refl _ _, ht⟩
  | cons n l ih =>
    obtain ⟨h1, h2, h3⟩ := expandReg_spec s n ht
    have hl : (expandReg s n).lanes (expandReg s n).hart = s.lanes s.hart :=
      State.lanes_congr (by rw [h1]) (by rw [h1])
    obtain ⟨i1, i2, i3⟩ := ih (expandReg s n) h3
    rw [List.foldl_cons]
    rw [hl] at i2
    refine ⟨?_, h2.trans i2, i3⟩
    generalize hz : l.foldl expandReg (expandReg s n) = z at *
    rw [i1, h1]

/-! Admission (R193, R196, R197). -/

/-- What an admission that finds its slots does: elements stay, counters count and lanes wake, nothing else changes. -/
structure Admitted (s t : State) : Prop where
  frame : t = { s with hart := { s.hart with v := t.hart.v }, cores := t.cores }
  elems : s.hart.SameElems t.hart (512 * s.lanes s.hart)
  tidy : t.hart.tidy = true
  counted : Counted s t

theorem Admitted.lanes {s t : State} (h : Admitted s t) : t.lanes t.hart = s.lanes s.hart :=
  State.lanes_congr (by rw [h.frame]) (by rw [h.frame])

theorem Admitted.src {s t : State} (h : Admitted s t) (n g sew : Nat) : groupSrc t n g sew = groupSrc s n g sew :=
  h.elems.src_eq h.lanes n g sew

/-- Borrowing grows with the registers needed. -/
theorem borrowed_mono (size held : Nat) {a b : Nat} (h : a ≤ b) : borrowed size held a ≤ borrowed size held b := by
  unfold borrowed; omega

/-- Admission on a tidy hart with room for the slots it needs. -/
theorem admission_ok (e : VEntry) (s : State) (reads : List GroupRead) (dest : List Nat) (micro : Nat) (ht : s.hart.tidy = true)
    (hroom : s.room = true)
    (hn : (risingOf (reads.flatMap (GroupRead.expands s.hart))).length + dest.length ≤ 40) :
    ∃ t, admission e s reads dest micro = .ok t ∧ Admitted s t := by
  unfold admission
  dsimp only
  generalize risingOf (reads.flatMap (GroupRead.expands s.hart)) = exp at hn ⊢
  have hb : borrowed s.hart.size.toNat s.hart.general (exp.length + dest.length) ≤ s.unreserved (coreOfHart s.hart.hid) :=
    Nat.le_trans (borrowed_mono _ _ hn) (by simpa [State.room] using hroom)
  unfold obtain
  dsimp only
  rw [if_pos (.inr hb)]
  dsimp only
  have hc := State.countAdmission_frame s 4 (borrowed s.hart.size.toNat s.hart.general (exp.length + dest.length)) e.mode
  have hk := State.countAdmission_counted s 4 (borrowed s.hart.size.toNat s.hart.general (exp.length + dest.length)) e.mode
  generalize s.countAdmission 4 (borrowed s.hart.size.toNat s.hart.general (exp.length + dest.length)) e.mode = s1 at hc hk
  have h1 : s1.hart = s.hart := by rw [hc]
  obtain ⟨a, b, c⟩ := expand_spec exp s1 (by rw [h1]; exact ht)
  have hl : s1.lanes s1.hart = s.lanes s.hart := State.lanes_congr (by rw [hc]) (by rw [h1])
  rw [hl, h1] at b
  rw [h1] at a
  generalize exp.foldl expandReg s1 = s2 at a b c
  have hs : Counted s s2 := hk.trans (by rw [h1]) (.of_eq (by rw [a]))
  have h2 : s2.hart.hid = s.hart.hid := by rw [a]
  refine ⟨_, rfl, ?_, ?_, ?_, ?_⟩
  · rw [State.noteUses_frame, State.countAdmitted_frame, State.countAdmission_frame s2, a, hc]
  · rw [State.noteUses_frame, State.countAdmitted_frame, State.countAdmission_frame s2]; exact b
  · rw [State.noteUses_frame, State.countAdmitted_frame, State.countAdmission_frame s2]; exact c
  · refine ((hs.trans h2 (s2.countAdmission_counted 0x11 exp.length e.mode)).trans
      (by rw [State.countAdmission_frame]; exact h2) (State.countAdmitted_counted _ e micro _)).trans
      (by rw [State.countAdmitted_frame, State.countAdmission_frame]; exact h2) (State.noteUses_counted _ e _ micro)

/-- An element width of 4, 6, 8, 16, 32 or 64 bits is at most 64. -/
theorem sewBits_le (n : Nat) : sewBits n ≤ 64 := by unfold sewBits; split <;> omega

/-! A write of a group (R34, R192). -/

/-- The register a write leaves: the bits of the mask written, the others kept. -/
def writtenReg (sew grp : Nat) (r : VReg) (j rb v m p : Nat) : VReg :=
  ⟨.g, BitVec.ofNat 3 sew, BitVec.ofNat 2 grp, 0#64, 0#64,
   BitVec.ofNat 8192 ((partImage r j rb sew grp &&& (getBits m (j * rb) rb ^^^ (2 ^ rb - 1))) |||
     (getBits v (j * rb) rb &&& getBits m (j * rb) rb)),
   BitVec.ofNat 1024 (mergePoison (partPoison r rb) (getBits m (j * rb) rb) (getBits p (j * rb) rb) (rb / 8))⟩

/-- One register of a group of a tidy hart written. -/
theorem writePart_eq (sew grp first v m p : Nat) (s : State) (j : Nat) (ht : s.hart.tidy = true) :
    writePart sew grp first v m p s j =
      s.onHart (fun h => h.setV (first + j)
        (writtenReg sew grp (s.hart.getV (first + j)) j (512 * s.lanes s.hart) v m p)) := by
  unfold writePart
  have hm : mergeBase s (s.hart.getV (first + j)) j (512 * s.lanes s.hart) sew grp =
      (partImage (s.hart.getV (first + j)) j (512 * s.lanes s.hart) sew grp, s) := by
    unfold mergeBase
    rw [if_pos]
    by_cases hg : (s.hart.getV (first + j)).tag = .g
    · exact .inl hg
    · exact .inr (.inr (VReg.tidy_whole (Hart.tidy_getV ht _) hg _))
  dsimp only
  rw [hm]
  rfl

/-- The registers of a group of a tidy hart written one after another. -/
theorem writeBits_spec (first count sew v m p : Nat) (s : State) (ht : s.hart.tidy = true) (regs : Nat)
    (hr : first + regs ≤ 32) :
    let t := writeBits s first count sew regs v m p
    t = { s with hart := { s.hart with v := t.hart.v } } ∧
    (∀ n, t.hart.getV n = if first ≤ n ∧ n < first + regs
      then writtenReg sew (grpOfCount count) (s.hart.getV n) (n - first) (512 * s.lanes s.hart) v m p else s.hart.getV n) ∧
    t.hart.tidy = true := by
  induction regs with
  | zero =>
    refine ⟨rfl, fun n => ?_, ht⟩
    rw [if_neg (by omega)]
    rfl
  | succ r ih =>
    obtain ⟨h1, h2, h3⟩ := ih (by omega)
    have hs : writeBits s first count sew (r + 1) v m p =
        writePart sew (grpOfCount count) first v m p (writeBits s first count sew r v m p) r := by
      simp [writeBits, List.range_succ]
    dsimp only at *
    rw [hs, writePart_eq _ _ _ _ _ _ _ _ h3]
    have hl : (writeBits s first count sew r v m p).lanes (writeBits s first count sew r v m p).hart = s.lanes s.hart :=
      State.lanes_congr (by rw [h1]) (by rw [h1])
    have hr0 : (writeBits s first count sew r v m p).hart.getV (first + r) = s.hart.getV (first + r) := by
      rw [h2, if_neg (by omega)]
    rw [hl, hr0]
    have key : ∀ n, ((writeBits s first count sew r v m p).hart.setV (first + r)
        (writtenReg sew (grpOfCount count) (s.hart.getV (first + r)) r (512 * s.lanes s.hart) v m p)).getV n =
        if first ≤ n ∧ n < first + (r + 1)
        then writtenReg sew (grpOfCount count) (s.hart.getV n) (n - first) (512 * s.lanes s.hart) v m p else s.hart.getV n := by
      intro n
      rw [Hart.getV_setV]
      by_cases hn : first + r = n
      · subst hn
        rw [if_pos (by omega), if_pos (by omega), Nat.add_sub_cancel_left]
      · rw [if_neg (by omega), h2]
        by_cases hc : first ≤ n ∧ n < first + r
        · rw [if_pos hc, if_pos (by omega)]
        · rw [if_neg hc, if_neg (by omega)]
    refine ⟨?_, key, ?_⟩
    · generalize writeBits s first count sew r v m p = z at *
      simp only [State.onHart]
      rw [h1]
      rfl
    · apply Hart.tidy_of
      intro n
      simp only [State.onHart]
      rw [key]
      split
      · rfl
      · exact Hart.tidy_getV ht n

/-- A register with a field of it cut out of a number. -/
theorem partImage_written (sew grp : Nat) (r : VReg) (j rb v m p : Nat) (hb : rb ≤ 8192) (j' sew' grp' k : Nat) (hk : k < rb) :
    (partImage (writtenReg sew grp r j rb v m p) j' rb sew' grp').testBit k =
      if m.testBit (j * rb + k) then v.testBit (j * rb + k) else (partImage r j rb sew grp).testBit k := by
  have hk2 : k < 8192 := by omega
  simp only [partImage, writtenReg, BitVec.toNat_ofNat, Nat.testBit_mod_two_pow, hk, hk2, decide_true, Bool.true_and,
    Nat.testBit_or, Nat.testBit_and, Nat.testBit_xor, testBit_getBits, Nat.testBit_two_pow_sub_one]
  cases m.testBit (j * rb + k) <;> simp

/-- A group of a tidy hart after elements are written to it: the bits of those elements, every other bit kept. -/
theorem testBit_writeGroup (s : State) (first count sew : Nat) (es : List (Option (Nat × Bool))) (ht : s.hart.tidy = true)
    (hc : first + count ≤ 32) (k : Nat) (hk : k < 512 * s.lanes s.hart * count) :
    (groupImage (writeGroup s first count sew es).hart (512 * s.lanes s.hart) first count sew (grpOfCount count)).testBit k =
      match writtenAt (sewBits sew) es k with
      | some a => a.1.testBit (k % sewBits sew)
      | none => (groupImage s.hart (512 * s.lanes s.hart) first count sew (grpOfCount count)).testBit k := by
  have hb : 512 * s.lanes s.hart ≤ 8192 := by have := s.lanes_le s.hart; omega
  have hw := sewBits_pos sew
  unfold writeGroup
  dsimp only
  generalize hrb : 512 * s.lanes s.hart = rb at *
  have hrb0 : 0 < rb := by rcases Nat.eq_zero_or_pos rb with h | h; (· simp [h] at hk); exact h
  have hmv := testBit_packElems_mask hw es k
  have hvv := testBit_packElems_value hw es k
  generalize packElems (sewBits sew) es = pk at *
  obtain ⟨v, m, p⟩ := pk
  dsimp only at *
  obtain ⟨-, h2, -⟩ := writeBits_spec first count sew v m p s ht (min count (regsBelow rb (sewBits sew) es.length)) (by omega)
  rw [testBit_groupImage _ hrb0, testBit_groupImage _ hrb0, h2]
  have hmod : k % rb < rb := Nat.mod_lt _ hrb0
  have hdiv : k / rb < count := (Nat.div_lt_iff_lt_mul hrb0).mpr (by rw [Nat.mul_comm]; exact hk)
  have hsum : k / rb * rb + k % rb = k := by rw [Nat.mul_comm]; exact Nat.div_add_mod k rb
  simp only [hk, decide_true, Bool.true_and]
  split
  · rw [hrb, Nat.add_sub_cancel_left, partImage_written _ _ _ _ _ _ _ _ hb _ _ _ _ hmod, hsum, hmv, hvv]
    cases writtenAt (sewBits sew) es k <;> simp
  · rename_i hout
    have : writtenAt (sewBits sew) es k = none := by
      unfold writtenAt
      rw [List.getElem?_eq_none]
      · rfl
      · rcases Nat.lt_or_ge (k / sewBits sew) es.length with hlt | hge
        · exfalso
          apply hout
          refine ⟨Nat.le_add_right _ _, Nat.add_lt_add_left (Nat.lt_min.mpr ⟨hdiv, ?_⟩) _⟩
          have h3 : k < sewBits sew * es.length := by
            rw [Nat.mul_comm]; exact (Nat.div_lt_iff_lt_mul hw).mp hlt
          unfold regsBelow ceilDiv
          rw [Nat.div_lt_iff_lt_mul hrb0]
          have h4 := Nat.div_add_mod (sewBits sew * es.length + rb - 1) rb
          have h5 := Nat.mod_lt (sewBits sew * es.length + rb - 1) hrb0
          rw [Nat.mul_comm]
          omega
        · exact hge
    rw [this]

/-- What a write of a group of a tidy hart changes: registers of the group. -/
theorem writeGroup_frame (s : State) (first count sew : Nat) (es : List (Option (Nat × Bool))) (ht : s.hart.tidy = true)
    (hc : first + count ≤ 32) :
    let t := writeGroup s first count sew es
    t = { s with hart := { s.hart with v := t.hart.v } } ∧ t.hart.tidy = true ∧
    (∀ n, n < first ∨ first + count ≤ n → t.hart.getV n = s.hart.getV n) := by
  unfold writeGroup
  dsimp only
  generalize packElems (sewBits sew) es = pk
  obtain ⟨v, m, p⟩ := pk
  dsimp only
  obtain ⟨h1, h2, h3⟩ := writeBits_spec first count sew v m p s ht
    (min count (regsBelow (512 * s.lanes s.hart) (sewBits sew) es.length)) (by omega)
  refine ⟨h1, h3, fun n hn => ?_⟩
  rw [h2, if_neg (by omega)]

/-- An element of a group of a tidy hart after a write of the group. -/
theorem elem_writeGroup (s : State) (first count sew : Nat) (es : List (Option (Nat × Bool))) (ht : s.hart.tidy = true)
    (hc : first + count ≤ 32) (i : Nat) (hi : sewBits sew * (i + 1) ≤ 512 * s.lanes s.hart * count) :
    (writeGroup s first count sew es).elem first count sew i =
      match es[i]?.join with
      | some a => a.1 % 2 ^ sewBits sew
      | none => s.elem first count sew i := by
  have hw := sewBits_pos sew
  obtain ⟨h1, -, -⟩ := writeGroup_frame s first count sew es ht hc
  have hl : (writeGroup s first count sew es).lanes (writeGroup s first count sew es).hart = s.lanes s.hart :=
    State.lanes_congr (by rw [h1]) (by rw [h1])
  unfold State.elem groupSrc imageSrc
  dsimp only
  rw [hl]
  apply Nat.eq_of_testBit_eq
  intro b
  rw [testBit_getBits]
  by_cases hb : b < sewBits sew
  · have hk : sewBits sew * i + b < 512 * s.lanes s.hart * count := by rw [Nat.mul_succ] at hi; omega
    rw [testBit_writeGroup s first count sew es ht hc _ hk]
    have hq : (sewBits sew * i + b) / sewBits sew = i := by
      rw [Nat.mul_add_div hw, Nat.div_eq_of_lt hb, Nat.add_zero]
    have hm : (sewBits sew * i + b) % sewBits sew = b := by rw [Nat.mul_add_mod, Nat.mod_eq_of_lt hb]
    unfold writtenAt
    rw [hq, hm]
    cases es[i]?.join with
    | none => simp [hb, testBit_getBits]
    | some a => simp [hb, Nat.testBit_mod_two_pow]
  · cases es[i]?.join with
    | none => simp [hb, testBit_getBits]
    | some a => simp [hb, Nat.testBit_mod_two_pow]

/-- A field of a field. -/
theorem getBits_getBits (x a n b w : Nat) (h : b + w ≤ n) : getBits (getBits x a n) b w = getBits x (a + b) w := by
  apply Nat.eq_of_testBit_eq
  intro k
  rw [testBit_getBits, testBit_getBits, testBit_getBits]
  by_cases hk : k < w
  · have : b + k < n := by omega
    simp [hk, this, Nat.add_assoc]
  · simp [hk]

/-- The poison of a group of a tidy hart after elements are written to it (R205). -/
theorem testBit_poison_writeGroup (s : State) (first count sew : Nat) (es : List (Option (Nat × Bool)))
    (ht : s.hart.tidy = true) (hc : first + count ≤ 32) (k : Nat) (hk : k < 64 * s.lanes s.hart * count) :
    (groupPoison (writeGroup s first count sew es).hart (512 * s.lanes s.hart) first count).testBit k =
      (decide (getBits (packElems (sewBits sew) es).2.2 (8 * k) 8 ≠ 0) ||
        ((groupPoison s.hart (512 * s.lanes s.hart) first count).testBit k &&
          decide (getBits (packElems (sewBits sew) es).2.1 (8 * k) 8 ≠ 255))) := by
  have hw := sewBits_pos sew
  have hb : 512 * s.lanes s.hart ≤ 8192 := by have := s.lanes_le s.hart; omega
  have h8 : 512 * s.lanes s.hart / 8 = 64 * s.lanes s.hart := by omega
  unfold writeGroup
  dsimp only
  generalize hL : s.lanes s.hart = L at *
  have hL0 : 0 < L := by rcases Nat.eq_zero_or_pos L with h | h; (· simp [h] at hk); exact h
  have hmv := fun k => testBit_packElems_mask hw es k
  have hpv := fun k => testBit_packElems_bad hw es k
  generalize packElems (sewBits sew) es = pk at *
  obtain ⟨v, m, p⟩ := pk
  dsimp only at *
  obtain ⟨-, h2, -⟩ := writeBits_spec first count sew v m p s ht (min count (regsBelow (512 * L) (sewBits sew) es.length)) (by omega)
  have hrb : 0 < 512 * L / 8 := by omega
  rw [testBit_groupPoison _ hrb, testBit_groupPoison _ hrb, h2, h8]
  have hrb0 : 0 < 64 * L := by omega
  have hmod : k % (64 * L) < 64 * L := Nat.mod_lt _ hrb0
  have hdiv : k / (64 * L) < count := (Nat.div_lt_iff_lt_mul hrb0).mpr (by rw [Nat.mul_comm]; exact hk)
  have hsum : k / (64 * L) * (64 * L) + k % (64 * L) = k := by rw [Nat.mul_comm]; exact Nat.div_add_mod k (64 * L)
  have hmul : k / (64 * L) * (512 * L) = 8 * (k / (64 * L) * (64 * L)) := by
    rw [show (512 * L) = 8 * (64 * L) by omega, ← Nat.mul_assoc, Nat.mul_comm _ 8, Nat.mul_assoc]
  simp only [hk, decide_true, Bool.true_and]
  split
  · rw [hL, Nat.add_sub_cancel_left]
    simp only [partPoison, writtenReg, BitVec.toNat_ofNat]
    have h64 : 64 * L ≤ 1024 := by omega
    have hk2 : k % (64 * L) < 1024 := by omega
    rw [h8, Nat.testBit_mod_two_pow, Nat.testBit_mod_two_pow, testBit_mergePoison hmod,
      getBits_getBits _ _ _ _ _ (by omega), getBits_getBits _ _ _ _ _ (by omega), hmul, ← Nat.mul_add, hsum]
    simp only [hk2, hmod, decide_true, Bool.true_and]
  · rename_i hout
    have hnone : ∀ b, 8 * k ≤ b → writtenAt (sewBits sew) es b = none := by
      intro b hb8
      unfold writtenAt
      rw [List.getElem?_eq_none]
      · rfl
      · rcases Nat.lt_or_ge (b / sewBits sew) es.length with hlt | hge
        · exfalso
          apply hout
          refine ⟨Nat.le_add_right _ _, Nat.add_lt_add_left (Nat.lt_min.mpr ⟨hdiv, ?_⟩) _⟩
          have h3 : b < sewBits sew * es.length := by
            rw [Nat.mul_comm]; exact (Nat.div_lt_iff_lt_mul hw).mp hlt
          unfold regsBelow ceilDiv
          rw [Nat.div_lt_iff_lt_mul hrb0]
          have h4 := Nat.div_add_mod (sewBits sew * es.length + 512 * L - 1) (512 * L)
          have h5 := Nat.mod_lt (sewBits sew * es.length + 512 * L - 1) (show 0 < 512 * L by omega)
          have h6 : 512 * L * ((sewBits sew * es.length + 512 * L - 1) / (512 * L)) =
              8 * ((sewBits sew * es.length + 512 * L - 1) / (512 * L) * (64 * L)) := by
            rw [show (512 * L) = 8 * (64 * L) by omega, Nat.mul_assoc, Nat.mul_comm (64 * L)]
          omega
        · exact hge
    have hz : ∀ x : Nat, (∀ b, 8 * k ≤ b → x.testBit b = false) → getBits x (8 * k) 8 = 0 := by
      intro x hx
      apply Nat.eq_of_testBit_eq
      intro b
      rw [testBit_getBits, hx _ (by omega)]
      simp
    rw [hz p (fun b hb => by rw [hpv, hnone b hb]), hz m (fun b hb => by rw [hmv, hnone b hb]; rfl)]
    simp

/-- Whether a field has a bit set. -/
theorem getBits_ne_zero (x lo w : Nat) : (getBits x lo w ≠ 0) ↔ ∃ k, k < w ∧ x.testBit (lo + k) = true := by
  rw [ne_zero_iff_testBit]
  constructor
  · rintro ⟨k, hk⟩
    rw [testBit_getBits, Bool.and_eq_true, decide_eq_true_eq] at hk
    exact ⟨k, hk⟩
  · rintro ⟨k, h1, h2⟩
    exact ⟨k, by rw [testBit_getBits, h2]; simp [h1]⟩

/-- Whether an element of an image is poisoned. -/
theorem imageSrc_poisoned (image poison w i : Nat) :
    (imageSrc image poison w i).2 = decide (getBits poison (w * i / 8) ((w * i + w - 1) / 8 + 1 - w * i / 8) ≠ 0) := by
  unfold imageSrc
  dsimp only
  by_cases hp : poison = 0
  · simp [hp, getBits]
  · rw [show (poison != 0) = true by simpa using hp]
    by_cases hq : getBits poison (w * i / 8) ((w * i + w - 1) / 8 + 1 - w * i / 8) = 0 <;> simp [hq]

/-- Whether an element of a group of a tidy hart is poisoned after a write of the group, at a width of whole bytes (R205). -/
theorem elemPoisoned_writeGroup (s : State) (first count sew : Nat) (es : List (Option (Nat × Bool))) (ht : s.hart.tidy = true)
    (hc : first + count ≤ 32) (i : Nat) (hi : sewBits sew * (i + 1) ≤ 512 * s.lanes s.hart * count)
    (h8 : sewBits sew % 8 = 0) :
    (writeGroup s first count sew es).elemPoisoned first count sew i =
      match es[i]?.join with
      | some a => a.2
      | none => s.elemPoisoned first count sew i := by
  have hw := sewBits_pos sew
  obtain ⟨h1, -, -⟩ := writeGroup_frame s first count sew es ht hc
  have hl : (writeGroup s first count sew es).lanes (writeGroup s first count sew es).hart = s.lanes s.hart :=
    State.lanes_congr (by rw [h1]) (by rw [h1])
  unfold State.elemPoisoned groupSrc
  rw [hl, imageSrc_poisoned, imageSrc_poisoned]
  have hmv := fun k => testBit_packElems_mask hw es k
  have hpv := fun k => testBit_packElems_bad hw es k
  have hcore := testBit_poison_writeGroup s first count sew es ht hc
  generalize sewBits sew = w at *
  obtain ⟨q, rfl⟩ : ∃ q, w = 8 * q := ⟨w / 8, by omega⟩
  have hq0 : 0 < q := by omega
  have hlo : 8 * q * i / 8 = q * i := by rw [Nat.mul_assoc, Nat.mul_div_cancel_left _ (by omega)]
  have hn : (8 * q * i + 8 * q - 1) / 8 + 1 - 8 * q * i / 8 = q := by
    rw [hlo, show 8 * q * i + 8 * q - 1 = 8 * (q * i + q - 1) + 7 by rw [Nat.mul_assoc]; omega]
    omega
  rw [hn, hlo]
  have hplace : ∀ c b, c < q → b < 8 → (8 * (q * i + c) + b) / (8 * q) = i := by
    intro c b hcq hb
    rw [show 8 * (q * i + c) + b = 8 * q * i + (8 * c + b) by rw [Nat.mul_add, Nat.mul_assoc, Nat.add_assoc],
      Nat.mul_add_div (by omega), Nat.div_eq_of_lt (by omega), Nat.add_zero]
  have hbyte : ∀ c, c < q → (groupPoison (writeGroup s first count sew es).hart (512 * s.lanes s.hart) first count).testBit (q * i + c) =
      match es[i]?.join with
      | some a => a.2
      | none => (groupPoison s.hart (512 * s.lanes s.hart) first count).testBit (q * i + c) := by
    intro c hcq
    have hk : q * i + c < 64 * s.lanes s.hart * count := by
      have e1 : 512 * s.lanes s.hart * count = 8 * (64 * s.lanes s.hart * count) := by
        rw [show 512 * s.lanes s.hart = 8 * (64 * s.lanes s.hart) by omega, Nat.mul_assoc]
      have e2 : 8 * q * (i + 1) = 8 * (q * i + q) := by rw [Nat.mul_succ, Nat.mul_add, Nat.mul_assoc]
      omega
    rw [hcore _ hk]
    have hwr : ∀ b, b < 8 → writtenAt (8 * q) es (8 * (q * i + c) + b) = es[i]?.join := by
      intro b hb
      unfold writtenAt
      rw [hplace c b hcq hb]
    cases hx : es[i]?.join with
    | none =>
      have hz : ∀ x : Nat, (∀ b, b < 8 → x.testBit (8 * (q * i + c) + b) = false) → getBits x (8 * (q * i + c)) 8 = 0 := by
        intro x hx
        apply Nat.eq_of_testBit_eq
        intro b
        rw [testBit_getBits]
        by_cases hb : b < 8
        · simp [hx b hb]
        · simp [hb]
      rw [hz _ (fun b hb => by rw [hpv, hwr b hb, hx]), hz _ (fun b hb => by rw [hmv, hwr b hb, hx]; rfl)]
      simp
    | some a =>
      have hm : getBits (packElems (8 * q) es).2.1 (8 * (q * i + c)) 8 = 255 := by
        apply Nat.eq_of_testBit_eq
        intro b
        rw [testBit_getBits, show (255 : Nat) = 2 ^ 8 - 1 from rfl, Nat.testBit_two_pow_sub_one]
        by_cases hb : b < 8
        · simp [hb, hmv, hwr b hb, hx]
        · simp [hb]
      rw [hm]
      have hp2 : (getBits (packElems (8 * q) es).2.2 (8 * (q * i + c)) 8 ≠ 0) ↔ a.2 = true := by
        rw [getBits_ne_zero]
        constructor
        · rintro ⟨b, hb, h⟩
          rw [hpv, hwr b hb, hx] at h
          exact h
        · intro h
          exact ⟨0, by omega, by rw [hpv, hwr 0 (by omega), hx]; exact h⟩
      simp [hp2]
  apply Bool.eq_iff_iff.mpr
  rw [decide_eq_true_eq, getBits_ne_zero]
  cases hx : es[i]?.join with
  | none =>
    dsimp only
    rw [decide_eq_true_eq, getBits_ne_zero]
    constructor
    · rintro ⟨c, hcq, h⟩; rw [hbyte c hcq, hx] at h; exact ⟨c, hcq, h⟩
    · rintro ⟨c, hcq, h⟩; exact ⟨c, hcq, by rw [hbyte c hcq, hx]; exact h⟩
  | some a =>
    dsimp only
    constructor
    · rintro ⟨c, hcq, h⟩; rw [hbyte c hcq, hx] at h; exact h
    · intro h; exact ⟨0, hq0, by rw [hbyte 0 hq0, hx]; exact h⟩

end Sys2Proof.Machine
end

