-- ==== Sys2Proof/Laws/Lanes.lean ====
section
/-! SUPPORT. Dispatch of a vector instruction that runs at once, and the lane operations that write a register group or a mask. -/

namespace Sys2Proof.Machine

/-! Dispatch (R36, R123). -/

/-- What `ready` says. -/
theorem State.ready_iff (s : State) (p : Nat) : s.ready p = true ↔
    s.atRest = true ∧ (s.profiles s.hart).testBit p = true ∧ s.cfg.vill = false ∧ s.hart.tidy = true ∧ s.room = true := by
  simp [State.ready, Bool.and_eq_true, and_assoc]

/-- The current hart with nothing in its vector stream, nothing waited for, and no pin or lock: `atRest` but for the order of
admission among the harts of its core. -/
def State.still (s : State) : Bool := s.hart.atRest && !(s.pinsSome s.hart.hid) && s.locks.all (fun l => l.hid != s.hart.hid)

/-- What `still` says. -/
theorem State.still_iff (s : State) : s.still = true ↔
    s.hart.viq = [] ∧ s.hart.window = none ∧ s.hart.next = [] ∧ s.hart.wait = none ∧ s.hart.headAged = none ∧
    s.hart.drainViq = false ∧ s.hart.holdViq = false ∧ (∀ p ∈ s.pins, s.hart.hid ∉ p.users) ∧ (∀ l ∈ s.locks, l.hid ≠ s.hart.hid) := by
  simp [State.still, Hart.atRest, State.pinsSome, and_assoc, List.isEmpty_iff, Option.isNone_iff_eq_none]

/-- What `atRest` says. -/
theorem State.atRest_iff (s : State) : s.atRest = true ↔ s.still = true ∧ s.admits = true := by
  simp [State.atRest, State.still, Bool.and_eq_true]

/-- A hart at rest has no vector work. -/
theorem State.still_idle {s : State} (h : s.still = true) : s.hart.hasVectorWork = false := by
  obtain ⟨h1, h2, h3, -⟩ := (State.still_iff s).mp h
  simp [Hart.hasVectorWork, h1, h2, h3]

/-- A state that differs from a still one only outside what `still` looks at is still. -/
theorem State.still_congr {s t : State} (h : s.still = true) (h1 : t.hart.viq = s.hart.viq) (h2 : t.hart.window = s.hart.window)
    (h3 : t.hart.wait = s.hart.wait) (h4 : t.hart.headAged = s.hart.headAged) (h5 : t.hart.drainViq = s.hart.drainViq)
    (h6 : t.hart.holdViq = s.hart.holdViq) (h7 : t.hart.hid = s.hart.hid) (h8 : t.pins = s.pins) (h9 : t.locks = s.locks)
    (h10 : t.hart.next = s.hart.next) : t.still = true := by
  unfold State.still Hart.atRest State.pinsSome at *
  rw [h1, h2, h3, h4, h5, h6, h7, h8, h9, h10]
  exact h

/-- Dropping the pins of a hart that has none changes none. -/
theorem dropPins_none (hid : Nat) (ps : List Pin) (h : ∀ p ∈ ps, hid ∉ p.users) : dropPins [hid] ps = ps := by
  induction ps with
  | nil => rfl
  | cons p ps ih =>
    have h1 : p.users.any [hid].contains = false := by
      rw [List.any_eq_false]
      rintro x hx hc
      rw [List.contains_iff_mem, List.mem_singleton] at hc
      exact h p (by simp) (hc ▸ hx)
    have h2 := ih (fun q hq => h q (by simp [hq]))
    unfold dropPins at h2 ⊢
    rw [List.filterMap_cons, h1]
    simp only [Bool.false_eq_true, ↓reduceIte, h2]

/-- Completing an instruction of a still hart only counts it. -/
theorem State.complete_still {t : State} (h : t.still = true) : t.complete [] = t.retire := by
  obtain ⟨h1, h2, -, h3, h4, h5, h6, h7, h8⟩ := (State.still_iff t).mp h
  have hh : { t.hart with viq := [], window := none, wait := none, drainViq := false, headAged := none } = t.hart := by
    rw [← h1, ← h2, ← h3, ← h4, ← h5]
  have hp := dropPins_none t.hart.hid t.pins h7
  have hl : t.locks.filter (fun l => l.hid != t.hart.hid) = t.locks := by
    rw [List.filter_eq_self]; intro l hl; simpa using h8 l hl
  have hany : t.locks.any (fun l => l.hid == t.hart.hid) = false := by
    rw [List.any_eq_false]; intro l hl; simpa using h8 l hl
  unfold State.complete
  simp only [State.onHart, hh]
  unfold State.release
  simp only [hp, hl, hany, Bool.false_eq_true, ↓reduceIte]

/-- The entry an instruction at the PC of the current hart becomes (R36, R252). -/
def State.entryFor (s : State) (w : InstrWord) (o : Captured) : VEntry := ⟨s.hart.pc, w, o.op0, o.op1, o.op2, s.hart.mode⟩

/-- What a hart leaves that completes an instruction at once: what it wrote is noted, it is counted, and is the last its core admitted
(R32, R430, R442). -/
def State.finish (s : State) (w : InstrWord) (t : State) : State := ((t.noteRun w).retire).setAdmitted (coreOfHart s.hart.hid) s.hart.hid

/-- The state a hart with nothing in its vector stream runs an instruction in: past it, nothing noted of it yet. -/
def State.start (s : State) : State := (s.setPc (s.hart.pc + 4#64)).clearUses

/-- What an instruction wrote noted changes the cores alone. -/
theorem State.noteRun_frame (t : State) (w : InstrWord) : t.noteRun w = { t with cores := (t.noteRun w).cores } :=
  State.noteWritten_frame t w _

/-- An ALV word dispatched by a hart at rest, whose effect completes. -/
theorem issue_ok {p : Nat} {w : InstrWord} {o : Captured} {eff : VEntry → State → VRes} {s t : State} (hr : s.atRest = true)
    (hp : (s.profiles s.hart).testBit p = true)
    (heff : eff (s.entryFor w o) s.start = .ok t) (ht : t.still = true) :
    issue p w o eff s = .next (s.finish w t) := by
  obtain ⟨hs, ha⟩ := (State.atRest_iff s).mp hr
  have hidle := State.still_idle hs
  obtain ⟨h1, h2, -, h3, h4, h5, h6, h7, h8⟩ := (State.still_iff s).mp hs
  unfold issue
  rw [hp]
  simp only [Bool.not_true, Bool.false_eq_true, ↓reduceIte, hidle, h6, ha, and_self]
  have hpins : (s.setPc (s.hart.pc + 4#64)).pinsSome (s.setPc (s.hart.pc + 4#64)).hart.hid = false := by
    show s.pinsSome s.hart.hid = false
    simpa [State.pinsSome] using h7
  have hhead : s.start.headState = s.start := by
    unfold State.headState
    rw [if_neg (by rw [show s.start.pinsSome s.start.hart.hid = false from hpins]; simp)]
    simp only [State.alone, State.onHart, State.start, State.clearUses, State.setCore, State.setPc]
    rw [← h1]
  unfold runEntry
  rw [show (s.setPc (s.hart.pc + 4#64)).clearUses = s.start from rfl, hhead,
    show (⟨s.hart.pc, w, o.op0, o.op1, o.op2, s.hart.mode⟩ : VEntry) = s.entryFor w o from rfl, heff]
  dsimp only
  have hn : (t.noteRun w).still = true := by
    apply State.still_congr ht <;> rw [State.noteRun_frame]
  have hv : (t.noteRun w).hart.viq = t.hart.viq := by rw [State.noteRun_frame]
  obtain ⟨k1, -⟩ := (State.still_iff t).mp ht
  unfold State.headLeaves
  rw [if_neg (by rw [hpins]; simp), k1, List.append_nil]
  show Host.Outcome.next (State.admitted ((t.noteRun w).complete []) (s.setPc (s.hart.pc + 4#64)).hart s.hart.mode) = _
  rw [State.complete_still hn]
  have hag : (s.setPc (s.hart.pc + 4#64)).hart.headAged = none := h4
  unfold State.admitted State.finish
  rw [hag]
  rfl

/-! Operations that write a group. -/

/-- What a lane operation leaves (R202). -/
structure Written (s t : State) (d g sew : Nat) (m : MaskNo) (val : Nat → Nat × Bool) : Prop
    extends GroupWritten s t d g sew m val where
  frame : t = { s with hart := { s.hart with v := t.hart.v, vflags := t.hart.vflags }, cores := t.cores }
  tidy : t.hart.tidy = true
  counted : Counted s t

/-- Two folds over a range that agree below it. -/
theorem foldr_range_congr {α : Type} (n : Nat) (f g : Nat → α → α) (h : ∀ j, j < n → ∀ acc, f j acc = g j acc) (a : α) :
    (List.range n).foldr f a = (List.range n).foldr g a := by
  have : ∀ (l : List Nat), (∀ j ∈ l, j < n) → l.foldr f a = l.foldr g a := by
    intro l hl
    induction l with
    | nil => rfl
    | cons x l ih => rw [List.foldr_cons, List.foldr_cons, ih (fun j hj => hl j (by simp [hj])), h x (hl x (by simp))]
  exact this _ (fun j hj => by simpa using hj)

/-- Registers that no write touched give the same elements. -/
theorem groupSrc_of_getV {s t : State} {n g : Nat} (hl : t.lanes t.hart = s.lanes s.hart)
    (h : ∀ j, j < g → t.hart.getV (n + j) = s.hart.getV (n + j)) (sew : Nat) : groupSrc t n g sew = groupSrc s n g sew := by
  have h1 : groupImage t.hart (512 * s.lanes s.hart) n g sew (grpOfCount g) = groupImage s.hart (512 * s.lanes s.hart) n g sew (grpOfCount g) := by
    unfold groupImage
    refine foldr_range_congr g _ _ (fun j hj acc => ?_) 0
    rw [h j hj]
  have h2 : groupPoison t.hart (512 * s.lanes s.hart) n g = groupPoison s.hart (512 * s.lanes s.hart) n g := by
    unfold groupPoison
    refine foldr_range_congr g _ _ (fun j hj acc => ?_) 0
    rw [h j hj]
  unfold groupSrc
  dsimp only
  rw [hl, h1, h2]

/-- The configuration after an admission. -/
theorem Admitted.cfg {s t : State} (h : Admitted s t) : t.cfg = s.cfg := by
  have hl := h.lanes
  unfold State.cfg
  rw [hl]
  rw [h.frame]

/-- The active elements of a list of results. -/
theorem getElem?_outs (n : Nat) (p : Nat → Bool) (f : Nat → Nat × Nat × Bool) (i : Nat) :
    (((List.range n).map (fun i => if p i then some (f i) else none)).map
      (fun o => o.map (fun x => (x.1, x.2.2))))[i]?.join =
      if i < n ∧ p i = true then some ((f i).1, (f i).2.2) else none := by
  by_cases hi : i < n
  · by_cases hp : p i = true
    · simp [hi, hp]
    · simp [hi, hp]
  · simp [hi]

/-- A lane operation that writes a group, on a tidy hart with room. -/
theorem mapLanes_ok {e : VEntry} {s : State} {reads : List GroupRead} {d dg dsew : Nat} {m : MaskNo}
    {f : State → Nat → Nat × Nat × Bool} {F : Nat → Nat × Nat × Bool} (ht : s.hart.tidy = true) (hroom : s.room = true)
    (hn : (risingOf (reads.flatMap (GroupRead.expands s.hart))).length + dg ≤ 40) (hd : d + dg ≤ 32)
    (hf : ∀ s1, Admitted s s1 → ∀ i, f s1 i = F i) :
    ∃ t, mapLanes e s reads d dg dsew m f = .ok t ∧ Written s t d dg dsew m (fun i => ((F i).1 % 2 ^ sewBits dsew, (F i).2.2)) ∧
      t.hart.vflags = s.hart.vflags ||| BitVec.ofNat 9 (orAll ((s.actives m).map (fun i => (F i).2.1))) := by
  have hdest : (destRegs s.cfg d dg (sewBits dsew) s.cfg.vl).length ≤ dg := by
    simp only [destRegs, List.length_map, List.length_range]; exact Nat.min_le_left _ _
  obtain ⟨s1, h1, had⟩ := admission_ok e s reads (destRegs s.cfg d dg (sewBits dsew) s.cfg.vl)
    (microOpsOf (destRegs s.cfg d dg (sewBits dsew) s.cfg.vl).length) ht hroom (by omega)
  have hvl : s.cfg.vl = s.hart.vl.toNat := rfl
  unfold mapLanes
  dsimp only
  rw [h1]
  have hmask : ∀ i, s1.hart.maskBit m i = s.hart.maskBit m i := by
    intro i; rw [had.frame]; rfl
  have houts : (List.range s.cfg.vl).map (fun i => if s1.hart.maskBit m i then some (f s1 i) else none) =
      (List.range s.hart.vl.toNat).map (fun i => if s.hart.maskBit m i then some (F i) else none) := by
    rw [hvl]
    apply List.map_congr_left
    intro i _
    rw [hmask, hf s1 had]
  have hfl : ∀ (l : List Nat), laneFlags (l.map (fun i => if s.hart.maskBit m i then some (F i) else none)) =
      orAll ((l.filter (fun i => s.hart.maskBit m i)).map (fun i => (F i).2.1)) := by
    intro l
    induction l with
    | nil => rfl
    | cons i l ih =>
      by_cases hb : s.hart.maskBit m i = true
      · simp [hb, laneFlags, orAll, ih]
      · simp [hb, laneFlags, ih]
  dsimp only [bind, Except.bind]
  rw [houts, hfl]
  have hact : (List.range s.hart.vl.toNat).filter (fun i => s.hart.maskBit m i) = s.actives m := rfl
  rw [hact]
  generalize orAll ((s.actives m).map (fun i => (F i).2.1)) = fl
  refine ⟨_, rfl, ?_⟩
  generalize hs2 : s1.onHart (fun h => h.orFlags fl) = s2
  have e2 : s2 = { s1 with hart := { s1.hart with vflags := s.hart.vflags ||| BitVec.ofNat 9 fl } } := by
    rw [← hs2]
    have : s1.hart.vflags = s.hart.vflags := by rw [had.frame]
    rw [← this]; rfl
  have hgv : ∀ n, s2.hart.getV n = s1.hart.getV n := by intro n; rw [e2]; rfl
  have t2 : s2.hart.tidy = true := Hart.tidy_of (fun n => by rw [hgv]; exact Hart.tidy_getV had.tidy n)
  have hl2 : s2.lanes s2.hart = s.lanes s.hart := by
    rw [← had.lanes]; exact State.lanes_congr (by rw [e2]) (by rw [e2])
  have hsrc2 : ∀ n g' sew', groupSrc s2 n g' sew' = groupSrc s n g' sew' := by
    intro n g' sew'
    rw [← had.src]
    exact groupSrc_of_getV (by rw [hl2, had.lanes]) (fun j _ => hgv _) sew'
  generalize hes : ((List.range s.hart.vl.toNat).map (fun i => if s.hart.maskBit m i = true then some (F i) else none)).map
    (fun o => o.map (fun x => (x.1, x.2.2))) = es
  have hget : ∀ i, es[i]?.join = if i < s.hart.vl.toNat ∧ s.hart.maskBit m i = true then some ((F i).1, (F i).2.2) else none := by
    intro i; rw [← hes]; exact getElem?_outs _ _ _ _
  obtain ⟨w1, w2, w3⟩ := writeGroup_frame s2 d dg dsew es t2 hd
  have hvfl : (writeGroup s2 d dg dsew es).hart.vflags = s.hart.vflags ||| BitVec.ofNat 9 fl := by
    rw [w1, e2]
  have hlt : (writeGroup s2 d dg dsew es).lanes (writeGroup s2 d dg dsew es).hart = s.lanes s.hart := by
    rw [← hl2]; exact State.lanes_congr (by rw [w1]) (by rw [w1])
  refine ⟨⟨⟨?_, ?_, ?_, ?_, ?_⟩, ?_, w2, had.counted.trans (by rw [had.frame]) (.of_eq (by rw [w1, e2]))⟩, hvfl⟩
  · intro i hi hin hm
    unfold State.holds at hin
    rw [elem_writeGroup s2 d dg dsew es t2 hd i (by rw [hl2]; exact hin), hget, if_pos ⟨hi, hm⟩]
  · intro i hin hor
    unfold State.holds at hin
    rw [elem_writeGroup s2 d dg dsew es t2 hd i (by rw [hl2]; exact hin), hget, if_neg (by
      rintro ⟨a, b⟩; rcases hor with h | h
      · omega
      · rw [h] at b; exact absurd b (by simp))]
    unfold State.elem
    rw [hsrc2]
  · intro h8 i hi hin hm
    unfold State.holds at hin
    rw [elemPoisoned_writeGroup s2 d dg dsew es t2 hd i (by rw [hl2]; exact hin) h8, hget, if_pos ⟨hi, hm⟩]
  · intro h8 i hin hor
    unfold State.holds at hin
    rw [elemPoisoned_writeGroup s2 d dg dsew es t2 hd i (by rw [hl2]; exact hin) h8, hget, if_neg (by
      rintro ⟨a, b⟩; rcases hor with h | h
      · omega
      · rw [h] at b; exact absurd b (by simp))]
    unfold State.elemPoisoned
    rw [hsrc2]
  · intro n g' sew' hdis
    rw [← hsrc2]
    exact groupSrc_of_getV (by rw [hlt, hl2]) (fun j hj => w3 _ (by omega)) sew'
  · generalize writeGroup s2 d dg dsew es = z at *
    rw [hvfl, w1, e2, had.frame]

/-! From an effect to the instruction. -/

/-- A PC does not change the room for registers. -/
theorem State.setPc_room (s : State) (pc : Word) : (s.setPc pc).room = s.room := by
  have h : ((s.setPc pc).harts.filter (fun h => coreOfHart h.hid == coreOfHart s.hart.hid && h.run != .free)).map Hart.reserved =
      (s.harts.filter (fun h => coreOfHart h.hid == coreOfHart s.hart.hid && h.run != .free)).map Hart.reserved := by
    unfold State.harts State.setPc
    rw [List.filter_cons, List.filter_cons]
    dsimp only
    by_cases hp : s.hart.run = .free
    · simp [hp]
    · simp [hp]; rfl
  unfold State.room State.unreserved
  show decide (_ ≤ Config.poolSlots - (List.map Hart.reserved (List.filter (fun h => coreOfHart h.hid == coreOfHart s.hart.hid && h.run != .free) (s.setPc pc).harts)).foldl _ 0) = _
  rw [h]
  rfl

/-- What runs an instruction has the room its hart has. -/
theorem State.start_room (s : State) : s.start.room = s.room := s.setPc_room _

/-- What runs an instruction has changed its hart's core alone, beside the PC. -/
theorem State.start_counted (s : State) : Counted s s.start := (s.setPc (s.hart.pc + 4#64)).clearUses_counted

/-- A group written as seen from the instruction's own PC. -/
theorem GroupWritten.of_start {s t : State} {d g sew : Nat} {m : MaskNo} {val : Nat → Nat × Bool}
    (h : GroupWritten s.start t d g sew m val) : GroupWritten s t d g sew m val :=
  ⟨h.active, h.kept, h.bad, h.keptBad, h.others⟩

/-- A group written as seen after a change that keeps vector registers and lanes. -/
theorem GroupWritten.of_same {s t u : State} {d g sew : Nat} {m : MaskNo} {val : Nat → Nat × Bool}
    (h : GroupWritten s t d g sew m val) (hv : u.hart.v = t.hart.v) (hl : u.lanes u.hart = t.lanes t.hart) :
    GroupWritten s u d g sew m val := by
  have hg : ∀ n g sew, groupSrc u n g sew = groupSrc t n g sew := fun n g sew =>
    groupSrc_of_getV hl (fun j _ => by unfold Hart.getV; rw [hv]) sew
  obtain ⟨h1, h2, h3, h4, h5⟩ := h
  refine ⟨?_, ?_, ?_, ?_, ?_⟩
  · intro i a b c; unfold State.elem; rw [hg]; exact h1 i a b c
  · intro i a b; unfold State.elem; rw [hg]; exact h2 i a b
  · intro k i a b c; unfold State.elemPoisoned; rw [hg]; exact h3 k i a b c
  · intro k i a b; unfold State.elemPoisoned; rw [hg]; exact h4 k i a b
  · intro n g' sew' a; rw [hg]; exact h5 n g' sew' a

/-- The values a group is written with may be restated. -/
theorem GroupWritten.congr {s t : State} {d g sew : Nat} {m : MaskNo} {val val' : Nat → Nat × Bool}
    (h : GroupWritten s t d g sew m val) (hv : ∀ i, val i = val' i) : GroupWritten s t d g sew m val' := by
  have : val = val' := funext hv
  rw [← this]; exact h

/-- Counting an instruction only touches `instret` (R430). -/
theorem State.retire_frame (t : State) :
    t.retire = { t with hart := { t.hart with instret := if t.hart.irInhibit then t.hart.instret else t.hart.instret + 1#64 } } := by
  unfold State.retire
  by_cases h : t.hart.irInhibit = true
  · rw [if_pos h, if_pos h]
  · rw [if_neg h, if_neg h]

/-- Completing at once touches `instret` and the core (R32, R430). -/
theorem State.finish_frame (s : State) (w : InstrWord) (t : State) :
    s.finish w t = { t with
      hart := { t.hart with instret := if t.hart.irInhibit then t.hart.instret else t.hart.instret + 1#64 },
      cores := (s.finish w t).cores } := by
  unfold State.finish
  rw [State.retire_frame, State.noteRun_frame]
  rfl

/-- The cores of a hart that completes at once (R32, R433, R441). -/
theorem Counted.finish {s t : State} (h : Counted s t) (hh : t.hart.hid = s.hart.hid) (w : InstrWord) :
    (s.finish w t).cores = s.coresAs (s.finish w t) := by
  obtain ⟨p, a, b, d, g, h⟩ := h.trans hh (State.noteWritten_counted t w (t.core (coreOfHart t.hart.hid)).uses)
  have hf : (s.finish w t).cores = (t.noteRun w).cores.setIfInBounds (coreOfHart s.hart.hid)
      { (t.noteRun w).core (coreOfHart s.hart.hid) with lastAdmitted := s.hart.hid % 8 } := by
    unfold State.finish
    rw [State.retire_frame]
    rfl
  unfold State.coresAs
  dsimp only
  rw [show s.hart.hid / 8 = coreOfHart s.hart.hid from rfl]
  replace h : (t.noteRun w).cores = s.cores.setIfInBounds (coreOfHart s.hart.hid)
    ((s.core (coreOfHart s.hart.hid)).moved p a b d g) := h
  by_cases hn : coreOfHart s.hart.hid < 128
  · have hc : (t.noteRun w).core (coreOfHart s.hart.hid) = (s.core (coreOfHart s.hart.hid)).moved p a b d g := by
      show ((t.noteRun w).cores[_]?).getD _ = _
      rw [h, get_set _ _ _ _ hn]
    have hu : (s.finish w t).core (coreOfHart s.hart.hid) =
        { (s.core (coreOfHart s.hart.hid)).moved p a b d g with lastAdmitted := s.hart.hid % 8 } := by
      show ((s.finish w t).cores[_]?).getD _ = _
      rw [hf, get_set _ _ _ _ hn, hc]
    rw [hu, hf, hc, h, set_set]
    simp only [CoreState.moved, ← BitVec.and_assoc, BitVec.and_self]
  · rw [hf, h, set_out _ _ _ hn, set_out _ _ _ hn, set_out _ _ _ hn]

/-- A lane instruction dispatched by a ready hart: what its effect writes, the delivery it consumes, the PC and `instret`. -/
theorem lane_issue {p : Nat} {w : InstrWord} {o : Captured} {eff : VEntry → State → VRes} {s t : State} {a : AOp} {d g sew : Nat}
    {m : MaskNo} {val : Nat → Nat × Bool} (hr : s.ready p = true)
    (heff : eff (s.entryFor w o) s.start = .ok (a.consume t))
    (hw : Written s.start t d g sew m val) :
    ∃ u, issue p w o eff s = .next u ∧
      u = { s with hart := { s.hart.past with v := u.hart.v, vflags := t.hart.vflags, loadq := (a.consume s).hart.loadq },
                   cores := s.coresAs u } ∧
      GroupWritten s u d g sew m val := by
  obtain ⟨h1, h2, -, -, -⟩ := (s.ready_iff p).mp hr
  have fr := hw.frame
  have hc : a.consume t = { s with hart := { s.hart with pc := s.hart.pc + 4#64, v := t.hart.v, vflags := t.hart.vflags, loadq := (a.consume s).hart.loadq }, cores := t.cores } := by
    generalize t.hart.v = v at *
    generalize t.hart.vflags = f at *
    generalize t.cores = cc at *
    subst fr
    cases a <;> rfl
  have hrest : (a.consume t).still = true := by
    apply State.still_congr ((State.atRest_iff s).mp h1).1 <;> (rw [hc])
  have hk : Counted s (a.consume t) := (s.start_counted.trans rfl hw.counted).trans (by rw [fr]; rfl) (.of_eq (by rw [hc]))
  have hi := issue_ok h1 h2 heff hrest
  refine ⟨_, hi, ?_, ?_⟩
  · rw [← hk.finish (by rw [hc]), State.finish_frame, hc]
    rfl
  · refine (hw.toGroupWritten.of_start).of_same ?_ ?_
    · rw [State.finish_frame, hc]
    · have l1 : t.lanes t.hart = s.lanes s.hart := State.lanes_congr (by rw [fr]; rfl) (by rw [fr]; rfl)
      rw [l1]
      exact State.lanes_congr (by rw [State.finish_frame, hc]) (by rw [State.finish_frame, hc])

/-! Masks (R199, R200). -/

/-- The bits that a list of written mask bits sets and covers. -/
theorem foldl_maskBits (bits : List (Nat × Bool)) (a : Nat × Nat) (j : Nat) :
    let r := bits.foldl (fun acc b => (acc.1 ||| (if b.2 then 2 ^ b.1 else 0), acc.2 ||| 2 ^ b.1)) a
    r.1.testBit j = (a.1.testBit j || bits.any (fun b => b.1 == j && b.2)) ∧
    r.2.testBit j = (a.2.testBit j || bits.any (fun b => b.1 == j)) := by
  induction bits generalizing a with
  | nil => simp
  | cons b bits ih =>
    obtain ⟨h1, h2⟩ := ih (a.1 ||| (if b.2 then 2 ^ b.1 else 0), a.2 ||| 2 ^ b.1)
    dsimp only at h1 h2 ⊢
    rw [List.foldl_cons]
    refine ⟨?_, ?_⟩
    · rw [h1, Nat.testBit_or, List.any_cons, Bool.or_assoc]
      congr 2
      cases b.2 with
      | true => rw [if_pos rfl, Nat.testBit_two_pow]; by_cases h : b.1 = j <;> simp [h]
      | false => simp
    · rw [h2, Nat.testBit_or, List.any_cons, Bool.or_assoc]
      congr 2
      rw [Nat.testBit_two_pow]; by_cases h : b.1 = j <;> simp [h]

/-- A mask register written: m0 discards, the listed bits change, every other bit and mask stays. -/
theorem writeMask_spec (h : Hart) (k : MaskNo) (bits : List (Nat × Bool)) :
    h.writeMask k bits = { h with m := (h.writeMask k bits).m } ∧
    (k = 0#3 → (h.writeMask k bits).m = h.m) ∧
    (∀ k', k' ≠ k → ∀ j, (h.writeMask k bits).maskBit k' j = h.maskBit k' j) ∧
    (k ≠ 0#3 → ∀ j, j < 16384 → (h.writeMask k bits).maskBit k j =
      if bits.any (fun b => b.1 == j) then bits.any (fun b => b.1 == j && b.2) else h.maskBit k j) := by
  have hf := foldl_maskBits bits (0, 0)
  unfold Hart.writeMask
  generalize bits.foldl (fun acc b => (acc.1 ||| (if b.2 then 2 ^ b.1 else 0), acc.2 ||| 2 ^ b.1)) (0, 0) = r at hf
  obtain ⟨v, m⟩ := r
  dsimp only at hf ⊢
  unfold Hart.setM
  by_cases hk : k = 0#3
  · rw [if_pos hk]
    exact ⟨rfl, fun _ => rfl, fun _ _ _ => rfl, fun h => absurd hk h⟩
  · rw [if_neg hk, if_neg hk]
    refine ⟨rfl, fun h => absurd h hk, ?_, ?_⟩
    · intro k' hk' j
      unfold Hart.maskBit
      have : k.toNat ≠ k'.toNat := fun h => hk' (BitVec.eq_of_toNat_eq h.symm)
      dsimp only
      rw [Vector.getElem_set_ne _ _ this]
    · intro _ j hj
      unfold Hart.maskBit
      have hk2 : (k == 0#3) = false := by simpa using hk
      obtain ⟨h1, h2⟩ := hf j
      dsimp only
      rw [hk2, Bool.false_or, Bool.false_or, Vector.getElem_set_self, BitVec.getLsbD_ofNat, Nat.testBit_or, Nat.testBit_and,
        Nat.testBit_xor, Nat.testBit_two_pow_sub_one, h1, h2, decide_eq_true hj]
      cases hany : bits.any (fun b => b.1 == j) with
      | true => simp
      | false =>
        have : bits.any (fun b => b.1 == j && b.2) = false := by
          rw [List.any_eq_false] at hany ⊢
          intro b hb
          have := hany b hb
          simp only [Bool.and_eq_true, not_and]
          intro h; exact absurd h this
        rw [this]
        simp [BitVec.getLsbD]

/-- What an instruction that writes a mask leaves (R200): the bits of the active elements, every element as it was. -/
structure MaskWritten (s t : State) (m md : MaskNo) (val : Nat → Bool) : Prop extends MaskSet s t m md val where
  frame : t = { s with hart := { s.hart with v := t.hart.v, m := t.hart.m, vflags := t.hart.vflags }, cores := t.cores }
  counted : Counted s t

/-- The bits a list of active elements writes. -/
theorem any_actives (s : State) (m : MaskNo) (val : Nat → Bool) (j : Nat) :
    ((s.actives m).map (fun i => (i, val i))).any (fun b => b.1 == j) = (decide (j < s.hart.vl.toNat) && s.hart.maskBit m j) ∧
    ((s.actives m).map (fun i => (i, val i))).any (fun b => b.1 == j && b.2) =
      (decide (j < s.hart.vl.toNat) && s.hart.maskBit m j && val j) := by
  have hmem : ∀ i, i ∈ s.actives m ↔ i < s.hart.vl.toNat ∧ s.hart.maskBit m i = true := by
    intro i; simp [State.actives]
  constructor
  · rw [Bool.eq_iff_iff, List.any_eq_true, Bool.and_eq_true, decide_eq_true_eq, ← hmem]
    constructor
    · rintro ⟨b, hb, h⟩
      obtain ⟨i, hi, rfl⟩ := List.mem_map.mp hb
      have : i = j := by simpa using h
      rw [← this]; exact hi
    · intro h; exact ⟨(j, val j), List.mem_map.mpr ⟨j, h, rfl⟩, by simp⟩
  · rw [Bool.eq_iff_iff, List.any_eq_true, Bool.and_eq_true, Bool.and_eq_true, decide_eq_true_eq, ← hmem]
    constructor
    · rintro ⟨b, hb, h⟩
      obtain ⟨i, hi, rfl⟩ := List.mem_map.mp hb
      obtain ⟨h1, h2⟩ : i = j ∧ val i = true := by simpa using h
      rw [← h1]; exact ⟨hi, h2⟩
    · rintro ⟨h, h2⟩; exact ⟨(j, val j), List.mem_map.mpr ⟨j, h, rfl⟩, by simp [h2]⟩

/-- A comparison on a tidy hart with room whose active elements are clean. -/
theorem maskLanes_ok {e : VEntry} {s : State} {reads : List GroupRead} {m md : MaskNo} {f : State → Nat → Bool × Nat × Bool}
    {F : Nat → Bool × Nat × Bool} (ht : s.hart.tidy = true) (hroom : s.room = true)
    (hn : (risingOf (reads.flatMap (GroupRead.expands s.hart))).length ≤ 40)
    (hf : ∀ s1, Admitted s s1 → ∀ i, f s1 i = F i) (hclean : ∀ i ∈ s.actives m, (F i).2.2 = false) :
    ∃ t, maskLanes e s reads m md f = .ok t ∧ MaskWritten s t m md (fun i => (F i).1) ∧
      t.hart.vflags = s.hart.vflags ||| BitVec.ofNat 9 (orAll ((s.actives m).map (fun i => (F i).2.1))) := by
  obtain ⟨s1, h1, had⟩ := admission_ok e s reads [] (microOpsOf ((reads.map (fun r => r.used - r.lo)).foldl (· + ·) 0)) ht hroom
    (by simpa using hn)
  unfold maskLanes
  dsimp only
  rw [h1]
  have hact : s1.actives m = s.actives m := by
    unfold State.actives; rw [had.frame]; rfl
  have houts : (s1.actives m).map (fun i => (i, f s1 i)) = (s.actives m).map (fun i => (i, F i)) := by
    rw [hact]; apply List.map_congr_left; intro i _; rw [hf s1 had]
  dsimp only [bind, Except.bind]
  rw [houts]
  have hnb : ((s.actives m).map (fun i => (i, F i))).any (fun o => o.2.2.2) = false := by
    rw [List.any_eq_false]
    intro o ho
    obtain ⟨i, hi, rfl⟩ := List.mem_map.mp ho
    simp [hclean i hi]
  unfold need
  rw [hnb]
  simp only [Bool.not_false, ↓reduceIte]
  have hfl : ∀ (l : List Nat) (a : Nat), (l.map (fun i => (i, F i))).foldl (fun acc o => acc ||| o.2.2.1) a =
      a ||| orAll (l.map (fun i => (F i).2.1)) := by
    intro l
    induction l with
    | nil => intro a; simp [orAll]
    | cons i l ih => intro a; rw [List.map_cons, List.foldl_cons, ih]; simp [orAll, Nat.or_assoc]
  rw [hfl, Nat.zero_or]
  generalize hfl2 : orAll ((s.actives m).map (fun i => (F i).2.1)) = fl
  have hmm : ((s.actives m).map (fun i => (i, F i))).map (fun o => (o.1, o.2.1)) = (s.actives m).map (fun i => (i, (F i).1)) := by
    simp
  rw [hmm]
  refine ⟨_, rfl, ?_⟩
  obtain ⟨w1, w2, w3, w4⟩ := writeMask_spec (s1.hart.orFlags fl) md ((s.actives m).map (fun i => (i, (F i).1)))
  generalize hh : (s1.hart.orFlags fl).writeMask md ((s.actives m).map (fun i => (i, (F i).1))) = h2 at *
  have hb : ∀ k j, (s1.hart.orFlags fl).maskBit k j = s.hart.maskBit k j := by
    intro k j; unfold Hart.orFlags; rw [had.frame]; rfl
  have hm1 : (s1.hart.orFlags fl).m = s.hart.m := by unfold Hart.orFlags; rw [had.frame]
  have hv : h2.v = s1.hart.v := by rw [w1]; rfl
  have hfl3 : h2.vflags = s.hart.vflags ||| BitVec.ofNat 9 fl := by
    rw [w1]; unfold Hart.orFlags; rw [had.frame]
  refine ⟨⟨⟨?_, ?_, ?_, ?_, ?_⟩, ?_, had.counted.trans (by rw [had.frame]) (.of_eq rfl)⟩, by simp only [State.onHart]; rw [hh]; exact hfl3⟩
  · intro h0
    simp only [State.onHart]; rw [hh, w2 h0, hm1]
  · intro k hk j
    simp only [State.onHart]; rw [hh, w3 k hk, hb]
  · intro h0 i hi hj hm
    simp only [State.onHart]; rw [hh, w4 h0 i hj]
    obtain ⟨a1, a2⟩ := any_actives s m (fun i => (F i).1) i
    rw [a1, a2]
    simp [hi, hm]
  · intro h0 i hj hor
    simp only [State.onHart]; rw [hh, w4 h0 i hj]
    obtain ⟨a1, a2⟩ := any_actives s m (fun i => (F i).1) i
    rw [a1, hb]
    rcases hor with h | h
    · rw [show decide (i < s.hart.vl.toNat) = false by simpa using h]; simp
    · rw [h]; simp
  · intro n g sew
    rw [← had.src]
    apply groupSrc_of_getV
    · exact State.lanes_congr rfl (by simp only [State.onHart]; rw [hh, w1]; rfl)
    · intro j _
      simp only [State.onHart]
      rw [hh]
      unfold Hart.getV
      rw [hv]
  · simp only [State.onHart]
    rw [hh, hfl3, hv]
    have : h2 = { s.hart with v := s1.hart.v, m := h2.m, vflags := s.hart.vflags ||| BitVec.ofNat 9 fl } := by
      rw [w1]; unfold Hart.orFlags; rw [had.frame]
    generalize h2.m = mm at *
    rw [this, had.frame]

/-- A mask written as seen from the instruction's own PC. -/
theorem MaskSet.of_start {s t : State} {m md : MaskNo} {val : Nat → Bool} (h : MaskSet s.start t m md val) :
    MaskSet s t m md val := ⟨h.zero, h.others, h.active, h.kept, h.elems⟩

/-- A mask written as seen after a change that keeps masks, vector registers and lanes. -/
theorem MaskSet.of_same {s t u : State} {m md : MaskNo} {val : Nat → Bool} (h : MaskSet s t m md val) (hm : u.hart.m = t.hart.m)
    (hv : u.hart.v = t.hart.v) (hl : u.lanes u.hart = t.lanes t.hart) : MaskSet s u m md val := by
  have hb : ∀ k j, u.hart.maskBit k j = t.hart.maskBit k j := by intro k j; unfold Hart.maskBit; rw [hm]
  obtain ⟨h1, h2, h3, h4, h5⟩ := h
  refine ⟨?_, ?_, ?_, ?_, ?_⟩
  · intro a; rw [hm]; exact h1 a
  · intro k a j; rw [hb]; exact h2 k a j
  · intro a i b c d; rw [hb]; exact h3 a i b c d
  · intro a i b c; rw [hb]; exact h4 a i b c
  · intro n g sew
    rw [← h5]
    exact groupSrc_of_getV hl (fun j _ => by unfold Hart.getV; rw [hv]) sew

/-- The bits a mask is written with may be restated. -/
theorem MaskSet.congr {s t : State} {m md : MaskNo} {val val' : Nat → Bool} (h : MaskSet s t m md val) (hv : ∀ i, val i = val' i) :
    MaskSet s t m md val' := by
  have : val = val' := funext hv
  rw [← this]; exact h

/-- A comparison dispatched by a ready hart. -/
theorem mask_issue {p : Nat} {w : InstrWord} {o : Captured} {eff : VEntry → State → VRes} {s t : State} {a : AOp}
    {m md : MaskNo} {val : Nat → Bool} (hr : s.ready p = true)
    (heff : eff (s.entryFor w o) s.start = .ok (a.consume t))
    (hw : MaskWritten s.start t m md val) :
    ∃ u, issue p w o eff s = .next u ∧
      u = { s with hart := { s.hart.past with v := u.hart.v, m := u.hart.m, vflags := t.hart.vflags, loadq := (a.consume s).hart.loadq },
                   cores := s.coresAs u } ∧
      MaskSet s u m md val := by
  obtain ⟨h1, h2, -, -, -⟩ := (s.ready_iff p).mp hr
  have fr := hw.frame
  have hc : a.consume t = { s with hart := { s.hart with pc := s.hart.pc + 4#64, v := t.hart.v, m := t.hart.m, vflags := t.hart.vflags, loadq := (a.consume s).hart.loadq }, cores := t.cores } := by
    generalize t.hart.v = v at *
    generalize t.hart.m = mm at *
    generalize t.hart.vflags = f at *
    generalize t.cores = cc at *
    subst fr
    cases a <;> rfl
  have hrest : (a.consume t).still = true := by
    apply State.still_congr ((State.atRest_iff s).mp h1).1 <;> (rw [hc])
  have hk : Counted s (a.consume t) := (s.start_counted.trans rfl hw.counted).trans (by rw [fr]; rfl) (.of_eq (by rw [hc]))
  have hi := issue_ok h1 h2 heff hrest
  refine ⟨_, hi, ?_, ?_⟩
  · rw [← hk.finish (by rw [hc]), State.finish_frame, hc]
    rfl
  · refine (hw.toMaskSet.of_start).of_same ?_ ?_ ?_
    · rw [State.finish_frame, hc]
    · rw [State.finish_frame, hc]
    · have l1 : t.lanes t.hart = s.lanes s.hart := State.lanes_congr (by rw [fr]; rfl) (by rw [fr]; rfl)
      rw [l1]
      exact State.lanes_congr (by rw [State.finish_frame, hc]) (by rw [State.finish_frame, hc])

end Sys2Proof.Machine
end

