-- ==== Sys2Proof/Laws/IntOps.lean ====
section
/-! SUPPORT. The integer lane operations of VI: both paths write the same elements (R190, R202, R208). -/

namespace Sys2Proof.Machine

/-! How many registers an admission expands. -/

theorem insertOnce_length (x : Nat) (l : List Nat) : (insertOnce x l).length ≤ l.length + 1 := by
  induction l with
  | nil => simp [insertOnce]
  | cons y ys ih =>
    unfold insertOnce
    split
    · simp
    · split
      · simp
      · simp; omega

theorem risingOf_length (l : List Nat) : (risingOf l).length ≤ l.length := by
  unfold risingOf
  have : ∀ (l acc : List Nat), (l.foldl (fun acc x => insertOnce x acc) acc).length ≤ acc.length + l.length := by
    intro l
    induction l with
    | nil => intro acc; simp
    | cons x l ih =>
      intro acc
      rw [List.foldl_cons, List.length_cons]
      have h1 := ih (insertOnce x acc)
      have h2 := insertOnce_length x acc
      omega
  simpa using this l []

/-- A read expands no more registers than it reads. -/
theorem GroupRead.expands_length (h : Hart) (r : GroupRead) : (r.expands h).length ≤ r.used := by
  unfold GroupRead.expands
  refine Nat.le_trans (List.length_filter_le _ _) ?_
  simp

/-- Reads of at most `n` registers each expand at most `n` registers a read. -/
theorem expansions_length (h : Hart) (reads : List GroupRead) (n : Nat) (hr : ∀ r ∈ reads, r.used ≤ n) :
    (risingOf (reads.flatMap (GroupRead.expands h))).length ≤ n * reads.length := by
  refine Nat.le_trans (risingOf_length _) ?_
  induction reads with
  | nil => simp
  | cons r rs ih =>
    rw [List.flatMap_cons, List.length_append, List.length_cons, Nat.mul_succ]
    have h1 := r.expands_length h
    have h2 := hr r (by simp)
    have h3 := ih (fun r hr' => hr r (by simp [hr']))
    omega

/-- What `groupOk` says. -/
theorem groupOk_iff (n g : Nat) : groupOk n g = true ↔ 1 ≤ g ∧ g ≤ 8 ∧ n % g = 0 ∧ n + g ≤ 32 := by
  simp [groupOk, and_assoc]

/-- The configuration of a state by its parts. -/
theorem State.cfg_w (s : State) : s.cfg.w = sewBits s.cfg.sew := rfl

theorem readBelow_used (c : VCfg) (first count sew n : Nat) : (readBelow c first count sew n).used ≤ count := Nat.min_le_left _ _

/-- The reads of operand a take no more registers than the group. -/
theorem AOp.reads_used (a : AOp) (e : VEntry) (c : VCfg) : ∀ r ∈ a.reads e c, r.used ≤ c.g := by
  intro r hr
  unfold AOp.reads at hr
  cases h : a.reg e with
  | none => rw [h] at hr; simp at hr
  | some n =>
    rw [h] at hr
    simp only [List.mem_singleton] at hr
    subst hr
    exact readBelow_used _ _ _ _ _

theorem AOp.reads_length (a : AOp) (e : VEntry) (c : VCfg) : (a.reads e c).length ≤ 1 := by
  unfold AOp.reads
  cases a.reg e <;> simp

/-! Elements of affine registers. -/

/-- A bit of an affine image. -/
theorem testBit_affineImage {w : Nat} (hw : 0 < w) (base stride n k : Nat) :
    (affineImage w base stride n).testBit k = (decide (k < w * n) && ((base + k / w * stride) % 2 ^ w).testBit (k % w)) := by
  unfold affineImage
  exact testBit_layout_range (fun i => (base + i * stride) % 2 ^ w) w hw n k (fun j => Nat.mod_lt _ (Nat.two_pow_pos w))

/-- An element of a group whose register is U or A, recorded at the width read, where elements fill registers (R188). -/
theorem elem_affine (s : State) (n g sew i : Nat) (hwhole : 512 * s.lanes s.hart % sewBits sew = 0)
    (hi : sewBits sew * (i + 1) ≤ 512 * s.lanes s.hart * g)
    (r : VReg) (hr : s.hart.getV (n + i / (512 * s.lanes s.hart / sewBits sew)) = r) (hg : r.tag ≠ .g) (hs : r.sew.toNat = sew) :
    s.elem n g sew i = (r.base.toNat + i % (512 * s.lanes s.hart / sewBits sew) * r.step) % 2 ^ sewBits sew := by
  have hw := sewBits_pos sew
  unfold State.elem groupSrc imageSrc
  dsimp only
  generalize 512 * s.lanes s.hart = rb at *
  obtain ⟨per, hper⟩ := Nat.dvd_of_mod_eq_zero hwhole
  have hrb0 : 0 < rb := by
    rcases Nat.eq_zero_or_pos rb with h | h
    · rw [h, Nat.zero_mul] at hi
      have := Nat.mul_pos hw (show 0 < i + 1 by omega)
      omega
    · exact h
  have hdiv : rb / sewBits sew = per := by rw [hper, Nat.mul_div_cancel_left _ hw]
  have hper0 : 0 < per := by
    rcases Nat.eq_zero_or_pos per with h | h
    · rw [h] at hper; omega
    · exact h
  rw [hdiv] at hr ⊢
  apply Nat.eq_of_testBit_eq
  intro b
  rw [testBit_getBits]
  by_cases hb : b < sewBits sew
  · have hk : sewBits sew * i + b < rb * g := by rw [Nat.mul_succ] at hi; omega
    have hq : (sewBits sew * i + b) / rb = i / per := by
      rw [hper, ← Nat.div_div_eq_div_mul, Nat.mul_add_div hw, Nat.div_eq_of_lt hb, Nat.add_zero]
    have hm : (sewBits sew * i + b) % rb = sewBits sew * (i % per) + b := by
      have e1 := Nat.div_add_mod i per
      have e2 := Nat.mod_lt i hper0
      have e3 : sewBits sew * i + b = rb * (i / per) + (sewBits sew * (i % per) + b) := by
        rw [hper, Nat.mul_assoc, ← Nat.add_assoc, ← Nat.mul_add, e1]
      rw [e3, Nat.mul_add_mod]
      apply Nat.mod_eq_of_lt
      calc sewBits sew * (i % per) + b < sewBits sew * (i % per) + sewBits sew := by omega
        _ = sewBits sew * (i % per + 1) := by rw [Nat.mul_succ]
        _ ≤ sewBits sew * per := Nat.mul_le_mul_left _ e2
        _ = rb := hper.symm
    rw [testBit_groupImage _ hrb0, hq, hm, hr]
    rw [partImage_tag hg (by rw [hs]; exact hwhole)]
    unfold tagImage
    dsimp only
    rw [hs, hdiv, ← hper]
    simp only [Nat.sub_self, Nat.pow_zero, Nat.mod_one, Nat.mul_zero, Nat.add_zero]
    rw [testBit_affineImage hw]
    have h1 : sewBits sew * (i % per) + b < sewBits sew * per := by
      calc sewBits sew * (i % per) + b < sewBits sew * (i % per) + sewBits sew := by omega
        _ = sewBits sew * (i % per + 1) := by rw [Nat.mul_succ]
        _ ≤ sewBits sew * per := Nat.mul_le_mul_left _ (Nat.mod_lt i hper0)
    have h2 : (sewBits sew * (i % per) + b) / sewBits sew = i % per := by
      rw [Nat.mul_add_div hw, Nat.div_eq_of_lt hb, Nat.add_zero]
    have h3 : (sewBits sew * (i % per) + b) % sewBits sew = b := by rw [Nat.mul_add_mod, Nat.mod_eq_of_lt hb]
    rw [h2, h3]
    simp [hb, hk, h1]
  · simp [hb, Nat.testBit_mod_two_pow]

/-- No element of a group of U and A registers is poisoned (R205). -/
theorem not_poisoned_of_tags (s : State) (n g sew i : Nat) (h : ∀ j, j < g → (s.hart.getV (n + j)).tag ≠ .g) :
    s.elemPoisoned n g sew i = false := by
  have : groupPoison s.hart (512 * s.lanes s.hart) n g = 0 := by
    have hz : ∀ j, j < g → partPoison (s.hart.getV (n + j)) (512 * s.lanes s.hart) = 0 := by
      intro j hj
      unfold partPoison
      cases ht : (s.hart.getV (n + j)).tag with
      | g => exact absurd ht (h j hj)
      | u => rfl
      | a => rfl
    unfold groupPoison
    rw [foldr_range_congr g _ (fun j acc => 2 ^ (512 * s.lanes s.hart / 8) * acc) (fun j hj acc => by rw [hz j hj, Nat.zero_add])]
    generalize List.range g = l
    induction l with
    | nil => rfl
    | cons x l ih => rw [List.foldr_cons, ih, Nat.mul_zero]
  unfold State.elemPoisoned groupSrc
  rw [this, imageSrc_poisoned]
  simp [getBits]

/-- The element operation that R191 gives a shape rule for. -/
def ShapeOp.elem (o : ShapeOp) : IntElem :=
  match o with
  | .add => addElem | .sub => subElem | .rsub => rsubElem | .mul => mulElem | .sll => sllElem
  | .bitAnd => andElem | .bitOr => orElem | .bitXor => xorElem

/-- Numbers are equal modulo a power of two when their bit vectors are. -/
theorem mod_eq_of_ofNat {w x y : Nat} (h : BitVec.ofNat w x = BitVec.ofNat w y) : x % 2 ^ w = y % 2 ^ w := by
  have := congrArg BitVec.toNat h
  simpa using this

theorem ofNat_mod (w x : Nat) : BitVec.ofNat w (x % 2 ^ w) = BitVec.ofNat w x := by
  apply BitVec.eq_of_toNat_eq; simp

theorem ofNat_neg_mod (w y : Nat) : BitVec.ofNat w (2 ^ w - y % 2 ^ w) = - BitVec.ofNat w y := by
  apply BitVec.eq_of_toNat_eq
  rw [BitVec.toNat_neg]
  simp

/-- R191 gives the elements R208 gives. -/
theorem ShapeOp.result_elem {w : Nat} (hw : 2 ^ w % w = 0) (o : ShapeOp) (x y r : Nat × Nat) (h : o.result w x y = some r) (i v : Nat) :
    (r.1 + i * r.2) % 2 ^ w = o.elem w ((x.1 + i * x.2) % 2 ^ w) ((y.1 + i * y.2) % 2 ^ w) v % 2 ^ w := by
  have hz : ∀ a : Nat, a % 2 ^ w = 0 → BitVec.ofNat w a = 0#w := by
    intro a ha; apply BitVec.eq_of_toNat_eq; simpa using ha
  have hc : ∀ a b : Nat, b % 2 ^ w = 0 → (a + i * b) % 2 ^ w = a % 2 ^ w := by
    intro a b hb
    rw [Nat.add_mod, Nat.mul_mod, hb, Nat.mul_zero, Nat.zero_mod, Nat.add_zero, Nat.mod_mod]
  cases o <;> simp only [ShapeOp.result] at h
  case add =>
    cases h
    apply mod_eq_of_ofNat
    simp only [ShapeOp.elem, addElem, BitVec.ofNat_add, BitVec.ofNat_mul, ofNat_mod]
    grind
  case sub =>
    cases h
    apply mod_eq_of_ofNat
    simp only [ShapeOp.elem, subElem, BitVec.ofNat_add, BitVec.ofNat_mul, ofNat_mod, ofNat_neg_mod]
    grind
  case rsub =>
    cases h
    apply mod_eq_of_ofNat
    simp only [ShapeOp.elem, rsubElem, BitVec.ofNat_add, BitVec.ofNat_mul, ofNat_mod, ofNat_neg_mod]
    grind
  case mul =>
    split at h
    · rename_i hx
      cases h
      apply mod_eq_of_ofNat
      simp only [ShapeOp.elem, mulElem, BitVec.ofNat_add, BitVec.ofNat_mul, ofNat_mod, hz _ hx]
      grind
    · split at h
      · rename_i hy
        cases h
        apply mod_eq_of_ofNat
        simp only [ShapeOp.elem, mulElem, BitVec.ofNat_add, BitVec.ofNat_mul, ofNat_mod, hz _ hy]
        grind
      · cases h
  case sll =>
    split at h
    · rename_i hx
      cases h
      have : (x.1 + i * x.2) % 2 ^ w % w = x.1 % w := by
        rw [hc _ _ hx]
        have hd : w ∣ 2 ^ w := Nat.dvd_of_mod_eq_zero hw
        exact Nat.mod_mod_of_dvd _ hd
      apply mod_eq_of_ofNat
      simp only [ShapeOp.elem, sllElem, this, BitVec.ofNat_add, BitVec.ofNat_mul, ofNat_mod]
      grind
    · cases h
  case bitAnd =>
    split at h
    · rename_i hxy
      cases h
      simp only [ShapeOp.elem, andElem, hc _ _ hxy.1, hc _ _ hxy.2, Nat.mul_zero, Nat.add_zero, Nat.and_mod_two_pow, Nat.mod_mod]
    · cases h
  case bitOr =>
    split at h
    · rename_i hxy
      cases h
      simp only [ShapeOp.elem, orElem, hc _ _ hxy.1, hc _ _ hxy.2, Nat.mul_zero, Nat.add_zero, Nat.or_mod_two_pow, Nat.mod_mod]
    · cases h
  case bitXor =>
    split at h
    · rename_i hxy
      cases h
      simp only [ShapeOp.elem, xorElem, hc _ _ hxy.1, hc _ _ hxy.2, Nat.mul_zero, Nat.add_zero, Nat.xor_mod_two_pow, Nat.mod_mod]
    · cases h

/-! The scalar-affine path (R190, R191). -/

/-- A register numbered from 0 read after consecutive registers are tagged. -/
theorem getV_writeShapes (c : VCfg) (d : Nat) (l : List (Nat × Nat)) (h : Hart) (hd : d + l.length ≤ 32) (n : Nat) :
    (writeShapes c d l h).getV n =
      match l[n - d]? with
      | some x => if d ≤ n then VReg.affine c x.1 x.2 else h.getV n
      | none => h.getV n := by
  unfold writeShapes
  have key : ∀ (l : List (Nat × Nat)) (k : Nat) (h : Hart), d + k + l.length ≤ 32 →
      ((l.zipIdx k).foldl (fun acc x => acc.setV (d + x.2) (VReg.affine c x.1.1 x.1.2)) h).getV n =
        match l[n - (d + k)]? with
        | some x => if d + k ≤ n then VReg.affine c x.1 x.2 else h.getV n
        | none => h.getV n := by
    intro l
    induction l with
    | nil => intro k h _; rfl
    | cons a l ih =>
      intro k h hk
      rw [List.zipIdx_cons, List.foldl_cons, ih (k + 1) _ (by simp at hk; omega)]
      simp only [List.length_cons] at hk
      dsimp only
      rw [Hart.getV_setV]
      by_cases h1 : n < d + k
      · have e1 : n - (d + k) = 0 := by omega
        have e2 : n - (d + (k + 1)) = 0 := by omega
        rw [e1, e2, if_neg (by omega)]
        have n1 : ¬ d + k ≤ n := by omega
        have n2 : ¬ d + (k + 1) ≤ n := by omega
        cases l <;> simp [n1, n2]
      · by_cases h2 : n = d + k
        · subst h2
          have e2 : d + k - (d + (k + 1)) = 0 := by omega
          rw [e2, if_pos (by omega)]
          have n2 : ¬ d + (k + 1) ≤ d + k := by omega
          cases l <;> simp [n2]
        · have e1 : n - (d + k) = (n - (d + (k + 1))) + 1 := by omega
          rw [e1, List.getElem?_cons_succ, if_neg (by omega)]
          cases l[n - (d + (k + 1))]? with
          | none => rfl
          | some x => dsimp only; rw [if_pos (by omega), if_pos (by omega)]
  have := key l 0 h (by simpa using hd)
  simpa using this

/-- The shapes that R190 finds: one for each register of the group, from the shapes of the operands. -/
theorem shapeGroup_get (o : ShapeOp) (a : AOp) (e : VEntry) (s : State) (c : VCfg) (b : Nat) (g : Nat) :
    ∀ l, shapeGroup o a e s c b g = some l → l.length = g ∧ ∀ j, j < g → ∃ x y r,
      a.shape e s c j = some x ∧ (s.hart.getV (b + j)).shape c = some y ∧ o.result c.w x y = some r ∧ l[j]? = some r := by
  induction g with
  | zero => intro l h; cases h; exact ⟨rfl, fun j hj => absurd hj (by omega)⟩
  | succ g ih =>
    intro l h
    unfold shapeGroup at h
    cases h1 : shapeGroup o a e s c b g with
    | none => rw [h1] at h; simp at h
    | some l1 =>
      cases h2 : a.shape e s c g with
      | none => rw [h1, h2] at h; simp at h
      | some x =>
        cases h3 : (s.hart.getV (b + g)).shape c with
        | none => rw [h1, h2, h3] at h; simp at h
        | some y =>
          rw [h1, h2, h3] at h
          dsimp only at h
          cases h4 : o.result c.w x y with
          | none => rw [h4] at h; simp at h
          | some r =>
            rw [h4] at h
            cases h
            obtain ⟨i1, i2⟩ := ih l1 h1
            refine ⟨by simp [i1], fun j hj => ?_⟩
            by_cases hjg : j < g
            · obtain ⟨x', y', r', k1, k2, k3, k4⟩ := i2 j hjg
              exact ⟨x', y', r', k1, k2, k3, by rw [List.getElem?_append_left (by omega)]; exact k4⟩
            · have : j = g := by omega
              subst this
              exact ⟨x, y, r, h2, h3, h4, by rw [List.getElem?_append_right (by omega), i1]; simp⟩

/-! Operands. -/

theorem wordField_five (x : Word) : wordField x 0 5 = x.toNat % 32 := by simp [wordField, getBits]

/-- Operand a after an admission gives what it gave before. -/
theorem AOp.src_eq {s s1 : State} (h : Admitted s s1) (a : AOp) (e : VEntry) : a.src e s1 = s.operand a (e.op0.getD 0#64) := by
  unfold AOp.src State.operand
  dsimp only
  rw [h.cfg]
  cases a with
  | vec n => exact h.src _ _ _
  | scalar => rfl
  | imm i => dsimp only; rw [ofSigned_eq]; rfl
  | queue q =>
    have : s1.hart.loadq = s.hart.loadq := by rw [h.frame]
    dsimp only
    rw [this]
    cases s.hart.loadq[q.toNat] with
    | nil => funext i; simp [constSrc]
    | cons d ds => rfl
  | named => dsimp only; rw [wordField_five]; exact h.src _ _ _

/-- Operand a can be read. -/
theorem AOp.ok_eq (a : AOp) (e : VEntry) (s : State) : a.ok e s s.cfg.g = s.operandOk a (e.op0.getD 0#64) := by
  unfold AOp.ok State.operandOk AOp.reg
  cases a <;> first | rfl | (dsimp only; rw [wordField_five])

/-- Elements fit their width. -/
theorem State.elem_lt (s : State) (n g sew i : Nat) : (groupSrc s n g sew i).1 < 2 ^ sewBits sew := getBits_lt _ _ _

/-- A register that is U or A at the current sew and group (R190). -/
theorem VReg.shape_some {r : VReg} {c : VCfg} {x : Nat × Nat} (h : r.shape c = some x) :
    r.tag ≠ .g ∧ r.sew.toNat = c.sew ∧ x = (r.base.toNat, r.step) := by
  unfold VReg.shape at h
  split at h
  · rename_i hc
    cases h
    refine ⟨hc.1, ?_, rfl⟩
    have := hc.2
    simp [VReg.readsPlain] at this
    exact this.1
  · cases h

/-- The shape of a register gives its elements (R188). -/
theorem elem_shape {s : State} {n g i j : Nat} {x : Nat × Nat} (hwhole : 512 * s.lanes s.hart % s.cfg.w = 0)
    (hi : s.holds g s.cfg.sew i) (hj : j = i / (512 * s.lanes s.hart / s.cfg.w)) (h : (s.hart.getV (n + j)).shape s.cfg = some x) :
    (groupSrc s n g s.cfg.sew i).1 = (x.1 + i % (512 * s.lanes s.hart / s.cfg.w) * x.2) % 2 ^ s.cfg.w := by
  subst hj
  obtain ⟨h1, h2, rfl⟩ := VReg.shape_some h
  exact elem_affine s n g s.cfg.sew i hwhole hi _ rfl h1 h2

/-- Whether a shape rule stands for an element operation. -/
def shapeFits (op : IntElem) (o : Option ShapeOp) : Prop := ∀ p, o = some p → op = p.elem

/-- The registers an instruction on the scalar-affine path leaves. -/
theorem runShape_frame (e : VEntry) (s : State) (c : VCfg) (d : Nat) (l : List (Nat × Nat)) :
    runShape e s c d l = { s with hart := { s.hart with v := (runShape e s c d l).hart.v }, cores := (runShape e s c d l).cores } ∧
    (runShape e s c d l).hart.v = (writeShapes c d l s.hart).v := by
  have hw : ∀ (l : List (Nat × Nat)) (k : Nat) (h : Hart),
      ((l.zipIdx k).foldl (fun acc x => acc.setV (d + x.2) (VReg.affine c x.1.1 x.1.2)) h) =
        { h with v := ((l.zipIdx k).foldl (fun acc x => acc.setV (d + x.2) (VReg.affine c x.1.1 x.1.2)) h).v } := by
    intro l
    induction l with
    | nil => intro k h; rfl
    | cons a l ih =>
      intro k h
      rw [List.zipIdx_cons, List.foldl_cons, ih]
      rfl
  have hh : ∀ h : Hart, writeShapes c d l h = { h with v := (writeShapes c d l h).v } := fun h => hw l 0 h
  have hc : ((s.countAdmitted e 0).countHart 0x10 1 e.mode).hart = s.hart := by
    rw [State.countHart_frame, State.countAdmitted_frame]
  refine ⟨?_, ?_⟩
  · unfold runShape
    rw [State.countHart_frame, State.countAdmitted_frame]
    simp only [State.onHart]
    rw [hh s.hart]
  · unfold runShape
    simp only [State.onHart]
    rw [hc]

/-- What the scalar-affine path does to its core. -/
theorem runShape_counted (e : VEntry) (s : State) (c : VCfg) (d : Nat) (l : List (Nat × Nat)) : Counted s (runShape e s c d l) :=
  ((s.countAdmitted_counted e 0 _).trans (by rw [State.countAdmitted_frame]) (State.countHart_counted _ 0x10 1 e.mode)).trans
    (by rw [State.countHart_frame, State.countAdmitted_frame]) (.of_eq rfl)

/-- Six bits apart, a width divides its power of two. -/
theorem two_pow_mod_sewBits {n : Nat} (h : sewBits n ≠ 6) : 2 ^ sewBits n % sewBits n = 0 := by
  unfold sewBits at *
  split at h <;> first | rfl | (exact absurd rfl h)

/-- A width other than 6 divides the register size. -/
theorem sewBits_whole {n : Nat} (h : sewBits n ≠ 6) (lanes : Nat) : 512 * lanes % sewBits n = 0 :=
  sewBits_dvd (fun hn => h (by rw [hn]; rfl)) lanes

/-- The sew code of a configuration has three bits. -/
theorem State.sew_lt (s : State) : s.cfg.sew < 8 := getBits_lt _ _ _

theorem State.grp_lt (s : State) : s.cfg.grp < 4 := getBits_lt _ _ _

/-- The elements of a result on the scalar-affine path (R191): those of the lane path, none poisoned. -/
theorem shapes_written {op : IntElem} {o : ShapeOp} {m : MaskNo} {a : AOp} {b d : BitVec 5} {e : VEntry} {s : State}
    {l : List (Nat × Nat)} (hop : op = o.elem) (hw6 : s.cfg.w ≠ 6) (hd : groupOk d.toNat s.cfg.g = true)
    (hl : shapeOf (some o) m a e s b.toNat = some l) (ht : s.hart.tidy = true) :
    Written s (runShape e s s.cfg d.toNat l) d.toNat s.cfg.g s.cfg.sew m (fun i =>
      (op s.cfg.w (s.operand a (e.op0.getD 0#64) i).1 (groupSrc s b.toNat s.cfg.g s.cfg.sew i).1 0 % 2 ^ s.cfg.w,
       (s.operand a (e.op0.getD 0#64) i).2 || (groupSrc s b.toNat s.cfg.g s.cfg.sew i).2)) ∧
    (runShape e s s.cfg d.toNat l).hart.vflags = s.hart.vflags := by
  have hwp := sewBits_pos s.cfg.sew
  have hwhole : 512 * s.lanes s.hart % s.cfg.w = 0 := sewBits_whole hw6 _
  obtain ⟨g1, g2, g3, g4⟩ := (groupOk_iff _ _).mp hd
  unfold shapeOf at hl
  dsimp only at hl
  split at hl
  case isFalse => cases hl
  rename_i hcond
  obtain ⟨rfl, hvl⟩ := hcond
  obtain ⟨hlen, hget⟩ := shapeGroup_get o a e s s.cfg b.toNat s.cfg.g l hl
  obtain ⟨f1, f2⟩ := runShape_frame e s s.cfg d.toNat l
  have hgv : ∀ n, (runShape e s s.cfg d.toNat l).hart.getV n = (writeShapes s.cfg d.toNat l s.hart).getV n := by
    intro n; unfold Hart.getV; rw [f2]
  have hgw := getV_writeShapes s.cfg d.toNat l s.hart (by omega)
  have hlt : (runShape e s s.cfg d.toNat l).lanes (runShape e s s.cfg d.toNat l).hart = s.lanes s.hart :=
    State.lanes_congr (by rw [f1]) (by rw [f1])
  have hpos : ∀ i, s.holds s.cfg.g s.cfg.sew i → i / (512 * s.lanes s.hart / s.cfg.w) < s.cfg.g := by
    intro i hi
    unfold State.holds at hi
    rw [State.cfg_w] at *
    obtain ⟨per, hper⟩ := Nat.dvd_of_mod_eq_zero hwhole
    rw [hper, Nat.mul_div_cancel_left _ hwp]
    rw [hper, Nat.mul_assoc] at hi
    have h1 : i + 1 ≤ per * s.cfg.g := Nat.le_of_mul_le_mul_left hi hwp
    have hper0 : 0 < per := by rcases Nat.eq_zero_or_pos per with h | h; (· rw [h, Nat.zero_mul] at h1; omega); exact h
    rw [Nat.div_lt_iff_lt_mul hper0, Nat.mul_comm]
    omega
  have helem : ∀ i, s.holds s.cfg.g s.cfg.sew i →
      (runShape e s s.cfg d.toNat l).elem d.toNat s.cfg.g s.cfg.sew i =
        op s.cfg.w (s.operand a (e.op0.getD 0#64) i).1 (groupSrc s b.toNat s.cfg.g s.cfg.sew i).1 0 % 2 ^ s.cfg.w := by
    intro i hi
    obtain ⟨x, y, r, hx, hy, hr, hlj⟩ := hget _ (hpos i hi)
    have hreg : (runShape e s s.cfg d.toNat l).hart.getV (d.toNat + i / (512 * s.lanes s.hart / s.cfg.w)) = VReg.affine s.cfg r.1 r.2 := by
      rw [hgv, hgw, Nat.add_sub_cancel_left, hlj]
      dsimp only
      rw [if_pos (Nat.le_add_right _ _)]
    have hsew : (VReg.affine s.cfg r.1 r.2).sew.toNat = s.cfg.sew := by
      simp [VReg.affine, Nat.mod_eq_of_lt s.sew_lt]
    have htag : (VReg.affine s.cfg r.1 r.2).tag ≠ .g := by
      unfold VReg.affine; dsimp only; split <;> simp
    have h1 := elem_affine (runShape e s s.cfg d.toNat l) d.toNat s.cfg.g s.cfg.sew i (by rw [hlt]; exact hwhole)
      (by rw [hlt]; exact hi) _ (by rw [hlt]) (by rw [← State.cfg_w, hreg]; exact htag)
      (by rw [← State.cfg_w, hreg]; exact hsew)
    rw [h1, hlt, ← State.cfg_w, hreg]
    have hb64 : 2 ^ s.cfg.w ∣ 2 ^ 64 := Nat.pow_dvd_pow 2 (sewBits_le _)
    have hbase : (VReg.affine s.cfg r.1 r.2).base.toNat = r.1 % 2 ^ s.cfg.w := by
      simp only [VReg.affine, BitVec.toNat_ofNat]
      exact Nat.mod_eq_of_lt (Nat.lt_of_lt_of_le (Nat.mod_lt _ (Nat.two_pow_pos _)) (Nat.pow_le_pow_right (by omega) (sewBits_le _)))
    have hstep : (VReg.affine s.cfg r.1 r.2).step = r.2 % 2 ^ s.cfg.w := by
      unfold VReg.step VReg.affine
      dsimp only
      have hm : r.2 % 2 ^ s.cfg.w % 2 ^ 64 = r.2 % 2 ^ s.cfg.w :=
        Nat.mod_eq_of_lt (Nat.lt_of_lt_of_le (Nat.mod_lt _ (Nat.two_pow_pos _)) (Nat.pow_le_pow_right (by omega) (sewBits_le _)))
      have key : ∀ n : Nat, n % 2 ^ 64 = n →
          (if (if n = 0 then ShapeTag.u else ShapeTag.a) = ShapeTag.u then 0 else (BitVec.ofNat 64 n).toNat) = n := by
        intro n hn
        cases n with
        | zero => rfl
        | succ k => simp only [Nat.succ_ne_zero, ↓reduceIte, reduceCtorEq, BitVec.toNat_ofNat, hn]
      exact key _ hm
    rw [hbase, hstep]
    have hfin := o.result_elem (w := s.cfg.w) (two_pow_mod_sewBits hw6) x y r hr (i % (512 * s.lanes s.hart / s.cfg.w)) 0
    have hy' := elem_shape hwhole hi rfl hy
    have hx' : (s.operand a (e.op0.getD 0#64) i).1 = (x.1 + i % (512 * s.lanes s.hart / s.cfg.w) * x.2) % 2 ^ s.cfg.w := by
      unfold AOp.shape at hx
      cases a with
      | vec n => exact elem_shape hwhole hi rfl hx
      | scalar => cases hx; simp [State.operand]
      | imm k => cases hx; simp [State.operand, ofSigned_eq]
      | queue q => cases hx
      | named =>
        dsimp only at hx
        rw [wordField_five] at hx
        exact elem_shape hwhole hi rfl hx
    rw [hop, hx', hy', ← hfin]
    rw [Nat.add_mod, Nat.mod_mod, Nat.mul_mod, Nat.mod_mod, ← Nat.mul_mod, ← Nat.add_mod]
  have hnb : ∀ i, s.holds s.cfg.g s.cfg.sew i →
      ((s.operand a (e.op0.getD 0#64) i).2 || (groupSrc s b.toNat s.cfg.g s.cfg.sew i).2) = false := by
    intro i hi
    have hbf : (groupSrc s b.toNat s.cfg.g s.cfg.sew i).2 = false := not_poisoned_of_tags s _ _ _ _ (fun j hj => by
      obtain ⟨x, y, r, hx, hy, -, -⟩ := hget j hj
      exact (VReg.shape_some hy).1)
    rw [hbf, Bool.or_false]
    cases a with
    | vec n => exact not_poisoned_of_tags s _ _ _ _ (fun j hj => by
        obtain ⟨x, y, r, hx, hy, -, -⟩ := hget j hj
        exact (VReg.shape_some hx).1)
    | scalar => rfl
    | imm k => rfl
    | queue q =>
      obtain ⟨x, y, r, hx, -, -, -⟩ := hget 0 (by omega)
      cases hx
    | named =>
      unfold State.operand
      dsimp only
      rw [← wordField_five]
      exact not_poisoned_of_tags s _ _ _ _ (fun j hj => by
        obtain ⟨x, y, r, hx, hy, -, -⟩ := hget j hj
        exact (VReg.shape_some hx).1)
  have hnt : ∀ i, (runShape e s s.cfg d.toNat l).elemPoisoned d.toNat s.cfg.g s.cfg.sew i = false := by
    intro i
    apply not_poisoned_of_tags
    intro j hj
    obtain ⟨x, y, r, -, -, -, hlj⟩ := hget j hj
    rw [hgv, hgw, Nat.add_sub_cancel_left, hlj]
    dsimp only
    rw [if_pos (Nat.le_add_right _ _)]
    unfold VReg.affine; dsimp only; split <;> simp
  have hkeep : ∀ i, s.holds s.cfg.g s.cfg.sew i → ¬ (s.hart.vl.toNat ≤ i ∨ s.hart.maskBit 0#3 i = false) := by
    intro i hi hor
    rcases hor with h | h
    · have : s.hart.vl.toNat = 512 * s.lanes s.hart * s.cfg.g / s.cfg.w := hvl
      unfold State.holds at hi
      rw [this, State.cfg_w] at h
      have := (Nat.le_div_iff_mul_le hwp).mpr (show (i + 1) * sewBits s.cfg.sew ≤ 512 * s.lanes s.hart * s.cfg.g by
        rw [Nat.mul_comm]; exact hi)
      omega
    · simp [Hart.maskBit] at h
  refine ⟨⟨⟨?_, ?_, ?_, ?_, ?_⟩, ?_, ?_, runShape_counted e s s.cfg d.toNat l⟩, ?_⟩
  · intro i _ hi _; exact helem i hi
  · intro i hi hor; exact absurd hor (hkeep i hi)
  · intro _ i _ hi _; rw [hnt]; exact (hnb i hi).symm
  · intro _ i hi hor; exact absurd hor (hkeep i hi)
  · intro n g' sew' hdis
    apply groupSrc_of_getV hlt
    intro j hj
    rw [hgv, hgw]
    cases hx : l[n + j - d.toNat]? with
    | none => rfl
    | some x =>
      dsimp only
      rw [if_neg]
      intro hle
      have := (List.getElem?_eq_some_iff.mp hx).1
      omega
  · have : (runShape e s s.cfg d.toNat l).hart.vflags = s.hart.vflags := by rw [f1]
    rw [this]; exact f1
  · apply Hart.tidy_of
    intro n
    rw [hgv, hgw]
    cases hx : l[n - d.toNat]? with
    | none => exact Hart.tidy_getV ht n
    | some x =>
      dsimp only
      split
      · have hs1 : s.cfg.sew ≠ 1 := fun h => hw6 (by rw [State.cfg_w, h]; rfl)
        have h8 := s.sew_lt
        simp only [VReg.tidy, VReg.affine, Bool.or_eq_true, bne_iff_ne]
        right
        intro h
        apply hs1
        have := congrArg BitVec.toNat h
        simp only [BitVec.toNat_ofNat] at this
        omega
      · exact Hart.tidy_getV ht n
  · rw [f1]

/-- ORing the flags of results that set none. -/
theorem orAll_zero {α : Type} (l : List α) : orAll (l.map (fun _ => 0)) = 0 := by
  unfold orAll
  induction l with
  | nil => rfl
  | cons x l ih => simpa using ih

/-- The old elements of the destination, where it is a source. -/
def State.oldElem (s : State) (useD : Bool) (d g sew i : Nat) : Nat × Bool := if useD then groupSrc s d g sew i else (0, false)

/-- An integer lane operation on a tidy hart with room (R202, R208): the elements it writes. -/
theorem intOp_ok {op : IntElem} {shape : Option ShapeOp} {wide useD : Bool} {m : MaskNo} {a : AOp} {b d : BitVec 5} {e : VEntry}
    {s : State} (hf : shapeFits op shape) (hsw : shape ≠ none → wide = false ∧ useD = false) (hv : s.cfg.vill = false)
    (hw6 : s.cfg.w ≠ 6) (hw64 : wide = true → s.cfg.w ≠ 64) (hb : groupOk b.toNat s.cfg.g = true)
    (hd : groupOk d.toNat (if wide then 2 * s.cfg.g else s.cfg.g) = true) (ha : s.operandOk a (e.op0.getD 0#64) = true)
    (ht : s.hart.tidy = true) (hroom : s.room = true) :
    ∃ t, intOp op shape wide useD m a b d e s = .ok (a.consume t) ∧
      Written s t d.toNat (if wide then 2 * s.cfg.g else s.cfg.g) (if wide then sewOfBits (2 * s.cfg.w) else s.cfg.sew) m
        (fun i => (op s.cfg.w (s.operand a (e.op0.getD 0#64) i).1 (groupSrc s b.toNat s.cfg.g s.cfg.sew i).1
            (s.oldElem useD d.toNat s.cfg.g s.cfg.sew i).1 % 2 ^ sewBits (if wide then sewOfBits (2 * s.cfg.w) else s.cfg.sew),
          (s.operand a (e.op0.getD 0#64) i).2 || (groupSrc s b.toNat s.cfg.g s.cfg.sew i).2 ||
            (s.oldElem useD d.toNat s.cfg.g s.cfg.sew i).2)) ∧
      t.hart.vflags = s.hart.vflags := by
  obtain ⟨g1, g2, g3, g4⟩ := (groupOk_iff _ _).mp hd
  obtain ⟨k1, k2, k3, k4⟩ := (groupOk_iff _ _).mp hb
  have hok : (s.cfg.w != 6 && (!wide || s.cfg.w != 64) && groupOk b.toNat s.cfg.g &&
      groupOk d.toNat (if wide then 2 * s.cfg.g else s.cfg.g) && a.ok e s s.cfg.g) = true := by
    rw [hb, hd, AOp.ok_eq, ha]
    cases wide with
    | false => simp [hw6]
    | true => simp [hw6, hw64 rfl]
  unfold intOp
  dsimp only
  unfold needVtype need
  rw [hv, hok]
  simp only [Bool.not_false, ↓reduceIte, bind, Except.bind]
  cases hsh : shapeOf shape m a e s b.toNat with
  | some l =>
    cases shape with
    | none => simp [shapeOf] at hsh
    | some o =>
      obtain ⟨rfl, rfl⟩ := hsw (by simp)
      obtain ⟨h1, h2⟩ := shapes_written (hf o rfl) hw6 hd hsh ht
      refine ⟨_, ?_, ?_, h2⟩
      · cases a with
        | queue q =>
          exfalso
          unfold shapeOf at hsh
          dsimp only at hsh
          split at hsh
          · obtain ⟨-, hg⟩ := shapeGroup_get o _ e s s.cfg b.toNat s.cfg.g l hsh
            obtain ⟨x, y, r, hx, -⟩ := hg 0 k1
            cases hx
          · cases hsh
        | _ => rfl
      · simpa [State.oldElem, State.cfg_w] using h1
  | none =>
    dsimp only
    have hlen : (risingOf ((a.reads e s.cfg ++ [readBelow s.cfg b.toNat s.cfg.g s.cfg.sew s.cfg.vl] ++
        (if useD then [readBelow s.cfg d.toNat s.cfg.g s.cfg.sew s.cfg.vl] else [])).flatMap (GroupRead.expands s.hart))).length +
        (if wide then 2 * s.cfg.g else s.cfg.g) ≤ 40 := by
      have h1 := expansions_length s.hart (a.reads e s.cfg ++ [readBelow s.cfg b.toNat s.cfg.g s.cfg.sew s.cfg.vl] ++
        (if useD then [readBelow s.cfg d.toNat s.cfg.g s.cfg.sew s.cfg.vl] else [])) s.cfg.g (by
          intro r hr
          rw [List.mem_append, List.mem_append] at hr
          rcases hr with (hr | hr) | hr
          · exact a.reads_used e s.cfg r hr
          · rw [List.mem_singleton] at hr; subst hr; exact readBelow_used _ _ _ _ _
          · split at hr
            · rw [List.mem_singleton] at hr; subst hr; exact readBelow_used _ _ _ _ _
            · cases hr)
      have h2 : (a.reads e s.cfg ++ [readBelow s.cfg b.toNat s.cfg.g s.cfg.sew s.cfg.vl] ++
        (if useD then [readBelow s.cfg d.toNat s.cfg.g s.cfg.sew s.cfg.vl] else [])).length ≤ 3 := by
        have := a.reads_length e s.cfg
        rw [List.length_append, List.length_append]
        split <;> simp <;> omega
      have h3 := Nat.mul_le_mul_left s.cfg.g h2
      omega
    obtain ⟨t, t1, t2, t3⟩ := mapLanes_ok (e := e) (m := m)
      (f := fun s1 i => (op s.cfg.w (a.src e s1 i).1 (groupSrc s1 b.toNat s.cfg.g s.cfg.sew i).1
          ((if useD then groupSrc s1 d.toNat s.cfg.g s.cfg.sew else constSrc s.cfg.w 0) i).1, 0,
        (a.src e s1 i).2 || (groupSrc s1 b.toNat s.cfg.g s.cfg.sew i).2 ||
          ((if useD then groupSrc s1 d.toNat s.cfg.g s.cfg.sew else constSrc s.cfg.w 0) i).2))
      (F := fun i => (op s.cfg.w (s.operand a (e.op0.getD 0#64) i).1 (groupSrc s b.toNat s.cfg.g s.cfg.sew i).1
          (s.oldElem useD d.toNat s.cfg.g s.cfg.sew i).1, 0,
        (s.operand a (e.op0.getD 0#64) i).2 || (groupSrc s b.toNat s.cfg.g s.cfg.sew i).2 ||
          (s.oldElem useD d.toNat s.cfg.g s.cfg.sew i).2))
      ht hroom hlen (dsew := if wide then sewOfBits (2 * s.cfg.w) else s.cfg.sew) g4
      (by
        intro s1 had i
        rw [a.src_eq had, had.src]
        cases useD with
        | true => simp only [State.oldElem, ↓reduceIte]; rw [had.src]
        | false => simp [State.oldElem, constSrc])
    refine ⟨t, ?_, t2, ?_⟩
    · rw [t1]
    · rw [t3, orAll_zero]; simp

/-- An operand fits the width. -/
theorem State.operand_lt (s : State) (a : AOp) (x : Word) (i : Nat) : (s.operand a x i).1 < 2 ^ s.cfg.w := by
  unfold State.operand
  cases a with
  | vec n => exact State.elem_lt _ _ _ _ _
  | scalar => exact Nat.mod_lt _ (Nat.two_pow_pos _)
  | imm k => exact Nat.mod_lt _ (Nat.two_pow_pos _)
  | queue q =>
    dsimp only
    cases s.hart.loadq[q.toNat] with
    | nil => exact Nat.two_pow_pos _
    | cons p ps => exact getBits_lt _ _ _
  | named => exact State.elem_lt _ _ _ _ _

/-- The element of a row by an element operation that the row's function describes. -/
theorem State.rowElem_eq {s : State} {op : IntElem} {fn : ElemFn} {i : Instr} {a : AOp} {useD : Bool} {x : Word} {b d : BitVec 5}
    (hfn : ∀ (w : Nat) (x y z : BitVec w), 0 < w → BitVec.ofNat w (op w x.toNat y.toNat z.toNat) = fn w x y z)
    (hold : useD = false → ∀ w x y z, op w x y z = op w x y 0) (k : Nat) :
    (op s.cfg.w (s.operand a x k).1 (groupSrc s b.toNat s.cfg.g s.cfg.sew k).1
        (s.oldElem useD d.toNat s.cfg.g s.cfg.sew k).1 % 2 ^ sewBits s.cfg.sew,
      (s.operand a x k).2 || (groupSrc s b.toNat s.cfg.g s.cfg.sew k).2 || (s.oldElem useD d.toNat s.cfg.g s.cfg.sew k).2) =
    s.rowElem ⟨i, a, useD, fn⟩ x b d k := by
  unfold State.rowElem
  dsimp only
  rw [← hfn s.cfg.w _ _ _ (sewBits_pos _), BitVec.toNat_ofNat, BitVec.toNat_ofNat, BitVec.toNat_ofNat, BitVec.toNat_ofNat,
    Nat.mod_eq_of_lt (s.operand_lt a x k),
    Nat.mod_eq_of_lt (show (groupSrc s b.toNat s.cfg.g s.cfg.sew k).1 < 2 ^ s.cfg.w from State.elem_lt _ _ _ _ _),
    Nat.mod_eq_of_lt (show (groupSrc s d.toNat s.cfg.g s.cfg.sew k).1 < 2 ^ s.cfg.w from State.elem_lt _ _ _ _ _),
    ← State.cfg_w]
  cases useD with
  | true => rfl
  | false =>
    rw [hold rfl _ _ _ (groupSrc s d.toNat s.cfg.g s.cfg.sew k).1]
    rfl

/-- An integer instruction of a row dispatched by a ready hart. -/
theorem integer_issue {w : InstrWord} {o : Captured} {op : IntElem} {shape : Option ShapeOp} {useD : Bool} {m : MaskNo} {a : AOp}
    {b d : BitVec 5} {s : State} {x : Word} {fn : ElemFn} {ins : Instr}
    (hr : s.ready 0 = true) (h6 : s.cfg.w ≠ 6) (hb : groupOk b.toNat s.cfg.g = true) (hd : groupOk d.toNat s.cfg.g = true)
    (ha : s.operandOk a x = true) (hf : shapeFits op shape) (hsw : shape ≠ none → useD = false)
    (hx : s.operand a (o.op0.getD 0#64) = s.operand a x) (hok : s.operandOk a (o.op0.getD 0#64) = s.operandOk a x)
    (hfn : ∀ (w : Nat) (x y z : BitVec w), 0 < w → BitVec.ofNat w (op w x.toNat y.toNat z.toNat) = fn w x y z)
    (hold : useD = false → ∀ w x y z, op w x y z = op w x y 0) :
    ∃ t, issue 0 w o (intOp op shape false useD m a b d) s = .next t ∧
      t = { s with hart := { s.hart.past with v := t.hart.v, loadq := (a.consume s).hart.loadq }, cores := s.coresAs t } ∧
      GroupWritten s t d.toNat s.cfg.g s.cfg.sew m (s.rowElem ⟨ins, a, useD, fn⟩ x b d) := by
  obtain ⟨h1, h2, h3, h4, h5⟩ := (s.ready_iff 0).mp hr
  obtain ⟨t, t1, t2, t3⟩ := intOp_ok (op := op) (shape := shape) (wide := false) (useD := useD) (m := m) (a := a) (b := b) (d := d)
    (e := s.entryFor w o) (s := s.start) hf (fun h => ⟨rfl, hsw h⟩) h3 h6 (by simp) hb hd
    (hok.trans ha) h4 (by rw [State.start_room]; exact h5)
  simp only [Bool.false_eq_true, ↓reduceIte] at t2
  obtain ⟨u, u1, u2, u3⟩ := lane_issue hr t1 t2
  refine ⟨u, u1, ?_, u3.congr (fun i => ?_)⟩
  · rw [t3] at u2; exact u2
  · have := State.rowElem_eq (s := s) (i := ins) (a := a) (x := x) (b := b) (d := d) hfn hold i
    rw [← hx] at this
    exact this

/-! Comparisons and width changes (R209, R211 to R213). -/

/-- A comparison on a tidy hart with room, none of whose active elements is poisoned. -/
theorem cmpOp_ok {holds : Nat → Nat → Nat → Bool} {m md : MaskNo} {a : AOp} {b : BitVec 5} {e : VEntry} {s : State}
    (hv : s.cfg.vill = false) (hw6 : s.cfg.w ≠ 6) (hb : groupOk b.toNat s.cfg.g = true)
    (ha : s.operandOk a (e.op0.getD 0#64) = true) (ht : s.hart.tidy = true) (hroom : s.room = true)
    (hclean : ∀ i ∈ s.actives m, (s.operand a (e.op0.getD 0#64) i).2 = false ∧ (groupSrc s b.toNat s.cfg.g s.cfg.sew i).2 = false) :
    ∃ t, cmpOp holds m a b md e s = .ok (a.consume t) ∧
      MaskWritten s t m md (fun i => holds s.cfg.w (s.operand a (e.op0.getD 0#64) i).1 (groupSrc s b.toNat s.cfg.g s.cfg.sew i).1) ∧
      t.hart.vflags = s.hart.vflags := by
  obtain ⟨k1, k2, k3, k4⟩ := (groupOk_iff _ _).mp hb
  have hok : (s.cfg.w != 6 && groupOk b.toNat s.cfg.g && a.ok e s s.cfg.g) = true := by
    rw [hb, AOp.ok_eq, ha]; simp [hw6]
  unfold cmpOp
  dsimp only
  unfold needVtype need
  rw [hv, hok]
  simp only [Bool.not_false, ↓reduceIte, bind, Except.bind]
  have hlen : (risingOf ((a.reads e s.cfg ++ [readBelow s.cfg b.toNat s.cfg.g s.cfg.sew s.cfg.vl]).flatMap
      (GroupRead.expands s.hart))).length ≤ 40 := by
    have h1 := expansions_length s.hart (a.reads e s.cfg ++ [readBelow s.cfg b.toNat s.cfg.g s.cfg.sew s.cfg.vl]) s.cfg.g (by
        intro r hr
        rw [List.mem_append] at hr
        rcases hr with hr | hr
        · exact a.reads_used e s.cfg r hr
        · rw [List.mem_singleton] at hr; subst hr; exact readBelow_used _ _ _ _ _)
    have h2 : (a.reads e s.cfg ++ [readBelow s.cfg b.toNat s.cfg.g s.cfg.sew s.cfg.vl]).length ≤ 2 := by
      have := a.reads_length e s.cfg
      rw [List.length_append]; simp; omega
    have h3 := Nat.mul_le_mul_left s.cfg.g h2
    omega
  obtain ⟨t, t1, t2, t3⟩ := maskLanes_ok (e := e) (m := m) (md := md)
    (f := fun s1 i => (holds s.cfg.w (a.src e s1 i).1 (groupSrc s1 b.toNat s.cfg.g s.cfg.sew i).1, 0,
      (a.src e s1 i).2 || (groupSrc s1 b.toNat s.cfg.g s.cfg.sew i).2))
    (F := fun i => (holds s.cfg.w (s.operand a (e.op0.getD 0#64) i).1 (groupSrc s b.toNat s.cfg.g s.cfg.sew i).1, 0,
      (s.operand a (e.op0.getD 0#64) i).2 || (groupSrc s b.toNat s.cfg.g s.cfg.sew i).2))
    ht hroom hlen (by intro s1 had i; rw [a.src_eq had, had.src])
    (by intro i hi; obtain ⟨h1, h2⟩ := hclean i hi; simp [h1, h2])
  refine ⟨t, ?_, t2, ?_⟩
  · rw [t1]
  · rw [t3, orAll_zero]; simp

/-- An instruction with one vector source on a tidy hart with room. -/
theorem unaryOp_ok {ok : Bool} {op : Nat → Nat} {ssew sg : Nat} {m : MaskNo} {b d : BitVec 5} {e : VEntry} {s : State}
    (hv : s.cfg.vill = false) (hok : ok = true) (hb : groupOk b.toNat sg = true) (hd : groupOk d.toNat s.cfg.g = true)
    (ht : s.hart.tidy = true) (hroom : s.room = true) :
    ∃ t, unaryOp ok op ssew sg m b d e s = .ok t ∧
      Written s t d.toNat s.cfg.g s.cfg.sew m (fun i =>
        (op (groupSrc s b.toNat sg ssew i).1 % 2 ^ sewBits s.cfg.sew, (groupSrc s b.toNat sg ssew i).2)) ∧
      t.hart.vflags = s.hart.vflags := by
  obtain ⟨g1, g2, g3, g4⟩ := (groupOk_iff _ _).mp hd
  obtain ⟨k1, k2, k3, k4⟩ := (groupOk_iff _ _).mp hb
  have hok : (ok && groupOk b.toNat sg && groupOk d.toNat s.cfg.g) = true := by rw [hok, hb, hd]; rfl
  unfold unaryOp
  dsimp only
  unfold needVtype need
  rw [hv, hok]
  simp only [Bool.not_false, ↓reduceIte, bind, Except.bind]
  have hlen : (risingOf ([readBelow s.cfg b.toNat sg ssew s.cfg.vl].flatMap (GroupRead.expands s.hart))).length + s.cfg.g ≤ 40 := by
    have h1 := expansions_length s.hart [readBelow s.cfg b.toNat sg ssew s.cfg.vl] sg (by
      intro r hr; rw [List.mem_singleton] at hr; subst hr; exact readBelow_used _ _ _ _ _)
    simp only [List.length_singleton] at h1
    omega
  obtain ⟨t, t1, t2, t3⟩ := mapLanes_ok (e := e) (m := m) (dsew := s.cfg.sew)
    (f := fun s1 i => (op (groupSrc s1 b.toNat sg ssew i).1, 0, (groupSrc s1 b.toNat sg ssew i).2))
    (F := fun i => (op (groupSrc s b.toNat sg ssew i).1, 0, (groupSrc s b.toNat sg ssew i).2))
    ht hroom hlen g4 (by intro s1 had i; rw [had.src])
  refine ⟨t, t1, t2, ?_⟩
  rw [t3, orAll_zero]; simp

end Sys2Proof.Machine
end

