-- ==== Sys2Proof/Laws/FloatOps.lean ====
section
/-! SUPPORT. The floating-point lane operations of VF (R214 to R220). -/

namespace Sys2Proof.Machine

/-- Reads that leave room for the registers an instruction writes. -/
theorem reads_room {h : Hart} {reads : List GroupRead} {n k dg : Nat} (hr : ∀ r ∈ reads, r.used ≤ n) (hk : reads.length ≤ k)
    (hs : n * k + dg ≤ 40) : (risingOf (reads.flatMap (GroupRead.expands h))).length + dg ≤ 40 := by
  have h1 := expansions_length h reads n hr
  have h2 := Nat.mul_le_mul_left n hk
  omega

/-- The reads of operands a and b, and of the old vd where it is a source. -/
theorem operandReads (a : AOp) (e : VEntry) (c : VCfg) (b d n sew : Nat) (useD : Bool) (hn : c.g ≤ n) (g' : Nat) (hg : g' ≤ n) :
    (∀ r ∈ a.reads e c ++ [readBelow c b c.g c.sew c.vl] ++ (if useD then [readBelow c d g' sew c.vl] else []), r.used ≤ n) ∧
    (a.reads e c ++ [readBelow c b c.g c.sew c.vl] ++ (if useD then [readBelow c d g' sew c.vl] else [])).length ≤
      (if useD then 3 else 2) := by
  constructor
  · intro r hr
    rw [List.mem_append, List.mem_append] at hr
    rcases hr with (hr | hr) | hr
    · exact Nat.le_trans (a.reads_used e c r hr) hn
    · rw [List.mem_singleton] at hr; subst hr; exact Nat.le_trans (readBelow_used _ _ _ _ _) hn
    · split at hr
      · rw [List.mem_singleton] at hr; subst hr; exact Nat.le_trans (readBelow_used _ _ _ _ _) hg
      · cases hr
  · have := a.reads_length e c
    rw [List.length_append, List.length_append]
    cases useD <;> simp <;> omega

/-- The format of a VF instruction of 16 bits or more (R58). -/
theorem needFloat_ok {e : VEntry} {c : VCfg} {f : FFmt} (hf : c.fmt = some f) (hw : 16 ≤ c.w) : needFloat e c = .ok f := by
  unfold needFloat; rw [hf]; simp [hw]

/-- Operand a of a floating-point instruction after an admission. -/
theorem AOp.floatSrc_eq {s s1 : State} (h : Admitted s s1) (a : AOp) (e : VEntry) (f : FFmt) :
    a.floatSrc e s1 f = s.floatOperand a f (e.op0.getD 0#64) := by
  unfold AOp.floatSrc State.floatOperand
  cases a with
  | scalar => rw [h.cfg]; rfl
  | vec n => exact AOp.src_eq h (.vec n) e
  | imm i => exact AOp.src_eq h (.imm i) e
  | queue q => exact AOp.src_eq h (.queue q) e
  | named => exact AOp.src_eq h .named e

/-- A floating-point lane operation on a tidy hart with room. -/
theorem floatOp_ok {op : FloatElem} {rounds useD : Bool} {m : MaskNo} {a : AOp} {b d : BitVec 5} {e : VEntry} {s : State}
    {f : FFmt} {rm : Rnd} (hv : s.cfg.vill = false) (hf : s.cfg.fmt = some f) (hw : 16 ≤ s.cfg.w)
    (hrm : rounds = true → vectorRounding s.hart.vfrm = some rm) (hb : groupOk b.toNat s.cfg.g = true)
    (hd : groupOk d.toNat s.cfg.g = true) (ha : s.operandOk a (e.op0.getD 0#64) = true)
    (ht : s.hart.tidy = true) (hroom : s.room = true) :
    ∃ t, floatOp op rounds useD m a b d e s = .ok (a.consume t) ∧
      Written s t d.toNat s.cfg.g s.cfg.sew m (fun i =>
        ((op f (if rounds then rm else .rne) (s.floatOperand a f (e.op0.getD 0#64) i).1 (groupSrc s b.toNat s.cfg.g s.cfg.sew i).1
            (s.oldElem useD d.toNat s.cfg.g s.cfg.sew i).1).1 % 2 ^ sewBits s.cfg.sew,
          (s.floatOperand a f (e.op0.getD 0#64) i).2 || (groupSrc s b.toNat s.cfg.g s.cfg.sew i).2 ||
            (s.oldElem useD d.toNat s.cfg.g s.cfg.sew i).2)) ∧
      t.hart.vflags = s.flagsWith m (fun i =>
        (op f (if rounds then rm else .rne) (s.floatOperand a f (e.op0.getD 0#64) i).1 (groupSrc s b.toNat s.cfg.g s.cfg.sew i).1
            (s.oldElem useD d.toNat s.cfg.g s.cfg.sew i).1).2) := by
  obtain ⟨g1, g2, g3, g4⟩ := (groupOk_iff _ _).mp hd
  have hok : (groupOk b.toNat s.cfg.g && groupOk d.toNat s.cfg.g && a.ok e s s.cfg.g) = true := by
    rw [hb, hd, AOp.ok_eq, ha]; rfl
  have hround : roundFor rounds e s = .ok (if rounds then rm else .rne) := by
    unfold roundFor
    cases rounds with
    | true => simp only [↓reduceIte]; unfold needRound; rw [hrm rfl]
    | false => rfl
  unfold floatOp
  dsimp only
  unfold needVtype need
  rw [hv, hok, needFloat_ok hf hw, hround]
  simp only [Bool.not_false, ↓reduceIte, bind, Except.bind]
  obtain ⟨r1, r2⟩ := operandReads a e s.cfg b.toNat d.toNat s.cfg.g s.cfg.sew useD (Nat.le_refl _) s.cfg.g (Nat.le_refl _)
  obtain ⟨t, t1, t2, t3⟩ := mapLanes_ok (e := e) (m := m) (dsew := s.cfg.sew)
    (f := fun s1 i =>
      ((op f (if rounds then rm else .rne) (a.floatSrc e s1 f i).1 (groupSrc s1 b.toNat s.cfg.g s.cfg.sew i).1
          ((if useD then groupSrc s1 d.toNat s.cfg.g s.cfg.sew else constSrc s.cfg.w 0) i).1).1,
       (op f (if rounds then rm else .rne) (a.floatSrc e s1 f i).1 (groupSrc s1 b.toNat s.cfg.g s.cfg.sew i).1
          ((if useD then groupSrc s1 d.toNat s.cfg.g s.cfg.sew else constSrc s.cfg.w 0) i).1).2,
       (a.floatSrc e s1 f i).2 || (groupSrc s1 b.toNat s.cfg.g s.cfg.sew i).2 ||
          ((if useD then groupSrc s1 d.toNat s.cfg.g s.cfg.sew else constSrc s.cfg.w 0) i).2))
    (F := fun i =>
      ((op f (if rounds then rm else .rne) (s.floatOperand a f (e.op0.getD 0#64) i).1 (groupSrc s b.toNat s.cfg.g s.cfg.sew i).1
          (s.oldElem useD d.toNat s.cfg.g s.cfg.sew i).1).1,
       (op f (if rounds then rm else .rne) (s.floatOperand a f (e.op0.getD 0#64) i).1 (groupSrc s b.toNat s.cfg.g s.cfg.sew i).1
          (s.oldElem useD d.toNat s.cfg.g s.cfg.sew i).1).2,
       (s.floatOperand a f (e.op0.getD 0#64) i).2 || (groupSrc s b.toNat s.cfg.g s.cfg.sew i).2 ||
          (s.oldElem useD d.toNat s.cfg.g s.cfg.sew i).2))
    ht hroom (reads_room r1 r2 (by split <;> omega)) g4
    (by
      intro s1 had i
      rw [a.floatSrc_eq had, had.src]
      cases useD with
      | true => simp only [State.oldElem, ↓reduceIte]; rw [had.src]
      | false => simp [State.oldElem, constSrc])
  refine ⟨t, ?_, t2, t3⟩
  rw [t1]

/-- A floating-point comparison on a tidy hart with room, none of whose active elements is poisoned. -/
theorem fcmpOp_ok {c : FCond} {m md : MaskNo} {a : AOp} {b : BitVec 5} {e : VEntry} {s : State} {f : FFmt}
    (hv : s.cfg.vill = false) (hf : s.cfg.fmt = some f) (hw : 16 ≤ s.cfg.w) (hb : groupOk b.toNat s.cfg.g = true)
    (ha : s.operandOk a (e.op0.getD 0#64) = true) (ht : s.hart.tidy = true) (hroom : s.room = true)
    (hclean : ∀ i ∈ s.actives m, (s.floatOperand a f (e.op0.getD 0#64) i).2 = false ∧ (groupSrc s b.toNat s.cfg.g s.cfg.sew i).2 = false) :
    ∃ t, fcmpOp c m a b md e s = .ok (a.consume t) ∧
      MaskWritten s t m md (fun i =>
        (fcmpElem c f (s.floatOperand a f (e.op0.getD 0#64) i).1 (groupSrc s b.toNat s.cfg.g s.cfg.sew i).1).1) ∧
      t.hart.vflags = s.flagsWith m (fun i =>
        (fcmpElem c f (s.floatOperand a f (e.op0.getD 0#64) i).1 (groupSrc s b.toNat s.cfg.g s.cfg.sew i).1).2) := by
  obtain ⟨k1, k2, k3, k4⟩ := (groupOk_iff _ _).mp hb
  have hok : (groupOk b.toNat s.cfg.g && a.ok e s s.cfg.g) = true := by rw [hb, AOp.ok_eq, ha]; rfl
  unfold fcmpOp
  dsimp only
  unfold needVtype need
  rw [hv, hok, needFloat_ok hf hw]
  simp only [Bool.not_false, ↓reduceIte, bind, Except.bind]
  obtain ⟨r1, r2⟩ := operandReads a e s.cfg b.toNat 0 s.cfg.g s.cfg.sew false (Nat.le_refl _) s.cfg.g (Nat.le_refl _)
  simp only [Bool.false_eq_true, ↓reduceIte, List.append_nil] at r1 r2
  obtain ⟨t, t1, t2, t3⟩ := maskLanes_ok (e := e) (m := m) (md := md)
    (f := fun s1 i => ((fcmpElem c f (a.floatSrc e s1 f i).1 (groupSrc s1 b.toNat s.cfg.g s.cfg.sew i).1).1,
      (fcmpElem c f (a.floatSrc e s1 f i).1 (groupSrc s1 b.toNat s.cfg.g s.cfg.sew i).1).2,
      (a.floatSrc e s1 f i).2 || (groupSrc s1 b.toNat s.cfg.g s.cfg.sew i).2))
    (F := fun i => ((fcmpElem c f (s.floatOperand a f (e.op0.getD 0#64) i).1 (groupSrc s b.toNat s.cfg.g s.cfg.sew i).1).1,
      (fcmpElem c f (s.floatOperand a f (e.op0.getD 0#64) i).1 (groupSrc s b.toNat s.cfg.g s.cfg.sew i).1).2,
      (s.floatOperand a f (e.op0.getD 0#64) i).2 || (groupSrc s b.toNat s.cfg.g s.cfg.sew i).2))
    ht hroom (by have := reads_room (h := s.hart) (dg := 0) r1 r2 (by omega); exact this)
    (by intro s1 had i; rw [a.floatSrc_eq had, had.src])
    (by intro i hi; obtain ⟨h1, h2⟩ := hclean i hi; simp [h1, h2])
  refine ⟨t, ?_, t2, t3⟩
  rw [t1]

/-- A floating-point instruction with one vector source on a tidy hart with room. -/
theorem floatUnary_ok {op : FFmt → Rnd → Nat → Nat × Nat} {rounds : Bool} {m : MaskNo} {b d : BitVec 5} {e : VEntry} {s : State}
    {f : FFmt} {rm : Rnd} (hv : s.cfg.vill = false) (hf : s.cfg.fmt = some f) (hw : 16 ≤ s.cfg.w)
    (hrm : rounds = true → vectorRounding s.hart.vfrm = some rm) (hb : groupOk b.toNat s.cfg.g = true)
    (hd : groupOk d.toNat s.cfg.g = true) (ht : s.hart.tidy = true) (hroom : s.room = true) :
    ∃ t, floatUnary op rounds m b d e s = .ok t ∧
      Written s t d.toNat s.cfg.g s.cfg.sew m (fun i =>
        ((op f (if rounds then rm else .rne) (groupSrc s b.toNat s.cfg.g s.cfg.sew i).1).1 % 2 ^ sewBits s.cfg.sew,
          (groupSrc s b.toNat s.cfg.g s.cfg.sew i).2)) ∧
      t.hart.vflags = s.flagsWith m (fun i => (op f (if rounds then rm else .rne) (groupSrc s b.toNat s.cfg.g s.cfg.sew i).1).2) := by
  obtain ⟨g1, g2, g3, g4⟩ := (groupOk_iff _ _).mp hd
  have hok : (groupOk b.toNat s.cfg.g && groupOk d.toNat s.cfg.g) = true := by rw [hb, hd]; rfl
  have hround : roundFor rounds e s = .ok (if rounds then rm else .rne) := by
    unfold roundFor
    cases rounds with
    | true => simp only [↓reduceIte]; unfold needRound; rw [hrm rfl]
    | false => rfl
  unfold floatUnary
  dsimp only
  unfold needVtype need
  rw [hv, hok, needFloat_ok hf hw, hround]
  simp only [Bool.not_false, ↓reduceIte, bind, Except.bind]
  obtain ⟨t, t1, t2, t3⟩ := mapLanes_ok (e := e) (m := m) (dsew := s.cfg.sew)
    (f := fun s1 i => ((op f (if rounds then rm else .rne) (groupSrc s1 b.toNat s.cfg.g s.cfg.sew i).1).1,
       (op f (if rounds then rm else .rne) (groupSrc s1 b.toNat s.cfg.g s.cfg.sew i).1).2,
       (groupSrc s1 b.toNat s.cfg.g s.cfg.sew i).2))
    (F := fun i => ((op f (if rounds then rm else .rne) (groupSrc s b.toNat s.cfg.g s.cfg.sew i).1).1,
       (op f (if rounds then rm else .rne) (groupSrc s b.toNat s.cfg.g s.cfg.sew i).1).2,
       (groupSrc s b.toNat s.cfg.g s.cfg.sew i).2))
    ht hroom (reads_room (reads := [readBelow s.cfg b.toNat s.cfg.g s.cfg.sew s.cfg.vl]) (n := s.cfg.g) (k := 1)
      (by intro r hr; rw [List.mem_singleton] at hr; subst hr; exact readBelow_used _ _ _ _ _) (by simp) (by omega)) g4
    (by intro s1 had i; rw [had.src])
  exact ⟨t, t1, t2, t3⟩

/-- A conversion on a tidy hart with room (R217). -/
theorem fcvtOp_ok {code : CvtCode} {m : MaskNo} {b d : BitVec 5} {e : VEntry} {s : State}
    {f : FFmt} {rm : Rnd} (hv : s.cfg.vill = false) (hf : s.cfg.fmt = some f) (hok : cvtOk s.cfg f code = true)
    (hrm : vectorRounding s.hart.vfrm = some rm) (hb : groupOk b.toNat s.cfg.g = true)
    (hd : groupOk d.toNat (cvtGroup s.cfg code) = true) (ht : s.hart.tidy = true) (hroom : s.room = true) :
    ∃ t, fcvtOp m b code d e s = .ok t ∧
      Written s t d.toNat (cvtGroup s.cfg code) (cvtSew s.cfg code) m (fun i =>
        ((cvtElem s.cfg.w f rm code (groupSrc s b.toNat s.cfg.g s.cfg.sew i).1).1 % 2 ^ sewBits (cvtSew s.cfg code),
          (groupSrc s b.toNat s.cfg.g s.cfg.sew i).2)) ∧
      t.hart.vflags = s.flagsWith m (fun i => (cvtElem s.cfg.w f rm code (groupSrc s b.toNat s.cfg.g s.cfg.sew i).1).2) := by
  obtain ⟨g1, g2, g3, g4⟩ := (groupOk_iff _ _).mp hd
  obtain ⟨k1, k2, k3, k4⟩ := (groupOk_iff _ _).mp hb
  have hok : (cvtOk s.cfg f code && groupOk b.toNat s.cfg.g && groupOk d.toNat (cvtGroup s.cfg code)) = true := by
    rw [hok, hb, hd]; rfl
  unfold fcvtOp
  dsimp only
  unfold needVtype need needRound
  rw [hv, hf, hrm]
  dsimp only
  rw [hok]
  simp only [Bool.not_false, ↓reduceIte, bind, Except.bind]
  obtain ⟨t, t1, t2, t3⟩ := mapLanes_ok (e := e) (m := m) (dsew := cvtSew s.cfg code)
    (f := fun s1 i => ((cvtElem s.cfg.w f rm code (groupSrc s1 b.toNat s.cfg.g s.cfg.sew i).1).1,
       (cvtElem s.cfg.w f rm code (groupSrc s1 b.toNat s.cfg.g s.cfg.sew i).1).2,
       (groupSrc s1 b.toNat s.cfg.g s.cfg.sew i).2))
    (F := fun i => ((cvtElem s.cfg.w f rm code (groupSrc s b.toNat s.cfg.g s.cfg.sew i).1).1,
       (cvtElem s.cfg.w f rm code (groupSrc s b.toNat s.cfg.g s.cfg.sew i).1).2,
       (groupSrc s b.toNat s.cfg.g s.cfg.sew i).2))
    ht hroom (reads_room (reads := [readBelow s.cfg b.toNat s.cfg.g s.cfg.sew s.cfg.vl]) (n := s.cfg.g) (k := 1)
      (by intro r hr; rw [List.mem_singleton] at hr; subst hr; exact readBelow_used _ _ _ _ _) (by simp) (by omega)) g4
    (by intro s1 had i; rw [had.src])
  exact ⟨t, t1, t2, t3⟩

/-- A widening floating-point operation on a tidy hart with room (R220). -/
theorem widenOp_ok {op : WideElem} {useD : Bool} {m : MaskNo} {a : AOp} {b d : BitVec 5} {e : VEntry} {s : State}
    {f : FFmt} {rm : Rnd} (hv : s.cfg.vill = false) (hf : s.cfg.fmt = some f) (hw : 16 ≤ s.cfg.w) (hw64 : s.cfg.w ≠ 64)
    (hrm : vectorRounding s.hart.vfrm = some rm) (hb : groupOk b.toNat s.cfg.g = true)
    (hd : groupOk d.toNat (2 * s.cfg.g) = true) (hna : ∀ q, a ≠ .queue q) (ha : s.operandOk a (e.op0.getD 0#64) = true)
    (ht : s.hart.tidy = true) (hroom : s.room = true) :
    ∃ t, widenOp op useD m a b d e s = .ok t ∧
      Written s t d.toNat (2 * s.cfg.g) (sewOfBits (2 * s.cfg.w)) m (fun i =>
        ((op (wideFormat f) rm (decodeFloat f (s.floatOperand a f (e.op0.getD 0#64) i).1)
            (decodeFloat f (groupSrc s b.toNat s.cfg.g s.cfg.sew i).1)
            (decodeFloat (wideFormat f) (s.oldElem useD d.toNat (2 * s.cfg.g) (sewOfBits (2 * s.cfg.w)) i).1)).1 %
              2 ^ sewBits (sewOfBits (2 * s.cfg.w)),
          (s.floatOperand a f (e.op0.getD 0#64) i).2 || (groupSrc s b.toNat s.cfg.g s.cfg.sew i).2 ||
            (s.oldElem useD d.toNat (2 * s.cfg.g) (sewOfBits (2 * s.cfg.w)) i).2)) ∧
      t.hart.vflags = s.flagsWith m (fun i =>
        (op (wideFormat f) rm (decodeFloat f (s.floatOperand a f (e.op0.getD 0#64) i).1)
            (decodeFloat f (groupSrc s b.toNat s.cfg.g s.cfg.sew i).1)
            (decodeFloat (wideFormat f) (s.oldElem useD d.toNat (2 * s.cfg.g) (sewOfBits (2 * s.cfg.w)) i).1)).2) := by
  obtain ⟨g1, g2, g3, g4⟩ := (groupOk_iff _ _).mp hd
  have hok : (s.cfg.w != 64 && groupOk b.toNat s.cfg.g && groupOk d.toNat (2 * s.cfg.g) && a.ok e s s.cfg.g) = true := by
    rw [hb, hd, AOp.ok_eq, ha]; simp [hw64]
  unfold widenOp
  dsimp only
  unfold needVtype need needRound
  rw [hv, hok, needFloat_ok hf hw, hrm]
  simp only [Bool.not_false, ↓reduceIte, bind, Except.bind]
  obtain ⟨r1, r2⟩ := operandReads a e s.cfg b.toNat d.toNat (2 * s.cfg.g) (sewOfBits (2 * s.cfg.w)) useD (by omega) (2 * s.cfg.g)
    (Nat.le_refl _)
  obtain ⟨t, t1, t2, t3⟩ := mapLanes_ok (e := e) (m := m) (dsew := sewOfBits (2 * s.cfg.w))
    (f := fun s1 i =>
      ((op (wideFormat f) rm (decodeFloat f (a.floatSrc e s1 f i).1) (decodeFloat f (groupSrc s1 b.toNat s.cfg.g s.cfg.sew i).1)
          (decodeFloat (wideFormat f) ((if useD then groupSrc s1 d.toNat (2 * s.cfg.g) (sewOfBits (2 * s.cfg.w)) else constSrc (2 * s.cfg.w) 0) i).1)).1,
       (op (wideFormat f) rm (decodeFloat f (a.floatSrc e s1 f i).1) (decodeFloat f (groupSrc s1 b.toNat s.cfg.g s.cfg.sew i).1)
          (decodeFloat (wideFormat f) ((if useD then groupSrc s1 d.toNat (2 * s.cfg.g) (sewOfBits (2 * s.cfg.w)) else constSrc (2 * s.cfg.w) 0) i).1)).2,
       (a.floatSrc e s1 f i).2 || (groupSrc s1 b.toNat s.cfg.g s.cfg.sew i).2 ||
          ((if useD then groupSrc s1 d.toNat (2 * s.cfg.g) (sewOfBits (2 * s.cfg.w)) else constSrc (2 * s.cfg.w) 0) i).2))
    (F := fun i =>
      ((op (wideFormat f) rm (decodeFloat f (s.floatOperand a f (e.op0.getD 0#64) i).1)
            (decodeFloat f (groupSrc s b.toNat s.cfg.g s.cfg.sew i).1)
            (decodeFloat (wideFormat f) (s.oldElem useD d.toNat (2 * s.cfg.g) (sewOfBits (2 * s.cfg.w)) i).1)).1,
       (op (wideFormat f) rm (decodeFloat f (s.floatOperand a f (e.op0.getD 0#64) i).1)
            (decodeFloat f (groupSrc s b.toNat s.cfg.g s.cfg.sew i).1)
            (decodeFloat (wideFormat f) (s.oldElem useD d.toNat (2 * s.cfg.g) (sewOfBits (2 * s.cfg.w)) i).1)).2,
       (s.floatOperand a f (e.op0.getD 0#64) i).2 || (groupSrc s b.toNat s.cfg.g s.cfg.sew i).2 ||
            (s.oldElem useD d.toNat (2 * s.cfg.g) (sewOfBits (2 * s.cfg.w)) i).2))
    ht hroom (reads_room r1 r2 (by split <;> omega)) g4
    (by
      intro s1 had i
      rw [a.floatSrc_eq had, had.src]
      cases useD with
      | true => simp only [State.oldElem, ↓reduceIte]; rw [had.src]
      | false => simp [State.oldElem, constSrc])
  exact ⟨t, t1, t2, t3⟩

end Sys2Proof.Machine
end

