-- ==== Sys2Proof/Laws/Memory.lean ====
section
/-! SUPPORT. Memory: a read after a write, the frame of a write, and the canonical form kept by every memory operation. -/

namespace Sys2Proof.Machine

/-! Reads and writes of one byte. -/

/-- A canonical list is canonical above any smaller bound. -/
theorem memWfFrom_mono {lo lo' : Nat} (hl : lo' ≤ lo) {m : List Host.Cell} (h : memWfFrom lo m = true) :
    memWfFrom lo' m = true := by
  cases m with
  | nil => rfl
  | cons c rest =>
    obtain ⟨k, v⟩ := c
    simp only [memWfFrom, Bool.and_eq_true, decide_eq_true_eq] at h ⊢
    exact ⟨⟨by omega, h.1.2⟩, h.2⟩

/-- A read through a filter by address. -/
theorem memRead_filter (p : Nat → Bool) (m : List Host.Cell) (c : Nat) :
    memRead (m.filter (fun x => p x.1)) c = if p c then memRead m c else unlistedByte := by
  induction m with
  | nil => simp [memRead]
  | cons x rest ih =>
    obtain ⟨k, v⟩ := x
    rw [List.filter_cons]
    by_cases hk : c = k
    · subst hk
      cases hp : p c <;> simp [memRead, hp, ih]
    · cases hp : p k <;> simp [memRead, hk, ih]

/-- A read after an entry is put in its place. -/
theorem memRead_memPut (m : List Host.Cell) (a c : Nat) (b : Byte) :
    memRead (memPut m a b) c = if c = a then b else memRead m c := by
  induction m with
  | nil => simp [memPut, memRead]
  | cons x rest ih =>
    obtain ⟨k, v⟩ := x
    simp only [memPut]
    split
    · rename_i hk; subst hk; simp only [memRead]; split <;> rfl
    · split
      · rfl
      · rename_i hk _
        simp only [memRead, ih]
        by_cases hc : c = k
        · subst hc; rw [if_pos rfl, if_neg (Ne.symm hk), if_pos rfl]
        · rw [if_neg hc, if_neg hc]

/-- A read after a write: the byte written at its key, what was there at any other. -/
@[simp] theorem memRead_memWrite (m : List Host.Cell) (a c : Nat) (b : Byte) :
    memRead (memWrite m a b) c = if c = a then b else memRead m c := by
  unfold memWrite
  split
  · rename_i hb
    rw [memRead_filter (fun k => k != a)]
    by_cases hc : c = a <;> simp [hc, hb]
  · exact memRead_memPut m a c b

/-- A filter keeps a list canonical. -/
theorem memWfFrom_filter {lo : Nat} {m : List Host.Cell} (p : Host.Cell → Bool) (h : memWfFrom lo m = true) :
    memWfFrom lo (m.filter p) = true := by
  induction m generalizing lo with
  | nil => rfl
  | cons x rest ih =>
    obtain ⟨k, v⟩ := x
    simp only [memWfFrom, Bool.and_eq_true, decide_eq_true_eq] at h
    rw [List.filter_cons]
    split
    · simp only [memWfFrom, Bool.and_eq_true, decide_eq_true_eq]
      exact ⟨h.1, ih h.2⟩
    · exact memWfFrom_mono (by omega) (ih h.2)

/-- A put keeps the canonical form above a bound it respects. -/
theorem memWfFrom_memPut {lo : Nat} {m : List Host.Cell} (h : memWfFrom lo m = true) {a : Nat} (ha : lo ≤ a) {b : Byte}
    (hb : b ≠ unlistedByte) : memWfFrom lo (memPut m a b) = true := by
  induction m generalizing lo with
  | nil => simp [memPut, memWfFrom, ha, hb]
  | cons x rest ih =>
    obtain ⟨k, v⟩ := x
    simp only [memWfFrom, Bool.and_eq_true, decide_eq_true_eq] at h
    simp only [memPut]
    split
    · rename_i hk
      subst hk
      simp [memWfFrom, ha, hb, h.2]
    · split
      · simp only [memWfFrom, Bool.and_eq_true, decide_eq_true_eq]
        exact ⟨⟨ha, by simpa using hb⟩, ⟨by omega, h.1.2⟩, h.2⟩
      · simp only [memWfFrom, Bool.and_eq_true, decide_eq_true_eq]
        exact ⟨h.1, ih h.2 (by omega)⟩

/-- A write keeps memory canonical. -/
theorem memWf_memWrite {m : List Host.Cell} (h : memWf m = true) (a : Nat) (b : Byte) : memWf (memWrite m a b) = true := by
  unfold memWrite
  split
  · exact memWfFrom_filter _ h
  · exact memWfFrom_memPut h (Nat.zero_le a) (by assumption)

/-- A run of bytes written keeps memory canonical. -/
theorem memWf_memWriteBytes {m : List Host.Cell} (h : memWf m = true) (a : Nat) (bs : List Byte) :
    memWf (memWriteBytes m a bs) = true := by
  induction bs generalizing m a with
  | nil => exact h
  | cons b bs ih => exact ih (memWf_memWrite h a b) (a + 1)

/-- Erasing keeps memory canonical. -/
theorem memWf_memErase {m : List Host.Cell} (h : memWf m = true) (base size : Nat) : memWf (memErase m base size) = true :=
  memWfFrom_filter _ h

/-- A run of bytes written leaves every other byte. -/
theorem memRead_memWriteBytes_other (m : List Host.Cell) (a : Nat) (bs : List Byte) {c : Nat}
    (hc : c < a ∨ a + bs.length ≤ c) : memRead (memWriteBytes m a bs) c = memRead m c := by
  induction bs generalizing m a with
  | nil => rfl
  | cons b bs ih =>
    simp only [List.length_cons] at hc
    simp only [memWriteBytes]
    rw [ih _ (a + 1) (by omega), memRead_memWrite, if_neg (by omega)]

/-- Erasing makes a range read as nothing listed, and leaves every other byte. -/
theorem memRead_memErase (m : List Host.Cell) (base size c : Nat) :
    memRead (memErase m base size) c = if base ≤ c ∧ c < base + size then unlistedByte else memRead m c := by
  unfold memErase
  rw [memRead_filter (fun k => !(decide (base ≤ k) && decide (k < base + size)))]
  by_cases h1 : base ≤ c <;> by_cases h2 : c < base + size <;> simp [h1, h2]

/-! Stores. -/

/-- What one byte write can do: memory and nothing else. -/
theorem applyWrite_frame (s : State) (w : ByteWrite) : applyWrite s w = { s with mem := (applyWrite s w).mem } := by
  unfold applyWrite
  split <;> rfl

/-- A byte write keeps memory canonical. -/
theorem applyWrite_wf {s : State} (h : memWf s.mem = true) (w : ByteWrite) : memWf (applyWrite s w).mem = true := by
  unfold applyWrite
  split
  · exact h
  · exact memWf_memWrite h _ _

/-- A byte write leaves every other byte. -/
theorem applyWrite_other (s : State) (w : ByteWrite) {c : Nat} (hc : c ≠ w.key) :
    memRead (applyWrite s w).mem c = memRead s.mem c := by
  unfold applyWrite
  split
  · rfl
  · simp [hc]

/-- Byte writes keep memory canonical. -/
theorem foldl_applyWrite_wf {s : State} (h : memWf s.mem = true) (ws : List ByteWrite) :
    memWf (ws.foldl applyWrite s).mem = true := by
  induction ws generalizing s with
  | nil => exact h
  | cons w ws ih => exact ih (applyWrite_wf h w)

/-- Byte writes leave every byte they do not name. -/
theorem foldl_applyWrite_other (s : State) (ws : List ByteWrite) {c : Nat}
    (hc : ∀ w ∈ ws, w.key ≠ c) : memRead (ws.foldl applyWrite s).mem c = memRead s.mem c := by
  induction ws generalizing s with
  | nil => rfl
  | cons w ws ih =>
    simp only [List.foldl_cons]
    rw [ih _ (fun x hx => hc x (List.mem_cons_of_mem _ hx))]
    exact applyWrite_other s w (fun e => hc w (List.mem_cons_self ..) e.symm)

/-- The memory a store leaves is that of its byte writes. -/
@[simp] theorem storeBytes_mem (ws : List ByteWrite) (s : State) : (storeBytes ws s).mem = (ws.foldl applyWrite s).mem := rfl

/-- A store keeps memory canonical. -/
theorem storeBytes_wf {s : State} (h : memWf s.mem = true) (ws : List ByteWrite) : memWf (storeBytes ws s).mem = true :=
  foldl_applyWrite_wf h ws

/-- A store leaves every byte it does not name. -/
theorem storeBytes_other (s : State) (ws : List ByteWrite) {c : Nat} (hc : ∀ w ∈ ws, w.key ≠ c) :
    memRead (storeBytes ws s).mem c = memRead s.mem c :=
  foldl_applyWrite_other s ws hc

/-- The keys of a run of writes. -/
theorem runWrites_key {k : Nat} {bs : List Byte} {w : ByteWrite} (h : w ∈ runWrites k bs) :
    k ≤ w.key ∧ w.key < k + bs.length := by
  induction bs generalizing k with
  | nil => simp [runWrites] at h
  | cons b bs ih =>
    simp only [runWrites, List.mem_cons] at h
    rcases h with rfl | h
    · simp [byteWrite]
    · have := ih h
      simp only [List.length_cons]
      omega

/-- A run stored keeps memory canonical. -/
theorem storeRun_wf {s : State} (h : memWf s.mem = true) (k : Nat) (bs : List Byte) : memWf (storeRun k bs s).mem = true :=
  storeBytes_wf h _

/-- A run stored leaves every byte outside it. -/
theorem storeRun_other (s : State) (k : Nat) (bs : List Byte) {c : Nat}
    (hc : c < k ∨ k + bs.length ≤ c) : memRead (storeRun k bs s).mem c = memRead s.mem c :=
  storeBytes_other s _ (fun w hw => by have := runWrites_key hw; omega)

/-- Reset memory is canonical. -/
theorem reset_memWf : memWf State.reset.mem = true := rfl

end Sys2Proof.Machine
end

