-- ==== Sys2Proof/Laws/PermOps.lean ====
section
/-! SUPPORT. What the permutations, reductions and moves of VP write (R221 to R229). -/

namespace Sys2Proof.Machine

/-- What an instruction that writes some elements of a group leaves. -/
structure Put (s t : State) (d g sew : Nat) (val : Nat → Option (Nat × Bool)) : Prop extends GroupPut s t d g sew val where
  frame : t = { s with hart := { s.hart with v := t.hart.v }, cores := t.cores }
  tidy : t.hart.tidy = true
  counted : Counted s t

/-- Elements written to a group after an admission. -/
theorem put_ok {s s1 : State} (h : Admitted s s1) (d g sew : Nat) (es : List (Option (Nat × Bool))) (hd : d + g ≤ 32) :
    Put s (writeGroup s1 d g sew es) d g sew (fun i => (es[i]?.join).map (fun x => (x.1 % 2 ^ sewBits sew, x.2))) := by
  obtain ⟨w1, w2, w3⟩ := writeGroup_frame s1 d g sew es h.tidy hd
  have hl := h.lanes
  have hlt : (writeGroup s1 d g sew es).lanes (writeGroup s1 d g sew es).hart = s.lanes s.hart := by
    rw [← hl]; exact State.lanes_congr (by rw [w1]) (by rw [w1])
  refine ⟨⟨?_, ?_, ?_, ?_, ?_⟩, ?_, w2, h.counted.trans (by rw [h.frame]) (.of_eq (by rw [w1]))⟩
  · intro i x hin hv
    unfold State.holds at hin
    rw [elem_writeGroup s1 d g sew es h.tidy hd i (by rw [hl]; exact hin)]
    cases he : es[i]?.join with
    | none => rw [he] at hv; cases hv
    | some y => rw [he] at hv; cases hv; rfl
  · intro h8 i x hin hv
    unfold State.holds at hin
    rw [elemPoisoned_writeGroup s1 d g sew es h.tidy hd i (by rw [hl]; exact hin) h8]
    cases he : es[i]?.join with
    | none => rw [he] at hv; cases hv
    | some y => rw [he] at hv; cases hv; rfl
  · intro i hin hv
    unfold State.holds at hin
    rw [elem_writeGroup s1 d g sew es h.tidy hd i (by rw [hl]; exact hin)]
    cases he : es[i]?.join with
    | none => unfold State.elem; rw [h.src]
    | some y => rw [he] at hv; cases hv
  · intro h8 i hin hv
    unfold State.holds at hin
    rw [elemPoisoned_writeGroup s1 d g sew es h.tidy hd i (by rw [hl]; exact hin) h8]
    cases he : es[i]?.join with
    | none => unfold State.elemPoisoned; rw [h.src]
    | some y => rw [he] at hv; cases hv
  · intro n g' sew' hdis
    rw [← h.src]
    exact groupSrc_of_getV (by rw [hlt, hl]) (fun j hj => w3 _ (by omega)) sew'
  · generalize writeGroup s1 d g sew es = z at *
    rw [w1, h.frame]

/-- A group as seen from the instruction's own PC. -/
theorem GroupPut.of_start {s t : State} {d g sew : Nat} {val : Nat → Option (Nat × Bool)}
    (h : GroupPut s.start t d g sew val) : GroupPut s t d g sew val :=
  ⟨h.put, h.putBad, h.kept, h.keptBad, h.others⟩

/-- A group as seen after a change that keeps vector registers and lanes. -/
theorem GroupPut.of_same {s t u : State} {d g sew : Nat} {val : Nat → Option (Nat × Bool)}
    (h : GroupPut s t d g sew val) (hv : u.hart.v = t.hart.v) (hl : u.lanes u.hart = t.lanes t.hart) :
    GroupPut s u d g sew val := by
  have hg : ∀ n g sew, groupSrc u n g sew = groupSrc t n g sew := fun n g sew =>
    groupSrc_of_getV hl (fun j _ => by unfold Hart.getV; rw [hv]) sew
  obtain ⟨h1, h2, h3, h4, h5⟩ := h
  refine ⟨?_, ?_, ?_, ?_, ?_⟩
  · intro i x a b; unfold State.elem; rw [hg]; exact h1 i x a b
  · intro k i x a b; unfold State.elemPoisoned; rw [hg]; exact h2 k i x a b
  · intro i a b; unfold State.elem; rw [hg]; exact h3 i a b
  · intro k i a b; unfold State.elemPoisoned; rw [hg]; exact h4 k i a b
  · intro n g' sew' a; rw [hg]; exact h5 n g' sew' a

/-- The values may be restated where the group holds an element. -/
theorem GroupPut.congr {s t : State} {d g sew : Nat} {val val' : Nat → Option (Nat × Bool)}
    (h : GroupPut s t d g sew val) (hv : ∀ i, val i = val' i) : GroupPut s t d g sew val' := by
  have : val = val' := funext hv
  rw [← this]; exact h

/-- A permutation or move dispatched by a ready hart. -/
theorem put_issue {p : Nat} {w : InstrWord} {o : Captured} {eff : VEntry → State → VRes} {s t : State} {d g sew : Nat}
    {val : Nat → Option (Nat × Bool)} (hr : s.ready p = true)
    (heff : eff (s.entryFor w o) s.start = .ok t)
    (hw : Put s.start t d g sew val) :
    ∃ u, issue p w o eff s = .next u ∧ u = { s with hart := { s.hart.past with v := u.hart.v }, cores := s.coresAs u } ∧
      GroupPut s u d g sew val := by
  obtain ⟨h1, h2, -, -, -⟩ := (s.ready_iff p).mp hr
  have fr := hw.frame
  have hc : t = { s with hart := { s.hart with pc := s.hart.pc + 4#64, v := t.hart.v }, cores := t.cores } := fr
  have hrest : t.still = true := by
    apply State.still_congr ((State.atRest_iff s).mp h1).1 <;> (rw [hc])
  have hk : Counted s t := s.start_counted.trans rfl hw.counted
  refine ⟨_, issue_ok h1 h2 heff hrest, ?_, ?_⟩
  · generalize t.hart.v = v at *
    generalize t.cores = cc at *
    rw [← hk.finish (by rw [hc]), State.finish_frame, hc]
    rfl
  · refine (hw.toGroupPut.of_start).of_same ?_ ?_
    · rw [State.finish_frame]
    · exact State.lanes_congr (by rw [State.finish_frame]) (by rw [State.finish_frame])

/-- Elements picked from a group after an admission (R202). -/
theorem pickLanes_ok {e : VEntry} {s s1 : State} (h : Admitted s s1) (m : MaskNo) (b d : BitVec 5) (pick : Nat → Pick) (bad : Bool)
    (hd : d.toNat + s.cfg.g ≤ 32) :
    Put s (pickLanes e s1 m b d pick bad) d.toNat s.cfg.g s.cfg.sew (s.masked m (fun i =>
      match pick i with
      | .source j => some ((groupSrc s b.toNat s.cfg.g s.cfg.sew j).1, (groupSrc s b.toNat s.cfg.g s.cfg.sew j).2 || bad)
      | .zero => some (0, bad)
      | .keep => none)) := by
  have hc := h.cfg
  unfold pickLanes
  dsimp only
  rw [hc]
  have hp := put_ok h d.toNat s.cfg.g s.cfg.sew ((List.range s.cfg.vl).map (fun i =>
    if s1.hart.maskBit m i then
      match pick i with
      | .source j => some ((groupSrc s1 b.toNat s.cfg.g s.cfg.sew j).1, (groupSrc s1 b.toNat s.cfg.g s.cfg.sew j).2 || bad)
      | .zero => some (0, bad)
      | .keep => none
    else none)) hd
  have hb : s1.hart.maskBit m = s.hart.maskBit m := by rw [h.frame]; rfl
  refine ⟨hp.toGroupPut.congr (fun i => ?_), hp.frame, hp.tidy, hp.counted⟩
  have hvl : s.cfg.vl = s.hart.vl.toNat := rfl
  unfold State.masked
  rw [hvl, hb]
  by_cases hi : i < s.hart.vl.toNat
  · by_cases hm : s.hart.maskBit m i = true
    · simp only [List.getElem?_map, List.getElem?_range hi, Option.map_some, hm, ↓reduceIte, hi, and_self]
      cases pick i with
      | source j =>
        have := State.elem_lt s b.toNat s.cfg.g s.cfg.sew j
        simp only [h.src, Option.join_some, Option.map_some, Nat.mod_eq_of_lt this]
      | zero => simp
      | keep => simp
    · rw [if_neg (by simp [hm])]
      simp [hi, hm]
  · rw [if_neg (by simp [hi])]
    simp [hi]

end Sys2Proof.Machine
end

