-- ==== Sys2Proof/Tests/Slice0.lean ====
section
/-! SUPPORT. Tests of the AK960 model: the decoding of every encoding, ill-formed terms, one step of an instruction on a small state,
and for each statement with hypotheses a state that meets them. -/

/-! The file holds many kernel evaluations: they run one after another, so that few run at the same moment. -/

set_option Elab.async false

open Sys2Proof Sys2Proof.Machine

/-! Decoding: each word is written from the encoding tables of the spec (R111, R118 to R122) and of the RV64 base. -/

/-- Every word decodes to its instruction, which encodes to that word and is well-formed. -/
noncomputable def wordsAgree (l : List (InstrWord × Instr)) : Bool :=
  l.all (fun p =>
    (match decodeWord p.1 with | .ok i => decide (i = p.2) | .error _ => false) && decide (encode p.2 = some p.1) && p.2.wf)

theorem test_decode_vi_0 : wordsAgree [
    (0b0000_101_01001_01101_000_10010_0001011#32, .addVv 5 9 13 18),
    (0b0000_101_01001_01101_001_10010_0001011#32, .addVx 5 9 13 18),
    (0b0000_101_01001_01101_010_10010_0001011#32, .addVi 5 9 13 18),
    (0b0000_101_01001_00010_011_10010_0001011#32, .addVq 5 9 2 18),
    (0b0000_101_01001_01101_100_10010_0001011#32, .addVn 5 9 13 18),
    (0b0001_101_01001_01101_000_10010_0001011#32, .subVv 5 9 13 18),
    (0b0001_101_01001_01101_001_10010_0001011#32, .subVx 5 9 13 18),
    (0b0001_101_01001_01101_010_10010_0001011#32, .subVi 5 9 13 18),
    (0b0001_101_01001_00010_011_10010_0001011#32, .subVq 5 9 2 18),
    (0b0001_101_01001_01101_100_10010_0001011#32, .subVn 5 9 13 18),
    (0b0010_101_01001_01101_000_10010_0001011#32, .rsubVv 5 9 13 18),
    (0b0010_101_01001_01101_001_10010_0001011#32, .rsubVx 5 9 13 18),
    (0b0010_101_01001_01101_010_10010_0001011#32, .rsubVi 5 9 13 18),
    (0b0010_101_01001_00010_011_10010_0001011#32, .rsubVq 5 9 2 18),
    (0b0010_101_01001_01101_100_10010_0001011#32, .rsubVn 5 9 13 18),
    (0b0011_101_01001_01101_000_10010_0001011#32, .mulVv 5 9 13 18),
    (0b0011_101_01001_01101_001_10010_0001011#32, .mulVx 5 9 13 18),
    (0b0011_101_01001_01101_010_10010_0001011#32, .mulVi 5 9 13 18),
    (0b0011_101_01001_00010_011_10010_0001011#32, .mulVq 5 9 2 18),
    (0b0011_101_01001_01101_100_10010_0001011#32, .mulVn 5 9 13 18),
    (0b0100_101_01001_01101_000_10010_0001011#32, .mulhVv 5 9 13 18),
    (0b0100_101_01001_01101_001_10010_0001011#32, .mulhVx 5 9 13 18),
    (0b0100_101_01001_01101_010_10010_0001011#32, .mulhVi 5 9 13 18),
    (0b0100_101_01001_00010_011_10010_0001011#32, .mulhVq 5 9 2 18),
    (0b0100_101_01001_01101_100_10010_0001011#32, .mulhVn 5 9 13 18),
    (0b0101_101_01001_01101_000_10010_0001011#32, .minVv 5 9 13 18),
    (0b0101_101_01001_01101_001_10010_0001011#32, .minVx 5 9 13 18),
    (0b0101_101_01001_01101_010_10010_0001011#32, .minVi 5 9 13 18),
    (0b0101_101_01001_00010_011_10010_0001011#32, .minVq 5 9 2 18),
    (0b0101_101_01001_01101_100_10010_0001011#32, .minVn 5 9 13 18),
    (0b0110_101_01001_01101_000_10010_0001011#32, .maxVv 5 9 13 18),
    (0b0110_101_01001_01101_001_10010_0001011#32, .maxVx 5 9 13 18),
    (0b0110_101_01001_01101_010_10010_0001011#32, .maxVi 5 9 13 18),
    (0b0110_101_01001_00010_011_10010_0001011#32, .maxVq 5 9 2 18),
    (0b0110_101_01001_01101_100_10010_0001011#32, .maxVn 5 9 13 18),
    (0b0111_101_01001_01101_000_10010_0001011#32, .andVv 5 9 13 18),
    (0b0111_101_01001_01101_001_10010_0001011#32, .andVx 5 9 13 18),
    (0b0111_101_01001_01101_010_10010_0001011#32, .andVi 5 9 13 18),
    (0b0111_101_01001_00010_011_10010_0001011#32, .andVq 5 9 2 18),
    (0b0111_101_01001_01101_100_10010_0001011#32, .andVn 5 9 13 18)] = true := by decide +kernel

theorem test_decode_vi_1 : wordsAgree [
    (0b1000_101_01001_01101_000_10010_0001011#32, .orVv 5 9 13 18),
    (0b1000_101_01001_01101_001_10010_0001011#32, .orVx 5 9 13 18),
    (0b1000_101_01001_01101_010_10010_0001011#32, .orVi 5 9 13 18),
    (0b1000_101_01001_00010_011_10010_0001011#32, .orVq 5 9 2 18),
    (0b1000_101_01001_01101_100_10010_0001011#32, .orVn 5 9 13 18),
    (0b1001_101_01001_01101_000_10010_0001011#32, .xorVv 5 9 13 18),
    (0b1001_101_01001_01101_001_10010_0001011#32, .xorVx 5 9 13 18),
    (0b1001_101_01001_01101_010_10010_0001011#32, .xorVi 5 9 13 18),
    (0b1001_101_01001_00010_011_10010_0001011#32, .xorVq 5 9 2 18),
    (0b1001_101_01001_01101_100_10010_0001011#32, .xorVn 5 9 13 18),
    (0b1010_101_01001_01101_000_10010_0001011#32, .sllVv 5 9 13 18),
    (0b1010_101_01001_01101_001_10010_0001011#32, .sllVx 5 9 13 18),
    (0b1010_101_01001_01101_010_10010_0001011#32, .sllVi 5 9 13 18),
    (0b1010_101_01001_00010_011_10010_0001011#32, .sllVq 5 9 2 18),
    (0b1010_101_01001_01101_100_10010_0001011#32, .sllVn 5 9 13 18),
    (0b1011_101_01001_01101_000_10010_0001011#32, .srlVv 5 9 13 18),
    (0b1011_101_01001_01101_001_10010_0001011#32, .srlVx 5 9 13 18),
    (0b1011_101_01001_01101_010_10010_0001011#32, .srlVi 5 9 13 18),
    (0b1011_101_01001_00010_011_10010_0001011#32, .srlVq 5 9 2 18),
    (0b1011_101_01001_01101_100_10010_0001011#32, .srlVn 5 9 13 18),
    (0b1100_101_01001_01101_000_10010_0001011#32, .sraVv 5 9 13 18),
    (0b1100_101_01001_01101_001_10010_0001011#32, .sraVx 5 9 13 18),
    (0b1100_101_01001_01101_010_10010_0001011#32, .sraVi 5 9 13 18),
    (0b1100_101_01001_00010_011_10010_0001011#32, .sraVq 5 9 2 18),
    (0b1100_101_01001_01101_100_10010_0001011#32, .sraVn 5 9 13 18),
    (0b1101_101_01001_01101_000_10010_0001011#32, .macVv 5 9 13 18),
    (0b1101_101_01001_01101_001_10010_0001011#32, .macVx 5 9 13 18),
    (0b1101_101_01001_01101_010_10010_0001011#32, .macVi 5 9 13 18),
    (0b1101_101_01001_00010_011_10010_0001011#32, .macVq 5 9 2 18),
    (0b1101_101_01001_01101_100_10010_0001011#32, .macVn 5 9 13 18),
    (0b1110_101_01001_01101_000_10011_0001011#32, .cmpVv 5 9 13 .lt 3),
    (0b1110_101_01001_01101_001_10011_0001011#32, .cmpVx 5 9 13 .lt 3),
    (0b1110_101_01001_01101_010_10011_0001011#32, .cmpVi 5 9 13 .lt 3),
    (0b1110_101_01001_00010_011_10011_0001011#32, .cmpVq 5 9 2 .lt 3),
    (0b1110_101_01001_01101_100_10011_0001011#32, .cmpVn 5 9 13 .lt 3),
    (0b1111_101_01001_01101_000_10011_0001011#32, .cmpzVv 5 9 13 .lt 3),
    (0b1111_101_01001_01101_001_10011_0001011#32, .cmpzVx 5 9 13 .lt 3),
    (0b1111_101_01001_01101_010_10011_0001011#32, .cmpzVi 5 9 13 .lt 3),
    (0b1111_101_01001_00010_011_10011_0001011#32, .cmpzVq 5 9 2 .lt 3),
    (0b1111_101_01001_01101_100_10011_0001011#32, .cmpzVn 5 9 13 .lt 3)] = true := by decide +kernel

theorem test_decode_vi_2 : wordsAgree [
    (0b0000_101_01001_01101_110_10010_0001011#32, .minzXv 5 9 13 18),
    (0b0000_101_01001_01101_111_10010_0001011#32, .minzXx 5 9 13 18),
    (0b0001_101_01001_01101_110_10010_0001011#32, .maxzXv 5 9 13 18),
    (0b0001_101_01001_01101_111_10010_0001011#32, .maxzXx 5 9 13 18),
    (0b0010_101_01001_01101_110_10010_0001011#32, .mulhzXv 5 9 13 18),
    (0b0010_101_01001_01101_111_10010_0001011#32, .mulhzXx 5 9 13 18),
    (0b0011_101_01001_01101_110_10010_0001011#32, .divXv 5 9 13 18),
    (0b0011_101_01001_01101_111_10010_0001011#32, .divXx 5 9 13 18),
    (0b0100_101_01001_01101_110_10010_0001011#32, .divzXv 5 9 13 18),
    (0b0100_101_01001_01101_111_10010_0001011#32, .divzXx 5 9 13 18),
    (0b0101_101_01001_01101_110_10010_0001011#32, .remXv 5 9 13 18),
    (0b0101_101_01001_01101_111_10010_0001011#32, .remXx 5 9 13 18),
    (0b0110_101_01001_01101_110_10010_0001011#32, .remzXv 5 9 13 18),
    (0b0110_101_01001_01101_111_10010_0001011#32, .remzXx 5 9 13 18),
    (0b0111_101_01001_01101_110_10010_0001011#32, .saddXv 5 9 13 18),
    (0b0111_101_01001_01101_111_10010_0001011#32, .saddXx 5 9 13 18),
    (0b1000_101_01001_01101_110_10010_0001011#32, .ssubXv 5 9 13 18),
    (0b1000_101_01001_01101_111_10010_0001011#32, .ssubXx 5 9 13 18),
    (0b1001_101_01001_01101_110_10010_0001011#32, .waddXv 5 9 13 18),
    (0b1001_101_01001_01101_111_10010_0001011#32, .waddXx 5 9 13 18),
    (0b1010_101_01001_01101_110_10010_0001011#32, .wmulXv 5 9 13 18),
    (0b1010_101_01001_01101_111_10010_0001011#32, .wmulXx 5 9 13 18),
    (0b1011_101_01001_00010_110_10010_0001011#32, .sext 5 9 .four 18),
    (0b1100_101_01001_00010_110_10010_0001011#32, .zext 5 9 .four 18),
    (0b1101_101_01001_00010_110_10010_0001011#32, .narrow 5 9 .four 18),
    (0b1101_101_01001_00110_110_10010_0001011#32, .narrowz 5 9 .four 18),
    (0b1110_101_01001_01101_110_10010_0001011#32, .absdXv 5 9 13 18),
    (0b1110_101_01001_01101_111_10010_0001011#32, .absdXx 5 9 13 18),
    (0b1111_101_01001_00001_110_10010_0001011#32, .bitc 5 9 .clz 18)] = true := by decide +kernel

theorem test_decode_vf_0 : wordsAgree [
    (0b0000_101_01001_01101_000_10010_0101011#32, .faddVv 5 9 13 18),
    (0b0000_101_01001_01101_001_10010_0101011#32, .faddVx 5 9 13 18),
    (0b0000_101_01001_00010_011_10010_0101011#32, .faddVq 5 9 2 18),
    (0b0000_101_01001_01101_100_10010_0101011#32, .faddVn 5 9 13 18),
    (0b0001_101_01001_01101_000_10010_0101011#32, .fsubVv 5 9 13 18),
    (0b0001_101_01001_01101_001_10010_0101011#32, .fsubVx 5 9 13 18),
    (0b0001_101_01001_00010_011_10010_0101011#32, .fsubVq 5 9 2 18),
    (0b0001_101_01001_01101_100_10010_0101011#32, .fsubVn 5 9 13 18),
    (0b0010_101_01001_01101_000_10010_0101011#32, .fmulVv 5 9 13 18),
    (0b0010_101_01001_01101_001_10010_0101011#32, .fmulVx 5 9 13 18),
    (0b0010_101_01001_00010_011_10010_0101011#32, .fmulVq 5 9 2 18),
    (0b0010_101_01001_01101_100_10010_0101011#32, .fmulVn 5 9 13 18),
    (0b0011_101_01001_01101_000_10010_0101011#32, .fdivVv 5 9 13 18),
    (0b0011_101_01001_01101_001_10010_0101011#32, .fdivVx 5 9 13 18),
    (0b0011_101_01001_00010_011_10010_0101011#32, .fdivVq 5 9 2 18),
    (0b0011_101_01001_01101_100_10010_0101011#32, .fdivVn 5 9 13 18),
    (0b0100_101_01001_01101_000_10010_0101011#32, .fminVv 5 9 13 18),
    (0b0100_101_01001_01101_001_10010_0101011#32, .fminVx 5 9 13 18),
    (0b0100_101_01001_00010_011_10010_0101011#32, .fminVq 5 9 2 18),
    (0b0100_101_01001_01101_100_10010_0101011#32, .fminVn 5 9 13 18),
    (0b0101_101_01001_01101_000_10010_0101011#32, .fmaxVv 5 9 13 18),
    (0b0101_101_01001_01101_001_10010_0101011#32, .fmaxVx 5 9 13 18),
    (0b0101_101_01001_00010_011_10010_0101011#32, .fmaxVq 5 9 2 18),
    (0b0101_101_01001_01101_100_10010_0101011#32, .fmaxVn 5 9 13 18),
    (0b0110_101_01001_01101_000_10010_0101011#32, .fmaddVv 5 9 13 18),
    (0b0110_101_01001_01101_001_10010_0101011#32, .fmaddVx 5 9 13 18),
    (0b0110_101_01001_00010_011_10010_0101011#32, .fmaddVq 5 9 2 18),
    (0b0110_101_01001_01101_100_10010_0101011#32, .fmaddVn 5 9 13 18),
    (0b0111_101_01001_01101_000_10010_0101011#32, .fnmsubVv 5 9 13 18),
    (0b0111_101_01001_01101_001_10010_0101011#32, .fnmsubVx 5 9 13 18),
    (0b0111_101_01001_00010_011_10010_0101011#32, .fnmsubVq 5 9 2 18),
    (0b0111_101_01001_01101_100_10010_0101011#32, .fnmsubVn 5 9 13 18),
    (0b1000_101_01001_01101_000_11011_0101011#32, .fcmpVv 5 9 13 .unord 3),
    (0b1000_101_01001_01101_001_11011_0101011#32, .fcmpVx 5 9 13 .unord 3),
    (0b1000_101_01001_00010_011_11011_0101011#32, .fcmpVq 5 9 2 .unord 3),
    (0b1000_101_01001_01101_100_11011_0101011#32, .fcmpVn 5 9 13 .unord 3),
    (0b1001_101_01001_00000_000_10010_0101011#32, .fsqrt 5 9 18),
    (0b1010_101_01001_00000_000_10010_0101011#32, .frec 5 9 18),
    (0b1011_101_01001_00000_000_10010_0101011#32, .frsq 5 9 18),
    (0b1100_101_01001_00000_000_10010_0101011#32, .fexp2 5 9 18)] = true := by decide +kernel

theorem test_decode_vf_1 : wordsAgree [
    (0b1101_101_01001_00111_000_10010_0101011#32, .fcvt 5 9 (.toFloat .fp32) 18),
    (0b1110_101_01001_00000_000_10010_0101011#32, .fclass 5 9 18),
    (0b1111_101_01001_00000_000_10010_0101011#32, .fround 5 9 18),
    (0b0000_101_01001_01101_110_10010_0101011#32, .fsgnjXv 5 9 13 18),
    (0b0000_101_01001_01101_111_10010_0101011#32, .fsgnjXx 5 9 13 18),
    (0b0001_101_01001_01101_110_10010_0101011#32, .fsgnjnXv 5 9 13 18),
    (0b0001_101_01001_01101_111_10010_0101011#32, .fsgnjnXx 5 9 13 18),
    (0b0010_101_01001_01101_110_10010_0101011#32, .fsgnjxXv 5 9 13 18),
    (0b0010_101_01001_01101_111_10010_0101011#32, .fsgnjxXx 5 9 13 18),
    (0b0011_101_01001_01101_110_10010_0101011#32, .fwaddXv 5 9 13 18),
    (0b0011_101_01001_01101_111_10010_0101011#32, .fwaddXx 5 9 13 18),
    (0b0100_101_01001_01101_110_10010_0101011#32, .fwmulXv 5 9 13 18),
    (0b0100_101_01001_01101_111_10010_0101011#32, .fwmulXx 5 9 13 18),
    (0b0101_101_01001_01101_110_10010_0101011#32, .fwmacXv 5 9 13 18),
    (0b0101_101_01001_01101_111_10010_0101011#32, .fwmacXx 5 9 13 18),
    (0b0110_101_01001_01101_110_10010_0101011#32, .vquant 5 9 13 18),
    (0b0111_101_01001_01101_110_10010_0101011#32, .vdequant 5 9 13 18),
    (0b1000_101_01001_01101_110_10010_0101011#32, .vqef 5 9 13 18),
    (0b1001_101_01001_01101_110_10010_0101011#32, .vbscale 5 9 13 18),
    (0b1010_101_01001_01101_111_10010_0101011#32, .vouts 5 9 13 18)] = true := by decide +kernel

theorem test_decode_vp_0 : wordsAgree [
    (0b0000_000_00011_00110_000_00010_1011011#32, .mand 3 6 2),
    (0b0001_000_00011_00110_000_00010_1011011#32, .mor 3 6 2),
    (0b0010_000_00011_00110_000_00010_1011011#32, .mxor 3 6 2),
    (0b0011_000_00011_00110_000_00010_1011011#32, .mandn 3 6 2),
    (0b0100_101_00011_00000_000_10010_1011011#32, .mpop 5 3 18),
    (0b0101_101_00011_00000_000_10010_1011011#32, .mfirst 5 3 18),
    (0b0110_101_00011_00000_000_10010_1011011#32, .iota 5 3 18),
    (0b0111_101_00000_00000_000_10010_1011011#32, .vid 5 18),
    (0b1000_101_01001_01101_001_10010_1011011#32, .slideupVx 5 9 13 18),
    (0b1000_101_01001_01101_010_10010_1011011#32, .slideupVi 5 9 13 18),
    (0b1000_101_01001_01101_100_10010_1011011#32, .slideupVn 5 9 13 18),
    (0b1001_101_01001_01101_001_10010_1011011#32, .slidednVx 5 9 13 18),
    (0b1001_101_01001_01101_010_10010_1011011#32, .slidednVi 5 9 13 18),
    (0b1001_101_01001_01101_100_10010_1011011#32, .slidednVn 5 9 13 18),
    (0b1010_101_01001_01101_000_10010_1011011#32, .vgatherVv 5 9 13 18),
    (0b1010_101_01001_01101_001_10010_1011011#32, .vgatherVx 5 9 13 18),
    (0b1011_101_01001_00000_000_10010_1011011#32, .vcompress 5 9 18),
    (0b1100_101_01001_00000_000_10010_1011011#32, .vexpand 5 9 18),
    (0b1101_101_01001_01101_000_10010_1011011#32, .vlut 5 9 13 18),
    (0b1110_101_01001_01101_001_10010_1011011#32, .vunpack 5 9 13 18),
    (0b1111_101_01001_01101_001_10010_1011011#32, .vpack 5 9 13 18),
    (0b0000_101_01001_01101_110_10010_1011011#32, .redsum 5 9 13 18),
    (0b0001_101_01001_01101_110_10010_1011011#32, .redmin 5 9 13 18),
    (0b0010_101_01001_01101_110_10010_1011011#32, .redmax 5 9 13 18),
    (0b0011_101_01001_01101_110_10010_1011011#32, .redminz 5 9 13 18),
    (0b0100_101_01001_01101_110_10010_1011011#32, .redmaxz 5 9 13 18),
    (0b0101_101_01001_01101_110_10010_1011011#32, .redand 5 9 13 18),
    (0b0110_101_01001_01101_110_10010_1011011#32, .redor 5 9 13 18),
    (0b0111_101_01001_01101_110_10010_1011011#32, .redxor 5 9 13 18),
    (0b1000_101_01001_01101_110_10010_1011011#32, .fredo 5 9 13 18),
    (0b1001_101_01001_01101_110_10010_1011011#32, .fredt 5 9 13 18),
    (0b1010_101_01001_01101_110_10010_1011011#32, .fredmax 5 9 13 18),
    (0b1011_101_01001_01101_110_10010_1011011#32, .fredmin 5 9 13 18),
    (0b1100_000_01001_01101_111_10010_1011011#32, .mvxs 9 13 18),
    (0b1101_000_00000_01101_111_10010_1011011#32, .mvsx 13 18),
    (0b1110_000_00000_01101_111_10010_1011011#32, .vbcast 13 18),
    (0b1111_101_01001_00000_110_10010_1011011#32, .vrev 5 9 18)] = true := by decide +kernel

theorem test_decode_va_0 : wordsAgree [
    (0b0000_000_01001_01101_000_10010_1111011#32, .aaddVv 9 13 18),
    (0b0000_000_01001_01101_001_10010_1111011#32, .aaddVx 9 13 18),
    (0b0000_000_01001_01101_010_10010_1111011#32, .aaddVi 9 13 18),
    (0b0001_000_01001_01101_000_10010_1111011#32, .asubVv 9 13 18),
    (0b0001_000_01001_01101_001_10010_1111011#32, .asubVx 9 13 18),
    (0b0001_000_01001_01101_010_10010_1111011#32, .asubVi 9 13 18),
    (0b0010_000_01001_01101_001_10010_1111011#32, .adiffVx 9 13 18),
    (0b0010_000_01001_01101_010_10010_1111011#32, .adiffVi 9 13 18),
    (0b0011_000_01001_01101_001_10010_1111011#32, .amulVx 9 13 18),
    (0b0011_000_01001_01101_010_10010_1111011#32, .amulVi 9 13 18),
    (0b0100_000_01001_01101_001_10010_1111011#32, .ascaleVx 9 13 18),
    (0b0100_000_01001_01101_010_10010_1111011#32, .ascaleVi 9 13 18),
    (0b0101_000_01001_01000_000_10010_1111011#32, .aconv 9 .fp64 18),
    (0b0110_000_01001_01000_000_10010_1111011#32, .afrom 9 .fp64 18),
    (0b0111_000_01001_01101_001_10010_1111011#32, .areanchorVx 9 13 18),
    (0b0111_000_01001_00011_010_10010_1111011#32, .areanchorVi 9 3 18),
    (0b1000_000_01001_00000_000_10010_1111011#32, .ared 9 18),
    (0b1001_000_01001_00000_000_10010_1111011#32, .aget 9 18),
    (0b1010_000_01001_00000_000_10010_1111011#32, .aput 9 18),
    (0b1011_000_01001_00000_000_10010_1111011#32, .aqset 9 18),
    (0b1100_000_00000_00000_000_00001_1111011#32, .mzero 1),
    (0b1101_000_01001_01101_000_00001_1111011#32, .mpa 9 13 1),
    (0b1110_000_01001_01101_001_00001_1111011#32, .mmvTv 9 13 1),
    (0b1110_000_01001_01101_001_10001_1111011#32, .mmvVt 9 13 1),
    (0b1111_000_01001_01101_000_00000_1111011#32, .mscale 9 13),
    (0b0000_000_01001_01101_110_00001_1111011#32, .mpaI 9 13 1),
    (0b0001_000_01001_01101_110_00001_1111011#32, .mpaH 9 13 1),
    (0b0010_000_01001_01101_110_00001_1111011#32, .mlra 9 13 1),
    (0b0011_000_00001_01101_111_10010_1111011#32, .mcvt 1 13 18),
    (0b0100_000_01001_01101_110_10011_1111011#32, .acmp 9 13 .lt 3)] = true := by decide +kernel

theorem test_decode_vm_0 : wordsAgree [
    (0b0000_101_00000_01101_000_10010_1010111#32, .vld 5 13 18),
    (0b0000_101_01001_01101_001_10010_1010111#32, .vldS 5 9 13 18),
    (0b0000_101_01001_01101_010_10010_1010111#32, .vldX 5 9 13 18),
    (0b0000_101_01001_01101_011_10010_1010111#32, .vldB 5 9 13 18),
    (0b0000_101_00000_01101_101_10010_1010111#32, .vldW 5 13 18),
    (0b0001_101_00000_01101_000_10010_1010111#32, .vst 5 13 18),
    (0b0001_101_01001_01101_001_10010_1010111#32, .vstS 5 9 13 18),
    (0b0001_101_01001_01101_010_10010_1010111#32, .vstX 5 9 13 18),
    (0b0001_101_01001_01101_011_10010_1010111#32, .vstB 5 9 13 18),
    (0b0010_101_00000_01101_000_00010_1010111#32, .vldQ 5 13 2),
    (0b0010_101_01001_01101_001_00010_1010111#32, .vldQS 5 9 13 2),
    (0b0010_101_01001_01101_010_00010_1010111#32, .vldQX 5 9 13 2),
    (0b0011_101_01001_01101_001_10010_1010111#32, .vldoS 5 9 13 18),
    (0b0011_101_01001_01101_010_10010_1010111#32, .vldoX 5 9 13 18),
    (0b0100_101_01001_01101_001_10010_1010111#32, .vstoS 5 9 13 18),
    (0b0100_101_01001_01101_010_10010_1010111#32, .vstoX 5 9 13 18),
    (0b0101_101_01001_01101_011_10010_1010111#32, .vamo 5 9 13 .max 18),
    (0b0110_101_01001_01101_011_10010_1010111#32, .vupdO 5 9 13 .max 18),
    (0b0111_101_00000_01101_000_00000_1010111#32, .vpf 5 13),
    (0b0111_101_01001_01101_001_00000_1010111#32, .vpfS 5 9 13),
    (0b0111_101_01001_01101_010_00000_1010111#32, .vpfX 5 9 13),
    (0b1000_000_01001_01101_000_10010_1010111#32, .ald 9 13 18),
    (0b1001_000_01001_01101_000_10010_1010111#32, .aldC 9 13 18),
    (0b1010_000_01001_01101_000_10010_1010111#32, .ast 9 13 18),
    (0b1011_000_01001_01101_000_00001_1010111#32, .mld 9 13 1),
    (0b1100_000_01001_01101_000_00001_1010111#32, .mst 9 13 1),
    (0b1101_000_01001_01101_000_00011_1010111#32, .vcpy 9 13 1 1),
    (0b1110_000_01001_01101_000_00000_1010111#32, .vfill 9 13),
    (0b1111_000_01001_01101_000_10110_1010111#32, .nm 9 13 22)] = true := by decide +kernel

theorem test_decode_vc_0 : wordsAgree [
    (0b0010_101_00101_01101_000_10010_1110111#32, .setl 677 13 18),
    (0b0000_000_01001_01101_001_10010_1110111#32, .setlR 9 13 18),
    (0b0000_011_00000_00000_010_00000_1110111#32, .fenceSv .die),
    (0b0001_011_00000_00000_010_00000_1110111#32, .fenceVs .die),
    (0b0010_011_00000_00000_010_00000_1110111#32, .fenceVv .die),
    (0b0011_011_00000_00000_010_00000_1110111#32, .fenceNm .die),
    (0b0100_011_00000_00000_010_00000_1110111#32, .fenceAlias .die),
    (0b0101_011_00000_00000_010_00000_1110111#32, .fenceRel .die),
    (0b0110_011_00000_00000_010_00000_1110111#32, .fenceAcq .die),
    (0b0111_011_00000_00000_010_00000_1110111#32, .fenceAr .die),
    (0b1000_001_01100_00000_010_00000_1110111#32, .drain 44),
    (0b0000_000_00000_01101_011_00000_1110111#32, .barArrive 13),
    (0b0001_000_00000_01101_011_00000_1110111#32, .barWait 13),
    (0b0010_000_00000_01101_011_00000_1110111#32, .barSync 13),
    (0b0011_000_01001_01101_011_00000_1110111#32, .barInit 9 13),
    (0b0100_000_01001_01101_011_10010_1110111#32, .waitMem 9 13 18),
    (0b0101_000_00000_01101_011_00000_1110111#32, .waitTime 13),
    (0b0110_000_00000_00000_011_00000_1110111#32, .yield),
    (0b0111_000_00000_00000_011_00000_1110111#32, .halt),
    (0b0000_000_01001_01101_100_00000_1110111#32, .qpush 9 13),
    (0b0001_000_00000_01101_100_10010_1110111#32, .qpop 13 18),
    (0b0001_001_00000_01101_100_10010_1110111#32, .qpopT 13 18),
    (0b0010_101_00000_00000_100_00000_1110111#32, .qany 5),
    (0b0011_101_00000_00000_100_00000_1110111#32, .qall 5),
    (0b0100_000_01001_01101_100_10010_1110111#32, .launch 9 13 18),
    (0b0101_000_00000_01101_100_10010_1110111#32, .qlen 13 18),
    (0b0000_000_00000_01101_101_00000_1110111#32, .vsave 13),
    (0b0001_000_00000_01101_101_00000_1110111#32, .vrest 13),
    (0b0010_000_00000_00000_101_00000_1110111#32, .vret),
    (0b0011_000_00000_00000_101_00000_1110111#32, .aret),
    (0b0100_000_01001_01101_101_00000_1110111#32, .reclaim 9 13),
    (0b0101_000_01001_01101_101_10010_1110111#32, .vprobe 9 13 18),
    (0b0110_000_00000_00000_101_00000_1110111#32, .kend)] = true := by decide +kernel

theorem test_decode_scalar_0 : wordsAgree [
    (0b00010010001101000101_01010_0110111#32, .scalarBaseInstruction (.lui 10 0x12345)),
    (0b10000000000000000000_01011_0010111#32, .scalarBaseInstruction (.auipc 11 0x80000)),
    (0b1_0000000001_1_00000100_00001_1101111#32, .scalarBaseInstruction (.jal 1 0x82401)),
    (0b1_1111111110_1_11111111_00000_1101111#32, .scalarBaseInstruction (.jal 0 0xFFFFE)),
    (0b111111111000_00101_000_00001_1100111#32, .scalarBaseInstruction (.jalr 1 5 0xFF8)),
    (0b0_000000_01011_01010_000_1000_0_1100011#32, .scalarBaseInstruction (.branch .eq 10 11 0x008)),
    (0b1_111111_01011_01010_001_1110_1_1100011#32, .scalarBaseInstruction (.branch .ne 10 11 0xFFE)),
    (0b0_000000_01011_01010_100_0001_1_1100011#32, .scalarBaseInstruction (.branch .lt 10 11 0x401)),
    (0b1_000000_01011_01010_101_0000_0_1100011#32, .scalarBaseInstruction (.branch .ge 10 11 0x800)),
    (0b0_111111_01011_01010_110_1111_0_1100011#32, .scalarBaseInstruction (.branch .ltu 10 11 0x3FF)),
    (0b0_000000_01011_01010_111_0001_0_1100011#32, .scalarBaseInstruction (.branch .geu 10 11 0x001)),
    (0b111111111000_01010_000_01011_0000011#32, .scalarBaseInstruction (.load .lb 11 10 0xFF8)),
    (0b111111111000_01010_001_01011_0000011#32, .scalarBaseInstruction (.load .lh 11 10 0xFF8)),
    (0b111111111000_01010_010_01011_0000011#32, .scalarBaseInstruction (.load .lw 11 10 0xFF8)),
    (0b111111111000_01010_011_01011_0000011#32, .scalarBaseInstruction (.load .ld 11 10 0xFF8)),
    (0b111111111000_01010_100_01011_0000011#32, .scalarBaseInstruction (.load .lbu 11 10 0xFF8)),
    (0b111111111000_01010_101_01011_0000011#32, .scalarBaseInstruction (.load .lhu 11 10 0xFF8)),
    (0b111111111000_01010_110_01011_0000011#32, .scalarBaseInstruction (.load .lwu 11 10 0xFF8)),
    (0b1111111_01011_01010_000_01000_0100011#32, .scalarBaseInstruction (.store .sb 10 11 0xFE8)),
    (0b1111111_01011_01010_001_01000_0100011#32, .scalarBaseInstruction (.store .sh 10 11 0xFE8)),
    (0b1111111_01011_01010_010_01000_0100011#32, .scalarBaseInstruction (.store .sw 10 11 0xFE8)),
    (0b1111111_01011_01010_011_01000_0100011#32, .scalarBaseInstruction (.store .sd 10 11 0xFE8)),
    (0b011110100101_00110_000_00101_0010011#32, .scalarBaseInstruction (.opImm .addi 5 6 0x7A5)),
    (0b011110100101_00110_010_00101_0010011#32, .scalarBaseInstruction (.opImm .slti 5 6 0x7A5)),
    (0b011110100101_00110_011_00101_0010011#32, .scalarBaseInstruction (.opImm .sltiu 5 6 0x7A5)),
    (0b011110100101_00110_100_00101_0010011#32, .scalarBaseInstruction (.opImm .xori 5 6 0x7A5)),
    (0b011110100101_00110_110_00101_0010011#32, .scalarBaseInstruction (.opImm .ori 5 6 0x7A5)),
    (0b011110100101_00110_111_00101_0010011#32, .scalarBaseInstruction (.opImm .andi 5 6 0x7A5)),
    (0b111111111111_00110_000_00101_0011011#32, .scalarBaseInstruction (.addiw 5 6 0xFFF)),
    (0b000000100101_00110_001_00101_0010011#32, .scalarBaseInstruction (.shiftImm .slli 5 6 37)),
    (0b000000100101_00110_101_00101_0010011#32, .scalarBaseInstruction (.shiftImm .srli 5 6 37)),
    (0b010000100101_00110_101_00101_0010011#32, .scalarBaseInstruction (.shiftImm .srai 5 6 37)),
    (0b011000100101_00110_101_00101_0010011#32, .scalarBaseInstruction (.shiftImm .rori 5 6 37)),
    (0b000010100101_00110_001_00101_0011011#32, .scalarBaseInstruction (.shiftImm .slliUw 5 6 37)),
    (0b000000010101_00110_001_00101_0011011#32, .scalarBaseInstruction (.shiftImmW .slliw 5 6 21)),
    (0b000000010101_00110_101_00101_0011011#32, .scalarBaseInstruction (.shiftImmW .srliw 5 6 21)),
    (0b010000010101_00110_101_00101_0011011#32, .scalarBaseInstruction (.shiftImmW .sraiw 5 6 21)),
    (0b011000010101_00110_101_00101_0011011#32, .scalarBaseInstruction (.shiftImmW .roriw 5 6 21)),
    (0b0000000_00111_00110_000_00101_0110011#32, .scalarBaseInstruction (.op .add 5 6 7)),
    (0b0100000_00111_00110_000_00101_0110011#32, .scalarBaseInstruction (.op .sub 5 6 7))] = true := by decide +kernel

theorem test_decode_scalar_1 : wordsAgree [
    (0b0000000_00111_00110_001_00101_0110011#32, .scalarBaseInstruction (.op .sll 5 6 7)),
    (0b0000000_00111_00110_010_00101_0110011#32, .scalarBaseInstruction (.op .slt 5 6 7)),
    (0b0000000_00111_00110_011_00101_0110011#32, .scalarBaseInstruction (.op .sltu 5 6 7)),
    (0b0000000_00111_00110_100_00101_0110011#32, .scalarBaseInstruction (.op .xor 5 6 7)),
    (0b0000000_00111_00110_101_00101_0110011#32, .scalarBaseInstruction (.op .srl 5 6 7)),
    (0b0100000_00111_00110_101_00101_0110011#32, .scalarBaseInstruction (.op .sra 5 6 7)),
    (0b0000000_00111_00110_110_00101_0110011#32, .scalarBaseInstruction (.op .or 5 6 7)),
    (0b0000000_00111_00110_111_00101_0110011#32, .scalarBaseInstruction (.op .and 5 6 7)),
    (0b0000001_00111_00110_000_00101_0110011#32, .scalarBaseInstruction (.op .mul 5 6 7)),
    (0b0000001_00111_00110_001_00101_0110011#32, .scalarBaseInstruction (.op .mulh 5 6 7)),
    (0b0000001_00111_00110_010_00101_0110011#32, .scalarBaseInstruction (.op .mulhsu 5 6 7)),
    (0b0000001_00111_00110_011_00101_0110011#32, .scalarBaseInstruction (.op .mulhu 5 6 7)),
    (0b0000001_00111_00110_100_00101_0110011#32, .scalarBaseInstruction (.op .div 5 6 7)),
    (0b0000001_00111_00110_101_00101_0110011#32, .scalarBaseInstruction (.op .divu 5 6 7)),
    (0b0000001_00111_00110_110_00101_0110011#32, .scalarBaseInstruction (.op .rem 5 6 7)),
    (0b0000001_00111_00110_111_00101_0110011#32, .scalarBaseInstruction (.op .remu 5 6 7)),
    (0b0010000_00111_00110_010_00101_0110011#32, .scalarBaseInstruction (.op .sh1add 5 6 7)),
    (0b0010000_00111_00110_100_00101_0110011#32, .scalarBaseInstruction (.op .sh2add 5 6 7)),
    (0b0010000_00111_00110_110_00101_0110011#32, .scalarBaseInstruction (.op .sh3add 5 6 7)),
    (0b0100000_00111_00110_111_00101_0110011#32, .scalarBaseInstruction (.op .andn 5 6 7)),
    (0b0100000_00111_00110_110_00101_0110011#32, .scalarBaseInstruction (.op .orn 5 6 7)),
    (0b0100000_00111_00110_100_00101_0110011#32, .scalarBaseInstruction (.op .xnor 5 6 7)),
    (0b0000101_00111_00110_110_00101_0110011#32, .scalarBaseInstruction (.op .max 5 6 7)),
    (0b0000101_00111_00110_111_00101_0110011#32, .scalarBaseInstruction (.op .maxu 5 6 7)),
    (0b0000101_00111_00110_100_00101_0110011#32, .scalarBaseInstruction (.op .min 5 6 7)),
    (0b0000101_00111_00110_101_00101_0110011#32, .scalarBaseInstruction (.op .minu 5 6 7)),
    (0b0110000_00111_00110_001_00101_0110011#32, .scalarBaseInstruction (.op .rol 5 6 7)),
    (0b0110000_00111_00110_101_00101_0110011#32, .scalarBaseInstruction (.op .ror 5 6 7)),
    (0b0000111_00111_00110_101_00101_0110011#32, .scalarBaseInstruction (.op .czeroEqz 5 6 7)),
    (0b0000111_00111_00110_111_00101_0110011#32, .scalarBaseInstruction (.op .czeroNez 5 6 7)),
    (0b0000000_00111_00110_000_00101_0111011#32, .scalarBaseInstruction (.opW .addw 5 6 7)),
    (0b0100000_00111_00110_000_00101_0111011#32, .scalarBaseInstruction (.opW .subw 5 6 7)),
    (0b0000000_00111_00110_001_00101_0111011#32, .scalarBaseInstruction (.opW .sllw 5 6 7)),
    (0b0000000_00111_00110_101_00101_0111011#32, .scalarBaseInstruction (.opW .srlw 5 6 7)),
    (0b0100000_00111_00110_101_00101_0111011#32, .scalarBaseInstruction (.opW .sraw 5 6 7)),
    (0b0000001_00111_00110_000_00101_0111011#32, .scalarBaseInstruction (.opW .mulw 5 6 7)),
    (0b0000001_00111_00110_100_00101_0111011#32, .scalarBaseInstruction (.opW .divw 5 6 7)),
    (0b0000001_00111_00110_101_00101_0111011#32, .scalarBaseInstruction (.opW .divuw 5 6 7)),
    (0b0000001_00111_00110_110_00101_0111011#32, .scalarBaseInstruction (.opW .remw 5 6 7)),
    (0b0000001_00111_00110_111_00101_0111011#32, .scalarBaseInstruction (.opW .remuw 5 6 7))] = true := by decide +kernel

theorem test_decode_scalar_2 : wordsAgree [
    (0b0000100_00111_00110_000_00101_0111011#32, .scalarBaseInstruction (.opW .addUw 5 6 7)),
    (0b0010000_00111_00110_010_00101_0111011#32, .scalarBaseInstruction (.opW .sh1addUw 5 6 7)),
    (0b0010000_00111_00110_100_00101_0111011#32, .scalarBaseInstruction (.opW .sh2addUw 5 6 7)),
    (0b0010000_00111_00110_110_00101_0111011#32, .scalarBaseInstruction (.opW .sh3addUw 5 6 7)),
    (0b0110000_00111_00110_001_00101_0111011#32, .scalarBaseInstruction (.opW .rolw 5 6 7)),
    (0b0110000_00111_00110_101_00101_0111011#32, .scalarBaseInstruction (.opW .rorw 5 6 7)),
    (0b011000000000_00110_001_00101_0010011#32, .scalarBaseInstruction (.unary .clz 5 6)),
    (0b011000000001_00110_001_00101_0010011#32, .scalarBaseInstruction (.unary .ctz 5 6)),
    (0b011000000010_00110_001_00101_0010011#32, .scalarBaseInstruction (.unary .cpop 5 6)),
    (0b011000000100_00110_001_00101_0010011#32, .scalarBaseInstruction (.unary .sextB 5 6)),
    (0b011000000101_00110_001_00101_0010011#32, .scalarBaseInstruction (.unary .sextH 5 6)),
    (0b001010000111_00110_101_00101_0010011#32, .scalarBaseInstruction (.unary .orcB 5 6)),
    (0b011010111000_00110_101_00101_0010011#32, .scalarBaseInstruction (.unary .rev8 5 6)),
    (0b011000000000_00110_001_00101_0011011#32, .scalarBaseInstruction (.unary .clzw 5 6)),
    (0b011000000001_00110_001_00101_0011011#32, .scalarBaseInstruction (.unary .ctzw 5 6)),
    (0b011000000010_00110_001_00101_0011011#32, .scalarBaseInstruction (.unary .cpopw 5 6)),
    (0b000010000000_00110_100_00101_0111011#32, .scalarBaseInstruction (.unary .zextH 5 6)),
    (0b00001_0_0_01100_01011_010_01010_0101111#32, .scalarBaseInstruction (.amo .swap false false false 10 11 12)),
    (0b00000_0_0_01100_01011_011_01010_0101111#32, .scalarBaseInstruction (.amo .add true false false 10 11 12)),
    (0b00100_1_0_01100_01011_010_01010_0101111#32, .scalarBaseInstruction (.amo .xor false true false 10 11 12)),
    (0b01100_1_0_01100_01011_011_01010_0101111#32, .scalarBaseInstruction (.amo .and true true false 10 11 12)),
    (0b01000_0_1_01100_01011_010_01010_0101111#32, .scalarBaseInstruction (.amo .or false false true 10 11 12)),
    (0b10000_0_1_01100_01011_011_01010_0101111#32, .scalarBaseInstruction (.amo .min true false true 10 11 12)),
    (0b10100_1_1_01100_01011_010_01010_0101111#32, .scalarBaseInstruction (.amo .max false true true 10 11 12)),
    (0b11000_1_1_01100_01011_011_01010_0101111#32, .scalarBaseInstruction (.amo .minu true true true 10 11 12)),
    (0b11100_0_0_01100_01011_010_01010_0101111#32, .scalarBaseInstruction (.amo .maxu false false false 10 11 12)),
    (0b000000010000_01010_010_00011_0000111#32, .scalarBaseInstruction (.fload false 3 10 16)),
    (0b000000010000_01010_011_00011_0000111#32, .scalarBaseInstruction (.fload true 3 10 16)),
    (0b1111111_00011_01010_010_01000_0100111#32, .scalarBaseInstruction (.fstore false 10 3 0xFE8)),
    (0b1111111_00011_01010_011_01000_0100111#32, .scalarBaseInstruction (.fstore true 10 3 0xFE8)),
    (0b0000000_00011_00010_000_00001_1010011#32, .scalarBaseInstruction (.farith .fadd false .rne 1 2 3)),
    (0b0000101_00011_00010_001_00001_1010011#32, .scalarBaseInstruction (.farith .fsub true .rtz 1 2 3)),
    (0b0001000_00011_00010_100_00001_1010011#32, .scalarBaseInstruction (.farith .fmul false .rmm 1 2 3)),
    (0b0001101_00011_00010_111_00001_1010011#32, .scalarBaseInstruction (.farith .fdiv true .dyn 1 2 3)),
    (0b0101101_00000_00010_010_00001_1010011#32, .scalarBaseInstruction (.fsqrt true .rdn 1 2)),
    (0b00100_00_00011_00010_011_00001_1000011#32, .scalarBaseInstruction (.fma .fmadd false .rup 1 2 3 4)),
    (0b00100_01_00011_00010_011_00001_1000111#32, .scalarBaseInstruction (.fma .fmsub true .rup 1 2 3 4)),
    (0b00100_00_00011_00010_011_00001_1001011#32, .scalarBaseInstruction (.fma .fnmsub false .rup 1 2 3 4)),
    (0b00100_01_00011_00010_011_00001_1001111#32, .scalarBaseInstruction (.fma .fnmadd true .rup 1 2 3 4)),
    (0b0010000_00011_00010_000_00001_1010011#32, .scalarBaseInstruction (.fpair .fsgnj false 1 2 3))] = true := by decide +kernel

theorem test_decode_scalar_3 : wordsAgree [
    (0b0010001_00011_00010_001_00001_1010011#32, .scalarBaseInstruction (.fpair .fsgnjn true 1 2 3)),
    (0b0010000_00011_00010_010_00001_1010011#32, .scalarBaseInstruction (.fpair .fsgnjx false 1 2 3)),
    (0b0010101_00011_00010_000_00001_1010011#32, .scalarBaseInstruction (.fpair .fmin true 1 2 3)),
    (0b0010100_00011_00010_001_00001_1010011#32, .scalarBaseInstruction (.fpair .fmax false 1 2 3)),
    (0b1010000_00011_00010_000_00001_1010011#32, .scalarBaseInstruction (.fcmp .fle false 1 2 3)),
    (0b1010001_00011_00010_001_00001_1010011#32, .scalarBaseInstruction (.fcmp .flt true 1 2 3)),
    (0b1010000_00011_00010_010_00001_1010011#32, .scalarBaseInstruction (.fcmp .feq false 1 2 3)),
    (0b1110001_00000_00010_001_00001_1010011#32, .scalarBaseInstruction (.fclass true 1 2)),
    (0b1100000_00000_00010_001_00001_1010011#32, .scalarBaseInstruction (.fcvtToInt .w false .rtz 1 2)),
    (0b1101000_00000_00010_111_00001_1010011#32, .scalarBaseInstruction (.fcvtFromInt .w false .dyn 1 2)),
    (0b1100001_00001_00010_001_00001_1010011#32, .scalarBaseInstruction (.fcvtToInt .wu true .rtz 1 2)),
    (0b1101001_00001_00010_111_00001_1010011#32, .scalarBaseInstruction (.fcvtFromInt .wu true .dyn 1 2)),
    (0b1100000_00010_00010_001_00001_1010011#32, .scalarBaseInstruction (.fcvtToInt .l false .rtz 1 2)),
    (0b1101000_00010_00010_111_00001_1010011#32, .scalarBaseInstruction (.fcvtFromInt .l false .dyn 1 2)),
    (0b1100001_00011_00010_001_00001_1010011#32, .scalarBaseInstruction (.fcvtToInt .lu true .rtz 1 2)),
    (0b1101001_00011_00010_111_00001_1010011#32, .scalarBaseInstruction (.fcvtFromInt .lu true .dyn 1 2)),
    (0b0100000_00001_00010_111_00001_1010011#32, .scalarBaseInstruction (.fcvtSD .dyn 1 2)),
    (0b0100001_00000_00010_000_00001_1010011#32, .scalarBaseInstruction (.fcvtDS .rne 1 2)),
    (0b1110000_00000_00010_000_00001_1010011#32, .scalarBaseInstruction (.fmvToX false 1 2)),
    (0b1110001_00000_00010_000_00001_1010011#32, .scalarBaseInstruction (.fmvToX true 1 2)),
    (0b1111000_00000_00010_000_00001_1010011#32, .scalarBaseInstruction (.fmvFromX false 1 2)),
    (0b1111001_00000_00010_000_00001_1010011#32, .scalarBaseInstruction (.fmvFromX true 1 2)),
    (0b100000000000_00000_010_00101_1110011#32, .scalarBaseInstruction (.csrRead false false 5 0x800)),
    (0b100000000000_00000_111_00101_1110011#32, .scalarBaseInstruction (.csrRead true true 5 0x800)),
    (0b0011000_00010_00000_000_00000_1110011#32, .scalarBaseInstruction .mret),
    (0b0001000_00010_00000_000_00000_1110011#32, .scalarBaseInstruction .sret),
    (0b100000110011_00010_000_00011_0001111#32, .fence 8 3 3 2 3),
    (0b000000000000_00000_001_00000_0001111#32, .fenceI 0 0 0),
    (0b0001001_01011_01010_000_00000_1110011#32, .sfenceVma 10 11),
    (0b000100000101_00000_000_00000_1110011#32, .wfi),
    (0b000000000000_00000_000_00000_1110011#32, .ecall),
    (0b000000000001_00000_000_00000_1110011#32, .ebreak),
    (0b00010_1_0_00000_01011_011_01010_0101111#32, .lrSc (.lr true true false 10 11)),
    (0b00011_0_1_01100_01011_010_01010_0101111#32, .lrSc (.sc false false true 10 11 12)),
    (0b100000000001_01010_001_00000_1110011#32, .csrWrite .rw 0 0x801 10),
    (0b100000000010_01010_010_00011_1110011#32, .csrWrite .rs 3 0x802 10),
    (0b100000000011_01010_011_00011_1110011#32, .csrWrite .rc 3 0x803 10),
    (0b100000000100_10001_101_00011_1110011#32, .csrWrite .rwi 3 0x804 17),
    (0b100000000101_10001_110_00011_1110011#32, .csrWrite .rsi 3 0x805 17),
    (0b100000000110_10001_111_00011_1110011#32, .csrWrite .rci 3 0x806 17)] = true := by decide +kernel

theorem test_decode_scalar_4 : wordsAgree [
    (0b011111000000_01001_010_00011_1110011#32, .pwrgrantWrite .rs 3 9),
    (0b011111000001_01001_011_00011_1110011#32, .chainpermWrite .rc 3 9),
    (0b011111000010_01001_001_00000_1110011#32, .busyctlWrite .rw 0 9),
    (0b010111000100_01001_101_00011_1110011#32, .vdeskWrite .rwi 3 9),
    (0b000110000000_01001_001_00011_1110011#32, .satpWrite .rw 3 9),
    (0b101100000011_01001_001_00011_1110011#32, .mhpmcounterWrite .rw 3 0 9),
    (0b101100010010_01001_010_00011_1110011#32, .mhpmcounterWrite .rs 3 15 9),
    (0b001100100011_01001_001_00011_1110011#32, .mhpmeventWrite .rw 3 0 9),
    (0b001100110010_01001_110_00011_1110011#32, .mhpmeventWrite .rsi 3 15 9)] = true := by decide +kernel

/-! Ill-formed terms: one for each check of `Instr.wf`, which the check refuses; beside each a well-formed neighbour. -/

theorem test_wf_immediates :
    ((Instr.slideupVi 0 1 16 2).wf, (Instr.slideupVi 0 1 15 2).wf) = (false, true) ∧
    ((Instr.slidednVi 0 1 31 2).wf, (Instr.slidednVi 0 1 0 2).wf) = (false, true) ∧
    ((Instr.adiffVi 1 16 2).wf, (Instr.adiffVi 1 15 2).wf) = (false, true) ∧
    ((Instr.drain 0).wf, (Instr.drain 1).wf) = (false, true) := by decide +kernel

theorem test_wf_csr_writes :
    (Instr.csrWrite .rs 1 0x801 0).wf = false ∧ (Instr.csrWrite .rc 1 0x801 0).wf = false ∧ (Instr.csrWrite .rsi 1 0x801 0).wf = false ∧
    (Instr.csrWrite .rci 1 0x801 0).wf = false ∧ (Instr.csrWrite .rw 1 0x801 0).wf = true ∧ (Instr.csrWrite .rs 1 0x801 1).wf = true ∧
    (Instr.csrWrite .rw 1 0x7C0 1).wf = false ∧ (Instr.csrWrite .rw 1 0x7C1 1).wf = false ∧ (Instr.csrWrite .rw 1 0x7C2 1).wf = false ∧
    (Instr.csrWrite .rw 1 0x5C4 1).wf = false ∧ (Instr.csrWrite .rw 1 0x180 1).wf = false ∧ (Instr.csrWrite .rw 1 0xB03 1).wf = false ∧
    (Instr.csrWrite .rw 1 0xB12 1).wf = false ∧ (Instr.csrWrite .rw 1 0x323 1).wf = false ∧ (Instr.csrWrite .rw 1 0x332 1).wf = false ∧
    (Instr.csrWrite .rw 1 0xB13 1).wf = true ∧ (Instr.csrWrite .rw 1 0x322 1).wf = true ∧
    (Instr.pwrgrantWrite .rs 0 0).wf = false ∧ (Instr.chainpermWrite .rc 0 0).wf = false ∧ (Instr.busyctlWrite .rsi 0 0).wf = false ∧
    (Instr.vdeskWrite .rci 0 0).wf = false ∧ (Instr.satpWrite .rs 0 0).wf = false ∧ (Instr.mhpmcounterWrite .rs 0 3 0).wf = false ∧
    (Instr.mhpmeventWrite .rs 0 3 0).wf = false ∧ (Instr.satpWrite .rw 0 0).wf = true := by decide +kernel

theorem test_wf_hart_numbers :
    (∀ i ∈ [Instr.grantWindow, .revokeWindow, .viqHeadAged, .microOpIssue, .vectorInstructionComplete, .aldCAttempt, .lineLockRelease,
      .callGraphPrefetch, .sequentialPrefetch, .vectorTrap, .userAnchorDelivery, .interrupt, .hartFatalError, .supervisorTerminate,
      .lqRecordEntersQueue, .pigeonholeValueArrives, .waitMemReread, .waitTimeDeadline],
      ((i 1024).wf, (i 1023).wf) = (false, true)) := by decide +kernel

theorem test_wf_numbers :
    (∀ i ∈ [Instr.viqAdmission, .pinEntriesFree], ((i 128).wf, (i 127).wf) = (false, true)) ∧
    (∀ i ∈ [Instr.launchCheck, .queueHeadAging, .heldSuccessorEntersQueue, fun q => .lqctlWrite q 0, fun q => .lqDoorbell ⟨15, q⟩ 0],
      ((i 64).wf, (i 63).wf) = (false, true)) ∧
    (∀ i ∈ [Instr.gangPlacement, .gangRestore, .cxlRequestIssue, .mapOutVacated, .mapOutLineMove, .phyTrainingComplete true],
      ((i 4).wf, (i 3).wf) = (false, true)) ∧
    (∀ i ∈ [fun s => Instr.stringWindow s ⟨⟨[], 16⟩, ⟨[], 16⟩, ⟨[], 16⟩, ⟨[], 16⟩⟩, .stringStepUp], ((i 32).wf, (i 31).wf) = (false, true)) ∧
    (∀ i ∈ [fun c => Instr.lqDoorbell ⟨c, 0⟩ 0, fun c => .systemCoreMemoryAccess c ⟨0, .load 8⟩, fun c => .assignGranules (.systemCore c) 0 0 0,
      fun c => .releaseGranules (.systemCore c) 0 0, fun c => .setQueueOwner (.systemCore c) 0 0], ((i 16).wf, (i 15).wf) = (false, true)) ∧
    (∀ i ∈ [fun h => Instr.assignGranules (.computeHart h) 0 0 0, fun h => .releaseGranules (.computeHart h) 0 0,
      fun h => .setQueueOwner (.computeHart h) 0 0], ((i 1024).wf, (i 1023).wf) = (false, true)) ∧
    (Instr.arrivalPointerAdvance 128 0 8).wf = false ∧ (Instr.arrivalPointerAdvance 0 64 8).wf = false ∧
    (Instr.arrivalPointerAdvance 127 63 8).wf = true ∧ (Instr.rowActivation 4 0).wf = false ∧ (Instr.rowActivation 0 512).wf = false ∧
    (Instr.rowActivation 3 511).wf = true ∧ (Instr.barrierPhaseComplete 0 513).wf = false ∧ (Instr.barrierPhaseComplete 0 512).wf = true ∧
    (Instr.lanePowerGate 128 0).wf = false ∧ (Instr.lanePowerGate 0 16).wf = false ∧ (Instr.lanePowerGate 127 15).wf = true ∧
    (Instr.laneWake 128 0).wf = false ∧ (Instr.laneWake 0 16).wf = false ∧ (Instr.laneWake 127 15).wf = true := by decide +kernel

/-- A plan of a window counts at most 16 cycles and micro-ops with lanes, a length and a width, in each of its four places (R435). -/
theorem test_wf_plans :
    let ok : CorePlan := ⟨[⟨0x7B#32, 0xF#4, 0, 5, 32⟩], 16⟩
    (∀ bad ∈ [(⟨[], 17⟩ : CorePlan), ⟨[⟨0x7B#32, 0#4, 0, 5, 32⟩], 16⟩, ⟨[⟨0x7B#32, 0xF#4, 0, 16385, 32⟩], 16⟩,
        ⟨[⟨0x7B#32, 0xF#4, 0, 5, 12⟩], 16⟩],
      ∀ p ∈ [(⟨bad, ok, ok, ok⟩ : WindowPlans), ⟨ok, bad, ok, ok⟩, ⟨ok, ok, bad, ok⟩, ⟨ok, ok, ok, bad⟩],
        (Instr.stringWindow 0 p).wf = false) ∧
    (Instr.stringWindow 0 ⟨ok, ok, ok, ok⟩).wf = true := by decide +kernel

theorem test_wf_devices :
    (Instr.correctableError 8 0).wf = false ∧ (Instr.correctableError 0 16).wf = false ∧ (Instr.correctableError 7 15).wf = true ∧
    (Instr.layerMapOut 4 0 0).wf = false ∧ (Instr.layerMapOut 0 2 0).wf = false ∧ (Instr.layerMapOut 0 0 16).wf = false ∧
    (Instr.layerMapOut 3 1 15).wf = true ∧ (Instr.shofinRemoteRequest 2048 0 ⟨0, .load 8⟩).wf = false ∧
    (Instr.shofinRemoteRequest 0 256 ⟨0, .load 8⟩).wf = false ∧ (Instr.shofinRemoteRequest 2047 255 ⟨0, .load 8⟩).wf = true ∧
    (Instr.routeDownTimeout 2048).wf = false ∧ (Instr.routeDownTimeout 2047).wf = true ∧ (Instr.shofinRouteLost 2048).wf = false ∧
    (Instr.shofinRouteLost 2047).wf = true ∧ (Instr.shofinRouteRetrained 2048 0).wf = false ∧
    (Instr.shofinRouteRetrained 0 32).wf = false ∧ (Instr.shofinRouteRetrained 2047 31).wf = true ∧
    (Instr.launchFrameReceive (List.replicate 159 0)).wf = false ∧ (Instr.launchFrameReceive (List.replicate 160 0)).wf = true ∧
    (Instr.attestationRequest 256 (List.replicate 32 0)).wf = false ∧ (Instr.attestationRequest 255 (List.replicate 31 0)).wf = false ∧
    (Instr.attestationRequest 255 (List.replicate 32 0)).wf = true := by decide +kernel

/-- A word that is refused. -/
noncomputable def refused (w : InstrWord) : Bool := match decodeWord w with | .ok _ => false | .error _ => true

/-- Words that the encoding tables leave out: all zeros and all ones, kind 5 of major VI, a queue number above 3, a branch of a funct3
without one (R111, R118 to R123). -/
theorem test_decode_refuses :
    ([0#32, 0xFFFFFFFF#32, 0b0000_000_00010_00011_101_00001_0001011#32, 0b0000_000_00010_00100_011_00001_0001011#32,
      0b0000000_00001_00010_010_00000_1100011#32].all refused) = true := by decide +kernel

/-! A hart of a program. `vtype` holds the sew code in bits 2..0, alt in bit 3, the group code in bits 5..4, the block code in bits 8..6
(R167). -/

/-- A U-mode hart of a gang of one hart with every profile, 32 registers and four tiles, at a `vtype` and a `vl`; memory is ready. -/
def machine (vtype vl : Nat) : State :=
  let s := State.reset.withProgram
  { s with memReady := true, hart := { s.hart with vtype := BitVec.ofNat 64 vtype, vl := BitVec.ofNat 32 vl } }

/-- A scalar register given a value. -/
def Sys2Proof.Machine.State.withX (s : State) (r : XReg) (v : Nat) : State := { s with hart := s.hart.setX r (BitVec.ofNat 64 v) }

/-- A scalar floating-point register given a value. -/
def Sys2Proof.Machine.State.withF (s : State) (r : XReg) (v : Nat) : State := { s with hart := s.hart.setF r (BitVec.ofNat 64 v) }

/-- A vector register of shape G given its bits. -/
def Sys2Proof.Machine.State.withV (s : State) (n : Nat) (image : Nat) : State :=
  { s with hart := { s.hart with v := s.hart.v.setIfInBounds n ⟨.g, 0#3, 0#2, 0#64, 0#64, BitVec.ofNat 8192 image, 0#1024⟩ } }

/-- A delivery of zeros at the head of load queue 0. -/
def Sys2Proof.Machine.State.withDelivery (s : State) : State :=
  { s with hart := { s.hart with loadq := s.hart.loadq.set 0 [⟨1, 0, 0⟩] } }

/-! Witnesses: for each statement with hypotheses, a state and operands that meet them. -/

theorem meets_IntegerLaneResult :
    let s := ((machine 0x12 5).withX 16 8).withDelivery
    s.ready 0 = true ∧ s.cfg.w ≠ 6 ∧ groupOk 24 s.cfg.g = true ∧ groupOk 30 s.cfg.g = true ∧
    ∀ r ∈ integerRows 0 24 16 30 0, s.operandOk r.a (s.hart.getX 16) = true := by decide +kernel

theorem meets_IntegerCompareResult :
    let s := ((machine 0x12 5).withX 16 8).withDelivery
    s.ready 0 = true ∧ s.cfg.w ≠ 6 ∧ groupOk 24 s.cfg.g = true ∧
    ∀ r ∈ compareRows 0 24 16 0 3 .lt, s.operandOk r.2.1 (s.hart.getX 16) = true ∧
      (∀ i ∈ s.actives 0, (s.operand r.2.1 (s.hart.getX 16) i).2 = false ∧ (groupSrc s 24 s.cfg.g s.cfg.sew i).2 = false) := by
  decide +kernel

theorem meets_IntegerWidthResult :
    let s := machine 0x13 5
    s.ready 0 = true ∧ s.cfg.w ≠ 6 ∧ s.cfg.w ≠ 64 ∧ groupOk 24 s.cfg.g = true ∧ groupOk 28 (2 * s.cfg.g) = true ∧
    (∀ r ∈ widenRows 0 24 16 28, s.operandOk r.2.1 (s.hart.getX 16) = true) ∧
    (∀ r ∈ widthRows s.cfg 0 24 28 .two, r.ok = true ∧ groupOk 24 r.count = true) := by decide +kernel

theorem meets_FloatLaneResult :
    let s := ((machine 0x13 5).withX 16 8).withDelivery
    s.ready 0 = true ∧ s.cfg.fmt = some .fp16 ∧ 16 ≤ s.cfg.w ∧ groupOk 24 s.cfg.g = true ∧ groupOk 30 s.cfg.g = true ∧
    vectorRounding s.hart.vfrm = some .rne ∧
    ∀ r ∈ floatRows 0 24 16 30 0, s.operandOk r.a (s.hart.floatCaptured r.a 16) = true := by decide +kernel

theorem meets_FloatCompareResult :
    let s := ((machine 0x13 5).withX 16 8).withDelivery
    s.ready 0 = true ∧ s.cfg.fmt = some .fp16 ∧ 16 ≤ s.cfg.w ∧ groupOk 24 s.cfg.g = true ∧
    ∀ r ∈ [AOp.vec 16, .scalar, .queue 0, .named], s.operandOk r (s.hart.floatCaptured r 16) = true ∧
      ∀ i ∈ s.actives 0, (s.floatOperand r .fp16 (s.hart.floatCaptured r 16) i).2 = false ∧
        (groupSrc s 24 s.cfg.g s.cfg.sew i).2 = false := by decide +kernel

/-- The unary instructions and the widening ones at FP16; `fcvt` at e2m3, whose codes reach from 4 to 64 bits (R217). -/
theorem meets_FloatConvertResult :
    (let s := machine 0x13 5
     s.ready 0 = true ∧ s.cfg.fmt = some .fp16 ∧ 16 ≤ s.cfg.w ∧ s.cfg.w ≠ 64 ∧ vectorRounding s.hart.vfrm = some .rne ∧
     groupOk 24 s.cfg.g = true ∧ groupOk 30 s.cfg.g = true ∧ groupOk 28 (2 * s.cfg.g) = true ∧
     (∀ a ∈ [AOp.vec 16, .scalar], s.operandOk a (s.hart.getF 16) = true) ∧
     (∀ c ∈ [CvtCode.toFloat .fp32, .toFloat .bf16, .toFloat .fp64, .toInt, .toUint, .fromInt, .fromUint],
       cvtOk s.cfg .fp16 c = true ∧ groupOk 24 (cvtGroup s.cfg c) = true)) ∧
    (let s := machine 0x02 5
     s.ready 0 = true ∧ s.cfg.fmt = some .e4m3 ∧ cvtOk s.cfg .e4m3 (.toFloat .fp32) = true ∧
     groupOk 24 (cvtGroup s.cfg (.toFloat .fp32)) = true) := by decide +kernel

theorem meets_PermuteResult :
    let s := (machine 0x12 5).withX 8 16
    s.ready 0 = true ∧ groupOk 24 s.cfg.g = true ∧ groupOk 30 s.cfg.g = true ∧
    ∀ r ∈ s.permuteRows 0 24 8 30, r.ok = true := by decide +kernel

theorem meets_MaskLogicResult : (machine 0x12 5).ready 0 = true := by decide +kernel

theorem meets_MaskIndexResult :
    let s := machine 0x15 300
    s.ready 0 = true ∧ s.hart.bq.length < 16 ∧ s.cfg.w ≠ 6 ∧ groupOk 30 s.cfg.g = true := by decide +kernel

theorem meets_PackUnpackResult :
    let s := (machine 0x12 5).withX 8 (8 + 127 * 2 ^ 16 + 2 ^ 32)
    let t := (machine 0x12 5).withX 8 (1 + 0 * 2 ^ 16)
    s.ready 0 = true ∧ t.ready 0 = true ∧ groupOk 24 s.cfg.g = true ∧ groupOk 30 s.cfg.g = true ∧
    (8 ≤ s.cfg.w ∧ 127 < 128 ∧ s.hart.getX 8 = BitVec.ofNat 64 (8 + 127 * 2 ^ 16 + (if true then 2 ^ 32 else 0))) ∧
    t.hart.getX 8 = BitVec.ofNat 64 (1 + 0 * 2 ^ 16 + (if false then 2 ^ 32 else 0)) := by decide +kernel

theorem meets_IntegerReductionResult :
    let s := machine 0x13 5
    s.ready 0 = true ∧ s.cfg.w ≠ 6 ∧ groupOk 24 s.cfg.g = true := by decide +kernel

theorem meets_FloatReductionResult :
    let s := machine 0x14 5
    s.ready 0 = true ∧ s.cfg.fmt = some .fp32 ∧ 16 ≤ s.cfg.w ∧ groupOk 24 s.cfg.g = true ∧
    vectorRounding s.hart.vfrm = some .rne := by decide +kernel

/-- An element of the last register of a group, and a number above every element (R229). -/
theorem meets_MoveResult :
    let s := (machine 0x12 5).withX 8 2047
    let t := (machine 0x12 5).withX 8 2048
    s.ready 0 = true ∧ t.ready 0 = true ∧ groupOk 30 s.cfg.g = true ∧ groupOk 24 s.cfg.g = true ∧ s.hart.bq.length < 16 ∧
    s.cfg.vlmax = 2048 ∧ s.elemPoisoned 24 s.cfg.g s.cfg.sew 2047 = false := by decide +kernel

/-! Anchored fields: one block of 16 cells at 8 bits. -/

/-- Every block of octet `o` given an anchor, a quantum exponent and version 0 (R88, R90). -/
def Sys2Proof.Machine.State.withAnchors (s : State) (o anchor : Nat) (q : Int) : State :=
  { s with hart := { s.hart with w := s.hart.w.setIfInBounds o (Vector.replicate 128 (makeDesc anchor q (geomByte s.cfg.block s.cfg.w) 0)) } }

/-- A field of 16 cells of 8 bits in octet 1, anchored at 1.0 with quantum 2^-4. -/
def field : State := ((machine 0xC2 16).withAnchors 1 0x3FF0000000000000 (-4)).withF 12 0x3FF0000000000000

theorem meets_AnchorResult :
    field.anchorReady = true ∧ field.cfg.blocks = 1 ∧
    ∀ r ∈ field.anchorRows 8 12 10 .fp64 0, r.ok = true ∧ ∀ k, k < field.cfg.blocks → r.fits field k = true := by decide +kernel

theorem meets_AnchorOverflowTrap :
    let s := field.withV 10 0x7F
    s.anchorReady = true ∧
    (∀ r ∈ (s.anchorRows 10 12 8 .fp64 0).take 1, r.ok = true ∧ ∃ k, k < s.cfg.blocks ∧ r.fits s k = false) := by decide +kernel

/-- The delivery of that trap waits for a line of its area that hart 9 holds locked, and for nothing else. -/
theorem meets_AnchorOverflowTrap_area :
    let e : VEntry := ⟨0x180000000#64, 0#32, none, none, none, .user⟩
    let s := field.withV 10 0x7F
    let t : State := { s with hart := { s.hart with vqsave := 0x180010000#64 }, locks := [⟨9, 0x180010000 / 64⟩] }
    t.anchorReady = true ∧ deliveryWait t.dropWork e 7 (.overflow 1#64 0#64) [] = some .lineLock ∧
    deliveryWait s.dropWork e 7 (.overflow 1#64 0#64) [] = none := by decide +kernel

theorem meets_AnchorConvertResult :
    field.anchorReady = true ∧ groupOk 10 field.cfg.g = true ∧ groupOk 12 field.cfg.g = true ∧
    groupOk 8 (floatGroup field.cfg (anchorFormat .fp32)) = true ∧ field.cellsClean 10 = true ∧ field.cellsClean 12 = true := by
  decide +kernel

theorem meets_AnchorMoveResult :
    field.anchorReady = true ∧ groupOk 8 4 = true ∧ groupOk 24 4 = true ∧ groupOk 24 1 = true ∧ groupOk 10 field.cfg.g = true ∧
    field.hart.bq.length < 16 ∧ field.cellsClean 10 = true ∧
    (∀ k, k < field.cfg.blocks → (groupSrc field 24 4 5 k).2 = false ∧ (groupSrc field 24 1 2 k).2 = false) := by decide +kernel

/-! Matrix and quantising instructions. -/

/-- `vrow` given a value. -/
def Sys2Proof.Machine.State.withRows (s : State) (n : Nat) : State := { s with hart := { s.hart with vrow := BitVec.ofNat 32 n } }

/-- `mpa` at e4m3, `mpa.i` at int8, `mpa.h` at fp16, `mlra` at bf16 (R264, R272); the last row and the last column of a tile. -/
theorem meets_MatrixProductResult :
    (let s := (machine 0x32 128).withRows 128
     s.ready 1 = true ∧ s.cfg.block = 0 ∧ groupOk 8 s.cfg.g = true ∧ groupOk 16 s.cfg.g = true ∧ (3 : Nat) < s.hart.ownTiles ∧
     (mpaFormat s.cfg).isSome = true ∧ (mpaIntFormat s.cfg).isSome = true ∧
     ∀ f ∈ (mpaFormat s.cfg).toList ++ (mpaIntFormat s.cfg).toList,
       f.kb * 128 ≤ s.cfg.vlmax ∧ (f.kb - 1) * 128 + min 128 128 ≤ s.cfg.vlmax) ∧
    (let s := (machine 0x33 100).withRows 128
     s.ready 1 = true ∧ (mpaHalfFormat s.cfg).isSome = true ∧
     ∀ f ∈ (mpaHalfFormat s.cfg).toList, f.kb * 128 ≤ s.cfg.vlmax ∧ (f.kb - 1) * 100 + min 100 128 ≤ s.cfg.vlmax) ∧
    (let s := (machine 0x3B 100).withRows 128
     s.ready 4 = true ∧ (mlraFormat s.cfg).isSome = true ∧
     ∀ f ∈ (mlraFormat s.cfg).toList, f.kb * 128 ≤ s.cfg.vlmax ∧ (f.kb - 1) * 100 + min 100 128 ≤ s.cfg.vlmax) ∧
    ((machine 0x32 0).withRows 0).hart.vrow.toNat = 0 := by decide +kernel

/-- A product of the largest size, and a sum of products that cancels. -/
theorem meets_IntegerWindowExact :
    (∀ p ∈ [(16384 : Int), -16384, 16384, 1], p.natAbs ≤ 16384) ∧ windowSum ([(16384 : Int), -16384, 16384, 1].map FVal.ofInt) ≠ none := by
  decide +kernel

theorem meets_MatrixMoveResult :
    let s := ((machine 0x34 128).withRows 128).withX 10 127
    s.atRest = true ∧ (s.profiles s.hart).testBit 1 = true ∧ (3 : Nat) < s.hart.ownTiles ∧ s.ready 1 = true ∧ s.cfg.sew = 4 ∧
    s.cfg.alt = false ∧ s.cfg.block = 0 ∧ groupOk 24 s.cfg.g = true ∧ (s.hart.getX 10).toNat < 128 ∧
    (∀ i, i < s.hart.vrow.toNat → (groupSrc s 10 1 2 i).2 = false) ∧
    (∀ j, j < 128 → (groupSrc s 24 1 2 j).2 = false) := by decide +kernel

/-- Two rows up to the last one, to e4m3 with its scales. -/
theorem meets_MatrixReadResult :
    let s := (machine 0x12 128).withX 10 (126 + 256 * 2)
    let x := (s.hart.getX 10).toNat
    s.ready 1 = true ∧ x < 2 ^ 17 ∧ x.testBit 7 = false ∧ x / 256 % 256 ≠ 0 ∧ groupOk 28 s.cfg.g = true ∧ 28 + s.cfg.g ≤ 31 ∧
    x % 128 + x / 256 % 256 ≤ 128 ∧
    (mcvtTarget s.cfg (x.testBit 16)).any (fun k => k.isNarrow && decide (2 * (k.lengths 128).1 ≤ s.cfg.vlmax) &&
      decide (2 * (k.lengths 128).2 ≤ 64 * s.lanes s.hart)) = true ∧
    (mcvtTarget (machine 0x14 128).cfg false).any (fun k => !k.isNarrow) = true := by decide +kernel

/-- e4m3 in one register, its FP32 group four. -/
theorem meets_QuantizeResult :
    let s := machine 0x02 33
    s.ready 1 = true ∧ s.cfg.sew ≤ 2 ∧ s.cfg.block = 0 ∧ s.cfg.fmt = some .e4m3 ∧ s.cfg.wideGroup ≤ 8 ∧
    groupOk 9 s.cfg.g = true ∧ groupOk 12 s.cfg.wideGroup = true ∧ disjoint 9 s.cfg.g 10 1 = true := by decide +kernel

/-- `vqef` into v9 with its scales in v10 and its errors in v16; `vouts` at fp4 into v9 to v11, its threshold 1.0. -/
theorem meets_ErrorFeedbackResult :
    (let s := machine 0x02 33
     s.ready 1 = true ∧ s.cfg.fmt = some .e4m3 ∧ 9 + s.cfg.g ≤ 31 ∧ groupOk 12 s.cfg.wideGroup = true ∧ groupOk 16 s.cfg.wideGroup = true ∧
     disjoint 9 (s.cfg.g + 1) 16 s.cfg.wideGroup = true) ∧
    (let s := (machine 0x00 33).withF 8 0xFFFFFFFF3F800000
     s.ready 1 = true ∧ s.cfg.fmt = some .fp4 ∧ s.cfg.sew = 0 ∧ s.cfg.g = 1 ∧ groupOk 16 s.cfg.wideGroup = true ∧
     decodeFloat .fp32 (unbox32 (s.hart.getF 8)) = .fin false 0x800000 (-23)) := by decide +kernel

/-! Accesses to memory: the cached aperture at 0x180010000 and the gang scratchpad. -/

/-- The pieces and pages that a probe finds. -/
def found (s : State) (rs : List ProbeReq) : List Probed := rs.map (fun r => passedView s (viewOf s r))

/-- No row of R315 applies, whatever the instruction word: the word is only the trap value of rank 6. -/
theorem probeFailure_word (s : State) (write : Bool) (vs : List ProbeView) (u w : InstrWord)
    (h : (probeFailure s write vs u).isNone = true) : probeFailure s write vs w = none := by
  unfold probeFailure at h ⊢
  dsimp only at h ⊢
  split at h
  · simp at h
  · rename_i g
    rw [if_neg g]
    exact Option.isNone_iff_eq_none.mp h

/-- `Reaches` from checks that can be evaluated. -/
def reachesCheck (s : State) (write : Bool) (rs : List ProbeReq) : Bool :=
  !(probeLocked (rs.map (viewOf s))) && (probeFailure s write (rs.map (viewOf s)) 0).isNone &&
  !(pinsLacking s (commitProbe s rs (found s rs))) &&
  (found s rs).all (fun p => p.pieces.all (fun l => l.all (fun x => (pieceWait s x).isNone)))

theorem reaches_of_check {s : State} {write : Bool} {rs : List ProbeReq} (h : reachesCheck s write rs = true) :
    Reaches s write rs (found s rs) := by
  simp only [reachesCheck, Bool.and_eq_true, Bool.not_eq_true', List.all_eq_true] at h
  obtain ⟨⟨⟨h0, h1⟩, h2⟩, h3⟩ := h
  refine ⟨h0, fun w => ?_, h2, fun p hp l hl x hx => Option.isNone_iff_eq_none.mp (h3 p hp l hl x hx)⟩
  simp only [probe, probeFailure_word s write _ 0 w h1, found, List.map_map]
  rfl

/-- Three elements, at unit and other strides and at an index group of zeros; `vld.w` from the gang scratchpad. -/
def loading : State := ((machine 0x03 3).withX 10 0x180010000).withX 12 0

theorem meets_VectorLoadResult :
    loading.accessReady 0 = true ∧ groupOk 24 loading.cfg.g = true ∧
    (∀ r ∈ loadRows 0 12 10 24, loading.modeOk 0 r.2.1 12 = true) ∧
    (∀ r ∈ (loadRows 0 12 10 24).take 6, reachesCheck loading false [loading.accessReq 0 r.2.1 12 10 false acceptAll] = true) := by
  decide +kernel

/-- The gang of the hart given bank 0 of the scratchpad. -/
def Sys2Proof.Machine.State.withBank (s : State) : State := { s with gangs := s.gangs.map (fun g => { g with banks := [0] }) }

/-- Memory given the bytes of a number, lowest first. -/
def Sys2Proof.Machine.State.withBytes (s : State) (key n v : Nat) : State := { s with mem := memWriteBytes s.mem key (toBytes n v) }

theorem meets_VectorLoadResult_scratchpad :
    let s := (loading.withX 10 (0x38000000000 + 24570)).withBank
    let req := s.accessReq 0 .unit 12 10 false (fun ap _ => ap == .gangScratchpad)
    s.accessReady 0 = true ∧ reachesCheck s false [req] = true ∧
    ∀ p ∈ found s [req], ∀ l ∈ p.pieces, arrived (commitProbe s [req] (found s [req])) l = true := by decide +kernel

theorem meets_QueueLoadResult :
    let s := { loading with hart := { loading.hart with loadq := loading.hart.loadq.set 3 [⟨3, 0, 0⟩] } }
    s.accessReady 0 = true ∧ ((s.hart.loadq[3]).map Delivery.groups).sum + ceilDiv (s.hart.vl.toNat * s.cfg.w) (64 * s.lanes s.hart) ≤
      Config.loadQueueGroups ∧
    (∀ r ∈ queueLoadRows 0 12 10 3, s.modeOk 0 r.2 12 = true ∧ reachesCheck s false [s.accessReq 0 r.2 12 10 false acceptAll] = true) := by
  decide +kernel

theorem meets_VectorStoreResult :
    loading.accessReady 0 = true ∧ groupOk 24 loading.cfg.g = true ∧
    (∀ i ∈ loading.actives 0, (groupSrc loading 24 loading.cfg.g loading.cfg.sew i).2 = false) ∧
    (∀ r ∈ storeRows 0 12 10 24, loading.modeOk 0 r.2 12 = true ∧
      reachesCheck loading true [loading.accessReq 0 r.2 12 10 true acceptAll] = true) := by decide +kernel

theorem meets_StoreBytesResult :
    isControlKey 0x180010000 = false ∧ routeDown loading 0x180010000 = false ∧ isControlKey 0x40000000000 = true ∧
    routeDown { loading with routes := [⟨1, .down⟩] } (2 ^ 54 + 0x1000) = true := by decide +kernel

theorem meets_AtomicResult :
    loading.accessReady 0 = true ∧ groupOk 24 loading.cfg.g = true ∧ loading.modeOk 0 (.indexed 12) 12 = true ∧
    (∀ o ∈ [AtomicOp.add, .fadd, .min, .max, .minz, .maxz, .or, .swap], atomicOk o loading.cfg = true) ∧
    (∀ i ∈ loading.actives 0, (groupSrc loading 24 loading.cfg.g loading.cfg.sew i).2 = false) ∧
    reachesCheck loading true [loading.accessReq 0 (.indexed 12) 12 10 true acceptAtomic] = true := by decide +kernel

/-- Two blocks of 16 cells of 8 bits, their descriptors at x11: a geometry byte of the field, version 0. -/
def fieldAt : State :=
  ((((machine 0xC2 32).withX 10 0x180010000).withX 11 0x180020000).withBytes 0x180020000 16 (geomByte 16 8 * 2 ^ 72)).withBytes
    0x180020010 16 (geomByte 16 8 * 2 ^ 72)

theorem meets_FieldMemoryResult :
    fieldAt.accessReady 2 = true ∧ fieldAt.hart.aldc = none ∧ fieldAt.hart.holdWindow = false ∧ fieldAt.cfg.block ≠ 0 ∧ groupOk 24 fieldAt.cfg.g = true ∧
    fieldAt.cellsClean 24 = true ∧ fieldAt.cfg.blocks = 2 ∧
    reachesCheck fieldAt false (fieldAt.fieldRequests 11 10 false) = true ∧
    reachesCheck fieldAt true (fieldAt.fieldRequests 11 10 true) = true ∧
    (let ps := found fieldAt (fieldAt.fieldRequests 11 10 false)
     let c := commitProbe fieldAt (fieldAt.fieldRequests 11 10 false) ps
     ∀ k, k < fieldAt.cfg.blocks →
       let x := blockRead fieldAt.cfg (readPieces (cellUnit fieldAt.cfg) c (fieldPieces ps).1) (readPieces 8 c (fieldPieces ps).2) k
       x.badDesc = false ∧ descOk fieldAt.cfg x.desc = true ∧ x.desc.testBit 80 = false) := by decide +kernel

theorem meets_TileMemoryResult :
    let s := (((machine 0x34 5).withRows 2).withX 10 0x180010000).withX 11 4096
    s.accessReady 1 = true ∧ s.cfg.sew = 4 ∧ s.cfg.alt = false ∧ (3 : Nat) < s.hart.ownTiles ∧
    reachesCheck s false [s.tileRequest 11 10 false] = true ∧ reachesCheck s true [s.tileRequest 11 10 true] = true ∧
    (∀ i, i < 2 → ∀ j, j < 5 → (s.hart.getT 3).bad i j = false) := by decide +kernel

/-- A copy of 63 bytes between memories and to a scratchpad with arrival order, a fill, and a length of 0. -/
theorem meets_CopyFillResult :
    (let s := ((machine 0x02 63).withX 10 0x180010001).withX 11 0x180020003
     let reqs := [s.request false [((s.hart.getX 10).toNat, 63)] [] acceptAll, s.request true [((s.hart.getX 11).toNat, 63)] [] acceptAll]
     s.accessReady 0 = true ∧ s.hart.vl.toNat * s.cfg.w % 8 = 0 ∧ s.hart.vl.toNat * s.cfg.w / 8 = 63 ∧
     reachesCheck s true reqs = true ∧ reachesCheck s true [s.request true [((s.hart.getX 10).toNat, 63)] [] acceptAll] = true) ∧
    (let s := (((machine 0x02 64).withX 10 0x180010000).withX 11 (0x38000000000 + 24512)).withBank
     let reqs := [s.request false [((s.hart.getX 10).toNat, 64)] [] acceptAll,
       s.request true [((s.hart.getX 11).toNat, 64)] [] (fun ap _ => ap == .gangScratchpad)]
     reachesCheck s true reqs = true ∧
     ∀ y ∈ (found s reqs).drop 1, ∀ k ∈ banksTouched (pieceKeys (y.pieces.flatMap id)),
       ∀ h ∈ s.harts, h.copiesTo k.1.1 k.1.2 = false) ∧
    (machine 0x02 0).accessReady 0 = true := by decide +kernel

/-- A block at x12 that adds one line at 0x180030040 to the line at 0x180030000, its record at x10. -/
def nearMemory : State :=
  ((((machine 0x02 3).withX 10 0x180010000).withX 11 7).withX 12 0x180020000).withBytes 0x180020000 64
    (2 + 1 * 2 ^ 32 + 0x180030000 * 2 ^ 64 + 0x180030040 * 2 ^ 128)

theorem meets_PrefetchNearMemoryResult :
    (let s := (loading.withX 12 0).withX 10 0x180010000
     s.ready 0 = true ∧ ∀ r ∈ prefetchRows 0 12 10, s.modeOk 0 r.2 12 = true) ∧
    (let s := nearMemory
     let block := s.request false [((s.hart.getX 12).toNat, 64)] [] acceptAll
     let ps := found s [block]
     let c := commitProbe s [block] ps
     let v := valueOf (readPieces 1 c (ps.flatMap (fun p => p.pieces.flatMap id)))
     let f := nmBlock v.1
     let record := (s.hart.getX 10).toNat
     s.ready 3 = true ∧ s.hart.vsq = [] ∧ s.ownCommands.length < Config.nqDepth ∧ reachesCheck s true [block] = true ∧
     v.2 = false ∧ nmBlockOk v.1 = true ∧ nmUsesSource f.op = true ∧
     reachesCheck c true [s.request true [(record, 64)] [] acceptAll, s.request true (nmRanges f.dst f.n) [] acceptLines,
       s.request false (nmRanges f.src f.n) [] acceptLines] = true) := by decide +kernel

/-! Control. -/

/-- A legal and an illegal `vtype`, at reclaim points and not (R168). -/
theorem meets_SetLengthResult :
    let s := (machine 0x12 5).withX 10 0x500000003
    s.idle 0 = true ∧ vtypeIllegal 0x3FF = true ∧ vtypeIllegal 0x212 = false ∧ (0x212 : Nat).testBit 9 = true ∧
    s.reclaimPending = false ∧ vtypeIllegal 0 = false := by decide +kernel

/-- The gang of the hart given a barrier 1 of two harts, at phase 65535. -/
def Sys2Proof.Machine.State.withBarriers (s : State) (arrived : List Nat) : State :=
  { s with gangs := s.gangs.map (fun g => { g with barriers := [⟨1, none, 0, []⟩, ⟨2, some 1, 65535, arrived⟩] }) }

/-- One store of a byte, held back. -/
def storeAt (key : Nat) : VsqEntry := ⟨[⟨key, 7#8, 0xFF#8, false, .cached⟩], [], false, [], []⟩

/-- A scalar and a vector store that the hart holds back. -/
def Sys2Proof.Machine.State.withStores (s : State) : State :=
  { s with hart := { s.hart with ssq := [storeAt 0x180010000], vsq := [storeAt 0x180010040] } }

/-- Barriers 0 and 1 of the gang: the phase of barrier 0 completes at the arrival, that of barrier 1 does not. -/
theorem meets_FenceBarrierResult :
    (let s := ((machine 0x12 5).withBarriers []).withStores
     s.idle 0 = true ∧ s.scalarsFree = true ∧ s.storesFree = true ∧ s.allFree = true ∧ s.nq = [] ∧ s.hart.lq = [] ∧
     s.ownCommands = [] ∧ s.hart.nmError = none) ∧
    (let s := ((machine 0x12 5).withBarriers []).withX 11 1
     let t := s.withX 10 1
     s.idle 0 = true ∧ s.hart.ssq = [] ∧ s.hart.vsq = [] ∧
     (s.gangOf s.hart).any (fun g =>
       (g.barriers[0]?).any (fun x => decide (x.count ≤ (s.hart.rank :: x.arrived).length) && decide (x.count ≤ 1)) &&
       (g.barriers[1]?).any (fun x => !decide (x.count ≤ (s.hart.rank :: x.arrived).length)) &&
       decide (recHarts (s.recordOf g) = 1)) = true ∧
     (t.hart.getX 10).toNat = 1 ∧ (t.hart.setPhase 1 (some 65534)).phaseOf 1 = some 65534) ∧
    (let s := (machine 0x12 5).withBarriers [0, 1]
     s.findGang 5 = none ∧ (s.findGang 0).any (fun g => (g.barriers[2]?).isNone && (g.barriers[1]?).any (fun x =>
       decide (x.arrived ≠ []) && decide (x.count ≤ x.arrived.length))) = true) := by decide +kernel

/-- `wait.time` at its instant, `wait.mem` on a word that a scalar store held back makes differ and on one that does not differ after its
deadline, a gang with no rival, a hart with stores held back. -/
theorem meets_WaitResult :
    let s := ((((machine 0x12 5).withX 10 0x180010000).withX 11 7).withX 12 9).withStores
    let t := { s with time := 9#64 }
    let u := { s with time := 0x180010000#64 }
    let z := s.scalarsDone
    let req := z.request false [((s.hart.getX 10).toNat, 8)] [] acceptWatched
    s.idle 0 = true ∧ u.hart.getX 10 ≤ u.time ∧ s.scalarsFree = true ∧ s.aritHeld = [] ∧ reachesCheck z false [req] = true ∧
    (∀ p ∈ found z [req], valueOf (readNow (commitProbe z [req] (found z [req])) (p.pieces.flatMap id)) = (7, false)) ∧
    BitVec.ofNat 64 7 ≠ s.hart.getX 12 ∧ (t.hart.getX 11 ≠ 0#64 ∧ t.hart.getX 11 ≤ t.time) ∧
    s.allFree = true ∧ s.hart.lq = [] ∧ (s.gangOf s.hart).any (fun g => !hasRival s g) = true := by decide +kernel

/-- The gang on core 0 and one on each other core of die 0 hold all lanes there, and queue 5 has a checked head of their priority for
that die. -/
def rival : State :=
  let s := machine 0x12 5
  { s with
    gangs := s.gangs.flatMap (fun g => { g with exclusive := true } ::
      (List.range 31).map (fun i => { g with key := 100 + i, core := i + 1, harts := [8 * (i + 1)], exclusive := true })),
    queues := s.queues.setIfInBounds 5
      { LaunchQueue.reset with enable := true, records := [programRecord 0], head := some ⟨0#64, 0, some 7⟩ },
    launches := s.launches ++ [⟨7, 5, programRecord 0, 0, 0, 0, false⟩], nextKey := 200 }

/-- A ready gang that no core has room for until this one gives up its own. -/
theorem meets_WaitResult_rival : rival.idle 0 = true ∧ (rival.gangOf rival.hart).any (fun g => hasRival rival g) = true := by
  decide +kernel

theorem meets_QueueResult :
    let s := machine 0x12 5
    let t : State := { s with hart := { s.hart with bq := [true, false] } }
    s.idle 0 = true ∧ t.idle 0 = true ∧ (t.hart.getX 10).toNat = 0 ∧ t.hart.bq = true :: [false] ∧ s.hart.bq = [] ∧
    s.cfg.vill = false ∧ s.hart.bq.length < 16 := by decide +kernel

/-- A pigeonhole of the hart's own, which it may push and pop. -/
theorem meets_QueueResult_own :
    let u := (machine 0x12 5).withX 10 0x10
    let v : State := { u with hart := { u.hart with pigeonhole := [7#64] } }
    v.idle 0 = true ∧ (v.hart.getX 10).toNat = 0x10 + v.hart.rank ∧ v.hart.rank < v.gangSize ∧ v.hart.pigeonhole = 7#64 :: [] ∧
    v.hart.ssq = [] ∧ v.hart.vsq = [] ∧ v.hart.isHalted = false ∧
    v.hart.pigeonhole.length + earlierPushers v (v.hart.getX 10) < Config.pigeonholeDepth ∧
    v.harts.find? (fun o => o.gang == v.hart.gang && o.rank == 0 && o.run != RunState.free) = some v.hart :=
  ⟨by decide +kernel, by decide +kernel, by decide +kernel, by decide +kernel, by decide +kernel, by decide +kernel, by decide +kernel,
   by decide +kernel, rfl⟩

/-- A halted hart of rank 1. -/
def haltedPeer : Hart := { programHart 1 0 with run := .halted, rank := 1 }

theorem meets_QueueResult_halted :
    let s := machine 0x12 5
    let u := State.withX { s with others := [haltedPeer], gangs := s.gangs.map (fun g => { g with harts := [0, 1] }) } 10 0x11
    u.idle 0 = true ∧ u.hart.ssq = [] ∧ u.hart.vsq = [] ∧ (u.hart.getX 10).toNat < 0x10 + u.gangSize ∧ haltedPeer.isHalted = true ∧ haltedPeer.hid ≠ u.hart.hid ∧
    u.harts.find? (fun o => o.gang == u.hart.gang && o.rank == 1 && o.run != RunState.free) = some haltedPeer :=
  ⟨by decide +kernel, by decide +kernel, by decide +kernel, by decide +kernel, by decide +kernel, by decide +kernel, rfl⟩

theorem meets_QueueResult_launch :
    let s := (machine 0x12 5).withX 10 0x13F
    let u : State := { s with queues := s.queues.setIfInBounds 63 { LaunchQueue.reset with enable := true } }
    u.idle 0 = true ∧ ¬((u.hart.getX 10).toNat < 0x10 + u.gangSize) ∧ (u.queue (0x13F - 0x100)).enable = true ∧
    (u.queue (0x13F - 0x100)).realm = u.realmOf u.hart := by decide +kernel

/-- A hart in S mode. -/
def Sys2Proof.Machine.State.inMode (s : State) (m : Mode) : State := { s with hart := { s.hart with mode := m } }

/-- A gang whose launch may be reclaimed, in S mode: it asks to cut its own desk to 24 registers and keep quad 0. -/
def reclaiming : State :=
  let s := (((machine 0x12 5).inMode .supervisor).withX 10 0).withX 11 (1 + 24 * 256)
  { s with launches := s.launches.map (fun (o : Launch) => { o with record := o.record ||| 4#1024 <<< (8 * 0x3E) }) }

/-- A launch, a reclaim of the hart's own gang and one of a hart of no gang, a probe with a miss record and without. -/
theorem meets_LaunchReclaimResult :
    (let s := ((machine 0x12 5).withX 10 0x180010000).withX 11 63
     let req := s.request false [(0x180010000, 128)] [] acceptAll
     s.idle 0 = true ∧ (s.hart.getX 11).toNat ≤ 63 ∧ s.hart.ssq = [] ∧ s.hart.vsq = [] ∧ s.hart.lq.length < Config.lqDepth ∧
     reachesCheck s false [req] = true ∧
     (∀ p ∈ found s [req], (valueOf (readNow (commitProbe s [req] (found s [req])) (p.pieces.flatMap id))).2 = false)) ∧
    (let s := reclaiming
     let y := (s.hart.getX 11).toNat
     s.idle 0 = true ∧ s.hart.mode ≠ .user ∧ y % 2 ^ 8 < 2 ^ 4 ∧ y < 2 ^ 16 ∧
     (s.gangs.find? (fun g => g.harts.contains 0)).any (fun g => !((s.gangHarts g).all Hart.isHalted) &&
       recReclaimable (s.recordOf g) && decide (y % 16 &&& g.quads.toNat ≠ 0) && decide (y % 16 &&& g.quads.toNat ≠ g.quads.toNat)) = true ∧
     y / 256 % 256 + 8 ≤ s.hart.size.toNat ∧ (s.gangs.find? (fun g => g.harts.contains 5)).isNone = true ∧ y / 2 ^ 40 % 2 ^ 23 = 0) ∧
    (let s := reclaiming
     let t : State := { s with hart := { s.hart with vmissrec := 0x180010000#64 } }
     t.idle 0 = true ∧ missRecordKey s = none ∧ missRecordKey t = some 0x180010000 ∧ recordWait t 0x180010000 512 = none ∧
     ∀ p ∈ probedPages t (s.hart.getX 10).toNat 6145 false, outcomeLocked p.2 = false) := by
  decide +kernel

/-- An S-mode hart without tiles, its own image in memory at x10. -/
def context : State :=
  let s := ((machine 0x12 5).inMode .supervisor).withX 10 0x180010000
  let t : State := { s with hart := { s.hart with ownTiles := 0 } }
  { t with mem := memWriteBytes t.mem 0x180010000 ((contextImage t.hart (t.lanes t.hart) []).map (fun b => b.1)) }

theorem meets_ContextResult_save :
    let image := contextImage context.hart (context.lanes context.hart) []
    context.idle 0 = true ∧ context.hart.mode = .supervisor ∧ context.hart.vsq = [] ∧ context.hart.holdVsq = false ∧
    reachesCheck context true [context.request true [(0x180010000, image.length)] [] acceptAll] = true := by decide +kernel

theorem meets_ContextResult_restore :
    let r1 := context.request false [(0x180010000, 64)] [] acceptAll
    let c1 := commitProbe context [r1] (found context [r1])
    let header := Image.ofBytes (readPieces 0 c1 ((found context [r1]).flatMap (fun p => p.pieces.flatMap id)))
    let r2 := c1.request false [(0x180010000, max 64 (header.get 8 4))] [] acceptAll
    let c := commitProbe c1 [r2] (found c1 [r2])
    let x := Image.ofBytes (readPieces 0 c ((found c1 [r2]).flatMap (fun p => p.pieces.flatMap id)))
    let m := imageMap x
    reachesCheck context false [r1] = true ∧ header.poison = 0 ∧ reachesCheck c1 false [r2] = true ∧
    headerFailures x m (context.lanes context.hart) = [] ∧ imagePoisoned x m = false ∧ bodyFailures x m = [] ∧
    m.tiles &&& (2 ^ context.hart.ownTiles - 1) = m.tiles ∧ m.general ≤ context.hart.size.toNat := by decide +kernel

/-- A hart with something of everything that an image lists: a general register, a mask, an anchored block, a tile row, queued values and
a delivery. -/
def pictured : Hart :=
  let h := programHart 0 0
  { h with
    vtype := 0x12#64, vl := 5#32, nmError := some 0x180010000#64, bq := [true], pigeonhole := [7#64],
    v := h.v.setIfInBounds 3 ⟨.g, 0#3, 0#2, 0#64, 0#64, 7#8192, 1#1024⟩,
    m := h.m.setIfInBounds 2 5#16384, w := h.w.setIfInBounds 1 (Vector.replicate 128 9#128),
    t := h.t.set 1 { Tile.reset with rows := Tile.reset.rows.setIfInBounds 4 11#4096 },
    loadq := h.loadq.setIfInBounds 2 [⟨2, 13#8192, 1#1024⟩] }

/-- The condition of `ImageHolds` on one register. -/
def imageRegister (lanes : Nat) (r : VReg) : Bool :=
  match r.tag with
  | .u => r.stride == 0#64 && r.image == 0#8192 && r.poison == 0#1024
  | .a => r.image == 0#8192 && r.poison == 0#1024
  | .g => r.base == 0#64 && r.stride == 0#64 && decide (r.image.toNat < 2 ^ (512 * lanes)) && decide (r.poison.toNat < 2 ^ (64 * lanes))

theorem meets_ContextResult_image : ImageHolds pictured 16 where
  laneCount := by decide
  vtype := by decide +kernel
  handler := by decide +kernel
  areas w hw := by
    have all : [pictured.aqsave, pictured.vqsave, pictured.vmissrec].all (fun w => w.toNat % 64 == 0) = true := by decide +kernel
    simpa using List.all_eq_true.mp all w hw
  small w hw := by
    have all : [pictured.acause, pictured.vcause, pictured.vmisscnt].all (fun w => decide (w.toNat < 256)) = true := by decide +kernel
    simpa using List.all_eq_true.mp all w hw
  error := by decide +kernel
  regs n hn := by
    have all : ∀ n, n < 32 → imageRegister 16 (pictured.getV n) = true := by decide +kernel
    have h := all n hn
    revert h
    generalize pictured.getV n = r
    obtain ⟨tag, _, _, _, _, _, _⟩ := r
    cases tag <;> simp +contextual [imageRegister]
  mask := by decide +kernel
  tiles := by decide +kernel
  absent n hn := absurd n.isLt (Nat.not_lt.mpr hn)
  elided n i hi h := by
    have all : ∀ k, k < 4 → ∀ i, i < 128 → ((pictured.t[k]?).getD Tile.reset).row i = 0 →
        ((pictured.t[k]?).getD Tile.reset).rowPoison i = 0 := by decide +kernel
    have e : pictured.getT n = (pictured.t[n.toNat]?).getD Tile.reset := by rw [Hart.getT, getElem?_pos pictured.t n.toNat n.isLt]; rfl
    rw [e] at h ⊢
    exact all n.toNat n.isLt i hi h
  queues := by decide +kernel
  deliveries := by decide +kernel

/-- An area at 0x180010000 with one saved instruction (R402): the resume address, a count of 1, and an `add.vv`. -/
def areaAt (s : State) : State :=
  s.withBytes 0x180010000 128 (0x180000100 + 1 * 2 ^ 128 + 0b0000_000_00010_00011_000_00001_0001011 * 2 ^ (512 + 64))

/-- The areas of S mode and of a user handler, and none. -/
def Sys2Proof.Machine.State.withAreas (s : State) (supervisor user : Nat) : State :=
  { s with hart := { s.hart with vqsave := BitVec.ofNat 64 supervisor, aqsave := BitVec.ofNat 64 user, avec := 0x180000200#64 } }

/-- An entry of `add.vv`, dispatched in U mode and in M mode. -/
def entryOf (m : Mode) : VEntry := ⟨0x180000000#64, 0b0000_000_00010_00011_000_00001_0001011#32, none, none, none, m⟩

/-- A launch with no profile. -/
def Sys2Proof.Machine.State.withoutProfiles (s : State) : State :=
  { s with launches := s.launches.map (fun (o : Launch) => { o with record := o.record &&& ~~~(0x1F#1024 <<< (8 * 0x44)) }) }

/-- Deliveries to S mode, to M mode, to the user handler from a plain and from an overflow trap, and the halt where there is no area. -/
theorem meets_VectorTrapReturn_deliver :
    (let s := (machine 0x12 5).withAreas 0x180010000 0x180020000
     userHandles s.hart 1 = false ∧ s.hart.vqsave ≠ 0#64 ∧
     areaKey s (wordField s.hart.vqsave 6 58 * 64) (areaBytes s.hart.pc 0#64 1 [entryOf .user]).length = some 0x180010000 ∧
     (entryOf .user).mode ≠ .machine ∧ (entryOf .machine).mode = .machine ∧ userHandles s.hart 7 = true ∧
     (let c := (s.countAdmitted (entryOf .user) 0).dropWork
      let o : State := { c with hart := { c.hart with vobm0 := 1#64, vobm1 := 0#64 } }
      (userArea c (entryOf .user) 128).isSome = true ∧ (userArea o (entryOf .user) 128).isSome = true)) ∧
    (machine 0x12 5).hart.vqsave = 0#64 ∧ (machine 0x12 5).hart.window = none := by decide +kernel

theorem meets_VectorTrapReturn_return :
    (let s := areaAt (((machine 0x12 5).inMode .supervisor).withAreas 0x180010000 0)
     let z := ((machine 0x12 5).inMode .supervisor).withAreas 0x180010000 0
     let base := wordField s.hart.vqsave 6 58 * 64
     s.atRest = true ∧ s.hart.ssq = [] ∧ s.hart.mode = .supervisor ∧ (s.profiles s.hart).testBit 0 = true ∧
     (s.withoutProfiles.profiles s.hart).testBit 0 = false ∧ savedWait s base = none ∧
     (savedArea s base).any (fun bs => match checkArea s bs 0 s.hart.spp with | .ok _ => true | .error _ => false) = true ∧
     (savedArea z base).any (fun bs => decide (bytesAt bs 0x10 4 = 0)) = true ∧
     (savedArea (z.withBytes 0x180010010 4 65) base).any (fun bs =>
       match checkArea z bs 0 s.hart.spp with | .ok _ => false | .error _ => true) = true ∧
     savedArea (z.withAreas 0x10000000000 0) 0x10000000000 = none) ∧
    (let s := areaAt ((machine 0x12 5).withAreas 0 0x180010000)
     let t : State := { s with hart := { s.hart with anchorHandler := true } }
     s.atRest = true ∧ s.hart.ssq = [] ∧ s.hart.mode ≠ .supervisor ∧ s.hart.anchorHandler = false ∧ t.atRest = true ∧
     t.hart.ssq = [] ∧ t.hart.mode = .user ∧ (t.profiles t.hart).testBit 2 = true ∧ (t.withoutProfiles.profiles t.hart).testBit 2 = false ∧
     (match userSavedArea t (wordField t.hart.aqsave 6 58 * 64) with
      | .ok (bs, c) => (match checkArea c bs 1 .user with | .ok _ => true | .error _ => false)
      | .error _ => false) = true) := by decide +kernel

/-- A launch without a profile, an illegal `vtype`, a group out of place; a poisoned source of a comparison; deliveries that need not
wait. -/
theorem meets_VectorChecks :
    (let s := (machine 0x12 5).withoutProfiles
     s.atRest = true ∧ ∀ k ∈ [0, 1, 2, 3, 4], (s.profiles s.hart).testBit k = false) ∧
    (let s := machine 0x8000000000000000 0
     s.atRest = true ∧ (s.profiles s.hart).testBit 0 = true ∧ s.cfg.vill = true) ∧
    ((machine 0x12 5).locks = [] ∧ (machine 0x12 5).routes = [] ∧
      ∀ c ∈ [1, 2, 9], deliveryWait (machine 0x12 5).dropWork (entryOf .user) c .plain [] = none) ∧
    (let s := machine 0x12 5
     s.atRest = true ∧ s.cfg.vill = false ∧ groupOk 31 s.cfg.g = false) ∧
    (let s := ((machine 0x12 5).withX 16 8).withDelivery
     let t : State := { s with hart := { s.hart with
       v := s.hart.v.set 24 ⟨.g, 0#3, 0#2, 0#64, 0#64, 0#8192, 0x10#1024⟩,
       loadq := s.hart.loadq.set 0 [⟨1, 0, 0x10⟩] } }
     t.ready 0 = true ∧ t.cfg.w ≠ 6 ∧ groupOk 24 t.cfg.g = true ∧
     ∀ r ∈ compareRows 0 24 16 0 3 .le, t.operandOk r.2.1 (t.hart.getX 16) = true ∧ ∃ i ∈ t.actives 0, (groupSrc t 24 t.cfg.g t.cfg.sew i).2 = true) := by
  decide +kernel

/-! Scalar instructions, traps and control registers. -/

/-- Targets of jumps and branches on and off a word (R112), F and D on and off. -/
theorem meets_ScalarRegisterResult :
    let s := machine 0 0
    (s.hart.pc + (0x00008#20 ++ 0#1 : BitVec 21).signExtend 64).toNat % 4 = 0 ∧
    (s.hart.pc + (0x00001#20 ++ 0#1 : BitVec 21).signExtend 64).toNat % 4 ≠ 0 ∧ s.hart.hasVectorWork = false ∧
    ((s.hart.getX 1 + (0xFFE#12 : BitVec 12).signExtend 64) &&& ~~~1#64).toNat % 4 ≠ 0 ∧
    ((s.hart.getX 1 + (0xFFD#12 : BitVec 12).signExtend 64) &&& ~~~1#64).toNat % 4 = 0 ∧
    (s.hart.pc + (0x801#12 ++ 0#1 : BitVec 13).signExtend 64).toNat % 4 ≠ 0 ∧
    (∀ r ∈ [(Instr.scalarBaseInstruction (.branch .eq 1 2 8), true), (.scalarBaseInstruction (.branch .ne 1 2 8), false)], r.2 = true ∨ r.2 = false) ∧
    (branchRows 0 0 1 2 8).any (fun r => r.2) = true ∧ (branchRows 0 0 1 2 8).any (fun r => !r.2) = true ∧
    s.hart.fpOn = true ∧ rounding (some .dyn) s.hart.frm = some .rne ∧ rounding (some .dyn) 5#3 = none ∧
    ({ s.hart with mstatus := 0#64 } : Hart).fpOn = false := by decide +kernel

/-- Whether a scalar access stops with a fault, stops with a wait, or reaches a byte. -/
def pieceIs (s : State) (acc : Access) (va n : Nat) : Option Bool × Option Nat :=
  match scalarPiece s s.dataAgent acc va n with
  | .error (.fault _) => (some true, none)
  | .error (.wait _) => (some false, none)
  | .ok (_, c) => (none, some c.key)

/-- What a scalar read of eight bytes at an address sees: whether it is poisoned, and its value. -/
def seenAt (s : State) (va : Nat) : Bool × Nat :=
  match scalarPiece s s.dataAgent .read va 8 with
  | .ok (_, c) => (seenBad (s.scalarSees c 8), seenValue (s.scalarSees c 8))
  | .error _ => (false, 0)

/-- An access, a misaligned one, one that waits for memory, a poisoned one, one through a route that is down; a store held back that
its own load sees, and one that waits for a line lock; a load left to be performed later; a reservation held and not held. -/
theorem meets_ScalarMemoryResult :
    let s := (machine 0 0).withX 10 0x180010000
    let t : State := { s with hart := { s.hart with mstatus := 0#64 } }
    let w : State := { s with memReady := false }
    let p : State := { s with poison := [⟨0x180010000, 64⟩] }
    let r : State := { s with hart := { s.hart with reservation := some (0x180010000 / 64) } }
    let h : State := { s with hart := { s.hart with ssq := [storeAt 0x180010000], holdSsq := true } }
    let l : State := { h with locks := [⟨9, 0x180010000 / 64⟩] }
    let d : State := { s with routes := [⟨1, .down⟩] }
    let k : State := { s with hart := { s.hart with holdSlq := true } }
    (s.hart.holdSlq = false ∧ s.hart.slq = [] ∧ k.hart.holdSlq = true) ∧ s.hart.hasVectorWork = false ∧ s.hart.fpOn = true ∧ usesFp (.fload true 3 10 0) = true ∧ t.hart.fpOn = false ∧
    (∀ acc ∈ [Access.read, .write], pieceIs s acc 0x180010000 8 = (none, some 0x180010000) ∧ pieceIs s acc 0x180010001 8 = (some true, none) ∧
      pieceIs w acc 0x180010000 8 = (some false, none) ∧ pieceIs p acc 0x180010000 8 = (none, some 0x180010000)) ∧
    ((pieceIs d .write (2 ^ 53 + 0x180010000) 8).2.any (routeDown d) = true ∧ routeDown d 0x180010000 = false) ∧
    seenAt p 0x180010000 = (true, 0) ∧ seenAt s 0x180010000 = (false, 0) ∧ seenAt h 0x180010000 = (false, 7) ∧
    (s.hart.holdSsq = false ∧ s.hart.ssq = [] ∧ h.hart.ssq ≠ [] ∧ h.scalarsFree = true ∧
      l.hart.ssq.findSome? (entryWait l) = some .lineLock) ∧ (0x180010004 : Nat) % 8 ≠ 0 ∧
    s.hart.reservation ≠ some (0x180010000 / 64) ∧ r.hart.reservation = some (0x180010000 / 64) ∧
    r.scalarsDone.hart.reservation = some (0x180010000 / 64) := by decide +kernel

theorem meets_TrapEntryReturn :
    let u := machine 0 0
    let s := u.inMode .supervisor
    let m := u.inMode .machine
    let off : State := { s with hart := { s.hart with mstatus := s.hart.mstatus ||| 1#64 <<< 22 } }
    let d : State := { u with hart := { u.hart with medeleg := 0xB3FF#64, mideleg := 0x222#64, mip := 0x20#64, mie := 0x20#64 } }
    let i : State := { m with hart := { m.hart with mip := 0x80#64, mie := 0x80#64, mstatus := m.hart.mstatus ||| 8#64 } }
    let busy : State := { u with hart := { u.hart with viq := [entryOf .user] } }
    (m.hart.mode = .machine ∧ u.hart.medeleg.getLsbD 63 = false ∧ u.hart.mode ≠ .machine ∧ d.hart.medeleg.getLsbD 8 = true ∧
      d.hart.mideleg.getLsbD 5 = true) ∧
    (u.hart.hasVectorWork = false ∧ busy.hart.hasVectorWork = true) ∧
    (s.hart.mode = .supervisor ∧ s.hart.mstatus.getLsbD 22 = false ∧ off.hart.mstatus.getLsbD 22 = true) ∧
    (d.hart.run = .running ∧ d.hart.nextInterrupt = some 5 ∧ i.hart.nextInterrupt = some 7 ∧ u.hart.nextInterrupt = none) := by decide +kernel

/-- `vqsave` and `pwrgrant` from S and M mode, `vl` that only reads, a register that does not exist; a fence that waits for pins. -/
theorem meets_ControlRegisterResult :
    let u := machine 0 0
    let s := u.inMode .supervisor
    let m := u.inMode .machine
    let busy : State := { m with hart := { m.hart with viq := [entryOf .machine] } }
    let pinned : State := { m with pins := [⟨0, [0], ⟨m.realmOf m.hart, 9, 5, 0#64, 0, 0⟩, 0#64⟩] }
    let stores := m.withStores
    let locked : State := { stores with locks := [⟨9, 0x180010000 / 64⟩] }
    let ready : State := { m with hart := { m.hart with mip := 0x80#64, mie := 0x80#64 } }
    (csrAllowed u.hart 0x7C0 true = false ∧ csrAllowed m.hart 0x7C0 true = true ∧ csrAllowed u.hart 0xCC0 true = false ∧
      csrAllowed u.hart 0xCC0 false = true ∧ csrExists 0xCFF = false ∧ u.hart.mode.bits < 0x7C0 / 256 % 4 ∧
      csrAllowed m.hart 0xCFF false = false ∧ u.hart.hasVectorWork = false) ∧
    ((List.range 0x1000).any (fun c => csrOrdered c && csrAllowed busy.hart c true) = true ∧ busy.hart.hasVectorWork = true ∧
      csrOrdered 0x340 = false) ∧
    (m.hart.mode = .machine ∧ s.hart.mode = .supervisor ∧ s.hart.mstatus.getLsbD 20 = false ∧ s.hart.mstatus.getLsbD 21 = false ∧
      pinned.pins.any (fun p => fenceDrops (pinned.realmOf pinned.hart) (some 5) none p.entry) = true ∧ m.pins = []) ∧
    (stores.hart.hasVectorWork = false ∧ stores.scalarsFree = true ∧
      locked.hart.ssq.findSome? (entryWait locked) = some .lineLock) ∧
    (ready.hart.mip &&& ready.hart.mie ≠ 0#64 ∧ m.hart.mip &&& m.hart.mie = 0#64) := by decide +kernel

/-! Events of harts. -/

/-- What the effect of an entry does: completes, traps, or waits. -/
def ends (e : VEntry) (s : State) : Option Nat × Bool :=
  match entryEffect e s with
  | .ok _ => (none, true)
  | .error (.trap cause _ _) => (some cause, false)
  | .error (.wait _ _) => (none, false)

/-- A head that is put back to wait for a reason. -/
def waiting (vtype : Nat) (why : WaitReason) : State :=
  let s := machine vtype 5
  { s with hart := { s.hart with viq := [entryOf .user], wait := some why, aldc := some ⟨0, 0, [], none, 0#64, false⟩ } }

/-- An instruction of the window with micro-ops to issue, admitted at a moment. -/
def inWindow (ops age : Nat) : InFlight :=
  { entry := entryOf .user, total := ops, microOps := ops, age := age, slots := 0, ceiling := 4#3, waited := none, satp := 0#64,
    sum := false, arit := [], unit := .valu, uses := ⟨[], [], 0⟩, producers := [], withheld := 0, descs := none }

/-- An instruction of the window with its micro-ops issued and not, behind an older one of another hart of its lanes and alone; a head
that waits and completes, traps, or is behind another that waits for pins. -/
theorem meets_HartEventResult :
    let s := machine 0x12 5
    let two : State := { s with others := [haltedPeer] }
    let window (n : Nat) : State := { s with hart := { s.hart with window := some (inWindow n 5) }, locks := [⟨0, 0⟩] }
    let peer (n age : Nat) : Hart := { s.hart with hid := 1, window := some (inWindow n age), wait := some (.pins 3) }
    let older (n age : Nat) : State := { window 2 with others := [peer n age] }
    let trapping : State := { machine 0x12 5 with hart := { (machine 0x12 5).hart with window := some (inWindow 0 5) } }
    (two.others.any (fun h => h.hid == 1) = true ∧ (1 : Nat) ≠ two.hart.hid ∧ two.others.any (fun h => h.hid == 2) = false) ∧
    haltedPeer.run ≠ .running ∧ s.hart.run = .running ∧
    ((window 0).locks.any (fun l => l.hid == 0) = true ∧ s.locks.any (fun l => l.hid == 0) = false ∧ s.hart.window = none) ∧
    ((older 1 4).others.any (fun h => decide (h.hid / 8 = 0) && decide ((older 1 4).quadsOf h &&& (older 1 4).quadsOf s.hart ≠ 0#4) &&
        h.window.any (fun x => decide (x.age < 5) && decide (x.microOps ≠ 0))) = true ∧
      (older 1 6).others.all (fun h => h.window.all (fun x => !decide (x.age < 5))) = true) ∧
    (∀ r ∈ retries 0, ∃ why ∈ [WaitReason.aldc, .qpop, .qpush, .waitMem 0 0, .waitTime 0], r.2 why = true) ∧
    (waiting 0x12 .aldc).hart.viq = entryOf .user :: [] ∧ (waiting 0x12 .aldc).hart.window = none ∧
    (waiting 0x12 .aldc).hart.aldc.any (fun a => decide (a.earliest ≤ s.time.toNat)) = true ∧
    ((waiting 0x12 (.pins 2)).hart.wait = some (.pins 2) ∧ (older 1 4).others.all (fun h => decide (h.wait = some (.pins 3))) = true) ∧
    (ends (entryOf .user) (windowState (inWindow 0 5) trapping) = (some 1, false) ∧
      deliversToUser trapping (entryOf .user) 1 [] = false ∧
      deliversToUser ((machine 0x12 5).withAreas 0 0x180020000) (entryOf .user) 7 [] = true) ∧
    ends (entryOf .user) (waiting 0x12 (.pins 2)).alone = (some 1, false) ∧ ends (entryOf .user) (waiting 0x02 (.pins 2)).alone = (none, true) := by
  decide +kernel

/-- An instruction of a window behind another whose results it reads, its two micro-ops to issue. -/
def reader : InFlight := { inWindow 2 6 with producers := [5] }

/-- A micro-op to issue: of the oldest; of a reader of results whose producer, of which one micro-op has issued, comes late, where the mask
enables the pair; none where it does not, where none is left, or where an older one of another gang takes the lanes. -/
theorem meets_HartEventResult_issue :
    let s := machine 0x12 5
    let two : State := { s with hart := { s.hart with window := some { inWindow 2 5 with microOps := 1 }, next := [reader] } }
    let late : State := { two with hart := { two.hart with holdOldest := true } }
    let apart : State := { late with cores := Vector.replicate 128 { CoreState.reset with chainperm := 0 } }
    let older : State := { two with others := [{ s.hart with hid := 1, window := some (inWindow 1 4) }] }
    (two.issuing = some { inWindow 2 5 with microOps := 1 } ∧ late.issuing = some reader ∧
      apart.issuing = some { inWindow 2 5 with microOps := 1 } ∧ older.issuing = none ∧ s.issuing = none) ∧
    (reader ∈ late.hart.windowed ∧ (late.core 0).chains .valu .valu = true ∧ (apart.core 0).chains .valu .valu = false) := by decide +kernel

/-- An instruction admitted behind one of its own hart, and three that are not: a load, one behind an instruction that would trap, and
one for which the core has no register free. -/
theorem meets_AdmissionResult_behind :
    let s := machine 0x02 5
    let behind (w : InFlight) (e : VEntry) : State := { s with hart := { s.hart with window := some w, viq := [e] } }
    let t := behind (inWindow 2 5) (entryOf .user)
    let load : VEntry := { entryOf .user with word := 0b0000_000_00010_01010_000_00001_1010111#32 }
    let bad : State := behind { inWindow 2 5 with entry := { (entryOf .user) with word := 0b0000_000_00010_00011_000_00001_0101011#32 } } (entryOf .user)
    let small := behind { inWindow 2 5 with slots := 224 } (entryOf .user)
    let ahead (u : State) : Option (Option Bool) :=
      (u.hart.windowed.foldl foresee (some u)).map (fun v =>
        match entryEffect (entryOf .user) (v.alone.onHart (fun h => { h with window := none, next := [] })).metering with
        | .ok z => some (decide (borrowed u.hart.size.toNat u.hart.held (z.metered 1) ≤ u.unreserved (coreOfHart u.hart.hid)))
        | .error _ => none)
    (t.hart.window.isSome = true ∧ t.attemptLater = false ∧ windowLoad t 0 < 128 ∧ followsInWindow (entryOf .user).word = true ∧
      followsInWindow load.word = false) ∧
    (ahead t = some (some true) ∧ ahead small = some (some false) ∧ ahead bad = none) := by decide +kernel

/-- A head that waits to be admitted, alone in its core and behind an aged one; a head that cannot be admitted. -/
theorem meets_AdmissionResult :
    let s := waiting 0x02 (.pins 2)
    let held : State := { s with hart := { s.hart with holdWindow := true } }
    let peer : Hart := { s.hart with hid := 1, headAged := some 3 }
    let two : State := { s with others := [peer] }
    (admissionOrder (machine 0x02 5) 0 = [] ∧ admissionOrder s 0 = [] ++ 0 :: [] ∧ (admitOn s 0).isSome = true) ∧
    (windowLoad s 0 < 128 ∧ (windowLoad { s with hart := { s.hart with window := some (inWindow 128 5) } } 0 = 128) ∧
      ends (entryOf .user) s.alone.metering = (none, true) ∧ held.hart.holdWindow = true) ∧
    (peer ∈ two.harts ∧ s.hart ∈ two.harts ∧ (two.harts.map Hart.hid).Nodup ∧ peer.headAged = some 3 ∧ s.hart.headAged = none) :=
  ⟨by decide +kernel, by decide +kernel, List.mem_cons_of_mem _ (List.mem_cons_self ..), List.mem_cons_self .., by decide +kernel, rfl, rfl⟩

/-! Events of the device. -/

/-- The first and the last layer, a region whose line moves (the last line of a redirect of one unit) and one with four redirects; a
region vacated. -/
theorem meets_MemoryEventResult :
    let s := machine 0 0
    let moving : Region := ⟨[⟨false, 2, 1, 15, 4194303⟩], 16, none, [], []⟩
    let full : Region := ⟨List.replicate 4 ⟨true, 32, 0, 3, 0⟩, 16, none, [], []⟩
    let leaving : Region := ⟨[], 16, some (1, 15), [], []⟩
    let t := (s.withRegion 3 moving).withRegion 0 full
    let u := s.withRegion 3 leaving
    (∀ x ∈ [ErrorSource.hbm, .l2, .nearMemory, .l1d], (s.errorUnits x 0x180010000).isSome = true) ∧
    (s.errorUnits .sidecar 64).isSome = true ∧ (s.errorUnits .sidecar 0x180010000).isNone = true ∧
    (s.errorUnits .scratchpad 0x30000000000).isSome = true ∧ (s.errorUnits .cxl 0x180010000).isNone = true ∧
    ((t.regions[3]?).any (fun r => decide (r.redirects.find? (fun e => !e.done) = some ⟨false, 2, 1, 15, 4194303⟩)) = true) ∧
    ((t.regions[0]?).any (fun r => decide (4 ≤ r.redirects.length) && !r.redirects.any (fun e => !e.done) &&
      !r.redirects.any (fun e => e.stack == 1 && e.layer == 15)) = true) ∧
    ((u.regions[3]?).any (fun r => decide (r.vacating = some (1, 15))) = true) ∧ ((s.regions[3]?).any (fun r => r.vacating.isNone)) = true ∧
    t.memReady = true ∧ t.boot = .running ∧ s.phy ≠ 0xF#4 ∧ ({ s with phy := 0xF#4, d2d := 0xF#4 } : State).phy = 0xF#4 ∧
    (s.expanders[3]?).isSome = true := by decide +kernel

/-- An arrival copy of 16 bytes in flight, and where it stands. -/
def copying : State :=
  let s := (machine 0 0).withBank
  let e : VsqEntry := ⟨(List.range 16).map (fun i => ⟨0x30000000000 + i, 7#8, 0xFF#8, false, .gangScratchpad⟩), [], true, [], []⟩
  { s with hart := { s.hart with vsq := [e] },
           cores := s.cores.setIfInBounds 0 { s.core 0 with arrival := [(0, 8)] } }

/-- A near-memory command on one line, not yet applied, and applied. -/
def command (op : Nat) (done : List Nat) : NmCommand :=
  { gang := 0, rank := 0, held := true, op := op, fmt := 0, n := 1, dst := [0x180030000], src := [0x180030040], a := 0x3F800000, b := 0x3F800000,
    record := 0x180010000, recordAddr := 0x180010000, kinds := [], tag := 7, done := done, skipped := [], lastTime := 0, half := false }

theorem meets_StoreCommandEventResult :
    let s := machine 0 0
    let t : State := { s with hart := { s.hart with vsq := [storeAt 0x180010000] }, passed := [⟨3, storeAt 0x180010040⟩] }
    let locked : State := { t with locks := [⟨9, 0x180010000 / 64⟩, ⟨9, 0x180010040 / 64⟩] }
    let n : State := { s with nq := [command 5 []] }
    let bad : State := { n with poison := [⟨0x180030040, 64⟩] }
    let z : State := { s with nq := [command 0 [0]] }
    (entryWait t (storeAt 0x180010000) = none ∧ (entryWait locked (storeAt 0x180010000)).isSome = true) ∧
    ((copyInFlight copying 0 0).any (fun c => decide (c.1 = 0) && decide (c.2.1 = 0) &&
        decide (arrivalPointer copying 0 0 < min (arrivalPointer copying 0 0 + 8 / 8 * 8) (bankEnd 0 0 c.2.2))) = true ∧
      (copyInFlight copying 0 1).isNone = true) ∧
    ((n.nq[0]?).any (fun c => decide (c.dst[0]? = some 0x180030000) && !(c.done.contains 0) && !c.linesDone) = true ∧
      anyPoison n 0x180030040 64 = false ∧ anyPoison bad 0x180030040 64 = true ∧ n.locks = []) ∧
    (z.nq[0]?).any (fun c => c.linesDone && decide (c.op ≤ 5) && !c.half) = true ∧
    ({ command 0 [0] with half := true } : NmCommand).linesDone = true := by decide +kernel

/-- A queue with a checked head, and one with an unchecked head: `programRecord` for realm 0. -/
def queued (launch : Option Nat) : State :=
  let s := machine 0 0
  { s with
    queues := s.queues.setIfInBounds 5 { LaunchQueue.reset with enable := true, records := [programRecord 0], head := some ⟨0#64, 0, launch⟩ },
    launches := s.launches ++ [⟨7, 5, programRecord 0, 0, 0, 0, false⟩], nextKey := 8 }

theorem meets_DispatcherQueueResult :
    let q := queued none
    let x : LaunchQueue := { LaunchQueue.reset with
      enable := true, records := [programRecord 0 &&& ~~~(0xF#1024 <<< (8 * 0x54))], held := [programRecord 0] }
    let bad : State := { q with queues := q.queues.setIfInBounds 5 x }
    let s := machine 0 0
    let l : State := { s with hart := { s.hart with lq := [⟨5, programRecord 0⟩] } }
    ((s.queue 5).head = none ∧ (q.queue 5).head = some ⟨0#64, 0, none⟩ ∧ firstFailing (programRecord 0) = 0 ∧
      (bad.queue 5).records.any (fun r => decide (firstFailing r = 1)) = true ∧ ((queued (some 7)).queue 5).head = some ⟨0#64, 0, some 7⟩) ∧
    (let r := programRecord 0 &&& ~~~(0xF#1024 <<< (8 * 0x54)) ||| 0x180010000#1024 <<< (8 * 0x28)
     let held : State := { bad with queues := q.queues.setIfInBounds 5 { x with records := [r] }, locks := [⟨9, 0x180010000 / 64⟩] }
     firstFailing r ≠ 0 ∧ checkLocked held 5 = true ∧ checkLocked bad 5 = false) ∧
    ((s.queue 63).held = [] ∧ (bad.queue 5).held = programRecord 0 :: [] ∧ (bad.queue 5).enable = true ∧
      (bad.queue 5).records.length + bad.inFlightTo 5 < 64) ∧
    l.hart.lq = ⟨5, programRecord 0⟩ :: [] ∧ (s.findLaunch 9 = none ∧ (s.findLaunch 0).any (fun x => !launchDone s x) = true) := by
  decide +kernel

/-- The candidate of die 0: the first gang of the queued launch, on the core with room. -/
theorem meets_DispatcherQueueResult_placement :
    ((firstFit (queued (some 7)) 0).any (fun x => decide (x.1.1 = some 5) && decide (x.1.2.saved = none) && decide (x.2.1 / 32 = 0)) = true) ∧
    ((queued (some 7)).findLaunch 7).isSome = true := by decide +kernel

theorem meets_DispatcherQueueResult_nothing : firstFit (machine 0 0) 0 = none := by decide +kernel

/-- A gang that was switched out and waits for room. -/
def switchedOut : State :=
  let s := machine 0 0
  { s with
    hart := Hart.reset 0, time := 1#64,
    gangs := s.gangs.map (fun g => { g with harts := [], banks := [], saved := some ⟨[programHart 0 0], [⟨3, 7⟩], [], 16, 0, 0#64⟩ }) }

theorem meets_DispatcherQueueResult_restore :
    (firstFit switchedOut 0).any (fun x => decide (x.1.2.saved = some 0) && decide (x.2.1 / 32 = 0)) = true ∧
    (switchedOut.findGang 0).any (fun g => g.saved.any (fun v => decide (v.harts.length ≤ 8) &&
      decide ((v.harts.filter (fun h => h.rank == 0)).length = 1))) = true := by decide +kernel

/-- A launch whose gangs have all retired. -/
theorem meets_DispatcherQueueResult_complete :
    let s := machine 0 0
    let t : State := { s with launches := s.launches.map (fun (o : Launch) => { o with retired := 1 }) }
    (t.findLaunch 0).any (fun l => launchDone t l) = true := by decide +kernel

/-- A gang whose harts all wait for desk gives way; its slice ends with a rival and without, a scalar load of it is to be performed and none is, its reclaim takes effect and is abandoned, its harts are done. -/
theorem meets_GangSwitchResult :
    let s := machine 0 0
    let desk : State := { s with hart := { s.hart with wait := some .desk } }
    let spent : State := { s with gangs := s.gangs.map (fun g => { g with sliceExhausted := true }) }
    let cut : State := { s with hart := { s.hart with wait := some .reclaimPoint },
                                gangs := s.gangs.map (fun g => { g with vgrantmax := 1#4, reclaim := some ⟨0#64, 8⟩ }) }
    let done : State := { s with hart := { s.hart with run := .halted } }
    (let l : ScalarLoad := ⟨.load .ld 5, 0x180010000#64, 8, .cached, 0x180010000, none, 0, none⟩
     let loads : State := { s with hart := { s.hart with slq := [l] } }
     (loads.findGang 0).any (fun g => (loads.gangHarts g).any (fun h => !h.slq.isEmpty)) = true ∧
     (s.findGang 0).any (fun g => (s.gangHarts g).all (fun h => h.slq.isEmpty)) = true) ∧
    (s.findGang 5 = none ∧ s.locks.any (fun l => [0].contains l.hid) = false) ∧
    (desk.findGang 0).any (fun g => givesWay desk g && decide (g.harts ≠ []) &&
      (deskVictim desk g.core).any (fun v => v.key == g.key)) = true ∧ (s.findGang 0).any (fun g => !givesWay s g && !gangFinished s g &&
      g.reclaim.isNone && !hasRival s g) = true ∧
    (spent.findGang 0).any (fun g => g.sliceExhausted && !hasRival spent g) = true ∧
    (let r : State := { rival with gangs := rival.gangs.map (fun g => { g with sliceExhausted := true }) }
     (r.findGang 0).any (fun g => g.sliceExhausted && hasRival r g) = true ∧ r.locks = []) ∧
    (cut.findGang 0).any (fun g => allStopped cut g && g.reclaim.any (fun r => decide (r.deadline ≤ cut.time))) = true ∧
    (done.findGang 0).any (fun g => gangFinished done g) = true := by decide +kernel

/-- A micro-op of `fadd.vv` and one of `vld.v` in every cycle of a window, on all lanes, and a number of cycles in which the matrix unit is
idle. -/
def busy (idle : Nat) : CorePlan :=
  ⟨List.replicate 16 ⟨0b0000_101_01001_01101_000_10010_0101011#32, 0xF#4, 7, 256, 32⟩ ++
    List.replicate 16 ⟨0b0000_101_00000_01101_000_10010_1010111#32, 0xF#4, 0, 256, 32⟩, idle⟩

/-- Plans at their bounds: a core whose units are all busy in every cycle beside idle ones (R435). -/
theorem meets_SpreadHolds :
    let s := machine 0 0
    let p : WindowPlans := ⟨busy 0, ⟨[], 16⟩, busy 16, busy 0⟩
    let core := fun (i : Fin 4) => #v[p.c0, p.c1, p.c2, p.c3][i]
    (s.strings[31]?).any (fun x => decide (x.step ≤ 12) && decide (x.minStep ≤ 12)) = true ∧ planWeight (busy 0) = 7680 ∧
    (∀ i, planWeight (core i) ≤ 7680 ∧ (core i).idleMatrix ≤ 16) := by decide +kernel

theorem meets_PowerTimeRouteResult :
    let s := machine 0 0
    let slewing (u : Option Word) : State := { s with time := 1500#64, slew := 2, slewed := u }
    let longest : State := { s with regions := Vector.replicate 4 ⟨[], 57, none, [], []⟩ }
    let narrow : State := { longest with cores := Vector.replicate 128 { CoreState.reset with chainperm := 0 } }
    let low : State := { longest with cores := Vector.replicate 128 { CoreState.reset with chainperm := 0, ceilq := 1 } }
    let route (t : Word) (x : RouteStatus) : State := { s with time := t, routes := [⟨1, x⟩] }
    let done (a : PowerAction) : State := { s with powerActions := [a] }
    (s.slew = 0 ∧ (slewing none).slew ≠ 0 ∧ (1500#64 - 500#64 : Word).toNat = 1000 ∧ (1500#64 - 501#64 : Word).toNat < 1000) ∧
    (s.strings[0]?).any (fun x => decide (x.fits < 16 ∨ x.step ≤ x.minStep)) = true ∧
    ((s.strings[0]?).any (fun x => decide (16 ≤ ({ x with fits := 16, step := 3 } : SeriesString).fits))) = true ∧
    ((s.regions[3]?).any (fun x => decide (x.window ≤ 56)) = true ∧ longest.regions.toList.all (fun x => !decide (x.window ≤ 56)) = true) ∧
    ((longest.core 127).chainperm.getLsbD 5 = true ∧ (narrow.core 0).chainperm = 0#6 ∧ 1 < (narrow.core 0).ceilq.toNat ∧
      (low.core 0).ceilq.toNat ≤ 1) ∧
    (2400000 < (⟨2400001, false, true, 127, 3⟩ : PowerReading).milliwatts ∧ (⟨2400000, false, true, 127, 3⟩ : PowerReading).milliwatts ≤ 2400000) ∧
    (s.gangs.any (fun y => y.placed && y.core == 0 && y.quads.getLsbD (15 / 4)) = true ∧
      s.gangs.all (fun y => !(y.core == 1)) = true) ∧
    (s.powerActions = [] ∧ ((Region.mk [] 24 none [] []).window = 24) ∧ (done (.lowerCeiling 0)).powerActions = .lowerCeiling 0 :: [] ∧
      ((done (.raiseStep 31)).strings[31]?).isSome = true ∧ ((low.core 0).ceilq.toNat < 4)) ∧
    (route 10000000#64 (.retraining 0#64)).routes.any (fun r => decide (r.status = .retraining 0#64) && decide ((0#64 : Word) + 10000000#64 ≤ 10000000#64)) = true ∧
    s.memReady = true ∧ s.boot = .running ∧ ({ s with boot := .stopped } : State).boot ≠ .running ∧
    (s.strings[31]?).any (fun x => decide (x.minStep < 12) && decide (x.step = 0)) = true ∧
    (route 9999999#64 (.retraining 0#64)).time < (0#64 : Word) + 10000000#64 := by decide +kernel

/-- The entry of a firmware call (R455): M mode after an `ecall` from S mode. -/
def calling (n base size rights : Nat) : State :=
  let s := (((((machine 0 0).inMode .machine).withX 17 n).withX 10 base).withX 11 size).withX 12 rights
  { s with hart := { s.hart with mcause := 9#64 } }

theorem meets_FirmwareCallResult_windows :
    let s := calling 0x04140001 0x180000000 0x200000 3
    let t := calling 0x04140002 0x180000000 0 0
    let eight : State := { s with windows := List.replicate 8 ⟨0, 0x180000000, 0x200000, true⟩ }
    (s.hart.run = .running ∧ s.hart.mode = .machine ∧ s.hart.mcause = 9#64 ∧ (s.hart.getX 17).toNat = 0x04140001 ∧
      (t.hart.getX 17).toNat = 0x04140002 ∧ (machine 0 0).hart.mode ≠ .machine) ∧
    ((s.hart.getX 12 = 3#64) ∧ (s.hart.getX 11).toNat ≠ 0 ∧ (s.hart.getX 10).toNat % 2 ^ 21 = 0 ∧ granuleUsable s (0x180000000 / 2 ^ 21) = true ∧
      granuleRealm s (0x180000000 / 2 ^ 21) = s.realmOf s.hart) ∧
    ((s.windows.filter (fun w => w.realm == s.realmOf s.hart)).length < 8 ∧ 8 ≤ (eight.windows.filter (fun w => w.realm == 0)).length) ∧
    ({ t with windows := eight.windows } : State).windows.any (fun w => w.realm == 0 && w.base == 0x180000000) = true := by decide +kernel

/-- A state whose system core 15 calls from HS mode, and whose hart 0 stands at the entry of an `ecall` from user mode. -/
def systemCall (n a0 a1 a2 : Nat) : State :=
  let s := ((((machine 0 0).inMode .machine).withX 17 n).withX 10 a0).withX 11 a1
  let k := SysCore.reset
  { s with
    hart := { s.hart with mcause := 8#64 },
    sysCores := s.sysCores.setIfInBounds 15 { k with mode := .hypervisor, x := ((((k.x.set 17 (BitVec.ofNat 64 n)).set 10 (BitVec.ofNat 64 a0)).set 11
      (BitVec.ofNat 64 a1)).set 12 (BitVec.ofNat 64 a2)) } }

/-- Calls of a system core and of a hart, ranges of realm 0 and of another, with an access begun and none, a realm with work and without. -/
theorem meets_FirmwareCallResult_granules :
    let s := machine 0 0
    let owned : State := { s with granules := [(0x180000000 / 2 ^ 21, 255)] }
    let begun : State := { s with hart := { s.hart with vsq := [storeAt 0x180000000] } }
    let c := systemCall 0x04140010 0x180000000 0x200000 255
    ((c.sysCore 15).mode = .hypervisor ∧ (c.sysCore 15).x[17].toNat = 0x04140010 ∧ c.boot = .running ∧ (c.sysCore 3).x[17].toNat = 0 ∧
      (c.findHart 0).any (fun h => decide (h.run = .running) && decide (h.mode = .machine) && decide (h.mcause = 8#64) &&
        decide ((h.getX 17).toNat = 0x04140010)) = true ∧ (s.findHart 0).any (fun h => !decide (h.mode = .machine)) = true) ∧
    (rangeOfRealm s 0x180000000 0x200000 0 = true ∧ rangeOfRealm owned 0x180000000 0x200000 255 = true ∧
      rangeOfRealm s 0x180000001 0x200000 0 = false ∧ granuleRealm owned (0x180000000 / 2 ^ 21) ≠ 0) ∧
    (accessBegun s 0x180000000 0x200000 = false ∧ accessBegun begun 0x180000000 0x200000 = true) ∧
    (realmBusy owned 255 = false ∧ realmBusy owned 0 = true ∧ owned.windows = []) ∧
    ((s.queue 63).enable = false ∧ (s.queue 63).records = [] ∧ (s.queue 63).held = [] ∧ s.inFlightTo 63 = 0) := by decide +kernel

/-- The device before firmware's restart and after it, and before its memory is accepted; a record that a system core can read, one it
cannot, and one on a locked line. -/
theorem meets_FirmwareCallResult_doorbell :
    let s := machine 0 0
    let r : State := { s with restarted := true }
    (s.memReady = true ∧ State.reset.memReady = false ∧ doorLocked r 15 0x180000000 = false ∧
      doorLocked { r with locks := [⟨9, 0x180000040 / 64⟩] } 15 0x180000000 = true) ∧
    s.boot = .running ∧ s.restarted = false ∧ r.restarted = true ∧ (doorRecord r 15 0x180000000).isSome = true ∧
    (doorRecord r 15 0x180000020).isNone = true ∧ (0x180000020 : Nat) % 64 ≠ 0 ∧
    ({ s with boot := .stopped } : State).boot ≠ .running := by decide +kernel

/-- Addresses that each kind of request reaches and not, a lock, poison, a route that retrains and one not yet trained. -/
theorem meets_RequestResult :
    let s := machine 0 0
    let t : State := { s with routes := [⟨1, .retraining 0#64⟩, ⟨2, .untrained⟩] }
    let io := s.device * 2 ^ 53 + 0x50000000000
    (s.boot ≠ .stopped ∧ ({ s with boot := .stopped } : State).boot = .stopped) ∧
    ((pcieKey s 0x180010000).isSome = true ∧ (pcieKey s 0x10180010000).isNone = true ∧ (shofinKey s 0 0x180010000).isSome = true ∧
      (shofinKey s 7 0x180010000).isNone = true ∧ (systemKey s true 0x180010000).isSome = true ∧ (firmwareKey s 0x40000000000).isSome = true) ∧
    (t.routes.any (fun o => decide (o.device = 1) && decide (o.status = .retraining 0#64)) = true ∧
      t.routes.any (fun o => decide (o.device = 2) && decide (o.status = .untrained)) = true) ∧
    ((s.sysCore 0).mode = .machine ∧ ((systemCall 0 0 0 0).sysCore 15).mode ≠ .machine) ∧
    (0x180010000 < io ∧ io + 0x10000 + 16 * 63 + 8 < io + 2 ^ 24) ∧
    ({ s with locks := [⟨9, 0x180010000 / 64⟩] } : State).locks.any (fun l => decide (l.line = 0x180010000 / 64)) = true ∧
    keyPoisoned { s with poison := [⟨0x180010000, 64⟩] } 0x180010000 = true ∧ keyPoisoned s 0x180010000 = false := by decide +kernel

/-- The pages of an access that crosses one: in M mode, in HS mode without and with translation, where the tables hold nothing. -/
theorem meets_RequestResult_pages :
    let s := machine 0 0
    let core (k : SysCore) : State := { s with sysCores := s.sysCores.setIfInBounds 15 k }
    let host := core { SysCore.reset with mode := .hypervisor }
    let tables := core { SysCore.reset with mode := .hypervisor, satp := 0x9000000000180020#64 }
    let r : MemRequest := ⟨0x180010FFC#64, .load 8⟩
    let got (x : Except ExternalResult (List (Nat × Nat) × State)) : Except ExternalResult (List (Nat × Nat)) := x.map (fun y => y.1)
    ((s.sysCore 15).dataMode = .machine ∧ (host.sysCore 15).dataMode = .hypervisor ∧ (host.sysCore 15).satp.toNat / 2 ^ 60 = 0) ∧
    (requestPages r = [0x180010, 0x180011] ∧
      (match got (sysPages 15 false (requestPages r) s) with | .ok l => decide (sysAddress l 0x180011003 = 0x180011003) | .error _ => false) = true ∧
      (match got (sysPages 15 false (requestPages r) host) with | .ok l => decide (l.length = 2) | .error _ => false) = true ∧
      (match got (sysPages 15 false (requestPages r) tables) with | .ok _ => false | .error e => decide (e = .pageFault)) = true) := by
  decide +kernel

/-- A key of index 3 for queue 5. -/
def keyed : State :=
  let s := machine 0 0
  { s with restarted := true, keys := [⟨3, List.replicate 32 0, List.replicate 4 0, 0, 0x20#64, 0#64⟩],
           queues := s.queues.setIfInBounds 5 { LaunchQueue.reset with enable := true } }

/-- A launch frame of 160 bytes: format, queue, key index and the sequence number 1. -/
def frame (queue key : Nat) : List Byte := [1, byteOf queue, byteOf key, 0, 0, 0, 0, 0, 1] ++ List.replicate 151 0

/-- A frame of a wrong length, of an unknown key, for a queue outside the mask: the first three reasons; and one that
arrives before the restart. -/
theorem meets_RequestResult_frames :
    (frameChecks keyed [1]).find? (fun c => c.1) = some (true, 0) ∧ (frameChecks keyed (frame 5 4)).find? (fun c => c.1) = some (true, 1) ∧
    (frameChecks keyed (frame 6 3)).find? (fun c => c.1) = some (true, 2) ∧
    (frameChecks { keyed with restarted := false } (frame 5 3)).find? (fun c => c.1) = some (true, 5) := by decide +kernel

/-- A frame whose sequence number is not above the last accepted one: the fourth reason. -/
theorem meets_RequestResult_replayed :
    let s : State := { keyed with keys := keyed.keys.map (fun (k : EthKey) => { k with last := 1#64 }) }
    (frameChecks s (frame 5 3)).find? (fun c => c.1) = some (true, 3) := by decide +kernel

/-- A frame that opens passes every check; whether it opens is the opaque cipher's to say (log 16). -/
theorem meets_RequestResult_opened (p : List Byte)
    (h : Config.gcmOpen (List.replicate 32 0) (List.replicate 4 0 ++ ((frame 5 3).drop 8).take 8) ((frame 5 3).take 16)
      (((frame 5 3).drop 16).take 128) (((frame 5 3).drop 0x90).take 16) = some p) :
    (frameChecks keyed (frame 5 3)).find? (fun c => c.1) = none := by
  have k : keyed.keys.find? (fun k => k.index == ofBytes (((frame 5 3).drop 2).take 2)) =
      some ⟨3, List.replicate 32 0, List.replicate 4 0, 0, 0x20#64, 0#64⟩ := by decide +kernel
  refine List.find?_eq_none.mpr fun c hc => ?_
  simp only [frameChecks, List.mem_cons, List.not_mem_nil, or_false] at hc
  obtain rfl | rfl | rfl | rfl | rfl | rfl | rfl := hc
  · decide +kernel
  · decide +kernel
  · decide +kernel
  · decide +kernel
  · decide +kernel
  · simp only [k, Option.any_some, h]
    simp
  · decide +kernel

/-- Whether a boot chain passes is the opaque cryptography's to say (log 16). -/
theorem meets_ResetReportResult :
    (State.reset.memReady = false ∧ (machine 0 0).memReady = true) ∧
    (State.reset.boot = .running ∧ ({ State.reset with boot := .stopped } : State).boot ≠ .running) ∧
    (List.replicate 32 0#8).length = 32 ∧ ([] : List Byte).length ≠ 32 ∧ (1 ≤ 4 ∧ (4 : Nat) ≤ 4) ∧ ((0 : Nat) = 0 ∨ 4 < 0) ∧
    (State.reset.measurements.find? (fun m => m.1 == 7)).isNone = true ∧
    [(7, 3#384)].find? (fun (m : Nat × BitVec 384) => m.1 == 7) = some (7, 3#384) := by decide +kernel

theorem meets_EncodeDecode :
    (Instr.addVv 5 9 13 18).wf = true ∧ (encode (.addVv 5 9 13 18)).isSome = true ∧
    (∀ x, Instr.addVv 5 9 13 18 ≠ .illegalInstruction x) := ⟨by decide +kernel, by decide +kernel, fun _ => Instr.noConfusion⟩

/-- A scalar store that can be performed and one that waits; a key entry; firmware at its last step and before it, by the routes. -/
theorem meets_StepRunsDecoded_agenda :
    let s := (machine 0 0).withStores
    let l : State := { s with locks := [⟨9, 0x180010000 / 64⟩] }
    let up : State := { s with routes := [⟨1, .up⟩, ⟨2, .down⟩] }
    s.hart.ssq = storeAt 0x180010000 :: [] ∧ entryWait s (storeAt 0x180010000) = none ∧ entryWait l (storeAt 0x180010000) ≠ none ∧
    keyed.keys.all (fun k => decide (k.index < 1024)) = true ∧ (2047 : Nat) < 2048 ∧
    (up.boot = .running ∧ up.restarted = false ∧ up.memReady = true ∧
      up.routes.all (fun o => decide (o.status = .up ∨ o.status = .down)) = true ∧ State.reset.memReady = false) := by decide +kernel

/-- A load of the scalar stream still to be performed, which goes before a word that reads its register, performed and not; a word before
which none goes. -/
theorem meets_StepRunsDecoded_loads :
    let l : ScalarLoad := ⟨.load .ld 5, 0x180010000#64, 8, .cached, 0x180010000, none, 0, none⟩
    let s := machine 0 0
    let t : State := { s with hart := { s.hart with slq := [l] } }
    let locked : State := { t with locks := [⟨9, 0x180010000 / 64⟩] }
    let ends (x : Except WaitReason State) : Option WaitReason := match x with | .ok _ => none | .error r => some r
    let w := 0b000000000001_00101_000_00110_0010011#32
    (pieceWait t l.piece = none ∧ pieceWait locked l.piece = some .lineLock) ∧
    (loadsFirst t w = true ∧ ends (withLoads t w) = none ∧ ends (withLoads locked w) = some .lineLock ∧ loadsFirst t 0x00100093#32 = false) ∧
    (s.hart.slq = [] ∧ s.hart.oldLines = []) := by decide +kernel

/-- An event and a switch on the agenda; a hart that fetches a word that decodes and one that does not, and one outside its code. -/
theorem meets_StepRunsDecoded :
    let s := (machine 0 0).withBytes 0x180000000 4 0x00100093
    let t := machine 0 0
    let out : State := { s with hart := { s.hart with pc := 0x180010000#64 } }
    s.agenda = [] ∧ s.turn < 8 ∧ s.hart.run = .running ∧ s.hart.hasVectorWork = false ∧ s.hart.nextInterrupt = none ∧ s.hart.stall = none ∧
    (match fetchPlace s with | .ok (_, c) => decide (wordAt s c.ap c.key = 0x00100093#32) | .error _ => false) = true ∧
    (match fetchPlace t with | .ok (_, c) => refused (wordAt t c.ap c.key) | .error _ => false) = true ∧
    (match fetchPlace out with | .ok _ => false | .error (.fault c) => decide (c = 1) | .error (.wait _) => false) = true := by decide +kernel

theorem meets_MemoryCanonical :
    memWf State.reset.mem = true ∧ memWf ((machine 0 0).withBytes 0x180000000 4 0x00100093).mem = true := by decide +kernel

/-! One step of an instruction. The expected values are those of the worked examples of the spec. -/

/-- Elements of `w` bits packed, the first lowest. -/
def packed (w : Nat) (l : List Nat) : Nat := l.foldr (fun x acc => x % 2 ^ w + 2 ^ w * acc) 0

/-- What holds of the next state of an instruction; false where there is none. -/
def after (i : Instr) (s : State) (p : State → Bool) : Bool :=
  match exec i s with
  | .next t => p t
  | _ => false

/-- Elements 0 to n − 1 of a group. -/
def elems (t : State) (r g sew n : Nat) : List Nat := (List.range n).map (t.elem r g sew)

/-- Grants of R168 (07), at 16 lanes. -/
theorem test_setl_grants :
    (∀ r ∈ [((0x003 : Nat), 1000, 512, 0x200), (0x022, 128 * 2 ^ 32 + 128, 4096, 0x8000000080), (0x0C2, 1000, 1024, 0x3F0)],
      after (.setlR 11 10 5) (((machine 0 0).withX 10 r.2.1).withX 11 r.1) (fun t =>
        decide (t.hart.getX 5 = BitVec.ofNat 64 r.2.2.2) && decide (t.cfg.vlmax = r.2.2.1)) = true) ∧
    after (.setl 0x035 0 5) (machine 0 0) (fun t => decide (t.hart.getX 5 = 0x400#64)) = true ∧
    after (.setl 0x008 0 5) (machine 0 0) (fun t => decide (t.hart.getX 5 = 0#64) && t.hart.vtype.getLsbD 63) = true := by decide +kernel

/-- A shape through an address computation: `vid`, a shift and a sum stay one register each (08, the example after R190). -/
theorem test_vid_sll_add :
    after (.vid 0 8) (machine 0x05 128) (fun t =>
      after (.sllVi 0 8 3 8) t (fun u =>
        after (.addVx 0 8 12 8) (u.withX 12 0x1000) (fun z => elems z 8 1 5 4 == [0x1000, 0x1008, 0x1010, 0x1018]))) = true := by decide +kernel

/-- The block of 03 quantised to FP4: its codes, its scale 0x57, NX alone. -/
theorem test_vquant_fp4 :
    after (.vquant 0 16 9 8) ((machine 0x00 8).withV 16 (packed 32 [0x3E99999A, 0xBF99999A, 0x40200000, 0, 0x40A33333, 0xBF333333, 0x3FF33333,
        0x40533333])) (fun t =>
      elems t 8 1 2 4 == [0xB1, 0x05, 0xA7, 0x64] && t.elem 9 1 2 0 == 0x57 && t.hart.vflags == 1#9) = true := by decide +kernel

/-- The FP4 rounding of 03: 2.5 becomes 2, 1.25 becomes 1, 0.25 becomes 0. -/
theorem test_fp4_ties :
    [0x40200000, 0x3FA00000, 0x3E800000].map (fun x => (toFormat .fp4 .rne (decodeFloat .fp32 x)).1) = [4, 2, 0] := by decide +kernel

/-- The first two windows of the example of R77: the sum keeps what a sequential sum loses; a term below the grid is dropped. -/
theorem test_window :
    blockUpdate 0 [.ofInt (2 ^ 24), .ofInt 1, .ofInt 1] (.ofInt 1) = (0x4B800001, 0) ∧
    blockUpdate 0 [.ofInt (2 ^ 24), .fin false 1 (-4), .ofInt 1] (.ofInt 1) = (0x4B800000, 1) ∧
    blockUpdate 0 [.ofInt 1024, .fin true 3 (-18)] (.ofInt 1) = (0x44800000, 1) := by decide +kernel

/-- One element with row and column scales (10): C[0][0] from 10.0 to 2336.11328125, no flag. -/
theorem test_mpa_scales :
    (let s := ((machine 0x02 2).withRows 1).withV 8 (packed 8 [0x3C, 0x3C, 0x3C])
     let t := s.withV 9 (packed 8 [0x7E, 0, 0x20, 0, 0x44])
     let h := { t.hart with sA := t.hart.sA.set 0 0xA0, sB := t.hart.sB.set 0 0x57, t := t.hart.t.set 0 (Tile.reset.setRow 0 [(0x41200000, false)]) }
     after (.mpa 9 8 0) { t with hart := h } (fun u => (u.hart.getT 0).elem 0 0 == 0x451201D0 && u.hart.vflags == 0#9)) = true := by
  decide +kernel

/-- The first blocks of an octet given anchors and quantum exponents at the current block size and width, version 6. -/
def octet (s : State) (n : Nat) (as : List (Nat × Int)) : State :=
  let row := as.zipIdx.foldl (fun (v : Vector (BitVec 128) 128) a => v.setIfInBounds a.2 (makeDesc a.1.1 a.1.2 (geomByte s.cfg.block s.cfg.w) 6))
    (Vector.replicate 128 0)
  { s with hart := { s.hart with w := s.hart.w.setIfInBounds n row } }

/-- The descriptor of 04: 1000.0, quantum 2^-2, four 8-bit cells, version 6. -/
theorem test_descriptor : makeDesc 0x408F400000000000 (-2) (geomByte 4 8) 6 = 0x000000000006_09_FE_408F400000000000#128 := by decide +kernel

/-- The product block of 04: 3.0 by 10.0 to the quantum 2^-2. -/
theorem test_amul :
    after (.amulVi 16 30 8)
      ((octet (octet (machine 0x42 4) 1 [(0x4008000000000000, -3)]) 2 [(0x4024000000000000, -4)]).withV 8 (packed 8 [2, 252, 0, 7])
        |>.withV 16 (packed 8 [1, 8, 254, 0])) (fun t =>
      elems t 8 1 2 4 == [11, 241, 254, 35] && t.hart.desc 1 0 == makeDesc 0x403E000000000000 (-2) 9 8 && t.hart.vflags == 1#9) = true := by
  decide +kernel

/-- The block of 04 re-anchored at its midrange with a coarser quantum. -/
theorem test_areanchor :
    after (.areanchorVx 8 10 8) (((octet (machine 0x42 4) 1 [(0x407F400000000000, -1)]).withV 8 (packed 8 [156, 20, 90, 126])).withX 10 1) (fun t =>
      elems t 8 1 2 4 == [200, 4, 38, 56] && t.hart.desc 1 0 == makeDesc 0x407FA80000000000 0 9 8 && t.hart.vflags == 1#9) = true := by
  decide +kernel

/-- The difference of 09 written into a third octet, whose descriptor stays. -/
theorem test_asub :
    after (.asubVv 17 9 0)
      ((octet (octet (octet (machine 0x42 4) 0 [(0x4018000000000000, -1)]) 1 [(0x4010000000000000, -1)]) 2 [(0x4024000000000000, -2)]).withV 9
          (packed 8 [1, 3, 255, 0]) |>.withV 17 (packed 8 [1, 254, 6, 3])) (fun t =>
      elems t 0 1 2 4 == [0, 252, 4, 2] && t.hart.desc 0 0 == makeDesc 0x4018000000000000 (-1) 9 6 && t.hart.vflags == 1#9) = true := by
  decide +kernel

/-- The overflow of 09: block 2 of three cannot be represented; the trap is delivered to the user handler. -/
theorem test_aadd_overflow :
    after (.aaddVi 1 10 1)
      ((octet (machine 0x42 12) 0 [(0x4030000000000000, -2), (0x4040000000000000, -2), (0x4050000000000000, -2)]).withV 1
          (packed 8 [0, 0, 0, 0, 253, 1, 5, 7, 120, 100, 90, 110]) |>.withAreas 0 0x180020000) (fun t =>
      t.hart.vobm0 == 4#64 && t.hart.vobm1 == 0#64 && t.hart.vflags == 0x100#9 && t.hart.acause == 7#64 && t.hart.anchorHandler &&
        t.hart.pc == 0x180000200#64 && elems t 1 1 2 12 == [0, 0, 0, 0, 253, 1, 5, 7, 120, 100, 90, 110]) = true := by decide +kernel

/-- The second step of the error feedback of 10: element 0 rounds to zero and sets UF; the new errors. -/
theorem test_vqef :
    after (.vqef 0 16 24 8)
      ((machine 0x00 8).withV 16 (packed 32 [0x3E800000, 0xBFA00000, 0x40200000, 0, 0x40A00000, 0xBF400000, 0x3FF00000, 0x40500000])
        |>.withV 24 (packed 32 [0xBE300000, 0x3C800000, 0xBD000000, 0, 0xBD800000, 0x3DC00000, 0x3E400000, 0xBE000000])) (fun t =>
      elems t 8 1 2 4 == [0xB0, 0x05, 0xA7, 0x64] && t.elem 9 1 2 0 == 0x55 && t.hart.vflags == 3#9 &&
        elems t 24 8 4 8 == [0x3DA00000, 0x3C000000, 0xBC800000, 0, 0xBD000000, 0x3E300000, 0x3ED00000, 0xBE400000]) = true := by decide +kernel

/-- The block of 10 with two outliers beyond 16. -/
theorem test_vouts :
    after (.vouts 0 16 8 9)
      (((machine 0x00 8).withV 16 (packed 32 [0x3F000000, 0x42200000, 0xBF800000, 0x40000000, 0xC2700000, 0x3E800000, 0x40400000, 0x3F800000])).withF 8
        0xFFFFFFFF41800000) (fun t =>
      elems t 9 1 2 4 == [0x72, 0x6C, 0x10, 0x47] && t.elem 10 1 2 0 == 0x40 && t.elem 11 1 4 0 == 0x0004D380 && t.hart.vflags == 0x81#9 &&
        t.hart.voutcnt == 1#32) = true := by decide +kernel

/-- The scatter-add of 12 with repeated indices: the values returned and the memory left. -/
theorem test_vamo_fadd :
    after (.vamo 0 6 10 .fadd 4)
      ((((machine 0x04 4).withX 10 0x180010000).withV 4 (packed 32 [0x3F800000, 0x40400000, 0x3F800000, 0x40000000])
        |>.withV 6 (packed 64 [4, 0, 4, 4])).withBytes 0x180010000 8 (0x3F800000 + 0x4B800000 * 2 ^ 32)) (fun t =>
      elems t 4 1 4 4 == [0x4B800000, 0x3F800000, 0x4B800000, 0x4B800000] && t.hart.vflags == 1#9 &&
        ofBytes (readKeys t 0x180010000 8) == 0x40800000 + 0x4B800001 * 2 ^ 32) = true := by decide +kernel

/-- The leaf of 17: a page of device 3 with R, W, U, A, D and kind 2. -/
theorem test_leaf :
    let s := { machine 0 0 with device := 3 }
    let t : State := { s with hart := { s.hart with satp := 0xF000000000000000#64 ||| BitVec.ofNat 64 (0x180000000 / 4096) } }
    let u := (((t.withBytes 0x180000000 8 0x180001001).withBytes (0x180001000 + 8 * 0x48) 8
      0x180002001).withBytes (0x180002000 + 8 * 0x1A2) 8 0x180003001).withBytes
        (0x180003000 + 8 * 0x167) 8 0x00600041001002D7
    (match translate u (u.agent u.hart .user) .write 0x1234567000 with
     | .ok leaf => decide (leaf.page = 0x0060004100100000) && decide (leaf.kind = some 2)
     | .error _ => false) = true := by decide +kernel

/-- The stalled core of 21 under policy 00: ten cycles of busywork on core 22 and no step. -/
theorem test_spread_busywork :
    after (.stringWindow 5 ⟨busy 0, busy 0, busy 16, busy 0⟩) (machine 0 0) (fun t =>
      (t.strings[5]?).any (fun x => x.step == 0 && x.strbal == 0x001EFFE2001E001E#64)) = true := by decide +kernel

/-- The same under policy 01: step 10, no busywork, the same deviations. -/
theorem test_spread_throttle :
    let s := machine 0 0
    after (.stringWindow 5 ⟨busy 0, busy 0, busy 16, busy 0⟩)
      { s with strings := s.strings.setIfInBounds 5 { SeriesString.reset with pol := 1#2 } } (fun t =>
      (t.strings[5]?).any (fun x => x.step == 10 && x.strbal == 0x001EFFE2001E001E#64)) = true := by decide +kernel

/-- The PC-relative address of 06: `auipc` and `addi` of the words shown. -/
theorem test_pcrel :
    (match decodeWord 0x00001517#32, decodeWord 0xFC050513#32 with
     | .ok i, .ok j => after i (machine 0 0) (fun t => after j t (fun u => u.hart.getX 10 == 0x180000000#64 + 0x1000#64 - 64#64))
     | _, _ => false) = true := by decide +kernel

/-- The size of the image of 18: three G registers, m1, w0 and a tile of eight rows. -/
theorem test_context_size :
    let s := ((((machine 0 0).withV 1 1).withV 2 1).withV 3 1)
    let tile := (List.range 8).foldl (fun (t : Tile) i => t.setRow i [(1, false)]) Tile.reset
    let h := { s.hart with ownTiles := 1, m := s.hart.m.set 1 1, w := s.hart.w.set 0 (Vector.replicate 128 1), t := s.hart.t.set 0 tile }
    contextSize h 16 = 12608 := by decide +kernel

/-! The example of R300: a chunk of FP16 gradients, and its sidecar line. -/

/-- Eleven zeros, twelve halfwords of exponent 12 with a zero low byte, nine of exponent 14 with none. -/
def gradientChunk : List Byte :=
  List.replicate 22 0#8 ++ (List.replicate 12 [0x00#8, 0x30#8]).flatten ++ (List.replicate 9 [0x81#8, 0x3B#8]).flatten

theorem test_stored_sizes : (List.range 4).map (fun k => storedSize k gradientChunk) = [64, 64, 38, 62] := by decide +kernel

/-- R301: the line of page 0x18_0000 lies at 64 × 0x18_0000 of region 0: its kind in the low byte, SIZE of chunk 0 from bit 64. -/
theorem test_sidecar :
    (let s := { State.reset with mem := memWriteBytes [] 0x180000000 gradientChunk, kinds := [(0x180000, 2)] }
     readKey s 0x6000000 == 2#8 && readKey s 0x6000001 == 0#8 && readKey s 0x6000008 == 38#8 && readKey s 0x6000009 == 0#8 &&
       readKey s 0x180000016 == 0#8 && readKey s 0x180000017 == 0x30#8) = true := by decide +kernel
end

section
/-! SUPPORT. What every operation of the state does to memory: most leave it as it is, the others write it byte by byte or erase a
range, and so keep its canonical form (R285; log 4). -/

namespace Sys2Proof.Machine

/-! Folds. -/

/-- Updates that leave memory leave it when made one after another. -/
@[simp] theorem foldl_mem {α : Type} {f : State → α → State} (hf : ∀ a x, (f a x).mem = a.mem) (s : State) (l : List α) :
    (l.foldl f s).mem = s.mem := by
  induction l generalizing s with
  | nil => rfl
  | cons x xs ih => rw [List.foldl_cons, ih, hf]

/-- Updates that keep memory canonical keep it when made one after another. -/
theorem foldl_wf {α : Type} {f : State → α → State} (hf : ∀ a x, memWf a.mem = true → memWf (f a x).mem = true) {s : State}
    (h : memWf s.mem = true) (l : List α) : memWf (l.foldl f s).mem = true := by
  induction l generalizing s with
  | nil => exact h
  | cons x xs ih => exact ih (hf s x h)

/-! `Sys2Proof/Machine/Mem`. -/

@[simp] theorem dropReservations_mem (lines : List Nat) (s : State) : (dropReservations lines s).mem = s.mem := rfl

@[simp] theorem zeroRange_wf {s : State} (h : memWf s.mem = true) (base size : Nat) : memWf (zeroRange base size s).mem = true :=
  memWf_memErase h base size

@[simp] theorem setPageKind_mem (s : State) (page kind : Nat) : (setPageKind s page kind).mem = s.mem := by simp [setPageKind]

@[simp] theorem State.showStale_mem (s : State) (ap : Aperture) (key : Nat) (shown : Option Nat) :
    (s.showStale ap key shown).mem = s.mem := rfl

@[simp] theorem setArrival_mem (s : State) (core bank : Nat) (ap : Option Nat) : (setArrival s core bank ap).mem = s.mem := by
  unfold setArrival
  split <;> rfl

@[simp] theorem State.applyMark_wf {s : State} (h : memWf s.mem = true) (m : LeafMark) : memWf (s.applyMark m).mem = true := by
  unfold State.applyMark
  dsimp only
  split
  · exact h
  · exact storeRun_wf h _ _

@[simp] theorem performEntry_wf {s : State} (h : memWf s.mem = true) (e : VsqEntry) : memWf (performEntry e s).mem = true := by
  have hm := foldl_wf (fun _ x h => State.applyMark_wf h x) h e.marks
  have hs := storeBytes_wf hm e.pending
  unfold performEntry
  dsimp only
  split <;> simpa using hs

/-! `Sys2Proof/Machine/Ops`. -/

@[simp] theorem State.putHart_mem (s : State) (h : Hart) : (s.putHart h).mem = s.mem := by
  unfold State.putHart
  split <;> rfl

@[simp] theorem State.switchTo_mem (s : State) (hid : Nat) : (s.switchTo hid).mem = s.mem := by
  unfold State.switchTo
  dsimp only
  repeat' split
  all_goals simp

@[simp] theorem State.takeFree_mem (s : State) : s.takeFree.2.mem = s.mem := rfl

@[simp] theorem State.countHart_mem (s : State) (code amount : Nat) (mode : Mode) : (s.countHart code amount mode).mem = s.mem := by
  unfold State.countHart
  split <;> rfl

@[simp] theorem State.countCore_mem (s : State) (core code amount : Nat) : (s.countCore core code amount).mem = s.mem := by
  unfold State.countCore
  split <;> rfl

@[simp] theorem State.setHpm_mem (s : State) (core i : Nat) (v : Word) : (s.setHpm core i v).mem = s.mem := rfl

@[simp] theorem readHpm_mem (s : State) (core i : Nat) : (readHpm s core i).2.mem = s.mem := by
  unfold readHpm
  dsimp only
  split
  · rfl
  · split <;> rfl

@[simp] theorem State.addSlack_mem (s : State) (amount : Nat) (mode : Mode) : (s.addSlack amount mode).mem = s.mem := by
  unfold State.addSlack
  split <;> rfl

@[simp] theorem settleHpm_mem (s : State) (core i : Nat) : (settleHpm s core i).mem = s.mem := readHpm_mem s core i

@[simp] theorem settleCounters_mem (s : State) (core : Nat) : (settleCounters s core).mem = s.mem := by simp [settleCounters]

@[simp] theorem writeChainperm_mem (s : State) (core n : Nat) : (writeChainperm s core n).mem = s.mem := by simp [writeChainperm]

@[simp] theorem State.retire_mem (s : State) : s.retire.mem = s.mem := by
  unfold State.retire
  split <;> rfl

@[simp] theorem State.advance_mem (s : State) : s.advance.mem = s.mem := by simp [State.advance]

@[simp] theorem State.countFault_mem (s : State) : s.countFault.mem = s.mem := by
  unfold State.countFault
  split <;> rfl

@[simp] theorem State.takeTrap_mem (s : State) (cause : Nat) (interrupt : Bool) (epc tval : Word) :
    (s.takeTrap cause interrupt epc tval).mem = s.mem := by
  unfold State.takeTrap
  split <;> simp

@[simp] theorem State.raise_mem (s : State) (cause : Nat) (tval : Word) : (s.raise cause tval).mem = s.mem := by
  unfold State.raise
  split <;> simp

@[simp] theorem State.drainFirst_mem (s : State) : s.drainFirst.mem = s.mem := rfl

@[simp] theorem State.raiseIllegal_mem (s : State) (word : InstrWord) : (s.raiseIllegal word).mem = s.mem := by simp [State.raiseIllegal]

@[simp] theorem State.markTerminated_mem (s : State) : s.markTerminated.mem = s.mem := by
  unfold State.markTerminated
  split <;> rfl

@[simp] theorem State.terminateHart_mem (s : State) : s.terminateHart.mem = s.mem := by simp [State.terminateHart]

@[simp] theorem settleBarriers_mem (s : State) (g : Gang) : (settleBarriers s g).mem = s.mem := rfl

@[simp] theorem State.settleOwn_mem (s : State) : s.settleOwn.mem = s.mem := by
  unfold State.settleOwn
  split <;> rfl

@[simp] theorem State.setAdmitted_mem (s : State) (core hid : Nat) : (s.setAdmitted core hid).mem = s.mem := rfl

/-! `Sys2Proof/Machine/Translate`. -/

@[simp] theorem markLeaf_wf {s : State} (h : memWf s.mem = true) (g : Agent) (acc : Access) (va : Nat) (leaf : Leaf) :
    memWf (markLeaf s g acc va leaf).mem = true := by
  unfold markLeaf
  cases leafMark g acc va leaf <;> simp [h]

@[simp] theorem storeRaw_mem (s : State) (p : Probed) : (storeRaw s p).mem = s.mem := by simp [storeRaw, apply_ite State.mem]

@[simp] theorem commitProbe_wf {s : State} (h : memWf s.mem = true) (rs : List ProbeReq) (ps : List Probed) :
    memWf (commitProbe s rs ps).mem = true := by
  have hm := foldl_wf (fun _ x h => State.applyMark_wf h x) h (probeMarks rs ps)
  simpa [commitProbe] using hm

@[simp] theorem writeMissRecord_wf {s : State} (h : memWf s.mem = true) (missing : List (Nat × Bool)) :
    memWf (writeMissRecord s missing).mem = true := by
  unfold writeMissRecord
  dsimp only
  split
  · exact storeRun_wf (by exact h) _ _
  · exact h

@[simp] theorem markScalar_wf {s : State} (h : memWf s.mem = true) (g : Agent) (acc : Access) (leaf : Leaf) (c : Piece) :
    memWf (markScalar s g acc leaf c).mem = true := by
  unfold markScalar
  dsimp only
  split <;> simp [h]

@[simp] theorem State.waitFor_mem (s : State) (r : WaitReason) : (s.waitFor r).mem = s.mem := rfl

@[simp] theorem State.scalarStop_mem (s : State) (stop : ScalarStop) (va : Nat) : (s.scalarStop stop va).mem = s.mem := by
  unfold State.scalarStop
  split <;> simp

/-! `Sys2Proof/Machine/Operands`. -/

@[simp] theorem expandReg_mem (s : State) (n : Nat) : (expandReg s n).mem = s.mem := by
  unfold expandReg
  dsimp only
  repeat' split
  all_goals simp_all [State.takeFree]

@[simp] theorem State.countAdmission_mem (s : State) (code amount : Nat) (mode : Mode) :
    (s.countAdmission code amount mode).mem = s.mem := by
  unfold State.countAdmission
  split <;> simp

@[simp] theorem State.wakeLanes_mem (s : State) (lanes : BitVec 16) : (s.wakeLanes lanes).mem = s.mem := rfl

@[simp] theorem State.issued_mem (s : State) (micro : Nat) (mode : Mode) (lanes : BitVec 16) : (s.issued micro mode lanes).mem = s.mem := by
  unfold State.issued
  split <;> simp

@[simp] theorem State.countAdmitted_mem (s : State) (e : VEntry) (micro extent : Nat) : (s.countAdmitted e micro extent).mem = s.mem := by
  unfold State.countAdmitted
  split <;> simp

@[simp] theorem State.noteUses_mem (s : State) (e : VEntry) (u : Uses) (micro : Nat) : (s.noteUses e u micro).mem = s.mem := by
  unfold State.noteUses
  split <;> simp

@[simp] theorem State.noteWritten_mem (s : State) (w : InstrWord) (u : Uses) : (s.noteWritten w u).mem = s.mem := by
  unfold State.noteWritten
  split <;> rfl

@[simp] theorem mergeBase_mem (s : State) (r : VReg) (j regBits sew grp : Nat) : (mergeBase s r j regBits sew grp).2.mem = s.mem := by
  unfold mergeBase
  split <;> rfl

@[simp] theorem writePart_mem (sew grp first v m p : Nat) (s : State) (j : Nat) : (writePart sew grp first v m p s j).mem = s.mem := by
  simp [writePart]

@[simp] theorem writeBits_mem (s : State) (first count sew regs v m p : Nat) : (writeBits s first count sew regs v m p).mem = s.mem := by
  simp [writeBits]

@[simp] theorem writeGroup_mem (s : State) (first count sew : Nat) (es : List (Option (Nat × Bool))) :
    (writeGroup s first count sew es).mem = s.mem := by
  simp [writeGroup]

@[simp] theorem writeElem0_mem (s : State) (n : Nat) (x : Nat × Bool) : (writeElem0 s n x).mem = s.mem := by
  simp [writeElem0]

@[simp] theorem AOp.consume_mem (a : AOp) (s : State) : (AOp.consume a s).mem = s.mem := by
  unfold AOp.consume
  split <;> rfl

/-! `Sys2Proof/Machine/Vector`. -/

@[simp] theorem endArrival_mem (h : Hart) (s : State) : (endArrival h s).mem = s.mem := by simp [endArrival]

@[simp] theorem State.dropWork_mem (s : State) : s.dropWork.mem = s.mem := by simp [State.dropWork]

@[simp] theorem applySide_wf {s : State} (h : memWf s.mem = true) (side : TrapSide) (mode : Mode) :
    memWf (applySide s side mode).mem = true := by
  cases side with
  | marked ms => exact foldl_wf (fun _ x h => State.applyMark_wf h x) h ms
  | missing pages => simp [applySide, h]
  | plain | admitted | overflow _ _ | clearNmError => simpa [applySide] using h

@[simp] theorem deliverSupervisor_wf {s : State} (h : memWf s.mem = true) (e : VEntry) (cause : Nat) (tval : Word) (younger : List VEntry) :
    memWf (deliverSupervisor s e cause tval younger).mem = true := by
  unfold deliverSupervisor
  dsimp only
  split
  · simp [h]
  · split <;> simp [storeRun_wf, h]

@[simp] theorem deliverUser_wf {s : State} (h : memWf s.mem = true) (e : VEntry) (cause : Nat) (tval : Word) (younger : List VEntry)
    (r : ProbeReq) (p : Probed) : memWf (deliverUser s e cause tval younger r p).mem = true := by
  simp [deliverUser, h]

@[simp] theorem deliver_wf {s : State} (h : memWf s.mem = true) (e : VEntry) (cause : Nat) (tval : Word) (side : TrapSide)
    (younger : List VEntry) : memWf (deliver s e cause tval side younger).mem = true := by
  have h1 : memWf (applySide (if countsAdmitted cause side then s.countAdmitted e 0 else s).dropWork side e.mode).mem = true := by
    split <;> simp [h]
  unfold deliver
  dsimp only
  generalize applySide _ side e.mode = t at h1
  repeat' split
  all_goals simp [h1]

@[simp] theorem State.wake_mem (s : State) (r : WaitReason) : (s.wake r).mem = s.mem := rfl

@[simp] theorem State.release_mem (s : State) : s.release.mem = s.mem := by
  unfold State.release
  split <;> rfl

@[simp] theorem State.complete_mem (s : State) (younger : List VEntry) : (s.complete younger).mem = s.mem := by simp [State.complete]

@[simp] theorem State.admitted_mem (s : State) (h : Hart) (mode : Mode) : (s.admitted h mode).mem = s.mem := by
  unfold State.admitted
  split <;> rfl

@[simp] theorem State.clearUses_mem (s : State) : s.clearUses.mem = s.mem := rfl

@[simp] theorem State.noteRun_mem (s : State) (w : InstrWord) : (s.noteRun w).mem = s.mem := by simp [State.noteRun]

@[simp] theorem State.alone_mem (s : State) : s.alone.mem = s.mem := rfl

@[simp] theorem State.underPins_mem (satp : Word) (sum : Bool) (s : State) : (s.underPins satp sum).mem = s.mem := rfl

@[simp] theorem keepRegisters_mem (s t : State) : (keepRegisters s t).mem = t.mem := rfl

@[simp] theorem State.headState_mem (s : State) : s.headState.mem = s.mem := by
  unfold State.headState
  split <;> rfl

@[simp] theorem State.headLeaves_mem (s t : State) : (s.headLeaves t).mem = t.mem := by
  unfold State.headLeaves
  split <;> rfl

@[simp] theorem State.performAll_wf {s : State} (h : memWf s.mem = true) (xs rest : List VsqEntry) :
    memWf (s.performAll xs rest).mem = true :=
  foldl_wf (fun _ x h => performEntry_wf h x) h xs

@[simp] theorem startArrival_mem (keys : List Nat) (s : State) : (startArrival keys s).mem = s.mem := by simp [startArrival]

@[simp] theorem State.pushStore_wf {s : State} (h : memWf s.mem = true) (x : VsqEntry) : memWf (s.pushStore x).mem = true := by
  unfold State.pushStore
  dsimp only
  repeat' split
  all_goals simp [h]

/-! `Sys2Proof/Machine/VecInt`. -/

@[simp] theorem runShape_mem (e : VEntry) (s : State) (c : VCfg) (d : Nat) (l : List (Nat × Nat)) : (runShape e s c d l).mem = s.mem := by
  simp [runShape]

/-! `Sys2Proof/Machine/VecPerm`. -/

@[simp] theorem pickLanes_mem (e : VEntry) (s : State) (m : MaskNo) (b d : BitVec 5) (pick : Nat → Pick) (bad : Bool) :
    (pickLanes e s m b d pick bad).mem = s.mem := by
  simp [pickLanes]

/-! `Sys2Proof/Machine/VecMem`. -/

@[simp] theorem State.countChunks_mem (s : State) (e : VEntry) (base : Option Nat) (l : List Piece) :
    (s.countChunks e base l).mem = s.mem := by
  unfold State.countChunks
  split <;> simp

@[simp] theorem storeElems_wf {s : State} (h : memWf s.mem = true) (pieces : List (List Piece)) (ws : List ByteWrite) (arrival : Bool)
    (arit : List AritEntry) : memWf (storeElems s pieces ws arrival arit).mem = true :=
  State.pushStore_wf h _

@[simp] theorem State.lockLines_mem (s : State) (lines : List Nat) : (s.lockLines lines).mem = s.mem := rfl

@[simp] theorem countField_mem (e : VEntry) (ps : List Probed) (s : State) : (countField e ps s).mem = s.mem := by simp [countField]

@[simp] theorem writeField_mem (s : State) (d : BitVec 5) (blocks : List (Nat × BlockRead)) : (writeField s d blocks).mem = s.mem := by
  simp [writeField]

/-! `Sys2Proof/Machine/Dispatcher`. -/

@[simp] theorem State.enterQueue_mem (s : State) (q : Nat) (r : LaunchRecord) : (s.enterQueue q r).mem = s.mem := by
  simp [State.enterQueue]

@[simp] theorem State.popQueue_mem (s : State) (q : Nat) : (s.popQueue q).mem = s.mem := rfl

@[simp] theorem heldEnters_mem (s : State) (q : Nat) : (heldEnters s q).mem = s.mem := by
  unfold heldEnters
  dsimp only
  repeat' split
  all_goals simp

@[simp] theorem lqEnters_mem (s : State) : (lqEnters s).mem = s.mem := by
  unfold lqEnters
  split <;> rfl

@[simp] theorem ageQueue_mem (s : State) (q : Nat) : (ageQueue s q).mem = s.mem := rfl

@[simp] theorem State.addHarts_mem (s : State) (hs : List Hart) : (s.addHarts hs).mem = s.mem := by
  unfold State.addHarts
  dsimp only
  repeat' split
  all_goals simp

@[simp] theorem State.removeGang_mem (s : State) (key : Nat) : (s.removeGang key).mem = s.mem := by
  unfold State.removeGang
  dsimp only
  repeat' split
  all_goals simp

@[simp] theorem clearBanks_wf {s : State} (h : memWf s.mem = true) (bases : List Nat) : memWf (clearBanks s bases).mem = true :=
  foldl_wf (fun _ b h => zeroRange_wf h b _) h bases

@[simp] theorem restoreBanks_wf {s : State} (h : memWf s.mem = true) (bases : List Nat) (cells : List Host.Cell) (bad : List Nat) :
    memWf (restoreBanks s bases cells bad).mem = true := by
  unfold restoreBanks
  dsimp only
  generalize s.mem = m at h
  induction cells generalizing m with
  | nil => exact h
  | cons c cs ih => exact ih _ (memWf_memWrite h _ _)

@[simp] theorem placeNew_wf {s : State} (h : memWf s.mem = true) (l : Launch) (core quads : Nat) :
    memWf (placeNew s l core quads).mem = true := by
  simp [placeNew, h]

@[simp] theorem placeSaved_wf {s : State} (h : memWf s.mem = true) (g : Gang) (v : SavedGang) (core quads : Nat) :
    memWf (placeSaved s g v core quads).mem = true := by
  simp [placeSaved, h]

@[simp] theorem startReclaim_mem (s : State) (g : Gang) (keep cut : Nat) : (startReclaim s g keep cut).mem = s.mem := by
  unfold startReclaim
  split <;> rfl

@[simp] theorem leaveStores_wf {s : State} (h : memWf s.mem = true) (key : Nat) (x : Hart) : memWf (leaveStores s key x).mem = true := by
  refine foldl_wf (fun a e ha => ?_) h _
  dsimp only
  repeat' split
  all_goals simp [ha]

@[simp] theorem drainLq_mem (s : State) (h : Hart) : (drainLq s h).mem = s.mem := by simp [drainLq]

/-- A gang's harts leave their stores and their launch records. -/
theorem foldl_leaveStores_wf {s : State} (h : memWf s.mem = true) (key : Nat) (hs : List Hart) :
    memWf (hs.foldl (fun t x => drainLq (leaveStores t key x) x) s).mem = true :=
  foldl_wf (fun a x ha => by simp [ha]) h hs

@[simp] theorem State.dropHolds_mem (s : State) (key : Nat) (hids : List Nat) : (s.dropHolds key hids).mem = s.mem := by
  simp [State.dropHolds]

@[simp] theorem gateFree_mem (s : State) (core : Nat) : (gateFree s core).mem = s.mem := rfl

@[simp] theorem switchOut_wf {s : State} (h : memWf s.mem = true) (g : Gang) : memWf (switchOut s g).mem = true := by
  have h1 := foldl_leaveStores_wf (s := settleCounters s g.core) (by simp [h]) g.key (s.gangHarts g)
  simp [switchOut, h1]

@[simp] theorem applyReclaim_mem (s : State) (g : Gang) (r : Reclaim) : (applyReclaim s g r).mem = s.mem := rfl

@[simp] theorem abandonReclaim_wf {s : State} (h : memWf s.mem = true) (g : Gang) : memWf (abandonReclaim s g).mem = true := by
  unfold abandonReclaim
  repeat' split
  all_goals simp [h]

@[simp] theorem retireGang_wf {s : State} (h : memWf s.mem = true) (g : Gang) : memWf (retireGang s g).mem = true := by
  have h1 := foldl_leaveStores_wf (s := settleCounters s g.core) (by simp [h]) g.key (s.gangHarts g)
  unfold retireGang
  dsimp only
  split <;> simp [h1]

@[simp] theorem writeCompletion_wf {s : State} (h : memWf s.mem = true) (queue : Nat) (r : LaunchRecord) (status faults : Nat) :
    memWf (writeCompletion s queue r status faults).mem = true := by
  unfold writeCompletion
  split
  · exact h
  · split
    · exact storeRun_wf h _ _
    · exact h

@[simp] theorem enqueueSuccessor_mem (s : State) (queue : Nat) (r : LaunchRecord) : (enqueueSuccessor s queue r).mem = s.mem := by
  unfold enqueueSuccessor
  dsimp only
  repeat' split
  all_goals simp

@[simp] theorem checkHead_wf {s : State} (h : memWf s.mem = true) (q : Nat) : memWf (checkHead s q).mem = true := by
  unfold checkHead
  dsimp only
  repeat' split
  all_goals simp [h]

@[simp] theorem completeLaunch_wf {s : State} (h : memWf s.mem = true) (l : Launch) : memWf (completeLaunch s l).mem = true := by
  simp [completeLaunch, h]

@[simp] theorem placeCandidate_wf {s : State} (h : memWf s.mem = true) (die : Nat) (q : Option Nat) (w : Want) (core quads : Nat) :
    memWf (placeCandidate s die q w core quads).mem = true := by
  unfold placeCandidate
  split
  · split
    · rename_i g _
      cases g.saved <;> simp [h]
    · exact h
  · split
    · dsimp only
      split <;> simp [h]
    · exact h

@[simp] theorem placeNext_wf {s : State} (h : memWf s.mem = true) (die : Nat) : memWf (placeNext s die).mem = true := by
  unfold placeNext
  repeat' split
  all_goals simp [h]

@[simp] theorem restoreNext_wf {s : State} (h : memWf s.mem = true) (die : Nat) : memWf (restoreNext s die).mem = true := by
  unfold restoreNext
  repeat' split
  all_goals simp [h]

@[simp] theorem expireSlice_wf {s : State} (h : memWf s.mem = true) (g : Gang) : memWf (expireSlice s g).mem = true := by
  unfold expireSlice
  repeat' split
  all_goals simp [h]

/-! `Sys2Proof/Machine/Control`. -/

@[simp] theorem grantLegal_mem (vt rows cols : Nat) (d : XReg) (s : State) : (grantLegal vt rows cols d s).mem = s.mem := rfl

@[simp] theorem grantIllegal_mem (d : XReg) (s : State) : (grantIllegal d s).mem = s.mem := rfl

@[simp] theorem State.merged_mem (s : State) : s.merged.mem = s.mem := rfl

@[simp] theorem arriveAt_mem (s : State) (g : Gang) (id : Nat) (b : Barrier) : (arriveAt s g id b).mem = s.mem := rfl

/-! `Sys2Proof/Machine/Csr`. -/

@[simp] theorem readCycle_mem (s : State) : (readCycle s).2.mem = s.mem := by
  unfold readCycle
  split <;> rfl

@[simp] theorem readCounter_mem (s : State) (i : Nat) : (readCounter s i).2.mem = s.mem := by
  unfold readCounter
  repeat' split
  all_goals simp

@[simp] theorem csrValue_mem (s : State) (csr : Nat) : (csrValue s csr).2.mem = s.mem := by
  unfold csrValue
  repeat' split
  all_goals simp

@[simp] theorem writeCeilq_mem (s : State) (core n : Nat) : (writeCeilq s core n).mem = s.mem := by
  unfold writeCeilq
  split <;> rfl

@[simp] theorem writeBusyctl_mem (s : State) (string : Nat) (v : Word) : (writeBusyctl s string v).mem = s.mem := rfl

@[simp] theorem writeHpm_mem (s : State) (core i : Nat) (v : Word) : (writeHpm s core i v).mem = s.mem := rfl

@[simp] theorem writeHpmEvent_mem (s : State) (core i : Nat) (v : Word) : (writeHpmEvent s core i v).mem = s.mem := by
  simp [writeHpmEvent]

@[simp] theorem writeInhibit_mem (s : State) (v : Word) : (writeInhibit s v).mem = s.mem := by simp [writeInhibit]

@[simp] theorem csrPut_mem (s : State) (csr : Nat) (v : Word) : (csrPut s csr v).mem = s.mem := by
  unfold csrPut
  repeat' split
  all_goals simp

@[simp] theorem csrAdvance_mem (csr : Nat) (s : State) : (csrAdvance csr s).mem = s.mem := by
  unfold csrAdvance
  split <;> simp

/-! `Sys2Proof/Machine/MemEvents`. -/

@[simp] theorem State.appendError_mem (s : State) (e : ErrorEntry) : (s.appendError e).mem = s.mem := rfl

@[simp] theorem recordError_mem (s : State) (source : ErrorSource) (address flags : Nat) :
    (recordError s source address flags).mem = s.mem := by
  unfold recordError
  dsimp only
  repeat' split
  all_goals simp

@[simp] theorem flagError_mem (s : State) (address flags : Nat) : (flagError s address flags).mem = s.mem := rfl

@[simp] theorem poisonUnits_mem (s : State) (source : ErrorSource) (address : Nat) (us : List PoisonUnit) :
    (poisonUnits s source address us).mem = s.mem := by simp [poisonUnits]

@[simp] theorem uncorrectable_mem (s : State) (source : ErrorSource) (a : Nat) : (uncorrectable s source a).mem = s.mem := by
  unfold uncorrectable
  dsimp only
  repeat' split
  all_goals simp

@[simp] theorem writeCard_mem (s : State) : (writeCard s).mem = s.mem := rfl

@[simp] theorem countFatal_mem (s : State) : (countFatal s).mem = s.mem := rfl

@[simp] theorem State.setRegion_mem (s : State) (n : Nat) (r : Region) : (s.setRegion n r).mem = s.mem := rfl

@[simp] theorem beginMapOut_mem (s : State) (n stack layer : Nat) : (beginMapOut s n stack layer).mem = s.mem := by
  unfold beginMapOut
  dsimp only
  repeat' split
  all_goals simp

@[simp] theorem vacated_mem (s : State) (n : Nat) : (vacated s n).mem = s.mem := by
  unfold vacated
  dsimp only
  repeat' split
  all_goals simp

@[simp] theorem moveUnreadable_mem (s : State) (line : Nat) : (moveUnreadable s line).mem = s.mem := by
  simp [moveUnreadable, apply_ite State.mem]

@[simp] theorem advanceEntry_mem (s : State) (n : Nat) (r : Region) (e : Redirect) : (advanceEntry s n r e).mem = s.mem := by
  simp [advanceEntry, apply_ite State.mem]

@[simp] theorem moveLine_wf {s : State} (h : memWf s.mem = true) (n : Nat) : memWf (moveLine s n).mem = true := by
  unfold moveLine
  repeat' split
  all_goals simp [h]

@[simp] theorem State.sendCxl_mem (s : State) (expander : Nat) (e : Expander) : (s.sendCxl expander e).mem = s.mem := rfl

@[simp] theorem rowRequest_mem (s : State) (a : Nat) : (rowRequest s a).mem = s.mem := by simp [rowRequest, apply_ite State.mem]

@[simp] theorem cxlRequest_wf {s : State} (h : memWf s.mem = true) (expander : Nat) : memWf (cxlRequest s expander).mem = true := by
  unfold cxlRequest
  repeat' split
  all_goals simp [h]

@[simp] theorem cxlServed_mem (s : State) (expander : Nat) : (cxlServed s expander).mem = s.mem := by
  unfold cxlServed
  split <;> rfl

/-! `Sys2Proof/Machine/VecEvents`. -/

@[simp] theorem windowState_mem (w : InFlight) (s : State) : (windowState w s).mem = s.mem := rfl

@[simp] theorem windowDone_mem (w : InFlight) (s t : State) : (windowDone w s t).mem = t.mem := by simp [windowDone]

@[simp] theorem State.metering_mem (s : State) : s.metering.mem = s.mem := rfl

@[simp] theorem markPinned_wf {s : State} (h : memWf s.mem = true) (hid : Nat) (pins : List Pin) :
    memWf (markPinned hid pins s).mem = true :=
  foldl_wf (fun _ p h => State.applyMark_wf h ⟨p.entry, p.bits⟩) h _

@[simp] theorem enterWindow_wf {s : State} (h : memWf s.mem = true) (e : VEntry) (younger : List VEntry) (t : State) :
    memWf (enterWindow s e younger t).mem = true := by
  simp [enterWindow, h]

@[simp] theorem ageHead_mem (s : State) : (ageHead s).mem = s.mem := by
  unfold ageHead
  split <;> rfl

@[simp] theorem issueMicroOp_mem (s : State) : (issueMicroOp s).mem = s.mem := by
  unfold issueMicroOp
  split <;> simp

@[simp] theorem settleBarrier_wf {s : State} (h : memWf s.mem = true) (key barrier : Nat) :
    memWf (settleBarrier s key barrier).mem = true := by
  unfold settleBarrier
  repeat' split
  all_goals simp [h]

@[simp] theorem State.settleIfDone_mem (s : State) : s.settleIfDone.mem = s.mem := by
  unfold State.settleIfDone
  split <;> simp

@[simp] theorem performOldest_wf {s : State} (h : memWf s.mem = true) : memWf (performOldest s).mem = true := by
  unfold performOldest
  repeat' split
  all_goals simp [h]

@[simp] theorem performScalar_wf {s : State} (h : memWf s.mem = true) : memWf (performScalar s).mem = true := by
  unfold performScalar
  repeat' split
  all_goals simp [h]

@[simp] theorem performPassed_wf {s : State} (h : memWf s.mem = true) (gang : Nat) : memWf (performPassed s gang).mem = true := by
  unfold performPassed
  repeat' split
  all_goals simp [h]

@[simp] theorem settleHart_mem (s : State) (hid : Nat) : (settleHart s hid).mem = s.mem := by
  unfold settleHart
  split
  · split
    · cases s.gangOf _ <;> simp
    · rfl
  · rfl

@[simp] theorem landBytes_wf {s : State} (h : memWf s.mem = true) (hid i core bank limit : Nat) (x : VsqEntry) :
    memWf (landBytes s hid i core bank limit x).mem = true := by
  have h1 := storeBytes_wf h (x.pending.filter (landsBelow core bank limit))
  unfold landBytes
  dsimp only
  split
  · split
    · rw [settleHart_mem]
      exact performEntry_wf (by rw [State.putHart_mem]; exact h1) _
    · rw [setArrival_mem, State.putHart_mem]
      exact h1
  · exact h1

@[simp] theorem advanceArrival_wf {s : State} (h : memWf s.mem = true) (core bank bytes : Nat) :
    memWf (advanceArrival s core bank bytes).mem = true := by
  unfold advanceArrival
  dsimp only
  repeat' split
  all_goals simp [h]

@[simp] theorem State.setCommand_mem (s : State) (i : Nat) (c : NmCommand) : (s.setCommand i c).mem = s.mem := rfl

@[simp] theorem storeLine_wf {s : State} (h : memWf s.mem = true) (key : Nat) (bs : List Byte) : memWf (storeLine key bs s).mem = true :=
  storeRun_wf h _ _

@[simp] theorem State.keepOld_mem (s : State) (c : NmCommand) (key : Nat) : (s.keepOld c key).mem = s.mem := rfl

@[simp] theorem skipLine_mem (s : State) (i : Nat) (c : NmCommand) (line key : Nat) : (skipLine s i c line key).mem = s.mem := by
  simp [skipLine]

@[simp] theorem applyLine_wf {s : State} (h : memWf s.mem = true) (i line : Nat) : memWf (applyLine s i line).mem = true := by
  have hk : ∀ ks : List Nat, (ks.foldl (fun t k => setPageKind t (k / 4096) 0) s).mem = s.mem := by simp
  unfold applyLine
  split
  · split
    · dsimp only
      split
      · exact h
      · split
        · rw [skipLine_mem, hk]
          exact h
        · exact storeLine_wf ((hk _).symm ▸ h) _ _
    · exact h
  · exact h

@[simp] theorem State.noteNmError_mem (s : State) (c : NmCommand) : (s.noteNmError c).mem = s.mem := rfl

@[simp] theorem writeRecord_wf {s : State} (h : memWf s.mem = true) (c : NmCommand) (off : Nat) (bs : List Byte) :
    memWf (writeRecord c off bs s).mem = true := by
  simp [writeRecord, h]

@[simp] theorem recordCommand_wf {s : State} (h : memWf s.mem = true) (i : Nat) : memWf (recordCommand s i).mem = true := by
  unfold recordCommand
  dsimp only
  repeat' split
  all_goals simp [h]

/-! `Sys2Proof/Machine/DispEvents`. -/

@[simp] theorem State.asHart_wf {s : State} (h : memWf s.mem = true) (hid : Nat) {f : State → State}
    (hf : ∀ t : State, memWf t.mem = true → memWf (f t).mem = true) : memWf (s.asHart hid f).mem = true := by
  unfold State.asHart
  dsimp only
  repeat' split
  · simpa using hf _ (by simpa using h)
  · simpa using h
  · exact h

@[simp] theorem terminateNow_mem (s : State) : (terminateNow s).mem = s.mem := by simp [terminateNow]

@[simp] theorem takeInterrupt_wf {s : State} (h : memWf s.mem = true) : memWf (takeInterrupt s).mem = true := by
  unfold takeInterrupt
  repeat' split
  all_goals simp [h]

/-! `Sys2Proof/Machine/Power`. -/

@[simp] theorem ageHeads_mem (s : State) : (ageHeads s).mem = s.mem := rfl

@[simp] theorem tick_mem (s : State) : (tick s).mem = s.mem := rfl

@[simp] theorem countWindow_mem (s : State) (core step busy : Nat) (c : CorePlan) : (countWindow s core step busy c).mem = s.mem := by
  simp [countWindow]

@[simp] theorem State.setString_mem (s : State) (n : Nat) (x : SeriesString) : (s.setString n x).mem = s.mem := rfl

@[simp] theorem countThrottle_mem (s : State) (n : Nat) : (countThrottle s n).mem = s.mem := rfl

@[simp] theorem runWindow_mem (s : State) (n : Nat) (plans : WindowPlans) : (runWindow s n plans).mem = s.mem := by
  unfold runWindow
  dsimp only
  repeat' split
  all_goals simp

@[simp] theorem State.noteAction_mem (s : State) (a : PowerAction) : (s.noteAction a).mem = s.mem := rfl

@[simp] theorem cutPower_mem (s : State) (r : PowerReading) : (cutPower s r).mem = s.mem := by
  unfold cutPower
  dsimp only
  repeat' split
  all_goals simp

@[simp] theorem undoAction_mem (s : State) (a : PowerAction) : (undoAction s a).mem = s.mem := by
  unfold undoAction
  repeat' split
  all_goals simp

@[simp] theorem powerPeriod_mem (s : State) (r : PowerReading) : (powerPeriod s r).mem = s.mem := by
  unfold powerPeriod
  repeat' split
  all_goals simp

@[simp] theorem setGate_mem (s : State) (core lane : Nat) (gated : Bool) : (setGate s core lane gated).mem = s.mem := by
  unfold setGate
  split <;> rfl

/-! `Sys2Proof/Machine/ScalarBase`. -/

@[simp] theorem ScalarLoad.leave_wf {s : State} (h : memWf s.mem = true) (l : ScalarLoad) (v : Nat) : memWf (l.leave v s).mem = true := by
  have h1 : memWf (l.mark.elim s s.applyMark).mem = true := by cases l.mark <;> simp [h]
  unfold ScalarLoad.leave
  dsimp only
  repeat' split
  all_goals simp [h, h1]

@[simp] theorem State.finishLoad_wf {s : State} (h : memWf s.mem = true) (l : ScalarLoad) (v : Nat) : memWf (s.finishLoad l v).mem = true :=
  ScalarLoad.leave_wf h l v

@[simp] theorem State.performLoad_wf {s : State} (h : memWf s.mem = true) (l : ScalarLoad) : memWf (s.performLoad l).mem = true := by
  unfold State.performLoad
  dsimp only
  split <;> simp [h]

@[simp] theorem State.issueLoad_wf {s : State} (h : memWf s.mem = true) (l : ScalarLoad) : memWf (s.issueLoad l).mem = true := by
  unfold State.issueLoad
  split <;> simp [h]

@[simp] theorem State.pushScalar_wf {s : State} (h : memWf s.mem = true) (x : VsqEntry) : memWf (s.pushScalar x).mem = true := by
  unfold State.pushScalar
  split <;> simp [h]

@[simp] theorem scalarStore_wf {s : State} (h : memWf s.mem = true) (va : Word) (n : Nat) (v : Word) :
    memWf (scalarStore s va n v).1.mem = true := by
  unfold scalarStore
  dsimp only
  split <;> simp [h]

/-! `Sys2Proof/Machine/Return`. -/

@[simp] theorem vretNow_mem (s : State) : (vretNow s).mem = s.mem := by
  unfold vretNow
  dsimp only
  repeat' split
  all_goals simp

/-! `Sys2Proof/Machine/SysEvents`. -/

@[simp] theorem State.setSysCore_mem (s : State) (n : Nat) (c : SysCore) : (s.setSysCore n c).mem = s.mem := rfl

@[simp] theorem State.dropSysTlbs_mem (s : State) : s.dropSysTlbs.mem = s.mem := rfl

@[simp] theorem grantNow_mem (s : State) : (grantNow s).mem = s.mem := by
  unfold grantNow
  split <;> rfl

@[simp] theorem revokeNow_mem (s : State) : (revokeNow s).mem = s.mem := by
  unfold revokeNow
  dsimp only
  repeat' split
  all_goals simp

@[simp] theorem State.answer_mem (s : State) (code : Nat) : (s.answer code).mem = s.mem := rfl

@[simp] theorem answerCall_mem (caller : Caller) (code : Nat) (s : State) : (answerCall caller code s).mem = s.mem := by
  unfold answerCall
  dsimp only
  repeat' split
  all_goals simp

@[simp] theorem giveRange_wf {s : State} (h : memWf s.mem = true) (base size realm : Nat) :
    memWf (giveRange s base size realm).mem = true := by simp [giveRange, h]

@[simp] theorem assign_wf {s : State} (h : memWf s.mem = true) (caller : Caller) (a0 a1 a2 : Word) :
    memWf (assign caller a0 a1 a2 s).mem = true := by
  unfold assign
  dsimp only
  repeat' split
  all_goals simp [h]

@[simp] theorem release_wf {s : State} (h : memWf s.mem = true) (caller : Caller) (a0 a1 : Word) :
    memWf (release caller a0 a1 s).mem = true := by
  unfold release
  dsimp only
  repeat' split
  all_goals simp [h]

@[simp] theorem setOwner_mem (caller : Caller) (a0 a1 : Word) (s : State) : (setOwner caller a0 a1 s).mem = s.mem := by
  unfold setOwner
  dsimp only
  repeat' split
  all_goals simp

@[simp] theorem writeLqctl_mem (s : State) (q : Nat) (v : Word) : (writeLqctl s q v).mem = s.mem := by
  unfold writeLqctl
  split <;> rfl

@[simp] theorem doorbell_mem (s : State) (core q addr : Nat) : (doorbell s core q addr).2.mem = s.mem := by
  unfold doorbell
  repeat' split
  all_goals simp

@[simp] theorem dropFrame_mem (s : State) (reason : Nat) : (dropFrame s reason).mem = s.mem := rfl

@[simp] theorem receiveFrame_mem (s : State) (f : List Byte) : (receiveFrame s f).mem = s.mem := by
  unfold receiveFrame
  dsimp only
  repeat' split
  all_goals simp

@[simp] theorem serve_wf {s : State} (h : memWf s.mem = true) (r : MemAction) (ps : List (Aperture × Nat)) :
    memWf (serve s r ps).2.mem = true := by
  cases r with
  | load n => exact h
  | store d => exact storeBytes_wf h _
  | atomic op dbl v =>
    unfold serve
    dsimp only
    generalize (if dbl = true then 8 else 4) = n
    split
    · exact h
    · split
      · exact h
      · exact storeBytes_wf h _

@[simp] theorem request_wf {s : State} (h : memWf s.mem = true) (f : Nat → Option (Aperture × Nat)) (refused : ExternalResult)
    (r : MemRequest) : memWf (request s f refused r).mem = true := by
  unfold request
  repeat' split
  · exact h
  · exact h
  · rename_i ps _ _ _ x t ht
    have hs := serve_wf h r.action ps
    rw [ht] at hs
    exact hs

@[simp] theorem ioAccess_mem (s : State) (core off : Nat) (r : MemAction) : (ioAccess s core off r).mem = s.mem := by
  cases r with
  | load n => simp only [ioAccess]
  | store d =>
    simp only [ioAccess]
    split
    · exact writeLqctl_mem ..
    · rfl
  | atomic op dbl v =>
    simp only [ioAccess]
    split
    · split
      · rfl
      · exact doorbell_mem ..
    · rfl

@[simp] theorem faultOnPoison_mem (s : State) : (faultOnPoison s).mem = s.mem := by
  unfold faultOnPoison
  split <;> rfl

@[simp] theorem State.mapRoute_mem (s : State) (device : Nat) (f : RouteStatus → RouteStatus) : (s.mapRoute device f).mem = s.mem := rfl

@[simp] theorem retrained_mem (s : State) (device port : Nat) : (retrained s device port).mem = s.mem := by
  unfold retrained
  split <;> rfl

@[simp] theorem routeTimeout_mem (s : State) (device : Nat) : (routeTimeout s device).mem = s.mem := by
  unfold routeTimeout
  split <;> rfl

@[simp] theorem dump_wf {s : State} (h : memWf s.mem = true) (reason : Nat) : memWf (dump s reason).mem = true :=
  storeRun_wf (by exact h) _ _

@[simp] theorem coldState_wf (b : BootImages) (s : State) : memWf (coldState b s).mem = true := by
  simp only [coldState]
  exact reset_memWf

@[simp] theorem warmState_wf {s : State} (h : memWf s.mem = true) : memWf (warmState s).mem = true := memWf_memErase h _ _

@[simp] theorem loadKey_mem (s : State) (k : EthKey) : (loadKey s k).mem = s.mem := by
  unfold loadKey
  split <;> rfl

@[simp] theorem setRealm_mem (s : State) (e : RealmEntry) : (setRealm s e).mem = s.mem := rfl

@[simp] theorem registerCode_mem (s : State) (realm : Nat) (object : List Byte) : (registerCode s realm object).mem = s.mem := rfl

@[simp] theorem setRoute_mem (s : State) (device : Nat) (up : Bool) : (setRoute s device up).mem = s.mem := rfl

@[simp] theorem restart_mem (s : State) : (restart s).mem = s.mem := by
  unfold restart
  split <;> rfl

@[simp] theorem firmwareAct_wf {s : State} (h : memWf s.mem = true) (a : FirmwareAct) : memWf (firmwareAct a s).mem = true := by
  unfold firmwareAct
  repeat' split
  all_goals simp [h]

/-! `Sys2Proof/Machine/Fetch`. -/

@[simp] theorem State.noteTaint_mem (s : State) (w : InstrWord) : (s.noteTaint w).mem = s.mem := by
  unfold State.noteTaint
  split <;> rfl

@[simp] theorem performFirst_wf {s : State} (h : memWf s.mem = true) : memWf (performFirst s).mem = true := by
  unfold performFirst
  repeat' split
  all_goals simp [h]

/-! `Sys2Proof/Machine/Run`. -/

@[simp] theorem rotate_mem (s : State) : (rotate s).mem = s.mem := by
  unfold rotate
  split <;> simp

@[simp] theorem deviceTurn_mem (s : State) : (deviceTurn s).mem = s.mem := by simp [deviceTurn]

end Sys2Proof.Machine
end

section
/-! SUPPORT. Every effect of a vector instruction keeps memory canonical: the state it completes in, and the state in which it waits
(R35, R285; log 4). -/

namespace Sys2Proof.Machine

/-! Answers of the vector stream. -/

/-- The memory of the state that a stop keeps, where it keeps one, is canonical. -/
def Stop.KeepsWf : Stop → Prop
  | .trap .. => True
  | .wait _ kept => memWf kept.mem = true

/-- What is answered has a property, and a stop keeps a canonical memory. -/
def Lands {α : Type} (P : α → Prop) : Except Stop α → Prop
  | .ok a => P a
  | .error x => x.KeepsWf

/-- The state answered has a canonical memory, and so has one that a stop keeps. -/
abbrev LandsWf (x : VRes) : Prop := Lands (fun t => memWf t.mem = true) x

@[simp] theorem lands_ok {α : Type} (P : α → Prop) (a : α) : Lands P (.ok a) ↔ P a := Iff.rfl
@[simp] theorem lands_trap {α : Type} (P : α → Prop) (cause : Nat) (tval : Word) (side : TrapSide) :
    Lands P (.error (.trap cause tval side)) := trivial
@[simp] theorem lands_trapWord {α : Type} (P : α → Prop) (cause : Nat) (e : VEntry) : Lands P (.error (trapWord cause e)) := trivial
@[simp] theorem lands_wait {α : Type} (P : α → Prop) (r : WaitReason) (s : State) :
    Lands P (.error (.wait r s)) ↔ memWf s.mem = true := Iff.rfl

/-- A computation that goes on with what another answered. -/
theorem lands_bind {α β : Type} {P : α → Prop} {Q : β → Prop} {x : Except Stop α} {f : α → Except Stop β} (hx : Lands P x)
    (hf : ∀ a, P a → Lands Q (f a)) : Lands Q (x >>= f) := by
  cases x with
  | ok a => exact hf a hx
  | error y => exact hx

/-- A computation that goes on after a check. -/
theorem lands_check {α β : Type} {Q : β → Prop} {x : Except Stop α} {f : α → Except Stop β} (hx : Lands (fun _ => True) x)
    (hf : ∀ a, Lands Q (f a)) : Lands Q (x >>= f) :=
  lands_bind hx (fun a _ => hf a)

/-- A computation that goes on with what another answered beside a state. -/
theorem lands_bind_snd {α β : Type} {Q : β → Prop} {x : Except Stop (α × State)} {f : α × State → Except Stop β}
    (hx : Lands (fun p => memWf p.2.mem = true) x) (hf : ∀ a s, memWf s.mem = true → Lands Q (f (a, s))) : Lands Q (x >>= f) :=
  lands_bind hx fun p hp => hf p.1 p.2 hp

/-- Either of two ways to go on. -/
theorem lands_ite {α : Type} {P : α → Prop} {c : Prop} [Decidable c] {x y : Except Stop α} (hx : Lands P x) (hy : Lands P y) :
    Lands P (if c then x else y) := by
  split
  · exact hx
  · exact hy

/-- An effect of a vector instruction that keeps memory canonical. -/
def Keeps (eff : VEntry → State → VRes) : Prop := ∀ (e : VEntry) (s : State), memWf s.mem = true → LandsWf (eff e s)

/-- A wait that leaves the state as the instruction found it. -/
theorem keeping_lands {s : State} (h : memWf s.mem = true) {x : VRes} (hx : LandsWf x) : LandsWf (keeping s x) := by
  unfold keeping
  split
  · exact h
  · exact hx

/-! Checks: they answer nothing, or a trap, or a wait in the state they are made in. -/

theorem need_lands (e : VEntry) (cause : Nat) (c : Bool) : Lands (fun _ => True) (need e cause c) := by
  cases c <;> trivial

theorem needVtype_lands (e : VEntry) (c : VCfg) : Lands (fun _ => True) (needVtype e c) := need_lands ..

theorem needProbed_lands (e : VEntry) (cause : Nat) (ms : List LeafMark) (c : Bool) : Lands (fun _ => True) (needProbed e cause ms c) := by
  cases c <;> trivial

theorem needBq_lands (e : VEntry) (s : State) : Lands (fun _ => True) (needBq e s) := need_lands ..

theorem needTile_lands (e : VEntry) (s : State) (t : TileNo) : Lands (fun _ => True) (needTile e s t) := need_lands ..

theorem aritRoom_lands {s : State} (h : memWf s.mem = true) (n : Nat) : Lands (fun _ => True) (aritRoom s n) := by
  unfold aritRoom
  split
  · trivial
  · exact h

theorem vsqRoom_lands {s : State} (h : memWf s.mem = true) : Lands (fun _ => True) (vsqRoom s) := by
  unfold vsqRoom
  split
  · trivial
  · exact h

theorem needFloat_lands (e : VEntry) (c : VCfg) : Lands (fun _ => True) (needFloat e c) := by
  unfold needFloat
  split
  · split <;> trivial
  · trivial

theorem needRound_lands (e : VEntry) (s : State) : Lands (fun _ => True) (needRound e s) := by
  unfold needRound
  split <;> trivial

theorem roundFor_lands (rounds : Bool) (e : VEntry) (s : State) : Lands (fun _ => True) (roundFor rounds e s) := by
  cases rounds
  · trivial
  · exact needRound_lands e s

theorem needBlocks_lands (e : VEntry) (c : VCfg) (ok : Bool) : Lands (fun _ => True) (needBlocks e c ok) :=
  lands_check (needVtype_lands ..) fun _ => need_lands ..

theorem needQuant_lands (e : VEntry) (c : VCfg) (narrow wide : List Nat) (more : QCfg → Bool) :
    Lands (fun _ => True) (needQuant e c narrow wide more) := by
  unfold needQuant
  refine lands_check (needVtype_lands ..) fun _ => ?_
  split
  · trivial
  · exact lands_check (need_lands ..) fun _ => trivial

theorem needRow_lands (e : VEntry) (s : State) (t : TileNo) (b : BitVec 5) : Lands (fun _ => True) (needRow e s t b) :=
  lands_check (needVtype_lands ..) fun _ => lands_check (need_lands ..) fun _ => lands_check (needTile_lands ..) fun _ => trivial

theorem needField_lands (e : VEntry) (c : VCfg) (v : BitVec 5) : Lands (fun _ => True) (needField e c v) :=
  lands_check (needVtype_lands ..) fun _ => need_lands ..

theorem checkField_lands (e : VEntry) (c : VCfg) (ms : List LeafMark) (l : List (Nat × BlockRead)) :
    Lands (fun _ => True) (checkField e c ms l) := by
  unfold checkField
  refine lands_check (needProbed_lands ..) fun _ => ?_
  split <;> trivial

theorem needTileRows_lands (e : VEntry) (s : State) (t : TileNo) : Lands (fun _ => True) (needTileRows e s t) :=
  lands_check (needVtype_lands ..) fun _ => lands_check (need_lands ..) fun _ => needTile_lands ..

theorem needBytes_lands (e : VEntry) (c : VCfg) : Lands (fun _ => True) (needBytes e c) :=
  lands_check (needVtype_lands ..) fun _ => lands_check (need_lands ..) fun _ => trivial

theorem failAt_lands (base : Nat) (ms : List LeafMark) (l : List Nat) : Lands (fun _ => True) (failAt base ms l) := by
  unfold failAt
  split <;> trivial

theorem barrierAt_lands (e : VEntry) (s : State) : Lands (fun _ => True) (barrierAt e s) := by
  unfold barrierAt
  dsimp only
  repeat' split
  all_goals trivial

/-! Admission, drains and probes. -/

theorem obtain_lands {s : State} (h : memWf s.mem = true) (e : VEntry) (fresh after : Nat) : LandsWf (obtain e s fresh after) := by
  unfold obtain
  dsimp only
  repeat' split
  all_goals simp [h]

theorem admission_lands {s : State} (h : memWf s.mem = true) (e : VEntry) (reads : List GroupRead) (dest : List Nat) (micro : Nat) :
    LandsWf (admission e s reads dest micro) := by
  unfold admission
  dsimp only
  split
  · rename_i x hx
    rw [← hx]
    exact obtain_lands h ..
  · rename_i s1 hs
    have h1 : LandsWf (.ok s1) := by
      rw [← hs]
      exact obtain_lands h ..
    simpa using h1

theorem obtainRestored_lands {s : State} (h : memWf s.mem = true) (e : VEntry) (general gencap : Nat) :
    LandsWf (obtainRestored e s general gencap) := by
  unfold obtainRestored
  dsimp only
  repeat' split
  all_goals simp [h]

theorem drainVsq_lands {s : State} (h : memWf s.mem = true) : LandsWf (drainVsq s) := by
  unfold drainVsq
  repeat' split
  all_goals simp [h]

theorem drainSsq_lands {s : State} (h : memWf s.mem = true) : LandsWf (drainSsq s) := by
  unfold drainSsq
  split
  · exact h
  · exact foldl_wf (fun _ x h => performEntry_wf h x) h _

theorem drainStores_lands {s : State} (h : memWf s.mem = true) : LandsWf (drainStores s) :=
  lands_bind (drainSsq_lands h) fun _ h1 => drainVsq_lands h1

theorem drainToCopy_lands {s : State} (h : memWf s.mem = true) : LandsWf (drainToCopy s) := by
  unfold drainToCopy
  split
  · split
    · split <;> simp [h]
    · exact drainVsq_lands h
  · exact drainVsq_lands h

theorem probeWith_lands (wait : State → Piece → Option WaitReason) {s : State} (h : memWf s.mem = true) (e : VEntry) (writes : Bool)
    (rs : List ProbeReq) : Lands (fun p => memWf p.2.mem = true) (probeWith wait e s writes rs) := by
  unfold probeWith
  split
  · exact h
  · split
    · trivial
    · rename_i ps _
      have ht := commitProbe_wf h rs ps
      dsimp only
      split
      · exact h
      · split
        · exact h
        · split
          · have hd := drainVsq_lands ht
            cases hv : drainVsq (commitProbe s rs ps) with
            | ok t => rw [hv] at hd; exact hd
            | error x => rw [hv] at hd; exact hd
          · exact ht

theorem probeFor_lands {s : State} (h : memWf s.mem = true) (e : VEntry) (writes : Bool) (rs : List ProbeReq) :
    Lands (fun p => memWf p.2.mem = true) (probeFor e s writes rs) :=
  probeWith_lands pieceWait h e writes rs

theorem accessElems_lands {s : State} (h : memWf s.mem = true) (m : VMode) (mask : MaskNo) (write : Bool)
    (accept : Aperture → Bool → Bool) (e : VEntry) : Lands (fun a => memWf a.after.mem = true) (accessElems m mask write accept e s) := by
  unfold accessElems
  refine lands_bind (probeFor_lands h ..) fun p hp => ?_
  exact lands_check (needProbed_lands ..) fun _ => by simpa using hp

/-! The shared effects of the lane instructions (R202 to R226). -/

theorem mapLanes_lands {s : State} (h : memWf s.mem = true) (e : VEntry) (reads : List GroupRead) (d dg dsew : Nat) (m : MaskNo)
    (f : State → Nat → Nat × Nat × Bool) : LandsWf (mapLanes e s reads d dg dsew m f) := by
  unfold mapLanes
  exact lands_bind (admission_lands h ..) fun s1 h1 => by simpa using h1

theorem maskLanes_lands {s : State} (h : memWf s.mem = true) (e : VEntry) (reads : List GroupRead) (m md : MaskNo)
    (f : State → Nat → Bool × Nat × Bool) : LandsWf (maskLanes e s reads m md f) := by
  unfold maskLanes
  exact lands_bind (admission_lands h ..) fun s1 h1 => lands_check (need_lands ..) fun _ => h1

theorem intOp_keeps (op : IntElem) (shape : Option ShapeOp) (wide useD : Bool) (m : MaskNo) (a : AOp) (b d : BitVec 5) :
    Keeps (intOp op shape wide useD m a b d) := by
  intro e s h
  unfold intOp
  refine lands_check (needVtype_lands ..) fun _ => lands_check (need_lands ..) fun _ => ?_
  split
  · simpa using h
  · exact lands_bind (mapLanes_lands h ..) fun t ht => by simpa using ht

theorem cmpOp_keeps (holds : Nat → Nat → Nat → Bool) (m : MaskNo) (a : AOp) (b : BitVec 5) (md : MaskNo) :
    Keeps (cmpOp holds m a b md) := by
  intro e s h
  unfold cmpOp
  refine lands_check (needVtype_lands ..) fun _ => lands_check (need_lands ..) fun _ => ?_
  exact lands_bind (maskLanes_lands h ..) fun t ht => by simpa using ht

theorem unaryOp_lands {s : State} (h : memWf s.mem = true) (ok : Bool) (op : Nat → Nat) (ssew sg : Nat) (m : MaskNo) (b d : BitVec 5)
    (e : VEntry) : LandsWf (unaryOp ok op ssew sg m b d e s) := by
  unfold unaryOp
  exact lands_check (needVtype_lands ..) fun _ => lands_check (need_lands ..) fun _ => mapLanes_lands h ..

theorem extendOp_keeps (signed : Bool) (m : MaskNo) (b : BitVec 5) (f : Factor) (d : BitVec 5) : Keeps (extendOp signed m b f d) := by
  intro e s h
  unfold extendOp
  exact unaryOp_lands h ..

theorem narrowOp_keeps (unsigned : Bool) (m : MaskNo) (b : BitVec 5) (f : Factor) (d : BitVec 5) : Keeps (narrowOp unsigned m b f d) := by
  intro e s h
  unfold narrowOp
  exact unaryOp_lands h ..

theorem bitcOp_keeps (m : MaskNo) (b : BitVec 5) (o : BitCount) (d : BitVec 5) : Keeps (bitcOp m b o d) :=
  fun _ _ h => unaryOp_lands h ..

theorem floatOp_keeps (op : FloatElem) (rounds useD : Bool) (m : MaskNo) (a : AOp) (b d : BitVec 5) :
    Keeps (floatOp op rounds useD m a b d) := by
  intro e s h
  unfold floatOp
  refine lands_check (needVtype_lands ..) fun _ => lands_check (needFloat_lands ..) fun _ => lands_check (roundFor_lands ..) fun _ =>
    lands_check (need_lands ..) fun _ => ?_
  exact lands_bind (mapLanes_lands h ..) fun t ht => by simpa using ht

theorem signOp_keeps (op : Bool → Bool → Bool) (m : MaskNo) (a : AOp) (b d : BitVec 5) : Keeps (signOp op m a b d) := by
  intro e s h
  unfold signOp
  exact floatOp_keeps _ _ _ m a b d e s h

theorem fcmpOp_keeps (c : FCond) (m : MaskNo) (a : AOp) (b : BitVec 5) (md : MaskNo) : Keeps (fcmpOp c m a b md) := by
  intro e s h
  unfold fcmpOp
  refine lands_check (needVtype_lands ..) fun _ => lands_check (needFloat_lands ..) fun _ => lands_check (need_lands ..) fun _ => ?_
  exact lands_bind (maskLanes_lands h ..) fun t ht => by simpa using ht

theorem floatUnary_keeps (op : FFmt → Rnd → Nat → Nat × Nat) (rounds : Bool) (m : MaskNo) (b d : BitVec 5) :
    Keeps (floatUnary op rounds m b d) := by
  intro e s h
  unfold floatUnary
  exact lands_check (needVtype_lands ..) fun _ => lands_check (needFloat_lands ..) fun _ => lands_check (roundFor_lands ..) fun _ =>
    lands_check (need_lands ..) fun _ => mapLanes_lands h ..

theorem fcvtOp_keeps (m : MaskNo) (b : BitVec 5) (code : CvtCode) (d : BitVec 5) : Keeps (fcvtOp m b code d) := by
  intro e s h
  unfold fcvtOp
  refine lands_check (needVtype_lands ..) fun _ => ?_
  split
  · trivial
  · exact lands_check (needRound_lands ..) fun _ => lands_check (need_lands ..) fun _ => mapLanes_lands h ..

theorem widenOp_keeps (op : WideElem) (useD : Bool) (m : MaskNo) (a : AOp) (b d : BitVec 5) : Keeps (widenOp op useD m a b d) := by
  intro e s h
  unfold widenOp
  exact lands_check (needVtype_lands ..) fun _ => lands_check (needFloat_lands ..) fun _ => lands_check (needRound_lands ..) fun _ =>
    lands_check (need_lands ..) fun _ => mapLanes_lands h ..

/-! Masks, permutations, reductions and moves (R221 to R229). -/

theorem maskOp_keeps (op : Bool → Bool → Bool) (b a d : MaskNo) : Keeps (maskOp op b a d) := by
  intro e s h
  unfold maskOp
  exact lands_check (needVtype_lands ..) fun _ => lands_bind (admission_lands h ..) fun s1 h1 => h1

theorem countOp_keeps (op : List Nat → Word) (m b : MaskNo) (d : BitVec 5) : Keeps (countOp op m b d) := by
  intro e s h
  unfold countOp
  exact lands_check (needVtype_lands ..) fun _ => lands_check (needBq_lands ..) fun _ => lands_bind (admission_lands h ..) fun s1 h1 => h1

theorem indexOp_keeps (tbl : Hart → Nat → Nat → Nat) (m : MaskNo) (d : BitVec 5) : Keeps (indexOp tbl m d) := by
  intro e s h
  unfold indexOp
  exact lands_check (needVtype_lands ..) fun _ => lands_check (need_lands ..) fun _ => mapLanes_lands h ..

theorem iotaOp_keeps (m b : MaskNo) (d : BitVec 5) : Keeps (iotaOp m b d) := indexOp_keeps _ m d

theorem vidOp_keeps (m : MaskNo) (d : BitVec 5) : Keeps (vidOp m d) := by
  intro e s h
  unfold vidOp
  dsimp only
  split
  · simpa using h
  · exact indexOp_keeps _ m d e s h

theorem slideOp_keeps (up : Bool) (m : MaskNo) (a : AOp) (b d : BitVec 5) : Keeps (slideOp up m a b d) := by
  intro e s h
  unfold slideOp
  refine lands_check (needVtype_lands ..) fun _ => lands_check (need_lands ..) fun _ => ?_
  exact lands_bind (admission_lands h ..) fun s1 h1 => by simpa using h1

theorem gatherOp_keeps (modulus : Nat → Nat) (m : MaskNo) (a : AOp) (b d : BitVec 5) : Keeps (gatherOp modulus m a b d) := by
  intro e s h
  unfold gatherOp
  refine lands_check (needVtype_lands ..) fun _ => lands_check (need_lands ..) fun _ => ?_
  exact lands_bind (admission_lands h ..) fun s1 h1 => lands_check (need_lands ..) fun _ => by simpa using h1

theorem vrevOp_keeps (m : MaskNo) (b d : BitVec 5) : Keeps (vrevOp m b d) := by
  intro e s h
  unfold vrevOp
  refine lands_check (needVtype_lands ..) fun _ => lands_check (need_lands ..) fun _ => ?_
  exact lands_bind (admission_lands h ..) fun s1 h1 => by simpa using h1

theorem compressOp_keeps (expand : Bool) (m : MaskNo) (b d : BitVec 5) : Keeps (compressOp expand m b d) := by
  intro e s h
  unfold compressOp
  refine lands_check (needVtype_lands ..) fun _ => lands_check (need_lands ..) fun _ => ?_
  refine lands_bind (admission_lands h ..) fun s1 h1 => ?_
  cases expand <;> simpa using h1

theorem vunpackOp_keeps (m : MaskNo) (b d : BitVec 5) : Keeps (vunpackOp m b d) := by
  intro e s h
  unfold vunpackOp
  refine lands_check (needVtype_lands ..) fun _ => ?_
  split
  · trivial
  · exact lands_check (need_lands ..) fun _ => lands_bind (admission_lands h ..) fun s1 h1 => by simpa using h1

theorem vpackOp_keeps (m : MaskNo) (b d : BitVec 5) : Keeps (vpackOp m b d) := by
  intro e s h
  unfold vpackOp
  refine lands_check (needVtype_lands ..) fun _ => ?_
  split
  · trivial
  · exact lands_check (need_lands ..) fun _ => lands_bind (admission_lands h ..) fun s1 h1 => by simpa using h1

theorem reduceLanes_lands {s : State} (h : memWf s.mem = true) (e : VEntry) (m : MaskNo) (a b d : BitVec 5)
    (red : Nat → List (Nat × Nat) → Nat × Nat) : LandsWf (reduceLanes e s m a b d red) := by
  unfold reduceLanes
  refine lands_check (need_lands ..) fun _ => lands_bind (admission_lands h ..) fun s1 h1 => ?_
  split <;> simpa using h1

theorem redOp_keeps (op : Nat → Nat → Nat → Nat) (m : MaskNo) (a b d : BitVec 5) : Keeps (redOp op m a b d) := by
  intro e s h
  unfold redOp
  exact lands_check (needVtype_lands ..) fun _ => lands_check (need_lands ..) fun _ => reduceLanes_lands h ..

theorem fredOp_keeps (op : FFmt → Rnd → Nat → List (Nat × Nat) → Nat × Nat) (rounds : Bool) (m : MaskNo) (a b d : BitVec 5) :
    Keeps (fredOp op rounds m a b d) := by
  intro e s h
  unfold fredOp
  refine lands_check (needVtype_lands ..) fun _ => lands_check (needFloat_lands ..) fun _ => ?_
  dsimp only
  split
  · exact lands_check (needRound_lands ..) fun _ => reduceLanes_lands h ..
  · exact reduceLanes_lands h ..

theorem mvxsOp_keeps (b d : BitVec 5) : Keeps (mvxsOp b d) := by
  intro e s h
  unfold mvxsOp
  refine lands_check (needVtype_lands ..) fun _ => lands_check (need_lands ..) fun _ => lands_check (needBq_lands ..) fun _ => ?_
  exact lands_bind (admission_lands h ..) fun s1 h1 => lands_check (need_lands ..) fun _ => h1

theorem mvsxOp_keeps (d : BitVec 5) : Keeps (mvsxOp d) := by
  intro e s h
  unfold mvsxOp
  refine lands_check (needVtype_lands ..) fun _ => lands_check (need_lands ..) fun _ => lands_bind (admission_lands h ..) fun s1 h1 => ?_
  split <;> simpa using h1

theorem vbcastOp_keeps (d : BitVec 5) : Keeps (vbcastOp d) := by
  intro e s h
  unfold vbcastOp
  refine lands_check (needVtype_lands ..) fun _ => lands_check (need_lands ..) fun _ => ?_
  split
  · simpa using h
  · exact mapLanes_lands h ..

/-! Anchored fields (R231 to R248). -/

theorem finishBlocks_lands {s : State} (h : memWf s.mem = true) (e : VEntry) (d : BitVec 5) (dg dw : Nat) (outs : List BlockOut) :
    LandsWf (finishBlocks e s d dg dw outs) := by
  unfold finishBlocks
  dsimp only
  split
  · trivial
  · simpa using h

theorem blockOp_lands {s : State} (h : memWf s.mem = true) (reads : List Nat) (ok : Bool) (d : BitVec 5) (e : VEntry)
    (f : State → Nat → BlockOut) : LandsWf (blockOp reads ok d e s f) := by
  unfold blockOp
  exact lands_check (needBlocks_lands ..) fun _ => lands_bind (admission_lands h ..) fun s1 h1 => finishBlocks_lands h1 ..

theorem aaddImm_keeps (sub : Bool) (n : Int) (b d : BitVec 5) : Keeps (aaddImm sub n b d) := fun _ _ h => blockOp_lands h ..

theorem aaddScalar_keeps (sub : Bool) (b d : BitVec 5) : Keeps (aaddScalar sub b d) := by
  intro e s h
  unfold aaddScalar
  split
  · exact lands_check (needVtype_lands ..) fun _ => trivial
  · exact blockOp_lands h ..

theorem aaddField_keeps (sub : Bool) (a b d : BitVec 5) : Keeps (aaddField sub a b d) := fun _ _ h => blockOp_lands h ..

theorem adiffOp_keeps (shift : VEntry → Nat) (b d : BitVec 5) : Keeps (adiffOp shift b d) := by
  intro e s h
  unfold adiffOp
  exact lands_check (needBlocks_lands ..) fun _ => lands_bind (admission_lands h ..) fun s1 h1 => finishBlocks_lands h1 ..

theorem amulOp_keeps (qexp : VEntry → Int) (b d : BitVec 5) : Keeps (amulOp qexp b d) := fun _ _ h => blockOp_lands h ..

theorem ascaleImm_keeps (k2 : Int) (b d : BitVec 5) : Keeps (ascaleImm k2 b d) := fun _ _ h => blockOp_lands h ..

theorem ascaleScalar_keeps (b d : BitVec 5) : Keeps (ascaleScalar b d) := by
  intro e s h
  unfold ascaleScalar
  split
  · exact lands_check (needVtype_lands ..) fun _ => trivial
  · exact blockOp_lands h ..

theorem areanchorOp_keeps (mode : VEntry → Nat) (change : VEntry → Int) (b d : BitVec 5) : Keeps (areanchorOp mode change b d) := by
  intro e s h
  unfold areanchorOp
  exact lands_check (needBlocks_lands ..) fun _ => lands_bind (admission_lands h ..) fun s1 h1 =>
    lands_check (need_lands ..) fun _ => finishBlocks_lands h1 ..

theorem aconvOp_keeps (b : BitVec 5) (code : AnchorFloat) (d : BitVec 5) : Keeps (aconvOp b code d) := by
  intro e s h
  unfold aconvOp
  exact lands_check (needBlocks_lands ..) fun _ => lands_bind (admission_lands h ..) fun s1 h1 =>
    lands_check (need_lands ..) fun _ => by simpa using h1

theorem afromOp_keeps (b : BitVec 5) (code : AnchorFloat) (d : BitVec 5) : Keeps (afromOp b code d) := by
  intro e s h
  unfold afromOp
  exact lands_check (needBlocks_lands ..) fun _ => lands_bind (admission_lands h ..) fun s1 h1 =>
    lands_check (need_lands ..) fun _ => finishBlocks_lands h1 ..

theorem aredOp_keeps (b d : BitVec 5) : Keeps (aredOp b d) := by
  intro e s h
  unfold aredOp
  exact lands_check (needBlocks_lands ..) fun _ => lands_check (needBq_lands ..) fun _ => lands_bind (admission_lands h ..) fun s1 h1 =>
    lands_check (need_lands ..) fun _ => h1

theorem agetOp_keeps (b d : BitVec 5) : Keeps (agetOp b d) := by
  intro e s h
  unfold agetOp
  exact lands_check (needBlocks_lands ..) fun _ => lands_bind (admission_lands h ..) fun s1 h1 => by simpa using h1

theorem aputOp_keeps (qexp : Bool) (b d : BitVec 5) : Keeps (aputOp qexp b d) := by
  intro e s h
  unfold aputOp
  exact lands_check (needBlocks_lands ..) fun _ => lands_bind (admission_lands h ..) fun s1 h1 =>
    lands_check (need_lands ..) fun _ => h1

theorem acmpOp_keeps (cc : Cond) (a b : BitVec 5) (md : MaskNo) : Keeps (acmpOp cc a b md) := by
  intro e s h
  unfold acmpOp
  exact lands_check (needBlocks_lands ..) fun _ => lands_bind (admission_lands h ..) fun s1 h1 =>
    lands_check (need_lands ..) fun _ => h1

/-! Quantisation and tiles (R265 to R283). -/

theorem vquantOp_keeps (m : MaskNo) (b sc d : BitVec 5) : Keeps (vquantOp m b sc d) := by
  intro e s h
  unfold vquantOp
  exact lands_check (needQuant_lands ..) fun _ => lands_bind (admission_lands h ..) fun s1 h1 => by simpa using h1

theorem vbscaleOp_keeps (m : MaskNo) (b sc d : BitVec 5) : Keeps (vbscaleOp m b sc d) := by
  intro e s h
  unfold vbscaleOp
  exact lands_check (needQuant_lands ..) fun _ => lands_bind (admission_lands h ..) fun s1 h1 => by simpa using h1

theorem vdequantOp_keeps (m : MaskNo) (b sc d : BitVec 5) : Keeps (vdequantOp m b sc d) := by
  intro e s h
  unfold vdequantOp
  exact lands_check (needQuant_lands ..) fun _ => lands_bind (admission_lands h ..) fun s1 h1 => by simpa using h1

theorem vqefOp_keeps (m : MaskNo) (b er d : BitVec 5) : Keeps (vqefOp m b er d) := by
  intro e s h
  unfold vqefOp
  exact lands_check (needQuant_lands ..) fun _ => lands_bind (admission_lands h ..) fun s1 h1 => by simpa using h1

theorem voutsOp_keeps (m : MaskNo) (b d : BitVec 5) : Keeps (voutsOp m b d) := by
  intro e s h
  unfold voutsOp
  exact lands_check (needQuant_lands ..) fun _ => lands_bind (admission_lands h ..) fun s1 h1 => by simpa using h1

theorem mpaOp_keeps (form : VCfg → Option MpaForm) (g : Hart → Nat → Nat → FVal) (b a : BitVec 5) (t : TileNo) :
    Keeps (mpaOp form g b a t) := by
  intro e s h
  unfold mpaOp
  refine lands_check (needVtype_lands ..) fun _ => ?_
  dsimp only
  split
  · trivial
  · refine lands_check (need_lands ..) fun _ => lands_check (needTile_lands ..) fun _ => ?_
    split
    · exact admission_lands h ..
    · exact lands_check (need_lands ..) fun _ => lands_bind (admission_lands h ..) fun s1 h1 => h1

theorem mzeroOp_keeps (t : TileNo) : Keeps (mzeroOp t) := by
  intro e s h
  unfold mzeroOp
  exact lands_check (needTile_lands ..) fun _ => lands_bind (admission_lands h ..) fun s1 h1 => h1

theorem mmvTvOp_keeps (t : TileNo) (b : BitVec 5) : Keeps (mmvTvOp t b) := by
  intro e s h
  unfold mmvTvOp
  exact lands_check (needRow_lands ..) fun _ => lands_bind (admission_lands h ..) fun s1 h1 => by simpa using h1

theorem mmvVtOp_keeps (t : TileNo) (b : BitVec 5) : Keeps (mmvVtOp t b) := by
  intro e s h
  unfold mmvVtOp
  exact lands_check (needRow_lands ..) fun _ => lands_bind (admission_lands h ..) fun s1 h1 => h1

theorem mscaleOp_keeps (b a : BitVec 5) : Keeps (mscaleOp b a) := by
  intro e s h
  unfold mscaleOp
  exact lands_check (needVtype_lands ..) fun _ => lands_bind (admission_lands h ..) fun s1 h1 => lands_check (need_lands ..) fun _ => h1

theorem mcvtOp_keeps (t : TileNo) (d : BitVec 5) : Keeps (mcvtOp t d) := by
  intro e s h
  unfold mcvtOp
  refine lands_check (needVtype_lands ..) fun _ => ?_
  dsimp only
  split
  · trivial
  · exact lands_check (need_lands ..) fun _ => lands_check (needTile_lands ..) fun _ => lands_check (need_lands ..) fun _ =>
      lands_bind (admission_lands h ..) fun s1 h1 => by simpa using h1

/-! Accesses of memory (R309 to R345). -/

theorem vldOp_keeps (ordered : Bool) (m : VMode) (mask : MaskNo) (d : BitVec 5) : Keeps (vldOp ordered m mask d) := by
  intro e s h
  unfold vldOp
  refine keeping_lands h ?_
  refine lands_check (needVtype_lands ..) fun _ => lands_check (need_lands ..) fun _ => lands_bind (admission_lands h ..) fun s1 h1 => ?_
  refine lands_bind (drainVsq_lands h1) fun s2 h2 => lands_bind (accessElems_lands h2 ..) fun a ha => ?_
  simpa [Accessed.loaded] using ha

theorem vldWOp_keeps (mask : MaskNo) (d : BitVec 5) : Keeps (vldWOp mask d) := by
  intro e s h
  unfold vldWOp
  refine keeping_lands h ?_
  refine lands_check (needVtype_lands ..) fun _ => lands_check (need_lands ..) fun _ => lands_bind (admission_lands h ..) fun s1 h1 => ?_
  refine lands_bind (drainToCopy_lands h1) fun s2 h2 => lands_bind (accessElems_lands h2 ..) fun a ha => ?_
  split
  · simpa [Accessed.loaded] using ha
  · exact h

theorem vstOp_keeps (m : VMode) (mask : MaskNo) (v : BitVec 5) : Keeps (vstOp m mask v) := by
  intro e s h
  unfold vstOp
  refine keeping_lands h ?_
  refine lands_check (needVtype_lands ..) fun _ => lands_check (need_lands ..) fun _ => lands_check (vsqRoom_lands h) fun _ => ?_
  refine lands_bind (admission_lands h ..) fun s1 h1 => lands_bind (accessElems_lands h1 ..) fun a ha => ?_
  refine lands_check (needProbed_lands ..) fun _ => ?_
  refine (lands_ok ..).mpr ?_
  split
  · exact ha
  · exact storeElems_wf ha ..

theorem vldQOp_keeps (m : VMode) (mask : MaskNo) (q : QueueNo) : Keeps (vldQOp m mask q) := by
  intro e s h
  unfold vldQOp
  refine keeping_lands h ?_
  refine lands_check (needVtype_lands ..) fun _ => lands_check (need_lands ..) fun _ => lands_bind (admission_lands h ..) fun s1 h1 => ?_
  refine lands_bind (drainVsq_lands h1) fun s2 h2 => lands_bind (accessElems_lands h2 ..) fun a ha => ?_
  dsimp only
  refine (lands_ok ..).mpr ?_
  split
  · exact ha
  · exact ha

theorem vpfOp_keeps (m : VMode) : Keeps (vpfOp m) := by
  intro e s h
  unfold vpfOp
  refine lands_check (needVtype_lands ..) fun _ => ?_
  split
  · exact lands_check (need_lands ..) fun _ => admission_lands h ..
  · exact admission_lands h ..

/-- Atomics of some elements, one after another. -/
theorem foldl_atomicElem_wf (o : AtomicOp) (c : VCfg) (x : Src) {r : AtomicRun} (h : memWf r.after.mem = true)
    (l : List (Nat × Place × List Piece)) : memWf (l.foldl (atomicElem o c x) r).after.mem = true := by
  induction l generalizing r with
  | nil => exact h
  | cons y ys ih => exact ih (performEntry_wf h _)

theorem atomicOp_keeps (locks : Bool) (o : AtomicOp) (mask : MaskNo) (b d : BitVec 5) : Keeps (atomicOp locks o mask b d) := by
  intro e s h
  unfold atomicOp
  refine keeping_lands h ?_
  refine lands_check (needVtype_lands ..) fun _ => lands_check (need_lands ..) fun _ => lands_check (vsqRoom_lands h) fun _ => ?_
  refine lands_bind (admission_lands h ..) fun s1 h1 => lands_bind (drainVsq_lands h1) fun s2 h2 =>
    lands_bind (accessElems_lands h2 ..) fun a ha => ?_
  refine lands_check (needProbed_lands ..) fun _ => ?_
  cases locks
  · exact foldl_atomicElem_wf o _ _ ha _
  · refine (lands_ok ..).mpr ?_
    rw [if_pos rfl, writeGroup_mem]
    exact foldl_atomicElem_wf o _ _ (by exact ha) _

theorem aldOp_keeps (d : BitVec 5) : Keeps (aldOp d) := by
  intro e s h
  unfold aldOp
  refine keeping_lands h ?_
  refine lands_check (needField_lands ..) fun _ => lands_bind (admission_lands h ..) fun s1 h1 => ?_
  refine lands_bind (drainVsq_lands h1) fun s2 h2 => lands_bind_snd (probeFor_lands h2 ..) fun ps s3 h3 => ?_
  exact lands_check (checkField_lands ..) fun _ => by simpa using h3

theorem aldcAdmit_lands {s : State} (h : memWf s.mem = true) (d : BitVec 5) (e : VEntry) : LandsWf (aldcAdmit d e s) := by
  unfold aldcAdmit
  dsimp only
  split
  · exact h
  · exact lands_check (needField_lands ..) fun _ => admission_lands h ..

theorem aldcEnd_lands {s : State} (h : memWf s.mem = true) (d : BitVec 5) (e : VEntry) (ps : List Probed) (ms : List LeafMark)
    (st : AldcState) (d1 : List (Nat × BlockRead)) : LandsWf (aldcEnd d e ps ms st d1 s) := by
  unfold aldcEnd
  refine lands_check (checkField_lands ..) fun _ => ?_
  dsimp only
  split
  · simpa using h
  · split
    · trivial
    · exact h

theorem aldcOp_keeps (d : BitVec 5) : Keeps (aldcOp d) := by
  intro e s h
  unfold aldcOp
  refine lands_bind (aldcAdmit_lands h d e) fun s1 h1 => ?_
  have hp : Lands (fun p => memWf p.2.mem = true) (do
      let s2 ← drainVsq s1
      probeFor e s2 false (fieldReqs e s2 false)) :=
    lands_bind (drainVsq_lands h1) fun s2 h2 => probeFor_lands h2 ..
  split
  · exact h
  · rename_i x _ hx
    rw [hx] at hp
    exact hp
  · rename_i ps s3 hx
    rw [hx] at hp
    dsimp only
    split
    · exact aldcEnd_lands hp ..
    · refine lands_check (checkField_lands ..) fun _ => ?_
      split
      · exact hp
      · exact aldcEnd_lands hp ..

theorem astOp_keeps (v : BitVec 5) : Keeps (astOp v) := by
  intro e s h
  unfold astOp
  refine keeping_lands h ?_
  refine lands_check (needField_lands ..) fun _ => lands_check (vsqRoom_lands h) fun _ => lands_bind (admission_lands h ..) fun s1 h1 => ?_
  refine lands_bind (drainVsq_lands h1) fun s2 h2 => lands_bind_snd (probeFor_lands h2 ..) fun ps s3 h3 => ?_
  refine lands_check (needProbed_lands ..) fun _ => ?_
  dsimp only
  refine (lands_ok ..).mpr ?_
  split
  · exact h3
  · exact performEntry_wf (by simpa using h3) _

theorem mldOp_keeps (t : TileNo) : Keeps (mldOp t) := by
  intro e s h
  unfold mldOp
  refine keeping_lands h ?_
  refine lands_check (needTileRows_lands ..) fun _ => lands_check (aritRoom_lands h 1) fun _ => ?_
  refine lands_bind (admission_lands h ..) fun s1 h1 => ?_
  refine lands_bind (drainVsq_lands h1) fun s2 h2 => lands_bind_snd (probeFor_lands h2 ..) fun ps s3 h3 => ?_
  simpa using h3

theorem mstOp_keeps (t : TileNo) : Keeps (mstOp t) := by
  intro e s h
  unfold mstOp
  refine keeping_lands h ?_
  refine lands_check (needTileRows_lands ..) fun _ => lands_check (vsqRoom_lands h) fun _ => lands_check (aritRoom_lands h 1) fun _ => ?_
  refine lands_bind (admission_lands h ..) fun s1 h1 => lands_bind (drainVsq_lands h1) fun s2 h2 =>
    lands_bind_snd (probeFor_lands h2 ..) fun ps s3 h3 => ?_
  refine lands_check (needProbed_lands ..) fun _ => ?_
  refine (lands_ok ..).mpr ?_
  split
  · exact h3
  · exact storeElems_wf (by simpa using h3) ..

theorem vcpyOp_keeps (arrival : Bool) : Keeps (vcpyOp arrival) := by
  intro e s h
  unfold vcpyOp
  refine keeping_lands h ?_
  refine lands_check (needBytes_lands ..) fun _ => lands_check (vsqRoom_lands h) fun _ => lands_check (aritRoom_lands h 2) fun _ => ?_
  refine lands_bind (admission_lands h ..) fun s1 h1 => lands_bind (drainVsq_lands h1) fun s2 h2 =>
    lands_bind_snd (probeFor_lands h2 ..) fun ps s3 h3 => ?_
  dsimp only
  split
  · split
    · exact h
    · exact storeElems_wf (by simpa using h3) ..
  · exact h3

theorem vfillOp_keeps : Keeps vfillOp := by
  intro e s h
  unfold vfillOp
  refine keeping_lands h ?_
  refine lands_check (needBytes_lands ..) fun _ => lands_check (vsqRoom_lands h) fun _ => lands_check (aritRoom_lands h 1) fun _ => ?_
  refine lands_bind (admission_lands h ..) fun s1 h1 => lands_bind (drainVsq_lands h1) fun s2 h2 =>
    lands_bind_snd (probeFor_lands h2 ..) fun ps s3 h3 => ?_
  dsimp only
  refine (lands_ok ..).mpr ?_
  split
  · exact h3
  · exact storeElems_wf (by simpa using h3) ..

theorem nmOp_keeps : Keeps nmOp := by
  intro e s h
  unfold nmOp
  refine keeping_lands h ?_
  split
  · exact h
  · refine lands_check (aritRoom_lands h 1) fun _ => lands_bind (admission_lands h ..) fun s1 h1 => ?_
    refine lands_bind (drainVsq_lands h1) fun s2 h2 => lands_bind_snd (probeFor_lands h2 ..) fun bp s3 h3 => ?_
    refine lands_check (need_lands ..) fun _ => ?_
    split
    · trivial
    · refine lands_check (aritRoom_lands h _) fun _ => lands_bind_snd (probeWith_lands busWait h3 ..) fun ps s4 h4 => ?_
      simpa using h4

/-! Context, control and queues (R164 to R171, R346 to R415). -/

theorem vsaveOp_keeps : Keeps vsaveOp := by
  intro e s h
  unfold vsaveOp
  refine keeping_lands h ?_
  refine lands_check (vsqRoom_lands h) fun _ => lands_bind (admission_lands h ..) fun s1 h1 =>
    lands_bind_snd (probeFor_lands h1 ..) fun ps s2 h2 => ?_
  exact storeElems_wf h2 ..

theorem vrestOp_keeps : Keeps vrestOp := by
  intro e s h
  unfold vrestOp
  refine keeping_lands h ?_
  refine lands_bind (admission_lands h ..) fun s1 h1 => lands_bind_snd (probeFor_lands h1 ..) fun hp s2 h2 =>
    lands_bind (drainVsq_lands h2) fun s3 h3 => ?_
  extract_lets header
  clear_value header
  refine lands_check (need_lands ..) fun _ => ?_
  refine lands_bind_snd (probeFor_lands h3 ..) fun ps s4 h4 => ?_
  dsimp -zeta only
  extract_lets ms x m
  generalize headerFailures _ _ _ = hl
  generalize bodyFailures _ _ = bl
  clear_value ms x m
  refine lands_check (failAt_lands ..) fun _ => lands_check (needProbed_lands ..) fun _ => lands_check (failAt_lands ..) fun _ => ?_
  refine lands_ite trivial (lands_bind (obtainRestored_lands h4 ..) fun s5 h5 => ?_)
  simpa using h5

theorem setlOp_lands {s : State} (h : memWf s.mem = true) (a : XReg) (vt : Nat) (d : XReg) (e : VEntry) : LandsWf (setlOp a vt d e s) := by
  unfold setlOp
  dsimp only
  split
  · simpa using h
  · split
    · refine (lands_wait ..).mpr ?_
      split <;> simpa using h
    · simpa using h

theorem plainFence_keeps (sc : Scope) : Keeps (plainFence sc) := fun e s h => by simpa [plainFence] using h

theorem fenceAfter_keeps {drain : State → Except Stop State} (hd : ∀ s, memWf s.mem = true → LandsWf (drain s)) (sc : Scope) :
    Keeps (fenceAfter drain sc) :=
  fun e s h => keeping_lands h (lands_bind (hd s h) fun s1 h1 => plainFence_keeps sc e s1 h1)

theorem scalarFence_keeps (sc : Scope) : Keeps (scalarFence sc) := fenceAfter_keeps (fun _ h => drainSsq_lands h) sc

theorem storeFence_keeps (sc : Scope) : Keeps (storeFence sc) := fenceAfter_keeps (fun _ h => drainVsq_lands h) sc

theorem bothFence_keeps (sc : Scope) : Keeps (bothFence sc) := fenceAfter_keeps (fun _ h => drainStores_lands h) sc

theorem aliasFence_keeps (sc : Scope) : Keeps (aliasFence sc) :=
  fun e s h => lands_bind (bothFence_keeps sc e s h) fun _ h1 => h1

theorem nmFence_keeps (sc : Scope) : Keeps (nmFence sc) := by
  intro e s h
  unfold nmFence
  split
  · exact h
  · exact plainFence_keeps sc e s h

theorem drainOp_keeps (q : BitVec 6) : Keeps (drainOp q) := by
  intro e s h
  have hd : LandsWf (if (q.getLsbD 0 || q.getLsbD 2) = true then drainVsq s else .ok s) := by
    split
    · exact drainVsq_lands h
    · exact h
  unfold drainOp
  dsimp only
  split
  · exact h
  · rename_i x _ hx
    rw [hx] at hd
    exact hd
  · rename_i s1 hx
    rw [hx] at hd
    split
    · exact hd
    · split
      · exact hd
      · split
        · split
          · exact hd
          · trivial
        · refine (lands_ok ..).mpr ?_
          rw [State.countAdmitted_mem]
          split <;> exact hd

theorem awaitPhase_lands {s : State} (h : memWf s.mem = true) (id phase : Nat) (e : VEntry) : LandsWf (awaitPhase id phase e s) := by
  unfold awaitPhase
  split
  · exact h
  · split
    · exact h
    · simpa using h

theorem barArriveOp_keeps : Keeps barArriveOp := fun e s h =>
  keeping_lands h (lands_check (barrierAt_lands e s) fun _ => lands_bind (drainStores_lands h) fun s1 h1 => by simpa using h1)

theorem barWaitOp_keeps : Keeps barWaitOp := fun e s h => lands_check (barrierAt_lands e s) fun _ => awaitPhase_lands h ..

theorem barSyncOp_keeps : Keeps barSyncOp := by
  intro e s h
  unfold barSyncOp
  split
  · exact barWaitOp_keeps e s h
  · exact lands_check (barrierAt_lands e s) fun _ => lands_bind (keeping_lands h (drainStores_lands h)) fun s1 h1 =>
      barWaitOp_keeps e _ (by simpa using h1)

theorem barInitOp_keeps : Keeps barInitOp := by
  intro e s h
  unfold barInitOp
  exact lands_check (barrierAt_lands e s) fun _ => lands_check (need_lands ..) fun _ => by simpa using h

theorem waitMemOp_keeps (d : XReg) : Keeps (waitMemOp d) := by
  intro e s h
  unfold waitMemOp
  dsimp only
  generalize ProbeReq.mk (s.entryAgent e) false _ _ acceptWatched = req
  have hp : Lands (fun p => memWf p.2.mem = true) (do
      let s0 ← drainSsq s
      probeFor e s0 false [req]) :=
    lands_bind (drainSsq_lands h) fun s0 h0 => probeFor_lands h0 ..
  split
  · exact h
  · rename_i x _ hx
    rw [hx] at hp
    exact hp
  · rename_i ps s1 hx
    rw [hx] at hp
    split
    · trivial
    · split
      · simpa using hp
      · exact hp

theorem waitTimeOp_keeps : Keeps waitTimeOp := by
  intro e s h
  unfold waitTimeOp
  dsimp only
  split
  · simpa using h
  · exact h

theorem yieldOp_keeps : Keeps yieldOp := by
  intro e s h
  unfold yieldOp
  dsimp only
  repeat' split
  all_goals simpa using h

theorem haltOp_keeps : Keeps haltOp := by
  intro e s h
  refine keeping_lands h (lands_bind (drainStores_lands h) fun s1 h1 => ?_)
  split
  · exact h
  · simpa using h1

theorem qpushOp_keeps : Keeps qpushOp := by
  intro e s h
  unfold qpushOp
  refine keeping_lands h ?_
  refine lands_check (need_lands ..) fun _ => lands_bind (drainStores_lands h) fun s1 h1 => ?_
  split
  · trivial
  · split
    · simpa using h1
    · split
      · exact h
      · simpa using h1

theorem qpopOp_keeps (traps : Bool) (d : XReg) : Keeps (qpopOp traps d) := by
  intro e s h
  unfold qpopOp
  dsimp only
  repeat' split
  all_goals simp [h]

theorem qmaskOp_keeps (all : Bool) (m : MaskNo) : Keeps (qmaskOp all m) := by
  intro e s h
  unfold qmaskOp
  exact lands_check (needVtype_lands ..) fun _ => lands_check (needBq_lands ..) fun _ => by simpa using h

theorem launchOp_keeps (d : XReg) : Keeps (launchOp d) := by
  intro e s h
  unfold launchOp
  refine keeping_lands h ?_
  refine lands_check (need_lands ..) fun _ => lands_bind_snd (probeFor_lands (by simpa using h) ..) fun ps s2 h2 => ?_
  dsimp -zeta only
  by_cases hq : Config.lqDepth ≤ s.hart.lq.length
  · rw [if_pos hq]
    exact h
  · rw [if_neg hq]
    refine lands_bind (drainStores_lands h2) fun s3 h3 => lands_check (needProbed_lands ..) fun _ => ?_
    exact lands_ite h3 (lands_ite h3 h3)

theorem qlenOp_keeps (d : XReg) : Keeps (qlenOp d) := by
  intro e s h
  have ha : ∀ n : Nat, LandsWf (.ok ((s.setX d (BitVec.ofNat 64 n)).countAdmitted e 0)) := fun n => by simpa using h
  unfold qlenOp
  extract_lets id answer
  have hb : ∀ n, LandsWf (answer n) := ha
  clear_value id answer
  refine lands_ite (hb _) (lands_ite (hb _) (lands_ite (hb _) ?_))
  split
  · rename_i x _
    clear_value x
    exact lands_ite (hb _) trivial
  · trivial

theorem reclaimOp_keeps : Keeps reclaimOp := by
  intro e s h
  unfold reclaimOp
  dsimp only
  repeat' split
  all_goals simp [h]

theorem vprobeOp_keeps (d : XReg) : Keeps (vprobeOp d) := by
  intro e s h
  unfold vprobeOp
  dsimp only
  repeat' split
  all_goals simp [h]

/-! Every row of the vector stream, by its instruction. -/

/-- What runs for an instruction of the vector stream keeps memory canonical. -/
def RunKeeps : Option VRun → Prop
  | some (.row r) => Keeps r.eff
  | _ => True

theorem RunKeeps.row {word : InstrWord} {profile : Nat} {level : Level} {ops : State → Captured} {eff : VEntry → State → VRes}
    (h : Keeps eff) : RunKeeps (some (.row ⟨word, profile, level, ops, eff⟩)) := h

theorem instrRun_keeps (i : Instr) : RunKeeps (instrRun i) := by
  cases i with
  | addVv | addVx | addVi | addVq | addVn | subVv | subVx | subVi | subVq | subVn | rsubVv | rsubVx | rsubVi | rsubVq | rsubVn | mulVv
  | mulVx | mulVi | mulVq | mulVn | mulhVv | mulhVx | mulhVi | mulhVq | mulhVn | minVv | minVx | minVi | minVq | minVn | maxVv | maxVx
  | maxVi | maxVq | maxVn | andVv | andVx | andVi | andVq | andVn | orVv | orVx | orVi | orVq | orVn | xorVv | xorVx | xorVi | xorVq
  | xorVn | sllVv | sllVx | sllVi | sllVq | sllVn | srlVv | srlVx | srlVi | srlVq | srlVn | sraVv | sraVx | sraVi | sraVq | sraVn
  | macVv | macVx | macVi | macVq | macVn | minzXv | minzXx | maxzXv | maxzXx | mulhzXv | mulhzXx | divXv | divXx | divzXv | divzXx
  | remXv | remXx | remzXv | remzXx | saddXv | saddXx | ssubXv | ssubXx | waddXv | waddXx | wmulXv | wmulXx | absdXv | absdXx =>
    exact .row (intOp_keeps _ _ _ _ _ _ _ _)
  | cmpVv | cmpVx | cmpVi | cmpVq | cmpVn | cmpzVv | cmpzVx | cmpzVi | cmpzVq | cmpzVn => exact .row (cmpOp_keeps _ _ _ _ _)
  | sext | zext => exact .row (extendOp_keeps _ _ _ _ _)
  | narrow | narrowz => exact .row (narrowOp_keeps _ _ _ _ _)
  | bitc => exact .row (bitcOp_keeps _ _ _ _)
  | faddVv | faddVx | faddVq | faddVn | fsubVv | fsubVx | fsubVq | fsubVn | fmulVv | fmulVx | fmulVq | fmulVn | fdivVv | fdivVx
  | fdivVq | fdivVn | fminVv | fminVx | fminVq | fminVn | fmaxVv | fmaxVx | fmaxVq | fmaxVn | fmaddVv | fmaddVx | fmaddVq | fmaddVn
  | fnmsubVv | fnmsubVx | fnmsubVq | fnmsubVn =>
    exact .row (floatOp_keeps _ _ _ _ _ _ _)
  | fcmpVv | fcmpVx | fcmpVq | fcmpVn => exact .row (fcmpOp_keeps _ _ _ _ _)
  | fsqrt | frec | frsq | fexp2 | fclass | fround => exact .row (floatUnary_keeps _ _ _ _ _)
  | fcvt => exact .row (fcvtOp_keeps _ _ _ _)
  | fsgnjXv | fsgnjXx | fsgnjnXv | fsgnjnXx | fsgnjxXv | fsgnjxXx => exact .row (signOp_keeps _ _ _ _ _)
  | fwaddXv | fwaddXx | fwmulXv | fwmulXx | fwmacXv | fwmacXx => exact .row (widenOp_keeps _ _ _ _ _ _)
  | vquant => exact .row (vquantOp_keeps _ _ _ _)
  | vdequant => exact .row (vdequantOp_keeps _ _ _ _)
  | vqef => exact .row (vqefOp_keeps _ _ _ _)
  | vbscale => exact .row (vbscaleOp_keeps _ _ _ _)
  | vouts => exact .row (voutsOp_keeps _ _ _)
  | mand | mor | mxor | mandn => exact .row (maskOp_keeps _ _ _ _)
  | mpop | mfirst => exact .row (countOp_keeps _ _ _ _)
  | iota => exact .row (iotaOp_keeps _ _ _)
  | vid => exact .row (vidOp_keeps _ _)
  | slideupVx | slideupVi | slideupVn | slidednVx | slidednVi | slidednVn => exact .row (slideOp_keeps _ _ _ _ _)
  | vgatherVv | vgatherVx | vlut => exact .row (gatherOp_keeps _ _ _ _ _)
  | vcompress | vexpand => exact .row (compressOp_keeps _ _ _ _)
  | vunpack => exact .row (vunpackOp_keeps _ _ _)
  | vpack => exact .row (vpackOp_keeps _ _ _)
  | redsum | redmin | redmax | redminz | redmaxz | redand | redor | redxor => exact .row (redOp_keeps _ _ _ _ _)
  | fredo | fredt | fredmax | fredmin => exact .row (fredOp_keeps _ _ _ _ _ _)
  | mvxs => exact .row (mvxsOp_keeps _ _)
  | mvsx => exact .row (mvsxOp_keeps _)
  | vbcast => exact .row (vbcastOp_keeps _)
  | vrev => exact .row (vrevOp_keeps _ _ _)
  | aaddVv | asubVv => exact .row (aaddField_keeps _ _ _ _)
  | aaddVx | asubVx => exact .row (aaddScalar_keeps _ _ _)
  | aaddVi | asubVi => exact .row (aaddImm_keeps _ _ _ _)
  | adiffVx | adiffVi => exact .row (adiffOp_keeps _ _ _)
  | amulVx | amulVi => exact .row (amulOp_keeps _ _ _)
  | ascaleVx => exact .row (ascaleScalar_keeps _ _)
  | ascaleVi => exact .row (ascaleImm_keeps _ _ _)
  | aconv => exact .row (aconvOp_keeps _ _ _)
  | afrom => exact .row (afromOp_keeps _ _ _)
  | areanchorVx | areanchorVi => exact .row (areanchorOp_keeps _ _ _ _)
  | ared => exact .row (aredOp_keeps _ _)
  | aget => exact .row (agetOp_keeps _ _)
  | aput | aqset => exact .row (aputOp_keeps _ _ _)
  | mzero => exact .row (mzeroOp_keeps _)
  | mpa | mpaI | mpaH | mlra => exact .row (mpaOp_keeps _ _ _ _ _)
  | mmvTv => exact .row (mmvTvOp_keeps _ _)
  | mmvVt => exact .row (mmvVtOp_keeps _ _)
  | mscale => exact .row (mscaleOp_keeps _ _)
  | mcvt => exact .row (mcvtOp_keeps _ _)
  | acmp => exact .row (acmpOp_keeps _ _ _ _)
  | vld | vldS | vldX | vldB | vldoS | vldoX => exact .row (vldOp_keeps _ _ _ _)
  | vldW => exact .row (vldWOp_keeps _ _)
  | vst | vstS | vstX | vstB | vstoS | vstoX => exact .row (vstOp_keeps _ _ _)
  | vldQ | vldQS | vldQX => exact .row (vldQOp_keeps _ _ _)
  | vamo | vupdO => exact .row (atomicOp_keeps _ _ _ _ _)
  | vpf | vpfS | vpfX => exact .row (vpfOp_keeps _)
  | ald => exact .row (aldOp_keeps _)
  | aldC => exact .row (aldcOp_keeps _)
  | ast => exact .row (astOp_keeps _)
  | mld => exact .row (mldOp_keeps _)
  | mst => exact .row (mstOp_keeps _)
  | vcpy => exact .row (vcpyOp_keeps _)
  | vfill => exact .row vfillOp_keeps
  | nm => exact .row nmOp_keeps
  | setl | setlR => exact .row fun _ _ h => setlOp_lands h ..
  | fenceSv => exact .row (scalarFence_keeps _)
  | fenceVs => exact .row (storeFence_keeps _)
  | fenceVv | fenceAcq => exact .row (plainFence_keeps _)
  | fenceNm => exact .row (nmFence_keeps _)
  | fenceAlias => exact .row (aliasFence_keeps _)
  | fenceRel | fenceAr => exact .row (bothFence_keeps _)
  | drain => exact .row (drainOp_keeps _)
  | barArrive => exact .row barArriveOp_keeps
  | barWait => exact .row barWaitOp_keeps
  | barSync => exact .row barSyncOp_keeps
  | barInit => exact .row barInitOp_keeps
  | waitMem => exact .row (waitMemOp_keeps _)
  | waitTime => exact .row waitTimeOp_keeps
  | yield => exact .row yieldOp_keeps
  | halt | kend => exact .row haltOp_keeps
  | qpush => exact .row qpushOp_keeps
  | qpop | qpopT => exact .row (qpopOp_keeps _ _)
  | qany | qall => exact .row (qmaskOp_keeps _ _)
  | launch => exact .row (launchOp_keeps _)
  | qlen => exact .row (qlenOp_keeps _)
  | vsave => exact .row vsaveOp_keeps
  | vrest => exact .row vrestOp_keeps
  | reclaim => exact .row reclaimOp_keeps
  | vprobe => exact .row (vprobeOp_keeps _)
  | scalarBaseInstruction | fence | fenceI | sfenceVma | wfi | ecall | ebreak | lrSc | grantWindow | revokeWindow | assignGranules
  | releaseGranules | setQueueOwner | illegalInstruction | viqAdmission | viqHeadAged | microOpIssue | vectorInstructionComplete
  | pinEntriesFree | storePerformed | arrivalPointerAdvance | aldCAttempt | lineLockRelease | nmLineApply | nmCompletionRecord
  | cxlRequestIssue | rowActivation | callGraphPrefetch | sequentialPrefetch | vectorTrap | userAnchorDelivery | interrupt
  | hartFatalError | supervisorTerminate | launchCheck | queueHeadAging | gangPlacement | reclaimTakesEffect | reclaimAbandon
  | fullContextSwitch | timeSliceExpiry | gangRestore | gangRetire | launchComplete | heldSuccessorEntersQueue | lqRecordEntersQueue
  | barrierPhaseComplete | pigeonholeValueArrives | waitMemReread | waitTimeDeadline | pwrgrantWrite | chainpermWrite | busyctlWrite
  | vdeskWrite | satpWrite | mhpmcounterWrite | mhpmeventWrite | csrWrite | lqctlWrite | lqDoorbell | launchFrameReceive
  | pcieInboundRequest | shofinRemoteRequest | routeDownTimeout | timestampExchange | timebaseTick | stringWindow | stringStepUp
  | powerManagerPeriod | lanePowerGate | laneWake | uncorrectableError | correctableError | l1dParityError | layerMapOut
  | mapOutVacated | mapOutLineMove | coldReset | warmReset | memready | attestationRequest | reportCardWrite | fatalDump
  | shofinRouteLost | shofinRouteRetrained | phyTrainingComplete | systemCoreMemoryAccess | vret | aret =>
    trivial

/-- The effect of a row of the stream keeps memory canonical. -/
theorem row_keeps {i : Instr} {r : VRow} (h : instrRun i = some (.row r)) : Keeps r.eff := by
  have hk := instrRun_keeps i
  rw [h] at hk
  exact hk

/-- The effect of an entry of the VIQ keeps memory canonical. -/
theorem entryEffect_keeps : Keeps entryEffect := by
  intro e s h
  unfold entryEffect
  split
  · rename_i r hr
    unfold entryRow at hr
    split at hr
    · rename_i x hw
      cases hr
      unfold wordRun at hw
      split at hw
      · cases hd : decodeWord e.word with
        | ok i =>
          rw [hd] at hw
          exact row_keeps hw e s h
        | error x =>
          rw [hd] at hw
          cases hw
      · cases hw
    · cases hr
  · trivial

end Sys2Proof.Machine
end

section
/-! SUPPORT. Every instruction and every event keeps memory canonical (R1, R285; log 4). -/

namespace Sys2Proof.Machine

/-- The next state of an answer, where it has one, has a canonical memory. -/
def NextWf : Res → Prop
  | .next t => memWf t.mem = true
  | _ => True

@[simp] theorem nextWf_next (t : State) : NextWf (.next t) ↔ memWf t.mem = true := Iff.rfl

/-- Either of two answers. -/
theorem nextWf_ite {c : Prop} [Decidable c] {x y : Res} (hx : NextWf x) (hy : NextWf y) : NextWf (if c then x else y) := by
  split
  · exact hx
  · exact hy

/-- Either of two states. -/
theorem ite_wf {c : Prop} [Decidable c] {s t : State} (hs : memWf s.mem = true) (ht : memWf t.mem = true) :
    memWf (if c then s else t).mem = true := by
  split
  · exact hs
  · exact ht

/-! Entries of the VIQ: how they are run, issued, trapped and windowed. -/

theorem trapEntry_wf {s t : State} (h : memWf s.mem = true) {e : VEntry} {cause : Nat} {tval : Word} {side : TrapSide}
    {younger : List VEntry} (ht : trapEntry s e cause tval side younger = .ok t) : memWf t.mem = true := by
  unfold trapEntry at ht
  split at ht
  · cases ht
  · cases ht
    exact deliver_wf h ..

theorem runEntry_wf {s : State} (h : memWf s.mem = true) {eff : VEntry → State → VRes} (hk : Keeps eff) (e : VEntry)
    (younger : List VEntry) : memWf (runEntry eff e younger s).mem = true := by
  have hl : LandsWf (eff e s.clearUses.headState) := hk e _ (by simpa using h)
  unfold runEntry
  split
  next t ht =>
    rw [ht] at hl
    simpa using hl
  next cause tval side _ =>
    split
    next t ht =>
      have hw := trapEntry_wf h ht
      split <;> simpa using hw
    next => exact h
  next r t ht =>
    rw [ht] at hl
    simpa using hl

theorem issue_wf {s : State} (h : memWf s.mem = true) {eff : VEntry → State → VRes} (hk : Keeps eff) (profile : Nat) (w : InstrWord)
    (o : Captured) : NextWf (issue profile w o eff s) := by
  unfold issue
  split
  · simpa using h
  · refine nextWf_ite ?_ (nextWf_ite ?_ (nextWf_ite ?_ ?_))
    · exact runEntry_wf (s := s.setPc (s.hart.pc + 4#64)) h hk _ _
    · simpa using h
    · exact h
    · simpa using h

theorem issueS_wf {s : State} (h : memWf s.mem = true) {eff : VEntry → State → VRes} (hk : Keeps eff) (allowMachine : Bool)
    (w : InstrWord) (o : Captured) : NextWf (issueS allowMachine w o eff s) := by
  unfold issueS
  exact nextWf_ite (issue_wf h hk ..) (by simpa using h)

theorem VRow.dispatch_wf {s : State} (h : memWf s.mem = true) {r : VRow} (hk : Keeps r.eff) : NextWf (r.dispatch s) := by
  unfold VRow.dispatch
  split
  · exact issue_wf h hk ..
  · exact issueS_wf h hk ..
  · exact issueS_wf h hk ..

theorem windowRun_wf {s : State} (h : memWf s.mem = true) (w : InFlight) : memWf (windowRun w s).mem = true := by
  have hl : LandsWf (entryEffect w.entry (windowState w s)) := entryEffect_keeps _ _ h
  unfold windowRun
  split
  next t ht =>
    rw [ht] at hl
    simpa using hl
  next cause tval side _ =>
    split
    next t ht => exact trapEntry_wf h ht
    next => exact h
  next r t ht =>
    rw [ht] at hl
    simpa using hl

theorem headRun_wf {s : State} (h : memWf s.mem = true) : memWf (headRun s).mem = true := by
  unfold headRun
  split
  · exact windowRun_wf h _
  · exact runEntry_wf h entryEffect_keeps ..
  · exact h

theorem retryHead_wf {s : State} (h : memWf s.mem = true) (reason : WaitReason → Bool) : memWf (retryHead reason s).mem = true := by
  unfold retryHead
  split
  · exact ite_wf (headRun_wf h) h
  · exact h

theorem completeWindow_wf {s : State} (h : memWf s.mem = true) : memWf (completeWindow s).mem = true := by
  unfold completeWindow
  split
  · exact ite_wf (windowRun_wf h _) h
  · exact h

theorem headMove_wf {s : State} (h : memWf s.mem = true) : memWf (headMove s).mem = true := by
  unfold headMove
  split
  · exact ite_wf (completeWindow_wf h) (by simpa using h)
  · exact headRun_wf h

theorem deliverHead_wf {s : State} (h : memWf s.mem = true) (user : Bool) : memWf (deliverHead user s).mem = true := by
  unfold deliverHead
  split
  · refine ite_wf ?_ h
    split
    next t ht => exact trapEntry_wf h ht
    next => exact h
  · exact h

theorem deskHandOut_wf {s : State} (h : memWf s.mem = true) (core : Nat) : memWf (deskHandOut s core).mem = true :=
  foldl_wf (fun _ hid h => State.asHart_wf h hid fun _ h => retryHead_wf h _) h _

theorem switchGiving_wf {s : State} (h : memWf s.mem = true) (g : Gang) : memWf (switchGiving s g).mem = true := by
  unfold switchGiving
  exact ite_wf (ite_wf (deskHandOut_wf (switchOut_wf h g) _) (switchOut_wf h g)) h

theorem takeReclaim_wf {s : State} (h : memWf s.mem = true) (g : Gang) : memWf (takeReclaim s g).mem = true := by
  unfold takeReclaim
  split
  · refine ite_wf (foldl_wf (fun _ hid h => State.asHart_wf h hid fun _ h => headRun_wf h) ?_ _) h
    simpa using h
  · exact h

/-! Admission to the window. -/

theorem admitBehind_wf {s t : State} (h : memWf s.mem = true) {e : VEntry} {younger : List VEntry}
    (ht : admitBehind s e younger = some t) : memWf t.mem = true := by
  unfold admitBehind at ht
  split at ht
  · cases ht
  · split at ht
    · cases ht
    · split at ht
      · cases ht
      · split at ht
        · cases ht
          exact enterWindow_wf h ..
        · cases ht

theorem admitHead_wf {s t : State} (h : memWf s.mem = true) (ht : admitHead s = some t) : memWf t.mem = true := by
  unfold admitHead at ht
  split at ht
  · split at ht
    · cases ht
    · split at ht
      · exact admitBehind_wf h ht
      · split at ht
        · cases ht
        · cases ht
          exact headRun_wf h
        · split at ht
          · cases ht
            exact enterWindow_wf h ..
          · split at ht
            · cases ht
            · cases ht
              exact headRun_wf h
  · cases ht

theorem admitOn_wf {s t : State} (h : memWf s.mem = true) {hid : Nat} (ht : admitOn s hid = some t) : memWf t.mem = true := by
  unfold admitOn at ht
  split at ht
  · obtain ⟨u, hu, rfl⟩ := Option.map_eq_some_iff.mp ht
    simpa using admitHead_wf (by simpa using h) hu
  · cases ht

theorem execViqAdmission_wf {s : State} (h : memWf s.mem = true) (core : Nat) : NextWf (execViqAdmission core s) := by
  simp only [execViqAdmission, nextWf_next]
  cases ht : (admissionOrder s core).findSome? (admitOn s) with
  | none => exact h
  | some t =>
    obtain ⟨hid, _, hm⟩ := List.exists_of_findSome?_eq_some ht
    exact admitOn_wf h hm

/-! Scalar instructions. -/

theorem afterStores_wf {s : State} (h : memWf s.mem = true) {k : State → Res} (hk : ∀ t, memWf t.mem = true → NextWf (k t)) :
    NextWf (afterStores s k) := by
  have hl := drainSsq_lands h
  unfold afterStores
  split
  next t ht =>
    rw [ht] at hl
    exact hk t hl
  · simpa using h
  · exact h

theorem writeAdvance_wf {s : State} (h : memWf s.mem = true) (rd : XReg) (v : Word) : NextWf (writeAdvance s rd v) := by
  unfold writeAdvance
  simpa using h

theorem jumpTo_wf {s : State} (h : memWf s.mem = true) (rd : XReg) (target : Word) : NextWf (jumpTo s rd target) := by
  unfold jumpTo
  refine nextWf_ite ?_ ?_ <;> simpa using h

theorem scalarLoad_error_mem {s t : State} {va : Word} {n : Nat} {read : ScalarRead} (ht : scalarLoad s va n read = .error t) :
    t.mem = s.mem := by
  unfold scalarLoad at ht
  dsimp only at ht
  split at ht
  · cases ht
    simp
  · split at ht
    · cases ht
      simp
    · cases ht

theorem loadInto_wf {s : State} (h : memWf s.mem = true) (va : Word) (n : Nat) (read : ScalarRead) : NextWf (loadInto s va n read) := by
  unfold loadInto
  split
  next t ht => simpa [scalarLoad_error_mem ht] using h
  next l _ => simpa using State.issueLoad_wf h l

theorem storeFrom_wf {s : State} (h : memWf s.mem = true) (va : Word) (n : Nat) (v : Word) : NextWf (storeFrom s va n v) := by
  have hw := scalarStore_wf h va n v
  unfold storeFrom
  split
  next t ht =>
    rw [ht] at hw
    simpa using hw
  next t ht =>
    rw [ht] at hw
    exact hw

theorem amoOp_wf {s : State} (h : memWf s.mem = true) (op : AmoOp) (n : Nat) (rd rs1 rs2 : XReg) : NextWf (amoOp op n rd rs1 rs2 s) := by
  unfold amoOp
  dsimp only
  split
  · simpa using h
  next leaf c _ =>
    refine nextWf_ite ?_ (afterStores_wf h fun t ht => ?_)
    · exact writeAdvance_wf (by simpa using markScalar_wf h _ _ leaf c) ..
    · refine nextWf_ite ?_ ?_
      · simpa using h
      · simpa using State.issueLoad_wf ht _

theorem lrScOp_wf {s : State} (h : memWf s.mem = true) (i : LrScInstr) : NextWf (lrScOp i s) := by
  cases i with
  | lr dbl aq rl rd rs1 =>
    unfold lrScOp
    dsimp only
    refine nextWf_ite ?_ ?_
    · simpa using h
    · split
      · simpa using h
      next leaf c _ =>
        refine afterStores_wf h fun t ht => nextWf_ite ?_ ?_
        · simpa using h
        · exact writeAdvance_wf (by simpa using markScalar_wf ht _ _ leaf c) ..
  | sc dbl aq rl rd rs1 rs2 =>
    unfold lrScOp
    dsimp only
    split
    · simpa using h
    · refine afterStores_wf h fun t ht => nextWf_ite ?_ ?_
      · exact writeAdvance_wf (by simpa using performEntry_wf ht _) ..
      · exact writeAdvance_wf (by simpa using ht) ..

theorem fdResult_wf {s : State} (h : memWf s.mem = true) (dbl : Bool) (rd : XReg) (r : Nat × Nat) : NextWf (fdResult s dbl rd r) := by
  unfold fdResult
  simpa using h

theorem fdToX_wf {s : State} (h : memWf s.mem = true) (rd : XReg) (v : Word) (fl : Nat) : NextWf (fdToX s rd v fl) := by
  unfold fdToX
  refine writeAdvance_wf ?_ rd v
  split
  · exact h
  · exact h

theorem withFp_wf {s : State} (h : memWf s.mem = true) (i : RvInstr) {k : Res} (hk : NextWf k) : NextWf (withFp i s k) := by
  unfold withFp
  exact nextWf_ite hk (by simpa using h)

theorem withFpRound_wf {s : State} (h : memWf s.mem = true) (i : RvInstr) (rm : Rm) {k : Rnd → Res} (hk : ∀ r, NextWf (k r)) :
    NextWf (withFpRound i rm s k) := by
  unfold withFpRound
  split
  · exact withFp_wf h i (hk _)
  · simpa using h

theorem csrWriteOp_wf {s : State} (h : memWf s.mem = true) (op : CsrOp) (rd : XReg) (csr : BitVec 12) (src : BitVec 5) :
    NextWf (csrWriteOp op rd csr src s) := by
  unfold csrWriteOp
  dsimp only
  refine nextWf_ite ?_ (nextWf_ite ?_ (nextWf_ite ?_ ?_)) <;> simpa using h

theorem csrReadOp_wf {s : State} (h : memWf s.mem = true) (word : InstrWord) (rd : XReg) (csr : BitVec 12) :
    NextWf (csrReadOp word rd csr s) := by
  unfold csrReadOp
  dsimp only
  refine nextWf_ite ?_ (nextWf_ite ?_ ?_) <;> simpa using h

theorem mretOp_wf {s : State} (h : memWf s.mem = true) : NextWf (mretOp s) := by
  unfold mretOp
  refine nextWf_ite ?_ ?_ <;> simpa using h

theorem sretOp_wf {s : State} (h : memWf s.mem = true) : NextWf (sretOp s) := by
  unfold sretOp
  refine nextWf_ite ?_ ?_ <;> simpa using h

theorem execScalarBaseInstruction_wf {s : State} (h : memWf s.mem = true) (i : RvInstr) : NextWf (execScalarBaseInstruction i s) := by
  unfold execScalarBaseInstruction
  cases i with
  | lui | auipc | opImm | addiw | shiftImm | shiftImmW | op | opW | unary => exact writeAdvance_wf h ..
  | jal | jalr => exact jumpTo_wf h ..
  | branch =>
    refine nextWf_ite (nextWf_ite ?_ ?_) ?_ <;> simpa using h
  | load => exact loadInto_wf h ..
  | store => exact storeFrom_wf h ..
  | amo => exact amoOp_wf h ..
  | fload => exact withFp_wf h _ (loadInto_wf h ..)
  | fstore => exact withFp_wf h _ (storeFrom_wf h ..)
  | farith | fsqrt | fma | fcvtFromInt | fcvtSD | fcvtDS => exact withFpRound_wf h _ _ fun _ => fdResult_wf h ..
  | fpair | fmvFromX => exact withFp_wf h _ (fdResult_wf h ..)
  | fcmp | fclass | fmvToX => exact withFp_wf h _ (fdToX_wf h ..)
  | fcvtToInt => exact withFpRound_wf h _ _ fun _ => fdToX_wf h ..
  | csrRead => exact csrReadOp_wf h ..
  | mret => exact mretOp_wf h
  | sret => exact sretOp_wf h

theorem execFence_wf {s : State} (h : memWf s.mem = true) (fm pred succ : BitVec 4) (rs1 rd : XReg) :
    NextWf (execFence fm pred succ rs1 rd s) := by
  unfold execFence
  refine nextWf_ite (afterStores_wf h fun t ht => ?_) ?_
  · simpa using ht
  · simpa using h

theorem execFenceI_wf {s : State} (h : memWf s.mem = true) (imm : BitVec 12) (rs1 rd : XReg) : NextWf (execFenceI imm rs1 rd s) :=
  afterStores_wf h fun t ht => by simpa using ht

theorem execSfenceVma_wf {s : State} (h : memWf s.mem = true) (rs1 rs2 : XReg) : NextWf (execSfenceVma rs1 rs2 s) := by
  unfold execSfenceVma
  dsimp only
  refine nextWf_ite ?_ (nextWf_ite ?_ (nextWf_ite ?_ (afterStores_wf h fun t ht => ?_)))
  · simpa using h
  · simpa using h
  · simpa using h
  · simpa using ht

theorem execWfi_wf {s : State} (h : memWf s.mem = true) : NextWf (execWfi s) := by
  unfold execWfi
  refine nextWf_ite ?_ (nextWf_ite ?_ ?_) <;> simpa using h

/-! Saved areas. -/

theorem loadRuns_wf (g : Agent) (l : List (Nat × Nat)) {s : State} (h : memWf s.mem = true) {bs : List Byte} {t : State}
    (ht : loadRuns g l s = .ok (bs, t)) : memWf t.mem = true := by
  induction l generalizing s bs t with
  | nil =>
    cases ht
    exact h
  | cons x rest ih =>
    obtain ⟨va, len⟩ := x
    unfold loadRuns at ht
    split at ht
    · cases ht
    · cases ht
    · cases ht
    · cases ht
    next leaf _ =>
      split at ht
      · cases ht
      next ap key _ =>
        dsimp only at ht
        split at ht
        · cases ht
        · split at ht
          · cases ht
          · split at ht
            · cases ht
            next hr =>
              cases ht
              exact ih (markScalar_wf h _ _ leaf _) hr

theorem userSavedArea_wf {s : State} (h : memWf s.mem = true) {base : Nat} {bs : List Byte} {t : State}
    (ht : userSavedArea s base = .ok (bs, t)) : memWf t.mem = true := by
  unfold userSavedArea at ht
  dsimp only at ht
  cases hr : loadRuns (s.agent s.hart .user) (linesOf (base, 64)) s with
  | error x =>
    rw [hr] at ht
    cases ht
  | ok p =>
    rw [hr] at ht
    exact loadRuns_wf _ _ h ht

theorem aretNow_wf {s : State} (h : memWf s.mem = true) : memWf (aretNow s).mem = true := by
  unfold aretNow
  split
  · simpa using h
  · simpa using h
  next ht =>
    split
    · simpa using h
    · simpa using userSavedArea_wf h ht

theorem execVret_wf {s : State} (h : memWf s.mem = true) : NextWf (execVret s) := by
  unfold execVret
  refine nextWf_ite ?_ (nextWf_ite ?_ (afterStores_wf h fun t ht => ?_))
  · simpa using h
  · simpa using h
  · split <;> simpa using ht

theorem execAret_wf {s : State} (h : memWf s.mem = true) : NextWf (execAret s) := by
  unfold execAret
  refine nextWf_ite ?_ (nextWf_ite ?_ (afterStores_wf h fun t ht => ?_))
  · simpa using h
  · simpa using h
  · exact aretNow_wf ht

/-! Accesses of the system cores. -/

theorem sysTranslate_mem {s t : State} {core : Nat} {write : Bool} {vpage p : Nat} (ht : sysTranslate s core write vpage = .ok (p, t)) :
    t.mem = s.mem := by
  unfold sysTranslate at ht
  extract_lets c mode guest user m ask bare at ht
  split at ht
  · cases ht
    rfl
  · split at ht
    · cases ht
      rfl
    · split at ht
      · cases ht
      · cases ht
        split <;> rfl

theorem sysPages_mem (core : Nat) (write : Bool) (l : List Nat) {s t : State} {ps : List (Nat × Nat)}
    (ht : sysPages core write l s = .ok (ps, t)) : t.mem = s.mem := by
  induction l generalizing s t ps with
  | nil =>
    cases ht
    rfl
  | cons v vs ih =>
    unfold sysPages at ht
    split at ht
    · cases ht
    next hp =>
      split at ht
      · cases ht
      next hs =>
        cases ht
        rw [ih hs, sysTranslate_mem hp]

theorem systemAccess_wf {s : State} (h : memWf s.mem = true) (core : Nat) (req : MemRequest) :
    memWf (systemAccess s core req).mem = true := by
  unfold systemAccess
  dsimp only
  split
  · exact h
  · split
    · exact h
    next ht =>
      rw [← sysPages_mem _ _ _ ht] at h
      split
      · simpa using h
      · simpa using request_wf h ..

/-! Events: the harts and gangs they name. -/

theorem State.withHart_wf {s : State} (h : memWf s.mem = true) (hid : Nat) {f : State → Res}
    (hf : ∀ t, memWf t.mem = true → NextWf (f t)) : NextWf (s.withHart hid f) := by
  unfold State.withHart
  refine nextWf_ite (hf s h) (nextWf_ite ?_ h)
  have hn := hf (s.switchTo hid) (by simpa using h)
  split
  next ht =>
    rw [ht] at hn
    simpa using hn
  · trivial
  · trivial

theorem onRunning_wf {s : State} (h : memWf s.mem = true) (hid : Nat) {f : State → State}
    (hf : ∀ t, memWf t.mem = true → memWf (f t).mem = true) : NextWf (onRunning hid f s) :=
  State.withHart_wf h hid fun t ht => ite_wf (hf t ht) ht

theorem onGang_wf {s : State} (h : memWf s.mem = true) (key : Nat) {f : State → Gang → State} (hf : ∀ g, memWf (f s g).mem = true) :
    NextWf (onGang key f s) := by
  unfold onGang
  rw [nextWf_next]
  split
  · exact hf _
  · exact h

theorem execAldCAttempt_wf {s : State} (h : memWf s.mem = true) (hid : Nat) : NextWf (execAldCAttempt hid s) := by
  unfold execAldCAttempt
  exact onRunning_wf h hid fun t ht => ite_wf (retryHead_wf ht _) ht

theorem execLineLockRelease_wf {s : State} (h : memWf s.mem = true) (hid : Nat) : NextWf (execLineLockRelease hid s) := by
  unfold execLineLockRelease
  exact onRunning_wf h hid fun t ht => ite_wf (completeWindow_wf ht) ht

theorem execTimeSliceExpiry_wf {s : State} (h : memWf s.mem = true) (gang : Nat) : NextWf (execTimeSliceExpiry gang s) := by
  unfold execTimeSliceExpiry
  exact onGang_wf h gang fun g => ite_wf h (expireSlice_wf h g)

theorem execGangRetire_wf {s : State} (h : memWf s.mem = true) (gang : Nat) : NextWf (execGangRetire gang s) := by
  unfold execGangRetire
  exact onGang_wf h gang fun g => ite_wf (retireGang_wf h g) h

theorem execLqRecordEntersQueue_wf {s : State} (h : memWf s.mem = true) (hid : Nat) : NextWf (execLqRecordEntersQueue hid s) := by
  unfold execLqRecordEntersQueue
  exact State.withHart_wf h hid fun t ht => by simpa using ht

theorem execPinEntriesFree_wf {s : State} (h : memWf s.mem = true) (core : Nat) : NextWf (execPinEntriesFree core s) := by
  unfold execPinEntriesFree
  split
  · exact onRunning_wf h _ fun _ ht => headRun_wf ht
  · exact h

theorem execStorePerformed_wf {s : State} (h : memWf s.mem = true) (source : StoreSource) : NextWf (execStorePerformed source s) := by
  unfold execStorePerformed
  split
  · exact State.withHart_wf h _ fun t ht => performOldest_wf ht
  · exact performPassed_wf h _

theorem execCxlRequestIssue_wf {s : State} (h : memWf s.mem = true) (expander : Nat) : NextWf (execCxlRequestIssue expander s) := by
  unfold execCxlRequestIssue
  split
  · refine nextWf_ite ?_ h
    simpa using h
  · exact h

theorem execRowActivation_wf {s : State} (h : memWf s.mem = true) (region channel : Nat) : NextWf (execRowActivation region channel s) := by
  unfold execRowActivation
  split <;> exact h

theorem execLaunchComplete_wf {s : State} (h : memWf s.mem = true) (launch : Nat) : NextWf (execLaunchComplete launch s) := by
  unfold execLaunchComplete
  rw [nextWf_next]
  split
  · exact ite_wf (completeLaunch_wf h _) h
  · exact h

theorem execLqDoorbell_wf {s : State} (h : memWf s.mem = true) (door : Doorbell) (record : Word) :
    NextWf (execLqDoorbell door record s) := by
  unfold execLqDoorbell
  refine nextWf_ite (nextWf_ite h ?_) h
  simpa using h

theorem execStringStepUp_wf {s : State} (h : memWf s.mem = true) (string : Nat) : NextWf (execStringStepUp string s) := by
  unfold execStringStepUp
  split
  · exact ite_wf h h
  · exact h

theorem execMemready_wf {s : State} (h : memWf s.mem = true) : NextWf (execMemready s) := ite_wf h h

theorem execFatalDump_wf {s : State} (h : memWf s.mem = true) (reason : Nat) : NextWf (execFatalDump reason s) :=
  ite_wf (dump_wf h reason) h

/-! Instructions, events and steps. -/

/-- A state whose memory is that of another one. -/
theorem sameMem_wf {s t : State} (h : memWf s.mem = true) (he : t.mem = s.mem) : memWf t.mem = true := by
  rw [he]
  exact h

/-- What is no instruction of the vector stream: the base set, the Domain Layer's calls, the events. -/
theorem exec_wf_of_noRun {s : State} (h : memWf s.mem = true) {i : Instr} (hi : instrRun i = none) : NextWf (exec i s) := by
  cases i with
  | scalarBaseInstruction i => exact execScalarBaseInstruction_wf h i
  | fence fm pred succ rs1 rd => exact execFence_wf h fm pred succ rs1 rd
  | fenceI imm rs1 rd => exact execFenceI_wf h imm rs1 rd
  | sfenceVma rs1 rs2 => exact execSfenceVma_wf h rs1 rs2
  | wfi => exact execWfi_wf h
  | ecall => exact sameMem_wf h (State.raise_mem ..)
  | ebreak => exact sameMem_wf h (State.raise_mem ..)
  | lrSc i => exact lrScOp_wf h i
  | illegalInstruction word => exact sameMem_wf h (State.raiseIllegal_mem ..)
  | pwrgrantWrite | chainpermWrite | busyctlWrite | vdeskWrite | satpWrite | mhpmcounterWrite | mhpmeventWrite | csrWrite =>
    exact csrWriteOp_wf h ..
  | grantWindow hid => exact onRunning_wf h hid fun t ht => sameMem_wf ht (grantNow_mem t)
  | revokeWindow hid => exact onRunning_wf h hid fun t ht => sameMem_wf ht (revokeNow_mem t)
  | assignGranules caller a0 a1 a2 => exact assign_wf h caller a0 a1 a2
  | releaseGranules caller a0 a1 => exact release_wf h caller a0 a1
  | setQueueOwner caller a0 a1 => exact sameMem_wf h (setOwner_mem ..)
  | viqAdmission core => exact execViqAdmission_wf h core
  | viqHeadAged hid => exact onRunning_wf h hid fun t ht => sameMem_wf ht (ageHead_mem t)
  | microOpIssue hid => exact onRunning_wf h hid fun t ht => sameMem_wf ht (issueMicroOp_mem t)
  | vectorInstructionComplete hid => exact onRunning_wf h hid fun t ht => completeWindow_wf ht
  | pinEntriesFree core => exact execPinEntriesFree_wf h core
  | storePerformed source => exact execStorePerformed_wf h source
  | arrivalPointerAdvance core bank bytes => exact advanceArrival_wf h core bank bytes
  | aldCAttempt hid => exact execAldCAttempt_wf h hid
  | lineLockRelease hid => exact execLineLockRelease_wf h hid
  | nmLineApply cmd line => exact sameMem_wf (applyLine_wf h cmd line) (State.wake_mem ..)
  | nmCompletionRecord cmd => exact recordCommand_wf h cmd
  | cxlRequestIssue expander => exact execCxlRequestIssue_wf h expander
  | rowActivation region channel => exact execRowActivation_wf h region channel
  | callGraphPrefetch | sequentialPrefetch => exact h
  | vectorTrap hid => exact onRunning_wf h hid fun t ht => deliverHead_wf ht false
  | userAnchorDelivery hid => exact onRunning_wf h hid fun t ht => deliverHead_wf ht true
  | interrupt hid => exact onRunning_wf h hid fun t ht => takeInterrupt_wf ht
  | hartFatalError hid =>
    exact onRunning_wf h hid fun t ht => sameMem_wf ht ((countFatal_mem _).trans (terminateNow_mem t))
  | supervisorTerminate hid => exact onRunning_wf h hid fun t ht => sameMem_wf ht (terminateNow_mem t)
  | launchCheck queue => exact checkHead_wf h queue
  | queueHeadAging queue => exact sameMem_wf h (ageQueue_mem ..)
  | gangPlacement die => exact placeNext_wf h die
  | reclaimTakesEffect gang => exact onGang_wf h gang fun g => takeReclaim_wf h g
  | reclaimAbandon gang => exact onGang_wf h gang fun g => abandonReclaim_wf h g
  | fullContextSwitch gang => exact onGang_wf h gang fun g => switchGiving_wf h g
  | timeSliceExpiry gang => exact execTimeSliceExpiry_wf h gang
  | gangRestore die => exact restoreNext_wf h die
  | gangRetire gang => exact execGangRetire_wf h gang
  | launchComplete launch => exact execLaunchComplete_wf h launch
  | heldSuccessorEntersQueue queue => exact sameMem_wf h (heldEnters_mem ..)
  | lqRecordEntersQueue hid => exact execLqRecordEntersQueue_wf h hid
  | barrierPhaseComplete gang barrier => exact settleBarrier_wf h gang barrier
  | pigeonholeValueArrives hid => exact onRunning_wf h hid fun t ht => retryHead_wf ht _
  | waitMemReread hid => exact onRunning_wf h hid fun t ht => retryHead_wf ht _
  | waitTimeDeadline hid => exact onRunning_wf h hid fun t ht => retryHead_wf ht _
  | lqctlWrite queue value => exact sameMem_wf h (writeLqctl_mem ..)
  | lqDoorbell door record => exact execLqDoorbell_wf h door record
  | launchFrameReceive frame => exact sameMem_wf h (receiveFrame_mem ..)
  | pcieInboundRequest req => exact ite_wf h (request_wf h ..)
  | shofinRemoteRequest device realm req => exact ite_wf h (ite_wf h (request_wf h ..))
  | routeDownTimeout device => exact sameMem_wf h (routeTimeout_mem ..)
  | timestampExchange correction => exact ite_wf h h
  | timebaseTick => exact sameMem_wf h (tick_mem s)
  | stringWindow string plans => exact sameMem_wf h (runWindow_mem ..)
  | stringStepUp string => exact execStringStepUp_wf h string
  | powerManagerPeriod reading => exact sameMem_wf h (powerPeriod_mem ..)
  | lanePowerGate core lane => exact sameMem_wf h (setGate_mem ..)
  | laneWake core lane => exact sameMem_wf h (setGate_mem ..)
  | uncorrectableError source addr => exact sameMem_wf h (uncorrectable_mem ..)
  | correctableError stack layer => exact nextWf_ite h h
  | l1dParityError addr dirty => exact ite_wf (sameMem_wf h (uncorrectable_mem ..)) h
  | layerMapOut region stack layer => exact sameMem_wf h (beginMapOut_mem ..)
  | mapOutVacated region => exact sameMem_wf h (vacated_mem ..)
  | mapOutLineMove region => exact moveLine_wf h region
  | coldReset boot => exact coldState_wf boot s
  | warmReset => exact warmState_wf h
  | memready => exact execMemready_wf h
  | attestationRequest realm nonce => exact nextWf_ite h h
  | reportCardWrite => exact ite_wf (sameMem_wf h (writeCard_mem s)) h
  | fatalDump reason => exact execFatalDump_wf h reason
  | shofinRouteLost device => exact sameMem_wf h (State.mapRoute_mem ..)
  | shofinRouteRetrained device port => exact sameMem_wf h (retrained_mem ..)
  | phyTrainingComplete d2d die => exact ite_wf h h
  | systemCoreMemoryAccess core req => exact systemAccess_wf h core req
  | _ => cases hi

theorem exec_wf {s : State} (h : memWf s.mem = true) (i : Instr) : NextWf (exec i s) := by
  cases hr : instrRun i with
  | none => exact exec_wf_of_noRun h hr
  | some x =>
    rw [exec_run i s x hr]
    cases x with
    | row r => exact VRow.dispatch_wf h (row_keeps hr)
    | vret => exact execVret_wf h
    | aret => exact execAret_wf h

/-! A turn of a hart. -/

theorem drainSlq_wf {s t : State} (h : memWf s.mem = true) (ht : drainSlq s = .ok t) : memWf t.mem = true := by
  unfold drainSlq at ht
  split at ht
  · cases ht
  · cases ht
    refine foldl_wf (fun _ l h => State.performLoad_wf h l) ?_ _
    exact h

theorem withLoads_wf {s t : State} (h : memWf s.mem = true) {w : InstrWord} (ht : withLoads s w = .ok t) : memWf t.mem = true := by
  unfold withLoads at ht
  split at ht
  · cases ht
    exact h
  · exact drainSlq_wf h ht

theorem fetch_wf {s t : State} (h : memWf s.mem = true) {w : InstrWord} (ht : fetch s = .ok (w, t)) : memWf t.mem = true := by
  unfold fetch at ht
  split at ht
  · cases ht
  · cases ht
    exact markScalar_wf h ..

theorem runWord_wf {s : State} (h : memWf s.mem = true) (w : InstrWord) : NextWf (runWord w s) := by
  unfold runWord
  split
  · exact exec_wf h _
  · exact sameMem_wf h (State.raiseIllegal_mem ..)

theorem runFetched_wf {s : State} (h : memWf s.mem = true) (w : InstrWord) : NextWf (runFetched w s) := by
  unfold runFetched
  split
  · exact h
  next ht => exact runWord_wf (sameMem_wf (withLoads_wf h ht) (State.noteTaint_mem ..)) w

theorem runScalar_wf {s : State} (h : memWf s.mem = true) : NextWf (runScalar s) := by
  unfold runScalar
  split
  · exact sameMem_wf h (State.raise_mem ..)
  · exact h
  next ht => exact runFetched_wf (fetch_wf h ht) _

theorem makeMove_wf {s : State} (h : memWf s.mem = true) (m : HartMove) : NextWf (makeMove m s) := by
  cases m with
  | interrupt => exact takeInterrupt_wf h
  | head => exact headMove_wf h
  | scalar => exact runScalar_wf h

theorem step_wf {s : State} (h : memWf s.mem = true) : NextWf (step s) := by
  unfold step
  split
  next i rest _ => exact exec_wf (s := { s with agenda := rest }) h i
  next hid rest _ => exact sameMem_wf h (State.switchTo_mem ..)
  next a rest _ => exact (nextWf_next _).mpr (firmwareAct_wf (s := { s with agenda := rest }) h a)
  next hid rest _ =>
    exact State.withHart_wf (s := { s with agenda := rest }) h hid fun _ ht => (nextWf_next _).mpr (performScalar_wf ht)
  next hid rest _ =>
    exact State.withHart_wf (s := { s with agenda := rest }) h hid fun _ ht => (nextWf_next _).mpr (performFirst_wf ht)
  next hid key rest _ =>
    exact State.withHart_wf (s := { s with agenda := rest }) h hid fun t ht =>
      (nextWf_next (t.onHart (Hart.forgetByte key))).mpr ht
  next ap key shown rest _ => exact h
  next =>
    refine nextWf_ite ?_ (sameMem_wf h (deviceTurn_mem s))
    split
    · exact makeMove_wf (s := { s with turn := s.turn + 1 }) h _
    · exact sameMem_wf h (deviceTurn_mem s)

/-- Settles O59: every state that a step, an instruction or an event gives has a canonical memory (`step_wf`, `exec_wf`). -/
theorem memoryCanonical : Obligations.MemoryCanonical := by
  unfold Obligations.MemoryCanonical
  refine ⟨fun s t h ht => ?_, fun i s t h ht => ?_⟩
  · have hn := step_wf h
    rw [ht] at hn
    exact hn
  · have hn := exec_wf h i
    rw [ht] at hn
    exact hn

end Sys2Proof.Machine
end

section
/-! O40. The checks a vector instruction meets before its effect: the profile of its launch, `vtype` and groups, and the poison a
comparison finds (R10, R123 to R125, R205). -/

namespace Sys2Proof.Machine

/-! The rows of the instructions named. -/

/-- An instruction that every mode may execute in a launch of a profile bit (R10, R123). -/
def OfProfile (i : Instr) (p : Nat) : Prop :=
  ∃ (w : InstrWord) (ops : State → Captured) (eff : VEntry → State → VRes),
    instrRun i = some (.row ⟨w, p, .any, ops, eff⟩) ∧ encode i = some w

/-- An integer lane instruction whose destination is the group of `d`, of the width of its sources (R208, R210). -/
def IntegerLane (i : Instr) (d : BitVec 5) : Prop :=
  ∃ (w : InstrWord) (ops : State → Captured) (op : IntElem) (shape : Option ShapeOp) (useD : Bool) (m : MaskNo) (a : AOp) (b : BitVec 5),
    instrRun i = some (.row ⟨w, 0, .any, ops, intOp op shape false useD m a b d⟩) ∧ encode i = some w

/-- An integer comparison; where its operand a is a scalar register or names one, the register captured is `a` (R201, R209). -/
def IntegerCompare (i : Instr) (o : AOp) (m : MaskNo) (b a : BitVec 5) : Prop :=
  ∃ (w : InstrWord) (ops : State → Captured) (holds : Nat → Nat → Nat → Bool) (md : MaskNo),
    instrRun i = some (.row ⟨w, 0, .any, ops, cmpOp holds m o b md⟩) ∧ encode i = some w ∧
    ∀ s : State, s.operandOk o ((ops s).op0.getD 0#64) = s.operandOk o (s.hart.getX a) ∧
      s.operand o ((ops s).op0.getD 0#64) = s.operand o (s.hart.getX a)

theorem IntegerLane.profile {i : Instr} {d : BitVec 5} (h : IntegerLane i d) : OfProfile i 0 := by
  obtain ⟨w, ops, op, shape, useD, m, a, b, hi, he⟩ := h
  exact ⟨w, ops, _, hi, he⟩

theorem IntegerLane.of_row {i : Instr} {w : InstrWord} {ops : State → Captured} {op : IntElem} {shape : Option ShapeOp} {useD : Bool}
    {m : MaskNo} {a : AOp} {b d : BitVec 5} (hi : instrRun i = some (.row ⟨w, 0, .any, ops, intOp op shape false useD m a b d⟩))
    (he : encode i = some w) : IntegerLane i d :=
  ⟨w, ops, op, shape, useD, m, a, b, hi, he⟩

/-- What holds of each of its five forms holds of a row's instructions. -/
theorem forall_fiveForms {P : Instr → Prop} {vv vx vi vn : MaskNo → BitVec 5 → BitVec 5 → BitVec 5 → Instr}
    {vq : MaskNo → BitVec 5 → QueueNo → BitVec 5 → Instr} {m : MaskNo} {b a d : BitVec 5} {q : QueueNo} {old : Bool} {fn : ElemFn}
    (hvv : P (vv m b a d)) (hvx : P (vx m b a d)) (hvi : P (vi m b a d)) (hvq : P (vq m b q d)) (hvn : P (vn m b a d)) :
    ∀ r ∈ fiveForms vv vx vi vq vn m b a d q old fn, P r.instr := by
  simp only [fiveForms, List.forall_mem_cons]
  exact ⟨hvv, hvx, hvi, hvq, hvn, by simp⟩

/-- What holds of each of its two forms holds of a row's instructions. -/
theorem forall_twoForms {P : Instr → Prop} {xv xx : MaskNo → BitVec 5 → BitVec 5 → BitVec 5 → Instr} {m : MaskNo} {b a d : BitVec 5}
    {fn : ElemFn} (hxv : P (xv m b a d)) (hxx : P (xx m b a d)) : ∀ r ∈ twoForms xv xx m b a d fn, P r.instr := by
  simp only [twoForms, List.forall_mem_cons]
  exact ⟨hxv, hxx, by simp⟩

theorem integerRows_lane (m : MaskNo) (b a d : BitVec 5) (q : QueueNo) : ∀ r ∈ integerRows m b a d q, IntegerLane r.instr d := by
  unfold integerRows
  simp only [List.forall_mem_append]
  and_intros
  iterate 14
    exact forall_fiveForms (P := (IntegerLane · d)) (.of_row rfl rfl) (.of_row rfl rfl) (.of_row rfl rfl) (.of_row rfl rfl)
      (.of_row rfl rfl)
  all_goals exact forall_twoForms (P := (IntegerLane · d)) (.of_row rfl rfl) (.of_row rfl rfl)

theorem compareRows_compare (m : MaskNo) (b a : BitVec 5) (q : QueueNo) (md : MaskNo) (cc : Cond) :
    ∀ r ∈ compareRows m b a q md cc, IntegerCompare r.1 r.2.1 m b a := by
  simp only [compareRows, List.forall_mem_cons, List.not_mem_nil, false_implies, implies_true, and_true]
  and_intros
  all_goals exact ⟨_, _, _, _, rfl, rfl, fun _ => ⟨rfl, rfl⟩⟩

theorem anchorRows_profile (s : State) (b a d : BitVec 5) (code : AnchorFloat) (mode : BitVec 2) :
    ∀ r ∈ s.anchorRows b a d code mode, OfProfile r.instr 2 := by
  simp only [State.anchorRows, List.forall_mem_cons, List.not_mem_nil, false_implies, implies_true, and_true]
  and_intros
  all_goals exact ⟨_, _, _, rfl, rfl⟩

theorem outerRows_profile (b a : BitVec 5) (t : TileNo) : ∀ r ∈ outerRows b a t, OfProfile r.1 r.2.1 := by
  simp only [outerRows, List.forall_mem_cons, List.not_mem_nil, false_implies, implies_true, and_true]
  and_intros
  all_goals exact ⟨_, _, _, rfl, rfl⟩

/-- The matrix instructions that are no outer product, the anchored accesses, and `nm`. -/
theorem matrixRows_profile (b a d : BitVec 5) (n : TileNo) :
    ∀ r ∈ [(Instr.mzero n, 1), (.mscale b a, 1), (.mcvt n a d, 1), (.mmvTv b a n, 1), (.mmvVt b a n, 1), (.mld b a n, 1),
      (.mst b a n, 1), (.ald b a d, 2), (.aldC b a d, 2), (.ast b a d, 2), (.nm b a d, 3)], OfProfile r.1 r.2 := by
  simp only [List.forall_mem_cons, List.not_mem_nil, false_implies, implies_true, and_true]
  and_intros
  all_goals exact ⟨_, _, _, rfl, rfl⟩

/-! Dispatch of an instruction that traps at once. -/

/-- On a hart with no vector work an illegal instruction is taken at once (R123). -/
theorem State.raiseIllegal_idle {s : State} (h : s.hart.hasVectorWork = false) (w : InstrWord) :
    s.raiseIllegal w = s.takeTrap 2 false s.hart.pc (wordVal w) := by
  unfold State.raiseIllegal State.raise
  rw [h]
  rfl

/-- A launch without the profile of an instruction (R10, R123). -/
theorem issue_outside {p : Nat} {w : InstrWord} {o : Captured} {eff : VEntry → State → VRes} {s : State} (hr : s.atRest = true)
    (hp : (s.profiles s.hart).testBit p = false) : issue p w o eff s = .next (s.takeTrap 2 false s.hart.pc (wordVal w)) := by
  obtain ⟨hs, -⟩ := (State.atRest_iff s).mp hr
  unfold issue
  rw [hp, State.raiseIllegal_idle (State.still_idle hs)]
  rfl

/-- An instruction outside the profiles of its launch. -/
theorem exec_outside {i : Instr} {p : Nat} {s : State} (hi : OfProfile i p) (hr : s.atRest = true)
    (hp : (s.profiles s.hart).testBit p = false) :
    ∃ w, encode i = some w ∧ exec i s = .next (s.takeTrap 2 false s.hart.pc (wordVal w)) := by
  obtain ⟨w, ops, eff, hi, he⟩ := hi
  refine ⟨w, he, ?_⟩
  rw [exec_run i s _ hi]
  exact issue_outside hr hp

/-- A hart with nothing in its vector stream runs an instruction in the state it starts in. -/
theorem State.start_headState {s : State} (h : s.still = true) : s.start.headState = s.start := by
  obtain ⟨hv, -, -, -, -, -, -, hp, -⟩ := (State.still_iff s).mp h
  have hpins : s.start.pinsSome s.start.hart.hid = false := by
    show s.pinsSome s.hart.hid = false
    simpa [State.pinsSome] using hp
  unfold State.headState
  rw [if_neg (by rw [hpins]; simp)]
  simp only [State.alone, State.onHart, State.start, State.clearUses, State.setCore, State.setPc]
  rw [← hv]

/-- A hart with no window has no copy to the scratchpad under way (R298). -/
theorem endArrival_noWindow {h : Hart} (hw : h.window = none) (s : State) : endArrival h s = s := by
  unfold endArrival
  rw [hw]
  rfl

/-- A trap of cause 1, 2 or 9 goes to no user handler (R249, R250). -/
theorem userHandles_other (h : Hart) {cause : Nat} (hc : cause ∈ [1, 2, 9]) : userHandles h cause = false := by
  simp only [List.mem_cons, List.not_mem_nil, or_false] at hc
  rcases hc with rfl | rfl | rfl <;> rfl

/-- Whether a delivery that no user handler takes must wait does not depend on the PC. -/
theorem deliveryWait_setPc {s : State} (hw : s.hart.window = none) (pc : Word) (e : VEntry) {cause : Nat} (hc : cause ∈ [1, 2, 9]) :
    deliveryWait (s.setPc pc).dropWork e cause .plain [] = deliveryWait s.dropWork e cause .plain [] := by
  have hpc : (s.setPc pc).hart.window = none := hw
  unfold State.dropWork
  rw [endArrival_noWindow hw, endArrival_noWindow hpc]
  unfold deliveryWait
  simp only [userHandles_other _ hc, Bool.false_eq_true, ↓reduceIte]
  rfl

/-- The state in which a hart at rest enters the handler of a vector trap of the instruction at its PC. -/
def State.delivered (s : State) (e : VEntry) (cause : Nat) : State :=
  deliver (s.setPc (s.hart.pc + 4#64)) e cause (wordVal e.word) .plain []

/-- An instruction dispatched by a hart at rest whose effect traps. Of the causes 1, 2 and 9 the last is found after admission. -/
theorem issue_trap {p cause : Nat} {w : InstrWord} {o : Captured} {eff : VEntry → State → VRes} {s : State} (hr : s.atRest = true)
    (hp : (s.profiles s.hart).testBit p = true) (hc : cause ∈ [1, 2, 9])
    (hw : deliveryWait s.dropWork (s.entryFor w o) cause .plain [] = none)
    (heff : eff (s.entryFor w o) s.start = .error (trapWord cause (s.entryFor w o))) :
    issue p w o eff s = .next (if cause = 9 then (s.delivered (s.entryFor w o) cause).setAdmitted (s.hart.hid / 8) s.hart.hid
      else s.delivered (s.entryFor w o) cause) := by
  obtain ⟨hs, ha⟩ := (State.atRest_iff s).mp hr
  obtain ⟨-, hwin, -, -, haged, -, hhold, -, -⟩ := (State.still_iff s).mp hs
  have htrap : trapEntry (s.setPc (s.hart.pc + 4#64)) (s.entryFor w o) cause (wordVal w) .plain [] =
      .ok (s.delivered (s.entryFor w o) cause) := by
    unfold trapEntry
    rw [deliveryWait_setPc hwin _ _ hc, hw]
    rfl
  have hadm (t : State) : t.admitted (s.setPc (s.hart.pc + 4#64)).hart (s.entryFor w o).mode =
      t.setAdmitted (s.hart.hid / 8) s.hart.hid := by
    unfold State.admitted
    rw [show (s.setPc (s.hart.pc + 4#64)).hart.headAged = none from haged]
    rfl
  have hrun : runEntry eff (s.entryFor w o) [] (s.setPc (s.hart.pc + 4#64)) =
      if countsAdmitted cause .plain then (s.delivered (s.entryFor w o) cause).setAdmitted (s.hart.hid / 8) s.hart.hid
      else s.delivered (s.entryFor w o) cause := by
    unfold runEntry
    rw [show (s.setPc (s.hart.pc + 4#64)).clearUses = s.start from rfl, State.start_headState hs, heff]
    show (match trapEntry _ (s.entryFor w o) cause (wordVal w) .plain [] with | .ok t => _ | .error r => _) = _
    rw [htrap]
    dsimp only
    rw [hadm]
  have hcount : countsAdmitted cause .plain = decide (cause = 9) := by
    simp only [List.mem_cons, List.not_mem_nil, or_false] at hc
    rcases hc with rfl | rfl | rfl <;> rfl
  unfold issue
  rw [hp]
  simp only [Bool.not_true, Bool.false_eq_true, ↓reduceIte, State.still_idle hs, hhold, ha, and_self]
  rw [show (⟨s.hart.pc, w, o.op0, o.op1, o.op2, s.hart.mode⟩ : VEntry) = s.entryFor w o from rfl, hrun, hcount]
  simp only [decide_eq_true_eq]

/-- An instruction traps: its entry of the VIQ is delivered, with its word as trap value; a trap of cause 9 is one of an admitted
instruction (O40). -/
def State.Traps (s : State) (i : Instr) (cause : Nat) : Prop :=
  ∃ e : VEntry, e.pc = s.hart.pc ∧ e.mode = s.hart.mode ∧ encode i = some e.word ∧
    exec i s = .next (if cause = 9 then (s.delivered e cause).setAdmitted (s.hart.hid / 8) s.hart.hid else s.delivered e cause)

/-- A row whose effect traps. -/
theorem traps_of_row {i : Instr} {w : InstrWord} {p cause : Nat} {ops : State → Captured} {eff : VEntry → State → VRes} {s : State}
    (hi : instrRun i = some (.row ⟨w, p, .any, ops, eff⟩)) (he : encode i = some w) (hr : s.atRest = true)
    (hp : (s.profiles s.hart).testBit p = true) (hc : cause ∈ [1, 2, 9])
    (hw : ∀ e, ∀ c ∈ [1, 2, 9], deliveryWait s.dropWork e c .plain [] = none)
    (heff : eff (s.entryFor w (ops s)) s.start = .error (trapWord cause (s.entryFor w (ops s)))) : s.Traps i cause := by
  refine ⟨s.entryFor w (ops s), rfl, rfl, he, ?_⟩
  rw [exec_run i s _ hi]
  exact issue_trap hr hp hc (hw _ _ hc) heff

/-! The checks of the integer lane instructions. -/

/-- `vill` set (R124). -/
theorem intOp_vill {op : IntElem} {shape : Option ShapeOp} {wide useD : Bool} {m : MaskNo} {a : AOp} {b d : BitVec 5} {s : State}
    (e : VEntry) (hv : s.cfg.vill = true) : intOp op shape wide useD m a b d e s = .error (trapWord 2 e) := by
  unfold intOp
  dsimp only
  unfold needVtype need
  rw [hv]
  rfl

/-- A destination group that is not aligned (R125). -/
theorem intOp_misaligned {op : IntElem} {shape : Option ShapeOp} {useD : Bool} {m : MaskNo} {a : AOp} {b d : BitVec 5} {s : State}
    (e : VEntry) (hv : s.cfg.vill = false) (hd : groupOk d.toNat s.cfg.g = false) :
    intOp op shape false useD m a b d e s = .error (trapWord 1 e) := by
  unfold intOp
  dsimp only
  unfold needVtype need
  rw [hv]
  simp only [Bool.false_eq_true, ↓reduceIte, hd, Bool.and_false, Bool.false_and]
  rfl

/-- A comparison that finds poison in an active element (R205). -/
theorem maskLanes_poisoned {e : VEntry} {s : State} {reads : List GroupRead} {m md : MaskNo} {f : State → Nat → Bool × Nat × Bool}
    {i : Nat} (ht : s.hart.tidy = true) (hroom : s.room = true)
    (hn : (risingOf (reads.flatMap (GroupRead.expands s.hart))).length ≤ 40) (hi : i ∈ s.actives m)
    (hbad : ∀ s1, Admitted s s1 → (f s1 i).2.2 = true) : maskLanes e s reads m md f = .error (trapWord 9 e) := by
  obtain ⟨s1, h1, had⟩ := admission_ok e s reads [] (microOpsOf ((reads.map (fun r => r.used - r.lo)).foldl (· + ·) 0)) ht hroom
    (by simpa using hn)
  have hact : s1.actives m = s.actives m := by
    unfold State.actives
    rw [had.frame]
    rfl
  have hany : ((s1.actives m).map (fun i => (i, f s1 i))).any (fun o => o.2.2.2) = true :=
    List.any_eq_true.mpr ⟨(i, f s1 i), List.mem_map.mpr ⟨i, hact ▸ hi, rfl⟩, hbad s1 had⟩
  unfold maskLanes
  dsimp only
  rw [h1]
  dsimp only [bind, Except.bind]
  unfold need
  rw [hany]
  rfl

/-- An integer comparison of a poisoned active element. -/
theorem cmpOp_poisoned {holds : Nat → Nat → Nat → Bool} {m md : MaskNo} {a : AOp} {b : BitVec 5} {e : VEntry} {s : State} {i : Nat}
    (hv : s.cfg.vill = false) (hw6 : s.cfg.w ≠ 6) (hb : groupOk b.toNat s.cfg.g = true)
    (ha : s.operandOk a (e.op0.getD 0#64) = true) (ht : s.hart.tidy = true) (hroom : s.room = true) (hi : i ∈ s.actives m)
    (hbad : (s.operand a (e.op0.getD 0#64) i).2 = true ∨ (groupSrc s b.toNat s.cfg.g s.cfg.sew i).2 = true) :
    cmpOp holds m a b md e s = .error (trapWord 9 e) := by
  obtain ⟨-, hg, -, -⟩ := (groupOk_iff _ _).mp hb
  have hok : (s.cfg.w != 6 && groupOk b.toNat s.cfg.g && a.ok e s s.cfg.g) = true := by
    rw [hb, AOp.ok_eq, ha]
    simp [hw6]
  obtain ⟨hused, hlen⟩ := operandReads a e s.cfg b.toNat 0 s.cfg.g s.cfg.sew false (Nat.le_refl _) s.cfg.g (Nat.le_refl _)
  simp only [Bool.false_eq_true, ↓reduceIte, List.append_nil] at hused hlen
  unfold cmpOp
  dsimp only
  unfold needVtype need
  rw [hv, hok]
  simp only [Bool.not_false, ↓reduceIte, bind, Except.bind]
  rw [maskLanes_poisoned ht hroom (reads_room (dg := 0) hused hlen (by omega)) hi]
  intro s1 had
  dsimp only
  rw [a.src_eq had, had.src, Bool.or_eq_true]
  exact hbad

/-- Settles O40: a missing profile is refused before dispatch (`exec_outside`); otherwise the first check that fails gives the trap
(`intOp_vill`, `intOp_misaligned`, `cmpOp_poisoned`), which a hart at rest takes at once (`issue_trap`). -/
theorem vectorChecks : Obligations.VectorChecks := by
  unfold Obligations.VectorChecks
  intro m md b a d q cc n code mode s hr
  refine ⟨fun r hmem hp => exec_outside (p := r.2) ?_ hr hp, fun hp hw => ⟨?_, ?_⟩⟩
  · simp only [List.mem_append, List.mem_map] at hmem
    obtain ((⟨r, hmem, rfl⟩ | ⟨r, hmem, rfl⟩) | ⟨r, hmem, rfl⟩) | hmem := hmem
    · exact (integerRows_lane m b a d q r hmem).profile
    · exact anchorRows_profile s b a d code mode r hmem
    · exact outerRows_profile b a n r hmem
    · exact matrixRows_profile b a d n r hmem
  · intro r hmem
    obtain ⟨w, ops, op, shape, useD, m', a', b', hi, he⟩ := integerRows_lane m b a d q r hmem
    exact ⟨fun hv => traps_of_row hi he hr hp (by simp) hw (intOp_vill _ hv),
      fun hv hd => traps_of_row hi he hr hp (by simp) hw (intOp_misaligned _ hv hd)⟩
  · intro hready h6 hb r hmem hok ⟨i, hi, hbad⟩
    obtain ⟨-, -, hv, ht, hroom⟩ := (s.ready_iff 0).mp hready
    obtain ⟨w, ops, holds, md', hrun, he, hops⟩ := compareRows_compare m b a q md cc r hmem
    obtain ⟨hopOk, hop⟩ := hops s
    refine traps_of_row hrun he hr hp (by simp) hw ?_
    refine cmpOp_poisoned (s := s.start) (i := i) hv h6 hb (hopOk.trans hok) ht (by rw [State.start_room]; exact hroom) hi ?_
    exact hbad.imp (fun h => (congrArg (fun f => (f i).2) hop).trans h) id

end Sys2Proof.Machine
end

section
/-! O56. Words written out decode to their instructions, or to none (R118-R123). -/

namespace Sys2Proof.Machine

/-- A word of zeros, a word of ones, and a word of a queue's form with bits of its reserved field set are no instruction. -/
theorem refused_words :
    ∀ w ∈ [0#32, 0xFFFFFFFF#32, 0b0000_000_00010_00100_011_00001_0001011#32], ∃ e, decodeWord w = .error e := by
  intro w hw
  simp only [List.mem_cons, List.not_mem_nil, or_false] at hw
  rcases hw with rfl | rfl | rfl
  · exact ⟨_, rfl⟩
  · exact ⟨_, rfl⟩
  · exact ⟨_, rfl⟩

/-- Settles O56: each listed word is decoded by computation, and a refused word answers an error. -/
theorem decodeWords : Obligations.DecodeWords := by
  unfold Obligations.DecodeWords
  refine ⟨rfl, rfl, rfl, rfl, rfl, rfl, rfl, rfl, rfl, rfl, rfl, rfl, rfl, rfl, rfl, rfl, rfl, ?_⟩
  intro w hw i hi
  obtain ⟨e, he⟩ := refused_words w hw
  rw [he] at hi
  cases hi

end Sys2Proof.Machine
end

section
/-! O51. The string arbiter: what the remedies of R437 leave of a window's spread, step by step and core by core (R16, R435 to R439). -/

namespace Sys2Proof.Machine

/-! The largest and the smallest of some plans. -/

theorem leastOf_eq_min? (l : List Nat) : leastOf l = l.min? := by
  induction l with
  | nil => rfl
  | cons x xs ih =>
    rw [leastOf, ih, List.min?_cons]
    cases xs.min? <;> rfl

theorem maxOf_eq_max? (l : List Nat) : maxOf l = l.max?.getD 0 := by
  rw [maxOf, List.foldl_max, Nat.zero_max]

/-- The largest number is one of them, and none is above it. -/
theorem maxOf_spec {l : List Nat} (h : l ≠ []) : maxOf l ∈ l ∧ ∀ p ∈ l, p ≤ maxOf l := by
  obtain ⟨a, ha⟩ := Option.ne_none_iff_exists'.mp (mt List.max?_eq_none_iff.mp h)
  rw [maxOf_eq_max?, ha]
  exact List.max?_eq_some_iff.mp ha

/-- The smallest number is one of them, and none is below it. -/
theorem minOf_spec {l : List Nat} (h : l ≠ []) : minOf l ∈ l ∧ ∀ p ∈ l, minOf l ≤ p := by
  obtain ⟨a, ha⟩ := Option.ne_none_iff_exists'.mp (mt List.min?_eq_none_iff.mp h)
  rw [minOf, leastOf_eq_min?, ha]
  exact List.min?_eq_some_iff.mp ha

/-- Plans fit when no two of them are further apart than 60 units (R436). -/
theorem spreadFits_iff {l : List Nat} (h : l ≠ []) : spreadFits l = true ↔ ∀ p ∈ l, ∀ q ∈ l, q ≤ p + spreadLimit := by
  obtain ⟨hmax, hle⟩ := maxOf_spec h
  obtain ⟨hmin, hge⟩ := minOf_spec h
  rw [spreadFits, decide_eq_true_iff]
  exact ⟨fun hs p hp q hq => Nat.le_trans (hle q hq) (Nat.le_trans hs (Nat.add_le_add_right (hge p hp) _)), fun hs => hs _ hmin _ hmax⟩

/-! A core's plan and its busywork (R438, R439). -/

/-- More busywork never lowers a plan. -/
theorem planAt_le_planAt {m n : Nat} (h : m ≤ n) (k : Nat) (c : CorePlan) : planAt k m c ≤ planAt k n c := by
  unfold planAt
  exact Nat.add_le_add_left (Nat.mul_le_mul_right _ (Nat.add_le_add_left (Nat.mul_le_mul_left 320 h) _)) _

/-- One more busywork cycle adds at most 10 units (R435). -/
theorem planAt_succ_le (k m : Nat) (c : CorePlan) : planAt k (m + 1) c ≤ planAt k m c + 5120 := by
  unfold planAt
  rw [Nat.mul_succ, ← Nat.add_assoc, Nat.add_mul _ 320]
  omega

/-- The busywork cycles of a core are idle ones; no fewer reach the target, and they reach it where all idle cycles would (R439). -/
theorem busyCycles_spec (k target : Nat) (c : CorePlan) :
    busyCycles k target c ≤ c.idleMatrix ∧ (∀ m, m < busyCycles k target c → planAt k m c < target) ∧
      (target ≤ planAt k c.idleMatrix c → target ≤ planAt k (busyCycles k target c) c) := by
  unfold busyCycles
  rcases hf : (List.range (c.idleMatrix + 1)).find? (fun n => decide (target ≤ planAt k n c)) with _ | n
  · simp only [List.find?_range_eq_none, Bool.not_eq_true', decide_eq_false_iff_not, Nat.not_le] at hf
    exact ⟨Nat.le_refl _, fun m hm => hf m (Nat.lt_succ_of_lt hm), id⟩
  · simp only [List.find?_range_eq_some, List.mem_range, Bool.not_eq_true', decide_eq_false_iff_not, Nat.not_le,
      decide_eq_true_eq] at hf
    obtain ⟨hn, hlt, hfirst⟩ := hf
    exact ⟨Nat.lt_succ_iff.mp hlt, hfirst, fun _ => hn⟩

/-- The busywork of one core of a string whose largest plan is `top` (R437, R439). -/
def liftWork (k top : Nat) (c : CorePlan) : Nat :=
  if top ≤ planAt k 0 c + spreadLimit then 0 else busyCycles k (top - spreadLimit) c

theorem liftWork_le_idle (k top : Nat) (c : CorePlan) : liftWork k top c ≤ c.idleMatrix := by
  unfold liftWork
  split
  · exact Nat.zero_le _
  · exact (busyCycles_spec k _ c).1

/-- Fewer busywork cycles leave the core below the band (R439). -/
theorem lt_of_lt_liftWork {k top m : Nat} {c : CorePlan} (h : m < liftWork k top c) : planAt k m c + spreadLimit < top := by
  unfold liftWork at h
  split at h
  · exact absurd h (Nat.not_lt_zero m)
  · obtain ⟨-, hfewer, -⟩ := busyCycles_spec k (top - spreadLimit) c
    exact Nat.add_lt_of_lt_sub (hfewer m h)

/-- The busywork lifts a core into the band where every idle cycle would (R439). -/
theorem liftWork_reaches {k top : Nat} {c : CorePlan} (h : top ≤ planAt k c.idleMatrix c + spreadLimit) :
    top ≤ planAt k (liftWork k top c) c + spreadLimit := by
  unfold liftWork
  split
  · assumption
  · obtain ⟨-, -, hreach⟩ := busyCycles_spec k (top - spreadLimit) c
    exact Nat.le_add_of_sub_le (hreach (Nat.sub_le_of_le_add h))

/-- Busywork lifts no core above the largest plan: its last cycle starts more than 60 units below and adds at most 10. -/
theorem planAt_liftWork_le {k top : Nat} {c : CorePlan} (h : planAt k 0 c ≤ top) : planAt k (liftWork k top c) c ≤ top := by
  rcases hw : liftWork k top c with _ | m
  · exact h
  · have hlow : planAt k m c + spreadLimit < top := lt_of_lt_liftWork (hw ▸ Nat.lt_succ_self m)
    have hstep := planAt_succ_le k m c
    unfold spreadLimit at hlow
    omega

/-! The remedy of a string (R437). -/

/-- The busywork a remedy uses on one core of a string. -/
def remedyOf (throttle : Bool) (k : Nat) (cs : List CorePlan) (c : CorePlan) : Nat :=
  if throttle then 0 else liftWork k (maxOf (cs.map (planAt k 0))) c

/-- The model's busywork is that of each core; where the plans fit already, no core is below the band. -/
theorem remedyWork_eq (throttle : Bool) (k : Nat) (cs : List CorePlan) : remedyWork throttle k cs = cs.map (remedyOf throttle k cs) := by
  cases throttle
  case true => rfl
  case false =>
    unfold remedyWork busyworkAt
    rw [if_neg Bool.false_ne_true]
    by_cases hf : spreadFits (cs.map (planAt k 0)) = true
    · rw [if_pos hf]
      refine List.map_congr_left fun c hc => ?_
      have hmem := List.mem_map_of_mem (f := planAt k 0) hc
      have hne := List.ne_nil_of_mem hmem
      exact (if_pos ((spreadFits_iff hne).mp hf _ hmem _ (maxOf_spec hne).1)).symm
    · rw [if_neg hf]
      rfl

/-- The plans of a string under its remedy. -/
def remediedPlans (throttle : Bool) (k : Nat) (cs : List CorePlan) : List Nat :=
  cs.map (fun c => planAt k (remedyOf throttle k cs c) c)

theorem plansWith_remedyWork (throttle : Bool) (k : Nat) (cs : List CorePlan) :
    plansWith k cs (remedyWork throttle k cs) = remediedPlans throttle k cs := by
  rw [remedyWork_eq, plansWith, List.map_zip_eq_zipWith, List.zipWith_map_right, List.zipWith_self]
  rfl

/-- The busywork that a remedy may use on a core: none under throttling, every idle cycle otherwise. -/
def allowance (throttle : Bool) (c : CorePlan) : Nat := if throttle then 0 else c.idleMatrix

theorem remedyOf_le_allowance (throttle : Bool) (k : Nat) (cs : List CorePlan) (c : CorePlan) :
    remedyOf throttle k cs c ≤ allowance throttle c := by
  cases throttle
  case true => exact Nat.le_refl _
  case false => exact liftWork_le_idle k _ c

/-- Under any remedy no plan is above the largest one without busywork. -/
theorem remedied_le_top {throttle : Bool} {k : Nat} {cs : List CorePlan} {c : CorePlan} (hc : c ∈ cs) :
    ∃ d ∈ cs, planAt k (remedyOf throttle k cs c) c ≤ planAt k 0 d := by
  cases throttle
  case true => exact ⟨c, hc, Nat.le_refl _⟩
  case false =>
    have hmem := List.mem_map_of_mem (f := planAt k 0) hc
    obtain ⟨htop, hle⟩ := maxOf_spec (List.ne_nil_of_mem hmem)
    obtain ⟨d, hd, htop⟩ := List.mem_map.mp htop
    exact ⟨d, hd, htop ▸ planAt_liftWork_le (hle _ hmem)⟩

/-- A core that its allowance brings within 60 units of every plan is brought there by its remedy. -/
theorem remedy_reaches {throttle : Bool} {k : Nat} {cs : List CorePlan} {c : CorePlan}
    (h : ∀ d ∈ cs, planAt k 0 d ≤ planAt k (allowance throttle c) c + spreadLimit) :
    ∀ d ∈ cs, planAt k 0 d ≤ planAt k (remedyOf throttle k cs c) c + spreadLimit := by
  cases throttle
  case true => exact h
  case false =>
    intro d hd
    have hmem := List.mem_map_of_mem (f := planAt k 0) hd
    obtain ⟨htop, hle⟩ := maxOf_spec (List.ne_nil_of_mem hmem)
    obtain ⟨e, he, htop⟩ := List.mem_map.mp htop
    exact Nat.le_trans (hle _ hmem) (liftWork_reaches (htop ▸ h e he))

/-- A window fits at a step when the allowance of each core brings it within 60 units of every plan without busywork (R437). -/
theorem fitsAt_iff {throttle : Bool} {k : Nat} {cs : List CorePlan} (hne : cs ≠ []) :
    fitsAt throttle k cs = true ↔ ∀ c ∈ cs, ∀ d ∈ cs, planAt k 0 d ≤ planAt k (allowance throttle c) c + spreadLimit := by
  rw [fitsAt, plansWith_remedyWork, remediedPlans, spreadFits_iff (mt List.map_eq_nil_iff.mp hne)]
  simp only [List.forall_mem_map]
  constructor
  · intro hs c hc d hd
    calc planAt k 0 d ≤ planAt k (remedyOf throttle k cs d) d := planAt_le_planAt (Nat.zero_le _) k d
      _ ≤ planAt k (remedyOf throttle k cs c) c + spreadLimit := hs c hc d hd
      _ ≤ planAt k (allowance throttle c) c + spreadLimit :=
        Nat.add_le_add_right (planAt_le_planAt (remedyOf_le_allowance throttle k cs c) k c) _
  · intro hs c hc d hd
    obtain ⟨e, he, hde⟩ := remedied_le_top (throttle := throttle) (k := k) hd
    exact Nat.le_trans hde (remedy_reaches (hs c hc) e he)

/-! Steps (R438). -/

/-- A spread that fits one factor fits every smaller one. -/
theorem mul_le_mul_add_of_le {a b r r' d : Nat} (hr : r' ≤ r) (h : a * r ≤ b * r + d) : a * r' ≤ b * r' + d := by
  rcases Nat.le_total a b with hab | hba
  · exact Nat.le_trans (Nat.mul_le_mul_right r' hab) (Nat.le_add_right _ _)
  · obtain ⟨e, rfl⟩ := Nat.exists_eq_add_of_le hba
    rw [Nat.add_mul] at h ⊢
    have := Nat.mul_le_mul_left e hr
    omega

/-- A window that fits at a step fits at every later one. -/
theorem fitsAt_mono {throttle : Bool} {k k' : Nat} {cs : List CorePlan} (hne : cs ≠ []) (hk : k ≤ k') (h : fitsAt throttle k cs = true) :
    fitsAt throttle k' cs = true := by
  rw [fitsAt_iff hne] at h ⊢
  intro c hc d hd
  have := h c hc d hd
  unfold planAt at this ⊢
  have := mul_le_mul_add_of_le (d := spreadLimit) (Nat.sub_le_sub_left hk 16) (by omega :
    (planWeight d + 320 * 0) * (16 - k) ≤ (planWeight c + 320 * allowance throttle c) * (16 - k) + spreadLimit)
  omega

/-- At step 12 every window of units that are busy at most all the time fits (R437). -/
theorem fitsAt_twelve {cs : List CorePlan} (throttle : Bool) (hne : cs ≠ []) (h : ∀ c ∈ cs, planWeight c ≤ 7680) :
    fitsAt throttle 12 cs = true := by
  rw [fitsAt_iff hne]
  intro c _ d hd
  have := h d hd
  unfold planAt spreadLimit
  omega

/-- The needed step is the first from the least one at which the window fits. -/
theorem neededStep_spec {throttle : Bool} {least : Nat} {cs : List CorePlan} (hl : least ≤ 12) (h : fitsAt throttle 12 cs = true) :
    fitsAt throttle (neededStep throttle least cs) cs = true ∧ least ≤ neededStep throttle least cs ∧ neededStep throttle least cs ≤ 12 ∧
      ∀ k, least ≤ k → k < neededStep throttle least cs → fitsAt throttle k cs = false := by
  have hdrop : (List.range 13).drop least = List.range' least (13 - least) := by
    rw [List.range_eq_range', List.drop_range', Nat.zero_add, Nat.mul_one]
  unfold neededStep
  rw [hdrop]
  rcases hf : (List.range' least (13 - least)).find? (fun k => fitsAt throttle k cs) with _ | n
  · exact absurd h (List.find?_eq_none.mp hf 12 (by simp only [List.mem_range'_1]; omega))
  · simp only [List.find?_range'_eq_some, List.mem_range'_1, Bool.not_eq_true'] at hf
    obtain ⟨hn, hrange, hfirst⟩ := hf
    exact ⟨hn, hrange.1, by simp only [Option.getD_some]; omega, hfirst⟩

/-! What a string shows and counts (R181, R437). -/

/-- Rounding leaves at most half a unit, and half a unit only beside an even number (R6). -/
theorem rneDiv_spec (n : Int) {d : Nat} (hd : 0 < d) :
    2 * (d * rneDiv n d - n).natAbs ≤ d ∧ (2 * (d * rneDiv n d - n).natAbs = d → rneDiv n d % 2 = 0) := by
  have hmod := Int.emod_add_mul_ediv n d
  have hnn := Int.emod_nonneg n (by omega : (d : Int) ≠ 0)
  have hlt := Int.emod_lt_of_pos n (by omega : (0 : Int) < d)
  have hsucc : (d : Int) * (n / d + 1) = d * (n / d) + d := by rw [Int.mul_add, Int.mul_one]
  unfold rneDiv
  dsimp only
  split
  · omega
  split
  · omega
  split <;> omega

/-- Among plans that fit, a deviation is at most 30 units either way (R436). -/
theorem deviation_bounds {l : List Nat} (hf : spreadFits l = true) {p : Nat} (hp : p ∈ l) : -30 ≤ deviation l p ∧ deviation l p ≤ 30 := by
  have hne := List.ne_nil_of_mem hp
  have hhi := (maxOf_spec hne).2 p hp
  have hlo := (minOf_spec hne).2 p hp
  rw [spreadFits, decide_eq_true_iff, spreadLimit] at hf
  have hr := (rneDiv_spec (2 * (p : Int) - ((maxOf l + minOf l : Nat) : Int)) (d := 1024) (by decide)).1
  unfold deviation
  omega

/-- A code among codes of 16 bits set side by side. -/
theorem fields16_getElem (f : Nat → Int) (l : List Nat) (i : Nat) (hi : i < l.length) :
    l.foldr (fun p acc => ofSigned 16 (f p) + 2 ^ 16 * acc) 0 / 2 ^ (16 * i) % 2 ^ 16 = ofSigned 16 (f l[i]) := by
  induction l generalizing i with
  | nil => exact absurd hi (Nat.not_lt_zero i)
  | cons p l ih =>
    have hb : ofSigned 16 (f p) < 2 ^ 16 := ofSigned_eq 16 (f p) ▸ BitVec.isLt _
    rw [List.foldr_cons]
    cases i with
    | zero => rw [Nat.mul_zero, Nat.pow_zero, Nat.div_one, Nat.add_mul_mod_self_left, Nat.mod_eq_of_lt hb]; rfl
    | succ i =>
      rw [Nat.mul_succ, Nat.add_comm (16 * i), Nat.pow_add, ← Nat.div_div_eq_div_mul, Nat.add_mul_div_left _ _ (by decide),
        Nat.div_eq_of_lt hb, Nat.zero_add]
      exact ih i (Nat.lt_of_succ_lt_succ hi)

/-- A field of `strbal` is the deviation of its core (R181). -/
theorem strbalOf_field {l : List Nat} (hf : spreadFits l = true) (hl : l.length = 4) (i : Fin 4) :
    ((strbalOf l).extractLsb' (16 * i.val) 16).toInt = deviation l (l[i.val]'(by omega)) := by
  have hi : i.val < l.length := by omega
  obtain ⟨hlo, hhi⟩ := deviation_bounds hf (List.getElem_mem hi)
  have hbits : (strbalOf l).extractLsb' (16 * i.val) 16 = BitVec.ofInt 16 (deviation l l[i.val]) := by
    apply BitVec.eq_of_toNat_eq
    rw [← ofSigned_eq, ← fields16_getElem (deviation l) l i.val hi, BitVec.extractLsb'_toNat, strbalOf, BitVec.toNat_ofNat,
      Nat.shiftRight_eq_div_pow, show 64 = 16 * i.val + (64 - 16 * i.val) by omega, Nat.pow_add, Nat.mod_mul_right_div_self,
      Nat.mod_mod_of_dvd _ (Nat.pow_dvd_pow 2 (by omega))]
  rw [hbits, BitVec.toInt_ofInt_eq_self (by decide) (by omega) (by omega)]

/-- A share is the sum of the last 256 windows' busywork. -/
theorem shareOf_eq_sum (l : List Nat) : shareOf l = (l.take 256).sum := List.sum_eq_foldl.symm

/-- When a string throttles: under POL 01, or under POL 10 by the shares of its cores (R437). -/
theorem SeriesString.throttles_iff (x : SeriesString) :
    x.throttles = true ↔ x.pol = 1#2 ∨ (x.pol = 2#2 ∧ if x.throttling then ∃ i : Fin 4, 8 * x.limit.toNat < shareOf x.shares[i]
      else ∃ i : Fin 4, 16 * x.limit.toNat < shareOf x.shares[i]) := by
  have hany : ∀ n, (x.shares.toList.map shareOf).any (fun m => decide (n < m)) = true ↔ ∃ i : Fin 4, n < shareOf x.shares[i] := by
    intro n
    rw [List.any_map, Vector.any_toList, Vector.any_eq_true]
    exact ⟨fun ⟨i, hi, h⟩ => ⟨⟨i, hi⟩, of_decide_eq_true h⟩, fun ⟨i, h⟩ => ⟨i.val, i.isLt, decide_eq_true h⟩⟩
  cases hx : x.throttling
  · simp only [SeriesString.throttles, SeriesString.tenThrottles, hx, Bool.false_eq_true, if_false, Bool.or_eq_true, beq_iff_eq,
      Bool.and_eq_true, hany]
  · simp only [SeriesString.throttles, SeriesString.tenThrottles, hx, if_true, Bool.or_eq_true, beq_iff_eq, Bool.and_eq_true,
      List.not_all_eq_any_not, ← decide_not, Nat.not_le, hany]

/-! The string after a window. -/

theorem planList_ne_nil (p : WindowPlans) : planList p ≠ [] := List.cons_ne_nil _ _

/-- A core of a string by its place. -/
def corePlan (p : WindowPlans) (i : Fin 4) : CorePlan := #v[p.c0, p.c1, p.c2, p.c3][i]

theorem getElem_planList (p : WindowPlans) (i : Fin 4) (hi : i.val < (planList p).length) : (planList p)[i.val] = corePlan p i := by
  match i with
  | 0 | 1 | 2 | 3 => rfl

theorem mem_planList {p : WindowPlans} {c : CorePlan} : c ∈ planList p ↔ ∃ i, corePlan p i = c := by
  rw [List.mem_iff_getElem]
  exact ⟨fun ⟨i, hi, he⟩ => ⟨⟨i, hi⟩, getElem_planList p ⟨i, hi⟩ hi ▸ he⟩,
    fun ⟨i, he⟩ => ⟨i.val, i.isLt, he ▸ getElem_planList p i i.isLt⟩⟩

theorem fitsAt_planList {throttle : Bool} {k : Nat} {p : WindowPlans} : fitsAt throttle k (planList p) = true ↔
    ∀ i j, planAt k 0 (corePlan p j) ≤ planAt k (allowance throttle (corePlan p i)) (corePlan p i) + spreadLimit := by
  simp only [fitsAt_iff (planList_ne_nil p), mem_planList, forall_exists_index, forall_apply_eq_imp_iff]

/-- The busywork of a core in a window of a string. -/
def SeriesString.work (x : SeriesString) (p : WindowPlans) (i : Fin 4) : Nat :=
  remedyOf x.throttles (x.window p).step (planList p) (corePlan p i)

/-- The plan of a core in a window of a string, after the remedy. -/
def SeriesString.plan (x : SeriesString) (p : WindowPlans) (i : Fin 4) : Nat := planAt (x.window p).step (x.work p i) (corePlan p i)

/-- The four plans of a window of a string, after the remedy. -/
def SeriesString.plans (x : SeriesString) (p : WindowPlans) : List Nat := remediedPlans x.throttles (x.window p).step (planList p)

theorem SeriesString.length_plans (x : SeriesString) (p : WindowPlans) : (x.plans p).length = 4 :=
  List.length_map _

theorem SeriesString.plans_ne_nil (x : SeriesString) (p : WindowPlans) : x.plans p ≠ [] := List.cons_ne_nil _ _

theorem SeriesString.mem_plans {x : SeriesString} {p : WindowPlans} {q : Nat} : q ∈ x.plans p ↔ ∃ i, x.plan p i = q := by
  unfold SeriesString.plans remediedPlans
  rw [List.mem_map]
  constructor
  · rintro ⟨c, hc, rfl⟩
    obtain ⟨i, rfl⟩ := mem_planList.mp hc
    exact ⟨i, rfl⟩
  · rintro ⟨i, rfl⟩
    exact ⟨corePlan p i, mem_planList.mpr ⟨i, rfl⟩, rfl⟩

theorem SeriesString.plan_mem_plans (x : SeriesString) (p : WindowPlans) (i : Fin 4) : x.plan p i ∈ x.plans p :=
  SeriesString.mem_plans.mpr ⟨i, rfl⟩

theorem SeriesString.plans_getElem (x : SeriesString) (p : WindowPlans) (i : Fin 4) (hi : i.val < (x.plans p).length) :
    (x.plans p)[i.val] = x.plan p i := by
  simp only [SeriesString.plans, remediedPlans, List.getElem_map, getElem_planList]
  rfl

theorem SeriesString.window_strbal_eq (x : SeriesString) (p : WindowPlans) : (x.window p).strbal = strbalOf (x.plans p) :=
  congrArg strbalOf (plansWith_remedyWork ..)

theorem SeriesString.window_shares (x : SeriesString) (p : WindowPlans) (i : Fin 4) :
    (x.window p).shares[i] = (x.work p i :: x.shares[i]).take 256 := by
  have hw : ((planList p).map (remedyOf x.throttles (x.window p).step (planList p))).getD i.val 0 = x.work p i := by
    have hi : i.val < (planList p).length := i.isLt
    simp only [List.getD_eq_getElem?_getD, List.getElem?_map, List.getElem?_eq_getElem hi, Option.map_some, Option.getD_some,
      getElem_planList]
    rfl
  rw [← hw, ← remedyWork_eq]
  exact Vector.getElem_ofFn _

/-- A core below the band runs the least busywork that lifts it there, and any other none (R439). -/
theorem SeriesString.work_least {x : SeriesString} {p : WindowPlans} {i : Fin 4} {m : Nat} (hm : m < x.work p i) :
    ∃ j, planAt (x.window p).step m (corePlan p i) + spreadLimit < planAt (x.window p).step 0 (corePlan p j) := by
  unfold SeriesString.work remedyOf at hm
  split at hm
  · exact absurd hm (Nat.not_lt_zero m)
  · have hne : (planList p).map (planAt (x.window p).step 0) ≠ [] := List.cons_ne_nil _ _
    obtain ⟨c, hc, htop⟩ := List.mem_map.mp (maxOf_spec hne).1
    obtain ⟨j, rfl⟩ := mem_planList.mp hc
    exact ⟨j, htop ▸ lt_of_lt_liftWork hm⟩

section
variable {x : SeriesString} {p : WindowPlans} (hstep : x.step ≤ 12) (hmin : x.minStep ≤ 12) (hw : ∀ i, planWeight (corePlan p i) ≤ 7680)

include hw in
theorem fitsAt_twelve_planList (throttle : Bool) : fitsAt throttle 12 (planList p) = true :=
  fitsAt_twelve throttle (planList_ne_nil p) fun c hc => by
    obtain ⟨i, rfl⟩ := mem_planList.mp hc
    exact hw i

include hstep hmin hw in
/-- The step of a window: at most 12, no lower than the step before and the least step, and the first from these that fits (R437, R438). -/
theorem SeriesString.window_step :
    (x.window p).step ≤ 12 ∧ x.step ≤ (x.window p).step ∧ x.minStep ≤ (x.window p).step ∧
      fitsAt x.throttles (x.window p).step (planList p) = true ∧
      ∀ k, x.step ≤ k → x.minStep ≤ k → k < (x.window p).step → fitsAt x.throttles k (planList p) = false := by
  obtain ⟨hfit, hge, hle, hfirst⟩ := neededStep_spec hmin (fitsAt_twelve_planList hw x.throttles)
  refine ⟨Nat.max_le.mpr ⟨hstep, hle⟩, Nat.le_max_left _ _, Nat.le_trans hge (Nat.le_max_right _ _),
    fitsAt_mono (planList_ne_nil p) (Nat.le_max_right _ _) hfit, fun k hk hk' hlt => hfirst k hk' ?_⟩
  have hneed : k < max x.step (neededStep x.throttles x.minStep (planList p)) := hlt
  omega

include hmin hw in
/-- The count of windows goes on exactly where the window would have fitted one step higher (R438). -/
theorem SeriesString.window_fits :
    (x.window p).fits = if x.minStep < (x.window p).step ∧ fitsAt x.throttles ((x.window p).step - 1) (planList p) = true
      then x.fits + 1 else 0 := by
  obtain ⟨hfit, hge, -, hfirst⟩ := neededStep_spec hmin (fitsAt_twelve_planList hw x.throttles)
  have hiff : neededStep x.throttles x.minStep (planList p) < (x.window p).step ↔
      x.minStep < (x.window p).step ∧ fitsAt x.throttles ((x.window p).step - 1) (planList p) = true := by
    constructor
    · exact fun h => ⟨Nat.lt_of_le_of_lt hge h, fitsAt_mono (planList_ne_nil p) (Nat.le_sub_one_of_lt h) hfit⟩
    · rintro ⟨hlt, hf⟩
      refine Nat.lt_of_not_le fun hn => ?_
      rw [hfirst ((x.window p).step - 1) (Nat.le_sub_one_of_lt hlt) (by omega)] at hf
      exact Bool.false_ne_true hf
  exact ite_congr (propext hiff) (fun _ => rfl) (fun _ => rfl)

include hstep hmin hw in
theorem SeriesString.spreadFits_plans : spreadFits (x.plans p) = true := by
  obtain ⟨-, -, -, hfit, -⟩ := SeriesString.window_step hstep hmin hw
  rw [SeriesString.plans, ← plansWith_remedyWork]
  exact hfit

include hstep hmin hw in
/-- After the remedy no two plans of a window are more than 60 units apart (R16, R436). -/
theorem SeriesString.plan_spread (i j : Fin 4) : x.plan p j ≤ x.plan p i + spreadLimit := by
  have hs := (spreadFits_iff (x.plans_ne_nil p)).mp (SeriesString.spreadFits_plans hstep hmin hw)
  exact hs _ (x.plan_mem_plans p i) _ (x.plan_mem_plans p j)

include hstep hmin hw in
/-- `strbal` shows each core's distance from the midpoint of the largest and the smallest plan, rounded (R181, R436). -/
theorem SeriesString.window_strbal (i : Fin 4) :
    ∃ hi lo, (∃ j, hi = x.plan p j) ∧ (∃ j, lo = x.plan p j) ∧ (∀ j, x.plan p j ≤ hi ∧ lo ≤ x.plan p j) ∧
      (((x.window p).strbal.extractLsb' (16 * i.val) 16).toInt = rneDiv (2 * (x.plan p i : Int) - hi - lo) 1024) := by
  obtain ⟨hmax, hle⟩ := maxOf_spec (x.plans_ne_nil p)
  obtain ⟨hleast, hge⟩ := minOf_spec (x.plans_ne_nil p)
  obtain ⟨a, ha⟩ := SeriesString.mem_plans.mp hmax
  obtain ⟨b, hb⟩ := SeriesString.mem_plans.mp hleast
  refine ⟨maxOf (x.plans p), minOf (x.plans p), ⟨a, ha.symm⟩, ⟨b, hb.symm⟩,
    fun j => ⟨hle _ (x.plan_mem_plans p j), hge _ (x.plan_mem_plans p j)⟩, ?_⟩
  rw [x.window_strbal_eq, strbalOf_field (SeriesString.spreadFits_plans hstep hmin hw) (x.length_plans p) i, x.plans_getElem, deviation,
    Int.natCast_add, Int.sub_sub]

end

/-! The state after a window. -/

/-- Of two states the second differs in the counters of cores alone. -/
def CountersOnly (s t : State) : Prop := t = { s with cores := t.cores } ∧ ∀ c, t.core c = { s.core c with hpm := (t.core c).hpm }

theorem CountersOnly.refl (s : State) : CountersOnly s s := ⟨rfl, fun _ => rfl⟩

theorem CountersOnly.trans {s t u : State} (h : CountersOnly s t) (k : CountersOnly t u) : CountersOnly s u := by
  obtain ⟨h, hc⟩ := h
  obtain ⟨k, kc⟩ := k
  refine ⟨?_, fun c => ?_⟩
  · rw [k, h]
  · rw [kc, hc]

/-- The cores after one of them is replaced. -/
theorem State.core_setCore (s : State) (core c : Nat) (x : CoreState) :
    (s.setCore core x).core c = if core = c ∧ core < 128 then x else s.core c := by
  unfold State.core
  rw [State.setCore_cores, Vector.getElem?_setIfInBounds]
  by_cases hcore : core = c
  · subst hcore
    by_cases hc : core < 128
    · rw [if_pos rfl, if_pos hc, if_pos ⟨rfl, hc⟩, Option.getD_some]
    · rw [if_pos rfl, if_neg hc, if_neg (fun h => hc h.2), Vector.getElem?_eq_none (Nat.le_of_not_lt hc)]
  · rw [if_neg hcore, if_neg (fun h => hcore h.1)]

/-- A core event changes counters of its core alone (R433). -/
theorem State.countCore_countersOnly (s : State) (core code amount : Nat) : CountersOnly s (s.countCore core code amount) := by
  unfold State.countCore
  split
  · exact CountersOnly.refl s
  · refine ⟨rfl, fun c => ?_⟩
    rw [State.core_setCore]
    split
    case isTrue h => rw [h.1]; rfl
    case isFalse => rfl

theorem countWindow_countersOnly (s : State) (core step busy : Nat) (c : CorePlan) : CountersOnly s (countWindow s core step busy c) :=
  ((((s.countCore_countersOnly ..).trans (State.countCore_countersOnly ..)).trans (State.countCore_countersOnly ..)).trans
    (State.countCore_countersOnly ..)).trans (State.countCore_countersOnly ..)

/-- Steps that each change counters alone do so together. -/
theorem CountersOnly.foldl {α : Type} {f : State → α → State} (hf : ∀ t a, CountersOnly t (f t a)) (l : List α) (s : State) :
    CountersOnly s (l.foldl f s) := by
  induction l generalizing s with
  | nil => exact CountersOnly.refl s
  | cons a l ih => exact (hf s a).trans (ih _)

/-- A string replaced, and a move from step 0 counted in the report card (R438, R444). -/
def State.withString (s : State) (n : Nat) (x y : SeriesString) : State :=
  { s with
    strings := s.strings.setIfInBounds n y,
    report := { s.report with throttles := if x.step = 0 ∧ y.step ≠ 0
      then s.report.throttles.setIfInBounds n (oneMore ((s.report.throttles[n]?).getD 0)) else s.report.throttles } }

/-- A window replaces its string, may count a move from step 0, and counts core events (R433, R438). -/
theorem runWindow_countersOnly {s : State} {n : Nat} {x : SeriesString} (hx : s.strings[n]? = some x) (p : WindowPlans) :
    CountersOnly (s.withString n x (x.window p)) (runWindow s n p) := by
  have hmoved : s.withString n x (x.window p) = if x.step = 0 ∧ (x.window p).step ≠ 0
      then countThrottle (s.setString n (x.window p)) n else s.setString n (x.window p) := by
    unfold State.withString
    split <;> rfl
  unfold runWindow
  rw [hx, hmoved]
  exact CountersOnly.foldl (fun t i => countWindow_countersOnly ..) _ _

/-- A window of a string always completes. -/
theorem exec_stringWindow (n : Nat) (p : WindowPlans) (s : State) : exec (.stringWindow n p) s = .next (runWindow s n p) := rfl

/-- Settles O51: the state is that of `runWindow_countersOnly`; the string's step and count are `window_step` and `window_fits`, its spread
`plan_spread`, its busywork the least (`work_least`), and `strbal` rounds as `rneDiv` does. -/
theorem spreadHolds : Obligations.SpreadHolds := by
  unfold Obligations.SpreadHolds
  intro n p s x hx hstep hmin core plan fits share hbounds
  have hw : ∀ i, planWeight (corePlan p i) ≤ 7680 := fun i => (hbounds i).1
  have hfits : ∀ k, fits x.throttles k ↔ fitsAt x.throttles k (planList p) = true := fun k => fitsAt_planList.symm
  obtain ⟨hle, hge, hgeMin, -, hfirst⟩ := SeriesString.window_step hstep hmin hw
  have hcount := SeriesString.window_fits hmin hw
  obtain ⟨hframe, hcores⟩ := runWindow_countersOnly hx p
  have hstrings : (runWindow s n p).strings = s.strings.setIfInBounds n (x.window p) := congrArg State.strings hframe
  refine ⟨runWindow s n p, x.window p, x.throttles, x.work p, exec_stringWindow n p s, hstrings,
    SeriesString.plan_spread hstep hmin hw, hle, ?_, ?_, ?_, hge, hgeMin, ?_, ?_, ?_, ?_, ⟨rfl, rfl, rfl, rfl⟩,
    x.window_shares p, ?_, hcores⟩
  · rw [x.throttles_iff]
    have hshare : ∀ i, share i = shareOf x.shares[i] := fun i => (shareOf_eq_sum _).symm
    have h8 : ∀ m, 4096 * x.limit.toNat < 512 * m ↔ 8 * x.limit.toNat < m := by omega
    have h16 : ∀ m, 4096 * x.limit.toNat < 256 * m ↔ 16 * x.limit.toNat < m := by omega
    simp only [hshare, h8, h16]
  · exact fun ht i => if_pos ht
  · intro ht i
    have hidle := remedyOf_le_allowance x.throttles (x.window p).step (planList p) (corePlan p i)
    rw [ht] at hidle
    exact ⟨by rwa [SeriesString.work, ht], fun m hm => SeriesString.work_least hm⟩
  · intro k hk hk' hlt
    rw [hfits, hfirst k hk hk' hlt]
    exact Bool.false_ne_true
  · rw [hfits, hcount]
    exact fun h => if_pos h
  · rw [hfits, hcount]
    exact fun h => if_neg h
  · intro i
    obtain ⟨hi, lo, hhi, hlo, hall, hd⟩ := SeriesString.window_strbal hstep hmin hw i
    refine ⟨hi, lo, hhi, hlo, hall, ?_⟩
    rw [hd]
    exact rneDiv_spec _ (by decide)
  · rw [hstrings]
    exact hframe

end Sys2Proof.Machine
end

section
/-! O22, O23. The quantising instructions: the choice of a block scale (R63, R68), what an instruction that writes several groups
leaves, the blocks it runs over (R67, R260, R277), and the five instructions (R276 to R283). -/

namespace Sys2Proof.Machine

/-! The choice of a block scale (R63, R68). -/

/-- `finLt` compares the counts of any unit `2 ^ l` that divides both values. -/
theorem finLt_iff (m n : Nat) {e k l : Int} (he : l ≤ e) (hk : l ≤ k) :
    finLt false m e false n k = true ↔ m * 2 ^ (e - l).toNat < n * 2 ^ (k - l).toNat := by
  have hmin : l ≤ (if e ≤ k then e else k) ∧ (if e ≤ k then e else k) ≤ e ∧ (if e ≤ k then e else k) ≤ k := by
    split <;> omega
  unfold finLt exactSum
  dsimp only
  generalize (if e ≤ k then e else k) = u at hmin ⊢
  obtain ⟨hl, hue, huk⟩ := hmin
  have hunit (x : Nat) {i : Int} (hi : u ≤ i) : x * 2 ^ (i - l).toNat = x * 2 ^ (i - u).toNat * 2 ^ (u - l).toNat := by
    rw [Nat.mul_assoc, ← Nat.pow_add, show (i - l).toNat = (i - u).toNat + (u - l).toNat by omega]
  rw [hunit m hue, hunit n huk, Nat.mul_lt_mul_right (Nat.two_pow_pos _)]
  simp only [Bool.not_false, Bool.false_eq_true, ↓reduceIte, decide_eq_true_eq]
  omega

/-- The value of a scale code in units of 2^-7, the least positive one. -/
def scaleUnits (code : Nat) : Nat := (scaleVal code).1 * 2 ^ ((scaleVal code).2 + 7).toNat

/-- Each next code raises the value. -/
theorem scaleUnits_le_succ : ∀ k, k < 255 → scaleUnits k ≤ scaleUnits (k + 1) := by decide +kernel

theorem scaleUnits_mono {j k : Nat} (hjk : j ≤ k) (hk : k < 256) : scaleUnits j ≤ scaleUnits k := by
  induction hjk with
  | refl => exact Nat.le_refl _
  | step _ ih => exact Nat.le_trans (ih (Nat.lt_of_succ_lt hk)) (scaleUnits_le_succ _ (Nat.lt_of_succ_lt_succ hk))

/-- Whether the value of a scale code times `d` is below the magnitude `a`: the test of R68. -/
def scaleSmall (a d : Nat × Int) (code : Nat) : Bool :=
  finLt false ((scaleVal code).1 * d.1) ((scaleVal code).2 + d.2) false a.1 a.2

/-- The test in counts of a unit that divides `2 ^ -7 * d` and `a`. -/
theorem scaleSmall_iff {a d : Nat × Int} {l : Int} (hd : l ≤ d.2 - 7) (ha : l ≤ a.2) (code : Nat) :
    scaleSmall a d code = true ↔ scaleUnits code * (d.1 * 2 ^ (d.2 - 7 - l).toNat) < a.1 * 2 ^ (a.2 - l).toNat := by
  have he : -7 ≤ (scaleVal code).2 := by
    unfold scaleVal
    dsimp only
    split <;> omega
  have hsum : ((scaleVal code).2 + d.2 - l).toNat = ((scaleVal code).2 + 7).toNat + (d.2 - 7 - l).toNat := by omega
  unfold scaleSmall scaleUnits
  rw [finLt_iff _ _ (by omega) ha, hsum, Nat.pow_add, Nat.mul_mul_mul_comm]

/-- A code below one that is too small is too small. -/
theorem scaleSmall_of_le {a d : Nat × Int} {j k : Nat} (hjk : j ≤ k) (hk : k < 256) (h : scaleSmall a d k = true) :
    scaleSmall a d j = true := by
  have hd : min (d.2 - 7) a.2 ≤ d.2 - 7 := by omega
  have ha : min (d.2 - 7) a.2 ≤ a.2 := by omega
  rw [scaleSmall_iff hd ha] at h ⊢
  exact Nat.lt_of_le_of_lt (Nat.mul_le_mul_right _ (scaleUnits_mono hjk hk)) h

theorem scaleCount_succ (a d : Nat × Int) (k n : Nat) :
    scaleCount a d (k + 1) n = scaleCount a d k (if scaleSmall a d (n + 2 ^ k - 1) then n + 2 ^ k else n) := rfl

theorem scaleFor_eq (a d : Nat × Int) :
    scaleFor a d = if scaleSmall a d (scaleCount a d 8 0) then none else some (scaleCount a d 8 0) := rfl

/-- The search keeps the first code that is large enough, or the last one, within the `2 ^ k` codes from `n`. -/
theorem scaleCount_spec (a d : Nat × Int) (k n : Nat) (hn : n + 2 ^ k ≤ 256) (hbelow : ∀ i, i < n → scaleSmall a d i = true)
    (habove : n + 2 ^ k < 256 → scaleSmall a d (n + 2 ^ k - 1) = false) :
    scaleCount a d k n < 256 ∧ (∀ i, i < scaleCount a d k n → scaleSmall a d i = true) ∧
      (scaleCount a d k n < 255 → scaleSmall a d (scaleCount a d k n) = false) := by
  induction k generalizing n with
  | zero => exact ⟨hn, hbelow, fun hr => habove (Nat.succ_lt_succ hr)⟩
  | succ k ih =>
    have hpow : 2 ^ (k + 1) = 2 ^ k + 2 ^ k := by omega
    have hpos := Nat.two_pow_pos k
    rw [scaleCount_succ]
    cases hmid : scaleSmall a d (n + 2 ^ k - 1) with
    | true =>
      refine ih (n + 2 ^ k) (by omega) (fun i hi => scaleSmall_of_le (by omega) (by omega) hmid) ?_
      rwa [Nat.add_assoc, ← hpow]
    | false => exact ih n (by omega) hbelow (fun _ => hmid)

/-- The scale found is large enough, and no smaller code is (R68 step 4). -/
theorem scaleFor_some {a d : Nat × Int} {n : Nat} (h : scaleFor a d = some n) :
    n < 256 ∧ scaleSmall a d n = false ∧ ∀ k, k < n → scaleSmall a d k = true := by
  obtain ⟨hlt, hbelow, -⟩ := scaleCount_spec a d 8 0 (by omega) (by omega) (by omega)
  rw [scaleFor_eq] at h
  split at h
  · cases h
  · next hlarge =>
    cases h
    exact ⟨hlt, Bool.eq_false_iff.mpr hlarge, hbelow⟩

/-- Where no scale is found every code is too small (R68 step 3). -/
theorem scaleFor_none {a d : Nat × Int} (h : scaleFor a d = none) {k : Nat} (hk : k < 256) : scaleSmall a d k = true := by
  obtain ⟨hlt, -, hlast⟩ := scaleCount_spec a d 8 0 (by omega) (by omega) (by omega)
  rw [scaleFor_eq] at h
  split at h
  · next hsmall =>
    have hend : ¬ scaleCount a d 8 0 < 255 := fun hc => Bool.false_ne_true ((hlast hc).symm.trans hsmall)
    exact scaleSmall_of_le (by omega) hlt hsmall
  · cases h

/-! What an instruction that writes several groups leaves (R34, R192, R276). -/

/-- The elements of one group written, as seen from states that read the group alike. -/
theorem GroupElems.of_src {s t s' t' : State} {d g sew : Nat} {val : Nat → Option (Nat × Bool)} (h : GroupElems s t d g sew val)
    (hl : s'.lanes s'.hart = s.lanes s.hart) (hs : groupSrc s' d g sew = groupSrc s d g sew)
    (ht : groupSrc t' d g sew = groupSrc t d g sew) : GroupElems s' t' d g sew val := by
  obtain ⟨hput, hbad, hkept, hkeptBad⟩ := h
  unfold State.holds State.elem State.elemPoisoned at *
  rw [← hl] at hput hbad hkept hkeptBad
  rw [← hs] at hkept hkeptBad
  rw [← ht] at hput hbad hkept hkeptBad
  exact ⟨hput, hbad, hkept, hkeptBad⟩

/-- The values may be restated for the elements the group holds. -/
theorem GroupElems.congr {s t : State} {d g sew : Nat} {val val' : Nat → Option (Nat × Bool)} (h : GroupElems s t d g sew val)
    (hv : ∀ i, s.holds g sew i → val i = val' i) : GroupElems s t d g sew val' :=
  ⟨fun i x hi hx => h.put i x hi ((hv i hi).trans hx), fun h8 i x hi hx => h.putBad h8 i x hi ((hv i hi).trans hx),
    fun i hi hx => h.kept i hi ((hv i hi).trans hx), fun h8 i hi hx => h.keptBad h8 i hi ((hv i hi).trans hx)⟩

/-- The group an instruction writes alone. -/
theorem GroupElems.groupPut {s t : State} {d g sew : Nat} {val : Nat → Option (Nat × Bool)} (h : GroupElems s t d g sew val)
    (ho : s.onlyWrites t [(d, g)]) : GroupPut s t d g sew val :=
  ⟨h.put, h.putBad, h.kept, h.keptBad, fun n g' sew' hd => ho n g' sew' (List.forall_mem_singleton.mpr hd)⟩

/-- The group a lane operation writes alone. -/
theorem GroupElems.groupWritten {s t : State} {d g sew : Nat} {m : MaskNo} {val : Nat → Nat × Bool}
    (h : GroupElems s t d g sew (s.masked m (fun i => some (val i)))) (ho : s.onlyWrites t [(d, g)]) :
    GroupWritten s t d g sew m val := by
  have hactive : ∀ i, i < s.hart.vl.toNat → s.hart.maskBit m i = true → s.masked m (fun i => some (val i)) i = some (val i) :=
    fun i hi hm => if_pos ⟨hi, hm⟩
  have hother : ∀ i, s.hart.vl.toNat ≤ i ∨ s.hart.maskBit m i = false → s.masked m (fun i => some (val i)) i = none := by
    refine fun i hor => if_neg fun ⟨hi, hm⟩ => ?_
    rcases hor with hle | hf
    · omega
    · exact Bool.false_ne_true (hf.symm.trans hm)
  exact ⟨fun i hi hin hm => h.put i _ hin (hactive i hi hm), fun i hin hor => h.kept i hin (hother i hor),
    fun h8 i hi hin hm => h.putBad h8 i _ hin (hactive i hi hm), fun h8 i hin hor => h.keptBad h8 i hin (hother i hor),
    fun n g' sew' hd => ho n g' sew' (List.forall_mem_singleton.mpr hd)⟩

/-- A state in which an instruction has given `vflags` and `voutcnt` their values and written the groups of `l`. -/
structure WroteGroups (s t : State) (fl : BitVec 9) (cnt : BitVec 32) (l : List (Nat × Nat)) : Prop where
  frame : t = { s with hart := { s.hart with v := t.hart.v, vflags := fl, voutcnt := cnt }, cores := t.cores }
  tidy : t.hart.tidy = true
  counted : Counted s t
  others : s.onlyWrites t l

theorem WroteGroups.lanes {s t : State} {fl : BitVec 9} {cnt : BitVec 32} {l : List (Nat × Nat)} (h : WroteGroups s t fl cnt l) :
    t.lanes t.hart = s.lanes s.hart :=
  State.lanes_congr (by rw [h.frame]) (by rw [h.frame])

/-- Nothing is written yet where an instruction has been admitted and its flags and counts are set. -/
theorem Admitted.wroteNothing {s s1 : State} (h : Admitted s s1) (fl : BitVec 9) (cnt : BitVec 32) :
    WroteGroups s { s1 with hart := { s1.hart with vflags := fl, voutcnt := cnt } } fl cnt [] := by
  refine ⟨?_, Hart.tidy_of (Hart.tidy_getV h.tidy), h.counted.trans (by rw [h.frame]) (.of_eq rfl), fun n g sew _ => ?_⟩
  · dsimp only
    rw [h.frame]
  · rw [← h.src n g sew]
    exact groupSrc_of_getV (State.lanes_congr rfl rfl) (fun _ _ => rfl) sew

/-- Flags ORed in after an admission (R86). -/
theorem Admitted.wroteFlags {s s1 : State} (h : Admitted s s1) (fl : Nat) :
    WroteGroups s (s1.onHart (fun h => h.orFlags fl)) (s.hart.vflags ||| BitVec.ofNat 9 fl) s.hart.voutcnt [] := by
  have hfl : s1.hart.vflags = s.hart.vflags := by rw [h.frame]
  have hcnt : s1.hart.voutcnt = s.hart.voutcnt := by rw [h.frame]
  rw [← hfl, ← hcnt]
  exact h.wroteNothing _ _

/-- Flags ORed in and clipped outliers counted after an admission (R75, R86). -/
theorem Admitted.wroteFlagsClipped {s s1 : State} (h : Admitted s s1) (fl n : Nat) :
    WroteGroups s (s1.onHart (fun h => (h.orFlags fl).addClipped n)) (s.hart.vflags ||| BitVec.ofNat 9 fl)
      (s.hart.addClipped n).voutcnt [] := by
  have hfl : s1.hart.vflags = s.hart.vflags := by rw [h.frame]
  have hcnt : (s1.hart.addClipped n).voutcnt = (s.hart.addClipped n).voutcnt := by rw [h.frame]; rfl
  rw [← hfl, ← hcnt]
  exact h.wroteNothing _ _

/-- Nothing admitted. -/
theorem Admitted.refl {s : State} (ht : s.hart.tidy = true) : Admitted s s :=
  ⟨rfl, .refl _ _, ht, .of_eq rfl⟩

/-- One more group is written, apart from those written before: it takes its elements, and those keep theirs. -/
theorem WroteGroups.writeGroup {s t : State} {fl : BitVec 9} {cnt : BitVec 32} {l : List (Nat × Nat)} (h : WroteGroups s t fl cnt l)
    {d g : Nat} (sew : Nat) (es : List (Option (Nat × Bool))) (hd : d + g ≤ 32) (hl : ∀ r ∈ l, d + g ≤ r.1 ∨ r.1 + r.2 ≤ d) :
    WroteGroups s (Machine.writeGroup t d g sew es) fl cnt (l ++ [(d, g)]) ∧
    GroupElems s (Machine.writeGroup t d g sew es) d g sew (fun i => (es[i]?.join).map (fun x => (x.1 % 2 ^ sewBits sew, x.2))) ∧
    ∀ d' g' sew' val, (d', g') ∈ l → GroupElems s t d' g' sew' val →
      GroupElems s (Machine.writeGroup t d g sew es) d' g' sew' val := by
  obtain ⟨⟨hput, hbad, hkept, hkeptBad, hothers⟩, hframe, htidy, hcounted⟩ := put_ok (Admitted.refl h.tidy) d g sew es hd
  generalize Machine.writeGroup t d g sew es = u at *
  refine ⟨⟨?_, htidy, h.counted.trans (by rw [h.frame]) hcounted, fun n g' sew' hn => ?_⟩, ?_, fun d' g' sew' val hr hval => ?_⟩
  · rw [hframe]
    dsimp only
    rw [h.frame]
  · rw [hothers n g' sew' (hn (d, g) (by simp))]
    exact h.others n g' sew' (fun r hr => hn r (List.mem_append_left _ hr))
  · exact GroupElems.of_src (s := t) ⟨hput, hbad, hkept, hkeptBad⟩ h.lanes.symm (h.others d g sew hl).symm rfl
  · exact hval.of_src rfl rfl (hothers _ _ _ (hl (d', g') hr).symm)

/-- An instruction that a ready hart runs at once, and that writes groups. -/
theorem WroteGroups.exec {i : Instr} {w : InstrWord} {p : Nat} {ops : State → Captured} {eff : VEntry → State → VRes} {s t : State}
    {fl : BitVec 9} {cnt : BitVec 32} {l : List (Nat × Nat)} (hw : WroteGroups s.start t fl cnt l)
    (hi : instrRun i = some (.row ⟨w, p, .any, ops, eff⟩)) (hr : s.ready p = true)
    (heff : eff (s.entryFor w (ops s)) s.start = .ok t) :
    ∃ u, Machine.exec i s = .next u ∧
      u = { s with hart := { s.hart.past with v := u.hart.v, vflags := fl, voutcnt := cnt }, cores := s.coresAs u } ∧
      s.onlyWrites u l ∧ ∀ d g sew val, GroupElems s.start t d g sew val → GroupElems s u d g sew val := by
  obtain ⟨hrest, hprofile, -, -, -⟩ := (s.ready_iff p).mp hr
  have hframe : t = { s with
      hart := { s.hart with pc := s.hart.pc + 4#64, v := t.hart.v, vflags := fl, voutcnt := cnt }, cores := t.cores } := hw.frame
  have hstill : t.still = true := by
    apply State.still_congr ((State.atRest_iff s).mp hrest).1 <;> rw [hframe]
  have hcounted : Counted s t := s.start_counted.trans rfl hw.counted
  have hsrc : ∀ n g sew, groupSrc (s.finish w t) n g sew = groupSrc t n g sew := fun n g sew =>
    groupSrc_of_getV (State.lanes_congr (by rw [State.finish_frame]) (by rw [State.finish_frame]))
      (fun j _ => by rw [State.finish_frame]; rfl) sew
  refine ⟨_, (exec_run i s _ hi).trans (issue_ok hrest hprofile heff hstill), ?_, fun n g sew hn => ?_, fun d g sew val hval => ?_⟩
  · generalize t.hart.v = v at *
    generalize t.cores = cc at *
    rw [← hcounted.finish (by rw [hframe]), State.finish_frame, hframe]
    rfl
  · rw [hsrc]
    exact hw.others n g sew hn
  · exact hval.of_src rfl rfl (hsrc _ _ _)

/-! The blocks a quantising instruction runs over (R67, R260, R277). -/

/-- An entry of a list built index by index. -/
theorem join_getElem?_range {α : Type} (n : Nat) (f : Nat → Option α) (i : Nat) :
    (((List.range n).map f)[i]?).join = if i < n then f i else none := by
  by_cases hi : i < n <;> simp [hi]

/-- The results present, combined in order. -/
theorem foldl_elim_eq {α β : Type} (op : Nat → Nat → Nat) [Std.Associative op] [Std.LawfulIdentity op 0] (p : α → Bool) (x : α → β)
    (g : β → Nat) (l : List α) :
    (l.map (fun k => if p k then some (x k) else none)).foldl (fun acc o => op acc (o.elim 0 g)) 0 =
      ((l.filter p).map (fun k => g (x k))).foldr op 0 := by
  have hfrom : ∀ a, (l.map (fun k => if p k then some (x k) else none)).foldl (fun acc o => op acc (o.elim 0 g)) a =
      op a (((l.filter p).map (fun k => g (x k))).foldr op 0) := by
    induction l with
    | nil => exact fun a => (Std.LawfulRightIdentity.right_id a).symm
    | cons k l ih =>
      intro a
      rw [List.map_cons, List.foldl_cons, ih]
      cases hk : p k with
      | true => simp [hk, Std.Associative.assoc (op := op)]
      | false => simp [hk, Std.LawfulRightIdentity.right_id (op := op)]
  rw [hfrom, Std.LawfulLeftIdentity.left_id (op := op)]

/-- The results of the active elements, as a group is written with them (R202). -/
theorem join_map_actives {α : Type} (s : State) (m : MaskNo) (x : Nat → α) (g : α → Nat × Bool) (w i : Nat) :
    ((((((List.range s.hart.vl.toNat).map (fun i => if s.hart.maskBit m i then some (x i) else none)).map
      (fun o => o.map g))[i]?).join).map (fun y => (y.1 % 2 ^ w, y.2))) =
      s.masked m (fun i => some ((g (x i)).1 % 2 ^ w, (g (x i)).2)) i := by
  rw [List.map_map, join_getElem?_range]
  unfold State.masked
  by_cases hi : i < s.hart.vl.toNat
  · cases hm : s.hart.maskBit m i <;> simp [hi, hm]
  · simp [hi]

/-- Whether some result present has a property. -/
theorem any_map_actives {α : Type} (s : State) (m : MaskNo) (x : Nat → α) (p : α → Bool) :
    ((List.range s.hart.vl.toNat).map (fun i => if s.hart.maskBit m i then some (x i) else none)).any (fun o => o.any p) =
      (s.actives m).any (fun i => p (x i)) := by
  unfold State.actives
  rw [List.any_map, List.any_filter]
  refine congrArg (List.any _) (funext fun i => ?_)
  cases hm : s.hart.maskBit m i <;> simp [hm]

theorem State.isActive_iff (s : State) (m : MaskNo) (i : Nat) :
    s.isActive m i = true ↔ i < s.hart.vl.toNat ∧ s.hart.maskBit m i = true := by
  simp [State.isActive]

theorem blockSizeOf_pos (t : QTarget) : 0 < blockSizeOf t := by
  unfold blockSizeOf
  split <;> decide

/-- The blocks that hold an element below `n`. -/
theorem lt_ceilDiv_iff {n bk : Nat} (hbk : 0 < bk) (k : Nat) : k < ceilDiv n bk ↔ k * bk < n := by
  unfold ceilDiv
  rw [← Nat.add_one_le_iff, Nat.le_div_iff_mul_le hbk, Nat.add_mul, Nat.one_mul]
  omega

theorem QCfg.live_eq (q : QCfg) (s : State) (m : MaskNo) (k : Nat) : q.live s m k = s.liveBlock m q.bk k := by
  unfold QCfg.live QCfg.indices State.liveBlock
  rw [List.any_map]
  rfl

/-- A live block holds an element below `vl`. -/
theorem State.liveBlock_lt {s : State} {m : MaskNo} {bk k : Nat} (h : s.liveBlock m bk k = true) : k * bk < s.hart.vl.toNat := by
  obtain ⟨j, -, hj⟩ := List.any_eq_true.mp h
  have := ((s.isActive_iff m _).mp hj).1
  omega

/-- The block of an active element is live. -/
theorem State.liveBlock_of_active {s : State} {m : MaskNo} {bk i : Nat} (hbk : 0 < bk) (h : s.isActive m i = true) :
    s.liveBlock m bk (i / bk) = true :=
  List.any_eq_true.mpr ⟨i % bk, List.mem_range.mpr (Nat.mod_lt i hbk), by rwa [Nat.mul_comm, Nat.div_add_mod]⟩

/-- What a quantising instruction computes for each block: the result of each live one. -/
theorem QCfg.run_eq {α : Type} (q : QCfg) (s : State) (m : MaskNo) (val : Nat → FVal) (f : Nat → QIn → α) :
    q.run s m val f = (List.range (ceilDiv s.hart.vl.toNat q.bk)).map (fun k =>
      if s.liveBlock m q.bk k then some (f k (s.quantIn m q.bk val k)) else none) := by
  unfold QCfg.run State.quantIn QCfg.indices
  simp only [QCfg.live_eq, List.map_map]
  rfl

theorem QCfg.join_run {α : Type} (q : QCfg) (s : State) (m : MaskNo) (val : Nat → FVal) (f : Nat → QIn → α) (hbk : 0 < q.bk)
    (k : Nat) :
    ((q.run s m val f)[k]?).join = if s.liveBlock m q.bk k then some (f k (s.quantIn m q.bk val k)) else none := by
  rw [QCfg.run_eq, join_getElem?_range]
  split
  · rfl
  · next hk => rw [if_neg fun hlive => hk ((lt_ceilDiv_iff hbk k).mpr (State.liveBlock_lt hlive))]

/-- Part of the result of each block. -/
theorem QCfg.map_run {α β : Type} (q : QCfg) (s : State) (m : MaskNo) (val : Nat → FVal) (f : Nat → QIn → α) (g : α → β) :
    (q.run s m val f).map (fun o => o.map g) = q.run s m val (fun k xs => g (f k xs)) := by
  simp only [QCfg.run_eq, List.map_map]
  refine List.map_congr_left fun k _ => ?_
  cases h : s.liveBlock m q.bk k <;> simp [h]

theorem flagsOf_run (q : QCfg) (s : State) (m : MaskNo) (val : Nat → FVal) (f : Nat → QIn → QBlock) :
    flagsOf (q.run s m val f) = s.blockFlags m q.bk (fun k => f k (s.quantIn m q.bk val k)) := by
  rw [QCfg.run_eq]
  exact foldl_elim_eq (fun a b => a ||| b) _ _ _ _

/-- A count over the results of the live blocks. -/
theorem sum_run {α : Type} (q : QCfg) (s : State) (m : MaskNo) (val : Nat → FVal) (f : Nat → QIn → α) (g : α → Nat) :
    (q.run s m val f).foldl (fun acc o => acc + o.elim 0 g) 0 =
      (((List.range (ceilDiv s.hart.vl.toNat q.bk)).filter (s.liveBlock m q.bk)).map
        (fun k => g (f k (s.quantIn m q.bk val k)))).sum := by
  rw [QCfg.run_eq]
  exact foldl_elim_eq (fun a b => a + b) _ _ _ _

/-- The result of the block of an active element. -/
theorem QCfg.run_active {α : Type} {q : QCfg} {s : State} {m : MaskNo} {i : Nat} (hbk : 0 < q.bk) (hi : s.isActive m i = true)
    (val : Nat → FVal) (f : Nat → QIn → α) :
    (q.run s m val f)[i / q.bk]? = some (some (f (i / q.bk) (s.quantIn m q.bk val (i / q.bk)))) := by
  have hrun := q.join_run s m val f hbk (i / q.bk)
  rw [if_pos (State.liveBlock_of_active hbk hi)] at hrun
  exact Option.join_eq_some_iff.mp hrun

/-- The narrow elements reach every element of a live block that the group holds (R67). -/
theorem QCfg.lt_extent {q : QCfg} {s : State} {m : MaskNo} {i : Nat} (hbk : 0 < q.bk) (hi : i < s.cfg.vlmax)
    (hlive : s.liveBlock m q.bk (i / q.bk) = true) : i < q.extent s m := by
  have hk := (lt_ceilDiv_iff hbk _).mpr (State.liveBlock_lt hlive)
  have hlast : i < ceilDiv s.hart.vl.toNat q.bk * q.bk := (Nat.div_lt_iff_lt_mul hbk).mp hk
  have hvl : s.cfg.vl = s.hart.vl.toNat := rfl
  unfold QCfg.extent QCfg.blocks
  dsimp only
  rw [hvl, if_neg (Nat.ne_of_gt (Nat.zero_lt_of_lt hk)), QCfg.live_eq]
  split
  · omega
  · next hdead =>
    have hnext : i / q.bk + 1 < ceilDiv s.hart.vl.toNat q.bk :=
      Nat.lt_of_le_of_ne hk fun h => hdead (Nat.eq_sub_of_add_eq h ▸ hlive)
    exact Nat.lt_trans ((Nat.div_lt_iff_lt_mul hbk).mp (Nat.lt_succ_self _)) ((lt_ceilDiv_iff hbk _).mp hnext)

/-- The narrow elements written (R67). -/
theorem QCfg.join_narrowElems (q : QCfg) (s : State) (m : MaskNo) (val : Nat → FVal) (f : Nat → QIn → QBlock) (bad : Nat → Bool)
    (hbk : 0 < q.bk) {i : Nat} (hi : i < s.cfg.vlmax) :
    (((q.narrowElems s m (q.run s m val f) bad)[i]?).join).map (fun x => (x.1 % 2 ^ s.cfg.w, x.2)) =
      s.codesPut m q.bk (fun k => f k (s.quantIn m q.bk val k)) bad i := by
  have hvl : s.cfg.vl = s.hart.vl.toNat := rfl
  have hrun := q.join_run s m val f hbk (i / q.bk)
  unfold QCfg.narrowElems State.codesPut
  rw [join_getElem?_range, hvl]
  cases hlive : s.liveBlock m q.bk (i / q.bk) with
  | true =>
    rw [hlive] at hrun
    have hblock := Option.join_eq_some_iff.mp hrun
    simp only [hblock, QCfg.lt_extent hbk hi hlive, ↓reduceIte]
    split
    · rfl
    · split
      · simp
      · rfl
  | false =>
    rw [hlive] at hrun
    have hnone := Option.join_eq_none_iff.mp hrun
    simp only [Bool.false_eq_true, ↓reduceIte]
    rcases hnone with h | h <;> simp [h]

/-- One value for each live block (R260). -/
theorem QCfg.join_perBlock {α : Type} (q : QCfg) (s : State) (m : MaskNo) (val : Nat → FVal) (f : Nat → QIn → α) (bad : Nat → Bool)
    (g : α → Nat) (w : Nat) (hbk : 0 < q.bk) (k : Nat) :
    (((q.perBlock s m (q.run s m val f) bad g)[k]?).join).map (fun x => (x.1 % 2 ^ w, x.2)) =
      s.blocksPut m q.bk (fun k => g (f k (s.quantIn m q.bk val k)) % 2 ^ w) bad k := by
  have hrun := q.join_run s m val f hbk k
  have hbad : q.badBlock s m bad k = (List.range q.bk).any (fun j => s.isActive m (k * q.bk + j) && bad (k * q.bk + j)) := by
    unfold QCfg.badBlock QCfg.indices
    rw [List.any_map]
    rfl
  unfold QCfg.perBlock State.blocksPut
  rw [← hbad, List.getElem?_map, List.getElem?_zipIdx, Nat.zero_add]
  cases hlive : s.liveBlock m q.bk k with
  | true =>
    rw [hlive] at hrun
    simp [Option.join_eq_some_iff.mp hrun]
  | false =>
    rw [hlive] at hrun
    rcases Option.join_eq_none_iff.mp hrun with h | h <;> simp [h]

/-! The five instructions (R276 to R283). -/

/-- What the checks of R276 and an admission need of the state a quantising instruction runs in. -/
structure State.QuantRuns (s : State) (f : FFmt) : Prop where
  vill : s.cfg.vill = false
  sew : s.cfg.sew ≤ 2
  block : s.cfg.block = 0
  fmt : s.cfg.fmt = some f
  wide : s.cfg.wideGroup ≤ 8
  tidy : s.hart.tidy = true
  room : s.room = true

theorem State.quantReady.start {s : State} {f : FFmt} (h : s.quantReady f) : s.start.QuantRuns f := by
  obtain ⟨hr, hsew, hblock, hfmt, hwide⟩ := h
  obtain ⟨-, -, hvill, htidy, hroom⟩ := (s.ready_iff 1).mp hr
  exact ⟨hvill, hsew, hblock, hfmt, hwide, htidy, s.start_room.trans hroom⟩

/-- What R276 fixes at a narrow format. -/
def State.quantCfg (s : State) (f : FFmt) : QCfg := ⟨f, s.cfg.wideGroup, blockSizeOf (some f)⟩

@[simp] theorem State.quantCfg_f (s : State) (f : FFmt) : (s.quantCfg f).f = f := rfl
@[simp] theorem State.quantCfg_bk (s : State) (f : FFmt) : (s.quantCfg f).bk = blockSizeOf (some f) := rfl

/-- The FP32 groups read. -/
theorem State.floatVal_wide (s : State) (f : FFmt) (n : BitVec 5) :
    floatVal (groupSrc s n.toNat (s.quantCfg f).gs 4) = s.wideVal n := rfl

theorem State.bad_wide (s : State) (f : FFmt) (n : BitVec 5) (i : Nat) :
    (groupSrc s n.toNat (s.quantCfg f).gs 4 i).2 = s.wideBad n i := rfl

/-- A group of the current `vtype` holds the elements below vlmax (R185). -/
theorem State.lt_vlmax_of_holds {s : State} {i : Nat} (h : s.holds s.cfg.g s.cfg.sew i) : i < s.cfg.vlmax :=
  Nat.add_one_le_iff.mp ((Nat.le_div_iff_mul_le (sewBits_pos _)).mpr (Nat.le_trans (Nat.le_of_eq (Nat.mul_comm ..)) h))

theorem destRegs_length_le (c : VCfg) (first count w n : Nat) : (destRegs c first count w n).length ≤ count := by
  simp only [destRegs, List.length_map, List.length_range]
  exact Nat.min_le_left _ _

theorem QCfg.narrowDest_length_le (q : QCfg) (s : State) (m : MaskNo) (d : Nat) : (q.narrowDest s m d).length ≤ s.cfg.g :=
  destRegs_length_le ..

theorem readBelow_used_le {c : VCfg} {count k : Nat} (h : count ≤ k) (first sew n : Nat) :
    (readBelow c first count sew n).used ≤ k :=
  Nat.le_trans (readBelow_used ..) h

/-- The configuration, the active elements and the bands are those before the admission. -/
theorem Admitted.isActive {s s1 : State} (h : Admitted s s1) (m : MaskNo) : s1.isActive m = s.isActive m := by
  rw [h.frame]
  rfl

theorem Admitted.maskBit {s s1 : State} (h : Admitted s s1) (m : MaskNo) (i : Nat) : s1.hart.maskBit m i = s.hart.maskBit m i := by
  rw [h.frame]
  rfl

theorem Admitted.band {s s1 : State} (h : Admitted s s1) (i : Nat) : s1.hart.band i = s.hart.band i := by
  rw [h.frame]
  rfl

theorem Admitted.live {s s1 : State} (h : Admitted s s1) (q : QCfg) (m : MaskNo) (k : Nat) : q.live s1 m k = q.live s m k := by
  unfold QCfg.live
  rw [h.isActive]

theorem Admitted.run {α : Type} {s s1 : State} (h : Admitted s s1) (q : QCfg) (m : MaskNo) (val : Nat → FVal) (f : Nat → QIn → α) :
    q.run s1 m val f = q.run s m val f := by
  simp only [QCfg.run, h.live, h.cfg, h.isActive]

theorem Admitted.narrowElems {s s1 : State} (h : Admitted s s1) (q : QCfg) (m : MaskNo) (outs : List (Option QBlock))
    (bad : Nat → Bool) : q.narrowElems s1 m outs bad = q.narrowElems s m outs bad := by
  simp only [QCfg.narrowElems, QCfg.extent, h.live, h.cfg, h.isActive]

theorem Admitted.perBlock {α : Type} {s s1 : State} (h : Admitted s s1) (q : QCfg) (m : MaskNo) (outs : List (Option α))
    (bad : Nat → Bool) (g : α → Nat) : q.perBlock s1 m outs bad g = q.perBlock s m outs bad g := by
  simp only [QCfg.perBlock, QCfg.badBlock, h.isActive]

theorem disjoint_iff (a n b k : Nat) : disjoint a n b k = true ↔ a + n ≤ b ∨ b + k ≤ a := by
  simp [disjoint]

/-- The codes written (R67). -/
theorem codesElems {s t : State} {f : FFmt} {d : Nat} {m : MaskNo} {val : Nat → FVal}
    {block : Nat → QIn → QBlock} {bad : Nat → Bool}
    (he : GroupElems s t d s.cfg.g s.cfg.sew (fun i =>
      ((((s.quantCfg f).narrowElems s m ((s.quantCfg f).run s m val block) bad)[i]?).join).map
        (fun x => (x.1 % 2 ^ sewBits s.cfg.sew, x.2)))) :
    GroupElems s t d s.cfg.g s.cfg.sew
      (s.codesPut m (blockSizeOf (some f)) (fun k => block k (s.quantIn m (blockSizeOf (some f)) val k)) bad) :=
  he.congr fun _ hi => (s.quantCfg f).join_narrowElems s m val block bad (blockSizeOf_pos _) (State.lt_vlmax_of_holds hi)

/-- The scales, or other values of the blocks, written (R260). -/
theorem blocksElems {α : Type} {s t : State} {f : FFmt} {d g sew : Nat} {m : MaskNo} {val : Nat → FVal}
    {block : Nat → QIn → α} {bad : Nat → Bool} {part : α → Nat}
    (he : GroupElems s t d g sew (fun k =>
      ((((s.quantCfg f).perBlock s m ((s.quantCfg f).run s m val block) bad part)[k]?).join).map
        (fun x => (x.1 % 2 ^ sewBits sew, x.2)))) :
    GroupElems s t d g sew (s.blocksPut m (blockSizeOf (some f))
      (fun k => part (block k (s.quantIn m (blockSizeOf (some f)) val k)) % 2 ^ sewBits sew) bad) :=
  he.congr fun k _ => (s.quantCfg f).join_perBlock s m val block bad part _ (blockSizeOf_pos _) k

section
variable {s : State} {f : FFmt} (h : s.QuantRuns f)
include h

/-- The checks of R276 pass. -/
theorem State.QuantRuns.need {e : VEntry} {narrow wide : List Nat} {more : QCfg → Bool}
    (hn : ∀ n ∈ narrow, groupOk n s.cfg.g = true) (hw : ∀ n ∈ wide, groupOk n s.cfg.wideGroup = true)
    (hm : more (s.quantCfg f) = true) : needQuant e s.cfg narrow wide more = .ok (s.quantCfg f) := by
  have hnarrow : narrow.all (fun n => groupOk n s.cfg.g) = true := List.all_eq_true.mpr hn
  have hwide : wide.all (fun n => groupOk n s.cfg.wideGroup) = true := List.all_eq_true.mpr hw
  have hgs : pow2AtLeast 7 (ceilDiv (s.cfg.g * 32) s.cfg.w) ≤ 8 := h.wide
  unfold needQuant needVtype Machine.need
  unfold State.quantCfg VCfg.wideGroup at *
  rw [h.vill, h.fmt]
  simp only [h.sew, h.block, hgs, hnarrow, hwide, hm, and_self, decide_true, Bool.and_self, Bool.not_false, ↓reduceIte, bind,
    Except.bind]

/-- The checks of R276 pass, and an instruction that reads two groups at most and writes three is admitted: what it then does. -/
theorem State.QuantRuns.runs {e : VEntry} {narrow wide : List Nat} {more : QCfg → Bool} {reads : QCfg → List GroupRead}
    {dest : QCfg → List Nat} {micro : QCfg → Nat} {k : QCfg → State → VRes} {P : State → Prop}
    (hn : ∀ n ∈ narrow, groupOk n s.cfg.g = true) (hw : ∀ n ∈ wide, groupOk n s.cfg.wideGroup = true)
    (hm : more (s.quantCfg f) = true) (hr : ∀ r ∈ reads (s.quantCfg f), r.used ≤ 8) (hlen : (reads (s.quantCfg f)).length ≤ 2)
    (hdest : (dest (s.quantCfg f)).length ≤ 24)
    (hk : ∀ s1, Admitted s s1 → ∃ t, k (s.quantCfg f) s1 = .ok t ∧ P t) :
    ∃ t, (do
      let q ← needQuant e s.cfg narrow wide more
      let s1 ← admission e s (reads q) (dest q) (micro q)
      k q s1) = .ok t ∧ P t := by
  obtain ⟨s1, hs1, had⟩ := admission_ok e s (reads (s.quantCfg f)) (dest (s.quantCfg f)) (micro (s.quantCfg f)) h.tidy h.room
    (reads_room hr hlen (by omega))
  rw [h.need hn hw hm]
  dsimp only [bind, Except.bind]
  rw [hs1]
  exact hk s1 had

/-- `vquant` (R279). -/
theorem vquantOp_ok {m : MaskNo} {b sc d : BitVec 5} (e : VEntry) (hd : groupOk d.toNat s.cfg.g = true)
    (hb : groupOk b.toNat s.cfg.wideGroup = true) (hdis : disjoint d.toNat s.cfg.g sc.toNat 1 = true) :
    let bk := blockSizeOf (some f)
    let block := fun k => quantBlock (some f) (s.hart.band 0) (s.quantIn m bk (s.wideVal b) k)
    ∃ t, vquantOp m b sc d e s = .ok t ∧
      WroteGroups s t (s.hart.vflags ||| BitVec.ofNat 9 (s.blockFlags m bk block)) s.hart.voutcnt
        [(d.toNat, s.cfg.g), (sc.toNat, 1)] ∧
      GroupElems s t d.toNat s.cfg.g s.cfg.sew (s.codesPut m bk block (s.wideBad b)) ∧
      GroupElems s t sc.toNat 1 2 (s.blocksPut m bk (fun k => (block k).scale % 2 ^ 8) (s.wideBad b)) := by
  obtain ⟨-, hg8, -, hd32⟩ := (groupOk_iff _ _).mp hd
  have hscale := (disjoint_iff _ _ _ _).mp hdis
  unfold vquantOp
  dsimp only
  refine h.runs (List.forall_mem_singleton.mpr hd) (List.forall_mem_singleton.mpr hb) hdis ?_ (by simp) ?_ fun s1 had => ?_
  · exact List.forall_mem_singleton.mpr (readBelow_used_le h.wide ..)
  · rw [List.length_append]
    exact Nat.le_trans (Nat.add_le_add (QCfg.narrowDest_length_le ..) (destRegs_length_le ..)) (by omega)
  simp only [had.src, had.run, had.narrowElems, had.perBlock, had.band, State.floatVal_wide, State.bad_wide, State.quantCfg_f,
    flagsOf_run, State.quantCfg_bk]
  obtain ⟨hw1, hcodes, -⟩ := (had.wroteFlags _).writeGroup s.cfg.sew _ hd32 (by simp)
  obtain ⟨hw2, hscales, hkeep⟩ := hw1.writeGroup (d := sc.toNat) (g := 1) 2 _ (by omega) (List.forall_mem_singleton.mpr hscale.symm)
  exact ⟨_, rfl, hw2, hkeep _ _ _ _ (by simp) (codesElems hcodes), blocksElems hscales⟩

/-- `vbscale` (R280). -/
theorem vbscaleOp_ok {m : MaskNo} {b sc d : BitVec 5} (e : VEntry) (hd : groupOk d.toNat s.cfg.g = true)
    (hb : groupOk b.toNat s.cfg.wideGroup = true) :
    let bk := blockSizeOf (some f)
    let y := groupSrc s sc.toNat 1 2
    let block := fun k => rescaleBlock (some f) (s.hart.band 0) (y k).1 (s.quantIn m bk (s.wideVal b) k)
    ∃ t, vbscaleOp m b sc d e s = .ok t ∧
      WroteGroups s t (s.hart.vflags ||| BitVec.ofNat 9 (s.blockFlags m bk block)) s.hart.voutcnt [(d.toNat, s.cfg.g)] ∧
      GroupElems s t d.toNat s.cfg.g s.cfg.sew (s.codesPut m bk block (fun i => s.wideBad b i || (y (i / bk)).2)) := by
  obtain ⟨-, hg8, -, hd32⟩ := (groupOk_iff _ _).mp hd
  unfold vbscaleOp
  dsimp only
  refine h.runs (List.forall_mem_singleton.mpr hd) (List.forall_mem_singleton.mpr hb) rfl ?_ (by simp) ?_ fun s1 had => ?_
  · exact List.forall_mem_cons.mpr ⟨readBelow_used_le h.wide .., List.forall_mem_singleton.mpr (readBelow_used_le (by decide) ..)⟩
  · exact Nat.le_trans (QCfg.narrowDest_length_le ..) (by omega)
  simp only [had.src, had.run, had.narrowElems, had.band, State.floatVal_wide, State.bad_wide, State.quantCfg_f, flagsOf_run,
    State.quantCfg_bk]
  obtain ⟨hw1, hcodes, -⟩ := (had.wroteFlags _).writeGroup s.cfg.sew _ hd32 (by simp)
  exact ⟨_, rfl, hw1, codesElems hcodes⟩

/-- `vdequant` (R281). -/
theorem vdequantOp_ok {m : MaskNo} {b sc d : BitVec 5} (e : VEntry) (hb : groupOk b.toNat s.cfg.g = true)
    (hd : groupOk d.toNat s.cfg.wideGroup = true) :
    let x := groupSrc s b.toNat s.cfg.g s.cfg.sew
    let y := groupSrc s sc.toNat 1 2
    let bk := blockSizeOf (some f)
    let r := fun i => toFormat .fp32 .rne (dequantValue f (x i).1 (y (i / bk)).1 (s.hart.band 0))
    ∃ t, vdequantOp m b sc d e s = .ok t ∧
      WroteGroups s t (s.flagsWith m (fun i => (r i).2)) s.hart.voutcnt [(d.toNat, s.cfg.wideGroup)] ∧
      GroupElems s t d.toNat s.cfg.wideGroup 4 (s.masked m (fun i => some ((r i).1 % 2 ^ 32, (x i).2 || (y (i / bk)).2))) := by
  obtain ⟨-, hg8, -, -⟩ := (groupOk_iff _ _).mp hb
  obtain ⟨-, hw8, -, hd32⟩ := (groupOk_iff _ _).mp hd
  unfold vdequantOp
  dsimp only
  refine h.runs (List.forall_mem_singleton.mpr hb) (List.forall_mem_singleton.mpr hd) rfl ?_ (by simp) ?_ fun s1 had => ?_
  · exact List.forall_mem_cons.mpr ⟨readBelow_used_le hg8 .., List.forall_mem_singleton.mpr (readBelow_used_le (by decide) ..)⟩
  · exact Nat.le_trans (destRegs_length_le ..) (Nat.le_trans hw8 (by decide))
  simp only [had.src, had.maskBit, had.band]
  rw [foldl_elim_eq (fun a b => a ||| b)]
  obtain ⟨hw1, hvalues, -⟩ := (had.wroteFlags _).writeGroup 4 _ hd32 (by simp)
  exact ⟨_, rfl, hw1, hvalues.congr fun i _ => join_map_actives s m _ (fun r : Nat × Nat × Bool => (r.1, r.2.2)) _ i⟩

/-- `vqef` (R282). -/
theorem vqefOp_ok {m : MaskNo} {b er d : BitVec 5} (e : VEntry) (hd : groupOk d.toNat s.cfg.g = true)
    (hb : groupOk b.toNat s.cfg.wideGroup = true) (her : groupOk er.toNat s.cfg.wideGroup = true) (hd31 : d.toNat + s.cfg.g ≤ 31)
    (hdis : disjoint d.toNat (s.cfg.g + 1) er.toNat s.cfg.wideGroup = true) :
    let bk := blockSizeOf (some f)
    let band := s.hart.band 0
    let val := fun i => exactAdd (s.wideVal b i) (s.wideVal er i)
    let bad := fun i => s.wideBad b i || s.wideBad er i
    let block := fun k => quantBlock (some f) band (s.quantIn m bk val k)
    let err := fun i => errorOf f (val i) ((block (i / bk)).codes.getD (i % bk) 0) (block (i / bk)).scale band
    ∃ t, vqefOp m b er d e s = .ok t ∧
      WroteGroups s t (s.hart.vflags ||| BitVec.ofNat 9
          (s.blockFlags m bk block ||| (if (s.actives m).any (fun i => (err i).2) then flagNX else 0))) s.hart.voutcnt
        [(d.toNat, s.cfg.g), (d.toNat + s.cfg.g, 1), (er.toNat, s.cfg.wideGroup)] ∧
      GroupElems s t d.toNat s.cfg.g s.cfg.sew (s.codesPut m bk block bad) ∧
      GroupElems s t (d.toNat + s.cfg.g) 1 2 (s.blocksPut m bk (fun k => (block k).scale % 2 ^ 8) bad) ∧
      GroupElems s t er.toNat s.cfg.wideGroup 4 (s.masked m (fun i => some ((err i).1 % 2 ^ 32, bad i))) := by
  obtain ⟨-, hg8, -, hd32⟩ := (groupOk_iff _ _).mp hd
  obtain ⟨-, hw8, -, her32⟩ := (groupOk_iff _ _).mp her
  have hapart := (disjoint_iff _ _ _ _).mp hdis
  intro bk band val bad block err
  unfold vqefOp
  dsimp only
  refine h.runs (List.forall_mem_singleton.mpr hd) (List.forall_mem_cons.mpr ⟨hb, List.forall_mem_singleton.mpr her⟩) ?_ ?_ (by simp) ?_ fun s1 had => ?_
  · rw [decide_eq_true hd31]
    exact hdis
  · exact List.forall_mem_cons.mpr ⟨readBelow_used_le hw8 .., List.forall_mem_singleton.mpr (readBelow_used_le hw8 ..)⟩
  · rw [List.length_append, List.length_append]
    exact Nat.le_trans (Nat.add_le_add (Nat.add_le_add (QCfg.narrowDest_length_le ..) (destRegs_length_le ..))
      (destRegs_length_le ..)) (show s.cfg.g + 1 + s.cfg.wideGroup ≤ 24 by omega)
  simp only [had.src, had.run, had.narrowElems, had.perBlock, had.band, had.isActive, State.floatVal_wide, State.bad_wide,
    State.quantCfg_f, flagsOf_run, State.quantCfg_bk]
  generalize herrs : List.map _ (List.range s.cfg.vl) = errs
  have herr : errs = (List.range s.hart.vl.toNat).map (fun i => if s.hart.maskBit m i then some (err i, bad i) else none) := by
    rw [← herrs]
    refine List.map_congr_left fun i hi => ?_
    cases hm : s.hart.maskBit m i with
    | true =>
      have hactive := (s.isActive_iff m i).mpr ⟨List.mem_range.mp hi, hm⟩
      have hblock := QCfg.run_active (q := s.quantCfg f) (blockSizeOf_pos (some f)) hactive val (fun _ => quantBlock (some f) band)
      rw [State.quantCfg_bk] at hblock
      rw [hblock]
      simp only [hactive, ↓reduceIte]
      rfl
    | false =>
      have hidle : ¬ s.isActive m i = true := fun ha => Bool.false_ne_true (hm.symm.trans ((s.isActive_iff m i).mp ha).2)
      simp only [hidle]
      split <;> rfl
  rw [herr, any_map_actives]
  obtain ⟨hw1, hcodes, -⟩ := (had.wroteFlags _).writeGroup s.cfg.sew _ hd32 (by simp)
  obtain ⟨hw2, hscales, hkeep2⟩ := hw1.writeGroup (d := d.toNat + s.cfg.g) (g := 1) 2 _ (by omega) (by simp)
  obtain ⟨hw3, herrors, hkeep3⟩ := hw2.writeGroup 4 _ her32 (by
    simp only [List.nil_append, List.cons_append, List.forall_mem_cons, List.not_mem_nil, false_implies, implies_true, and_true]
    omega)
  exact ⟨_, rfl, hw3, hkeep3 _ _ _ _ (by simp) (hkeep2 _ _ _ _ (by simp) (codesElems hcodes)),
    hkeep3 _ _ _ _ (by simp) (blocksElems hscales),
    herrors.congr fun i _ => join_map_actives s m _ (fun r : (Nat × Bool) × Bool => (r.1.1, r.2)) _ i⟩

omit h in
/-- The threshold a `vouts` captures (R283). -/
theorem thetaOf_entry {w : InstrWord} {a : BitVec 5} {mant : Nat} {e : Int}
    (ha : decodeFloat .fp32 (unbox32 (s.hart.getF a)) = .fin false mant e) (hmant : mant ≠ 0) :
    thetaOf (s.entryFor w (opF s a)) = some (mant, e) := by
  unfold thetaOf
  rw [show (s.entryFor w (opF s a)).op0.getD 0#64 = s.hart.getF a from rfl, ha]
  exact if_neg hmant

/-- `vouts` (R283). -/
theorem voutsOp_ok {m : MaskNo} {b d : BitVec 5} {e : VEntry} {theta : Nat × Int} (hsew : s.cfg.sew = 0) (hg : s.cfg.g = 1)
    (hd : d.toNat ≤ 29) (hb : groupOk b.toNat s.cfg.wideGroup = true) (htheta : thetaOf e = some theta) :
    let bk := blockSizeOf (some f)
    let out := fun k => outlierBlock (s.hart.band 0) theta (s.quantIn m bk (s.wideVal b) k)
    let live := (List.range (ceilDiv s.hart.vl.toNat bk)).filter (s.liveBlock m bk)
    ∃ t, voutsOp m b d e s = .ok t ∧
      WroteGroups s t (s.hart.vflags ||| BitVec.ofNat 9 (s.blockFlags m bk (fun k => (out k).1)))
        (s.hart.addClipped (live.map (fun k => (out k).2.2)).sum).voutcnt
        [(d.toNat, s.cfg.g), (d.toNat + 1, 1), (d.toNat + 2, 1)] ∧
      GroupElems s t d.toNat s.cfg.g s.cfg.sew (s.codesPut m bk (fun k => (out k).1) (s.wideBad b)) ∧
      GroupElems s t (d.toNat + 1) 1 2 (s.blocksPut m bk (fun k => (out k).1.scale % 2 ^ 8) (s.wideBad b)) ∧
      GroupElems s t (d.toNat + 2) 1 4 (s.blocksPut m bk (fun k => (out k).2.1 % 2 ^ 32) (s.wideBad b)) := by
  unfold voutsOp
  dsimp only
  refine h.runs (by simp) (List.forall_mem_singleton.mpr hb) ?_ ?_ (by simp) ?_ fun s1 had => ?_
  · simp [hsew, hg, hd, htheta]
  · exact List.forall_mem_singleton.mpr (readBelow_used_le h.wide ..)
  · rw [List.length_append, List.length_append]
    exact Nat.le_trans (Nat.add_le_add (Nat.add_le_add (QCfg.narrowDest_length_le ..) (destRegs_length_le ..))
      (destRegs_length_le ..)) (by omega)
  simp only [had.src, had.run, had.narrowElems, had.perBlock, had.band, htheta, Option.getD_some, QCfg.map_run,
    State.floatVal_wide, State.bad_wide, flagsOf_run, sum_run, State.quantCfg_bk]
  obtain ⟨hw1, hcodes, -⟩ := (had.wroteFlagsClipped _ _).writeGroup (d := d.toNat) (g := s.cfg.g) s.cfg.sew _ (by omega) (by simp)
  obtain ⟨hw2, hscales, hkeep2⟩ := hw1.writeGroup (d := d.toNat + 1) (g := 1) 2 _ (by omega) (by simp [hg])
  obtain ⟨hw3, hrecords, hkeep3⟩ := hw2.writeGroup (d := d.toNat + 2) (g := 1) 4 _ (by omega) (by simp [hg])
  exact ⟨_, rfl, hw3, hkeep3 _ _ _ _ (by simp) (hkeep2 _ _ _ _ (by simp) (codesElems hcodes :)),
    hkeep3 _ _ _ _ (by simp) (blocksElems hscales :), (blocksElems hrecords :)⟩

end

/-- Settles O22: the search of R68 step 4 is a bisection of codes in rising order (`scaleFor_some`, `scaleFor_none`), and each
instruction is its effect (`vquantOp_ok`, `vbscaleOp_ok`, `vdequantOp_ok`) run at once by a ready hart (`WroteGroups.exec`). -/
theorem quantizeResult : Obligations.QuantizeResult := by
  unfold Obligations.QuantizeResult
  refine ⟨fun a d => ?_, fun m b sc d f s h => ⟨fun hd hb hdis => ?_, fun hd hb => ?_, fun hb hd => ?_⟩⟩
  · dsimp only
    cases hscale : scaleFor a d with
    | some n => exact scaleFor_some hscale
    | none => exact fun k hk => scaleFor_none hscale hk
  · obtain ⟨t, ht, hw, hcodes, hscales⟩ := vquantOp_ok h.start (m := m) (s.entryFor _ noOps) hd hb hdis
    obtain ⟨u, hu, hframe, hothers, hsame⟩ := hw.exec (i := .vquant m b sc d) rfl h.1 ht
    exact ⟨u, hu, hframe, hsame _ _ _ _ hcodes, hsame _ _ _ _ hscales, hothers⟩
  · obtain ⟨t, ht, hw, hcodes⟩ := vbscaleOp_ok h.start (m := m) (sc := sc) (s.entryFor _ noOps) hd hb
    obtain ⟨u, hu, hframe, hothers, hsame⟩ := hw.exec (i := .vbscale m b sc d) rfl h.1 ht
    exact ⟨u, hu, hframe, (hsame _ _ _ _ hcodes).groupPut hothers⟩
  · obtain ⟨t, ht, hw, hvalues⟩ := vdequantOp_ok h.start (m := m) (sc := sc) (s.entryFor _ noOps) hb hd
    obtain ⟨u, hu, hframe, hothers, hsame⟩ := hw.exec (i := .vdequant m b sc d) rfl h.1 ht
    exact ⟨u, hu, hframe, (hsame _ _ _ _ hvalues).groupWritten hothers⟩

/-- Settles O23: each instruction is its effect (`vqefOp_ok`, `voutsOp_ok`) run at once by a ready hart (`WroteGroups.exec`); the
groups of one destination lie side by side. -/
theorem errorFeedbackResult : Obligations.ErrorFeedbackResult := by
  unfold Obligations.ErrorFeedbackResult
  intro m b a d f s h
  refine ⟨fun hd hb ha hd31 hdis => ?_, fun mant e hsew hg hd hb htheta hmant => ?_⟩
  · obtain ⟨t, ht, hw, hcodes, hscales, herrors⟩ := vqefOp_ok h.start (m := m) (s.entryFor _ noOps) hd hb ha hd31 hdis
    obtain ⟨u, hu, hframe, hothers, hsame⟩ := hw.exec (i := .vqef m b a d) rfl h.1 ht
    refine ⟨u, hu, hframe, hsame _ _ _ _ hcodes, hsame _ _ _ _ hscales, hsame _ _ _ _ herrors, fun n g sew hn => hothers n g sew ?_⟩
    have hcfg : s.start.cfg = s.cfg := rfl
    simp only [List.forall_mem_cons, List.not_mem_nil, false_implies, implies_true, and_true, hcfg] at hn ⊢
    omega
  · obtain ⟨t, ht, hw, hcodes, hscales, hrecords⟩ := voutsOp_ok h.start (m := m) hsew hg hd hb (thetaOf_entry htheta hmant)
    obtain ⟨u, hu, hframe, hothers, hsame⟩ := hw.exec (i := .vouts m b a d) rfl h.1 ht
    have hcfg : s.start.cfg = s.cfg := rfl
    rw [hcfg, hg, hsew] at hcodes
    rw [hcfg, hg] at hothers
    refine ⟨u, hu, hframe, hsame _ _ _ _ hcodes, hsame _ _ _ _ hscales, hsame _ _ _ _ hrecords, fun n g sew hn => hothers n g sew ?_⟩
    simp only [List.forall_mem_cons, List.not_mem_nil, false_implies, implies_true, and_true] at hn ⊢
    omega

end Sys2Proof.Machine
end

section
/-! O33. `setl` and `setl.r`: an instruction that is counted and changes its hart alone, and what a legal and an illegal `vtype` set
(R166 to R169). -/

namespace Sys2Proof.Machine

/-! Instructions that are counted and change their hart alone (R32, R430, R433). -/

/-- A hart with one more instruction in `instret` (R430). -/
def Hart.retired (h : Hart) : Hart := { h with instret := if h.irInhibit then h.instret else h.instret + 1#64 }

/-- Counting an instruction counts it of the current hart. -/
theorem State.retire_eq (s : State) : s.retire = s.onHart Hart.retired := s.retire_frame

/-- A change of a hart that takes nothing into its vector stream or out of it, and to which it is all one whether the instruction is
counted before it or after it. -/
structure Hart.LeavesStream (f : Hart → Hart) : Prop where
  hid : ∀ h, (f h).hid = h.hid
  atRest : ∀ h, (f h).atRest = h.atRest
  retired : ∀ h, (f h).retired = f h.retired

/-- Writing an integer register. -/
theorem Hart.LeavesStream.setX (d : XReg) (v : Word) : Hart.LeavesStream (fun h => h.setX d v) where
  hid h := h.setX_hid d v
  atRest h := by simp [Hart.atRest]
  retired h := by
    unfold Hart.setX
    split <;> rfl

/-- Two changes one after the other. -/
theorem Hart.LeavesStream.comp {f g : Hart → Hart} (hg : Hart.LeavesStream g) (hf : Hart.LeavesStream f) :
    Hart.LeavesStream (fun h => g (f h)) where
  hid h := (hg.hid _).trans (hf.hid h)
  atRest h := (hg.atRest _).trans (hf.atRest h)
  retired h := (hg.retired _).trans (congrArg g (hf.retired h))

/-- A hart that was still is so after such a change. -/
theorem Hart.LeavesStream.still {f : Hart → Hart} (hf : Hart.LeavesStream f) {s : State} (h : s.still = true) :
    (s.onHart f).still = true := by
  unfold State.still State.pinsSome at *
  rw [show (s.onHart f).hart = f s.hart from rfl, hf.atRest, hf.hid]
  exact h

/-- What `idle` says. -/
theorem State.idle_iff (s : State) (p : Nat) : s.idle p = true ↔ s.atRest = true ∧ (s.profiles s.hart).testBit p = true := by
  simp [State.idle]

/-- The state an instruction runs in, with the instruction counted as admitted (R433). -/
def State.begun (s : State) (e : VEntry) : State := s.start.countAdmitted e 0

/-- Beginning an instruction moves the PC and changes the cores alone. -/
theorem State.begun_frame (s : State) (e : VEntry) :
    s.begun e = { s with hart := { s.hart with pc := s.hart.pc + 4#64 }, cores := (s.begun e).cores } :=
  s.start.countAdmitted_frame e 0 0

/-- The cores of a hart that begins an instruction. -/
theorem State.begun_counted (s : State) (e : VEntry) : Counted s (s.begun e) :=
  s.start_counted.trans rfl (s.start.countAdmitted_counted e 0 0)

/-- A hart at rest runs at once an instruction that is counted and changes its hart alone. -/
theorem exec_onHart {i : Instr} {w : InstrWord} {p : Nat} {ops : State → Captured} {eff : VEntry → State → VRes} {f : Hart → Hart}
    {s : State} (hf : Hart.LeavesStream f) (hi : instrRun i = some (.row ⟨w, p, .any, ops, eff⟩)) (hs : s.idle p = true)
    (heff : eff (s.entryFor w (ops s)) s.start = .ok ((s.begun (s.entryFor w (ops s))).onHart f)) :
    ∃ t, exec i s = .next t ∧ t = { s with hart := f s.hart.past, cores := s.coresAs t } := by
  obtain ⟨hrest, hprofile⟩ := (s.idle_iff p).mp hs
  have hbegun := s.begun_counted (s.entryFor w (ops s))
  have hframe := s.begun_frame (s.entryFor w (ops s))
  have hissue := fun hstill => (exec_run i s _ hi).trans (issue_ok hrest hprofile heff hstill)
  generalize s.begun (s.entryFor w (ops s)) = z at hbegun hframe hissue
  have hstill : (z.onHart f).still = true := by
    refine hf.still (State.still_congr ((State.atRest_iff s).mp hrest).1 ?_ ?_ ?_ ?_ ?_ ?_ ?_ ?_ ?_ ?_) <;> rw [hframe]
  have hhid : (z.onHart f).hart.hid = s.hart.hid := (hf.hid _).trans (by rw [hframe])
  have hcounted : Counted s (z.onHart f) := hbegun.trans (by rw [hframe]) (.of_eq rfl)
  have hhart : (f { s.hart with pc := s.hart.pc + 4#64 }).retired = f s.hart.past := hf.retired _
  refine ⟨_, hissue hstill, ?_⟩
  rw [← hcounted.finish hhid, ← hhart, State.finish_frame, hframe]
  rfl

/-! What a legal `vtype` grants (R168, R169). -/

/-- A legal `vtype` names one of the blocks of R89, or none. -/
theorem block_le_of_legal {vt : Nat} (h : vtypeIllegal vt = false) : getBits vt 6 3 ≤ 5 := by
  simp only [vtypeIllegal, Bool.or_eq_false_iff, decide_eq_false_iff_not] at h
  omega

/-- Of the block codes in use only that of no block has no size (R89). -/
theorem blockOf_eq_zero {b : Nat} (h : b ≤ 5) : blockOf b = 0 ↔ b = 0 := by
  have hcodes : ∀ n < 6, blockOf n = 0 ↔ n = 0 := by decide
  exact hcodes b (by omega)

/-- The fields of a `vtype` that a grant reads (R165). -/
theorem vtype_fields (vt : Nat) : getBits vt 0 3 = vt % 8 ∧ getBits vt 4 2 = vt / 16 % 4 ∧ getBits vt 6 3 = vt / 64 % 8 := by
  simp [getBits, Nat.shiftRight_eq_div_pow]

/-- The columns granted (R168). -/
theorem grantCols_eq (vt l rows cols : Nat) : grantCols vt l cols = (grantOf vt l rows cols).1 := by
  obtain ⟨hsew, hgroup, hblock⟩ := vtype_fields vt
  unfold grantCols
  rw [hsew, hgroup, hblock]
  rfl

/-- The rows granted (R169). -/
theorem rowCap_eq {vt : Nat} (h : vtypeIllegal vt = false) (l rows cols : Nat) :
    min rows (rowCap vt l) = (grantOf vt l rows cols).2 := by
  have hlegal := blockOf_eq_zero (block_le_of_legal h)
  obtain ⟨hsew, hgroup, hblock⟩ := vtype_fields vt
  unfold rowCap grantOf
  rw [hsew, hgroup, hblock]
  rw [hblock] at hlegal
  dsimp only
  by_cases hb : vt / 64 % 8 = 0
  · rw [if_neg (not_not_intro (hlegal.mpr hb)), hb]
    change _ = if kBlock (vt % 8) 0 = 0 then 0 else min rows (min 128 (_ / kBlock (vt % 8) 0))
    rw [Nat.div_div_eq_div_mul, Nat.mul_comm (sewBits _)]
    split <;> simp
  · rw [if_pos (mt hlegal.mp hb)]
    simp [kBlock, hb]

/-- Beginning an instruction changes no power lane ceiling (R175). -/
theorem State.begun_ceilq (s : State) (e : VEntry) :
    ((s.begun e).core (coreOfHart s.hart.hid)).ceilq = (s.core (coreOfHart s.hart.hid)).ceilq := by
  obtain ⟨hpm, slack, uses, writers, g, h⟩ := s.begun_counted e
  unfold State.core at h ⊢
  rw [h]
  by_cases hn : coreOfHart s.hart.hid < 128
  · rw [get_set _ _ _ _ hn]
    rfl
  · rw [set_out _ _ _ hn]

/-- The lanes a `setl` grants for are those of the state it is dispatched in (R170). -/
theorem State.begun_grantLanes (s : State) (e : VEntry) : (s.begun e).grantLanes = min (s.lanes s.hart) s.ceiling := by
  have hlanes : (s.begun e).lanes (s.begun e).hart = s.lanes s.hart :=
    State.lanes_congr (by rw [s.begun_frame e]) (by rw [s.begun_frame e])
  have hceiling : (s.begun e).ceiling = s.ceiling := by
    have hhart : (s.begun e).hart = { s.hart with pc := s.hart.pc + 4#64 } := by rw [s.begun_frame e]
    unfold State.ceiling
    rw [hhart]
    dsimp only
    rw [s.begun_ceilq e]
  unfold State.grantLanes
  rw [hlanes, hceiling]

/-! The two instructions. -/

/-- What `setl` sets where the `vtype` requested is illegal (R168). -/
def Hart.setIllegal (d : XReg) (h : Hart) : Hart :=
  Hart.setX { h with vl := 0#32, vrow := 0#32, vtype := 0x8000000000000000#64 } d 0#64

/-- What `setl` sets where it grants `g.1` columns and `g.2` rows at `l` lanes (R168). -/
def Hart.setGrant (vt l : Nat) (g : Nat × Nat) (d : XReg) (h : Hart) : Hart :=
  Hart.setX
    { h with
      vl := BitVec.ofNat 32 g.1, vrow := BitVec.ofNat 32 g.2, vtype := BitVec.ofNat 64 vt, lgrant := BitVec.ofNat 5 l }
    d (BitVec.ofNat 64 (g.2 * 2 ^ 32 + g.1))

theorem Hart.setIllegal_leavesStream (d : XReg) : Hart.LeavesStream (Hart.setIllegal d) :=
  (Hart.LeavesStream.setX d _).comp ⟨fun _ => rfl, fun _ => rfl, fun _ => rfl⟩

theorem Hart.setGrant_leavesStream (vt l : Nat) (g : Nat × Nat) (d : XReg) : Hart.LeavesStream (Hart.setGrant vt l g d) :=
  (Hart.LeavesStream.setX d _).comp ⟨fun _ => rfl, fun _ => rfl, fun _ => rfl⟩

/-- The rows or the columns that rs1 requests: the most there are where it is x0, else one half of its register (R168). -/
def requested (a : XReg) (half : Nat) : Nat := if a = 0#5 then 2 ^ 32 - 1 else half

/-- The operand captured from rs1 is its register, where it is not x0 (R168, R252). -/
theorem requested_opSetl (s : State) (a : XReg) (half : Nat → Nat) :
    requested a (half ((opSetl s a).op0.getD 0#64).toNat) = requested a (half (s.hart.getX a).toNat) := by
  unfold requested opSetl
  by_cases ha : a = 0#5
  · rw [if_pos ha, if_pos ha]
  · rw [if_neg ha, if_neg ha, if_neg ha]
    rfl

/-- An illegal `vtype` (R166, R168). -/
theorem setlOp_illegal {s : State} {a d : XReg} {vt : Nat} (e : VEntry) (h : vtypeIllegal vt = true) :
    setlOp a vt d e s.start = .ok ((s.begun e).onHart (Hart.setIllegal d)) := by
  unfold setlOp
  dsimp only
  rw [if_pos h]
  rfl

/-- A legal `vtype`, no reclaim pending at a reclaim point (R41, R168). -/
theorem setlOp_legal {s : State} {a d : XReg} {vt : Nat} (e : VEntry) (h : vtypeIllegal vt = false)
    (hr : ¬(vt.testBit 9 = true ∧ s.reclaimPending = true)) :
    let req := (e.op0.getD 0#64).toNat
    let l := min (s.lanes s.hart) s.ceiling
    setlOp a vt d e s.start = .ok ((s.begun e).onHart
      (Hart.setGrant vt l (grantOf vt l (requested a (req / 2 ^ 32)) (requested a (req % 2 ^ 32))) d)) := by
  intro req l
  have hwait : ¬(vt.testBit 9 = true ∧ s.start.reclaimPending = true) := hr
  have hlanes : (s.start.countAdmitted e 0).grantLanes = l := s.begun_grantLanes e
  unfold setlOp grantLegal
  dsimp only
  rw [if_neg (by simp [h]), if_neg hwait, hlanes, rowCap_eq h l _ (requested a (req % 2 ^ 32)),
    grantCols_eq vt l (requested a (req / 2 ^ 32))]
  rfl

/-- `setl` and `setl.r` at once: the operand rs1 and the `vtype` of their rows are those of the hart (R168, R252). -/
theorem setlRow_ok {i : Instr} {w : InstrWord} {ops : State → Captured} {eff : VEntry → State → VRes} {a d : XReg} {vt : Nat}
    {s : State} (hi : instrRun i = some (.row ⟨w, 0, .any, ops, eff⟩)) (hs : s.idle 0 = true) (hop : (ops s).op0 = (opSetl s a).op0)
    (heff : ∀ t, eff (s.entryFor w (ops s)) t = setlOp a vt d (s.entryFor w (ops s)) t) :
    let x := (s.hart.getX a).toNat
    let l := min (s.lanes s.hart) s.ceiling
    (vtypeIllegal vt = true →
      ∃ t, exec i s = .next t ∧ t = { s with hart := s.hart.past.setIllegal d, cores := s.coresAs t }) ∧
    (vtypeIllegal vt = false → ¬(vt.testBit 9 = true ∧ s.reclaimPending = true) →
      ∃ t, exec i s = .next t ∧ t = { s with
        hart := s.hart.past.setGrant vt l (grantOf vt l (requested a (x / 2 ^ 32)) (requested a (x % 2 ^ 32))) d,
        cores := s.coresAs t }) := by
  refine ⟨fun h => ?_, fun h hr => ?_⟩
  · exact exec_onHart (Hart.setIllegal_leavesStream d) hi hs ((heff _).trans (setlOp_illegal _ h))
  · refine exec_onHart (Hart.setGrant_leavesStream vt _ _ d) hi hs ((heff _).trans ((setlOp_legal _ h hr).trans ?_))
    have hop0 : (s.entryFor w (ops s)).op0 = (opSetl s a).op0 := hop
    rw [hop0, requested_opSetl s a (· / 2 ^ 32), requested_opSetl s a (· % 2 ^ 32)]

/-- Settles O33: each form is a row whose effect is `setlOp` (`setlRow_ok`), which counts the instruction and changes the hart alone
(`setlOp_illegal`, `setlOp_legal`), so that a hart at rest runs it at once (`exec_onHart`). -/
theorem setLengthResult : Obligations.SetLengthResult := by
  unfold Obligations.SetLengthResult
  intro imm b a d s hs x rows cols l
  simp only [List.forall_mem_cons, List.not_mem_nil, false_implies, implies_true, and_true]
  exact ⟨setlRow_ok (i := .setl imm a d) rfl hs rfl fun _ => rfl, setlRow_ok (i := .setlR b a d) rfl hs rfl fun _ => rfl⟩

end Sys2Proof.Machine
end

section
/-! O60. The state after reset (R161, R303, R431, R432, R443, R456). -/

namespace Sys2Proof.Machine

/-- The control register of every launch queue reads as 0 (R456). -/
theorem reset_queues : ∀ q ∈ State.reset.queues.toList, lqctlShown q = 0 := by
  intro q hq
  have hreset : q ∈ List.replicate 64 LaunchQueue.reset := hq
  rw [List.eq_of_mem_replicate hreset]
  rfl

/-- The window of every home region is the 16 ns of R443. -/
theorem reset_regions : ∀ r ∈ State.reset.regions.toList, r.window = 16 := by
  intro r hr
  have hreset : r ∈ List.replicate 4 Region.reset := hr
  rw [List.eq_of_mem_replicate hreset]
  rfl

/-- Every drop counter is 0 (R428). -/
theorem reset_frameDrops (n : Fin 6) : State.reset.frameDrops[n] = 0#32 :=
  Vector.getElem_replicate n.isLt

/-- Settles O60: the queues, regions and drop counters are replicas of one reset value (`reset_queues`, `reset_regions`,
`reset_frameDrops`), and every control register is read by computation. -/
theorem resetValues : Obligations.ResetValues := by
  unfold Obligations.ResetValues
  refine ⟨⟨rfl, rfl⟩, ?_, ⟨rfl, rfl, rfl, rfl, reset_regions⟩, reset_queues, reset_frameDrops,
    ⟨rfl, rfl, rfl, rfl, rfl, rfl, rfl, rfl, rfl, rfl, rfl⟩⟩
  decide

end Sys2Proof.Machine
end
